-- ==== Sys2Proof/Word.lean ====
section
/-! DEFINITION. The word types of the DZP-9100 (R4, R67, R92, R135, R207). -/

namespace Sys2Proof

/-- A byte of memory. -/
abbrev Byte := BitVec 8
/-- A halfword: the unit in which code is fetched (R61). -/
abbrev Half := BitVec 16
/-- A 32-bit word: an instruction word, a binary32 value, a mean or spread word. -/
abbrev Word := BitVec 32
/-- A 64-bit doubleword: a d-register, a scalar register, an address. -/
abbrev DWord := BitVec 64
/-- The lanes of a team, one bit each: bit 32j + i is lane i of mask word j (R92). -/
abbrev LaneMask := BitVec 1024
/-- A Peal key (R207). -/
abbrev PealKey := BitVec 128

end Sys2Proof
end

