-- ==== Sys2Proof/Syntax.lean ====
section
/-! DEFINITION. The instructions of the DZP-9100: one constructor per row of spec/opcode_table.json. Encoded rows carry
the fields of their format (R67, R343), least significant field first; the rows that are steps of an engine, of the host
or of a unit carry the identity of what they act on. -/

namespace Sys2Proof

/-- One 64-byte command entry (R365), with the queue it was read from and its index there. Queue `64·c + q` is queue q of
context c; queue `64·4096` is the administrative queue. -/
structure Command where
  queue : Nat
  idx : Nat
  op : Half
  flags : Half
  res0 : Word
  waitCtr : DWord
  waitVal : DWord
  doneCtr : DWord
  p0 : DWord
  p1 : DWord
  p2 : DWord
  p3 : DWord
  deriving DecidableEq, Repr

/-- A fabric operation as it arrives at a receiving port (R380, R385): the port (die·6 + n), the source endpoint and ring
that the inbound table is searched for, the message's number, and the descriptor's fields with the data it carries. -/
structure FabricMsg where
  port : Nat
  srcEndpoint : Nat
  srcRing : Nat
  id : Nat
  aop : BitVec 3
  fence : Bool
  pair : Bool
  acct : Bool
  scope : BitVec 3
  dst : DWord
  amount : DWord
  data : List Byte
  deriving DecidableEq, Repr

/-- The Carillon state of R340 that a steal across chips sends (R388), and the entry and pages that go with it. -/
structure StealMsg where
  id : Nat
  die : Nat
  entry : Nat
  version : DWord
  len : Word
  user : List Byte
  prog : Nat
  pc : Nat
  state : Nat
  c : List (Nat × Word)
  key : List (Nat × PealKey)
  x : List (Nat × DWord)
  pos : List (Nat × DWord)
  val : List (Nat × Word)
  idx : List (Nat × Word)
  ccnt : Nat
  hist : List Word
  seq : DWord
  fcause : Byte
  tcause : Byte
  pages : List (List Byte)
  deriving DecidableEq, Repr

/-- Why a fetch could not give an instruction (R63, R285). -/
inductive FetchFault where
  /-- Not canonical, odd, outside the global aperture, or a second halfword past the top (R63). -/
  | target (address : DWord)
  /-- The translation of a fetched halfword failed with an MMP status (R285, R294). -/
  | fetch (address : DWord) (status : Byte)
  /-- The world check of R285 refused the fetch. -/
  | world (address : DWord)
  /-- A control transfer reached an instruction that is no clause header (R75). -/
  | noHeader (address : DWord)
  /-- The fetch waits for the MMP or for a tile (R285). -/
  | await (address : DWord)
  deriving DecidableEq, Repr

/-- The instructions and steps of the opcode table. -/
inductive Instr where
  /-- MOV (R66): Copies a whole 64-bit d-register into another in every active lane; 16-bit form only. -/
  | mov (d : BitVec 5) (b : BitVec 5)
  /-- IADD_16 (R65): 16-bit two-address form of IADD. -/
  | iadd16 (d : BitVec 5) (b : BitVec 5)
  /-- ISUB_16 (R65): 16-bit two-address form of ISUB. -/
  | isub16 (d : BitVec 5) (b : BitVec 5)
  /-- IMUL_16 (R65): 16-bit two-address form of IMUL. -/
  | imul16 (d : BitVec 5) (b : BitVec 5)
  /-- IAND_16 (R65): 16-bit two-address form of IAND. -/
  | iand16 (d : BitVec 5) (b : BitVec 5)
  /-- IOR_16 (R65): 16-bit two-address form of IOR. -/
  | ior16 (d : BitVec 5) (b : BitVec 5)
  /-- IXOR_16 (R65): 16-bit two-address form of IXOR. -/
  | ixor16 (d : BitVec 5) (b : BitVec 5)
  /-- ISHL_16 (R65): 16-bit two-address form of ISHL. -/
  | ishl16 (d : BitVec 5) (b : BitVec 5)
  /-- ISHR_16 (R65): 16-bit two-address form of ISHR. -/
  | ishr16 (d : BitVec 5) (b : BitVec 5)
  /-- FADD_16 (R65): 16-bit two-address form of FADD. -/
  | fadd16 (d : BitVec 5) (b : BitVec 5)
  /-- FSUB_16 (R65): 16-bit two-address form of FSUB. -/
  | fsub16 (d : BitVec 5) (b : BitVec 5)
  /-- FMUL_16 (R65): 16-bit two-address form of FMUL. -/
  | fmul16 (d : BitVec 5) (b : BitVec 5)
  /-- FMAX_16 (R65): 16-bit two-address form of FMAX. -/
  | fmax16 (d : BitVec 5) (b : BitVec 5)
  /-- FMIN_16 (R65): 16-bit two-address form of FMIN. -/
  | fmin16 (d : BitVec 5) (b : BitVec 5)
  /-- IMAX_16 (R65): 16-bit two-address form of IMAX. -/
  | imax16 (d : BitVec 5) (b : BitVec 5)
  /-- IMIN_16 (R65): 16-bit two-address form of IMIN. -/
  | imin16 (d : BitVec 5) (b : BitVec 5)
  /-- IADD (R143): 32-bit integer add modulo 2^32 in each active lane. -/
  | iadd (w : BitVec 2) (d : BitVec 6) (a : BitVec 6) (p : BitVec 2) (b : BitVec 6) (q : BitVec 2)
  /-- ISUB (R143): 32-bit integer subtract. -/
  | isub (w : BitVec 2) (d : BitVec 6) (a : BitVec 6) (p : BitVec 2) (b : BitVec 6) (q : BitVec 2)
  /-- IMUL (R143): Low 32 bits of the integer product. -/
  | imul (w : BitVec 2) (d : BitVec 6) (a : BitVec 6) (p : BitVec 2) (b : BitVec 6) (q : BitVec 2)
  /-- IMULH (R143): High 32 bits of the signed product. -/
  | imulh (w : BitVec 2) (d : BitVec 6) (a : BitVec 6) (p : BitVec 2) (b : BitVec 6) (q : BitVec 2)
  /-- IMULHU (R143): High 32 bits of the unsigned product. -/
  | imulhu (w : BitVec 2) (d : BitVec 6) (a : BitVec 6) (p : BitVec 2) (b : BitVec 6) (q : BitVec 2)
  /-- IMAD (R143): Low 32 bits of a*b plus the old d. -/
  | imad (w : BitVec 2) (d : BitVec 6) (a : BitVec 6) (p : BitVec 2) (b : BitVec 6) (q : BitVec 2)
  /-- IAND (R143): Bitwise AND. -/
  | iand (w : BitVec 2) (d : BitVec 6) (a : BitVec 6) (p : BitVec 2) (b : BitVec 6) (q : BitVec 2)
  /-- IOR (R143): Bitwise OR. -/
  | ior (w : BitVec 2) (d : BitVec 6) (a : BitVec 6) (p : BitVec 2) (b : BitVec 6) (q : BitVec 2)
  /-- IXOR (R143): Bitwise exclusive OR. -/
  | ixor (w : BitVec 2) (d : BitVec 6) (a : BitVec 6) (p : BitVec 2) (b : BitVec 6) (q : BitVec 2)
  /-- IANDN (R143): a AND NOT b. -/
  | iandn (w : BitVec 2) (d : BitVec 6) (a : BitVec 6) (p : BitVec 2) (b : BitVec 6) (q : BitVec 2)
  /-- ISHL (R143): Shift left by b[4:0]. -/
  | ishl (w : BitVec 2) (d : BitVec 6) (a : BitVec 6) (p : BitVec 2) (b : BitVec 6) (q : BitVec 2)
  /-- ISHR (R143): Logical shift right by b[4:0]. -/
  | ishr (w : BitVec 2) (d : BitVec 6) (a : BitVec 6) (p : BitVec 2) (b : BitVec 6) (q : BitVec 2)
  /-- ISRA (R143): Arithmetic shift right by b[4:0]. -/
  | isra (w : BitVec 2) (d : BitVec 6) (a : BitVec 6) (p : BitVec 2) (b : BitVec 6) (q : BitVec 2)
  /-- IMIN (R143): Signed minimum. -/
  | imin (w : BitVec 2) (d : BitVec 6) (a : BitVec 6) (p : BitVec 2) (b : BitVec 6) (q : BitVec 2)
  /-- IMAX (R143): Signed maximum. -/
  | imax (w : BitVec 2) (d : BitVec 6) (a : BitVec 6) (p : BitVec 2) (b : BitVec 6) (q : BitVec 2)
  /-- UMIN (R143): Unsigned minimum. -/
  | umin (w : BitVec 2) (d : BitVec 6) (a : BitVec 6) (p : BitVec 2) (b : BitVec 6) (q : BitVec 2)
  /-- UMAX (R143): Unsigned maximum. -/
  | umax (w : BitVec 2) (d : BitVec 6) (a : BitVec 6) (p : BitVec 2) (b : BitVec 6) (q : BitVec 2)
  /-- ISEQ (R143): 1 if a equals b, else 0. -/
  | iseq (w : BitVec 2) (d : BitVec 6) (a : BitVec 6) (p : BitVec 2) (b : BitVec 6) (q : BitVec 2)
  /-- ISLT (R143): 1 if a < b signed. -/
  | islt (w : BitVec 2) (d : BitVec 6) (a : BitVec 6) (p : BitVec 2) (b : BitVec 6) (q : BitVec 2)
  /-- ISLTU (R143): 1 if a < b unsigned. -/
  | isltu (w : BitVec 2) (d : BitVec 6) (a : BitVec 6) (p : BitVec 2) (b : BitVec 6) (q : BitVec 2)
  /-- IADD64 (R143): 64-bit add of whole registers, PLAIN mode only. -/
  | iadd64 (w : BitVec 2) (d : BitVec 6) (a : BitVec 6) (p : BitVec 2) (b : BitVec 6) (q : BitVec 2)
  /-- ISUB64 (R143): 64-bit subtract of whole registers, PLAIN mode only. -/
  | isub64 (w : BitVec 2) (d : BitVec 6) (a : BitVec 6) (p : BitVec 2) (b : BitVec 6) (q : BitVec 2)
  /-- ADDI (R144): Adds a signed 8-bit immediate. -/
  | addi (w : BitVec 2) (d : BitVec 6) (a : BitVec 6) (p : BitVec 2) (i : BitVec 8)
  /-- SHLI (R144): Shift left by an immediate 0-31. -/
  | shli (w : BitVec 2) (d : BitVec 6) (a : BitVec 6) (p : BitVec 2) (i : BitVec 5)
  /-- SHRI (R144): Logical shift right by an immediate 0-31. -/
  | shri (w : BitVec 2) (d : BitVec 6) (a : BitVec 6) (p : BitVec 2) (i : BitVec 5)
  /-- SRAI (R144): Arithmetic shift right by an immediate 0-31. -/
  | srai (w : BitVec 2) (d : BitVec 6) (a : BitVec 6) (p : BitVec 2) (i : BitVec 5)
  /-- ANDI (R144): AND with a sign-extended immediate. -/
  | andi (w : BitVec 2) (d : BitVec 6) (a : BitVec 6) (p : BitVec 2) (i : BitVec 8)
  /-- FADD (R146): Binary32 add with mode-dependent spread. -/
  | fadd (w : BitVec 2) (d : BitVec 6) (a : BitVec 6) (p : BitVec 2) (b : BitVec 6) (q : BitVec 2)
  /-- FSUB (R146): Binary32 subtract. -/
  | fsub (w : BitVec 2) (d : BitVec 6) (a : BitVec 6) (p : BitVec 2) (b : BitVec 6) (q : BitVec 2)
  /-- FMUL (R146): Binary32 multiply. -/
  | fmul (w : BitVec 2) (d : BitVec 6) (a : BitVec 6) (p : BitVec 2) (b : BitVec 6) (q : BitVec 2)
  /-- FMA (R146): Fused multiply-add with one rounding, using the old d. -/
  | fma (w : BitVec 2) (d : BitVec 6) (a : BitVec 6) (p : BitVec 2) (b : BitVec 6) (q : BitVec 2)
  /-- FMIN (R147): Returns the operand with the lesser mean, whole. -/
  | fmin (w : BitVec 2) (d : BitVec 6) (a : BitVec 6) (p : BitVec 2) (b : BitVec 6) (q : BitVec 2)
  /-- FMAX (R147): Returns the operand with the greater mean, whole. -/
  | fmax (w : BitVec 2) (d : BitVec 6) (a : BitVec 6) (p : BitVec 2) (b : BitVec 6) (q : BitVec 2)
  /-- FSEQ (R148): 1 if the means are equal. -/
  | fseq (w : BitVec 2) (d : BitVec 6) (a : BitVec 6) (p : BitVec 2) (b : BitVec 6) (q : BitVec 2)
  /-- FSLT (R148): 1 if mean a < mean b. -/
  | fslt (w : BitVec 2) (d : BitVec 6) (a : BitVec 6) (p : BitVec 2) (b : BitVec 6) (q : BitVec 2)
  /-- FSLE (R148): 1 if mean a <= mean b. -/
  | fsle (w : BitVec 2) (d : BitVec 6) (a : BitVec 6) (p : BitVec 2) (b : BitVec 6) (q : BitVec 2)
  /-- SEL (R149): Selects group a or b by the raw condition in d. -/
  | sel (w : BitVec 2) (d : BitVec 6) (a : BitVec 6) (p : BitVec 2) (b : BitVec 6) (q : BitVec 2)
  /-- RCP (R151): Correctly rounded reciprocal. -/
  | rcp (w : BitVec 2) (d : BitVec 6) (a : BitVec 6) (p : BitVec 2)
  /-- RSQ (R151): Reciprocal square root. -/
  | rsq (w : BitVec 2) (d : BitVec 6) (a : BitVec 6) (p : BitVec 2)
  /-- SQRT (R151): Square root. -/
  | sqrt (w : BitVec 2) (d : BitVec 6) (a : BitVec 6) (p : BitVec 2)
  /-- EXP2 (R151): 2 to the power x. -/
  | exp2 (w : BitVec 2) (d : BitVec 6) (a : BitVec 6) (p : BitVec 2)
  /-- LOG2 (R151): Base-2 logarithm. -/
  | log2 (w : BitVec 2) (d : BitVec 6) (a : BitVec 6) (p : BitVec 2)
  /-- SIN2PI (R151): sin(2 pi x). -/
  | sin2pi (w : BitVec 2) (d : BitVec 6) (a : BitVec 6) (p : BitVec 2)
  /-- COS2PI (R151): cos(2 pi x). -/
  | cos2pi (w : BitVec 2) (d : BitVec 6) (a : BitVec 6) (p : BitVec 2)
  /-- TANH (R151): Hyperbolic tangent. -/
  | tanh (w : BitVec 2) (d : BitVec 6) (a : BitVec 6) (p : BitVec 2)
  /-- FABS (R151): Clears the sign bit. -/
  | fabs (w : BitVec 2) (d : BitVec 6) (a : BitVec 6) (p : BitVec 2)
  /-- FNEG (R151): Inverts the sign bit. -/
  | fneg (w : BitVec 2) (d : BitVec 6) (a : BitVec 6) (p : BitVec 2)
  /-- CVTIF (R151): Signed 32-bit integer to binary32. -/
  | cvtif (w : BitVec 2) (d : BitVec 6) (a : BitVec 6) (p : BitVec 2)
  /-- CVTUF (R151): Unsigned 32-bit integer to binary32. -/
  | cvtuf (w : BitVec 2) (d : BitVec 6) (a : BitVec 6) (p : BitVec 2)
  /-- CVTFI (R152): Binary32 to signed integer toward zero. -/
  | cvtfi (w : BitVec 2) (d : BitVec 6) (a : BitVec 6) (p : BitVec 2)
  /-- CVTFU (R152): Binary32 to unsigned integer toward zero. -/
  | cvtfu (w : BitVec 2) (d : BitVec 6) (a : BitVec 6) (p : BitVec 2)
  /-- CVTFIR (R152): Binary32 to signed integer, round to nearest even. -/
  | cvtfir (w : BitVec 2) (d : BitVec 6) (a : BitVec 6) (p : BitVec 2)
  /-- FRINT (R151): Round to integral value, ties to even. -/
  | frint (w : BitVec 2) (d : BitVec 6) (a : BitVec 6) (p : BitVec 2)
  /-- FFLOOR (R151): Round toward minus infinity to integral value. -/
  | ffloor (w : BitVec 2) (d : BitVec 6) (a : BitVec 6) (p : BitVec 2)
  /-- FTRUNC (R151): Round toward zero to integral value. -/
  | ftrunc (w : BitVec 2) (d : BitVec 6) (a : BitVec 6) (p : BitVec 2)
  /-- CLZ (R151): Count of leading zero bits. -/
  | clz (w : BitVec 2) (d : BitVec 6) (a : BitVec 6) (p : BitVec 2)
  /-- POPC (R151): Count of one bits. -/
  | popc (w : BitVec 2) (d : BitVec 6) (a : BitVec 6) (p : BitVec 2)
  /-- BREV (R151): Bit reversal of the 32-bit word. -/
  | brev (w : BitVec 2) (d : BitVec 6) (a : BitVec 6) (p : BitVec 2)
  /-- RND (R153): Rounds the mean to p significand bits, adding rounding variance in MOM. -/
  | rnd (w : BitVec 2) (d : BitVec 6) (a : BitVec 6) (p : BitVec 2) (i : BitVec 5)
  /-- PERM (R150): Moves the a-group from the lane indexed by b within the pass. -/
  | perm (w : BitVec 2) (d : BitVec 6) (a : BitVec 6) (p : BitVec 2) (b : BitVec 6) (q : BitVec 2)
  /-- XRED_IADD (R154): Team reduction: integer sum. -/
  | xredIadd (d : BitVec 6) (a : BitVec 6) (p : BitVec 2)
  /-- XRED_IMIN (R154): Team reduction: signed minimum. -/
  | xredImin (d : BitVec 6) (a : BitVec 6) (p : BitVec 2)
  /-- XRED_IMAX (R154): Team reduction: signed maximum. -/
  | xredImax (d : BitVec 6) (a : BitVec 6) (p : BitVec 2)
  /-- XRED_UMIN (R154): Team reduction: unsigned minimum. -/
  | xredUmin (d : BitVec 6) (a : BitVec 6) (p : BitVec 2)
  /-- XRED_UMAX (R154): Team reduction: unsigned maximum. -/
  | xredUmax (d : BitVec 6) (a : BitVec 6) (p : BitVec 2)
  /-- XRED_IAND (R154): Team reduction: bitwise AND. -/
  | xredIand (d : BitVec 6) (a : BitVec 6) (p : BitVec 2)
  /-- XRED_IOR (R154): Team reduction: bitwise OR. -/
  | xredIor (d : BitVec 6) (a : BitVec 6) (p : BitVec 2)
  /-- XRED_IXOR (R154): Team reduction: bitwise XOR. -/
  | xredIxor (d : BitVec 6) (a : BitVec 6) (p : BitVec 2)
  /-- XRED_FADD (R155): Team tree sum of means with variances. -/
  | xredFadd (d : BitVec 6) (a : BitVec 6) (p : BitVec 2)
  /-- XRED_FMIN (R155): Team tree minimum. -/
  | xredFmin (d : BitVec 6) (a : BitVec 6) (p : BitVec 2)
  /-- XRED_FMAX (R155): Team tree maximum. -/
  | xredFmax (d : BitVec 6) (a : BitVec 6) (p : BitVec 2)
  /-- XRED_ISCAN (R155): Inclusive integer scan over active lanes. -/
  | xredIscan (d : BitVec 6) (a : BitVec 6) (p : BitVec 2)
  /-- XRED_ISCANX (R155): Exclusive integer scan. -/
  | xredIscanx (d : BitVec 6) (a : BitVec 6) (p : BitVec 2)
  /-- XRED_FSCAN (R155): Inclusive floating-point scan. -/
  | xredFscan (d : BitVec 6) (a : BitVec 6) (p : BitVec 2)
  /-- XRED_FSCANX (R155): Exclusive floating-point scan. -/
  | xredFscanx (d : BitVec 6) (a : BitVec 6) (p : BitVec 2)
  /-- LANE_INDEX (R156): Writes the lane's index within the team. -/
  | laneIndex (d : BitVec 6)
  /-- LANE_DIE (R156): Writes the die of the core. -/
  | laneDie (d : BitVec 6)
  /-- LANE_GCORE (R156): Writes the global core number. -/
  | laneGcore (d : BitVec 6)
  /-- LANE_HOME (R157): Reports die, slice and residency of an address without accessing it. -/
  | laneHome (d : BitVec 6) (a : BitVec 6) (p : BitVec 2)
  /-- MOVI (R145): Writes a zero-extended 16-bit immediate to the mean, clearing the spread. -/
  | movi (d : BitVec 6) (i : BitVec 16)
  /-- MOVHI (R145): Writes the upper half of the mean word. -/
  | movhi (d : BitVec 6) (i : BitVec 16)
  /-- DSET (R175): Builds a distribution from a mean word and a variance word. -/
  | dset (w : BitVec 2) (d : BitVec 6) (a : BitVec 6) (p : BitVec 2) (b : BitVec 6) (q : BitVec 2)
  /-- DMEAN (R176): Writes the mean as a plain value. -/
  | dmean (w : BitVec 2) (d : BitVec 6) (a : BitVec 6) (p : BitVec 2)
  /-- DVAR (R176): Writes the variance as a plain value. -/
  | dvar (w : BitVec 2) (d : BitVec 6) (a : BitVec 6) (p : BitVec 2)
  /-- DVAR_U (R176): Unbiased sample variance in SMP mode. -/
  | dvarU (w : BitVec 2) (d : BitVec 6) (a : BitVec 6) (p : BitVec 2)
  /-- DSTD (R176): Writes the standard deviation. -/
  | dstd (w : BitVec 2) (d : BitVec 6) (a : BitVec 6) (p : BitVec 2)
  /-- DSTD_U (R176): Unbiased sample standard deviation in SMP mode. -/
  | dstdU (w : BitVec 2) (d : BitVec 6) (a : BitVec 6) (p : BitVec 2)
  /-- DSCALE (R177): Scales the spread by a factor, leaving the mean. -/
  | dscale (w : BitVec 2) (d : BitVec 6) (a : BitVec 6) (p : BitVec 2) (b : BitVec 6) (q : BitVec 2)
  /-- DTAG_NEW (R178): Names the spread of each group as a fresh noise source tag. -/
  | dtagNew (w : BitVec 2) (d : BitVec 6) (a : BitVec 6) (p : BitVec 2)
  /-- DTAG_READ (R178): Reads the team's tag counter. -/
  | dtagRead (d : BitVec 6)
  /-- DTAG_RESET (R178): Sets the tag counter to 1. -/
  | dtagReset
  /-- DFOLD_T (R180): Folds the LIN term into the residual. -/
  | dfoldT (w : BitVec 2) (d : BitVec 6) (a : BitVec 6) (p : BitVec 2)
  /-- DFOLD_M (R180): Converts a LIN group to a MOM register. -/
  | dfoldM (w : BitVec 2) (d : BitVec 6) (a : BitVec 6) (p : BitVec 2)
  /-- DFOLD_L (R180): Converts a MOM register to a LIN group. -/
  | dfoldL (w : BitVec 2) (d : BitVec 6) (a : BitVec 6) (p : BitVec 2)
  /-- DCOV (R181): Writes the covariance of a and b. -/
  | dcov (w : BitVec 2) (d : BitVec 6) (a : BitVec 6) (p : BitVec 2) (b : BitVec 6) (q : BitVec 2)
  /-- DTOS (R182): MOM register to a two-point SMP ensemble. -/
  | dtos (w : BitVec 2) (d : BitVec 6) (a : BitVec 6) (p : BitVec 2)
  /-- DTOS_L (R182): LIN group to a two-point SMP ensemble. -/
  | dtosL (w : BitVec 2) (d : BitVec 6) (a : BitVec 6) (p : BitVec 2)
  /-- STOD (R183): Fits a MOM register to selected samples. -/
  | stod (w : BitVec 2) (d : BitVec 6) (a : BitVec 6) (p : BitVec 2) (b : BitVec 6) (q : BitVec 2)
  /-- DCLAMP (R184): Clamps a distribution to an interval with the Popoviciu variance bound. -/
  | dclamp (w : BitVec 2) (d : BitVec 6) (a : BitVec 6) (p : BitVec 2) (b : BitVec 6) (q : BitVec 2)
  /-- DFUSE (R185): Inverse-variance fusion of two estimates. -/
  | dfuse (w : BitVec 2) (d : BitVec 6) (a : BitVec 6) (p : BitVec 2) (b : BitVec 6) (q : BitVec 2)
  /-- LDB (R191): Byte load per lane, with optional wait-full or sign-extend qualifier. -/
  | ldb (w : BitVec 2) (d : BitVec 6) (a : BitVec 6) (q : BitVec 3) (o : BitVec 7)
  /-- LDH (R191): Halfword load per lane. -/
  | ldh (w : BitVec 2) (d : BitVec 6) (a : BitVec 6) (q : BitVec 3) (o : BitVec 7)
  /-- LDW (R191): Word load per lane. -/
  | ldw (w : BitVec 2) (d : BitVec 6) (a : BitVec 6) (q : BitVec 3) (o : BitVec 7)
  /-- LDD (R191): Doubleword group load per lane, raw. -/
  | ldd (w : BitVec 2) (d : BitVec 6) (a : BitVec 6) (q : BitVec 3) (o : BitVec 7)
  /-- STB (R192): Byte store per lane, optionally set-full. -/
  | stb (w : BitVec 2) (d : BitVec 6) (a : BitVec 6) (q : BitVec 3) (o : BitVec 7)
  /-- STH (R192): Halfword store per lane. -/
  | sth (w : BitVec 2) (d : BitVec 6) (a : BitVec 6) (q : BitVec 3) (o : BitVec 7)
  /-- STW (R192): Word store per lane. -/
  | stw (w : BitVec 2) (d : BitVec 6) (a : BitVec 6) (q : BitVec 3) (o : BitVec 7)
  /-- STD (R192): Whole-group doubleword store per lane. -/
  | std (w : BitVec 2) (d : BitVec 6) (a : BitVec 6) (q : BitVec 3) (o : BitVec 7)
  /-- ASTO_IADD (R196): Add-on-store integer add at the destination port. -/
  | astoIadd (w : BitVec 2) (d : BitVec 6) (a : BitVec 6) (o : BitVec 7)
  /-- ASTO_FADD (R196): Add-on-store binary32 or pair add at the destination port. -/
  | astoFadd (w : BitVec 2) (d : BitVec 6) (a : BitVec 6) (o : BitVec 7)
  /-- ASTO_FADD_R (R198): Reassociable add-on-store add. -/
  | astoFaddR (w : BitVec 2) (d : BitVec 6) (a : BitVec 6) (o : BitVec 7)
  /-- ASTO_IMIN (R196): Add-on-store signed minimum. -/
  | astoImin (w : BitVec 2) (d : BitVec 6) (a : BitVec 6) (o : BitVec 7)
  /-- ASTO_IMAX (R196): Add-on-store signed maximum. -/
  | astoImax (w : BitVec 2) (d : BitVec 6) (a : BitVec 6) (o : BitVec 7)
  /-- ASTO_FMIN (R196): Add-on-store floating minimum. -/
  | astoFmin (w : BitVec 2) (d : BitVec 6) (a : BitVec 6) (o : BitVec 7)
  /-- ASTO_FMAX (R196): Add-on-store floating maximum. -/
  | astoFmax (w : BitVec 2) (d : BitVec 6) (a : BitVec 6) (o : BitVec 7)
  /-- ASTO_IOR (R196): Add-on-store bitwise OR. -/
  | astoIor (w : BitVec 2) (d : BitVec 6) (a : BitVec 6) (o : BitVec 7)
  /-- FENCE (R41): Team-wide release, acquire or full fence at a scope. -/
  | fence (s : BitVec 3) (k : BitVec 2)
  /-- PREF (R200): Prefetches the line of each lane's address into L1 and L2 or L2 only. -/
  | pref (a : BitVec 6) (l : BitVec 1) (o : BitVec 7)
  /-- SPILL (R201): Writes a pass-shaped 272-byte record per register. -/
  | spill (w : BitVec 2) (d : BitVec 6) (a : BitVec 6) (o : BitVec 7)
  /-- FILL (R203): Reads back pass-shaped spill records. -/
  | fill (w : BitVec 2) (d : BitVec 6) (a : BitVec 6) (o : BitVec 7)
  /-- SPILLP (R204): Per-lane store of whole registers. -/
  | spillp (w : BitVec 2) (d : BitVec 6) (a : BitVec 6) (o : BitVec 7)
  /-- FILLP (R204): Per-lane load of whole registers. -/
  | fillp (w : BitVec 2) (d : BitVec 6) (a : BitVec 6) (o : BitVec 7)
  /-- RNG_KEY (R218): Sets a stream slot's key and clears its position. -/
  | rngKey (n : BitVec 3) (a : BitVec 5) (b : BitVec 5)
  /-- RNG_KEY_LO (R218): Reads the low half of a slot key. -/
  | rngKeyLo (d : BitVec 5) (n : BitVec 3)
  /-- RNG_KEY_HI (R218): Reads the high half of a slot key. -/
  | rngKeyHi (d : BitVec 5) (n : BitVec 3)
  /-- RNG_U (R213): Draws a reproducible uniform value. -/
  | rngU (w : BitVec 2) (d : BitVec 6) (a : BitVec 6) (p : BitVec 2) (n : BitVec 3) (o : BitVec 5)
  /-- RNG_G (R211): Draws a reproducible Gaussian value. -/
  | rngG (w : BitVec 2) (d : BitVec 6) (a : BitVec 6) (p : BitVec 2) (n : BitVec 3) (o : BitVec 5)
  /-- RNG_B (R214): Draws a Bernoulli bit with the probability in d. -/
  | rngB (w : BitVec 2) (d : BitVec 6) (a : BitVec 6) (p : BitVec 2) (n : BitVec 3) (o : BitVec 5)
  /-- RNG_D (R215): Draws a plain sample from a MOM or LIN distribution. -/
  | rngD (w : BitVec 2) (d : BitVec 6) (a : BitVec 6) (p : BitVec 2) (n : BitVec 3) (o : BitVec 5)
  /-- RNG_C (R216): Draws one category across the active lanes by weight. -/
  | rngC (d : BitVec 6) (a : BitVec 6) (p : BitVec 2) (n : BitVec 3) (o : BitVec 5)
  /-- SRND (R217): Stochastic rounding to p significand bits. -/
  | srnd (w : BitVec 2) (d : BitVec 6) (a : BitVec 6) (p : BitVec 2) (n : BitVec 3) (c : BitVec 5)
  /-- RNG_POS (R218): Sets a slot's base position. -/
  | rngPos (n : BitVec 3) (a : BitVec 5)
  /-- RNG_POS_ADD (R218): Advances a slot's position once. -/
  | rngPosAdd (n : BitVec 3) (a : BitVec 5)
  /-- RNG_POS_RD (R218): Reads a slot's position. -/
  | rngPosRd (d : BitVec 5) (n : BitVec 3)
  /-- CPY_GO (R223): Hands a quire block to the copy engine, taking a slot. -/
  | cpyGo (a : BitVec 5)
  /-- CPY_FENCE (R224): Orders earlier writes before later quires' reads. -/
  | cpyFence
  /-- CPY_CANCEL (R225): Cancels running quires of the unit whose block address matches. -/
  | cpyCancel (a : BitVec 5)
  /-- SEL_GO (R322): Starts a selection scan from a selection record. -/
  | selGo (a : BitVec 5)
  /-- SEL_MERGE (R330): Merges selection lists in memory at the die hub. -/
  | selMerge (a : BitVec 5)
  /-- TILE_PIN (R318): Takes or drops a pin on a residency tile, starting arrival. -/
  | tilePin (a : BitVec 5) (c : BitVec 5) (n : BitVec 1)
  /-- TILE_QUERY (R319): Returns QSTAT of a tile. -/
  | tileQuery (a : BitVec 5) (c : BitVec 5)
  /-- TILE_PREFETCH (R318): Starts arrival of a non-resident tile. -/
  | tilePrefetch (a : BitVec 5) (c : BitVec 5)
  /-- TILE_DRAINLOG (R318): Brings a tile in and applies its log. -/
  | tileDrainlog (a : BitVec 5) (c : BitVec 5)
  /-- CRL_POST (R357): Posts a candidate block to a Carillon context. -/
  | crlPost (a : BitVec 5) (b : BitVec 5) (c : BitVec 5) (s : BitVec 5)
  /-- MMA (R261): Accumulates mean folio products into a tile. -/
  | mma (n : BitVec 9) (t : BitVec 3) (x : BitVec 5) (y : BitVec 5)
  /-- DMMA (R261): Accumulates mean and variance products into a tile. -/
  | dmma (n : BitVec 9) (t : BitVec 3) (x : BitVec 5) (y : BitVec 5)
  /-- MMAQ_M (R262): Joint 64x64 mean product across a quad. -/
  | mmaqM (n : BitVec 9) (t : BitVec 3) (x : BitVec 5) (y : BitVec 5)
  /-- MMAQ_D (R262): Joint 64x64 distribution product across a quad. -/
  | mmaqD (n : BitVec 9) (t : BitVec 3) (x : BitVec 5) (y : BitVec 5)
  /-- MFEN (R264): Orders earlier scratchpad writes before later matrix operand reads. -/
  | mfen
  /-- MCOMMIT (R265): Closes the open matrix batch and returns its number. -/
  | mcommit (c : BitVec 5)
  /-- MWAIT (R266): Outstanding until the named batches complete. -/
  | mwait (a : BitVec 5)
  /-- MDRAIN_ROWS (R270): Writes a tile as FP32 rows by plain stores. -/
  | mdrainRows (n : BitVec 9) (t : BitVec 3) (x : BitVec 5) (y : BitVec 5)
  /-- MDRAIN_ADD (R270): Adds a tile into FP32 rows as one add-on-store. -/
  | mdrainAdd (n : BitVec 9) (t : BitVec 3) (x : BitVec 5) (y : BitVec 5)
  /-- MDRAIN_FOLIO (R271): Writes a tile as a scratchpad folio. -/
  | mdrainFolio (n : BitVec 9) (t : BitVec 3) (x : BitVec 5)
  /-- MACC_ZERO (R273): Zeroes a tile. -/
  | maccZero (n : BitVec 9) (t : BitVec 3)
  /-- MACC_LOAD (R273): Loads a tile from rows in memory. -/
  | maccLoad (n : BitVec 9) (t : BitVec 3) (x : BitVec 5) (y : BitVec 5)
  /-- MACC_TREE (R274): Sums a tile across the 16 cores of a cluster. -/
  | maccTree (n : BitVec 9) (t : BitVec 3) (x : BitVec 5)
  /-- MACC_GOV (R276): Reads GOVSTAT into a scalar register. -/
  | maccGov (s : BitVec 5)
  /-- BRA (R110): Unconditional branch of the fragment. -/
  | bra (o : BitVec 24)
  /-- BRZ (R110): Branches when a scalar is zero. -/
  | brz (s : BitVec 5) (o : BitVec 18)
  /-- BRNZ (R110): Branches when a scalar is not zero. -/
  | brnz (s : BitVec 5) (o : BitVec 18)
  /-- SPLIT (R95): Divides the fragment by a lane condition, pushing a kettle entry. -/
  | split (d : BitVec 6) (o : BitVec 18)
  /-- RCV (R96): Arrives at the reconvergence point, waiting or fusing. -/
  | rcv
  /-- KPUSH (R94): Sets the pending reconvergence address after checking its header. -/
  | kpush (o : BitVec 24)
  /-- CALL (R111): Writes a link and jumps to a scalar target. -/
  | call (d : BitVec 5) (a : BitVec 5)
  /-- RET (R111): Jumps to a scalar return address. -/
  | ret (a : BitVec 5)
  /-- JMPR (R111): Jumps to a scalar target. -/
  | jmpr (a : BitVec 5)
  /-- EXIT (R112): The fragment's lanes exit. -/
  | exit
  /-- YIELD (R112): Sets the fragment's issue key to the next tick. -/
  | yield
  /-- NOP (R112): No operation. -/
  | nop
  /-- BKPT (R112): Debug stop or BREAKPOINT trap. -/
  | bkpt
  /-- SALU_ADD (R113): Scalar 64-bit add. -/
  | saluAdd (d : BitVec 5) (a : BitVec 5) (b : BitVec 5)
  /-- SALU_SUB (R113): Scalar subtract. -/
  | saluSub (d : BitVec 5) (a : BitVec 5) (b : BitVec 5)
  /-- SALU_MUL (R113): Scalar low 64-bit product. -/
  | saluMul (d : BitVec 5) (a : BitVec 5) (b : BitVec 5)
  /-- SALU_MULHU (R113): Scalar high unsigned product. -/
  | saluMulhu (d : BitVec 5) (a : BitVec 5) (b : BitVec 5)
  /-- SALU_AND (R113): Scalar AND. -/
  | saluAnd (d : BitVec 5) (a : BitVec 5) (b : BitVec 5)
  /-- SALU_OR (R113): Scalar OR. -/
  | saluOr (d : BitVec 5) (a : BitVec 5) (b : BitVec 5)
  /-- SALU_XOR (R113): Scalar XOR. -/
  | saluXor (d : BitVec 5) (a : BitVec 5) (b : BitVec 5)
  /-- SALU_SHL (R113): Scalar shift left. -/
  | saluShl (d : BitVec 5) (a : BitVec 5) (b : BitVec 5)
  /-- SALU_SHR (R113): Scalar logical shift right. -/
  | saluShr (d : BitVec 5) (a : BitVec 5) (b : BitVec 5)
  /-- SALU_SRA (R113): Scalar arithmetic shift right. -/
  | saluSra (d : BitVec 5) (a : BitVec 5) (b : BitVec 5)
  /-- SALU_SLT (R113): Scalar signed less-than. -/
  | saluSlt (d : BitVec 5) (a : BitVec 5) (b : BitVec 5)
  /-- SALU_SLTU (R113): Scalar unsigned less-than. -/
  | saluSltu (d : BitVec 5) (a : BitVec 5) (b : BitVec 5)
  /-- SALU_MIN (R113): Scalar signed minimum. -/
  | saluMin (d : BitVec 5) (a : BitVec 5) (b : BitVec 5)
  /-- SALU_MAX (R113): Scalar signed maximum. -/
  | saluMax (d : BitVec 5) (a : BitVec 5) (b : BitVec 5)
  /-- SALU_MINU (R113): Scalar unsigned minimum. -/
  | saluMinu (d : BitVec 5) (a : BitVec 5) (b : BitVec 5)
  /-- SALU_MAXU (R113): Scalar unsigned maximum. -/
  | saluMaxu (d : BitVec 5) (a : BitVec 5) (b : BitVec 5)
  /-- SALUI_ADD (R113): Scalar add of a signed immediate. -/
  | saluiAdd (d : BitVec 5) (a : BitVec 5) (i : BitVec 10)
  /-- SALUI_AND (R113): Scalar AND with an immediate. -/
  | saluiAnd (d : BitVec 5) (a : BitVec 5) (i : BitVec 10)
  /-- SALUI_OR (R113): Scalar OR with an immediate. -/
  | saluiOr (d : BitVec 5) (a : BitVec 5) (i : BitVec 10)
  /-- SALUI_XOR (R113): Scalar XOR with an immediate. -/
  | saluiXor (d : BitVec 5) (a : BitVec 5) (i : BitVec 10)
  /-- SALUI_SHL (R113): Scalar shift left by an immediate. -/
  | saluiShl (d : BitVec 5) (a : BitVec 5) (i : BitVec 6)
  /-- SALUI_SHR (R113): Scalar logical shift right by an immediate. -/
  | saluiShr (d : BitVec 5) (a : BitVec 5) (i : BitVec 6)
  /-- SALUI_SRA (R113): Scalar arithmetic shift right by an immediate. -/
  | saluiSra (d : BitVec 5) (a : BitVec 5) (i : BitVec 6)
  /-- SALUI_SLT (R113): Scalar signed less-than immediate. -/
  | saluiSlt (d : BitVec 5) (a : BitVec 5) (i : BitVec 10)
  /-- SALUI_SLTU (R113): Scalar unsigned less-than immediate. -/
  | saluiSltu (d : BitVec 5) (a : BitVec 5) (i : BitVec 10)
  /-- SALUI_SHOR (R113): Shifts left by 10 and ORs in the immediate. -/
  | saluiShor (d : BitVec 5) (a : BitVec 5) (i : BitVec 10)
  /-- SFPU_ADD (R114): Scalar binary32 add. -/
  | sfpuAdd (d : BitVec 5) (a : BitVec 5) (b : BitVec 5)
  /-- SFPU_SUB (R114): Scalar binary32 subtract. -/
  | sfpuSub (d : BitVec 5) (a : BitVec 5) (b : BitVec 5)
  /-- SFPU_MUL (R114): Scalar binary32 multiply. -/
  | sfpuMul (d : BitVec 5) (a : BitVec 5) (b : BitVec 5)
  /-- SFPU_DIV (R114): Scalar binary32 divide. -/
  | sfpuDiv (d : BitVec 5) (a : BitVec 5) (b : BitVec 5)
  /-- SFPU_MIN (R114): Scalar binary32 minimum. -/
  | sfpuMin (d : BitVec 5) (a : BitVec 5) (b : BitVec 5)
  /-- SFPU_MAX (R114): Scalar binary32 maximum. -/
  | sfpuMax (d : BitVec 5) (a : BitVec 5) (b : BitVec 5)
  /-- SFPU_SEQ (R114): Scalar binary32 equal compare. -/
  | sfpuSeq (d : BitVec 5) (a : BitVec 5) (b : BitVec 5)
  /-- SFPU_SLT (R114): Scalar binary32 less-than compare. -/
  | sfpuSlt (d : BitVec 5) (a : BitVec 5) (b : BitVec 5)
  /-- SFPU_SLE (R114): Scalar binary32 less-or-equal compare. -/
  | sfpuSle (d : BitVec 5) (a : BitVec 5) (b : BitVec 5)
  /-- SFPU_CVTIF (R114): Signed 64-bit integer to binary32. -/
  | sfpuCvtif (d : BitVec 5) (a : BitVec 5)
  /-- SFPU_CVTFI (R114): Binary32 to saturating signed 64-bit integer. -/
  | sfpuCvtfi (d : BitVec 5) (a : BitVec 5)
  /-- SLD_D (R115): Scalar 8-byte load. -/
  | sldD (d : BitVec 5) (a : BitVec 5) (i : BitVec 10)
  /-- SLD_W (R115): Scalar zero-extended word load. -/
  | sldW (d : BitVec 5) (a : BitVec 5) (i : BitVec 10)
  /-- SLD_WS (R115): Scalar sign-extended word load. -/
  | sldWs (d : BitVec 5) (a : BitVec 5) (i : BitVec 10)
  /-- SST_D (R115): Scalar 8-byte store. -/
  | sstD (d : BitVec 5) (a : BitVec 5) (i : BitVec 10)
  /-- SST_W (R115): Scalar word store. -/
  | sstW (d : BitVec 5) (a : BitVec 5) (i : BitVec 10)
  /-- TSR_SET (R116): Writes a tile shape register, waiting for its lock. -/
  | tsrSet (n : BitVec 3) (a : BitVec 5)
  /-- TSR_GET (R116): Reads a tile shape register. -/
  | tsrGet (d : BitVec 5) (n : BitVec 3)
  /-- TSR_LSW (R116): Writes LSCALE. -/
  | tsrLsw (a : BitVec 5)
  /-- TSR_LSR (R116): Reads LSCALE. -/
  | tsrLsr (d : BitVec 5)
  /-- TSR_OVR (R116): Reads OVF. -/
  | tsrOvr (d : BitVec 5)
  /-- TSR_OVC (R116): Reads and clears OVF bits indivisibly. -/
  | tsrOvc (d : BitVec 5) (a : BitVec 5)
  /-- TSR_FLR (R116): Reads FLAGS. -/
  | tsrFlr (d : BitVec 5)
  /-- TSR_FLC (R116): Reads and clears FLAGS bits indivisibly. -/
  | tsrFlc (d : BitVec 5) (a : BitVec 5)
  /-- XPS (R117): Loads a crossbar pattern slot. -/
  | xps (c : BitVec 5) (n : BitVec 5) (k : BitVec 2)
  /-- VOTE_ANY (R120): 1 if any active lane's condition is true. -/
  | voteAny (s : BitVec 5) (a : BitVec 6) (p : BitVec 2)
  /-- VOTE_ALL (R120): 1 if every active lane's condition is true. -/
  | voteAll (s : BitVec 5) (a : BitVec 6) (p : BitVec 2)
  /-- VOTE_COUNT (R120): Counts active lanes with a true condition. -/
  | voteCount (s : BitVec 5) (a : BitVec 6) (p : BitVec 2)
  /-- VOTE_FIRST (R120): Register of the lowest active lane. -/
  | voteFirst (s : BitVec 5) (a : BitVec 6) (p : BitVec 2)
  /-- VOTE_BALLOT (R120): Ballot word of 64 lanes selected by k. -/
  | voteBallot (s : BitVec 5) (a : BitVec 6) (p : BitVec 2) (k : BitVec 4)
  /-- SBCAST_D (R121): Broadcasts a scalar into a d-register of every active lane. -/
  | sbcastD (d : BitVec 6) (s : BitVec 5)
  /-- SBCAST_M (R121): Broadcasts a scalar as a mean with zero spread. -/
  | sbcastM (d : BitVec 6) (s : BitVec 5)
  /-- CTR_ADD (R122): Releasing counter add returning the old value. -/
  | ctrAdd (a : BitVec 5) (b : BitVec 5) (c : BitVec 5) (i : BitVec 5)
  /-- CTR_WAIT (R122): Acquiring wait until a counter reaches a threshold. -/
  | ctrWait (a : BitVec 5) (b : BitVec 5) (c : BitVec 5) (i : BitVec 5)
  /-- CTR_LOAD (R122): Acquiring read of a counter. -/
  | ctrLoad (a : BitVec 5) (c : BitVec 5) (i : BitVec 5)
  /-- BAR (R123): Arrives at a named barrier of the unit and waits for its round. -/
  | bar (a : BitVec 5) (n : BitVec 4)
  /-- SYS_RD (R119): Reads a system register. -/
  | sysRd (d : BitVec 5) (n : BitVec 5)
  /-- SYS_WR (R119): Writes a handler RW system register such as HPC, HSEL or HCTL. -/
  | sysWr (n : BitVec 5) (a : BitVec 5)
  /-- SYS_HRD (R119): Handler reads a scalar of team HSEL. -/
  | sysHrd (d : BitVec 5) (n : BitVec 5)
  /-- SYS_HWR (R119): Handler writes a scalar of team HSEL. -/
  | sysHwr (n : BitVec 5) (a : BitVec 5)
  /-- SYS_CANCEL (R119): Cancels the issuing team's launch, graph, phase or job. -/
  | sysCancel (l : BitVec 5)
  /-- TRAP (R128): Raises the SOFTWARE trap. -/
  | trap (i : BitVec 9)
  /-- SVC_VERSION (R295): MMP service 0: firmware version. -/
  | svcVersion
  /-- SVC_POOLMAP (R290): MMP service 1: maps a first-touch page from the pool. -/
  | svcPoolmap
  /-- SVC_POOLCOUNT (R295): MMP service 2: free pool frames on the die. -/
  | svcPoolcount
  /-- SVC_PREFETCH (R295): MMP service 3: maps every host-backed page of a range. -/
  | svcPrefetch
  /-- SVC_UNKNOWN (R295): SVC of services 4-511, returning UNKNOWN-SERVICE. -/
  | svcUnknown (n : BitVec 9)
  /-- RTE (R129): Ends the handler fragment and resumes the trapped fragment. -/
  | rte
  /-- KREG_RD (R118): Reads the team's view of a k-register. -/
  | kregRd (d : BitVec 5) (n : BitVec 4)
  /-- KREG_WR (R118): Writes a unit k-register. -/
  | kregWr (n : BitVec 4) (a : BitVec 5)
  /-- KREG_ADD (R118): Indivisible add to a k-register returning the current value. -/
  | kregAdd (d : BitVec 5) (n : BitVec 4) (b : BitVec 5)
  /-- CLAUSE (R73): Clause header naming waits, set flags, mode and acct. -/
  | clause (w : BitVec 12) (a : BitVec 4) (b : BitVec 4) (m : BitVec 2) (c : BitVec 1)
  /-- HALT (R344): Carillon: halts the context. -/
  | halt
  /-- CMOVH (R344): Carillon: loads an immediate into the upper half. -/
  | cmovh (i : BitVec 16) (d : BitVec 4)
  /-- CORL (R344): Carillon: ORs an immediate into the low half. -/
  | corl (i : BitVec 16) (d : BitVec 4)
  /-- CARILLON_FADD (R344): Carillon: binary32 add. -/
  | carillonFadd (b : BitVec 4) (a : BitVec 4) (d : BitVec 4)
  /-- CARILLON_FSUB (R344): Carillon: binary32 subtract. -/
  | carillonFsub (b : BitVec 4) (a : BitVec 4) (d : BitVec 4)
  /-- CARILLON_FMUL (R344): Carillon: binary32 multiply. -/
  | carillonFmul (b : BitVec 4) (a : BitVec 4) (d : BitVec 4)
  /-- CARILLON_FDIV (R344): Carillon: binary32 divide. -/
  | carillonFdiv (b : BitVec 4) (a : BitVec 4) (d : BitVec 4)
  /-- CGET (R344): Carillon: reads a candidate value or index. -/
  | cget (x : BitVec 1) (a : BitVec 4) (d : BitVec 4)
  /-- CSCALE (R345): Carillon: scales every candidate value. -/
  | cscale (a : BitVec 4)
  /-- CPEN (R345): Carillon: penalises candidates in the history window. -/
  | cpen (x : BitVec 10) (a : BitVec 4)
  /-- CTOPK (R346): Carillon: stable sort and truncation to k candidates. -/
  | ctopk (x : BitVec 10)
  /-- CTOPP (R346): Carillon: nucleus truncation to a fraction of the sum. -/
  | ctopp (a : BitVec 4)
  /-- CEXP (R345): Carillon: exponentiates values relative to the maximum. -/
  | cexp (d : BitVec 4)
  /-- CNORM (R345): Carillon: normalises values by their running sum. -/
  | cnorm (d : BitVec 4)
  /-- CPSUM (R345): Carillon: replaces values by running sums. -/
  | cpsum
  /-- NSET (R347): Carillon: writes one part of a stream register. -/
  | nset (x : BitVec 3) (n : BitVec 3) (a : BitVec 4)
  /-- RNGU (R347): Carillon: draws a uniform and advances POS. -/
  | rngu (n : BitVec 3) (d : BitVec 4)
  /-- CDRAW (R348): Carillon: draws one candidate by weight. -/
  | cdraw (n : BitVec 3) (d : BitVec 4)
  /-- CACC (R349): Carillon: speculative acceptance test of a draft token. -/
  | cacc (n : BitVec 3) (b : BitVec 4) (a : BitVec 4) (d : BitVec 4)
  /-- BR (R350): Carillon: conditional branch. -/
  | br (x : BitVec 10) (c : BitVec 2) (a : BitVec 4)
  /-- WAITC (R350): Carillon: raises the doorbell target and waits. -/
  | waitc (x : BitVec 10)
  /-- EMIT (R351): Carillon: writes a token record and adds to TOKCTR. -/
  | emit (s : BitVec 3) (l : BitVec 1) (a : BitVec 4)
  /-- CLAUSE_WAIT_RELEASE (R76): A fragment waiting at a header enters its clause once the named flags clear. -/
  | clauseWaitRelease (frag : Nat)
  /-- LOAD_DATA_RETURN (R191): Load, fill or scalar load data arrives, writing destination registers and clearing the tag flag. -/
  | loadDataReturn (op : Nat)
  /-- WAIT_FULL_READ (R50): A wait-full load completes after its granule is filled, emptying it with empty-on-read. -/
  | waitFullRead (op : Nat)
  /-- STORE_TAKEN (R77): The access unit has taken every lane's address and data, clearing the store's flag. -/
  | storeTaken (op : Nat)
  /-- NOISE_RESULT (R219): A noise engine operation writes its results and clears its flag. -/
  | noiseResult (op : Nat)
  /-- CTR_ADD_RESULT (R15): A counter add reaches the counter, takes its place in the total order and returns the old value. -/
  | ctrAddResult (op : Nat)
  /-- CTR_WAIT_RETURN (R122): A waiting CTR.WAIT observes the threshold and returns. -/
  | ctrWaitReturn (op : Nat)
  /-- CTR_LOAD_RESULT (R122): A CTR.LOAD returns its value and releases held accesses. -/
  | ctrLoadResult (op : Nat)
  /-- BAR_RELEASE (R52): Waiting barrier arrivals are released when the counter reaches their target. -/
  | barRelease (frag : Nat)
  /-- FENCE_COMPLETE (R41): A FENCE's conditions hold and the team issues again. -/
  | fenceComplete (op : Nat)
  /-- SVC_RETURN (R296): An MMP service returns its result to s16 and the fragment becomes ready. -/
  | svcReturn (frag : Nat)
  /-- ASTO_APPLY (R196): An add-on-store element is applied indivisibly at its destination port. -/
  | astoApply (op : Nat)
  /-- DRAIN_ADD_APPLY (R270): An MDRAIN.ADD tile is applied at its port as one indivisible update. -/
  | drainAddApply (op : Nat)
  /-- MATRIX_OP_COMPLETE (R267): A matrix operation reaches its completion event, clearing its flag. -/
  | matrixOpComplete (op : Nat)
  /-- MMAQ_JOIN (R263): The fourth member of a quad issues its MMAQ and the joint operation enters all four queues. -/
  | mmaqJoin (unit : Nat) (quad : Nat)
  /-- MACC_TREE_JOIN (R274): All 16 cores have issued MACC.TREE and the cluster reduction runs. -/
  | maccTreeJoin (unit : Nat)
  /-- GOVERNOR_WINDOW (R275): A 1,024-tick governor window ends and USED restarts. -/
  | governorWindow (cluster : Nat)
  /-- QUIRE_COMPLETE (R246): A quire ends DONE, ERROR or CANCELLED, writes STATUS and adds its nominal count. -/
  | quireComplete (op : Nat)
  /-- CPY_FENCE_COMPLETE (R224): Earlier writes are visible to the copy engine and held quires may read. -/
  | cpyFenceComplete (op : Nat)
  /-- SELECTION_PARTIAL_LIST (R332): A stack engine's partial list reaches the die hub to be merged. -/
  | selectionPartialList (op : Nat) (stack : Nat)
  /-- SELECTION_COMPLETE (R334): A selection writes its list or delivery, STATUS and counter add. -/
  | selectionComplete (op : Nat)
  /-- CANDIDATE_DELIVERY (R358): A post or selection delivers candidates into a Carillon context that can take them. -/
  | candidateDelivery (op : Nat)
  /-- CARILLON_WAKE (R350): A waiting Carillon context observes DBELL at its target and runs. -/
  | carillonWake (ctx : Nat)
  /-- CARILLON_SUSPEND (R361): The command processor suspends a Carillon context at a microinstruction boundary. -/
  | carillonSuspend (ctx : Nat)
  /-- CARILLON_RESUME (R361): A suspended Carillon context resumes with its prior state. -/
  | carillonResume (ctx : Nat)
  /-- LOG_APPEND (R307): A write to a non-resident LOGGABLE tile reaches the residency engine and is compacted into its log. -/
  | logAppend (op : Nat)
  /-- TILE_FRAME_OBTAINED (R310): The arriving tile's frame is ready; the log is applied and the leaf made PAGE. -/
  | tileFrameObtained (tile : Nat)
  /-- TILE_ARRIVAL_FAILED (R313): A tile's arrival fails and its log is kept. -/
  | tileArrivalFailed (tile : Nat) (status : Byte)
  /-- PHASE_LOG_ARRIVAL (R317): When only log-resting weight of a phase is out, arrival of those tiles is started. -/
  | phaseLogArrival (phase : Nat)
  /-- FAULT_RECORD_POST (R292): The MMP posts a fault record to the context's host fault ring. -/
  | faultRecordPost (ctx : Nat)
  /-- FAULT_RING_HEAD_POLL (R292): Every 10 us while holding records the MMP rereads HEAD and posts what fits. -/
  | faultRingHeadPoll (ctx : Nat)
  /-- POOL_REFILL (R290): A zeroed frame enters a context's pool, serving waiting requests. -/
  | poolRefill (ctx : Nat) (die : Nat)
  /-- MERGE_REWALK (R287): Waiters of a released merge entry walk again and proceed. -/
  | mergeRewalk (entry : Nat)
  /-- SHOOTDOWN (R298): A shootdown reaches an agent, which invalidates matching translations. -/
  | shootdown (sd : Nat) (agent : Nat)
  /-- SHOOTDOWN_AGENT_ADD (R298): An agent's affected accesses are performed and it adds 1 to the shootdown counter. -/
  | shootdownAgentAdd (sd : Nat) (agent : Nat)
  /-- UNIT_PLACEMENT (R371): The command processor places a unit's teams once room exists. -/
  | unitPlacement (launch : Nat)
  /-- UNIT_FINISH (R19): A unit's teams and operations are done and FIN (and CAN) receive their adds. -/
  | unitFinish (unit : Nat)
  /-- PHASE_END (R375): After PHASE.CLOSE the root holds all weight and the phase FIN receives 1. -/
  | phaseEnd (phase : Nat)
  /-- PREEMPT_HALT (R131): The command processor halts a partition; cores stop at pass boundaries. -/
  | preemptHalt (ctx : Nat)
  /-- PREEMPT_SAVE (R133): With R132 met, images are written into the shadow slices. -/
  | preemptSave (ctx : Nat)
  /-- PREEMPT_SWAP_DONE (R134): Images are written and the cores pass to the incoming context. -/
  | preemptSwapDone (ctx : Nat)
  /-- RESTORE (R134): A saved partition's restore begins. -/
  | restore (ctx : Nat)
  /-- RESTORE_DONE (R134): Restore completes and fragments become issuable with key the restore tick. -/
  | restoreDone (ctx : Nat)
  /-- DESCRIPTOR_TAKE (R381): A fabric port observes DB and takes the next send-ring descriptor. -/
  | descriptorTake (ring : Nat)
  /-- FABRIC_STORE (R385): A remote STORE arrives and is applied at the receiver. -/
  | fabricStore (m : FabricMsg)
  /-- FABRIC_ASTO (R385): A remote ASTO arrives and its elements are applied. -/
  | fabricAsto (m : FabricMsg)
  /-- FABRIC_CTRADD (R385): A remote CTRADD arrives and adds to the receiver's counter. -/
  | fabricCtradd (m : FabricMsg)
  /-- DESCRIPTOR_ACK (R383): The receiver's acknowledgement arrives; STATUS and LCTR are written. -/
  | descriptorAck (ring : Nat) (i : Nat) (cause : Byte) (remote : Bool)
  /-- LINK_RETRY_EXPIRY (R379): The 500 us retry limit expires and affected descriptors end with LINK. -/
  | linkRetryExpiry (port : Nat)
  /-- SEQUENCE_STEAL (R378): An idle die steals a sequence from the other die between snapshots. -/
  | sequenceSteal (thief : Nat) (entry : Nat)
  /-- CHIP_STEAL (R388): A victim removes an entry and sends pages and Carillon state to its partner chip. -/
  | chipSteal (die : Nat) (entry : Nat)
  /-- STEAL_STATE_INSTALL (R388): The thief installs the received sequence and places the entry. -/
  | stealStateInstall (m : StealMsg)
  /-- STEAL_ACK (R388): The thief's acknowledgement arrives and the victim frees its context and frames. -/
  | stealAck (id : Nat)
  /-- QUEUE_DOORBELL (R365): Host writes a queue's tail, exposing command entries. -/
  | queueDoorbell (queue : Nat) (tail : DWord)
  /-- ADMDB (R367): Host writes the administrative queue doorbell. -/
  | admdb (tail : DWord)
  /-- REGISTER_WRITE (R5): Host write to a BAR0 register with no behaviour of its own. -/
  | registerWrite (offset : Nat) (value : DWord)
  /-- CTX_CREATE (R369): Creates a context from a descriptor, assigning the lowest free number. -/
  | ctxCreate (c : Command)
  /-- CTX_DESTROY (R366): Cancels the job and frees the context's queues, Carillon contexts, pins and frames. -/
  | ctxDestroy (c : Command)
  /-- QUEUE_CREATE (R367): Creates a context queue from a queue descriptor. -/
  | queueCreate (c : Command)
  /-- QUEUE_DESTROY (R367): Removes a queue once its commands complete. -/
  | queueDestroy (c : Command)
  /-- MEM_MAP (R299): MMP maps a range from a leaf template. -/
  | memMap (c : Command)
  /-- MEM_UNMAP (R299): MMP unmaps a range with a completed shootdown. -/
  | memUnmap (c : Command)
  /-- MEM_PROTECT (R299): MMP changes permissions with a completed shootdown. -/
  | memProtect (c : Command)
  /-- TILE_EVICT (R316): Evicts a resident LOGGABLE tile unless pinned. -/
  | tileEvict (c : Command)
  /-- FAULT_REPLY (R293): Driver answers a fault record with MAP or FAIL. -/
  | faultReply (c : Command)
  /-- BUF_DECLARE (R372): Declares a buffer handle's range. -/
  | bufDeclare (c : Command)
  /-- LAUNCH (R371): Starts a launch from a launch record. -/
  | launch (c : Command)
  /-- GRAPH_BEGIN (R373): Begins recording commands into a graph. -/
  | graphBegin (c : Command)
  /-- GRAPH_END (R373): Ends a graph recording. -/
  | graphEnd (c : Command)
  /-- GRAPH_REPLAY (R374): Replays a graph with bound parameters. -/
  | graphReplay (c : Command)
  /-- PHASE_OPEN (R375): Creates a phase root of 2^48 weight units. -/
  | phaseOpen (c : Command)
  /-- PHASE_CLOSE (R375): Closes a phase to new work. -/
  | phaseClose (c : Command)
  /-- CANCEL (R20): Cancels a launch, graph, phase or job. -/
  | cancel (c : Command)
  /-- CRL_BIND (R339): Binds and configures a Carillon context. -/
  | crlBind (c : Command)
  /-- CRL_FREE (R339): Frees a Carillon context. -/
  | crlFree (c : Command)
  /-- CRL_LOAD (R339): Loads a Carillon program slot, refused while bound contexts run or wait. -/
  | crlLoad (c : Command)
  /-- CRL_RESTART (R353): Restarts a halted or faulted Carillon context. -/
  | crlRestart (c : Command)
  /-- BATCH_UPDATE (R376): Commits a batching table entry indivisibly. -/
  | batchUpdate (c : Command)
  /-- BATCH_ITER (R377): Snapshots the batching table at tick tau and replays a graph. -/
  | batchIter (c : Command)
  /-- SIGNAL (R366): Command processor counter add. -/
  | signal (c : Command)
  /-- UNKNOWN_COMMAND (R366): A command with unknown OP or bad operands completes with BADOP. -/
  | unknownCommand (c : Command)
  /-- HOST_BAR2_ACCESS (R364): Host read or write of device memory through BAR2. -/
  | hostBar2Access (offset : Nat) (data : Option (List Byte))
  /-- BOOT_IMAGE_WRITE (R364): Host write to the BAR4 boot image window, ignored unless IDLE. -/
  | bootImageWrite (offset : Nat) (data : List Byte)
  /-- BOOTSTAT_GO (R397): Writing GO starts image check, signature verification and release. -/
  | bootstatGo
  /-- RESET (R397): Device reset exposes the boot window and returns to IDLE. -/
  | reset
  /-- THERMAL_TRIP (R403): A die reaches trip temperature; all clocks gate and STATE becomes THERMAL. -/
  | thermalTrip
  /-- GOVERNOR_BUDGET_UPDATE (R403): Firmware sets cluster BUDGETs from current and temperature telemetry. -/
  | governorBudgetUpdate (cluster : Nat) (budget : Half)
  /-- ATTESTATION_REQUEST (R401): Host writes context and nonce to the mailbox; a signed report is formed. -/
  | attestationRequest (ctx : Nat) (nonce : List Byte)
  /-- TSTOP (R390): Writes TSTOP to arm or disarm a device stop. -/
  | tstop (value : DWord)
  /-- TSTOP_EXPIRY (R390): The toll reaches TICK and the whole device is gated. -/
  | tstopExpiry
  /-- DEBUG_RELEASE (R390): Release restarts every domain on one tick after a stop. -/
  | debugRelease
  /-- STOPCL (R393): Command that triggers a cluster stop. -/
  | stopcl (cluster : Nat)
  /-- CLUSTER_STOP_ARRIVAL (R393): The stop broadcast reaches a core, which stops and writes skid records. -/
  | clusterStopArrival (core : Nat)
  /-- STEP (R394): One stopped fragment issues one instruction and stops again. -/
  | step (core : Nat) (tslot : Nat) (lane : Nat)
  /-- STEP_BLOCKED (R394): A stepped wait does not return in 65,536 ticks; the step ends BLOCKED. -/
  | stepBlocked (core : Nat) (tslot : Nat) (lane : Nat)
  /-- RESUME (R394): Releases a stopped cluster. -/
  | resume (cluster : Nat)
  /-- COLOPHON_COUNTER_ADD (R396): Once lower-SEQ records are written, CLRCTR receives 1. -/
  | colophonCounterAdd (launch : Nat)
  /-- ILLEGAL_INSTRUCTION (R83): Issue of a word that is no instruction (reserved major, res0 bit set, unassigned minor or fn6, 16-bit word with bit 15 set) raises ILLEGAL-INSTRUCTION before any effect. -/
  | illegalInstruction (word : Word)
  /-- FETCH_FAULT (R63): A fetch from a non-canonical, odd or non-global address, or one failing translation, raises ILLEGAL-TARGET or INSTRUCTION-FETCH on the fragment. -/
  | fetchFault (f : FetchFault)
  /-- ILLEGAL_OP (R344): A Carillon context reaching a microinstruction word with OP 0x16 to 0x3F faults with ILLEGAL-OP. -/
  | illegalOp (word : Word)
  /-- PC_RANGE (R350): A Carillon context fetching at a PC at or beyond the loaded length of its slot faults with PC-RANGE. -/
  | pcRange
  /-- POWER_LOSS (R402): Loss of the module's supply loses all device state but keeps the non-volatile signing index, possibly skipping an index. -/
  | powerLoss (skip : Nat)
  deriving DecidableEq, Repr

end Sys2Proof
end

