-- ==== Sys2Proof/WellFormed.lean ====
section
/-! DEFINITION. When the fields of an instruction are ones its format admits: the conditions of R83 that do not depend on
the team (widths R69, qualifiers R194, scope codes R37 and R122, pattern kinds R117, set fields R73, immediates of R153,
R212, R119, R295 and the Carillon's R344, R350 and R351). A row without an encoding has none. -/

namespace Sys2Proof

/-- A register operand is a multiple of the width W = 2^w (R69). -/
def wOk (w : BitVec 2) (r : BitVec 6) : Bool := r.toNat % 2 ^ w.toNat == 0

/-- The bytes one lane's access spans with S bytes per operation and g = 1 (R188). -/
def spanOf (size : Nat) (w : BitVec 2) : Nat := size * 2 ^ w.toNat

/-- The load qualifiers of R194: plain, WF, WFE, and SX where the load has it; WF and WFE need a span of at most 16 bytes. -/
def loadQ (q : BitVec 3) (sx : Bool) (span : Nat) : Bool :=
  q == 0 || ((q == 1 || q == 3) && decide (span ≤ 16)) || (q == 4 && sx)

/-- The store qualifiers of R194: plain and SF, which needs a span of at most 16 bytes. -/
def storeQ (q : BitVec 3) (span : Nat) : Bool := q == 0 || (q == 1 && decide (span ≤ 16))

/-- The parameter ranges of the pattern kinds (R117). -/
def patternOk (kind : BitVec 2) (n : BitVec 5) : Bool :=
  if kind == 2 then decide (n.toNat ≤ 4) else if kind == 3 then decide (1 ≤ n.toNat) && decide (n.toNat ≤ 5) else true

/-- A set field names a flag 0 to 11, or 0xF for none (R73). -/
def setOk (f : BitVec 4) : Bool := decide (f.toNat ≤ 11) || f == 15

/-- The static conditions of R83 on an instruction's fields. -/
def Instr.wf : Instr → Bool
  | .mov _ _ => true
  | .iadd16 _ _ => true
  | .isub16 _ _ => true
  | .imul16 _ _ => true
  | .iand16 _ _ => true
  | .ior16 _ _ => true
  | .ixor16 _ _ => true
  | .ishl16 _ _ => true
  | .ishr16 _ _ => true
  | .fadd16 _ _ => true
  | .fsub16 _ _ => true
  | .fmul16 _ _ => true
  | .fmax16 _ _ => true
  | .fmin16 _ _ => true
  | .imax16 _ _ => true
  | .imin16 _ _ => true
  | .iadd w d a _ b _ => wOk w d && wOk w a && wOk w b
  | .isub w d a _ b _ => wOk w d && wOk w a && wOk w b
  | .imul w d a _ b _ => wOk w d && wOk w a && wOk w b
  | .imulh w d a _ b _ => wOk w d && wOk w a && wOk w b
  | .imulhu w d a _ b _ => wOk w d && wOk w a && wOk w b
  | .imad w d a _ b _ => wOk w d && wOk w a && wOk w b
  | .iand w d a _ b _ => wOk w d && wOk w a && wOk w b
  | .ior w d a _ b _ => wOk w d && wOk w a && wOk w b
  | .ixor w d a _ b _ => wOk w d && wOk w a && wOk w b
  | .iandn w d a _ b _ => wOk w d && wOk w a && wOk w b
  | .ishl w d a _ b _ => wOk w d && wOk w a && wOk w b
  | .ishr w d a _ b _ => wOk w d && wOk w a && wOk w b
  | .isra w d a _ b _ => wOk w d && wOk w a && wOk w b
  | .imin w d a _ b _ => wOk w d && wOk w a && wOk w b
  | .imax w d a _ b _ => wOk w d && wOk w a && wOk w b
  | .umin w d a _ b _ => wOk w d && wOk w a && wOk w b
  | .umax w d a _ b _ => wOk w d && wOk w a && wOk w b
  | .iseq w d a _ b _ => wOk w d && wOk w a && wOk w b
  | .islt w d a _ b _ => wOk w d && wOk w a && wOk w b
  | .isltu w d a _ b _ => wOk w d && wOk w a && wOk w b
  | .iadd64 w d a _ b _ => wOk w d && wOk w a && wOk w b
  | .isub64 w d a _ b _ => wOk w d && wOk w a && wOk w b
  | .addi w d a _ _ => wOk w d && wOk w a
  | .shli w d a _ _ => wOk w d && wOk w a
  | .shri w d a _ _ => wOk w d && wOk w a
  | .srai w d a _ _ => wOk w d && wOk w a
  | .andi w d a _ _ => wOk w d && wOk w a
  | .fadd w d a _ b _ => wOk w d && wOk w a && wOk w b
  | .fsub w d a _ b _ => wOk w d && wOk w a && wOk w b
  | .fmul w d a _ b _ => wOk w d && wOk w a && wOk w b
  | .fma w d a _ b _ => wOk w d && wOk w a && wOk w b
  | .fmin w d a _ b _ => wOk w d && wOk w a && wOk w b
  | .fmax w d a _ b _ => wOk w d && wOk w a && wOk w b
  | .fseq w d a _ b _ => wOk w d && wOk w a && wOk w b
  | .fslt w d a _ b _ => wOk w d && wOk w a && wOk w b
  | .fsle w d a _ b _ => wOk w d && wOk w a && wOk w b
  | .sel w d a _ b _ => wOk w d && wOk w a && wOk w b
  | .rcp w d a _ => wOk w d && wOk w a
  | .rsq w d a _ => wOk w d && wOk w a
  | .sqrt w d a _ => wOk w d && wOk w a
  | .exp2 w d a _ => wOk w d && wOk w a
  | .log2 w d a _ => wOk w d && wOk w a
  | .sin2pi w d a _ => wOk w d && wOk w a
  | .cos2pi w d a _ => wOk w d && wOk w a
  | .tanh w d a _ => wOk w d && wOk w a
  | .fabs w d a _ => wOk w d && wOk w a
  | .fneg w d a _ => wOk w d && wOk w a
  | .cvtif w d a _ => wOk w d && wOk w a
  | .cvtuf w d a _ => wOk w d && wOk w a
  | .cvtfi w d a _ => wOk w d && wOk w a
  | .cvtfu w d a _ => wOk w d && wOk w a
  | .cvtfir w d a _ => wOk w d && wOk w a
  | .frint w d a _ => wOk w d && wOk w a
  | .ffloor w d a _ => wOk w d && wOk w a
  | .ftrunc w d a _ => wOk w d && wOk w a
  | .clz w d a _ => wOk w d && wOk w a
  | .popc w d a _ => wOk w d && wOk w a
  | .brev w d a _ => wOk w d && wOk w a
  | .rnd w d a _ i => wOk w d && wOk w a && (1 ≤ i.toNat && i.toNat ≤ 24)
  | .perm w d a _ b _ => wOk w d && wOk w a && wOk w b
  | .xredIadd _ _ _ => true
  | .xredImin _ _ _ => true
  | .xredImax _ _ _ => true
  | .xredUmin _ _ _ => true
  | .xredUmax _ _ _ => true
  | .xredIand _ _ _ => true
  | .xredIor _ _ _ => true
  | .xredIxor _ _ _ => true
  | .xredFadd _ _ _ => true
  | .xredFmin _ _ _ => true
  | .xredFmax _ _ _ => true
  | .xredIscan _ _ _ => true
  | .xredIscanx _ _ _ => true
  | .xredFscan _ _ _ => true
  | .xredFscanx _ _ _ => true
  | .laneIndex _ => true
  | .laneDie _ => true
  | .laneGcore _ => true
  | .laneHome _ _ _ => true
  | .movi _ _ => true
  | .movhi _ _ => true
  | .dset w d a _ b _ => wOk w d && wOk w a && wOk w b
  | .dmean w d a _ => wOk w d && wOk w a
  | .dvar w d a _ => wOk w d && wOk w a
  | .dvarU w d a _ => wOk w d && wOk w a
  | .dstd w d a _ => wOk w d && wOk w a
  | .dstdU w d a _ => wOk w d && wOk w a
  | .dscale w d a _ b _ => wOk w d && wOk w a && wOk w b
  | .dtagNew w d a _ => wOk w d && wOk w a
  | .dtagRead _ => true
  | .dtagReset => true
  | .dfoldT w d a _ => wOk w d && wOk w a
  | .dfoldM w d a _ => wOk w d && wOk w a
  | .dfoldL w d a _ => wOk w d && wOk w a
  | .dcov w d a _ b _ => wOk w d && wOk w a && wOk w b
  | .dtos w d a _ => wOk w d && wOk w a
  | .dtosL w d a _ => wOk w d && wOk w a
  | .stod w d a _ b _ => wOk w d && wOk w a && wOk w b
  | .dclamp w d a _ b _ => wOk w d && wOk w a && wOk w b
  | .dfuse w d a _ b _ => wOk w d && wOk w a && wOk w b
  | .ldb w d _ q _ => wOk w d && loadQ q true (spanOf 1 w)
  | .ldh w d _ q _ => wOk w d && loadQ q true (spanOf 2 w)
  | .ldw w d _ q _ => wOk w d && loadQ q false (spanOf 4 w)
  | .ldd w d _ q _ => wOk w d && loadQ q false (spanOf 8 w)
  | .stb w d _ q _ => wOk w d && storeQ q (spanOf 1 w)
  | .sth w d _ q _ => wOk w d && storeQ q (spanOf 2 w)
  | .stw w d _ q _ => wOk w d && storeQ q (spanOf 4 w)
  | .std w d _ q _ => wOk w d && storeQ q (spanOf 8 w)
  | .astoIadd w d _ _ => wOk w d
  | .astoFadd w d _ _ => wOk w d
  | .astoFaddR w d _ _ => wOk w d
  | .astoImin w d _ _ => wOk w d
  | .astoImax w d _ _ => wOk w d
  | .astoFmin w d _ _ => wOk w d
  | .astoFmax w d _ _ => wOk w d
  | .astoIor w d _ _ => wOk w d
  | .fence s k => (s.toNat ≤ 5 && k.toNat ≠ 0)
  | .pref _ _ _ => true
  | .spill w d _ _ => wOk w d
  | .fill w d _ _ => wOk w d
  | .spillp w d _ _ => wOk w d
  | .fillp w d _ _ => wOk w d
  | .rngKey _ _ _ => true
  | .rngKeyLo _ _ => true
  | .rngKeyHi _ _ => true
  | .rngU w d a _ _ _ => wOk w d && wOk w a
  | .rngG w d a _ _ _ => wOk w d && wOk w a
  | .rngB w d a _ _ _ => wOk w d && wOk w a
  | .rngD w d a _ _ _ => wOk w d && wOk w a
  | .rngC _ _ _ _ _ => true
  | .srnd w d a _ _ c => wOk w d && wOk w a && (c.toNat < 24)
  | .rngPos _ _ => true
  | .rngPosAdd _ _ => true
  | .rngPosRd _ _ => true
  | .cpyGo _ => true
  | .cpyFence => true
  | .cpyCancel _ => true
  | .selGo _ => true
  | .selMerge _ => true
  | .tilePin _ _ _ => true
  | .tileQuery _ _ => true
  | .tilePrefetch _ _ => true
  | .tileDrainlog _ _ => true
  | .crlPost _ _ _ s => (s.toNat ≤ 5)
  | .mma _ _ _ _ => true
  | .dmma _ _ _ _ => true
  | .mmaqM _ _ _ _ => true
  | .mmaqD _ _ _ _ => true
  | .mfen => true
  | .mcommit _ => true
  | .mwait _ => true
  | .mdrainRows _ _ _ _ => true
  | .mdrainAdd _ _ _ _ => true
  | .mdrainFolio _ _ _ => true
  | .maccZero _ _ => true
  | .maccLoad _ _ _ _ => true
  | .maccTree _ _ _ => true
  | .maccGov _ => true
  | .bra _ => true
  | .brz _ _ => true
  | .brnz _ _ => true
  | .split _ _ => true
  | .rcv => true
  | .kpush _ => true
  | .call _ _ => true
  | .ret _ => true
  | .jmpr _ => true
  | .exit => true
  | .yield => true
  | .nop => true
  | .bkpt => true
  | .saluAdd _ _ _ => true
  | .saluSub _ _ _ => true
  | .saluMul _ _ _ => true
  | .saluMulhu _ _ _ => true
  | .saluAnd _ _ _ => true
  | .saluOr _ _ _ => true
  | .saluXor _ _ _ => true
  | .saluShl _ _ _ => true
  | .saluShr _ _ _ => true
  | .saluSra _ _ _ => true
  | .saluSlt _ _ _ => true
  | .saluSltu _ _ _ => true
  | .saluMin _ _ _ => true
  | .saluMax _ _ _ => true
  | .saluMinu _ _ _ => true
  | .saluMaxu _ _ _ => true
  | .saluiAdd _ _ _ => true
  | .saluiAnd _ _ _ => true
  | .saluiOr _ _ _ => true
  | .saluiXor _ _ _ => true
  | .saluiShl _ _ _ => true
  | .saluiShr _ _ _ => true
  | .saluiSra _ _ _ => true
  | .saluiSlt _ _ _ => true
  | .saluiSltu _ _ _ => true
  | .saluiShor _ _ _ => true
  | .sfpuAdd _ _ _ => true
  | .sfpuSub _ _ _ => true
  | .sfpuMul _ _ _ => true
  | .sfpuDiv _ _ _ => true
  | .sfpuMin _ _ _ => true
  | .sfpuMax _ _ _ => true
  | .sfpuSeq _ _ _ => true
  | .sfpuSlt _ _ _ => true
  | .sfpuSle _ _ _ => true
  | .sfpuCvtif _ _ => true
  | .sfpuCvtfi _ _ => true
  | .sldD _ _ _ => true
  | .sldW _ _ _ => true
  | .sldWs _ _ _ => true
  | .sstD _ _ _ => true
  | .sstW _ _ _ => true
  | .tsrSet _ _ => true
  | .tsrGet _ _ => true
  | .tsrLsw _ => true
  | .tsrLsr _ => true
  | .tsrOvr _ => true
  | .tsrOvc _ _ => true
  | .tsrFlr _ => true
  | .tsrFlc _ _ => true
  | .xps c n k => patternOk k n && (1 ≤ c.toNat && c.toNat ≤ 3)
  | .voteAny _ _ _ => true
  | .voteAll _ _ _ => true
  | .voteCount _ _ _ => true
  | .voteFirst _ _ _ => true
  | .voteBallot _ _ _ _ => true
  | .sbcastD _ _ => true
  | .sbcastM _ _ => true
  | .ctrAdd _ _ _ i => (i.toNat ≤ 5)
  | .ctrWait _ _ _ i => (i.toNat ≤ 5)
  | .ctrLoad _ _ i => (i.toNat ≤ 5)
  | .bar _ _ => true
  | .sysRd _ _ => true
  | .sysWr _ _ => true
  | .sysHrd _ _ => true
  | .sysHwr _ _ => true
  | .sysCancel l => (l.toNat ≤ 3)
  | .trap _ => true
  | .svcVersion => true
  | .svcPoolmap => true
  | .svcPoolcount => true
  | .svcPrefetch => true
  | .svcUnknown n => (4 ≤ n.toNat)
  | .rte => true
  | .kregRd _ _ => true
  | .kregWr _ _ => true
  | .kregAdd _ _ _ => true
  | .clause _ a b _ _ => setOk a && setOk b
  | .halt => true
  | .cmovh _ _ => true
  | .corl _ _ => true
  | .carillonFadd _ _ _ => true
  | .carillonFsub _ _ _ => true
  | .carillonFmul _ _ _ => true
  | .carillonFdiv _ _ _ => true
  | .cget _ _ _ => true
  | .cscale _ => true
  | .cpen x _ => (x.toNat ≤ 64)
  | .ctopk x => (1 ≤ x.toNat && x.toNat ≤ 256)
  | .ctopp _ => true
  | .cexp _ => true
  | .cnorm _ => true
  | .cpsum => true
  | .nset _ _ _ => true
  | .rngu _ _ => true
  | .cdraw _ _ => true
  | .cacc _ _ _ _ => true
  | .br _ c _ => (c.toNat ≠ 3)
  | .waitc _ => true
  | .emit s _ _ => (3 ≤ s.toNat && s.toNat ≤ 5)
  | .clauseWaitRelease _ => true
  | .loadDataReturn _ => true
  | .waitFullRead _ => true
  | .storeTaken _ => true
  | .noiseResult _ => true
  | .ctrAddResult _ => true
  | .ctrWaitReturn _ => true
  | .ctrLoadResult _ => true
  | .barRelease _ => true
  | .fenceComplete _ => true
  | .svcReturn _ => true
  | .astoApply _ => true
  | .drainAddApply _ => true
  | .matrixOpComplete _ => true
  | .mmaqJoin _ _ => true
  | .maccTreeJoin _ => true
  | .governorWindow _ => true
  | .quireComplete _ => true
  | .cpyFenceComplete _ => true
  | .selectionPartialList _ _ => true
  | .selectionComplete _ => true
  | .candidateDelivery _ => true
  | .carillonWake _ => true
  | .carillonSuspend _ => true
  | .carillonResume _ => true
  | .logAppend _ => true
  | .tileFrameObtained _ => true
  | .tileArrivalFailed _ _ => true
  | .phaseLogArrival _ => true
  | .faultRecordPost _ => true
  | .faultRingHeadPoll _ => true
  | .poolRefill _ _ => true
  | .mergeRewalk _ => true
  | .shootdown _ _ => true
  | .shootdownAgentAdd _ _ => true
  | .unitPlacement _ => true
  | .unitFinish _ => true
  | .phaseEnd _ => true
  | .preemptHalt _ => true
  | .preemptSave _ => true
  | .preemptSwapDone _ => true
  | .restore _ => true
  | .restoreDone _ => true
  | .descriptorTake _ => true
  | .fabricStore _ => true
  | .fabricAsto _ => true
  | .fabricCtradd _ => true
  | .descriptorAck _ _ _ _ => true
  | .linkRetryExpiry _ => true
  | .sequenceSteal _ _ => true
  | .chipSteal _ _ => true
  | .stealStateInstall _ => true
  | .stealAck _ => true
  | .queueDoorbell _ _ => true
  | .admdb _ => true
  | .registerWrite _ _ => true
  | .ctxCreate _ => true
  | .ctxDestroy _ => true
  | .queueCreate _ => true
  | .queueDestroy _ => true
  | .memMap _ => true
  | .memUnmap _ => true
  | .memProtect _ => true
  | .tileEvict _ => true
  | .faultReply _ => true
  | .bufDeclare _ => true
  | .launch _ => true
  | .graphBegin _ => true
  | .graphEnd _ => true
  | .graphReplay _ => true
  | .phaseOpen _ => true
  | .phaseClose _ => true
  | .cancel _ => true
  | .crlBind _ => true
  | .crlFree _ => true
  | .crlLoad _ => true
  | .crlRestart _ => true
  | .batchUpdate _ => true
  | .batchIter _ => true
  | .signal _ => true
  | .unknownCommand _ => true
  | .hostBar2Access _ _ => true
  | .bootImageWrite _ _ => true
  | .bootstatGo => true
  | .reset => true
  | .thermalTrip => true
  | .governorBudgetUpdate _ _ => true
  | .attestationRequest _ _ => true
  | .tstop _ => true
  | .tstopExpiry => true
  | .debugRelease => true
  | .stopcl _ => true
  | .clusterStopArrival _ => true
  | .step _ _ _ => true
  | .stepBlocked _ _ _ => true
  | .resume _ => true
  | .colophonCounterAdd _ => true
  | .illegalInstruction _ => true
  | .fetchFault _ => true
  | .illegalOp _ => true
  | .pcRange => true
  | .powerLoss _ => true

end Sys2Proof
end

