-- ==== Sys2Proof/Decode.lean ====
section
/-! DEFINITION. Decoding of instruction words (R61 to R67, R73, R82, R83, R343, R344), total on any bytes and rejecting by
name, and the encoder that writes a well-formed instruction back as its word. -/

namespace Sys2Proof

noncomputable section

/-- Why bytes are no instruction (R83, R344). -/
inductive Reject where
  /-- Fewer bytes than the instruction's length. -/
  | truncated
  /-- A 16-bit word with bit 15 set. -/
  | shortBit15
  /-- A 32-bit word of a reserved major. -/
  | reservedMajor
  /-- A minor, minor2 or fn6 value not assigned, or a res0 field not zero. -/
  | unassigned
  /-- A Carillon word with an unused field not zero. -/
  | res0Field
  /-- A Carillon word with OP 0x16 to 0x3F. -/
  | carillonOp
  /-- A field value outside its range (`Instr.wf`). -/
  | fieldRange
  deriving DecidableEq, Repr

/-- The form of an instruction. -/
inductive Form where
  /-- A 16-bit word (R64). -/
  | half
  /-- A 32-bit word (R67). -/
  | word
  /-- A Carillon microinstruction (R343). -/
  | micro
  /-- A step that no word encodes. -/
  | event
  deriving DecidableEq, Repr

/-- Bits [hi:lo] of a word. -/
def bits (w hi lo : Nat) : Nat := w / 2 ^ lo % 2 ^ (hi + 1 - lo)

/-- The n-bit field of a word whose least significant bit is bit lo. -/
def fld (n w lo : Nat) : BitVec n := BitVec.ofNat n (w / 2 ^ lo)

/-- The 32-bit formats of R67 under the map of R82: one case per low byte (bit 0 set, major opcode in [7:1]), then the
minor, minor2 or fn6 value and the res0 fields of the format. -/
def decode32Raw (w : Nat) : Except Reject Instr :=
  match w % 256 with
  | 0x01 => .ok (.iadd (fld 2 w 8) (fld 6 w 10) (fld 6 w 16) (fld 2 w 22) (fld 6 w 24) (fld 2 w 30))
  | 0x03 => .ok (.isub (fld 2 w 8) (fld 6 w 10) (fld 6 w 16) (fld 2 w 22) (fld 6 w 24) (fld 2 w 30))
  | 0x05 => .ok (.imul (fld 2 w 8) (fld 6 w 10) (fld 6 w 16) (fld 2 w 22) (fld 6 w 24) (fld 2 w 30))
  | 0x07 => .ok (.imulh (fld 2 w 8) (fld 6 w 10) (fld 6 w 16) (fld 2 w 22) (fld 6 w 24) (fld 2 w 30))
  | 0x09 => .ok (.imulhu (fld 2 w 8) (fld 6 w 10) (fld 6 w 16) (fld 2 w 22) (fld 6 w 24) (fld 2 w 30))
  | 0x0B => .ok (.imad (fld 2 w 8) (fld 6 w 10) (fld 6 w 16) (fld 2 w 22) (fld 6 w 24) (fld 2 w 30))
  | 0x0D => .ok (.iand (fld 2 w 8) (fld 6 w 10) (fld 6 w 16) (fld 2 w 22) (fld 6 w 24) (fld 2 w 30))
  | 0x0F => .ok (.ior (fld 2 w 8) (fld 6 w 10) (fld 6 w 16) (fld 2 w 22) (fld 6 w 24) (fld 2 w 30))
  | 0x11 => .ok (.ixor (fld 2 w 8) (fld 6 w 10) (fld 6 w 16) (fld 2 w 22) (fld 6 w 24) (fld 2 w 30))
  | 0x13 => .ok (.iandn (fld 2 w 8) (fld 6 w 10) (fld 6 w 16) (fld 2 w 22) (fld 6 w 24) (fld 2 w 30))
  | 0x15 => .ok (.ishl (fld 2 w 8) (fld 6 w 10) (fld 6 w 16) (fld 2 w 22) (fld 6 w 24) (fld 2 w 30))
  | 0x17 => .ok (.ishr (fld 2 w 8) (fld 6 w 10) (fld 6 w 16) (fld 2 w 22) (fld 6 w 24) (fld 2 w 30))
  | 0x19 => .ok (.isra (fld 2 w 8) (fld 6 w 10) (fld 6 w 16) (fld 2 w 22) (fld 6 w 24) (fld 2 w 30))
  | 0x1B => .ok (.imin (fld 2 w 8) (fld 6 w 10) (fld 6 w 16) (fld 2 w 22) (fld 6 w 24) (fld 2 w 30))
  | 0x1D => .ok (.imax (fld 2 w 8) (fld 6 w 10) (fld 6 w 16) (fld 2 w 22) (fld 6 w 24) (fld 2 w 30))
  | 0x1F => .ok (.umin (fld 2 w 8) (fld 6 w 10) (fld 6 w 16) (fld 2 w 22) (fld 6 w 24) (fld 2 w 30))
  | 0x21 => .ok (.umax (fld 2 w 8) (fld 6 w 10) (fld 6 w 16) (fld 2 w 22) (fld 6 w 24) (fld 2 w 30))
  | 0x23 => .ok (.iseq (fld 2 w 8) (fld 6 w 10) (fld 6 w 16) (fld 2 w 22) (fld 6 w 24) (fld 2 w 30))
  | 0x25 => .ok (.islt (fld 2 w 8) (fld 6 w 10) (fld 6 w 16) (fld 2 w 22) (fld 6 w 24) (fld 2 w 30))
  | 0x27 => .ok (.isltu (fld 2 w 8) (fld 6 w 10) (fld 6 w 16) (fld 2 w 22) (fld 6 w 24) (fld 2 w 30))
  | 0x29 => .ok (.iadd64 (fld 2 w 8) (fld 6 w 10) (fld 6 w 16) (fld 2 w 22) (fld 6 w 24) (fld 2 w 30))
  | 0x2B => .ok (.isub64 (fld 2 w 8) (fld 6 w 10) (fld 6 w 16) (fld 2 w 22) (fld 6 w 24) (fld 2 w 30))
  | 0x2D => .ok (.addi (fld 2 w 8) (fld 6 w 10) (fld 6 w 16) (fld 2 w 22) (fld 8 w 24))
  | 0x2F => 
    if bits w 31 29 = 0 then .ok (.shli (fld 2 w 8) (fld 6 w 10) (fld 6 w 16) (fld 2 w 22) (fld 5 w 24))
    else .error .unassigned
  | 0x31 => 
    if bits w 31 29 = 0 then .ok (.shri (fld 2 w 8) (fld 6 w 10) (fld 6 w 16) (fld 2 w 22) (fld 5 w 24))
    else .error .unassigned
  | 0x33 => 
    if bits w 31 29 = 0 then .ok (.srai (fld 2 w 8) (fld 6 w 10) (fld 6 w 16) (fld 2 w 22) (fld 5 w 24))
    else .error .unassigned
  | 0x35 => .ok (.andi (fld 2 w 8) (fld 6 w 10) (fld 6 w 16) (fld 2 w 22) (fld 8 w 24))
  | 0x37 => .ok (.fadd (fld 2 w 8) (fld 6 w 10) (fld 6 w 16) (fld 2 w 22) (fld 6 w 24) (fld 2 w 30))
  | 0x39 => .ok (.fsub (fld 2 w 8) (fld 6 w 10) (fld 6 w 16) (fld 2 w 22) (fld 6 w 24) (fld 2 w 30))
  | 0x3B => .ok (.fmul (fld 2 w 8) (fld 6 w 10) (fld 6 w 16) (fld 2 w 22) (fld 6 w 24) (fld 2 w 30))
  | 0x3D => .ok (.fma (fld 2 w 8) (fld 6 w 10) (fld 6 w 16) (fld 2 w 22) (fld 6 w 24) (fld 2 w 30))
  | 0x3F => .ok (.fmin (fld 2 w 8) (fld 6 w 10) (fld 6 w 16) (fld 2 w 22) (fld 6 w 24) (fld 2 w 30))
  | 0x41 => .ok (.fmax (fld 2 w 8) (fld 6 w 10) (fld 6 w 16) (fld 2 w 22) (fld 6 w 24) (fld 2 w 30))
  | 0x43 => .ok (.fseq (fld 2 w 8) (fld 6 w 10) (fld 6 w 16) (fld 2 w 22) (fld 6 w 24) (fld 2 w 30))
  | 0x45 => .ok (.fslt (fld 2 w 8) (fld 6 w 10) (fld 6 w 16) (fld 2 w 22) (fld 6 w 24) (fld 2 w 30))
  | 0x47 => .ok (.fsle (fld 2 w 8) (fld 6 w 10) (fld 6 w 16) (fld 2 w 22) (fld 6 w 24) (fld 2 w 30))
  | 0x49 => .ok (.sel (fld 2 w 8) (fld 6 w 10) (fld 6 w 16) (fld 2 w 22) (fld 6 w 24) (fld 2 w 30))
  | 0x4B => 
    if bits w 31 24 = 0 then .ok (.rcp (fld 2 w 8) (fld 6 w 10) (fld 6 w 16) (fld 2 w 22))
    else if bits w 31 24 = 1 then .ok (.rsq (fld 2 w 8) (fld 6 w 10) (fld 6 w 16) (fld 2 w 22))
    else if bits w 31 24 = 2 then .ok (.sqrt (fld 2 w 8) (fld 6 w 10) (fld 6 w 16) (fld 2 w 22))
    else if bits w 31 24 = 3 then .ok (.exp2 (fld 2 w 8) (fld 6 w 10) (fld 6 w 16) (fld 2 w 22))
    else if bits w 31 24 = 4 then .ok (.log2 (fld 2 w 8) (fld 6 w 10) (fld 6 w 16) (fld 2 w 22))
    else if bits w 31 24 = 5 then .ok (.sin2pi (fld 2 w 8) (fld 6 w 10) (fld 6 w 16) (fld 2 w 22))
    else if bits w 31 24 = 6 then .ok (.cos2pi (fld 2 w 8) (fld 6 w 10) (fld 6 w 16) (fld 2 w 22))
    else if bits w 31 24 = 7 then .ok (.tanh (fld 2 w 8) (fld 6 w 10) (fld 6 w 16) (fld 2 w 22))
    else if bits w 31 24 = 8 then .ok (.fabs (fld 2 w 8) (fld 6 w 10) (fld 6 w 16) (fld 2 w 22))
    else if bits w 31 24 = 9 then .ok (.fneg (fld 2 w 8) (fld 6 w 10) (fld 6 w 16) (fld 2 w 22))
    else if bits w 31 24 = 16 then .ok (.cvtif (fld 2 w 8) (fld 6 w 10) (fld 6 w 16) (fld 2 w 22))
    else if bits w 31 24 = 17 then .ok (.cvtuf (fld 2 w 8) (fld 6 w 10) (fld 6 w 16) (fld 2 w 22))
    else if bits w 31 24 = 18 then .ok (.cvtfi (fld 2 w 8) (fld 6 w 10) (fld 6 w 16) (fld 2 w 22))
    else if bits w 31 24 = 19 then .ok (.cvtfu (fld 2 w 8) (fld 6 w 10) (fld 6 w 16) (fld 2 w 22))
    else if bits w 31 24 = 20 then .ok (.cvtfir (fld 2 w 8) (fld 6 w 10) (fld 6 w 16) (fld 2 w 22))
    else if bits w 31 24 = 21 then .ok (.frint (fld 2 w 8) (fld 6 w 10) (fld 6 w 16) (fld 2 w 22))
    else if bits w 31 24 = 22 then .ok (.ffloor (fld 2 w 8) (fld 6 w 10) (fld 6 w 16) (fld 2 w 22))
    else if bits w 31 24 = 23 then .ok (.ftrunc (fld 2 w 8) (fld 6 w 10) (fld 6 w 16) (fld 2 w 22))
    else if bits w 31 24 = 24 then .ok (.clz (fld 2 w 8) (fld 6 w 10) (fld 6 w 16) (fld 2 w 22))
    else if bits w 31 24 = 25 then .ok (.popc (fld 2 w 8) (fld 6 w 10) (fld 6 w 16) (fld 2 w 22))
    else if bits w 31 24 = 26 then .ok (.brev (fld 2 w 8) (fld 6 w 10) (fld 6 w 16) (fld 2 w 22))
    else .error .unassigned
  | 0x4D => 
    if bits w 31 29 = 0 then .ok (.rnd (fld 2 w 8) (fld 6 w 10) (fld 6 w 16) (fld 2 w 22) (fld 5 w 24))
    else .error .unassigned
  | 0x4F => .ok (.perm (fld 2 w 8) (fld 6 w 10) (fld 6 w 16) (fld 2 w 22) (fld 6 w 24) (fld 2 w 30))
  | 0x51 => 
    if bits w 9 8 = 0 ∧ bits w 31 24 = 0 then .ok (.xredIadd (fld 6 w 10) (fld 6 w 16) (fld 2 w 22))
    else if bits w 9 8 = 0 ∧ bits w 31 24 = 1 then .ok (.xredImin (fld 6 w 10) (fld 6 w 16) (fld 2 w 22))
    else if bits w 9 8 = 0 ∧ bits w 31 24 = 2 then .ok (.xredImax (fld 6 w 10) (fld 6 w 16) (fld 2 w 22))
    else if bits w 9 8 = 0 ∧ bits w 31 24 = 3 then .ok (.xredUmin (fld 6 w 10) (fld 6 w 16) (fld 2 w 22))
    else if bits w 9 8 = 0 ∧ bits w 31 24 = 4 then .ok (.xredUmax (fld 6 w 10) (fld 6 w 16) (fld 2 w 22))
    else if bits w 9 8 = 0 ∧ bits w 31 24 = 5 then .ok (.xredIand (fld 6 w 10) (fld 6 w 16) (fld 2 w 22))
    else if bits w 9 8 = 0 ∧ bits w 31 24 = 6 then .ok (.xredIor (fld 6 w 10) (fld 6 w 16) (fld 2 w 22))
    else if bits w 9 8 = 0 ∧ bits w 31 24 = 7 then .ok (.xredIxor (fld 6 w 10) (fld 6 w 16) (fld 2 w 22))
    else if bits w 9 8 = 0 ∧ bits w 31 24 = 8 then .ok (.xredFadd (fld 6 w 10) (fld 6 w 16) (fld 2 w 22))
    else if bits w 9 8 = 0 ∧ bits w 31 24 = 9 then .ok (.xredFmin (fld 6 w 10) (fld 6 w 16) (fld 2 w 22))
    else if bits w 9 8 = 0 ∧ bits w 31 24 = 10 then .ok (.xredFmax (fld 6 w 10) (fld 6 w 16) (fld 2 w 22))
    else if bits w 9 8 = 0 ∧ bits w 31 24 = 16 then .ok (.xredIscan (fld 6 w 10) (fld 6 w 16) (fld 2 w 22))
    else if bits w 9 8 = 0 ∧ bits w 31 24 = 17 then .ok (.xredIscanx (fld 6 w 10) (fld 6 w 16) (fld 2 w 22))
    else if bits w 9 8 = 0 ∧ bits w 31 24 = 18 then .ok (.xredFscan (fld 6 w 10) (fld 6 w 16) (fld 2 w 22))
    else if bits w 9 8 = 0 ∧ bits w 31 24 = 19 then .ok (.xredFscanx (fld 6 w 10) (fld 6 w 16) (fld 2 w 22))
    else .error .unassigned
  | 0x53 => 
    if bits w 9 8 = 0 ∧ bits w 31 16 = 0 then .ok (.laneIndex (fld 6 w 10))
    else if bits w 9 8 = 0 ∧ bits w 31 16 = 256 then .ok (.laneDie (fld 6 w 10))
    else if bits w 9 8 = 0 ∧ bits w 31 16 = 512 then .ok (.laneGcore (fld 6 w 10))
    else if bits w 9 8 = 0 ∧ bits w 31 24 = 3 then .ok (.laneHome (fld 6 w 10) (fld 6 w 16) (fld 2 w 22))
    else .error .unassigned
  | 0x55 => 
    if bits w 9 8 = 0 then .ok (.movi (fld 6 w 10) (fld 16 w 16))
    else .error .unassigned
  | 0x57 => 
    if bits w 9 8 = 0 then .ok (.movhi (fld 6 w 10) (fld 16 w 16))
    else .error .unassigned
  | 0x61 => .ok (.dset (fld 2 w 8) (fld 6 w 10) (fld 6 w 16) (fld 2 w 22) (fld 6 w 24) (fld 2 w 30))
  | 0x63 => 
    if bits w 31 24 = 0 then .ok (.dmean (fld 2 w 8) (fld 6 w 10) (fld 6 w 16) (fld 2 w 22))
    else .error .unassigned
  | 0x65 => 
    if bits w 31 24 = 0 then .ok (.dvar (fld 2 w 8) (fld 6 w 10) (fld 6 w 16) (fld 2 w 22))
    else if bits w 31 24 = 1 then .ok (.dvarU (fld 2 w 8) (fld 6 w 10) (fld 6 w 16) (fld 2 w 22))
    else .error .unassigned
  | 0x67 => 
    if bits w 31 24 = 0 then .ok (.dstd (fld 2 w 8) (fld 6 w 10) (fld 6 w 16) (fld 2 w 22))
    else if bits w 31 24 = 1 then .ok (.dstdU (fld 2 w 8) (fld 6 w 10) (fld 6 w 16) (fld 2 w 22))
    else .error .unassigned
  | 0x69 => .ok (.dscale (fld 2 w 8) (fld 6 w 10) (fld 6 w 16) (fld 2 w 22) (fld 6 w 24) (fld 2 w 30))
  | 0x6B => 
    if bits w 31 8 = 131072 then .ok (.dtagReset)
    else if bits w 9 8 = 0 ∧ bits w 31 16 = 256 then .ok (.dtagRead (fld 6 w 10))
    else if bits w 31 24 = 0 then .ok (.dtagNew (fld 2 w 8) (fld 6 w 10) (fld 6 w 16) (fld 2 w 22))
    else .error .unassigned
  | 0x6D => 
    if bits w 31 24 = 0 then .ok (.dfoldT (fld 2 w 8) (fld 6 w 10) (fld 6 w 16) (fld 2 w 22))
    else if bits w 31 24 = 1 then .ok (.dfoldM (fld 2 w 8) (fld 6 w 10) (fld 6 w 16) (fld 2 w 22))
    else if bits w 31 24 = 2 then .ok (.dfoldL (fld 2 w 8) (fld 6 w 10) (fld 6 w 16) (fld 2 w 22))
    else .error .unassigned
  | 0x6F => .ok (.dcov (fld 2 w 8) (fld 6 w 10) (fld 6 w 16) (fld 2 w 22) (fld 6 w 24) (fld 2 w 30))
  | 0x71 => 
    if bits w 31 24 = 0 then .ok (.dtos (fld 2 w 8) (fld 6 w 10) (fld 6 w 16) (fld 2 w 22))
    else if bits w 31 24 = 1 then .ok (.dtosL (fld 2 w 8) (fld 6 w 10) (fld 6 w 16) (fld 2 w 22))
    else .error .unassigned
  | 0x73 => .ok (.stod (fld 2 w 8) (fld 6 w 10) (fld 6 w 16) (fld 2 w 22) (fld 6 w 24) (fld 2 w 30))
  | 0x75 => .ok (.dclamp (fld 2 w 8) (fld 6 w 10) (fld 6 w 16) (fld 2 w 22) (fld 6 w 24) (fld 2 w 30))
  | 0x77 => .ok (.dfuse (fld 2 w 8) (fld 6 w 10) (fld 6 w 16) (fld 2 w 22) (fld 6 w 24) (fld 2 w 30))
  | 0x81 => .ok (.ldb (fld 2 w 8) (fld 6 w 10) (fld 6 w 16) (fld 3 w 22) (fld 7 w 25))
  | 0x83 => .ok (.ldh (fld 2 w 8) (fld 6 w 10) (fld 6 w 16) (fld 3 w 22) (fld 7 w 25))
  | 0x85 => .ok (.ldw (fld 2 w 8) (fld 6 w 10) (fld 6 w 16) (fld 3 w 22) (fld 7 w 25))
  | 0x87 => .ok (.ldd (fld 2 w 8) (fld 6 w 10) (fld 6 w 16) (fld 3 w 22) (fld 7 w 25))
  | 0x89 => .ok (.stb (fld 2 w 8) (fld 6 w 10) (fld 6 w 16) (fld 3 w 22) (fld 7 w 25))
  | 0x8B => .ok (.sth (fld 2 w 8) (fld 6 w 10) (fld 6 w 16) (fld 3 w 22) (fld 7 w 25))
  | 0x8D => .ok (.stw (fld 2 w 8) (fld 6 w 10) (fld 6 w 16) (fld 3 w 22) (fld 7 w 25))
  | 0x8F => .ok (.std (fld 2 w 8) (fld 6 w 10) (fld 6 w 16) (fld 3 w 22) (fld 7 w 25))
  | 0x91 => 
    if bits w 24 22 = 0 then .ok (.astoIadd (fld 2 w 8) (fld 6 w 10) (fld 6 w 16) (fld 7 w 25))
    else if bits w 24 22 = 1 then .ok (.astoFadd (fld 2 w 8) (fld 6 w 10) (fld 6 w 16) (fld 7 w 25))
    else if bits w 24 22 = 2 then .ok (.astoFaddR (fld 2 w 8) (fld 6 w 10) (fld 6 w 16) (fld 7 w 25))
    else if bits w 24 22 = 3 then .ok (.astoImin (fld 2 w 8) (fld 6 w 10) (fld 6 w 16) (fld 7 w 25))
    else if bits w 24 22 = 4 then .ok (.astoImax (fld 2 w 8) (fld 6 w 10) (fld 6 w 16) (fld 7 w 25))
    else if bits w 24 22 = 5 then .ok (.astoFmin (fld 2 w 8) (fld 6 w 10) (fld 6 w 16) (fld 7 w 25))
    else if bits w 24 22 = 6 then .ok (.astoFmax (fld 2 w 8) (fld 6 w 10) (fld 6 w 16) (fld 7 w 25))
    else if bits w 24 22 = 7 then .ok (.astoIor (fld 2 w 8) (fld 6 w 10) (fld 6 w 16) (fld 7 w 25))
    else .error .unassigned
  | 0x93 => 
    if bits w 21 8 = 0 ∧ bits w 31 27 = 0 then .ok (.fence (fld 3 w 22) (fld 2 w 25))
    else .error .unassigned
  | 0x95 => 
    if bits w 15 8 = 0 ∧ bits w 24 23 = 0 then .ok (.pref (fld 6 w 16) (fld 1 w 22) (fld 7 w 25))
    else .error .unassigned
  | 0x97 => 
    if bits w 24 22 = 0 then .ok (.spill (fld 2 w 8) (fld 6 w 10) (fld 6 w 16) (fld 7 w 25))
    else .error .unassigned
  | 0x99 => 
    if bits w 24 22 = 0 then .ok (.fill (fld 2 w 8) (fld 6 w 10) (fld 6 w 16) (fld 7 w 25))
    else .error .unassigned
  | 0x9B => 
    if bits w 24 22 = 0 then .ok (.spillp (fld 2 w 8) (fld 6 w 10) (fld 6 w 16) (fld 7 w 25))
    else .error .unassigned
  | 0x9D => 
    if bits w 24 22 = 0 then .ok (.fillp (fld 2 w 8) (fld 6 w 10) (fld 6 w 16) (fld 7 w 25))
    else .error .unassigned
  | 0xA1 => 
    if bits w 11 8 = 1 ∧ bits w 31 20 = 0 then .ok (.rngKeyLo (fld 5 w 12) (fld 3 w 17))
    else if bits w 11 8 = 2 ∧ bits w 31 20 = 0 then .ok (.rngKeyHi (fld 5 w 12) (fld 3 w 17))
    else if bits w 11 8 = 0 ∧ bits w 16 15 = 0 ∧ bits w 31 27 = 0 then .ok (.rngKey (fld 3 w 12) (fld 5 w 17) (fld 5 w 22))
    else .error .unassigned
  | 0xA3 => .ok (.rngU (fld 2 w 8) (fld 6 w 10) (fld 6 w 16) (fld 2 w 22) (fld 3 w 24) (fld 5 w 27))
  | 0xA5 => .ok (.rngG (fld 2 w 8) (fld 6 w 10) (fld 6 w 16) (fld 2 w 22) (fld 3 w 24) (fld 5 w 27))
  | 0xA7 => .ok (.rngB (fld 2 w 8) (fld 6 w 10) (fld 6 w 16) (fld 2 w 22) (fld 3 w 24) (fld 5 w 27))
  | 0xA9 => .ok (.rngD (fld 2 w 8) (fld 6 w 10) (fld 6 w 16) (fld 2 w 22) (fld 3 w 24) (fld 5 w 27))
  | 0xAB => 
    if bits w 9 8 = 0 then .ok (.rngC (fld 6 w 10) (fld 6 w 16) (fld 2 w 22) (fld 3 w 24) (fld 5 w 27))
    else .error .unassigned
  | 0xAD => .ok (.srnd (fld 2 w 8) (fld 6 w 10) (fld 6 w 16) (fld 2 w 22) (fld 3 w 24) (fld 5 w 27))
  | 0xAF => 
    if bits w 11 8 = 0 ∧ bits w 16 15 = 0 ∧ bits w 31 22 = 0 then .ok (.rngPos (fld 3 w 12) (fld 5 w 17))
    else if bits w 11 8 = 1 ∧ bits w 16 15 = 0 ∧ bits w 31 22 = 0 then .ok (.rngPosAdd (fld 3 w 12) (fld 5 w 17))
    else if bits w 11 8 = 2 ∧ bits w 31 20 = 0 then .ok (.rngPosRd (fld 5 w 12) (fld 3 w 17))
    else .error .unassigned
  | 0xB1 => 
    if bits w 11 8 = 0 ∧ bits w 31 17 = 0 then .ok (.cpyGo (fld 5 w 12))
    else .error .unassigned
  | 0xB3 => 
    if bits w 31 8 = 0 then .ok (.cpyFence)
    else .error .unassigned
  | 0xB5 => 
    if bits w 11 8 = 0 ∧ bits w 31 17 = 0 then .ok (.cpyCancel (fld 5 w 12))
    else .error .unassigned
  | 0xB7 => 
    if bits w 11 8 = 0 ∧ bits w 31 17 = 0 then .ok (.selGo (fld 5 w 12))
    else .error .unassigned
  | 0xB9 => 
    if bits w 11 8 = 0 ∧ bits w 31 17 = 0 then .ok (.selMerge (fld 5 w 12))
    else .error .unassigned
  | 0xBB => 
    if bits w 11 8 = 1 ∧ bits w 21 17 = 0 ∧ bits w 31 27 = 0 then .ok (.tileQuery (fld 5 w 12) (fld 5 w 22))
    else if bits w 11 8 = 2 ∧ bits w 21 17 = 0 ∧ bits w 31 27 = 0 then .ok (.tilePrefetch (fld 5 w 12) (fld 5 w 22))
    else if bits w 11 8 = 3 ∧ bits w 21 17 = 0 ∧ bits w 31 27 = 0 then .ok (.tileDrainlog (fld 5 w 12) (fld 5 w 22))
    else if bits w 11 8 = 0 ∧ bits w 21 17 = 0 ∧ bits w 31 28 = 0 then .ok (.tilePin (fld 5 w 12) (fld 5 w 22) (fld 1 w 27))
    else .error .unassigned
  | 0xBD => 
    if bits w 11 8 = 0 then .ok (.crlPost (fld 5 w 12) (fld 5 w 17) (fld 5 w 22) (fld 5 w 27))
    else .error .unassigned
  | 0xC1 => 
    if bits w 9 8 = 0 then .ok (.mma (fld 9 w 10) (fld 3 w 19) (fld 5 w 22) (fld 5 w 27))
    else .error .unassigned
  | 0xC3 => 
    if bits w 9 8 = 0 then .ok (.dmma (fld 9 w 10) (fld 3 w 19) (fld 5 w 22) (fld 5 w 27))
    else .error .unassigned
  | 0xC5 => 
    if bits w 9 8 = 0 then .ok (.mmaqM (fld 9 w 10) (fld 3 w 19) (fld 5 w 22) (fld 5 w 27))
    else if bits w 9 8 = 1 then .ok (.mmaqD (fld 9 w 10) (fld 3 w 19) (fld 5 w 22) (fld 5 w 27))
    else .error .unassigned
  | 0xC7 => 
    if bits w 31 8 = 0 then .ok (.mfen)
    else .error .unassigned
  | 0xC9 => 
    if bits w 21 8 = 0 ∧ bits w 31 27 = 0 then .ok (.mcommit (fld 5 w 22))
    else .error .unassigned
  | 0xCB => 
    if bits w 11 8 = 0 ∧ bits w 31 17 = 0 then .ok (.mwait (fld 5 w 12))
    else .error .unassigned
  | 0xCD => 
    if bits w 9 8 = 2 ∧ bits w 31 27 = 0 then .ok (.mdrainFolio (fld 9 w 10) (fld 3 w 19) (fld 5 w 22))
    else if bits w 9 8 = 0 then .ok (.mdrainRows (fld 9 w 10) (fld 3 w 19) (fld 5 w 22) (fld 5 w 27))
    else if bits w 9 8 = 1 then .ok (.mdrainAdd (fld 9 w 10) (fld 3 w 19) (fld 5 w 22) (fld 5 w 27))
    else .error .unassigned
  | 0xCF => 
    if bits w 21 8 = 3 ∧ bits w 31 27 = 0 then .ok (.maccGov (fld 5 w 22))
    else if bits w 9 8 = 0 ∧ bits w 31 22 = 0 then .ok (.maccZero (fld 9 w 10) (fld 3 w 19))
    else if bits w 9 8 = 2 ∧ bits w 31 27 = 0 then .ok (.maccTree (fld 9 w 10) (fld 3 w 19) (fld 5 w 22))
    else if bits w 9 8 = 1 then .ok (.maccLoad (fld 9 w 10) (fld 3 w 19) (fld 5 w 22) (fld 5 w 27))
    else .error .unassigned
  | 0xD1 => .ok (.bra (fld 24 w 8))
  | 0xD3 => 
    if bits w 8 8 = 0 then .ok (.brz (fld 5 w 9) (fld 18 w 14))
    else if bits w 8 8 = 1 then .ok (.brnz (fld 5 w 9) (fld 18 w 14))
    else .error .unassigned
  | 0xD5 => .ok (.split (fld 6 w 8) (fld 18 w 14))
  | 0xD7 => 
    if bits w 31 8 = 0 then .ok (.rcv)
    else .error .unassigned
  | 0xD9 => .ok (.kpush (fld 24 w 8))
  | 0xDB => 
    if bits w 16 8 = 1 ∧ bits w 31 22 = 0 then .ok (.ret (fld 5 w 17))
    else if bits w 16 8 = 2 ∧ bits w 31 22 = 0 then .ok (.jmpr (fld 5 w 17))
    else if bits w 11 8 = 0 ∧ bits w 31 22 = 0 then .ok (.call (fld 5 w 12) (fld 5 w 17))
    else .error .unassigned
  | 0xDD => 
    if bits w 31 8 = 0 then .ok (.exit)
    else if bits w 31 8 = 1 then .ok (.yield)
    else if bits w 31 8 = 2 then .ok (.nop)
    else if bits w 31 8 = 3 then .ok (.bkpt)
    else .error .unassigned
  | 0xDF => 
    if bits w 11 8 = 0 ∧ bits w 31 27 = 0 then .ok (.saluAdd (fld 5 w 12) (fld 5 w 17) (fld 5 w 22))
    else if bits w 11 8 = 1 ∧ bits w 31 27 = 0 then .ok (.saluSub (fld 5 w 12) (fld 5 w 17) (fld 5 w 22))
    else if bits w 11 8 = 2 ∧ bits w 31 27 = 0 then .ok (.saluMul (fld 5 w 12) (fld 5 w 17) (fld 5 w 22))
    else if bits w 11 8 = 3 ∧ bits w 31 27 = 0 then .ok (.saluMulhu (fld 5 w 12) (fld 5 w 17) (fld 5 w 22))
    else if bits w 11 8 = 4 ∧ bits w 31 27 = 0 then .ok (.saluAnd (fld 5 w 12) (fld 5 w 17) (fld 5 w 22))
    else if bits w 11 8 = 5 ∧ bits w 31 27 = 0 then .ok (.saluOr (fld 5 w 12) (fld 5 w 17) (fld 5 w 22))
    else if bits w 11 8 = 6 ∧ bits w 31 27 = 0 then .ok (.saluXor (fld 5 w 12) (fld 5 w 17) (fld 5 w 22))
    else if bits w 11 8 = 7 ∧ bits w 31 27 = 0 then .ok (.saluShl (fld 5 w 12) (fld 5 w 17) (fld 5 w 22))
    else if bits w 11 8 = 8 ∧ bits w 31 27 = 0 then .ok (.saluShr (fld 5 w 12) (fld 5 w 17) (fld 5 w 22))
    else if bits w 11 8 = 9 ∧ bits w 31 27 = 0 then .ok (.saluSra (fld 5 w 12) (fld 5 w 17) (fld 5 w 22))
    else if bits w 11 8 = 10 ∧ bits w 31 27 = 0 then .ok (.saluSlt (fld 5 w 12) (fld 5 w 17) (fld 5 w 22))
    else if bits w 11 8 = 11 ∧ bits w 31 27 = 0 then .ok (.saluSltu (fld 5 w 12) (fld 5 w 17) (fld 5 w 22))
    else if bits w 11 8 = 12 ∧ bits w 31 27 = 0 then .ok (.saluMin (fld 5 w 12) (fld 5 w 17) (fld 5 w 22))
    else if bits w 11 8 = 13 ∧ bits w 31 27 = 0 then .ok (.saluMax (fld 5 w 12) (fld 5 w 17) (fld 5 w 22))
    else if bits w 11 8 = 14 ∧ bits w 31 27 = 0 then .ok (.saluMinu (fld 5 w 12) (fld 5 w 17) (fld 5 w 22))
    else if bits w 11 8 = 15 ∧ bits w 31 27 = 0 then .ok (.saluMaxu (fld 5 w 12) (fld 5 w 17) (fld 5 w 22))
    else .error .unassigned
  | 0xE1 => 
    if bits w 11 8 = 4 ∧ bits w 31 28 = 0 then .ok (.saluiShl (fld 5 w 12) (fld 5 w 17) (fld 6 w 22))
    else if bits w 11 8 = 5 ∧ bits w 31 28 = 0 then .ok (.saluiShr (fld 5 w 12) (fld 5 w 17) (fld 6 w 22))
    else if bits w 11 8 = 6 ∧ bits w 31 28 = 0 then .ok (.saluiSra (fld 5 w 12) (fld 5 w 17) (fld 6 w 22))
    else if bits w 11 8 = 0 then .ok (.saluiAdd (fld 5 w 12) (fld 5 w 17) (fld 10 w 22))
    else if bits w 11 8 = 1 then .ok (.saluiAnd (fld 5 w 12) (fld 5 w 17) (fld 10 w 22))
    else if bits w 11 8 = 2 then .ok (.saluiOr (fld 5 w 12) (fld 5 w 17) (fld 10 w 22))
    else if bits w 11 8 = 3 then .ok (.saluiXor (fld 5 w 12) (fld 5 w 17) (fld 10 w 22))
    else if bits w 11 8 = 7 then .ok (.saluiSlt (fld 5 w 12) (fld 5 w 17) (fld 10 w 22))
    else if bits w 11 8 = 8 then .ok (.saluiSltu (fld 5 w 12) (fld 5 w 17) (fld 10 w 22))
    else if bits w 11 8 = 9 then .ok (.saluiShor (fld 5 w 12) (fld 5 w 17) (fld 10 w 22))
    else .error .unassigned
  | 0xE3 => 
    if bits w 11 8 = 9 ∧ bits w 31 22 = 0 then .ok (.sfpuCvtif (fld 5 w 12) (fld 5 w 17))
    else if bits w 11 8 = 10 ∧ bits w 31 22 = 0 then .ok (.sfpuCvtfi (fld 5 w 12) (fld 5 w 17))
    else if bits w 11 8 = 0 ∧ bits w 31 27 = 0 then .ok (.sfpuAdd (fld 5 w 12) (fld 5 w 17) (fld 5 w 22))
    else if bits w 11 8 = 1 ∧ bits w 31 27 = 0 then .ok (.sfpuSub (fld 5 w 12) (fld 5 w 17) (fld 5 w 22))
    else if bits w 11 8 = 2 ∧ bits w 31 27 = 0 then .ok (.sfpuMul (fld 5 w 12) (fld 5 w 17) (fld 5 w 22))
    else if bits w 11 8 = 3 ∧ bits w 31 27 = 0 then .ok (.sfpuDiv (fld 5 w 12) (fld 5 w 17) (fld 5 w 22))
    else if bits w 11 8 = 4 ∧ bits w 31 27 = 0 then .ok (.sfpuMin (fld 5 w 12) (fld 5 w 17) (fld 5 w 22))
    else if bits w 11 8 = 5 ∧ bits w 31 27 = 0 then .ok (.sfpuMax (fld 5 w 12) (fld 5 w 17) (fld 5 w 22))
    else if bits w 11 8 = 6 ∧ bits w 31 27 = 0 then .ok (.sfpuSeq (fld 5 w 12) (fld 5 w 17) (fld 5 w 22))
    else if bits w 11 8 = 7 ∧ bits w 31 27 = 0 then .ok (.sfpuSlt (fld 5 w 12) (fld 5 w 17) (fld 5 w 22))
    else if bits w 11 8 = 8 ∧ bits w 31 27 = 0 then .ok (.sfpuSle (fld 5 w 12) (fld 5 w 17) (fld 5 w 22))
    else .error .unassigned
  | 0xE5 => 
    if bits w 11 8 = 0 then .ok (.sldD (fld 5 w 12) (fld 5 w 17) (fld 10 w 22))
    else if bits w 11 8 = 1 then .ok (.sldW (fld 5 w 12) (fld 5 w 17) (fld 10 w 22))
    else if bits w 11 8 = 2 then .ok (.sldWs (fld 5 w 12) (fld 5 w 17) (fld 10 w 22))
    else .error .unassigned
  | 0xE7 => 
    if bits w 11 8 = 0 then .ok (.sstD (fld 5 w 12) (fld 5 w 17) (fld 10 w 22))
    else if bits w 11 8 = 1 then .ok (.sstW (fld 5 w 12) (fld 5 w 17) (fld 10 w 22))
    else .error .unassigned
  | 0xE9 => 
    if bits w 16 8 = 2 ∧ bits w 31 22 = 0 then .ok (.tsrLsw (fld 5 w 17))
    else if bits w 11 8 = 3 ∧ bits w 31 17 = 0 then .ok (.tsrLsr (fld 5 w 12))
    else if bits w 11 8 = 4 ∧ bits w 31 17 = 0 then .ok (.tsrOvr (fld 5 w 12))
    else if bits w 11 8 = 6 ∧ bits w 31 17 = 0 then .ok (.tsrFlr (fld 5 w 12))
    else if bits w 11 8 = 0 ∧ bits w 16 15 = 0 ∧ bits w 31 22 = 0 then .ok (.tsrSet (fld 3 w 12) (fld 5 w 17))
    else if bits w 11 8 = 1 ∧ bits w 31 20 = 0 then .ok (.tsrGet (fld 5 w 12) (fld 3 w 17))
    else if bits w 11 8 = 5 ∧ bits w 31 22 = 0 then .ok (.tsrOvc (fld 5 w 12) (fld 5 w 17))
    else if bits w 11 8 = 7 ∧ bits w 31 22 = 0 then .ok (.tsrFlc (fld 5 w 12) (fld 5 w 17))
    else .error .unassigned
  | 0xEB => 
    if bits w 11 8 = 0 ∧ bits w 21 17 = 0 ∧ bits w 31 29 = 0 then .ok (.xps (fld 5 w 12) (fld 5 w 22) (fld 2 w 27))
    else .error .unassigned
  | 0xED => 
    if bits w 9 8 = 0 ∧ bits w 15 15 = 0 ∧ bits w 31 24 = 0 then .ok (.voteAny (fld 5 w 10) (fld 6 w 16) (fld 2 w 22))
    else if bits w 9 8 = 0 ∧ bits w 15 15 = 0 ∧ bits w 31 24 = 1 then .ok (.voteAll (fld 5 w 10) (fld 6 w 16) (fld 2 w 22))
    else if bits w 9 8 = 0 ∧ bits w 15 15 = 0 ∧ bits w 31 24 = 2 then .ok (.voteCount (fld 5 w 10) (fld 6 w 16) (fld 2 w 22))
    else if bits w 9 8 = 0 ∧ bits w 15 15 = 0 ∧ bits w 31 24 = 3 then .ok (.voteFirst (fld 5 w 10) (fld 6 w 16) (fld 2 w 22))
    else if bits w 9 8 = 0 ∧ bits w 15 15 = 0 ∧ bits w 31 28 = 2 then .ok (.voteBallot (fld 5 w 10) (fld 6 w 16) (fld 2 w 22) (fld 4 w 24))
    else .error .unassigned
  | 0xEF => 
    if bits w 9 8 = 0 ∧ bits w 31 21 = 0 then .ok (.sbcastD (fld 6 w 10) (fld 5 w 16))
    else if bits w 9 8 = 0 ∧ bits w 31 21 = 8 then .ok (.sbcastM (fld 6 w 10) (fld 5 w 16))
    else .error .unassigned
  | 0xF1 => 
    if bits w 11 8 = 2 ∧ bits w 21 17 = 0 then .ok (.ctrLoad (fld 5 w 12) (fld 5 w 22) (fld 5 w 27))
    else if bits w 11 8 = 0 then .ok (.ctrAdd (fld 5 w 12) (fld 5 w 17) (fld 5 w 22) (fld 5 w 27))
    else if bits w 11 8 = 1 then .ok (.ctrWait (fld 5 w 12) (fld 5 w 17) (fld 5 w 22) (fld 5 w 27))
    else .error .unassigned
  | 0xF3 => 
    if bits w 11 8 = 0 ∧ bits w 26 17 = 0 ∧ bits w 31 31 = 0 then .ok (.bar (fld 5 w 12) (fld 4 w 27))
    else .error .unassigned
  | 0xF5 => 
    if bits w 16 8 = 4 ∧ bits w 31 22 = 0 then .ok (.sysCancel (fld 5 w 17))
    else if bits w 11 8 = 0 ∧ bits w 31 22 = 0 then .ok (.sysRd (fld 5 w 12) (fld 5 w 17))
    else if bits w 11 8 = 1 ∧ bits w 31 22 = 0 then .ok (.sysWr (fld 5 w 12) (fld 5 w 17))
    else if bits w 11 8 = 2 ∧ bits w 31 22 = 0 then .ok (.sysHrd (fld 5 w 12) (fld 5 w 17))
    else if bits w 11 8 = 3 ∧ bits w 31 22 = 0 then .ok (.sysHwr (fld 5 w 12) (fld 5 w 17))
    else .error .unassigned
  | 0xF7 => 
    if bits w 31 8 = 1 then .ok (.svcVersion)
    else if bits w 31 8 = 2 then .ok (.rte)
    else if bits w 31 8 = 16385 then .ok (.svcPoolmap)
    else if bits w 31 8 = 32769 then .ok (.svcPoolcount)
    else if bits w 31 8 = 49153 then .ok (.svcPrefetch)
    else if bits w 21 8 = 0 ∧ bits w 31 31 = 0 then .ok (.trap (fld 9 w 22))
    else if bits w 21 8 = 1 ∧ bits w 31 31 = 0 then .ok (.svcUnknown (fld 9 w 22))
    else .error .unassigned
  | 0xF9 => 
    if bits w 11 8 = 0 ∧ bits w 31 21 = 0 then .ok (.kregRd (fld 5 w 12) (fld 4 w 17))
    else if bits w 11 8 = 1 ∧ bits w 16 16 = 0 ∧ bits w 31 22 = 0 then .ok (.kregWr (fld 4 w 12) (fld 5 w 17))
    else if bits w 11 8 = 2 ∧ bits w 21 21 = 0 ∧ bits w 31 27 = 0 then .ok (.kregAdd (fld 5 w 12) (fld 4 w 17) (fld 5 w 22))
    else .error .unassigned
  | 0xFF => 
    if bits w 31 31 = 0 then .ok (.clause (fld 12 w 8) (fld 4 w 20) (fld 4 w 24) (fld 2 w 28) (fld 1 w 30))
    else .error .unassigned
  | _ => .error .reservedMajor

/-- The 16-bit form (R64, R65): bit 15 must be 0 and [4:1] selects the operation. -/
def decode16Raw (w : Nat) : Except Reject Instr :=
  if bits w 15 15 = 1 then .error .shortBit15
  else match bits w 4 1 with
  | 0 => .ok (.mov (fld 5 w 5) (fld 5 w 10))
  | 1 => .ok (.iadd16 (fld 5 w 5) (fld 5 w 10))
  | 2 => .ok (.isub16 (fld 5 w 5) (fld 5 w 10))
  | 3 => .ok (.imul16 (fld 5 w 5) (fld 5 w 10))
  | 4 => .ok (.iand16 (fld 5 w 5) (fld 5 w 10))
  | 5 => .ok (.ior16 (fld 5 w 5) (fld 5 w 10))
  | 6 => .ok (.ixor16 (fld 5 w 5) (fld 5 w 10))
  | 7 => .ok (.ishl16 (fld 5 w 5) (fld 5 w 10))
  | 8 => .ok (.ishr16 (fld 5 w 5) (fld 5 w 10))
  | 9 => .ok (.fadd16 (fld 5 w 5) (fld 5 w 10))
  | 10 => .ok (.fsub16 (fld 5 w 5) (fld 5 w 10))
  | 11 => .ok (.fmul16 (fld 5 w 5) (fld 5 w 10))
  | 12 => .ok (.fmax16 (fld 5 w 5) (fld 5 w 10))
  | 13 => .ok (.fmin16 (fld 5 w 5) (fld 5 w 10))
  | 14 => .ok (.imax16 (fld 5 w 5) (fld 5 w 10))
  | _ => .ok (.imin16 (fld 5 w 5) (fld 5 w 10))

/-- The Carillon's microinstruction words (R343, R344): OP in [31:26], unused fields 0. -/
def decodeCarillonRaw (w : Nat) : Except Reject Instr :=
  match bits w 31 26 with
  | 0x00 => if bits w 25 0 = 0 then .ok (.halt) else .error .res0Field
  | 0x01 => if bits w 21 16 = 0 then .ok (.cmovh (fld 16 w 0) (fld 4 w 22)) else .error .res0Field
  | 0x02 => if bits w 21 16 = 0 then .ok (.corl (fld 16 w 0) (fld 4 w 22)) else .error .res0Field
  | 0x03 => if bits w 13 0 = 0 then .ok (.carillonFadd (fld 4 w 14) (fld 4 w 18) (fld 4 w 22)) else .error .res0Field
  | 0x04 => if bits w 13 0 = 0 then .ok (.carillonFsub (fld 4 w 14) (fld 4 w 18) (fld 4 w 22)) else .error .res0Field
  | 0x05 => if bits w 13 0 = 0 then .ok (.carillonFmul (fld 4 w 14) (fld 4 w 18) (fld 4 w 22)) else .error .res0Field
  | 0x06 => if bits w 13 0 = 0 then .ok (.carillonFdiv (fld 4 w 14) (fld 4 w 18) (fld 4 w 22)) else .error .res0Field
  | 0x07 => if bits w 17 1 = 0 then .ok (.cget (fld 1 w 0) (fld 4 w 18) (fld 4 w 22)) else .error .res0Field
  | 0x08 => if bits w 17 0 = 0 ∧ bits w 25 22 = 0 then .ok (.cscale (fld 4 w 18)) else .error .res0Field
  | 0x09 => if bits w 17 10 = 0 ∧ bits w 25 22 = 0 then .ok (.cpen (fld 10 w 0) (fld 4 w 18)) else .error .res0Field
  | 0x0A => if bits w 25 10 = 0 then .ok (.ctopk (fld 10 w 0)) else .error .res0Field
  | 0x0B => if bits w 17 0 = 0 ∧ bits w 25 22 = 0 then .ok (.ctopp (fld 4 w 18)) else .error .res0Field
  | 0x0C => if bits w 21 0 = 0 then .ok (.cexp (fld 4 w 22)) else .error .res0Field
  | 0x0D => if bits w 21 0 = 0 then .ok (.cnorm (fld 4 w 22)) else .error .res0Field
  | 0x0E => if bits w 25 0 = 0 then .ok (.cpsum) else .error .res0Field
  | 0x0F => if bits w 10 3 = 0 ∧ bits w 17 14 = 0 ∧ bits w 25 22 = 0 then .ok (.nset (fld 3 w 0) (fld 3 w 11) (fld 4 w 18)) else .error .res0Field
  | 0x10 => if bits w 10 0 = 0 ∧ bits w 21 14 = 0 then .ok (.rngu (fld 3 w 11) (fld 4 w 22)) else .error .res0Field
  | 0x11 => if bits w 10 0 = 0 ∧ bits w 21 14 = 0 then .ok (.cdraw (fld 3 w 11) (fld 4 w 22)) else .error .res0Field
  | 0x12 => if bits w 10 0 = 0 then .ok (.cacc (fld 3 w 11) (fld 4 w 14) (fld 4 w 18) (fld 4 w 22)) else .error .res0Field
  | 0x13 => if bits w 13 10 = 0 ∧ bits w 17 16 = 0 ∧ bits w 25 22 = 0 then .ok (.br (fld 10 w 0) (fld 2 w 14) (fld 4 w 18)) else .error .res0Field
  | 0x14 => if bits w 25 10 = 0 then .ok (.waitc (fld 10 w 0)) else .error .res0Field
  | 0x15 => if bits w 17 4 = 0 ∧ bits w 25 22 = 0 then .ok (.emit (fld 3 w 0) (fld 1 w 3) (fld 4 w 18)) else .error .res0Field
  | _ => .error .carillonOp

/-- The word of an encoded instruction (R64, R67, R343), as a number with bit 0 least significant; 0 for a row that has no
encoding. `Instr.form` says which of the three forms it is. -/
def encode : Instr → Nat
  | .mov d b => 0x0 + d.toNat * 0x20 + b.toNat * 0x400
  | .iadd16 d b => 0x2 + d.toNat * 0x20 + b.toNat * 0x400
  | .isub16 d b => 0x4 + d.toNat * 0x20 + b.toNat * 0x400
  | .imul16 d b => 0x6 + d.toNat * 0x20 + b.toNat * 0x400
  | .iand16 d b => 0x8 + d.toNat * 0x20 + b.toNat * 0x400
  | .ior16 d b => 0xa + d.toNat * 0x20 + b.toNat * 0x400
  | .ixor16 d b => 0xc + d.toNat * 0x20 + b.toNat * 0x400
  | .ishl16 d b => 0xe + d.toNat * 0x20 + b.toNat * 0x400
  | .ishr16 d b => 0x10 + d.toNat * 0x20 + b.toNat * 0x400
  | .fadd16 d b => 0x12 + d.toNat * 0x20 + b.toNat * 0x400
  | .fsub16 d b => 0x14 + d.toNat * 0x20 + b.toNat * 0x400
  | .fmul16 d b => 0x16 + d.toNat * 0x20 + b.toNat * 0x400
  | .fmax16 d b => 0x18 + d.toNat * 0x20 + b.toNat * 0x400
  | .fmin16 d b => 0x1a + d.toNat * 0x20 + b.toNat * 0x400
  | .imax16 d b => 0x1c + d.toNat * 0x20 + b.toNat * 0x400
  | .imin16 d b => 0x1e + d.toNat * 0x20 + b.toNat * 0x400
  | .iadd w d a p b q => 0x1 + w.toNat * 0x100 + d.toNat * 0x400 + a.toNat * 0x10000 + p.toNat * 0x400000 + b.toNat * 0x1000000 + q.toNat * 0x40000000
  | .isub w d a p b q => 0x3 + w.toNat * 0x100 + d.toNat * 0x400 + a.toNat * 0x10000 + p.toNat * 0x400000 + b.toNat * 0x1000000 + q.toNat * 0x40000000
  | .imul w d a p b q => 0x5 + w.toNat * 0x100 + d.toNat * 0x400 + a.toNat * 0x10000 + p.toNat * 0x400000 + b.toNat * 0x1000000 + q.toNat * 0x40000000
  | .imulh w d a p b q => 0x7 + w.toNat * 0x100 + d.toNat * 0x400 + a.toNat * 0x10000 + p.toNat * 0x400000 + b.toNat * 0x1000000 + q.toNat * 0x40000000
  | .imulhu w d a p b q => 0x9 + w.toNat * 0x100 + d.toNat * 0x400 + a.toNat * 0x10000 + p.toNat * 0x400000 + b.toNat * 0x1000000 + q.toNat * 0x40000000
  | .imad w d a p b q => 0xb + w.toNat * 0x100 + d.toNat * 0x400 + a.toNat * 0x10000 + p.toNat * 0x400000 + b.toNat * 0x1000000 + q.toNat * 0x40000000
  | .iand w d a p b q => 0xd + w.toNat * 0x100 + d.toNat * 0x400 + a.toNat * 0x10000 + p.toNat * 0x400000 + b.toNat * 0x1000000 + q.toNat * 0x40000000
  | .ior w d a p b q => 0xf + w.toNat * 0x100 + d.toNat * 0x400 + a.toNat * 0x10000 + p.toNat * 0x400000 + b.toNat * 0x1000000 + q.toNat * 0x40000000
  | .ixor w d a p b q => 0x11 + w.toNat * 0x100 + d.toNat * 0x400 + a.toNat * 0x10000 + p.toNat * 0x400000 + b.toNat * 0x1000000 + q.toNat * 0x40000000
  | .iandn w d a p b q => 0x13 + w.toNat * 0x100 + d.toNat * 0x400 + a.toNat * 0x10000 + p.toNat * 0x400000 + b.toNat * 0x1000000 + q.toNat * 0x40000000
  | .ishl w d a p b q => 0x15 + w.toNat * 0x100 + d.toNat * 0x400 + a.toNat * 0x10000 + p.toNat * 0x400000 + b.toNat * 0x1000000 + q.toNat * 0x40000000
  | .ishr w d a p b q => 0x17 + w.toNat * 0x100 + d.toNat * 0x400 + a.toNat * 0x10000 + p.toNat * 0x400000 + b.toNat * 0x1000000 + q.toNat * 0x40000000
  | .isra w d a p b q => 0x19 + w.toNat * 0x100 + d.toNat * 0x400 + a.toNat * 0x10000 + p.toNat * 0x400000 + b.toNat * 0x1000000 + q.toNat * 0x40000000
  | .imin w d a p b q => 0x1b + w.toNat * 0x100 + d.toNat * 0x400 + a.toNat * 0x10000 + p.toNat * 0x400000 + b.toNat * 0x1000000 + q.toNat * 0x40000000
  | .imax w d a p b q => 0x1d + w.toNat * 0x100 + d.toNat * 0x400 + a.toNat * 0x10000 + p.toNat * 0x400000 + b.toNat * 0x1000000 + q.toNat * 0x40000000
  | .umin w d a p b q => 0x1f + w.toNat * 0x100 + d.toNat * 0x400 + a.toNat * 0x10000 + p.toNat * 0x400000 + b.toNat * 0x1000000 + q.toNat * 0x40000000
  | .umax w d a p b q => 0x21 + w.toNat * 0x100 + d.toNat * 0x400 + a.toNat * 0x10000 + p.toNat * 0x400000 + b.toNat * 0x1000000 + q.toNat * 0x40000000
  | .iseq w d a p b q => 0x23 + w.toNat * 0x100 + d.toNat * 0x400 + a.toNat * 0x10000 + p.toNat * 0x400000 + b.toNat * 0x1000000 + q.toNat * 0x40000000
  | .islt w d a p b q => 0x25 + w.toNat * 0x100 + d.toNat * 0x400 + a.toNat * 0x10000 + p.toNat * 0x400000 + b.toNat * 0x1000000 + q.toNat * 0x40000000
  | .isltu w d a p b q => 0x27 + w.toNat * 0x100 + d.toNat * 0x400 + a.toNat * 0x10000 + p.toNat * 0x400000 + b.toNat * 0x1000000 + q.toNat * 0x40000000
  | .iadd64 w d a p b q => 0x29 + w.toNat * 0x100 + d.toNat * 0x400 + a.toNat * 0x10000 + p.toNat * 0x400000 + b.toNat * 0x1000000 + q.toNat * 0x40000000
  | .isub64 w d a p b q => 0x2b + w.toNat * 0x100 + d.toNat * 0x400 + a.toNat * 0x10000 + p.toNat * 0x400000 + b.toNat * 0x1000000 + q.toNat * 0x40000000
  | .addi w d a p i => 0x2d + w.toNat * 0x100 + d.toNat * 0x400 + a.toNat * 0x10000 + p.toNat * 0x400000 + i.toNat * 0x1000000
  | .shli w d a p i => 0x2f + w.toNat * 0x100 + d.toNat * 0x400 + a.toNat * 0x10000 + p.toNat * 0x400000 + i.toNat * 0x1000000
  | .shri w d a p i => 0x31 + w.toNat * 0x100 + d.toNat * 0x400 + a.toNat * 0x10000 + p.toNat * 0x400000 + i.toNat * 0x1000000
  | .srai w d a p i => 0x33 + w.toNat * 0x100 + d.toNat * 0x400 + a.toNat * 0x10000 + p.toNat * 0x400000 + i.toNat * 0x1000000
  | .andi w d a p i => 0x35 + w.toNat * 0x100 + d.toNat * 0x400 + a.toNat * 0x10000 + p.toNat * 0x400000 + i.toNat * 0x1000000
  | .fadd w d a p b q => 0x37 + w.toNat * 0x100 + d.toNat * 0x400 + a.toNat * 0x10000 + p.toNat * 0x400000 + b.toNat * 0x1000000 + q.toNat * 0x40000000
  | .fsub w d a p b q => 0x39 + w.toNat * 0x100 + d.toNat * 0x400 + a.toNat * 0x10000 + p.toNat * 0x400000 + b.toNat * 0x1000000 + q.toNat * 0x40000000
  | .fmul w d a p b q => 0x3b + w.toNat * 0x100 + d.toNat * 0x400 + a.toNat * 0x10000 + p.toNat * 0x400000 + b.toNat * 0x1000000 + q.toNat * 0x40000000
  | .fma w d a p b q => 0x3d + w.toNat * 0x100 + d.toNat * 0x400 + a.toNat * 0x10000 + p.toNat * 0x400000 + b.toNat * 0x1000000 + q.toNat * 0x40000000
  | .fmin w d a p b q => 0x3f + w.toNat * 0x100 + d.toNat * 0x400 + a.toNat * 0x10000 + p.toNat * 0x400000 + b.toNat * 0x1000000 + q.toNat * 0x40000000
  | .fmax w d a p b q => 0x41 + w.toNat * 0x100 + d.toNat * 0x400 + a.toNat * 0x10000 + p.toNat * 0x400000 + b.toNat * 0x1000000 + q.toNat * 0x40000000
  | .fseq w d a p b q => 0x43 + w.toNat * 0x100 + d.toNat * 0x400 + a.toNat * 0x10000 + p.toNat * 0x400000 + b.toNat * 0x1000000 + q.toNat * 0x40000000
  | .fslt w d a p b q => 0x45 + w.toNat * 0x100 + d.toNat * 0x400 + a.toNat * 0x10000 + p.toNat * 0x400000 + b.toNat * 0x1000000 + q.toNat * 0x40000000
  | .fsle w d a p b q => 0x47 + w.toNat * 0x100 + d.toNat * 0x400 + a.toNat * 0x10000 + p.toNat * 0x400000 + b.toNat * 0x1000000 + q.toNat * 0x40000000
  | .sel w d a p b q => 0x49 + w.toNat * 0x100 + d.toNat * 0x400 + a.toNat * 0x10000 + p.toNat * 0x400000 + b.toNat * 0x1000000 + q.toNat * 0x40000000
  | .rcp w d a p => 0x4b + w.toNat * 0x100 + d.toNat * 0x400 + a.toNat * 0x10000 + p.toNat * 0x400000
  | .rsq w d a p => 0x100004b + w.toNat * 0x100 + d.toNat * 0x400 + a.toNat * 0x10000 + p.toNat * 0x400000
  | .sqrt w d a p => 0x200004b + w.toNat * 0x100 + d.toNat * 0x400 + a.toNat * 0x10000 + p.toNat * 0x400000
  | .exp2 w d a p => 0x300004b + w.toNat * 0x100 + d.toNat * 0x400 + a.toNat * 0x10000 + p.toNat * 0x400000
  | .log2 w d a p => 0x400004b + w.toNat * 0x100 + d.toNat * 0x400 + a.toNat * 0x10000 + p.toNat * 0x400000
  | .sin2pi w d a p => 0x500004b + w.toNat * 0x100 + d.toNat * 0x400 + a.toNat * 0x10000 + p.toNat * 0x400000
  | .cos2pi w d a p => 0x600004b + w.toNat * 0x100 + d.toNat * 0x400 + a.toNat * 0x10000 + p.toNat * 0x400000
  | .tanh w d a p => 0x700004b + w.toNat * 0x100 + d.toNat * 0x400 + a.toNat * 0x10000 + p.toNat * 0x400000
  | .fabs w d a p => 0x800004b + w.toNat * 0x100 + d.toNat * 0x400 + a.toNat * 0x10000 + p.toNat * 0x400000
  | .fneg w d a p => 0x900004b + w.toNat * 0x100 + d.toNat * 0x400 + a.toNat * 0x10000 + p.toNat * 0x400000
  | .cvtif w d a p => 0x1000004b + w.toNat * 0x100 + d.toNat * 0x400 + a.toNat * 0x10000 + p.toNat * 0x400000
  | .cvtuf w d a p => 0x1100004b + w.toNat * 0x100 + d.toNat * 0x400 + a.toNat * 0x10000 + p.toNat * 0x400000
  | .cvtfi w d a p => 0x1200004b + w.toNat * 0x100 + d.toNat * 0x400 + a.toNat * 0x10000 + p.toNat * 0x400000
  | .cvtfu w d a p => 0x1300004b + w.toNat * 0x100 + d.toNat * 0x400 + a.toNat * 0x10000 + p.toNat * 0x400000
  | .cvtfir w d a p => 0x1400004b + w.toNat * 0x100 + d.toNat * 0x400 + a.toNat * 0x10000 + p.toNat * 0x400000
  | .frint w d a p => 0x1500004b + w.toNat * 0x100 + d.toNat * 0x400 + a.toNat * 0x10000 + p.toNat * 0x400000
  | .ffloor w d a p => 0x1600004b + w.toNat * 0x100 + d.toNat * 0x400 + a.toNat * 0x10000 + p.toNat * 0x400000
  | .ftrunc w d a p => 0x1700004b + w.toNat * 0x100 + d.toNat * 0x400 + a.toNat * 0x10000 + p.toNat * 0x400000
  | .clz w d a p => 0x1800004b + w.toNat * 0x100 + d.toNat * 0x400 + a.toNat * 0x10000 + p.toNat * 0x400000
  | .popc w d a p => 0x1900004b + w.toNat * 0x100 + d.toNat * 0x400 + a.toNat * 0x10000 + p.toNat * 0x400000
  | .brev w d a p => 0x1a00004b + w.toNat * 0x100 + d.toNat * 0x400 + a.toNat * 0x10000 + p.toNat * 0x400000
  | .rnd w d a p i => 0x4d + w.toNat * 0x100 + d.toNat * 0x400 + a.toNat * 0x10000 + p.toNat * 0x400000 + i.toNat * 0x1000000
  | .perm w d a p b q => 0x4f + w.toNat * 0x100 + d.toNat * 0x400 + a.toNat * 0x10000 + p.toNat * 0x400000 + b.toNat * 0x1000000 + q.toNat * 0x40000000
  | .xredIadd d a p => 0x51 + d.toNat * 0x400 + a.toNat * 0x10000 + p.toNat * 0x400000
  | .xredImin d a p => 0x1000051 + d.toNat * 0x400 + a.toNat * 0x10000 + p.toNat * 0x400000
  | .xredImax d a p => 0x2000051 + d.toNat * 0x400 + a.toNat * 0x10000 + p.toNat * 0x400000
  | .xredUmin d a p => 0x3000051 + d.toNat * 0x400 + a.toNat * 0x10000 + p.toNat * 0x400000
  | .xredUmax d a p => 0x4000051 + d.toNat * 0x400 + a.toNat * 0x10000 + p.toNat * 0x400000
  | .xredIand d a p => 0x5000051 + d.toNat * 0x400 + a.toNat * 0x10000 + p.toNat * 0x400000
  | .xredIor d a p => 0x6000051 + d.toNat * 0x400 + a.toNat * 0x10000 + p.toNat * 0x400000
  | .xredIxor d a p => 0x7000051 + d.toNat * 0x400 + a.toNat * 0x10000 + p.toNat * 0x400000
  | .xredFadd d a p => 0x8000051 + d.toNat * 0x400 + a.toNat * 0x10000 + p.toNat * 0x400000
  | .xredFmin d a p => 0x9000051 + d.toNat * 0x400 + a.toNat * 0x10000 + p.toNat * 0x400000
  | .xredFmax d a p => 0xa000051 + d.toNat * 0x400 + a.toNat * 0x10000 + p.toNat * 0x400000
  | .xredIscan d a p => 0x10000051 + d.toNat * 0x400 + a.toNat * 0x10000 + p.toNat * 0x400000
  | .xredIscanx d a p => 0x11000051 + d.toNat * 0x400 + a.toNat * 0x10000 + p.toNat * 0x400000
  | .xredFscan d a p => 0x12000051 + d.toNat * 0x400 + a.toNat * 0x10000 + p.toNat * 0x400000
  | .xredFscanx d a p => 0x13000051 + d.toNat * 0x400 + a.toNat * 0x10000 + p.toNat * 0x400000
  | .laneIndex d => 0x53 + d.toNat * 0x400
  | .laneDie d => 0x1000053 + d.toNat * 0x400
  | .laneGcore d => 0x2000053 + d.toNat * 0x400
  | .laneHome d a p => 0x3000053 + d.toNat * 0x400 + a.toNat * 0x10000 + p.toNat * 0x400000
  | .movi d i => 0x55 + d.toNat * 0x400 + i.toNat * 0x10000
  | .movhi d i => 0x57 + d.toNat * 0x400 + i.toNat * 0x10000
  | .dset w d a p b q => 0x61 + w.toNat * 0x100 + d.toNat * 0x400 + a.toNat * 0x10000 + p.toNat * 0x400000 + b.toNat * 0x1000000 + q.toNat * 0x40000000
  | .dmean w d a p => 0x63 + w.toNat * 0x100 + d.toNat * 0x400 + a.toNat * 0x10000 + p.toNat * 0x400000
  | .dvar w d a p => 0x65 + w.toNat * 0x100 + d.toNat * 0x400 + a.toNat * 0x10000 + p.toNat * 0x400000
  | .dvarU w d a p => 0x1000065 + w.toNat * 0x100 + d.toNat * 0x400 + a.toNat * 0x10000 + p.toNat * 0x400000
  | .dstd w d a p => 0x67 + w.toNat * 0x100 + d.toNat * 0x400 + a.toNat * 0x10000 + p.toNat * 0x400000
  | .dstdU w d a p => 0x1000067 + w.toNat * 0x100 + d.toNat * 0x400 + a.toNat * 0x10000 + p.toNat * 0x400000
  | .dscale w d a p b q => 0x69 + w.toNat * 0x100 + d.toNat * 0x400 + a.toNat * 0x10000 + p.toNat * 0x400000 + b.toNat * 0x1000000 + q.toNat * 0x40000000
  | .dtagNew w d a p => 0x6b + w.toNat * 0x100 + d.toNat * 0x400 + a.toNat * 0x10000 + p.toNat * 0x400000
  | .dtagRead d => 0x100006b + d.toNat * 0x400
  | .dtagReset => 0x200006b
  | .dfoldT w d a p => 0x6d + w.toNat * 0x100 + d.toNat * 0x400 + a.toNat * 0x10000 + p.toNat * 0x400000
  | .dfoldM w d a p => 0x100006d + w.toNat * 0x100 + d.toNat * 0x400 + a.toNat * 0x10000 + p.toNat * 0x400000
  | .dfoldL w d a p => 0x200006d + w.toNat * 0x100 + d.toNat * 0x400 + a.toNat * 0x10000 + p.toNat * 0x400000
  | .dcov w d a p b q => 0x6f + w.toNat * 0x100 + d.toNat * 0x400 + a.toNat * 0x10000 + p.toNat * 0x400000 + b.toNat * 0x1000000 + q.toNat * 0x40000000
  | .dtos w d a p => 0x71 + w.toNat * 0x100 + d.toNat * 0x400 + a.toNat * 0x10000 + p.toNat * 0x400000
  | .dtosL w d a p => 0x1000071 + w.toNat * 0x100 + d.toNat * 0x400 + a.toNat * 0x10000 + p.toNat * 0x400000
  | .stod w d a p b q => 0x73 + w.toNat * 0x100 + d.toNat * 0x400 + a.toNat * 0x10000 + p.toNat * 0x400000 + b.toNat * 0x1000000 + q.toNat * 0x40000000
  | .dclamp w d a p b q => 0x75 + w.toNat * 0x100 + d.toNat * 0x400 + a.toNat * 0x10000 + p.toNat * 0x400000 + b.toNat * 0x1000000 + q.toNat * 0x40000000
  | .dfuse w d a p b q => 0x77 + w.toNat * 0x100 + d.toNat * 0x400 + a.toNat * 0x10000 + p.toNat * 0x400000 + b.toNat * 0x1000000 + q.toNat * 0x40000000
  | .ldb w d a q o => 0x81 + w.toNat * 0x100 + d.toNat * 0x400 + a.toNat * 0x10000 + q.toNat * 0x400000 + o.toNat * 0x2000000
  | .ldh w d a q o => 0x83 + w.toNat * 0x100 + d.toNat * 0x400 + a.toNat * 0x10000 + q.toNat * 0x400000 + o.toNat * 0x2000000
  | .ldw w d a q o => 0x85 + w.toNat * 0x100 + d.toNat * 0x400 + a.toNat * 0x10000 + q.toNat * 0x400000 + o.toNat * 0x2000000
  | .ldd w d a q o => 0x87 + w.toNat * 0x100 + d.toNat * 0x400 + a.toNat * 0x10000 + q.toNat * 0x400000 + o.toNat * 0x2000000
  | .stb w d a q o => 0x89 + w.toNat * 0x100 + d.toNat * 0x400 + a.toNat * 0x10000 + q.toNat * 0x400000 + o.toNat * 0x2000000
  | .sth w d a q o => 0x8b + w.toNat * 0x100 + d.toNat * 0x400 + a.toNat * 0x10000 + q.toNat * 0x400000 + o.toNat * 0x2000000
  | .stw w d a q o => 0x8d + w.toNat * 0x100 + d.toNat * 0x400 + a.toNat * 0x10000 + q.toNat * 0x400000 + o.toNat * 0x2000000
  | .std w d a q o => 0x8f + w.toNat * 0x100 + d.toNat * 0x400 + a.toNat * 0x10000 + q.toNat * 0x400000 + o.toNat * 0x2000000
  | .astoIadd w d a o => 0x91 + w.toNat * 0x100 + d.toNat * 0x400 + a.toNat * 0x10000 + o.toNat * 0x2000000
  | .astoFadd w d a o => 0x400091 + w.toNat * 0x100 + d.toNat * 0x400 + a.toNat * 0x10000 + o.toNat * 0x2000000
  | .astoFaddR w d a o => 0x800091 + w.toNat * 0x100 + d.toNat * 0x400 + a.toNat * 0x10000 + o.toNat * 0x2000000
  | .astoImin w d a o => 0xc00091 + w.toNat * 0x100 + d.toNat * 0x400 + a.toNat * 0x10000 + o.toNat * 0x2000000
  | .astoImax w d a o => 0x1000091 + w.toNat * 0x100 + d.toNat * 0x400 + a.toNat * 0x10000 + o.toNat * 0x2000000
  | .astoFmin w d a o => 0x1400091 + w.toNat * 0x100 + d.toNat * 0x400 + a.toNat * 0x10000 + o.toNat * 0x2000000
  | .astoFmax w d a o => 0x1800091 + w.toNat * 0x100 + d.toNat * 0x400 + a.toNat * 0x10000 + o.toNat * 0x2000000
  | .astoIor w d a o => 0x1c00091 + w.toNat * 0x100 + d.toNat * 0x400 + a.toNat * 0x10000 + o.toNat * 0x2000000
  | .fence s k => 0x93 + s.toNat * 0x400000 + k.toNat * 0x2000000
  | .pref a l o => 0x95 + a.toNat * 0x10000 + l.toNat * 0x400000 + o.toNat * 0x2000000
  | .spill w d a o => 0x97 + w.toNat * 0x100 + d.toNat * 0x400 + a.toNat * 0x10000 + o.toNat * 0x2000000
  | .fill w d a o => 0x99 + w.toNat * 0x100 + d.toNat * 0x400 + a.toNat * 0x10000 + o.toNat * 0x2000000
  | .spillp w d a o => 0x9b + w.toNat * 0x100 + d.toNat * 0x400 + a.toNat * 0x10000 + o.toNat * 0x2000000
  | .fillp w d a o => 0x9d + w.toNat * 0x100 + d.toNat * 0x400 + a.toNat * 0x10000 + o.toNat * 0x2000000
  | .rngKey n a b => 0xa1 + n.toNat * 0x1000 + a.toNat * 0x20000 + b.toNat * 0x400000
  | .rngKeyLo d n => 0x1a1 + d.toNat * 0x1000 + n.toNat * 0x20000
  | .rngKeyHi d n => 0x2a1 + d.toNat * 0x1000 + n.toNat * 0x20000
  | .rngU w d a p n o => 0xa3 + w.toNat * 0x100 + d.toNat * 0x400 + a.toNat * 0x10000 + p.toNat * 0x400000 + n.toNat * 0x1000000 + o.toNat * 0x8000000
  | .rngG w d a p n o => 0xa5 + w.toNat * 0x100 + d.toNat * 0x400 + a.toNat * 0x10000 + p.toNat * 0x400000 + n.toNat * 0x1000000 + o.toNat * 0x8000000
  | .rngB w d a p n o => 0xa7 + w.toNat * 0x100 + d.toNat * 0x400 + a.toNat * 0x10000 + p.toNat * 0x400000 + n.toNat * 0x1000000 + o.toNat * 0x8000000
  | .rngD w d a p n o => 0xa9 + w.toNat * 0x100 + d.toNat * 0x400 + a.toNat * 0x10000 + p.toNat * 0x400000 + n.toNat * 0x1000000 + o.toNat * 0x8000000
  | .rngC d a p n o => 0xab + d.toNat * 0x400 + a.toNat * 0x10000 + p.toNat * 0x400000 + n.toNat * 0x1000000 + o.toNat * 0x8000000
  | .srnd w d a p n c => 0xad + w.toNat * 0x100 + d.toNat * 0x400 + a.toNat * 0x10000 + p.toNat * 0x400000 + n.toNat * 0x1000000 + c.toNat * 0x8000000
  | .rngPos n a => 0xaf + n.toNat * 0x1000 + a.toNat * 0x20000
  | .rngPosAdd n a => 0x1af + n.toNat * 0x1000 + a.toNat * 0x20000
  | .rngPosRd d n => 0x2af + d.toNat * 0x1000 + n.toNat * 0x20000
  | .cpyGo a => 0xb1 + a.toNat * 0x1000
  | .cpyFence => 0xb3
  | .cpyCancel a => 0xb5 + a.toNat * 0x1000
  | .selGo a => 0xb7 + a.toNat * 0x1000
  | .selMerge a => 0xb9 + a.toNat * 0x1000
  | .tilePin a c n => 0xbb + a.toNat * 0x1000 + c.toNat * 0x400000 + n.toNat * 0x8000000
  | .tileQuery a c => 0x1bb + a.toNat * 0x1000 + c.toNat * 0x400000
  | .tilePrefetch a c => 0x2bb + a.toNat * 0x1000 + c.toNat * 0x400000
  | .tileDrainlog a c => 0x3bb + a.toNat * 0x1000 + c.toNat * 0x400000
  | .crlPost a b c s => 0xbd + a.toNat * 0x1000 + b.toNat * 0x20000 + c.toNat * 0x400000 + s.toNat * 0x8000000
  | .mma n t x y => 0xc1 + n.toNat * 0x400 + t.toNat * 0x80000 + x.toNat * 0x400000 + y.toNat * 0x8000000
  | .dmma n t x y => 0xc3 + n.toNat * 0x400 + t.toNat * 0x80000 + x.toNat * 0x400000 + y.toNat * 0x8000000
  | .mmaqM n t x y => 0xc5 + n.toNat * 0x400 + t.toNat * 0x80000 + x.toNat * 0x400000 + y.toNat * 0x8000000
  | .mmaqD n t x y => 0x1c5 + n.toNat * 0x400 + t.toNat * 0x80000 + x.toNat * 0x400000 + y.toNat * 0x8000000
  | .mfen => 0xc7
  | .mcommit c => 0xc9 + c.toNat * 0x400000
  | .mwait a => 0xcb + a.toNat * 0x1000
  | .mdrainRows n t x y => 0xcd + n.toNat * 0x400 + t.toNat * 0x80000 + x.toNat * 0x400000 + y.toNat * 0x8000000
  | .mdrainAdd n t x y => 0x1cd + n.toNat * 0x400 + t.toNat * 0x80000 + x.toNat * 0x400000 + y.toNat * 0x8000000
  | .mdrainFolio n t x => 0x2cd + n.toNat * 0x400 + t.toNat * 0x80000 + x.toNat * 0x400000
  | .maccZero n t => 0xcf + n.toNat * 0x400 + t.toNat * 0x80000
  | .maccLoad n t x y => 0x1cf + n.toNat * 0x400 + t.toNat * 0x80000 + x.toNat * 0x400000 + y.toNat * 0x8000000
  | .maccTree n t x => 0x2cf + n.toNat * 0x400 + t.toNat * 0x80000 + x.toNat * 0x400000
  | .maccGov s => 0x3cf + s.toNat * 0x400000
  | .bra o => 0xd1 + o.toNat * 0x100
  | .brz s o => 0xd3 + s.toNat * 0x200 + o.toNat * 0x4000
  | .brnz s o => 0x1d3 + s.toNat * 0x200 + o.toNat * 0x4000
  | .split d o => 0xd5 + d.toNat * 0x100 + o.toNat * 0x4000
  | .rcv => 0xd7
  | .kpush o => 0xd9 + o.toNat * 0x100
  | .call d a => 0xdb + d.toNat * 0x1000 + a.toNat * 0x20000
  | .ret a => 0x1db + a.toNat * 0x20000
  | .jmpr a => 0x2db + a.toNat * 0x20000
  | .exit => 0xdd
  | .yield => 0x1dd
  | .nop => 0x2dd
  | .bkpt => 0x3dd
  | .saluAdd d a b => 0xdf + d.toNat * 0x1000 + a.toNat * 0x20000 + b.toNat * 0x400000
  | .saluSub d a b => 0x1df + d.toNat * 0x1000 + a.toNat * 0x20000 + b.toNat * 0x400000
  | .saluMul d a b => 0x2df + d.toNat * 0x1000 + a.toNat * 0x20000 + b.toNat * 0x400000
  | .saluMulhu d a b => 0x3df + d.toNat * 0x1000 + a.toNat * 0x20000 + b.toNat * 0x400000
  | .saluAnd d a b => 0x4df + d.toNat * 0x1000 + a.toNat * 0x20000 + b.toNat * 0x400000
  | .saluOr d a b => 0x5df + d.toNat * 0x1000 + a.toNat * 0x20000 + b.toNat * 0x400000
  | .saluXor d a b => 0x6df + d.toNat * 0x1000 + a.toNat * 0x20000 + b.toNat * 0x400000
  | .saluShl d a b => 0x7df + d.toNat * 0x1000 + a.toNat * 0x20000 + b.toNat * 0x400000
  | .saluShr d a b => 0x8df + d.toNat * 0x1000 + a.toNat * 0x20000 + b.toNat * 0x400000
  | .saluSra d a b => 0x9df + d.toNat * 0x1000 + a.toNat * 0x20000 + b.toNat * 0x400000
  | .saluSlt d a b => 0xadf + d.toNat * 0x1000 + a.toNat * 0x20000 + b.toNat * 0x400000
  | .saluSltu d a b => 0xbdf + d.toNat * 0x1000 + a.toNat * 0x20000 + b.toNat * 0x400000
  | .saluMin d a b => 0xcdf + d.toNat * 0x1000 + a.toNat * 0x20000 + b.toNat * 0x400000
  | .saluMax d a b => 0xddf + d.toNat * 0x1000 + a.toNat * 0x20000 + b.toNat * 0x400000
  | .saluMinu d a b => 0xedf + d.toNat * 0x1000 + a.toNat * 0x20000 + b.toNat * 0x400000
  | .saluMaxu d a b => 0xfdf + d.toNat * 0x1000 + a.toNat * 0x20000 + b.toNat * 0x400000
  | .saluiAdd d a i => 0xe1 + d.toNat * 0x1000 + a.toNat * 0x20000 + i.toNat * 0x400000
  | .saluiAnd d a i => 0x1e1 + d.toNat * 0x1000 + a.toNat * 0x20000 + i.toNat * 0x400000
  | .saluiOr d a i => 0x2e1 + d.toNat * 0x1000 + a.toNat * 0x20000 + i.toNat * 0x400000
  | .saluiXor d a i => 0x3e1 + d.toNat * 0x1000 + a.toNat * 0x20000 + i.toNat * 0x400000
  | .saluiShl d a i => 0x4e1 + d.toNat * 0x1000 + a.toNat * 0x20000 + i.toNat * 0x400000
  | .saluiShr d a i => 0x5e1 + d.toNat * 0x1000 + a.toNat * 0x20000 + i.toNat * 0x400000
  | .saluiSra d a i => 0x6e1 + d.toNat * 0x1000 + a.toNat * 0x20000 + i.toNat * 0x400000
  | .saluiSlt d a i => 0x7e1 + d.toNat * 0x1000 + a.toNat * 0x20000 + i.toNat * 0x400000
  | .saluiSltu d a i => 0x8e1 + d.toNat * 0x1000 + a.toNat * 0x20000 + i.toNat * 0x400000
  | .saluiShor d a i => 0x9e1 + d.toNat * 0x1000 + a.toNat * 0x20000 + i.toNat * 0x400000
  | .sfpuAdd d a b => 0xe3 + d.toNat * 0x1000 + a.toNat * 0x20000 + b.toNat * 0x400000
  | .sfpuSub d a b => 0x1e3 + d.toNat * 0x1000 + a.toNat * 0x20000 + b.toNat * 0x400000
  | .sfpuMul d a b => 0x2e3 + d.toNat * 0x1000 + a.toNat * 0x20000 + b.toNat * 0x400000
  | .sfpuDiv d a b => 0x3e3 + d.toNat * 0x1000 + a.toNat * 0x20000 + b.toNat * 0x400000
  | .sfpuMin d a b => 0x4e3 + d.toNat * 0x1000 + a.toNat * 0x20000 + b.toNat * 0x400000
  | .sfpuMax d a b => 0x5e3 + d.toNat * 0x1000 + a.toNat * 0x20000 + b.toNat * 0x400000
  | .sfpuSeq d a b => 0x6e3 + d.toNat * 0x1000 + a.toNat * 0x20000 + b.toNat * 0x400000
  | .sfpuSlt d a b => 0x7e3 + d.toNat * 0x1000 + a.toNat * 0x20000 + b.toNat * 0x400000
  | .sfpuSle d a b => 0x8e3 + d.toNat * 0x1000 + a.toNat * 0x20000 + b.toNat * 0x400000
  | .sfpuCvtif d a => 0x9e3 + d.toNat * 0x1000 + a.toNat * 0x20000
  | .sfpuCvtfi d a => 0xae3 + d.toNat * 0x1000 + a.toNat * 0x20000
  | .sldD d a i => 0xe5 + d.toNat * 0x1000 + a.toNat * 0x20000 + i.toNat * 0x400000
  | .sldW d a i => 0x1e5 + d.toNat * 0x1000 + a.toNat * 0x20000 + i.toNat * 0x400000
  | .sldWs d a i => 0x2e5 + d.toNat * 0x1000 + a.toNat * 0x20000 + i.toNat * 0x400000
  | .sstD d a i => 0xe7 + d.toNat * 0x1000 + a.toNat * 0x20000 + i.toNat * 0x400000
  | .sstW d a i => 0x1e7 + d.toNat * 0x1000 + a.toNat * 0x20000 + i.toNat * 0x400000
  | .tsrSet n a => 0xe9 + n.toNat * 0x1000 + a.toNat * 0x20000
  | .tsrGet d n => 0x1e9 + d.toNat * 0x1000 + n.toNat * 0x20000
  | .tsrLsw a => 0x2e9 + a.toNat * 0x20000
  | .tsrLsr d => 0x3e9 + d.toNat * 0x1000
  | .tsrOvr d => 0x4e9 + d.toNat * 0x1000
  | .tsrOvc d a => 0x5e9 + d.toNat * 0x1000 + a.toNat * 0x20000
  | .tsrFlr d => 0x6e9 + d.toNat * 0x1000
  | .tsrFlc d a => 0x7e9 + d.toNat * 0x1000 + a.toNat * 0x20000
  | .xps c n k => 0xeb + c.toNat * 0x1000 + n.toNat * 0x400000 + k.toNat * 0x8000000
  | .voteAny s a p => 0xed + s.toNat * 0x400 + a.toNat * 0x10000 + p.toNat * 0x400000
  | .voteAll s a p => 0x10000ed + s.toNat * 0x400 + a.toNat * 0x10000 + p.toNat * 0x400000
  | .voteCount s a p => 0x20000ed + s.toNat * 0x400 + a.toNat * 0x10000 + p.toNat * 0x400000
  | .voteFirst s a p => 0x30000ed + s.toNat * 0x400 + a.toNat * 0x10000 + p.toNat * 0x400000
  | .voteBallot s a p k => 0x200000ed + s.toNat * 0x400 + a.toNat * 0x10000 + p.toNat * 0x400000 + k.toNat * 0x1000000
  | .sbcastD d s => 0xef + d.toNat * 0x400 + s.toNat * 0x10000
  | .sbcastM d s => 0x10000ef + d.toNat * 0x400 + s.toNat * 0x10000
  | .ctrAdd a b c i => 0xf1 + a.toNat * 0x1000 + b.toNat * 0x20000 + c.toNat * 0x400000 + i.toNat * 0x8000000
  | .ctrWait a b c i => 0x1f1 + a.toNat * 0x1000 + b.toNat * 0x20000 + c.toNat * 0x400000 + i.toNat * 0x8000000
  | .ctrLoad a c i => 0x2f1 + a.toNat * 0x1000 + c.toNat * 0x400000 + i.toNat * 0x8000000
  | .bar a n => 0xf3 + a.toNat * 0x1000 + n.toNat * 0x8000000
  | .sysRd d n => 0xf5 + d.toNat * 0x1000 + n.toNat * 0x20000
  | .sysWr n a => 0x1f5 + n.toNat * 0x1000 + a.toNat * 0x20000
  | .sysHrd d n => 0x2f5 + d.toNat * 0x1000 + n.toNat * 0x20000
  | .sysHwr n a => 0x3f5 + n.toNat * 0x1000 + a.toNat * 0x20000
  | .sysCancel l => 0x4f5 + l.toNat * 0x20000
  | .trap i => 0xf7 + i.toNat * 0x400000
  | .svcVersion => 0x1f7
  | .svcPoolmap => 0x4001f7
  | .svcPoolcount => 0x8001f7
  | .svcPrefetch => 0xc001f7
  | .svcUnknown n => 0x1f7 + n.toNat * 0x400000
  | .rte => 0x2f7
  | .kregRd d n => 0xf9 + d.toNat * 0x1000 + n.toNat * 0x20000
  | .kregWr n a => 0x1f9 + n.toNat * 0x1000 + a.toNat * 0x20000
  | .kregAdd d n b => 0x2f9 + d.toNat * 0x1000 + n.toNat * 0x20000 + b.toNat * 0x400000
  | .clause w a b m c => 0xff + w.toNat * 0x100 + a.toNat * 0x100000 + b.toNat * 0x1000000 + m.toNat * 0x10000000 + c.toNat * 0x40000000
  | .halt => 0x0
  | .cmovh i d => 0x4000000 + i.toNat * 0x1 + d.toNat * 0x400000
  | .corl i d => 0x8000000 + i.toNat * 0x1 + d.toNat * 0x400000
  | .carillonFadd b a d => 0xc000000 + b.toNat * 0x4000 + a.toNat * 0x40000 + d.toNat * 0x400000
  | .carillonFsub b a d => 0x10000000 + b.toNat * 0x4000 + a.toNat * 0x40000 + d.toNat * 0x400000
  | .carillonFmul b a d => 0x14000000 + b.toNat * 0x4000 + a.toNat * 0x40000 + d.toNat * 0x400000
  | .carillonFdiv b a d => 0x18000000 + b.toNat * 0x4000 + a.toNat * 0x40000 + d.toNat * 0x400000
  | .cget x a d => 0x1c000000 + x.toNat * 0x1 + a.toNat * 0x40000 + d.toNat * 0x400000
  | .cscale a => 0x20000000 + a.toNat * 0x40000
  | .cpen x a => 0x24000000 + x.toNat * 0x1 + a.toNat * 0x40000
  | .ctopk x => 0x28000000 + x.toNat * 0x1
  | .ctopp a => 0x2c000000 + a.toNat * 0x40000
  | .cexp d => 0x30000000 + d.toNat * 0x400000
  | .cnorm d => 0x34000000 + d.toNat * 0x400000
  | .cpsum => 0x38000000
  | .nset x n a => 0x3c000000 + x.toNat * 0x1 + n.toNat * 0x800 + a.toNat * 0x40000
  | .rngu n d => 0x40000000 + n.toNat * 0x800 + d.toNat * 0x400000
  | .cdraw n d => 0x44000000 + n.toNat * 0x800 + d.toNat * 0x400000
  | .cacc n b a d => 0x48000000 + n.toNat * 0x800 + b.toNat * 0x4000 + a.toNat * 0x40000 + d.toNat * 0x400000
  | .br x c a => 0x4c000000 + x.toNat * 0x1 + c.toNat * 0x4000 + a.toNat * 0x40000
  | .waitc x => 0x50000000 + x.toNat * 0x1
  | .emit s l a => 0x54000000 + s.toNat * 0x1 + l.toNat * 0x8 + a.toNat * 0x40000
  | .clauseWaitRelease _ => 0
  | .loadDataReturn _ => 0
  | .waitFullRead _ => 0
  | .storeTaken _ => 0
  | .noiseResult _ => 0
  | .ctrAddResult _ => 0
  | .ctrWaitReturn _ => 0
  | .ctrLoadResult _ => 0
  | .barRelease _ => 0
  | .fenceComplete _ => 0
  | .svcReturn _ => 0
  | .astoApply _ => 0
  | .drainAddApply _ => 0
  | .matrixOpComplete _ => 0
  | .mmaqJoin _ _ => 0
  | .maccTreeJoin _ => 0
  | .governorWindow _ => 0
  | .quireComplete _ => 0
  | .cpyFenceComplete _ => 0
  | .selectionPartialList _ _ => 0
  | .selectionComplete _ => 0
  | .candidateDelivery _ => 0
  | .carillonWake _ => 0
  | .carillonSuspend _ => 0
  | .carillonResume _ => 0
  | .logAppend _ => 0
  | .tileFrameObtained _ => 0
  | .tileArrivalFailed _ _ => 0
  | .phaseLogArrival _ => 0
  | .faultRecordPost _ => 0
  | .faultRingHeadPoll _ => 0
  | .poolRefill _ _ => 0
  | .mergeRewalk _ => 0
  | .shootdown _ _ => 0
  | .shootdownAgentAdd _ _ => 0
  | .unitPlacement _ => 0
  | .unitFinish _ => 0
  | .phaseEnd _ => 0
  | .preemptHalt _ => 0
  | .preemptSave _ => 0
  | .preemptSwapDone _ => 0
  | .restore _ => 0
  | .restoreDone _ => 0
  | .descriptorTake _ => 0
  | .fabricStore _ => 0
  | .fabricAsto _ => 0
  | .fabricCtradd _ => 0
  | .descriptorAck _ _ _ _ => 0
  | .linkRetryExpiry _ => 0
  | .sequenceSteal _ _ => 0
  | .chipSteal _ _ => 0
  | .stealStateInstall _ => 0
  | .stealAck _ => 0
  | .queueDoorbell _ _ => 0
  | .admdb _ => 0
  | .registerWrite _ _ => 0
  | .ctxCreate _ => 0
  | .ctxDestroy _ => 0
  | .queueCreate _ => 0
  | .queueDestroy _ => 0
  | .memMap _ => 0
  | .memUnmap _ => 0
  | .memProtect _ => 0
  | .tileEvict _ => 0
  | .faultReply _ => 0
  | .bufDeclare _ => 0
  | .launch _ => 0
  | .graphBegin _ => 0
  | .graphEnd _ => 0
  | .graphReplay _ => 0
  | .phaseOpen _ => 0
  | .phaseClose _ => 0
  | .cancel _ => 0
  | .crlBind _ => 0
  | .crlFree _ => 0
  | .crlLoad _ => 0
  | .crlRestart _ => 0
  | .batchUpdate _ => 0
  | .batchIter _ => 0
  | .signal _ => 0
  | .unknownCommand _ => 0
  | .hostBar2Access _ _ => 0
  | .bootImageWrite _ _ => 0
  | .bootstatGo => 0
  | .reset => 0
  | .thermalTrip => 0
  | .governorBudgetUpdate _ _ => 0
  | .attestationRequest _ _ => 0
  | .tstop _ => 0
  | .tstopExpiry => 0
  | .debugRelease => 0
  | .stopcl _ => 0
  | .clusterStopArrival _ => 0
  | .step _ _ _ => 0
  | .stepBlocked _ _ _ => 0
  | .resume _ => 0
  | .colophonCounterAdd _ => 0
  | .illegalInstruction w => w.toNat
  | .fetchFault _ => 0
  | .illegalOp w => w.toNat
  | .pcRange => 0
  | .powerLoss _ => 0

/-- Which of the forms an instruction has: 16-bit, 32-bit, Carillon, or a step with no encoding. -/
def Instr.form : Instr → Form
  | .mov _ _ => .half
  | .iadd16 _ _ => .half
  | .isub16 _ _ => .half
  | .imul16 _ _ => .half
  | .iand16 _ _ => .half
  | .ior16 _ _ => .half
  | .ixor16 _ _ => .half
  | .ishl16 _ _ => .half
  | .ishr16 _ _ => .half
  | .fadd16 _ _ => .half
  | .fsub16 _ _ => .half
  | .fmul16 _ _ => .half
  | .fmax16 _ _ => .half
  | .fmin16 _ _ => .half
  | .imax16 _ _ => .half
  | .imin16 _ _ => .half
  | .iadd _ _ _ _ _ _ => .word
  | .isub _ _ _ _ _ _ => .word
  | .imul _ _ _ _ _ _ => .word
  | .imulh _ _ _ _ _ _ => .word
  | .imulhu _ _ _ _ _ _ => .word
  | .imad _ _ _ _ _ _ => .word
  | .iand _ _ _ _ _ _ => .word
  | .ior _ _ _ _ _ _ => .word
  | .ixor _ _ _ _ _ _ => .word
  | .iandn _ _ _ _ _ _ => .word
  | .ishl _ _ _ _ _ _ => .word
  | .ishr _ _ _ _ _ _ => .word
  | .isra _ _ _ _ _ _ => .word
  | .imin _ _ _ _ _ _ => .word
  | .imax _ _ _ _ _ _ => .word
  | .umin _ _ _ _ _ _ => .word
  | .umax _ _ _ _ _ _ => .word
  | .iseq _ _ _ _ _ _ => .word
  | .islt _ _ _ _ _ _ => .word
  | .isltu _ _ _ _ _ _ => .word
  | .iadd64 _ _ _ _ _ _ => .word
  | .isub64 _ _ _ _ _ _ => .word
  | .addi _ _ _ _ _ => .word
  | .shli _ _ _ _ _ => .word
  | .shri _ _ _ _ _ => .word
  | .srai _ _ _ _ _ => .word
  | .andi _ _ _ _ _ => .word
  | .fadd _ _ _ _ _ _ => .word
  | .fsub _ _ _ _ _ _ => .word
  | .fmul _ _ _ _ _ _ => .word
  | .fma _ _ _ _ _ _ => .word
  | .fmin _ _ _ _ _ _ => .word
  | .fmax _ _ _ _ _ _ => .word
  | .fseq _ _ _ _ _ _ => .word
  | .fslt _ _ _ _ _ _ => .word
  | .fsle _ _ _ _ _ _ => .word
  | .sel _ _ _ _ _ _ => .word
  | .rcp _ _ _ _ => .word
  | .rsq _ _ _ _ => .word
  | .sqrt _ _ _ _ => .word
  | .exp2 _ _ _ _ => .word
  | .log2 _ _ _ _ => .word
  | .sin2pi _ _ _ _ => .word
  | .cos2pi _ _ _ _ => .word
  | .tanh _ _ _ _ => .word
  | .fabs _ _ _ _ => .word
  | .fneg _ _ _ _ => .word
  | .cvtif _ _ _ _ => .word
  | .cvtuf _ _ _ _ => .word
  | .cvtfi _ _ _ _ => .word
  | .cvtfu _ _ _ _ => .word
  | .cvtfir _ _ _ _ => .word
  | .frint _ _ _ _ => .word
  | .ffloor _ _ _ _ => .word
  | .ftrunc _ _ _ _ => .word
  | .clz _ _ _ _ => .word
  | .popc _ _ _ _ => .word
  | .brev _ _ _ _ => .word
  | .rnd _ _ _ _ _ => .word
  | .perm _ _ _ _ _ _ => .word
  | .xredIadd _ _ _ => .word
  | .xredImin _ _ _ => .word
  | .xredImax _ _ _ => .word
  | .xredUmin _ _ _ => .word
  | .xredUmax _ _ _ => .word
  | .xredIand _ _ _ => .word
  | .xredIor _ _ _ => .word
  | .xredIxor _ _ _ => .word
  | .xredFadd _ _ _ => .word
  | .xredFmin _ _ _ => .word
  | .xredFmax _ _ _ => .word
  | .xredIscan _ _ _ => .word
  | .xredIscanx _ _ _ => .word
  | .xredFscan _ _ _ => .word
  | .xredFscanx _ _ _ => .word
  | .laneIndex _ => .word
  | .laneDie _ => .word
  | .laneGcore _ => .word
  | .laneHome _ _ _ => .word
  | .movi _ _ => .word
  | .movhi _ _ => .word
  | .dset _ _ _ _ _ _ => .word
  | .dmean _ _ _ _ => .word
  | .dvar _ _ _ _ => .word
  | .dvarU _ _ _ _ => .word
  | .dstd _ _ _ _ => .word
  | .dstdU _ _ _ _ => .word
  | .dscale _ _ _ _ _ _ => .word
  | .dtagNew _ _ _ _ => .word
  | .dtagRead _ => .word
  | .dtagReset => .word
  | .dfoldT _ _ _ _ => .word
  | .dfoldM _ _ _ _ => .word
  | .dfoldL _ _ _ _ => .word
  | .dcov _ _ _ _ _ _ => .word
  | .dtos _ _ _ _ => .word
  | .dtosL _ _ _ _ => .word
  | .stod _ _ _ _ _ _ => .word
  | .dclamp _ _ _ _ _ _ => .word
  | .dfuse _ _ _ _ _ _ => .word
  | .ldb _ _ _ _ _ => .word
  | .ldh _ _ _ _ _ => .word
  | .ldw _ _ _ _ _ => .word
  | .ldd _ _ _ _ _ => .word
  | .stb _ _ _ _ _ => .word
  | .sth _ _ _ _ _ => .word
  | .stw _ _ _ _ _ => .word
  | .std _ _ _ _ _ => .word
  | .astoIadd _ _ _ _ => .word
  | .astoFadd _ _ _ _ => .word
  | .astoFaddR _ _ _ _ => .word
  | .astoImin _ _ _ _ => .word
  | .astoImax _ _ _ _ => .word
  | .astoFmin _ _ _ _ => .word
  | .astoFmax _ _ _ _ => .word
  | .astoIor _ _ _ _ => .word
  | .fence _ _ => .word
  | .pref _ _ _ => .word
  | .spill _ _ _ _ => .word
  | .fill _ _ _ _ => .word
  | .spillp _ _ _ _ => .word
  | .fillp _ _ _ _ => .word
  | .rngKey _ _ _ => .word
  | .rngKeyLo _ _ => .word
  | .rngKeyHi _ _ => .word
  | .rngU _ _ _ _ _ _ => .word
  | .rngG _ _ _ _ _ _ => .word
  | .rngB _ _ _ _ _ _ => .word
  | .rngD _ _ _ _ _ _ => .word
  | .rngC _ _ _ _ _ => .word
  | .srnd _ _ _ _ _ _ => .word
  | .rngPos _ _ => .word
  | .rngPosAdd _ _ => .word
  | .rngPosRd _ _ => .word
  | .cpyGo _ => .word
  | .cpyFence => .word
  | .cpyCancel _ => .word
  | .selGo _ => .word
  | .selMerge _ => .word
  | .tilePin _ _ _ => .word
  | .tileQuery _ _ => .word
  | .tilePrefetch _ _ => .word
  | .tileDrainlog _ _ => .word
  | .crlPost _ _ _ _ => .word
  | .mma _ _ _ _ => .word
  | .dmma _ _ _ _ => .word
  | .mmaqM _ _ _ _ => .word
  | .mmaqD _ _ _ _ => .word
  | .mfen => .word
  | .mcommit _ => .word
  | .mwait _ => .word
  | .mdrainRows _ _ _ _ => .word
  | .mdrainAdd _ _ _ _ => .word
  | .mdrainFolio _ _ _ => .word
  | .maccZero _ _ => .word
  | .maccLoad _ _ _ _ => .word
  | .maccTree _ _ _ => .word
  | .maccGov _ => .word
  | .bra _ => .word
  | .brz _ _ => .word
  | .brnz _ _ => .word
  | .split _ _ => .word
  | .rcv => .word
  | .kpush _ => .word
  | .call _ _ => .word
  | .ret _ => .word
  | .jmpr _ => .word
  | .exit => .word
  | .yield => .word
  | .nop => .word
  | .bkpt => .word
  | .saluAdd _ _ _ => .word
  | .saluSub _ _ _ => .word
  | .saluMul _ _ _ => .word
  | .saluMulhu _ _ _ => .word
  | .saluAnd _ _ _ => .word
  | .saluOr _ _ _ => .word
  | .saluXor _ _ _ => .word
  | .saluShl _ _ _ => .word
  | .saluShr _ _ _ => .word
  | .saluSra _ _ _ => .word
  | .saluSlt _ _ _ => .word
  | .saluSltu _ _ _ => .word
  | .saluMin _ _ _ => .word
  | .saluMax _ _ _ => .word
  | .saluMinu _ _ _ => .word
  | .saluMaxu _ _ _ => .word
  | .saluiAdd _ _ _ => .word
  | .saluiAnd _ _ _ => .word
  | .saluiOr _ _ _ => .word
  | .saluiXor _ _ _ => .word
  | .saluiShl _ _ _ => .word
  | .saluiShr _ _ _ => .word
  | .saluiSra _ _ _ => .word
  | .saluiSlt _ _ _ => .word
  | .saluiSltu _ _ _ => .word
  | .saluiShor _ _ _ => .word
  | .sfpuAdd _ _ _ => .word
  | .sfpuSub _ _ _ => .word
  | .sfpuMul _ _ _ => .word
  | .sfpuDiv _ _ _ => .word
  | .sfpuMin _ _ _ => .word
  | .sfpuMax _ _ _ => .word
  | .sfpuSeq _ _ _ => .word
  | .sfpuSlt _ _ _ => .word
  | .sfpuSle _ _ _ => .word
  | .sfpuCvtif _ _ => .word
  | .sfpuCvtfi _ _ => .word
  | .sldD _ _ _ => .word
  | .sldW _ _ _ => .word
  | .sldWs _ _ _ => .word
  | .sstD _ _ _ => .word
  | .sstW _ _ _ => .word
  | .tsrSet _ _ => .word
  | .tsrGet _ _ => .word
  | .tsrLsw _ => .word
  | .tsrLsr _ => .word
  | .tsrOvr _ => .word
  | .tsrOvc _ _ => .word
  | .tsrFlr _ => .word
  | .tsrFlc _ _ => .word
  | .xps _ _ _ => .word
  | .voteAny _ _ _ => .word
  | .voteAll _ _ _ => .word
  | .voteCount _ _ _ => .word
  | .voteFirst _ _ _ => .word
  | .voteBallot _ _ _ _ => .word
  | .sbcastD _ _ => .word
  | .sbcastM _ _ => .word
  | .ctrAdd _ _ _ _ => .word
  | .ctrWait _ _ _ _ => .word
  | .ctrLoad _ _ _ => .word
  | .bar _ _ => .word
  | .sysRd _ _ => .word
  | .sysWr _ _ => .word
  | .sysHrd _ _ => .word
  | .sysHwr _ _ => .word
  | .sysCancel _ => .word
  | .trap _ => .word
  | .svcVersion => .word
  | .svcPoolmap => .word
  | .svcPoolcount => .word
  | .svcPrefetch => .word
  | .svcUnknown _ => .word
  | .rte => .word
  | .kregRd _ _ => .word
  | .kregWr _ _ => .word
  | .kregAdd _ _ _ => .word
  | .clause _ _ _ _ _ => .word
  | .halt => .micro
  | .cmovh _ _ => .micro
  | .corl _ _ => .micro
  | .carillonFadd _ _ _ => .micro
  | .carillonFsub _ _ _ => .micro
  | .carillonFmul _ _ _ => .micro
  | .carillonFdiv _ _ _ => .micro
  | .cget _ _ _ => .micro
  | .cscale _ => .micro
  | .cpen _ _ => .micro
  | .ctopk _ => .micro
  | .ctopp _ => .micro
  | .cexp _ => .micro
  | .cnorm _ => .micro
  | .cpsum => .micro
  | .nset _ _ _ => .micro
  | .rngu _ _ => .micro
  | .cdraw _ _ => .micro
  | .cacc _ _ _ _ => .micro
  | .br _ _ _ => .micro
  | .waitc _ => .micro
  | .emit _ _ _ => .micro
  | .clauseWaitRelease _ => .event
  | .loadDataReturn _ => .event
  | .waitFullRead _ => .event
  | .storeTaken _ => .event
  | .noiseResult _ => .event
  | .ctrAddResult _ => .event
  | .ctrWaitReturn _ => .event
  | .ctrLoadResult _ => .event
  | .barRelease _ => .event
  | .fenceComplete _ => .event
  | .svcReturn _ => .event
  | .astoApply _ => .event
  | .drainAddApply _ => .event
  | .matrixOpComplete _ => .event
  | .mmaqJoin _ _ => .event
  | .maccTreeJoin _ => .event
  | .governorWindow _ => .event
  | .quireComplete _ => .event
  | .cpyFenceComplete _ => .event
  | .selectionPartialList _ _ => .event
  | .selectionComplete _ => .event
  | .candidateDelivery _ => .event
  | .carillonWake _ => .event
  | .carillonSuspend _ => .event
  | .carillonResume _ => .event
  | .logAppend _ => .event
  | .tileFrameObtained _ => .event
  | .tileArrivalFailed _ _ => .event
  | .phaseLogArrival _ => .event
  | .faultRecordPost _ => .event
  | .faultRingHeadPoll _ => .event
  | .poolRefill _ _ => .event
  | .mergeRewalk _ => .event
  | .shootdown _ _ => .event
  | .shootdownAgentAdd _ _ => .event
  | .unitPlacement _ => .event
  | .unitFinish _ => .event
  | .phaseEnd _ => .event
  | .preemptHalt _ => .event
  | .preemptSave _ => .event
  | .preemptSwapDone _ => .event
  | .restore _ => .event
  | .restoreDone _ => .event
  | .descriptorTake _ => .event
  | .fabricStore _ => .event
  | .fabricAsto _ => .event
  | .fabricCtradd _ => .event
  | .descriptorAck _ _ _ _ => .event
  | .linkRetryExpiry _ => .event
  | .sequenceSteal _ _ => .event
  | .chipSteal _ _ => .event
  | .stealStateInstall _ => .event
  | .stealAck _ => .event
  | .queueDoorbell _ _ => .event
  | .admdb _ => .event
  | .registerWrite _ _ => .event
  | .ctxCreate _ => .event
  | .ctxDestroy _ => .event
  | .queueCreate _ => .event
  | .queueDestroy _ => .event
  | .memMap _ => .event
  | .memUnmap _ => .event
  | .memProtect _ => .event
  | .tileEvict _ => .event
  | .faultReply _ => .event
  | .bufDeclare _ => .event
  | .launch _ => .event
  | .graphBegin _ => .event
  | .graphEnd _ => .event
  | .graphReplay _ => .event
  | .phaseOpen _ => .event
  | .phaseClose _ => .event
  | .cancel _ => .event
  | .crlBind _ => .event
  | .crlFree _ => .event
  | .crlLoad _ => .event
  | .crlRestart _ => .event
  | .batchUpdate _ => .event
  | .batchIter _ => .event
  | .signal _ => .event
  | .unknownCommand _ => .event
  | .hostBar2Access _ _ => .event
  | .bootImageWrite _ _ => .event
  | .bootstatGo => .event
  | .reset => .event
  | .thermalTrip => .event
  | .governorBudgetUpdate _ _ => .event
  | .attestationRequest _ _ => .event
  | .tstop _ => .event
  | .tstopExpiry => .event
  | .debugRelease => .event
  | .stopcl _ => .event
  | .clusterStopArrival _ => .event
  | .step _ _ _ => .event
  | .stepBlocked _ _ _ => .event
  | .resume _ => .event
  | .colophonCounterAdd _ => .event
  | .illegalInstruction _ => .event
  | .fetchFault _ => .event
  | .illegalOp _ => .event
  | .pcRange => .event
  | .powerLoss _ => .event

/-- An instruction whose fields are out of range is no instruction (R83). -/
def checked (r : Except Reject Instr) : Except Reject Instr :=
  match r with
  | .ok i => if i.wf then .ok i else .error .fieldRange
  | .error e => .error e

/-- A 16-bit word's instruction. -/
def decode16 (w : Nat) : Except Reject Instr := checked (decode16Raw w)
/-- A 32-bit word's instruction. -/
def decode32 (w : Nat) : Except Reject Instr := checked (decode32Raw w)
/-- A microinstruction word's instruction. -/
def decodeCarillon (w : Nat) : Except Reject Instr := checked (decodeCarillonRaw w)

/-- Bit 0 of the first halfword gives the length in bytes (R62). -/
def lengthOf (h : Nat) : Nat := if h % 2 = 0 then 2 else 4

/-- The little-endian number that bytes hold (R4). -/
def leBytes : List Byte → Nat
  | [] => 0
  | b :: bs => b.toNat + 256 * leBytes bs

/-- The first n bytes of a number, least significant first (R4). -/
def toBytes : Nat → Nat → List Byte
  | 0, _ => []
  | n + 1, v => BitVec.ofNat 8 v :: toBytes n (v / 256)

/-- The instruction at the head of a byte sequence and the bytes after it (R61, R62). -/
def decode : List Byte → Except Reject (Instr × List Byte)
  | b0 :: b1 :: rest =>
    let h := leBytes [b0, b1]
    if h % 2 = 0 then (decode16 h).map (fun i => (i, rest))
    else match rest with
      | b2 :: b3 :: rest' => (decode32 (leBytes [b0, b1, b2, b3])).map (fun i => (i, rest'))
      | _ => .error .truncated
  | _ => .error .truncated

/-- The bytes of an encoded instruction as memory holds them (R61, R343). -/
def encodeBytes (i : Instr) : List Byte :=
  match i.form with
  | .half => toBytes 2 (encode i)
  | .word => toBytes 4 (encode i)
  | .micro => toBytes 4 (encode i)
  | .event => []

/-- The instruction a table word stands for: a word of at most 16 bits, or one whose bit 0 is set, is the sequencer's
(its bytes laid out low byte first and given to `decode`); a 32-bit word with bit 0 clear is the Carillon's, since the
sequencer's words of 32 bits all have bit 0 set (R62). A sequencer word with bit 0 set and a Carillon word whose immediate
sets bit 0 share their bits: such a word is read as the sequencer's. -/
def decodeTableWord (nbits w : Nat) : Option Instr :=
  if 16 < nbits && w % 2 == 0 then (decodeCarillon w).toOption
  else (decode (toBytes (if w % 2 = 0 then 2 else 4) w)).toOption.map Prod.fst

end

end Sys2Proof
end

