-- ==== Sys2Proof/Config.lean ====
section
/-! DEFINITION. What a device fixes and the spec leaves open: the free values. No constant here has a body, so nothing can
be proved of its value (notes/assumptions say for each where the spec leaves it open). -/

namespace Sys2Proof.Config

/-- The free values: value n is the one the machine draws when its counter `State.free` stands at n. -/
opaque freeWord : Nat → DWord
/-- The finite times of R58: how many issue numbers after it a write numbered n is performed everywhere, and how many steps
after step n what became possible there has been done, at the latest. -/
opaque delay : Nat → Nat
/-- IDPART.STEP, the silicon stepping (R29). -/
opaque stepping : BitVec 4
/-- The fused minimum firmware version MINVER (R398). -/
opaque fusedMinver : Word
/-- The vendor public key held in fuses (R397): the root and the public seed, the first byte the most significant. -/
opaque vendorRoot : BitVec 256
opaque vendorSeed : BitVec 256
/-- The device identity key (R401): the secret value of each chain of each one-time key, the public seed and the key of the randomiser. -/
opaque deviceSecret : Nat → Nat → BitVec 256
opaque deviceSeed : BitVec 256
opaque devicePrf : BitVec 256
/-- The secure range of a die (R400), which firmware fixes at boot: its first frame on the die and its frames. -/
opaque secureFirst : Nat → Nat
opaque secureFrames : Nat → Nat
/-- A transcendental result that the interval of R152 does not settle: function number, operand, free value. -/
opaque openRounding : Nat → Word → Bool

end Sys2Proof.Config
end

