-- ==== Sys2Proof/Machine/Maps.lean ====
section
/-! DEFINITION. Finite maps as sorted lists of numbered entries, the one canonical form of every table of the machine, and
the plain list functions the meanings share. -/

namespace Sys2Proof.Machine

/-- A finite map: numbered entries, keys strictly rising. -/
abbrev AMap (α : Type) := List (Nat × α)

/-- The entry of key k. -/
def amGet {α : Type} (k : Nat) : AMap α → Option α
  | [] => none
  | (i, v) :: m => if i = k then some v else amGet k m

/-- The map with entry k set to v. -/
def amPut {α : Type} (k : Nat) (v : α) : AMap α → AMap α
  | [] => [(k, v)]
  | (i, w) :: m => if k < i then (k, v) :: (i, w) :: m else if i = k then (k, v) :: m else (i, w) :: amPut k v m

/-- The map without entry k. -/
def amDel {α : Type} (k : Nat) (m : AMap α) : AMap α := m.filter (fun e => e.1 != k)

/-- The map with entry k, if present, changed by f. -/
def amMod {α : Type} (k : Nat) (f : α → α) (m : AMap α) : AMap α :=
  m.map (fun e => if e.1 = k then (e.1, f e.2) else e)

/-- Keys strictly rising: the canonical form. -/
def amSorted {α : Type} : AMap α → Bool
  | [] => true
  | [_] => true
  | (i, _) :: (j, w) :: m => decide (i < j) && amSorted ((j, w) :: m)

/-- The least number from n on that is no key. -/
def amFresh {α : Type} (m : AMap α) (n : Nat) : Nat :=
  m.foldl (fun k e => if e.1 = k then k + 1 else k) n

/-- The entry of key k in a map whose unlisted entries read as z. -/
def smGet {α : Type} (z : α) (k : Nat) (m : AMap α) : α := (amGet k m).getD z

/-- The map with entry k set to v, listing nothing that equals z. -/
def smPut {α : Type} [DecidableEq α] (z : α) (k : Nat) (v : α) (m : AMap α) : AMap α :=
  if v = z then amDel k m else amPut k v m

/-- The numbers lo, lo + 1, …, lo + n − 1. -/
def upFrom (lo : Nat) : Nat → List Nat
  | 0 => []
  | n + 1 => lo :: upFrom (lo + 1) n

/-- Element i of a list, or z past its end. -/
def nth {α : Type} (z : α) : List α → Nat → α
  | [], _ => z
  | a :: _, 0 => a
  | _ :: l, i + 1 => nth z l i

/-- The list with element i replaced. -/
def setNth {α : Type} (v : α) : List α → Nat → List α
  | [], _ => []
  | _ :: l, 0 => v :: l
  | a :: l, i + 1 => a :: setNth v l i

/-- Consecutive parts of n elements each (n not 0; fuel is the list's length). -/
def chunks {α : Type} (n : Nat) : Nat → List α → List (List α)
  | 0, _ => []
  | _, [] => []
  | f + 1, l => l.take n :: chunks n f (l.drop n)

/-- The element whose rank is least; of equal ranks, the first. -/
def minBy {α : Type} (rank : α → Nat) : List α → Option α
  | [] => none
  | a :: l => match minBy rank l with
    | none => some a
    | some b => if rank b < rank a then some b else some a

/-- The list sorted by rank, equal ranks kept in order (insertion). -/
def insertBy {α : Type} (le : α → α → Bool) (a : α) : List α → List α
  | [] => [a]
  | b :: l => if le a b then a :: b :: l else b :: insertBy le a l

/-- The list sorted by `le`, stably. -/
def sortBy {α : Type} (le : α → α → Bool) : List α → List α
  | [] => []
  | a :: l => insertBy le a (sortBy le l)

/-- Bits [hi:lo] of a doubleword, as a number. -/
def bitsOf (v : DWord) (hi lo : Nat) : Nat := v.toNat / 2 ^ lo % 2 ^ (hi + 1 - lo)

/-- A number as a doubleword, modulo 2^64. -/
def dw (n : Nat) : DWord := BitVec.ofNat 64 n

/-- A Boolean as 1 or 0. -/
def b2n (b : Bool) : Nat := if b then 1 else 0

/-- The smaller of n and the largest 64-bit value (a saturating count). -/
def sat64 (n : Nat) : Nat := min n (2 ^ 64 - 1)

end Sys2Proof.Machine
end

