-- ==== Sys2Proof/Machine/Float.lean ====
section
/-! DEFINITION. binary32 arithmetic (R8, R9, R137): exact values as dyadic numbers, one rounding, and the flags it sets. -/

namespace Sys2Proof.Machine

/-- The canonical NaN (R8). -/
def qnan : Word := 0x7FC00000

/-- FLAGS bits (R138) as numbers. -/
def fINV : Nat := 1
/-- DZ. -/
def fDZ : Nat := 2
/-- OF. -/
def fOF : Nat := 4
/-- UF. -/
def fUF : Nat := 8
/-- NX. -/
def fNX : Nat := 16
/-- SPO. -/
def fSPO : Nat := 32
/-- TAG. -/
def fTAG : Nat := 64

/-- What a binary32 word stands for: a finite value is (−1)^neg · m · 2^e. -/
inductive FVal where
  | nan
  | inf (neg : Bool)
  | fin (neg : Bool) (m : Nat) (e : Int)
  deriving DecidableEq, Repr

/-- A result with the FLAGS bits its computation sets. -/
structure FRes where
  w : Word
  fl : Nat
  deriving DecidableEq, Repr

/-- The sign bit of a word. -/
def signOf (w : Word) : Bool := w.getLsbD 31
/-- The word's exponent field. -/
def expOf (w : Word) : Nat := w.toNat / 2 ^ 23 % 256
/-- The word without its sign bit (R158 reads spread words so). -/
def unsign (w : Word) : Word := w &&& 0x7FFFFFFF
/-- A word is a NaN. -/
def isNan (w : Word) : Bool := decide (0x7F800000 < (unsign w).toNat)
/-- A word is an infinity. -/
def isInf (w : Word) : Bool := unsign w == 0x7F800000
/-- A word is a zero. -/
def isZero (w : Word) : Bool := unsign w == 0
/-- A signed zero. -/
def zeroOf (neg : Bool) : Word := if neg then 0x80000000 else 0
/-- A signed infinity. -/
def infOf (neg : Bool) : Word := if neg then 0xFF800000 else 0x7F800000

/-- The value of a word; a subnormal's exponent field reads as 1. -/
def fval (w : Word) : FVal :=
  if isNan w then .nan
  else if isInf w then .inf (signOf w)
  else
    let x := expOf w
    let f := w.toNat % 2 ^ 23
    if x = 0 then .fin (signOf w) f (-149) else .fin (signOf w) (2 ^ 23 + f) ((x : Int) - 150)

/-- m shifted so that it counts units of 2^k instead of 2^0 (k may be negative). -/
def shiftTo (m : Nat) (k : Int) : Nat := if 0 ≤ k then m / 2 ^ k.toNat else m * 2 ^ (-k).toNat

/-- The magnitude (m + sticky)·2^e, 0 < m, rounded to nearest even at p significand bits within the binary32 exponent range:
the number of quanta, the quantum's exponent, whether it is inexact, whether it is tiny. `sticky` stands for a part below
m's last bit that is not zero; then m has more than p bits. -/
def roundAt (p : Nat) (m : Nat) (e : Int) (sticky : Bool) : Nat × Int × Bool × Bool :=
  let top : Int := (Nat.log2 m : Int) + e
  let q : Int := max top (-126) - ((p : Int) - 1)
  let k : Int := q - e
  if k ≤ 0 then (m * 2 ^ (-k).toNat, q, sticky, decide (top < -126))
  else
    let u := 2 ^ k.toNat
    let d := m / u
    let r := m % u
    let up := decide (u < 2 * r) || (decide (2 * r = u) && (sticky || d % 2 == 1))
    (if up then d + 1 else d, q, decide (r ≠ 0) || sticky, decide (top < -126))

/-- The word of n quanta of 2^q, with n at most 2^p; q is at least −149 for p = 24, and a smaller p leaves low bits 0. -/
def packAt (n : Nat) (q : Int) : Nat :=
  if n = 0 then 0
  else
    let l := Nat.log2 n
    -- bring n to 24 bits, or to quantum 2^-149
    let s : Int := min (23 - (l : Int)) (q + 149)
    let n' := shiftTo n (-s)
    let q' := q - s
    ((q' + 149).toNat) * 2 ^ 23 + n'

/-- RNE32 of a magnitude with a sign, with OF, UF and NX (R137). -/
def roundMag (p : Nat) (neg : Bool) (m : Nat) (e : Int) (sticky : Bool) : FRes :=
  if m = 0 then ⟨zeroOf neg, 0⟩
  else
    let (n, q, nx, tiny) := roundAt p m e sticky
    let bits := packAt n q
    if 0x7F800000 ≤ bits then ⟨infOf neg, fOF + fNX⟩
    else ⟨BitVec.ofNat 32 bits ||| zeroOf neg, if nx then (if tiny then fUF + fNX else fNX) else 0⟩

/-- RNE32 of the exact dyadic n·2^e; `zneg` is the sign of an exact zero. -/
def roundDy (n : Int) (e : Int) (zneg : Bool) : FRes :=
  if n = 0 then ⟨zeroOf zneg, 0⟩ else roundMag 24 (decide (n < 0)) n.natAbs e false

/-- A signed magnitude as an integer. -/
def signed (neg : Bool) (m : Nat) : Int := if neg then -(m : Int) else m

/-- The exact sum of two dyadics, as a dyadic at the lesser exponent. -/
def dyAdd (n : Int) (e : Int) (k : Int) (f : Int) : Int × Int :=
  if e ≤ f then (n + k * 2 ^ (f - e).toNat, e) else (n * 2 ^ (e - f).toNat + k, f)

/-- An invalid operation's result (R137). -/
def invalid : FRes := ⟨qnan, fINV⟩

/-- FADD's rounding rule on two words (R137, R146). -/
def fAdd (a b : Word) : FRes :=
  match fval a, fval b with
  | .nan, _ => ⟨qnan, 0⟩
  | _, .nan => ⟨qnan, 0⟩
  | .inf x, .inf y => if x == y then ⟨infOf x, 0⟩ else invalid
  | .inf x, _ => ⟨infOf x, 0⟩
  | _, .inf y => ⟨infOf y, 0⟩
  | .fin x m e, .fin y n f =>
    let (k, g) := dyAdd (signed x m) e (signed y n) f
    roundDy k g (x && y && m == 0 && n == 0)

/-- The word with its sign inverted; a NaN is canonical. -/
def fNeg (a : Word) : Word := if isNan a then qnan else a ^^^ 0x80000000

/-- FSUB (R146). -/
def fSub (a b : Word) : FRes := fAdd a (fNeg b)

/-- FMUL (R146). -/
def fMul (a b : Word) : FRes :=
  match fval a, fval b with
  | .nan, _ => ⟨qnan, 0⟩
  | _, .nan => ⟨qnan, 0⟩
  | .inf x, .inf y => ⟨infOf (x != y), 0⟩
  | .inf x, .fin y n _ => if n = 0 then invalid else ⟨infOf (x != y), 0⟩
  | .fin x m _, .inf y => if m = 0 then invalid else ⟨infOf (x != y), 0⟩
  | .fin x m e, .fin y n f => roundMag 24 (x != y) (m * n) (e + f) false

/-- FMA: a·b + c with one rounding (R146). -/
def fFma (a b c : Word) : FRes :=
  match fval a, fval b, fval c with
  | .inf _, .fin _ n _, c => if n = 0 then invalid else match c with
      | .nan => ⟨qnan, 0⟩
      | .inf z => if z == (signOf a != signOf b) then ⟨infOf z, 0⟩ else invalid
      | .fin .. => ⟨infOf (signOf a != signOf b), 0⟩
  | .fin _ m _, .inf _, c => if m = 0 then invalid else match c with
      | .nan => ⟨qnan, 0⟩
      | .inf z => if z == (signOf a != signOf b) then ⟨infOf z, 0⟩ else invalid
      | .fin .. => ⟨infOf (signOf a != signOf b), 0⟩
  | .nan, _, _ => ⟨qnan, 0⟩
  | _, .nan, _ => ⟨qnan, 0⟩
  | .inf x, .inf y, c => match c with
      | .nan => ⟨qnan, 0⟩
      | .inf z => if z == (x != y) then ⟨infOf z, 0⟩ else invalid
      | .fin .. => ⟨infOf (x != y), 0⟩
  | .fin .., .fin .., .nan => ⟨qnan, 0⟩
  | .fin .., .fin .., .inf z => ⟨infOf z, 0⟩
  | .fin x m e, .fin y n f, .fin z k g =>
    let (t, h) := dyAdd (signed (x != y) (m * n)) (e + f) (signed z k) g
    roundDy t h ((x != y) && z && (m == 0 || n == 0) && k == 0)

/-- The quotient of magnitudes m·2^e / n·2^f (n not 0), with enough bits and a sticky rest. -/
def divMag (neg : Bool) (m : Nat) (e : Int) (n : Nat) (f : Int) : FRes :=
  let k := Nat.log2 n + 64
  roundMag 24 neg (m * 2 ^ k / n) (e - f - k) (m * 2 ^ k % n != 0)

/-- SFPU.DIV's quotient (R114): the flags tell an invalid operation and a division of a finite non-zero value by zero. -/
def fDiv (a b : Word) : FRes :=
  match fval a, fval b with
  | .nan, _ => ⟨qnan, 0⟩
  | _, .nan => ⟨qnan, 0⟩
  | .inf _, .inf _ => invalid
  | .inf x, .fin y _ _ => ⟨infOf (x != y), 0⟩
  | .fin x _ _, .inf y => ⟨zeroOf (x != y), 0⟩
  | .fin x m e, .fin y n f =>
    if n = 0 then (if m = 0 then invalid else ⟨infOf (x != y), fDZ⟩)
    else if m = 0 then ⟨zeroOf (x != y), 0⟩ else divMag (x != y) m e n f

/-- The order of two numbers that are not NaN, −0 below +0 (R147): as integers that rise with the value. -/
def ordKey (w : Word) : Int := if signOf w then -((unsign w).toNat : Int) - 1 else (unsign w).toNat

/-- IEEE 754 comparison with −0 equal to +0; false for a NaN (R148). -/
def fLt (a b : Word) : Bool := !isNan a && !isNan b && !(isZero a && isZero b) && decide (ordKey a < ordKey b)
/-- IEEE 754 equality; false for a NaN. -/
def fEq (a b : Word) : Bool := !isNan a && !isNan b && ((isZero a && isZero b) || a == b)
/-- IEEE 754 less or equal; false for a NaN. -/
def fLe (a b : Word) : Bool := fLt a b || fEq a b

/-- Which operand FMIN (`less`) or FMAX returns (R147): none for two NaNs, false for a, true for b. -/
def pickB (less : Bool) (a b : Word) : Option Bool :=
  if isNan a && isNan b then none
  else if isNan a then some true
  else if isNan b then some false
  else if less then some (decide (ordKey b < ordKey a)) else some (decide (ordKey a < ordKey b))

/-- FMIN or FMAX of two words alone. -/
def fPick (less : Bool) (a b : Word) : Word :=
  match pickB less a b with
  | none => qnan
  | some true => b
  | some false => a

/-- RNE32 of an integer. -/
def fOfInt (n : Int) : FRes := roundDy n 0 false

/-- A finite value's integer part by a rounding: 0 toward zero, 1 to nearest even, 2 toward −infinity; and whether it differs
from the value. -/
def toIntegral (how : Nat) (neg : Bool) (m : Nat) (e : Int) : Int × Bool :=
  if 0 ≤ e then (signed neg (m * 2 ^ e.toNat), false)
  else
    let u := 2 ^ (-e).toNat
    let d := m / u
    let r := m % u
    let up := match how with
      | 0 => false
      | 1 => decide (u < 2 * r) || (decide (2 * r = u) && d % 2 == 1)
      | _ => neg && r != 0
    (signed neg (if up then d + 1 else d), decide (r ≠ 0))

/-- A float converted to an integer of [lo, hi], saturating, with INV and NX (R152); NaN gives 0. -/
def fToInt (how : Nat) (lo hi : Int) (a : Word) : Int × Nat :=
  match fval a with
  | .nan => (0, fINV)
  | .inf neg => (if neg then lo else hi, fINV)
  | .fin neg m e =>
    let (n, nx) := toIntegral how neg m e
    if n < lo then (lo, fINV) else if hi < n then (hi, fINV) else (n, if nx then fNX else 0)

/-- FRINT, FFLOOR, FTRUNC: an integral value, never inexact, a zero keeping the sign of x (R152). -/
def fIntegral (how : Nat) (a : Word) : FRes :=
  match fval a with
  | .nan => ⟨qnan, 0⟩
  | .inf neg => ⟨infOf neg, 0⟩
  | .fin neg m e => let n := (toIntegral how neg m e).1; ⟨(roundDy n 0 neg).w, 0⟩

/-- RND's mean: p significand bits (R153); a value below 2^−126 that changes is an underflow too (R137). -/
def fRound (p : Nat) (a : Word) : FRes :=
  match fval a with
  | .nan => ⟨qnan, 0⟩
  | .inf neg => ⟨infOf neg, 0⟩
  | .fin neg m e => roundMag p neg m e false

/-- A power of two as a binary32 word (exact within the range, 0 below it). -/
def pow2 (k : Int) : Word := (roundMag 24 false 1 k false).w

/-- ULP(x, p) of R8. -/
def ulp (x : Word) (p : Nat) : Word :=
  match fval x with
  | .nan => qnan
  | .inf _ => pow2 (127 - ((p : Int) - 1))
  | .fin _ m e => pow2 ((if m = 0 then -126 else max ((Nat.log2 m : Int) + e) (-126)) - ((p : Int) - 1))

/-- A(u), the rounding-variance term (R159). -/
def roundVar (u : Word) : Word := (fMul (fMul u u).w 0x3DAAAAAB).w

end Sys2Proof.Machine
end

