-- ==== Sys2Proof/Machine/Functions.lean ====
section
/-! DEFINITION. The function unit (R151, R152) and the derivatives of R158. An algebraic result is computed exactly; a
transcendental one is enclosed between two numbers, and where both round alike that is the result. -/

namespace Sys2Proof.Machine

/-- A positive real number between lo·2^e and hi·2^e. -/
structure Encl where
  lo : Nat
  hi : Nat
  e : Int
  deriving DecidableEq, Repr

/-- ⌊ln 2 · 2^256⌋. -/
def ln2Bits : Nat := 0xb17217f7d1cf79abc9e3b39803f2f6af40f343267298b62d8a0d175b8baafa2b
/-- ⌊π · 2^256⌋. -/
def piBits : Nat := 0x3243f6a8885a308d313198a2e03707344a4093822299f31d0082efa98ec4e6c89

/-- RNE32 of an enclosed irrational number: inexact, and the word both ends round to; where they differ the choice is free
(Config.openRounding, by function number and operand). -/
def roundEncl (fn : Nat) (x : Word) (neg : Bool) (v : Encl) : FRes :=
  let a := roundMag 24 neg v.lo v.e true
  let b := roundMag 24 neg v.hi v.e true
  if a.w = b.w then ⟨a.w, a.fl ||| fNX⟩
  else if Config.openRounding fn x then ⟨a.w, a.fl ||| fNX⟩ else ⟨b.w, b.fl ||| fNX⟩

/-- The greatest r with r·r ≤ n, from its highest bit 2^k down. -/
def isqrtFrom : Nat → Nat → Nat → Nat
  | 0, n, r => if (r + 1) * (r + 1) ≤ n then r + 1 else r
  | k + 1, n, r => isqrtFrom k n (if (r + 2 ^ (k + 1)) * (r + 2 ^ (k + 1)) ≤ n then r + 2 ^ (k + 1) else r)

/-- The integer square root. -/
def isqrt (n : Nat) : Nat := isqrtFrom (Nat.log2 n / 2 + 1) n 0

/-- The square root of m·2^e (m not 0), rounded. -/
def sqrtMag (m : Nat) (e : Int) : FRes :=
  let sh : Nat := if (e - 64) % 2 = 0 then 64 else 65
  let m' := m * 2 ^ sh
  let r := isqrt m'
  roundMag 24 false r ((e - (sh : Int)) / 2) (r * r != m')

/-- 1/√(m·2^e) (m not 0), rounded. -/
def rsqrtMag (neg : Bool) (m : Nat) (e : Int) : FRes :=
  let sh : Nat := if (e - 130) % 2 = 0 then 130 else 131
  let q := 2 ^ sh / m
  let r := isqrt q
  roundMag 24 neg r ((-e - (sh : Int)) / 2) (r * r * m != 2 ^ sh)

/-- Σ of a power series: term k + 1 is term k times y / (2^p · d(k)); n terms. -/
def series (y p : Nat) (d : Nat → Nat) : Nat → Nat → Nat → Nat
  | 0, _, _ => 0
  | n + 1, k, t => t + series y p d n (k + 1) (t * y / 2 ^ p / d k)

/-- Σ of an alternating series, even terms and odd terms apart. -/
def seriesAlt (y p : Nat) (d : Nat → Nat) : Nat → Nat → Nat → Nat × Nat
  | 0, _, _ => (0, 0)
  | n + 1, k, t => let (a, b) := seriesAlt y p d n (k + 1) (t * y / 2 ^ p / d k); (t + b, a)

/-- 2^(g/2^256) for 0 ≤ g < 2^256, times 2^256, enclosed. -/
def exp2Encl (g : Nat) : Nat × Nat :=
  let y := g * ln2Bits / 2 ^ 256
  let v := series y 256 (fun k => k + 1) 70 0 (2 ^ 256)
  (v - 2 ^ 16, v + 2 ^ 16)

/-- ⌊m·2^e · 2^256⌋, for a value whose bits below 2^−256 are 0 or may be enclosed by one unit. -/
def fixed256 (m : Nat) (e : Int) : Nat := shiftTo m (-(e + 256))

/-- 2^x for finite x = (−1)^neg m 2^e with |x| < 2^20, as an enclosure. -/
def pow2Encl (neg : Bool) (m : Nat) (e : Int) : Encl :=
  let v : Int := signed neg (fixed256 m e)
  let n := v / 2 ^ 256
  let g := (v % 2 ^ 256).toNat
  let (lo, hi) := exp2Encl g
  ⟨lo - 2 ^ 8, hi + 2 ^ 8, n - 256⟩

/-- x = (−1)^neg m 2^e is an integer. -/
def isIntegral (m : Nat) (e : Int) : Bool := decide (0 ≤ e) || m % 2 ^ (-e).toNat == 0

/-- ln t · 2^256 for t = m / 2^l in [1, 2), enclosed: 2·atanh((t − 1)/(t + 1)). -/
def lnEncl (m l : Nat) : Nat × Nat :=
  let z := (m - 2 ^ l) * 2 ^ 256 / (m + 2 ^ l)
  let y := z * z / 2 ^ 256
  -- Σ z^(2k+1)/(2k+1): powers first, each divided as it is added
  let v := (upFrom 0 90).foldl (fun r k => (r.1 + r.2 / (2 * k + 1), r.2 * y / 2 ^ 256)) (0, z)
  (2 * v.1, 2 * v.1 + 2 ^ 16)

/-- log2 x · 2^256 of x = m·2^e (m not 0), as a signed enclosure (lower, upper). -/
def log2Encl (m : Nat) (e : Int) : Int × Int :=
  let l := Nat.log2 m
  let (a, b) := lnEncl m l
  let lo : Nat := a * 2 ^ 256 / (ln2Bits + 1)
  let hi : Nat := b * 2 ^ 256 / ln2Bits + 1
  (((l : Int) + e) * 2 ^ 256 + lo, ((l : Int) + e) * 2 ^ 256 + hi)

/-- sin and cos of the angle θ/2^256 in [0, π/4], times 2^256, enclosed. -/
def sinSmall (th : Nat) : Nat × Nat :=
  let y := th * th / 2 ^ 256
  let (a, b) := seriesAlt y 256 (fun k => (2 * k + 2) * (2 * k + 3)) 40 0 th
  (a - b - 2 ^ 16, a - b + 2 ^ 16)

/-- See `sinSmall`. -/
def cosSmall (th : Nat) : Nat × Nat :=
  let y := th * th / 2 ^ 256
  let (a, b) := seriesAlt y 256 (fun k => (2 * k + 1) * (2 * k + 2)) 40 0 (2 ^ 256)
  (a - b - 2 ^ 16, a - b + 2 ^ 16)

/-- sin(2πx) (or the cosine) at the turn t = x mod 1, given in units of 2^−256: the exact values −1, 0, 1, or the sign and the
enclosure of the magnitude. -/
inductive Turn where
  | exact (n : Int)
  | encl (neg : Bool) (v : Encl)
  deriving DecidableEq, Repr

/-- sin of a turn (R152). Within 2^−128 of a zero the angle's series is its first term to well past 24 bits. -/
def sinTurn (t : Nat) : Turn :=
  let q := 2 ^ 254
  let k := t / q % 4
  let r := t % q
  if r = 0 then .exact (match k with | 0 => 0 | 1 => 1 | 2 => 0 | _ => -1)
  else
    -- distance to the nearest zero (k even) or the complement
    let a := if k % 2 = 0 then r else q - r
    let two (u : Nat) : Nat := 2 * u * piBits / 2 ^ 256
    let v : Encl :=
      if a < 2 ^ 192 then let c := 2 * a * piBits; ⟨c - c / 2 ^ 100, c + 2 * a, -512⟩
      else if 2 * a ≤ q then let p := sinSmall (two a); ⟨p.1 - 2 ^ 16, p.2 + 2 ^ 16, -256⟩
      else let p := cosSmall (two (q - a)); ⟨p.1 - 2 ^ 16, p.2 + 2 ^ 16, -256⟩
    .encl (decide (2 ≤ k)) v

/-- The turn of x: (−1)^neg m 2^e mod 1 in units of 2^−256. -/
def turnOf (neg : Bool) (m : Nat) (e : Int) : Nat := (signed neg (fixed256 m e) % 2 ^ 256).toNat

/-- sin(2πx), x finite. -/
def fSin (x : Word) (neg : Bool) (m : Nat) (e : Int) : FRes :=
  match sinTurn (turnOf neg m e) with
  | .exact 0 => ⟨zeroOf neg, 0⟩
  | .exact n => roundDy n 0 false
  | .encl sg v => roundEncl 5 x sg v

/-- cos(2πx), x finite: the sine a quarter turn on. -/
def fCos (x : Word) (neg : Bool) (m : Nat) (e : Int) : FRes :=
  -- the cosine of a small angle is 1 less a square, which the sine of the shifted turn encloses
  match sinTurn ((turnOf neg m e + 2 ^ 254) % 2 ^ 256) with
  | .exact n => roundDy n 0 false
  | .encl sg v => roundEncl 6 x sg v

/-- e^(−2|x|) for x = m 2^e with |x| < 2^20, as an enclosure. -/
def expMinus2 (m : Nat) (e : Int) : Encl :=
  -- −2|x| / ln 2 turned into a power of 2
  let a := fixed256 (2 * m) e
  let lo : Nat := a * 2 ^ 256 / (ln2Bits + 1)
  let v : Int := -(lo : Int)
  let n := v / 2 ^ 256
  let (p, q) := exp2Encl (v % 2 ^ 256).toNat
  ⟨p - 2 ^ 40, q + 2 ^ 8, n - 256⟩

/-- tanh x, x finite and not zero: below 2^−13 it lies between |x| − |x|³/3 and |x|, from 16 on between 1 − 2^−30 and 1. -/
def fTanh (x : Word) (neg : Bool) (m : Nat) (e : Int) : FRes :=
  let top := (Nat.log2 m : Int) + e
  if top < -13 then roundMag 24 neg (m * 2 ^ 40 - 1) (e - 40) true
  else if 4 ≤ top then roundMag 24 neg (2 ^ 40 - 1) (-40) true
  else
    let v := expMinus2 m e
    -- bring to units of 2^−256
    let lo := shiftTo v.lo (-(v.e + 256))
    let hi := shiftTo v.hi (-(v.e + 256)) + 1
    roundEncl 7 x neg ⟨(2 ^ 256 - hi) * 2 ^ 256 / (2 ^ 256 + hi), (2 ^ 256 - lo) * 2 ^ 256 / (2 ^ 256 + lo) + 1, -256⟩

/-- The FP-result functions of R151 with the special cases of R152, by fn6 0 to 7. -/
def fnu (fn : Nat) (x : Word) : FRes :=
  match fn, fval x with
  | _, .nan => ⟨qnan, 0⟩
  | 0, .inf n => ⟨zeroOf n, 0⟩
  | 0, .fin n m e => if m = 0 then ⟨infOf n, fDZ⟩ else divMag n 1 0 m e
  | 1, .inf n => if n then invalid else ⟨0, 0⟩
  | 1, .fin n m e => if m = 0 then ⟨infOf n, fDZ⟩ else if n then invalid else rsqrtMag false m e
  | 2, .inf n => if n then invalid else ⟨infOf false, 0⟩
  | 2, .fin n m e => if m = 0 then ⟨zeroOf n, 0⟩ else if n then invalid else sqrtMag m e
  | 3, .inf n => if n then ⟨0, 0⟩ else ⟨infOf false, 0⟩
  | 3, .fin n m e =>
    if m = 0 then ⟨pow2 0, 0⟩
    else if 8 ≤ (Nat.log2 m : Int) + e then (if n then ⟨0, fUF + fNX⟩ else ⟨infOf false, fOF + fNX⟩)
    else if isIntegral m e then roundMag 24 false 1 (toIntegral 0 n m e).1 false
    else if (Nat.log2 m : Int) + e < -60 then
      (if n then roundMag 24 false (2 ^ 50 - 1) (-50) true else roundMag 24 false (2 ^ 50) (-50) true)
    else roundEncl 3 x false (pow2Encl n m e)
  | 4, .inf n => if n then invalid else ⟨infOf false, 0⟩
  | 4, .fin n m e =>
    if m = 0 then ⟨infOf true, fDZ⟩ else if n then invalid
    else if m = 2 ^ Nat.log2 m then fOfInt ((Nat.log2 m : Int) + e)
    else
      let (lo, hi) := log2Encl m e
      if 0 ≤ lo then roundEncl 4 x false ⟨lo.toNat, hi.toNat, -256⟩
      else roundEncl 4 x true ⟨(-hi).toNat, (-lo).toNat, -256⟩
  | 5, .inf _ => invalid
  | 5, .fin n m e => if m = 0 then ⟨zeroOf n, 0⟩ else fSin x n m e
  | 6, .inf _ => invalid
  | 6, .fin n m e => fCos x n m e
  | _, .inf n => ⟨pow2 0 ||| zeroOf n, 0⟩
  | _, .fin n m e => if m = 0 then ⟨zeroOf n, 0⟩ else fTanh x n m e

/-- An enclosure times a positive constant c/2^256 known to one unit. -/
def Encl.scale (v : Encl) (c : Nat) : Encl := ⟨v.lo * c, v.hi * (c + 1), v.e - 256⟩

/-- The derivative g of the function numbered as in `fnu`, at the mean (R158). -/
def derivative (fn : Nat) (x : Word) : Word :=
  match fn, fval x with
  | _, .nan => qnan
  | 0, .inf _ => zeroOf true
  | 0, .fin _ m e => if m = 0 then infOf true else (divMag true 1 0 (m * m) (2 * e)).w
  | 1, .inf n => if n then qnan else zeroOf true
  | 1, .fin n m e => if m = 0 then infOf true else if n then qnan else (rsqrtMag true (m * m * m) (3 * e + 2)).w
  | 2, .inf n => if n then qnan else 0
  | 2, .fin n m e => if m = 0 then infOf false else if n then qnan else (rsqrtMag false m (e + 2)).w
  | 3, .inf n => if n then 0 else infOf false
  | 3, .fin n m e =>
    if 9 ≤ (Nat.log2 m : Int) + e ∧ m ≠ 0 then (if n then 0 else infOf false)
    else (roundEncl 19 x false ((pow2Encl n m e).scale ln2Bits)).w
  | 4, .inf n => if n then qnan else 0
  | 4, .fin n m e => if m = 0 then infOf n else if n then qnan
      else (roundEncl 20 x false ⟨2 ^ 600 / (m * (ln2Bits + 1)), 2 ^ 600 / (m * ln2Bits) + 1, -344 - e⟩).w
  | 5, .inf _ => qnan
  | 5, .fin n m e => match sinTurn ((turnOf n m e + 2 ^ 254) % 2 ^ 256) with
    | .exact 0 => 0
    | .exact k => (roundEncl 21 x (decide (k < 0)) ⟨2 * piBits, 2 * piBits + 2, -256⟩).w
    | .encl sg v => (roundEncl 21 x sg (v.scale (2 * piBits))).w
  | 6, .inf _ => qnan
  | 6, .fin n m e => match sinTurn (turnOf n m e) with
    | .exact 0 => 0
    | .exact k => (roundEncl 22 x (decide (0 < k)) ⟨2 * piBits, 2 * piBits + 2, -256⟩).w
    | .encl sg v => (roundEncl 22 x (!sg) (v.scale (2 * piBits))).w
  | _, .inf _ => 0
  | _, .fin _ m e =>
    let top := (Nat.log2 m : Int) + e
    if m = 0 then pow2 0
    else if top < -14 then (roundMag 24 false (2 ^ 40 - 1) (-40) true).w
    else if 6 ≤ top then 0
    else
      let v := expMinus2 m e
      let lo := shiftTo v.lo (-(v.e + 256))
      let hi := shiftTo v.hi (-(v.e + 256)) + 1
      (roundEncl 23 x false ⟨4 * v.lo * 2 ^ 512 / ((2 ^ 256 + hi) * (2 ^ 256 + hi)),
        4 * v.hi * 2 ^ 512 / ((2 ^ 256 + lo) * (2 ^ 256 + lo)) + 1, v.e⟩).w

/-- Count of leading zeros of a word (R151). -/
def clz32 (w : Word) : Nat := if w = 0 then 32 else 31 - Nat.log2 w.toNat
/-- Count of one bits. -/
def popc32 (w : Word) : Nat := (upFrom 0 32).foldl (fun n i => n + b2n (w.getLsbD i)) 0
/-- The word with its bits in reverse order. -/
def brev32 (w : Word) : Word := BitVec.ofNat 32 ((upFrom 0 32).foldl (fun n i => 2 * n + b2n (w.getLsbD i)) 0)

end Sys2Proof.Machine
end

