-- ==== Sys2Proof/Machine/State.lean ====
section
/-! DEFINITION. The state of the DZP-9100 as plain data: teams and fragments, operations in flight, memory and what the
memory model needs of its past, translation, logs, engines, command processor, fabric, debug and boot. Fault and Refusal. -/

namespace Sys2Proof.Machine

/-- Why a step stops. -/
inductive Fault where
  /-- An Ezold instruction was executed with no fragment selected (`State.cur`): no run of `step` does this. Safe. -/
  | noFragment
  /-- A microinstruction was executed with no context selected (`State.curCrl`): no run of `step` does this. Safe. -/
  | noContext
  deriving DecidableEq, Repr

/-- Why a step has no meaning here. -/
inductive Refusal where
  /-- An instruction the model does not yet give a meaning, by the opcode table's mnemonic. Raised by Dispatch alone. Safe. -/
  | notModelled (mnemonic : String)
  deriving DecidableEq, Repr

/-- The clause a fragment is in (R76): the header's address and its word. -/
structure ClauseSt where
  hdr : DWord
  word : Word
  deriving DecidableEq, Repr

/-- A crossbar pattern (R117): kind 0 rotate, 1 broadcast, 2 butterfly, 3 mirror, with its parameter. -/
structure Pattern where
  kind : BitVec 2
  n : BitVec 5
  deriving DecidableEq, Repr

/-- Why a fragment is not ready, other than by its engine (R101). -/
inductive Wait where
  /-- It does not wait. -/
  | run
  /-- At the clause header its PC names, whose word is given; `clear` is the tick at which the flags it names became clear (R76). -/
  | header (word : Word) (clear : Option Nat)
  /-- At RCV on its entry (R96). -/
  | rcv
  /-- In CTR.WAIT, until its operation returns (R122). -/
  | ctr (op : Nat)
  /-- In BAR on barrier n until the counter reaches the target (R52). -/
  | bar (n : Nat) (target : Nat)
  /-- In FENCE, until its operation's conditions hold (R41). -/
  | fence (op : Nat)
  /-- In SVC n with arguments a and b, the call's issue number, and by address the statuses it has met: for POOLMAP that it
  has joined an arrival and how that ended, for PREFETCH the pages that could not be mapped (R128, R295, R296). -/
  | svc (n : Nat) (a : DWord) (b : DWord) (call : Nat) (notes : List (Nat × Nat))
  /-- In the fault merge table on an entry, with `va` the address named; `how` is 0 for an instruction of one pass, 1 for a pass
  over lanes, 2 for a fetch, 3 for KPUSH, 4 for a matrix instruction (R94, R260, R287). -/
  | merge (entry : Nat) (va : DWord) (how : Nat)
  /-- In MMAQ or MACC.TREE until its partners have issued (R263, R274). -/
  | matrix (op : Nat)
  /-- Held with its trap pending while the team has a handler fragment (R124). -/
  | trapped
  deriving DecidableEq, Repr

/-- What a trap writes (R124, R126), and its tick. -/
structure TrapRec where
  hcause : DWord
  haddr : DWord
  hpc : DWord
  hinfo : DWord
  hdpc : DWord
  tick : Nat
  deriving DecidableEq, Repr

/-- The first watchpoint hit of an instruction (R392): the watchpoint's number, its address, the pass's lowest hitting lane and its
mask word. -/
structure WpHit where
  n : Nat
  addr : DWord
  lane : Nat
  word : Nat
  /-- The debug unit takes it: it has led to a stop, and to no trap. -/
  taken : Bool
  deriving DecidableEq, Repr

/-- A fragment (R92, R94, R105). -/
structure Frag where
  team : Nat
  pc : DWord
  /-- The address it would go on at, computed without wrap, lies outside 0 to 2^64 − 1; `pc` holds its low 64 bits (R63, R68). -/
  beyond : Bool
  mask : LaneMask
  /-- ENTRY: index of its kettle entry (R95). -/
  entry : Option Nat
  /-- PENDING (R94). -/
  pending : Option DWord
  clause : ClauseSt
  /-- The issue key (R101). -/
  key : Nat
  /-- The next mask word of an instruction with passes outstanding or resumed at a saved pass (R93, R129). -/
  pass : Nat
  /-- An instruction of this fragment has passes outstanding (R102). -/
  mid : Bool
  wait : Wait
  /-- A control transfer has reached PC from this address, so a header must stand there (R75). -/
  xfer : Option DWord
  /-- A supervisor-handler fragment (R124). -/
  handler : Bool
  /-- The trap held while the team has a handler fragment (R124). -/
  held : Option TrapRec
  /-- Deferred traps not yet taken (R122). -/
  deferred : List TrapRec
  /-- The instruction word last fetched for it (its instruction register; HINFO of R125 holds it). -/
  iword : Word
  /-- The flag with which its instruction with passes outstanding is tagged (R77). -/
  tagging : Option Nat
  /-- What the first pass of its instruction has read or taken for all of them (R79, R120, R178). -/
  latch : DWord
  /-- The lanes whose condition the passes of its instruction so far have found true (R95, R120). -/
  taken : LaneMask
  /-- It has arrived at RCV on its entry (R96). -/
  arrived : Bool
  /-- The governor has delayed its next instruction, and STALLS has counted it (R275). -/
  delayed : Bool
  /-- The first watchpoint hit of its instruction (R392). -/
  hit : Option WpHit
  /-- A debug stop to be taken at this pass boundary: CAUSE of the skid record (R393). -/
  stopFor : Option Nat
  /-- Stopped by the debug unit (R393). -/
  frozen : Bool
  /-- Passes it has issued since the tick of the stop's trigger (R393), or of the step (R394). -/
  skid : Nat
  /-- It issues the passes of one instruction for a STEP (R394), since this tick. -/
  stepping : Option Nat
  /-- The issue number at which its latest STEP began (R394). -/
  stepSeq : Nat
  deriving DecidableEq, Repr

/-- A kettle entry (R95, R99). -/
structure Entry where
  raddr : DWord
  parent : Option Nat
  out : Nat
  serial : Bool
  freed : Bool
  dstarted : Bool
  dpc : DWord
  dclause : ClauseSt
  /-- DMASK, or AMASK once the deferred side has started (R99). -/
  dmask : LaneMask
  deriving DecidableEq, Repr

/-- A team's trap frame (R124): the trapped fragment, the handler's entry mask and HPC as the trap wrote it (R129). -/
structure Frame where
  saved : Frag
  hmask : LaneMask
  hpc0 : DWord
  deriving DecidableEq, Repr

/-- A Peal stream slot (R207). -/
structure Stream where
  key : PealKey
  pos : DWord
  deriving DecidableEq, Repr

/-- The stamps of an accumulator tile (R396). -/
structure Stamps where
  cin : Nat
  owait : Nat
  mcomp : Nat
  first : Nat
  /-- The issue number of its first operation: the team handed over the quires before it that have lower numbers. -/
  ord : Nat
  deriving DecidableEq, Repr

/-- A team (R105, R109). Lane registers are keyed 64·lane + register; scalars, tile shapes and the handler bank by number. -/
structure Team where
  unit : Nat
  /-- Team index within the unit. -/
  idx : Nat
  lanes : Nat
  regs : Nat
  gcore : Nat
  tslot : Nat
  d : AMap DWord
  s : AMap DWord
  /-- The handler bank of s24 to s31 (R127). -/
  hb : AMap DWord
  ts : AMap DWord
  lscale : Word
  ovf : DWord
  flags : DWord
  /-- By flag: the first tick from which its latest clearing counts for header waits (R76). -/
  clearAt : AMap Nat
  x1 : Pattern
  x2 : Pattern
  x3 : Pattern
  /-- The team's view of the unit's k-registers (R106). -/
  kview : AMap DWord
  /-- Hardware kettle slots, lowest first; the slots below them are spilled (R98). -/
  kettle : List Entry
  ksp : Nat
  /-- By entry number: where the taken side of a serial entry goes on whose deferred side has started (R96, R97). -/
  rcvAt : AMap (DWord × ClauseSt)
  ksb : DWord
  ksz : DWord
  tsb : DWord
  frame : Option Frame
  hcause : DWord
  haddr : DWord
  hpc : DWord
  hinfo : DWord
  hdpc : DWord
  hsel : Nat
  /-- HCTL.STOP (R130). -/
  stop : Bool
  /-- The lanes that have executed EXIT (R112). -/
  left : LaneMask
  exited : Bool
  /-- Noise stream slots n0 to n7 (R207). -/
  noise : AMap Stream
  /-- TAGCTR: the next tag, 256 when exhausted (R164). -/
  tagctr : Nat
  /-- Declared accumulator tiles (R252). -/
  accCount : Nat
  /-- Its tiles have been written to memory to make room for another context's (R133). -/
  accOut : Bool
  /-- Tiles a0 upwards: 1,024 elements in ascending (r, c), mean word low and variance word high; an unlisted tile is +0
  throughout (R252, R253). -/
  acc : AMap (List DWord)
  /-- The open batch (R265). -/
  batch : Nat
  /-- Colophon stamps by tile, and the tick of the latest completion of a quire the team handed over (R396). -/
  stamps : AMap Stamps
  quireTick : Nat
  deriving DecidableEq, Repr

/-- Where an observer or a releasing agent stands (R37, R45, R57). -/
inductive Pos where
  /-- On a global core. -/
  | core (g : Nat)
  /-- A cluster's agent (cluster 0 to 95). -/
  | cluster (c : Nat)
  /-- A die's engine. -/
  | die (d : Nat)
  /-- The host or a fabric peer. -/
  | outside
  deriving DecidableEq, Repr

/-- A release (R41, R44): who, where, at which scope, whether FULL, whether it orders all that the agent did or only the
operation of an engine that it reports, and the counter and result it was made on. -/
structure Release where
  agent : Nat
  pos : Pos
  scope : Nat
  full : Bool
  all : Bool
  counter : Option (Nat × Nat)
  deriving DecidableEq, Repr

/-- One write to memory (R36): its stamp, its first byte's address, the bytes it replaced, its writer and the other agents whose writes
it stands for (R198, R311), the releases that ordered it (R42, R44), the agents that it happens before (R47) and the agents that
have read it (R42). -/
structure WriteRec where
  stamp : Nat
  addr : Nat
  old : List Byte
  writer : Nat
  also : List Nat
  rel : List Nat
  acq : List Nat
  readBy : List Nat
  /-- The release of a set-full store's write (R51). -/
  sf : Option Nat
  /-- Part of one indivisible update: an observer that reads it sees all of that stamp (R35, R270). -/
  whole : Bool
  /-- Performed at every scope at once (R39, R311). -/
  done : Bool
  deriving DecidableEq, Repr

/-- Where the bytes of an access lie: at a physical address, or in a non-resident tile's log at an offset. -/
inductive Spot where
  | at (pa : Nat) (entry : DWord)
  | log (key : Nat) (off : Nat)
  deriving DecidableEq, Repr

/-- Where a result goes: a lane register, a scalar register, or a scalar of the handler bank. -/
inductive Dest where
  | lane (l : Nat) (r : Nat)
  | scalar (n : Nat)
  | bank (n : Nat)
  deriving DecidableEq, Repr

/-- One register element still to be written, and whether a later write has superseded it (R80, R81). -/
structure Elem where
  dest : Dest
  val : DWord
  live : Bool
  deriving DecidableEq, Repr

/-- How the bytes that a plain read has found make a register's value: by a load's code (see `loadVal`), as a FILL record's kind,
mean and spread (R203), or as a scalar load's bits, sign-extended or not (R115). -/
inductive ReadForm where
  | load (code : Nat)
  | record
  | scalar (bits : Nat) (sx : Bool)
  deriving DecidableEq, Repr

/-- One register that a plain read writes, and the addresses of the bytes its value is made of. -/
structure ReadDest where
  dest : Dest
  form : ReadForm
  pas : List Nat
  deriving DecidableEq, Repr

/-- One lane's part of a wait-full load (R194): its address, span and registers. -/
structure WaitLane where
  lane : Nat
  pa : Nat
  span : Nat
  empties : Bool
  /-- Its registers, each with the offset in the span and the load's code (see `loadVal`). -/
  dests : List (Nat × Nat × Nat)
  deriving DecidableEq, Repr

/-- One add-on-store element (R195): its address, operand pair, operation q3, pair and accounting flags. -/
structure AddElem where
  pa : Nat
  mean : Word
  spread : Word
  q3 : Nat
  pair : Bool
  acct : Bool
  deriving DecidableEq, Repr

/-- A TLB entry (R284): context, whether the page is 2 MiB, its page number and the PAGE entry. -/
structure TlbEntry where
  ctx : Nat
  large : Bool
  vpn : Nat
  entry : DWord
  deriving DecidableEq, Repr

/-- An entry of a walk cache (R284): the context, the level of the table entry, the part of the address that led to it, and the
TABLE entry. -/
structure WalkEntry where
  ctx : Nat
  level : Nat
  index : Nat
  entry : DWord
  deriving DecidableEq, Repr

/-- Who waits on a merge entry: a fragment or an engine operation (R287). -/
inductive Waiter where
  | frag (id : Nat)
  | op (id : Nat)
  | carillon (ctx : Nat)
  | service (frag : Nat)
  | tile (log : Nat)
  | agent (number : Nat)
  deriving DecidableEq, Repr

/-- An entry of a die's fault merge table (R287): keyed die·2048 + number in the table. -/
structure MergeEntry where
  ctx : Nat
  large : Bool
  vpn : Nat
  waiters : List Waiter
  /-- An engine access made the entry: the MMP maps its FIRST-TOUCH page, and no team waiter traps (R287, R291). -/
  byEngine : Bool
  /-- The fragment whose first-touch handler runs (R289). -/
  toucher : Option Nat
  /-- The leaf's entry when the table entry was made, and the fault record's fields (R292). -/
  leaf : DWord
  info : Nat
  sub : Nat
  /-- A record has been posted or is held by the MMP and not answered (R292). -/
  recorded : Bool
  /-- Released, and its waiters not yet told: 0 to walk again, else the MMP status of a failure (R287). -/
  released : Option Nat
  deriving DecidableEq, Repr

/-- A live log entry (R304) with the weight it carries, by phase (R308). -/
structure LogEntry where
  off : Nat
  kind : Nat
  mask : Nat
  len : Nat
  data : List Byte
  weight : List (Nat × Nat)
  /-- The appends it stands for, each by its agent and number, for the waits of R56, and by its own record's stamp (R319). -/
  stamps : List (Nat × Nat × Nat)
  /-- Those of the entries that it has removed (R307): they are performed at SYSTEM scope with its application (R56). -/
  past : List (Nat × Nat × Nat)
  deriving DecidableEq, Repr

/-- What a log area is asked to write: bytes by tile offset, or add-on-store elements whose `pa` is a tile offset, by lane
or row (R306). -/
inductive WriteBody where
  | bytes (cells : AMap Byte)
  | adds (groups : List (List AddElem))
  deriving DecidableEq, Repr

/-- A write held by a full log, or queued behind one (R315). -/
structure HeldWrite where
  body : WriteBody
  weight : List (Nat × Nat)
  stamp : Nat
  writer : Nat
  deriving DecidableEq, Repr

/-- STATE of a tile (R303). -/
inductive TileState where
  | absent | arriving | resident
  deriving DecidableEq, Repr

/-- A LOGGABLE tile and its log area (R302, R303), keyed by the log area's physical address. -/
structure Tile where
  ctx : Nat
  va : DWord
  /-- The leaf as it stands while the tile is not resident. -/
  leaf : DWord
  entries : List LogEntry
  pins : Nat
  state : TileState
  appends : Nat
  forced : Nat
  /-- The frame obtained for an arrival, and the status of an arrival that the host has refused (R310, R313). -/
  frame : Option Nat
  failed : Option Nat
  /-- Its latest arrival failed, and nothing that starts one has happened since (R313). -/
  missed : Bool
  held : List HeldWrite
  deriving DecidableEq, Repr

/-- A matrix operation (R258, R259). Kinds: 0 MMA, 1 DMMA, 2 MMAQ.M, 3 MMAQ.D, 4 MDRAIN.ROWS, 5 MDRAIN.ADD, 6 MDRAIN.FOLIO,
7 MACC.ZERO, 8 MACC.LOAD, 9 MACC.TREE, 10 MACC.GOV. A kind raised by 16 has had its effect on its tile, and waits for the
other parts of its joint operation (R263) or for its appends (R267). -/
structure MatOp where
  kind : Nat
  /-- The tile shape record and the scalar operands as held at issue (R258). -/
  record : DWord
  a : DWord
  b : DWord
  tile : Nat
  batch : Nat
  /-- MACC.GOV's result. -/
  dest : Dest
  /-- Rows of MDRAIN and MACC.LOAD, where they lie. -/
  rows : List (List (Spot × Nat))
  /-- The registers locked until the engine has read them: ts, sA, sB (R258). -/
  locked : Option (Nat × Nat × Nat)
  /-- Ticks of issue and of acceptance, the team's latest quire completion at issue, and array cycles charged (R261, R396). -/
  issued : Nat
  accepted : Nat
  cin : Nat
  cycles : Nat
  /-- The operations joined with this one, its own included, by quad core or core (R262, R274). -/
  members : List Nat
  deriving DecidableEq, Repr

/-- A quire (R221, R226): the engine's copy of its block, the block's address, the stream it took (R240), and its progress:
stage 0 before its writes, 1 after them, 2 once it has asked for the arrival of the tiles whose logs it waits for (R246). -/
structure Quire where
  block : List Byte
  va : DWord
  key : PealKey
  pos : DWord
  stage : Nat
  cancelled : Bool
  /-- STATUS and the nominal count, once its writes are made (R228, R246). -/
  status : Nat
  count : Nat
  /-- The stacks in whose stride-gather units it holds a pattern (R243). -/
  gathers : List Nat
  /-- Its writes of some bits of a logged byte, which wait for their tiles: log, offset, bits, and which of them (R244). -/
  rest : List (Nat × Nat × Byte × Byte)
  deriving DecidableEq, Repr

/-- An entry of a selection list (R329). -/
structure SelEntry where
  index : Nat
  key : Word
  value : Word
  deriving DecidableEq, Repr

/-- A selection (R321, R323): the engine's copy of its record, the record's address, whether SEL.MERGE issued it, the
partial lists by stack (die·8 + stack) with their qualifying counts (R332), and its progress: stage 0 until it is
checked, 1 while it reads, 2 with a delivery to make (R335), whose arrival at the Carillon `reached` numbers with its context, 3 with its data
written, 4 once it has asked for the arrival of the tiles whose logs it waits for (R334). -/
structure Selection where
  record : List Byte
  va : DWord
  merge : Bool
  stage : Nat
  parts : AMap (Nat × List SelEntry)
  entries : List SelEntry
  status : Nat
  reached : Option (Nat × Nat)
  /-- Where its elements lie, by ravel index, once the whole region is translated: each element has one place, on one stack (R332). -/
  places : List (Nat × List Nat)
  /-- A selection that ran beside it has written bytes of its destination (R336). -/
  clash : Bool
  deriving DecidableEq, Repr

/-- What an operation in flight still has to do (R77, and the chapter of each engine). -/
inductive OpBody where
  /-- A load, fill, scalar load or counter read whose values are known: elements still to be written. -/
  | results (elems : List Elem)
  /-- A noise-engine result: elements still to be written (R219). -/
  | noise (elems : List Elem) (fl : Nat)
  /-- Wait-full lanes not yet read, and elements read but not yet written (R194). -/
  | waitFull (lanes : List WaitLane) (elems : List Elem)
  /-- A load, fill or scalar load of the given spans that has not read: an earlier load of the team waits for a full granule there,
  and must read first (R36). -/
  | behind (spans : List (Nat × Nat)) (dests : List ReadDest)
  /-- A store, spill or prefetch whose addresses and data the access unit has yet to take (R77). -/
  | taking
  /-- Add-on-store elements not yet applied, first to be applied first (R196, R197). -/
  | adds (elems : List AddElem)
  /-- CTR.ADD on its way to the counter at va, pa (R122). -/
  | ctrAdd (va : DWord) (pa : Nat) (amount : DWord) (scope : Nat) (dest : Dest) (pc : DWord) (mask : LaneMask) (handler : Bool)
  /-- CTR.WAIT until the counter at va, translated to pa, reaches the threshold (R122). -/
  | ctrWait (va : DWord) (pa : Nat) (threshold : DWord) (scope : Nat) (dest : Dest)
  /-- A CTR.ADD at pc that overflowed, complete, with its deferred trap still to be raised (R122). -/
  | overflow (va : DWord) (amount : DWord) (pc : DWord) (mask : LaneMask) (handler : Bool)
  /-- SVC until its return; whether no later write has superseded its result (R81, R128). -/
  | service (live : Bool)
  /-- CTR.LOAD (R122). -/
  | ctrLoad (pa : Nat) (scope : Nat) (dest : Dest)
  /-- A write on its way to a tile's log (R305). -/
  | append (log : Nat) (body : WriteBody)
  /-- FENCE of a scope and kind: 1 REL, 2 ACQ, 3 FULL (R40). -/
  | fence (scope : Nat) (kind : Nat)
  /-- A matrix operation in its core's queue (R259). -/
  | matrix (m : MatOp)
  /-- The n-th MMAQ or MACC.TREE of its core, waiting for its partners (R263, R274). -/
  | partner (m : MatOp) (n : Nat)
  /-- The update of MDRAIN.ADD on its way, row by row: an element whose tile was not resident has that tile's log, and its offset
  (R270). -/
  | drainAdd (rows : List (List (Option Nat × AddElem)))
  | mfen
  /-- MCOMMIT of a batch, and its result while it is not written (R265). -/
  | commit (batch : Nat) (elems : List Elem)
  | mwait (batch : Nat)
  | quire (q : Quire)
  | cpyFence
  /-- CPY.CANCEL, waiting for the quires it matched (R225). -/
  | cpyCancel (quires : List Nat)
  | select (x : Selection)
  /-- CRL.POST on its way: the context, the first position, values and indices, the counter with its scope, and the order of
  its arrival at the Carillon once it has reached it (R356 to R358). -/
  | post (crl : Nat) (first : Nat) (entries : List (Word × Word)) (ctr : Option Nat) (va : DWord) (scope : Nat)
      (reached : Option Nat)
  /-- A TILE operation on an address: kind 0 PIN of 0, 1 PIN of 1, 2 QUERY, 3 PREFETCH, 4 DRAINLOG on its way to the engine;
  raised by 8 while it waits for the arrival of the tile `log`, by 16 with nothing left but its result (R318). -/
  | tile (kind : Nat) (log : Nat) (va : DWord) (dest : Dest) (elems : List Elem)
  /-- CTR.ADD on the doorbell of a send ring, until descriptors up to n have been taken (R387). -/
  | doorbell (ring : Nat) (n : Nat)
  deriving DecidableEq, Repr

/-- An operation in flight, keyed by its issue number. `tag` is the flag it holds set (R77); `ord` is the issue number of
the instruction it stems from; `phase` is the phase that its work belongs to, and `weight` the work weight it holds (R16); `fault` is a failure delivered to it, a cause of
R125 with the page's address and size (R285). -/
structure Op where
  ord : Nat
  phase : Option Nat
  weight : Nat
  fault : Option (Nat × Nat × Nat)
  unit : Nat
  team : Nat
  frag : Nat
  gcore : Nat
  ctx : Nat
  tag : Option Nat
  body : OpBody
  deriving DecidableEq, Repr

/-- A unit (R17, R105). Scratchpad allocations are keyed by global core: where their bytes lie in `State.mem`, and
their size (R24); they lie there in a saved unit's image as well (R133, R248). -/
structure UnitSt where
  ctx : Nat
  launch : Nat
  /-- Cluster 0 to 95: die·48 + cluster of the die. -/
  cluster : Nat
  x : Nat
  y : Nat
  z : Nat
  gridX : Nat
  gridY : Nat
  gridZ : Nat
  teams : List Nat
  k : AMap DWord
  /-- The tick and the team index of the latest KREG write (R106). -/
  kLast : Nat × Nat
  bar : AMap Nat
  scratch : AMap (Nat × Nat)
  she : DWord
  entryPc : DWord
  args : DWord
  lstk : Nat
  /-- It has been stopped by a cancel or under R127, and finishes by cancel (R19, R21). -/
  cancelled : Bool
  /-- Work weight it holds (R16). -/
  weight : Nat
  /-- MMAQ and MACC.TREE instructions issued by its teams, by global core (R263, R274). -/
  mmaqs : AMap Nat
  trees : AMap Nat
  /-- Its place in the launch's ravel order. -/
  ravel : Nat
  /-- 1 once it has finished by cancel and CAN has its add, FIN not yet (R19). -/
  stage : Nat
  deriving DecidableEq, Repr

/-- A buffer handle (R372). -/
structure Handle where
  va : DWord
  bytes : DWord
  hostvis : Bool
  writer : Option Nat
  readers : List Nat
  deriving DecidableEq, Repr

/-- A recorded graph (R373): its commands, a LAUNCH with the bytes of its launch record, kernel descriptor and handle list; for each
of them the launches that its handles make it depend on, node i of the graph as 2^64 + i; and, while it is recorded, the handles
that its nodes have used. -/
structure Graph where
  cmds : List (Command × List Byte)
  crec : DWord
  deps : List (List Nat)
  uses : AMap Handle
  deriving DecidableEq, Repr

/-- A context as the MMP, the sequencers and the engines see it (R279, R290, R292, R297, R369). -/
structure Context where
  /-- Physical address of its L3 table. -/
  root : Nat
  secure : Bool
  debuggable : Bool
  /-- Frames pooled on die 0 and die 1, first to be taken first (R290). -/
  pool0 : List Nat
  pool1 : List Nat
  /-- A refill of the pool of die 0 and of die 1 is under way. -/
  refill0 : Bool
  refill1 : Bool
  /-- Frames mapped from its pools (R290). -/
  poolMapped : List Nat
  /-- Frames that its PAGE entries name, once for each entry, and frames of its tables and log areas. -/
  owned : List Nat
  tables : List Nat
  /-- By frame of a COMPRESS page: the frame of its size table and overflow region (R320). -/
  packs : AMap Nat
  /-- The COUNTER page of its shootdowns' counters (R298): a frame of `tables`. -/
  ctrPage : Nat
  /-- POOL and POOLCAP (R369). -/
  poolSize : Nat
  poolCap : Nat
  fring : Nat
  frctl : Nat
  frlen : Nat
  /-- Fault records posted so far, HEAD as last read, and records held with a full ring, oldest first (R292). -/
  posted : Nat
  head : Nat
  heldRecords : List (List Byte)
  /-- Its error record's physical address (R297). -/
  errRec : Nat
  frvec : Nat
  /-- PREEMPT and PRIO, and the clusters of its partition (R369). -/
  preemptible : Bool
  prio : Nat
  clusters : List Nat
  /-- 0 running, 1 halted, 2 saved with its cores not yet passed on, 3 saved, 4 restoring (R131 to R134). -/
  pre : Nat
  preTick : Nat
  stkBase : DWord
  stkSize : Nat
  /-- Cores whose image of it has been moved to memory (R133). -/
  moved : List Nat
  /-- Stack spans in use: base and size (R371). -/
  stkUsed : List (Nat × Nat)
  handles : AMap Handle
  graphs : AMap Graph
  /-- The job's completion record (R19), 0 for none. -/
  crec : DWord
  /-- CTX.DESTROY is under way. -/
  dying : Bool
  cancelled : Bool
  deriving DecidableEq, Repr

/-- A launch (R370, R371). -/
structure Launch where
  ctx : Nat
  /-- The queue and index of the command that started it. -/
  queue : Nat
  idx : Nat
  graph : Option Nat
  /-- Its graph's completion record, as its replay took it (R19). -/
  graphRec : DWord
  phase : Option Nat
  entryPc : DWord
  lanes : Nat
  regs : Nat
  teams : Nat
  scratch : Nat
  acc : Nat
  args : DWord
  gridX : Nat
  gridY : Nat
  gridZ : Nat
  she : DWord
  lstk : Nat
  ksz : Nat
  crec : DWord
  coop : Bool
  /-- Launches that must add their FIN first (R372); node i of the replay on its queue is 2^64 + i (R373). -/
  deps : List Nat
  /-- Units placed, and units finished. -/
  placed : Nat
  finished : Nat
  cancelled : Bool
  weight : Nat
  clrBase : DWord
  clrCtr : DWord
  clrLen : Nat
  /-- Colophon records numbered so far, and those not yet written, first to be written first (R396). -/
  clrSeq : Nat
  clrPend : List (List Byte)
  /-- The first of those is written, its add to CLRCTR not made yet. -/
  clrOut : Bool
  /-- 1 once its graph's CAN has its add, 2 once its graph's FIN has (R19). -/
  stage : Nat
  /-- Of a cancelled launch, one more than the last member not placed whose add to CAN is made (R19, R20). -/
  canned : Nat
  deriving DecidableEq, Repr

/-- A phase root (R16, R375), with its context and completion record. -/
structure Phase where
  ctx : Nat
  crec : DWord
  root : Nat
  closed : Bool
  /-- How many of the adds of its end are made: CAN and FIN of its record, CAN and FIN of its job's (R19). -/
  stage : Nat
  cancelled : Bool
  deriving DecidableEq, Repr

/-- What a command in progress waits for. -/
inductive Pending where
  /-- Its launch (R371). -/
  | launch (l : Nat)
  /-- The replay on pseudo-queue q (R374). -/
  | replay (q : Nat)
  /-- BATCH.ITER's snapshot, written under an issue number, to be performed at SYSTEM scope, and whether the arrival of the tiles whose
  logs it waits for has been asked for (R377); whether a cancel has reached its replay (R20), and the work weight held for it, with its
  phase (R16). -/
  | iter (ord : Nat) (asked : Bool) (doomed : Bool) (weight : List (Nat × Nat))
  /-- Shootdowns of a context to complete (R299); then the frames go back to their dies' free memory (R290). -/
  | shoot (sds : List Nat) (ctx : Nat) (frames : List Nat)
  /-- The large pages that are marked SPLITTING get their tables next (R301). -/
  | splitting (pages : List Nat)
  /-- A large page's split, whose shootdowns are to complete before small entries change (R301). -/
  | split (sds : List Nat)
  /-- QUEUE.DESTROY of queue q (R367). -/
  | queue (q : Nat)
  /-- CTX.DESTROY of a context (R366). -/
  | context (ctx : Nat)
  /-- Nothing: it ends with a status and, if it returns one, a result. -/
  | status (n : Nat) (result : Option Nat)
  deriving DecidableEq, Repr

/-- A queue (R365, R367); the administrative queue is number 64·4096, and a graph replay runs on a queue numbered from
2^20 whose entries are `script`. -/
structure Queue where
  base : DWord
  len : Nat
  stat : DWord
  prio : Nat
  ctx : Nat
  tail : Nat
  /-- Entries read so far, and commands completed (R368). -/
  head : Nat
  done : Nat
  script : List (Command × List Byte)
  /-- Commands started and not completed, with what each waits for. -/
  running : List (Command × Pending)
  /-- The graph being recorded, with its completion record and what it holds so far (R373). -/
  recording : Option (Nat × Graph)
  phase : Option Nat
  /-- A replay's parent command: its queue and index; and the status it will have. -/
  parent : Option (Nat × Nat)
  status : Nat
  /-- A replay's graph, the parameter registers it took (R374), its nodes' dependences, and the work weight it holds (R16). -/
  graph : Option Nat
  /-- The completion record of the graph that it replays, as recorded (R19). -/
  graphRec : DWord
  params : List DWord
  links : List (List Nat)
  weight : Nat
  cancelled : Bool
  /-- Its next command, a LAUNCH or GRAPH.REPLAY that waits, has been cancelled (R20). -/
  doomed : Bool
  /-- Its phase was opened on it, by a recorded PHASE.OPEN (R373, R375). -/
  ownPhase : Bool
  deriving DecidableEq, Repr

/-- A shootdown (R298): context, first and last 64 KiB page numbers, its counter's address, the agents reached (0 to 95 clusters,
96 and 97 the dies), those that have added, for each agent reached the issue numbers of what it waits for, and the frames that a
move of pages between dies gives back at its end (R378). -/
structure Shootdown where
  ctx : Nat
  lo : Nat
  hi : Nat
  ctr : Nat
  reached : List Nat
  added : List Nat
  waits : AMap (List Nat)
  frames : List Nat
  deriving DecidableEq, Repr

/-- A cluster's issue governor (R275, R276). -/
structure Gov where
  budget : Nat
  used : Nat
  window : Nat
  stalls : Nat
  deriving DecidableEq, Repr

/-- A Carillon context (R340, R341). -/
structure Crl where
  owner : Nat
  /-- 1 RUNNING, 2 WAITING, 3 HALTED, 4 FAULTED, 5 SUSPENDED; a FREE context is unlisted. -/
  state : Nat
  /-- The state it was suspended in (R361). -/
  prior : Nat
  pc : Nat
  prog : Nat
  c : AMap Word
  key : AMap PealKey
  x : AMap DWord
  pos : AMap DWord
  val : AMap Word
  idx : AMap Word
  ccnt : Nat
  hist : List Word
  dbell : DWord
  t : Nat
  /-- T before the last WAITC (R350). -/
  tOld : Nat
  outBase : DWord
  outLen : Nat
  tokCtr : DWord
  seq : Nat
  fcause : Nat
  tcause : Nat
  /-- In the fault merge table or waiting for a tile (R350, R351). -/
  blocked : Bool
  /-- A failure delivered to it, a cause of R125. -/
  fault : Option Nat
  /-- A job cancel halts it at its next boundary (R362). -/
  halting : Bool
  /-- Its EMIT has written its record and waits for it to be performed: the write's number and TOKCTR's physical address, if
  any (R351). -/
  emit : Option (Nat × Option Nat)
  /-- Work weight it holds, with its phase (R359). -/
  weight : List (Nat × Nat)
  deriving DecidableEq, Repr

/-- A batching-table entry's fields (R376): VERSION, VALID, CTXN, LEN, KVPAGES, USER. -/
structure BatchImage where
  version : DWord
  valid : Nat
  ctxn : Nat
  len : Word
  kv : DWord
  user : List Byte
  deriving DecidableEq, Repr

/-- A batching-table entry: its last commit, that commit's tick, and the image committed before that tick (R377). -/
structure BatchEntry where
  now : BatchImage
  tick : Nat
  before : BatchImage
  deriving DecidableEq, Repr

/-- A send ring's progress (R381): descriptors taken, and those taken and not finished, each with its phase and weight
(R387). -/
structure Ring where
  taken : Nat
  held : List (Nat × Nat × Nat)
  deriving DecidableEq, Repr

/-- A descriptor taken and not ended: ring, number, operation, peer table entry and what it carries; it is sent once the
earlier descriptors of its ring and peer that it waits for have ended (R386). -/
structure Outgoing where
  ring : Nat
  i : Nat
  op : Nat
  peer : DWord
  msg : FabricMsg
  after : List Nat
  /-- Where its STATUS lies, and its LCTR (R382). -/
  stat : DWord
  lctr : DWord
  /-- CAUSE and REMOTE of an end that is known here and not yet written. -/
  finish : Option (Nat × Bool)
  /-- The descriptor's first 40 bytes as the port has read them (R381). -/
  raw : List Byte
  /-- How far its end is (R383): 1 once its final STATUS is written, 2 once the arrival of the tiles whose logs it waits for has been
  asked for. -/
  stage : Nat
  deriving DecidableEq, Repr

/-- An operation that has arrived at a port and is not performed yet: OP, the message, the number of its inbound entry
(port·1024 + entry), whether it is applied but for its logs, and whether it has asked for the arrival of the tiles whose logs it waits
for. -/
structure Inbound where
  op : Nat
  msg : FabricMsg
  src : Nat
  applied : Bool
  asked : Bool
  deriving DecidableEq, Repr

/-- An acknowledgement that a port has sent: the port, the endpoint, ring and number of the operation, and its cause (R383). -/
structure Reply where
  port : Nat
  endpoint : Nat
  ring : Nat
  id : Nat
  cause : Nat
  deriving DecidableEq, Repr

/-- A sequence on its way to a partner chip (R388): the victim's entry and the batching image to restore. -/
structure Steal where
  die : Nat
  entry : Nat
  image : BatchImage
  deriving DecidableEq, Repr

/-- A cluster stop (R393): trigger tick, CAUSE, and the cores reached. -/
structure ClStop where
  tick : Nat
  cause : Nat
  cores : List Nat
  deriving DecidableEq, Repr

/-- The boot logic (R397 to R402). -/
structure Boot where
  /-- 0 IDLE, 1 VERIFYING, 2 RUNNING, 3 FAILED, 4 THERMAL. -/
  state : Nat
  cause : Nat
  version : Word
  /-- The BAR4 window, by offset. -/
  window : AMap Byte
  /-- SHAKE256 digest of the running image (R401). -/
  digest : List Byte
  /-- The control-complex memory of die 0 and of die 1: the running image (R397). -/
  control0 : List Byte
  control1 : List Byte
  /-- The stored signing index (R402): in the module's non-volatile store. -/
  index : Nat
  /-- The attestation mailbox's last status and report. -/
  mailStatus : Nat
  report : List Byte
  deriving DecidableEq, Repr

/-- One thing the machine can do in a step. -/
inductive Choice where
  /-- An event, or a command. -/
  | event (i : Instr)
  /-- An input, with the inputs that stay. -/
  | input (i : Instr) (rest : List Instr)
  /-- A pass of a fragment. -/
  | frag (i : Nat)
  /-- A microinstruction of a Carillon context. -/
  | micro (n : Nat)
  deriving DecidableEq, Repr

/-- The machine. -/
structure State where
  /-- The fragment whose pass issues in this step, chosen by R102 (the model's own field). -/
  cur : Option Nat
  /-- The Carillon context whose microinstruction runs in this step (the model's own field). -/
  curCrl : Option Nat
  /-- How many free values have been drawn (the model's own field). -/
  free : Nat
  /-- How many free choices among several things to do have been made, and since which of them what was possible then and was not
  done has stayed possible (R58; the model's own fields). -/
  turn : Nat
  waiting : List (Choice × Nat)
  /-- The next issue number: of operations, writes, releases, fragments and requests (the model's own field). -/
  seq : Nat
  toll : Nat
  /-- Memory: device physical addresses below 2^40, host physical addresses below 2^48, and from 2^48 on the scratchpad
  allocations, each in 2^19 bytes of its own. An unlisted byte reads as 0. -/
  mem : List Host.Cell
  /-- Full-empty bits, keyed by address div 16; unlisted is empty (R50). -/
  full : AMap Bool
  hist : List WriteRec
  rels : AMap Release
  /-- Per location (agent·2^52 + address): the stamp of the newest write its reads have returned (R36). -/
  seen : AMap Nat
  frags : AMap Frag
  teams : AMap Team
  units : AMap UnitSt
  ctxs : AMap Context
  ops : AMap Op
  /-- L1 TLBs by global core, L2 TLBs at 4096 + cluster; walk caches by die (R284). Newest first. -/
  tlb : AMap (List TlbEntry)
  walks : AMap (List WalkEntry)
  merge : AMap MergeEntry
  tiles : AMap Tile
  shoots : AMap Shootdown
  /-- By global core: the first tick at which it may issue again (R101). -/
  issued : AMap Nat
  /-- By global core: bytes of its SRAM array that are scratchpad (R371). -/
  division : AMap Nat
  /-- By global core: the context whose image its shadow slice holds (R133). -/
  slices : AMap Nat
  /-- By cluster; an unlisted governor has BUDGET 0xFFFF and nothing used. -/
  gov : AMap Gov
  /-- Carillon contexts by die·4096 + number, and program slots by die·16 + slot (R339). -/
  crls : AMap Crl
  progs : AMap (List Word)
  queues : AMap Queue
  launches : AMap Launch
  phases : AMap Phase
  /-- Batching tables by die·4096 + entry (R376). -/
  batch : AMap BatchEntry
  /-- BAR0 registers that hold what the host writes, by offset (R364, R367, R380, R389). -/
  bar0 : AMap DWord
  /-- Send rings by port·64 + ring (R380). -/
  rings : AMap Ring
  /-- Descriptors taken by the fabric ports and not ended; operations arrived and not performed; acknowledgements sent, newest
  first; sequences received from partner chips and not yet installed (R388). -/
  outgoing : List Outgoing
  inbound : List Inbound
  replies : List Reply
  received : List StealMsg
  steals : AMap Steal
  /-- Translation failures delivered to engines that keep no operation of their own, by agent (R285). -/
  agentFaults : AMap Nat
  /-- MSI-X messages sent, newest first (R292). -/
  msix : List Nat
  /-- TSTOP (R390), and whether the device is stopped by it. -/
  tstop : DWord
  gated : Bool
  stops : AMap ClStop
  /-- Skid records written, and control-transfer records written and dropped, by die (R393, R395). -/
  skids : AMap Nat
  traced : AMap Nat
  dropped : AMap Nat
  boot : Boot
  /-- Events from outside the machine, first to come first: the host, peer chips, power (the model's own field). -/
  inputs : List Instr
  deriving DecidableEq, Repr

/-- A governor as firmware leaves it at first: no limit. -/
def Gov.idle : Gov := { budget := 0xFFFF, used := 0, window := 0, stalls := 0 }

/-- The boot logic after reset, with the signing index of the non-volatile store. -/
def Boot.idle (index : Nat) : Boot :=
  { state := 0, cause := 0, version := 0, window := [], digest := [], control0 := [], control1 := [], index := index, mailStatus := 0, report := [] }

/-- The machine after reset (R397): no context, no work, memory with nothing listed, boot logic IDLE. -/
def State.reset : State :=
  { cur := none, curCrl := none, free := 0, turn := 0, waiting := [], seq := 1, toll := 0, mem := [], full := [], hist := [], rels := [], seen := [],
    frags := [], teams := [], units := [], ctxs := [], ops := [], tlb := [], walks := [], merge := [], tiles := [],
    shoots := [], issued := [], division := [], slices := [], gov := [], crls := [],
    progs := [], queues := [], launches := [], phases := [], batch := [], bar0 := [], rings := [], outgoing := [], inbound := [],
    replies := [], received := [],
    steals := [], agentFaults := [], msix := [], tstop := 0, gated := false, stops := [], skids := [], traced := [], dropped := [],
    boot := Boot.idle 0, inputs := [] }

end Sys2Proof.Machine
end

