-- ==== Sys2Proof/Machine/Ops.lean ====
section
/-! DEFINITION. The named operations over the state: fragments, teams and registers, memory and its past, releases and
acquires, results in flight, and taking a trap and returning from one. -/

namespace Sys2Proof.Machine

/-- The outcome type of a step. -/
abbrev Out := Host.Outcome State Fault Refusal

/-- Why a pass does not take effect: a trap with its HADDR and HINFO (R125), a wait (R101), or an engine that cannot accept
it yet (R101). -/
inductive Stop where
  | trap (cause : Nat) (haddr : DWord) (hinfo : DWord)
  /-- ILLEGAL-TARGET and INSTRUCTION-FETCH, whose HPC is given too (R125). -/
  | trapAt (cause : Nat) (hpc : DWord) (haddr : DWord) (hinfo : DWord)
  | wait (w : Wait)
  | stall
  deriving DecidableEq, Repr

/-- A computation that may end in a Stop; the state carries what happened before it did. -/
abbrev Res (α : Type) := Except (State × Stop) (State × α)

/-- The computation r, then k on its state and result. -/
def andThen {α β : Type} (r : Res α) (k : State → α → Res β) : Res β :=
  match r with
  | .error e => .error e
  | .ok (s, a) => k s a

/-- The state a computation ends in, its result forgotten. -/
def andOk {α : Type} (r : Res α) (k : State → α → Except (State × Stop) State) : Except (State × Stop) State :=
  match r with
  | .error e => .error e
  | .ok (s, a) => k s a

/-! ### Fragments, teams, units -/

/-- The selected fragment and its team, with their numbers. -/
def current (s : State) : Option (Nat × Frag × Team) :=
  match s.cur with
  | none => none
  | some i => match amGet i s.frags with
    | none => none
    | some f => match amGet f.team s.teams with
      | none => none
      | some t => some (i, f, t)

/-- The state with fragment i set. -/
def setFrag (i : Nat) (f : Frag) (s : State) : State := { s with frags := amPut i f s.frags }
/-- The state with fragment i changed by g. -/
def modFrag (i : Nat) (g : Frag → Frag) (s : State) : State := { s with frags := amMod i g s.frags }
/-- The state without fragment i. -/
def delFrag (i : Nat) (s : State) : State := { s with frags := amDel i s.frags }
/-- The state with team i changed by g. -/
def modTeam (i : Nat) (g : Team → Team) (s : State) : State := { s with teams := amMod i g s.teams }
/-- The state with unit i changed by g. -/
def modUnit (i : Nat) (g : UnitSt → UnitSt) (s : State) : State := { s with units := amMod i g s.units }
/-- The state with context i changed by g. -/
def modCtx (i : Nat) (g : Context → Context) (s : State) : State := { s with ctxs := amMod i g s.ctxs }

/-- The die of a global core (R10). -/
def dieOf (g : Nat) : Nat := g / 768
/-- The cluster (0 to 95) of a global core (R10). -/
def clusterOf (g : Nat) : Nat := g / 16

/-- A free value, and the state after drawing it. -/
def draw (s : State) : Nat × State := ((Config.freeWord s.free).toNat, { s with free := s.free + 1 })

/-- A free choice among n alternatives (none is drawn for n ≤ 1). -/
def choose (n : Nat) (s : State) : Nat × State :=
  if n ≤ 1 then (0, s) else ((draw s).1 % n, (draw s).2)

/-- The current issue number, and the state after taking it. -/
def takeSeq (s : State) : Nat × State := (s.seq, { s with seq := s.seq + 1 })

/-! ### Lanes and masks -/

/-- Lane l is active in the mask. -/
def laneOn (m : LaneMask) (l : Nat) : Bool := m.getLsbD l

/-- Mask word j (R92). -/
def maskWord (m : LaneMask) (j : Nat) : Nat := m.toNat / 2 ^ (32 * j) % 2 ^ 32

/-- The active lanes of mask word j, ascending. -/
def wordLanes (m : LaneMask) (j : Nat) : List Nat := (upFrom (32 * j) 32).filter (laneOn m)

/-- The mask words from j on that are not zero, ascending: the set bits of the summary word (R92, R93). -/
def wordsFrom (m : LaneMask) (j : Nat) : List Nat := (upFrom j (32 - j)).filter (fun k => maskWord m k != 0)

/-- The lowest active lane, 1024 for none. -/
def lowestLane (m : LaneMask) : Nat :=
  match wordsFrom m 0 with
  | [] => 1024
  | j :: _ => (wordLanes m j).headD 1024

/-- A mask of the given lanes. -/
def maskOf (ls : List Nat) : LaneMask := ls.foldl (fun m l => m ||| BitVec.ofNat 1024 (2 ^ l)) 0

/-- All lanes of a team of n lanes (R92). -/
def fullMask (n : Nat) : LaneMask := BitVec.ofNat 1024 (2 ^ n - 1)

/-- Every lane of the team that a fragment still holds. -/
def liveMask (s : State) (team : Nat) : LaneMask :=
  s.frags.foldl (fun m e => if e.2.team = team then m ||| e.2.mask else m) 0

/-! ### Registers -/

/-- Register r of lane l. -/
def dGet (t : Team) (l r : Nat) : DWord := smGet 0 (64 * l + r) t.d
/-- The team with register r of lane l set. -/
def dPut (l r : Nat) (v : DWord) (t : Team) : Team := { t with d := smPut 0 (64 * l + r) v t.d }

/-- Scalar register n as a fragment sees it: s0 reads 0, and a handler sees its bank for s24 to s31 (R105, R127). -/
def sGet (t : Team) (handler : Bool) (n : Nat) : DWord :=
  if n = 0 then 0 else if handler && decide (24 ≤ n) then smGet 0 n t.hb else smGet 0 n t.s

/-- The place a scalar result goes. -/
def sDest (handler : Bool) (n : Nat) : Dest := if handler && decide (24 ≤ n) then .bank n else .scalar n

/-- The team with one register element written; writes to s0 are discarded (R105). -/
def putDest (d : Dest) (v : DWord) (t : Team) : Team :=
  match d with
  | .lane l r => dPut l r v t
  | .scalar n => if n = 0 then t else { t with s := smPut 0 n v t.s }
  | .bank n => { t with hb := smPut 0 n v t.hb }

/-- An element superseded by a later write to its register (R81). -/
def Elem.kill (ds : List Dest) (e : Elem) : Elem := if ds.contains e.dest then { e with live := false } else e

/-- The outstanding elements of a body whose register is among `ds`, superseded. -/
def killBody (ds : List Dest) : OpBody → OpBody
  | .results es => .results (es.map (Elem.kill ds))
  | .noise es fl => .noise (es.map (Elem.kill ds)) fl
  | .commit b es => .commit b (es.map (Elem.kill ds))
  | .tile k l a d es => .tile k l a (if ds.contains d then .scalar 0 else d) (es.map (Elem.kill ds))
  | .matrix m => .matrix { m with dest := if ds.contains m.dest then .scalar 0 else m.dest }
  | .waitFull ls es => .waitFull
      (ls.map (fun w => { w with dests := w.dests.filter (fun e => !ds.contains (.lane w.lane e.1)) })) (es.map (Elem.kill ds))
  | .behind ps rs => .behind ps (rs.filter (fun r => !ds.contains r.dest))
  | .ctrAdd va pa n sc d pc m h => .ctrAdd va pa n sc (if ds.contains d then .scalar 0 else d) pc m h
  | .ctrWait va pa n sc d => .ctrWait va pa n sc (if ds.contains d then .scalar 0 else d)
  | .ctrLoad pa sc d => .ctrLoad pa sc (if ds.contains d then .scalar 0 else d)
  | .service live => .service (live && !ds.contains (.scalar 16))
  | b => b

/-- Operations of the team issued before number n lose their outstanding writes to `ds` (R81). -/
def killEarlier (team n : Nat) (ds : List Dest) (ops : AMap Op) : AMap Op :=
  ops.map (fun e => if e.2.team = team ∧ e.1 < n then (e.1, { e.2 with body := killBody ds e.2.body }) else e)

/-- Register elements written at issue: the team's registers change and earlier outstanding writes to them are superseded
(R79, R81). -/
def writeDests (team : Nat) (ws : List (Dest × DWord)) (s : State) : State :=
  { s with
    teams := amMod team (fun t => ws.foldl (fun t w => putDest w.1 w.2 t) t) s.teams
    ops := killEarlier team s.seq (ws.map Prod.fst) s.ops }

/-- Lane registers written at issue. -/
def writeLanes (team : Nat) (ws : List (Nat × Nat × DWord)) (s : State) : State :=
  writeDests team (ws.map (fun w => (Dest.lane w.1 w.2.1, w.2.2))) s

/-- A scalar register written at issue. -/
def writeScalar (f : Frag) (n : Nat) (v : DWord) (s : State) : State :=
  writeDests f.team [(sDest f.handler n, v)] s

/-- The mode field of the clause: 0 PLAIN, 1 MOM, 2 LIN, 3 SMP (R73). -/
def Frag.mode (f : Frag) : Nat := f.clause.word.toNat / 2 ^ 28 % 4
/-- The clause's acct bit (R73). -/
def Frag.acct (f : Frag) : Bool := f.clause.word.toNat / 2 ^ 30 % 2 == 1
/-- The clause's set-A flag, none for 0xF (R73). -/
def Frag.setA (f : Frag) : Option Nat :=
  if f.clause.word.toNat / 2 ^ 20 % 16 ≤ 11 then some (f.clause.word.toNat / 2 ^ 20 % 16) else none
/-- The clause's set-B flag, none for 0xF (R73). -/
def Frag.setB (f : Frag) : Option Nat :=
  if f.clause.word.toNat / 2 ^ 24 % 16 ≤ 11 then some (f.clause.word.toNat / 2 ^ 24 % 16) else none
/-- The group size of the mode (R70). -/
def groupOf (mode : Nat) : Nat := if mode = 2 then 2 else if mode = 3 then 4 else 1

/-- Flag i of the team is set: an operation tagged with it is outstanding, or an instruction so tagged, live or saved in the trap
frame, has passes outstanding (R77, R78). -/
def flagSet (s : State) (team i : Nat) : Bool :=
  s.ops.any (fun e => decide (e.2.team = team) && e.2.tag == some i) ||
  s.frags.any (fun e => e.2.team == team && e.2.tagging == some i) ||
  (match amGet team s.teams with
   | some t => (match t.frame with | some fr => fr.saved.tagging == some i | none => false)
   | none => false)

/-- The first tick from which the latest clearings of the flags that a header's word names count for header waits (R76). -/
def clearedAt (t : Team) (word : Word) : Nat :=
  (upFrom 0 12).foldl (fun m i => if word.getLsbD (8 + i) then max m (smGet 0 i t.clearAt) else m) 0

/-! ### Locks of matrix operands (R258) -/

/-- A queued matrix operation of the team has locked a register that p names (ts, sA, sB). -/
def locked (s : State) (team : Nat) (p : Nat × Nat × Nat → Bool) : Bool :=
  s.ops.any (fun o => decide (o.2.team = team) && match o.2.body with
    | .matrix m => (match m.locked with | some l => p l | none => false)
    | _ => false)

/-- An MMAQ or MACC.TREE of the team that waits for its partners has locked a register that p names. -/
def lockedWaiting (s : State) (team : Nat) (p : Nat × Nat × Nat → Bool) : Bool :=
  s.ops.any (fun o => decide (o.2.team = team) && match o.2.body with
    | .partner m _ => (match m.locked with | some l => p l | none => false)
    | _ => false)

/-- Whether a write to a register may be made: of a locked one, the engine has read the register by now or has not, by free
choice; once it has, its lock is clear. -/
def lockGate (team : Nat) (p : Nat × Nat × Nat → Bool) (s : State) : Bool × State :=
  if lockedWaiting s team p then (false, s)
  else if !locked s team p then (true, s)
  else
    let (k, s) := choose 2 s
    if k = 0 then (false, s)
    else (true, { s with ops := s.ops.map (fun o => (o.1, if o.2.team = team then
      { o.2 with body := match o.2.body with
        | .matrix m => .matrix { m with locked := match m.locked with | some l => if p l then none else some l | none => none }
        | b => b } else o.2)) })

/-- The lock on a scalar register; s0 is never locked. -/
def scalarLock (n : Nat) (l : Nat × Nat × Nat) : Bool := n != 0 && (l.2.1 == n || l.2.2 == n)

/-- The gate for a register element. -/
def destGate (team : Nat) (d : Dest) (s : State) : Bool × State :=
  match d with
  | .scalar n => lockGate team (scalarLock n) s
  | _ => (true, s)

/-! ### Operations in flight -/

/-- The phase a unit's work belongs to (R375). -/
def phaseOf (s : State) (unit : Nat) : Option Nat :=
  match amGet unit s.units with
  | none => none
  | some u => match amGet u.launch s.launches with
    | none => none
    | some l => l.phase

/-- Weight returns to a phase root (R16). -/
def giveBack (phase w : Nat) (s : State) : State :=
  { s with phases := amMod phase (fun p => { p with root := p.root + w }) s.phases }

/-- What a holder without weight to give borrows from a root of r (R375). -/
def borrowed (r : Nat) : Nat := if 2 ^ 25 ≤ r then 2 ^ 24 else r / 2

/-- What a holder with w units and a root of r give a child: the child's share, the holder's and the root's (R375). -/
def splitWeight (w r : Nat) : Nat × Nat × Nat :=
  if w = 0 then (0, 0, r)
  else if w = 1 then
    let b := borrowed r
    ((1 + b) / 2, 1 + b - (1 + b) / 2, r - b)
  else (w / 2, w - w / 2, r)

/-- A share of a unit's weight for work it spawns (R375); 0 for work of no phase. -/
def spawnWeight (unit : Nat) (s : State) : Nat × State :=
  match phaseOf s unit, amGet unit s.units with
  | some ph, some u => match amGet ph s.phases with
    | none => (0, s)
    | some p =>
      let (c, w, r) := splitWeight u.weight p.root
      (c, { s with
        units := amPut unit { u with weight := w } s.units
        phases := amPut ph { p with root := r } s.phases })
  | _, _ => (0, s)

/-- A share of weight for work that operation o spawns (R375): of its unit's; of an engine's write outside any unit's operations, borrowed
from its phase's root (DEDUCED, notes/assumptions/88.md); 0 for work of no phase. -/
def spawnFor (o : Op) (s : State) : Nat × State :=
  if (amGet o.unit s.units).isSome then spawnWeight o.unit s
  else match o.phase.bind (fun ph => (amGet ph s.phases).map (fun p => (ph, p))) with
    | none => (0, s)
    | some (ph, p) => (borrowed p.root, { s with phases := amPut ph { p with root := p.root - borrowed p.root } s.phases })

/-- Operations that hold no work weight: reads, waits and counter operations, and what a doorbell waits for (R16). -/
def OpBody.weightless : OpBody → Bool
  | .results _ => true
  | .noise _ _ => true
  | .waitFull _ _ => true
  | .behind _ _ => true
  | .ctrAdd .. => true
  | .ctrWait .. => true
  | .ctrLoad .. => true
  | .fence _ _ => true
  | .overflow .. => true
  | .service _ => true
  | .doorbell _ _ => true
  | _ => false

/-- An operation of fragment i's team enters flight, stemming from the instruction issued as number `ord`; its number is the
issue number it takes. -/
def issueFrom (ord : Nat) (i : Nat) (f : Frag) (t : Team) (tag : Option Nat) (body : OpBody) (s : State) : State :=
  let ctx := match amGet t.unit s.units with | some u => u.ctx | none => 0
  let (w, s) := if body.weightless then (0, s) else spawnWeight t.unit s
  { s with
    frags := if tag.isSome then amMod i (fun f => { f with tagging := tag }) s.frags else s.frags
    ops := amPut s.seq
      { ord := ord, phase := phaseOf s t.unit, weight := w, fault := none, unit := t.unit, team := f.team, frag := i, gcore := t.gcore, ctx := ctx, tag := tag, body := body } s.ops
    seq := s.seq + 1 }

/-- An operation of fragment i's team enters flight; its number is the issue number it takes. -/
def issueOp (i : Nat) (f : Frag) (t : Team) (tag : Option Nat) (body : OpBody) (s : State) : State := issueFrom s.seq i f t tag body s

/-- The state without operation n: its flag clears unless another operation holds it (R77), and its weight returns (R16). -/
def endOp (n : Nat) (s : State) : State :=
  match amGet n s.ops with
  | none => s
  | some o =>
    let s := { s with ops := amDel n s.ops }
    if o.weight = 0 then s else match o.phase with
      | none => s
      | some ph => giveBack ph o.weight s

/-- The state with operation n's body replaced. -/
def setBody (n : Nat) (b : OpBody) (s : State) : State := { s with ops := amMod n (fun o => { o with body := b }) s.ops }

/-! ### Memory, byte by byte -/

/-- The byte at an address. -/
def rdByte (s : State) (a : Nat) : Byte := smGet 0 a s.mem

/-- n bytes from an address. -/
def rdBytes (s : State) (a n : Nat) : List Byte := (upFrom a n).map (rdByte s)

/-- The little-endian number of n bytes (R4). -/
def bytesNat : List Byte → Nat
  | [] => 0
  | b :: bs => b.toNat + 256 * bytesNat bs

/-- n bytes of a number, least significant first (R4). -/
def natBytes : Nat → Nat → List Byte
  | 0, _ => []
  | n + 1, v => BitVec.ofNat 8 v :: natBytes n (v / 256)

/-- The number that n bytes at an address hold. -/
def rdNat (s : State) (a n : Nat) : Nat := bytesNat (rdBytes s a n)

/-- Memory with bytes stored from an address on. -/
def putBytes (m : List Host.Cell) (a : Nat) : List Byte → List Host.Cell
  | [] => m
  | b :: bs => putBytes (smPut 0 a b m) (a + 1) bs

/-! ### The memory model (R34 to R48) -/

/-- The agents of the memory model: team t is agent t; these are the paths of a team and the engines. An engine's adds are its own. -/
def agentAdds (team : Nat) : Nat := if team < 2 ^ 40 then 2 ^ 40 + team else team
/-- The copy path of a team (R53). -/
def agentCopy (team : Nat) : Nat := 2 * 2 ^ 40 + team
/-- The matrix path of a team (R54). -/
def agentMatrix (team : Nat) : Nat := 3 * 2 ^ 40 + team
/-- A die's selection engines (R55). -/
def agentSelect (die : Nat) : Nat := 4 * 2 ^ 40 + die
/-- A Carillon context. -/
def agentCarillon (ctx : Nat) : Nat := 5 * 2 ^ 40 + ctx
/-- The command processors and the MMP. -/
def agentControl : Nat := 6 * 2 ^ 40
/-- A fabric port. -/
def agentFabric (port : Nat) : Nat := 7 * 2 ^ 40 + port
/-- A quire or a selection of a number. -/
def agentEngine (op : Nat) : Nat := 10 * 2 ^ 40 + op
/-- The matrix engine as a reader of operands for a team (R54). -/
def agentOperand (team : Nat) : Nat := 11 * 2 ^ 40 + team
/-- A die's debug and trace unit. -/
def agentTrace (die : Nat) : Nat := 12 * 2 ^ 40 + die
/-- A command queue (R57). -/
def agentQueue (q : Nat) : Nat := 13 * 2 ^ 40 + q
/-- What a unit's engines have written by its end (R19). -/
def agentUnit (unit : Nat) : Nat := 14 * 2 ^ 40 + unit
/-- What a launch's units have written by their ends (R19). -/
def agentLaunch (l : Nat) : Nat := 15 * 2 ^ 40 + l
/-- What a phase's units have written by their ends (R19). -/
def agentPhase (p : Nat) : Nat := 16 * 2 ^ 40 + p
/-- The host. -/
def agentHost : Nat := 8 * 2 ^ 40

/-- The agent at q lies in the domain of the agent at p for a scope (R37). -/
def inDomain (a : Nat) (p : Pos) (scope : Nat) (b : Nat) (q : Pos) : Bool :=
  let die : Pos → Option Nat := fun x => match x with
    | .core g => some (dieOf g) | .cluster c => some (c / 48) | .die d => some d | .outside => none
  let cluster : Pos → Option Nat := fun x => match x with
    | .core g => some (clusterOf g) | .cluster c => some c | _ => none
  match scope with
  | 0 => a == b
  | 1 => match p, q with | .core g, .core h => g == h | _, _ => a == b
  | 2 => (cluster p).isSome && cluster p == cluster q || a == b
  | 3 => (die p).isSome && die p == die q || a == b
  | 4 => (die p).isSome && (die q).isSome || a == b
  | _ => true

/-- The write covers a byte of [a, a + n). -/
def WriteRec.meets (w : WriteRec) (a n : Nat) : Bool := decide (w.addr < a + n) && decide (a < w.addr + w.old.length)

/-- The write is the agent's, or stands for one of the agent's. -/
def WriteRec.of (w : WriteRec) (agent : Nat) : Bool := w.writer == agent || w.also.contains agent

/-- A read by the agent returns this write or a later one: its own plain store (R36), or a write that happens before it
(R48). -/
def WriteRec.forces (w : WriteRec) (agent : Nat) : Bool := w.of agent || w.acq.contains agent

/-- The record of a plain write: nobody has read it, and nothing orders it yet. -/
def newWrite (stamp a : Nat) (old : List Byte) (writer : Nat) : WriteRec :=
  { stamp := stamp, addr := a, old := old, writer := writer, also := [], rel := [], acq := [], readBy := [], sf := none, whole := false,
    done := false }

/-- The byte at a as it stood when the writes numbered up to `time` had been made; `h` lists the newest write first. -/
def byteAt (h : List WriteRec) (time a : Nat) (now : Byte) : Byte :=
  h.foldl (fun b w => if decide (time < w.stamp) && w.meets a 1 then nth b w.old (a - w.addr) else b) now

/-- A plain write: bytes stored from an address on, entering the coherence order of each location (R36). -/
def writeMem (agent : Nat) (a : Nat) (bs : List Byte) (s : State) : State :=
  { s with
    mem := putBytes s.mem a bs
    hist := newWrite s.seq a (rdBytes s a bs.length) agent :: s.hist
    seq := s.seq + 1 }

/-- Several runs of bytes written with one stamp: those of one sector or granule are one write (R35); `whole` when no observer may
see part of them (R270). A set-full store's write is ordered by its own release (R51). -/
def writeRunsAs (agent : Nat) (sf : Option Nat) (whole : Bool) (runs : List (Nat × List Byte)) (s : State) : State :=
  let s' := runs.foldl (fun s r => { s with
    mem := putBytes s.mem r.1 r.2
    hist := { newWrite s.seq r.1 (rdBytes s r.1 r.2.length) agent with rel := sf.toList, sf := sf, whole := whole } :: s.hist }) s
  { s' with seq := s.seq + 1 }

/-- A team's or an engine's plain write of several runs. -/
def writeRuns (agent : Nat) (sf : Option Nat) (runs : List (Nat × List Byte)) (s : State) : State := writeRunsAs agent sf false runs s

/-- What is left of a write's record when [a, a + n) is taken out of it. -/
def WriteRec.without (w : WriteRec) (a n : Nat) : List WriteRec :=
  if !w.meets a n then [w]
  else (if w.addr < a then [{ w with old := w.old.take (a - w.addr) }] else []) ++
    (if a + n < w.addr + w.old.length then [{ w with addr := a + n, old := w.old.drop (a + n - w.addr) }] else [])

/-- The past of [a, a + n) is forgotten: what stands there is what every reader finds (a frame zeroed or filled, R290). -/
def forgetRange (a n : Nat) (s : State) : State :=
  { s with hist := s.hist.flatMap (fun w => w.without a n) }

/-- Bytes stored by a write performed at every scope at once: every later read returns it or a later one (page tables, R279; the MMP's
and the command processor's records). -/
def pokeBytes (a : Nat) (bs : List Byte) (s : State) : State :=
  forgetRange a bs.length { s with mem := putBytes s.mem a bs }

/-- A number stored as n bytes. -/
def pokeNat (a n v : Nat) (s : State) : State := pokeBytes a (natBytes n v) s

/-- Bytes stored by a write of the agents, ordered by releases, that is performed at every scope at once (a counter's value, R39; an
applied log entry, R311): readers may have it from those agents (R42, R46). -/
def pokeAs (writer : Nat) (also rel : List Nat) (a : Nat) (bs : List Byte) (s : State) : State :=
  { s with
    mem := putBytes s.mem a bs
    hist := { newWrite s.seq a (rdBytes s a bs.length) writer with also := also, rel := rel, done := true } :: s.hist
    seq := s.seq + 1 }

/-- The stamp of the write that the agent's last read of byte x returned (R36). -/
def seenAt (s : State) (agent x : Nat) : Nat := smGet 0 (agent * 2 ^ 52 + x) s.seen

/-- The write has reached its port for certain: it was performed everywhere as it was made, or it is a write to a scratchpad that came
by the port itself (an add-on-store, a set-full store) or that another agent has read; the scratchpad's one copy makes it performed
at every scope (R38, R39; DEDUCED, notes/assumptions/93.md). -/
def WriteRec.reached (w : WriteRec) : Bool :=
  w.done || (decide (2 ^ 48 ≤ w.addr) &&
    (w.sf.isSome || decide (w.writer / 2 ^ 40 = 1) || w.readBy.any (fun b => !w.of b)))

/-- The agent's read of [a, a + n) finds the write made: its own plain store (R36), a write that happens before it (R48), one that
an earlier read of a location has returned (R36), or one that has been performed everywhere by now (R39, R58). -/
def mustShow (s : State) (agent a n : Nat) (w : WriteRec) : Bool :=
  w.forces agent || w.reached || decide (w.stamp + Config.delay w.stamp ≤ s.seq) ||
    (upFrom a n).any (fun x => w.meets x 1 && seenAt s agent x == w.stamp)

/-- The newest of the writes shown that covers byte x. -/
def shownAt (h : List WriteRec) (shown : List Nat) (x : Nat) : Nat :=
  h.foldl (fun m w => if w.meets x 1 && shown.contains w.stamp then max m w.stamp else m) 0

/-- The elements of a list that a free choice takes. -/
def pickSome {α : Type} : List α → State → List α × State
  | [], s => ([], s)
  | a :: l, s =>
    let (k, s) := choose 2 s
    let (r, s) := pickSome l s
    (if k = 0 then r else a :: r, s)

/-- The sector of global memory or granule of a scratchpad that an address lies in (R35). -/
def sectorOf (a : Nat) : Nat := if a < 2 ^ 48 then a / 32 else 2 ^ 60 + a / 16

/-- A read of [a, a + n) has found the writes of the stamps made: what that fixes for later reads (R36, R270), and, of those that provide
the bytes it returns, for releases and fences (R42, R46). -/
def noteRead (agent a n : Nat) (shown : List Nat) (s : State) : State :=
  let wholes := (s.hist.filter (fun w => w.whole && w.meets a n && shown.contains w.stamp)).map (fun w => w.stamp)
  let given := (upFrom a n).map (shownAt s.hist shown)
  { s with
    hist := s.hist.map (fun w =>
      if given.contains w.stamp && sectorOf w.addr == sectorOf a && !w.readBy.contains agent then { w with readBy := agent :: w.readBy }
      else if wholes.contains w.stamp && !w.acq.contains agent then { w with acq := agent :: w.acq } else w)
    seen := (upFrom a n).foldl (fun m x => smPut 0 (agent * 2 ^ 52 + x) (max (shownAt s.hist shown x) (seenAt s agent x)) m) s.seen }

/-- A read of one single-copy atomic unit of n bytes: each write to it is found wholly made or not at all (R35), by free choice
where R36, R48 and R58 leave one. -/
def readUnit (agent a n : Nat) (s : State) : List Byte × State :=
  let met := s.hist.filter (fun w => w.meets a n)
  if met.all (fun w => w.writer == agent) then (rdBytes s a n, s)
  else
    let must := ((met.filter (mustShow s agent a n)).map (fun w => w.stamp)).eraseDups
    let (more, s) := pickSome (((met.map (fun w => w.stamp)).eraseDups).filter (fun k => !must.contains k)) s
    ((upFrom a n).map (fun x => byteAt s.hist (shownAt s.hist (must ++ more) x) x (rdByte s x)), noteRead agent a n (must ++ more) s)

/-- A read of n bytes that returns the newest writes (R51, R194). -/
def readNow (agent a n : Nat) (s : State) : List Byte × State :=
  (rdBytes s a n, noteRead agent a n (((s.hist.filter (fun w => w.meets a n)).map (fun w => w.stamp)).eraseDups) s)

/-- Runs of consecutive addresses, none longer than its sector or granule (R35). -/
def runsOf : List (Nat × Byte) → List (Nat × List Byte)
  | [] => []
  | (a, b) :: l => match runsOf l with
    | (a', bs) :: rs => if a' = a + 1 ∧ sectorOf a' = sectorOf a then (a, b :: bs) :: rs else (a, [b]) :: (a', bs) :: rs
    | [] => [(a, [b])]

/-- The lengths of the aligned units of u bytes that cut n bytes from address a (n bounds the count). -/
def unitsOf (u : Nat) : Nat → Nat → Nat → List (Nat × Nat)
  | 0, _, _ => []
  | _, _, 0 => []
  | k + 1, a, n => (a, min n (u - a % u)) :: unitsOf u k (a + min n (u - a % u)) (n - min n (u - a % u))

/-- A read of n bytes, unit by unit of u aligned bytes (R35). -/
def readUnits (agent u a n : Nat) (s : State) : List Byte × State :=
  (unitsOf u n a n).foldl (fun r p =>
    let (bs, s') := readUnit agent p.1 p.2 r.2
    (r.1 ++ bs, s')) ([], s)

/-- The writes a release of the agent orders: its own (on every path named), those that happen before it and those its
reads returned (R42, R44), marked with the release's number. -/
def markRelease (n : Nat) (agents : List Nat) (s : State) : State :=
  { s with hist := s.hist.map (fun w =>
      if agents.any (fun a => w.of a || w.acq.contains a || w.readBy.contains a) then { w with rel := n :: w.rel } else w) }

/-- A release is made: it takes a number, is recorded and orders the agent's writes (R41, R44, R57). -/
def release (agents : List Nat) (r : Release) (s : State) : State :=
  let s := markRelease s.seq agents s
  { s with rels := amPut s.seq r s.rels, seq := s.seq + 1 }

/-- A release of an engine orders the writes of the operation it reports, and no others (R44). -/
def releaseOwn (writer : Nat) (r : Release) (s : State) : State :=
  { s with
    hist := s.hist.map (fun w => if w.of writer then { w with rel := s.seq :: w.rel } else w)
    rels := amPut s.seq r s.rels
    seq := s.seq + 1 }

/-- The agent acquires releases: the writes they ordered happen before what it does next (R45 to R47). -/
def acquireFrom (agent : Nat) (rs : List Nat) (s : State) : State :=
  { s with hist := s.hist.map (fun w =>
      if w.rel.any rs.contains && !w.acq.contains agent then { w with acq := agent :: w.acq } else w) }

/-- The releases on counter pa, with results up to v, that an acquire at a scope synchronises with (R45). -/
def syncCounter (s : State) (agent : Nat) (pos : Pos) (scope pa v : Nat) : List Nat :=
  (s.rels.filter (fun e =>
    (match e.2.counter with | some (c, r) => decide (c = pa) && decide (r ≤ v) | none => false) &&
    inDomain e.2.agent e.2.pos e.2.scope agent pos && inDomain agent pos scope e.2.agent e.2.pos)).map Prod.fst

/-- What an agent has written or acquired happens before what another does next (R47). -/
def inherit (a b : Nat) (s : State) : State :=
  { s with hist := s.hist.map (fun w =>
      if (w.of a || w.acq.contains a) && !w.acq.contains b then { w with acq := b :: w.acq } else w) }

/-- An acquire that observed value v of counter pa (R45). -/
def acquireCounter (agent : Nat) (pos : Pos) (scope pa v : Nat) (s : State) : State :=
  acquireFrom agent (syncCounter s agent pos scope pa v) s

/-- The write is one of the agent's own: on any path of a team (R42, R46). -/
def WriteRec.madeBy (w : WriteRec) (agent : Nat) : Bool :=
  w.of agent || (decide (agent < 2 ^ 40) && (w.of (agentAdds agent) || w.of (agentMatrix agent)))

/-- The releases that a fence acquire of the agent synchronises with, of agents whose domain and its own hold each other: those of
an agent of which it has read a write, or of an engine of whose reported writes it has read one (R42, R46), and for a FULL fence the
earlier FULL fences (R43). FULL fences of different scopes, each made by a team in the other's domain, are ordered as those of one
scope are: R43 speaks of one scope S (DESIGN CHOICE, notes/assumptions/94.md). -/
def syncFence (s : State) (agent : Nat) (pos : Pos) (scope : Nat) (full : Bool) : List Nat :=
  (s.rels.filter (fun e =>
    inDomain e.2.agent e.2.pos e.2.scope agent pos && inDomain agent pos scope e.2.agent e.2.pos &&
    ((full && e.2.full) ||
      s.hist.any (fun w => w.readBy.contains agent && (if e.2.all then w.madeBy e.2.agent else w.rel.contains e.1))))).map Prod.fst

/-- A counter add of a team, issued as operation n: made unless it would pass 2^64 − 1; a release at its scope of what the team's accesses
before the instruction were ordered by under that number (R15, R44). The old value, and whether it was made. -/
def teamAdd (n agent : Nat) (pos : Pos) (scope pa amount : Nat) (s : State) : (Nat × Bool) × State :=
  let old := rdNat s pa 8
  if 2 ^ 64 ≤ old + amount then ((old, false), s)
  else ((old, true), pokeAs agent [] [n] pa (natBytes 8 (old + amount))
    { s with rels := amPut n { agent := agent, pos := pos, scope := scope, full := false, all := true, counter := some (pa, old + amount) } s.rels })

/-- A counter add: made unless it would pass 2^64 − 1; a release of the agents' writes at its scope (R15, R44). The old
value, and whether it was made. -/
def counterAdd (agents : List Nat) (agent : Nat) (pos : Pos) (scope pa amount : Nat) (s : State) : (Nat × Bool) × State :=
  let old := rdNat s pa 8
  if 2 ^ 64 ≤ old + amount then ((old, false), s)
  else
    ((old, true), pokeAs agent [] [s.seq] pa (natBytes 8 (old + amount))
      (release agents { agent := agent, pos := pos, scope := scope, full := false, all := true, counter := some (pa, old + amount) } s))

/-- A counter add by an engine, on behalf of an agent: a release of the engine's own writes. Whether it was made. -/
def engineAdd (writer agent : Nat) (pos : Pos) (scope pa amount : Nat) (s : State) : Bool × State :=
  let old := rdNat s pa 8
  if 2 ^ 64 ≤ old + amount then (false, s)
  else (true, pokeAs writer [] [s.seq] pa (natBytes 8 (old + amount))
    (releaseOwn writer { agent := agent, pos := pos, scope := scope, full := false, all := false, counter := some (pa, old + amount) } s))

/-! ### Traps (R124 to R130) -/

/-- HCAUSE of R126. -/
def causeWord (cause pass : Nat) (partial_ fetch deferred : Bool) : DWord :=
  dw (cause + pass * 2 ^ 8 + b2n partial_ * 2 ^ 13 + b2n fetch * 2 ^ 14 + b2n deferred * 2 ^ 15)

/-- A byte range of physical memory meets the frame of a page table or log area, which no context and no host command reaches but
through the MMP (R279, R302). -/
def meetsTables (s : State) (a n : Nat) : Bool :=
  s.ctxs.any (fun c => c.2.tables.any (fun f => decide (f * 2 ^ 16 < a + n) && decide (a < f * 2 ^ 16 + 2 ^ 16)))

/-- A record written at a physical address that the host gives: never into a page table or log area (R279, R302). -/
def pokeHost (a : Nat) (bs : List Byte) (s : State) : State := if meetsTables s a bs.length then s else pokeBytes a bs s

/-- The frames of a die in its secure range, or outside it, which firmware fixes at boot (R400): where they begin on the die, counted
round it, and how many there are. The range is less than half the die (DESIGN CHOICE, notes/assumptions/42.md). -/
def frameArea (die : Nat) (secure : Bool) : Nat × Nat :=
  let a := Config.secureFirst die % 2 ^ 22
  let n := Config.secureFrames die % 2 ^ 22
  if secure then (a, n) else (a + n, 2 ^ 23 - n)

/-- A frame of device memory lies in its die's secure range. -/
def secureFrame (f : Nat) : Bool :=
  let (a, n) := frameArea (f / 2 ^ 23) true
  decide (a ≤ f % 2 ^ 23) && decide (f % 2 ^ 23 < a + n)

/-- The error record of a context: the first error fills it, every error is counted (R297). -/
def recordError (ctx gcore team : Nat) (r : TrapRec) (s : State) : State :=
  match amGet ctx s.ctxs with
  | none => s
  | some c =>
    let count := rdNat s (c.errRec + 48) 8
    let s := if count = 0 then
        pokeBytes c.errRec (natBytes 8 r.hcause.toNat ++ natBytes 8 r.haddr.toNat ++ natBytes 8 r.hpc.toNat ++
          natBytes 8 r.hinfo.toNat ++ natBytes 4 (gcore + team * 2 ^ 11) ++ natBytes 4 0 ++ natBytes 8 r.tick) s
      else s
    pokeNat (c.errRec + 48) 8 (sat64 (count + 1)) s

/-- A counter add refused to an agent other than a team is recorded in the context's error record (R15, R297). -/
def recordOverflow (ctx gcore team : Nat) (va : DWord) (amount : Nat) (s : State) : State :=
  recordError ctx gcore team { hcause := causeWord 0x18 0 false false false, haddr := va, hpc := 0, hinfo := dw amount, hdpc := 0, tick := s.toll } s

/-- A waiter leaves every merge entry; entries stay for any others, and a first-touch trap it had started passes on (R288,
R289). -/
def leaveMerge (w : Waiter) (s : State) : State :=
  { s with merge := s.merge.map (fun e => (e.1,
      { e.2 with
        waiters := e.2.waiters.filter (fun x => x != w)
        toucher := if e.2.toucher.map Waiter.frag == some w then none else e.2.toucher })) }

/-! ### Tiles and their colophons (R277, R396) -/

/-- A tile's retirement: its colophon record takes the next number of its launch and is on its way. -/
def retireTile (t : Team) (tile how : Nat) (st : Stamps) (s : State) : State :=
  match amGet t.unit s.units with
  | none => s
  | some u => match amGet u.launch s.launches with
    | none => s
    | some l =>
      if l.clrBase = 0 then s
      else { s with launches := amPut u.launch { l with
        clrSeq := l.clrSeq + 1
        clrPend := l.clrPend ++ [natBytes 8 st.cin ++ natBytes 8 st.owait ++ natBytes 8 st.mcomp ++ natBytes 8 s.toll ++
          natBytes 8 st.first ++ natBytes 2 tile ++ natBytes 2 (t.gcore + t.idx * 2 ^ 11) ++ natBytes 4 how ++
          natBytes 8 l.clrSeq ++ natBytes 8 0] } s.launches }

/-- An operation that has its place in a core's matrix queue (R259, R265). -/
def OpBody.queued : OpBody → Bool
  | .matrix _ => true
  | .mfen => true
  | .commit _ _ => true
  | .mwait _ => true
  | _ => false

/-- A matrix operation of the team is in its core's queue. -/
def matrixBusy (s : State) (team : Nat) : Bool := s.ops.any (fun o => decide (o.2.team = team) && o.2.body.queued)

/-- The tiles of a team that has exited are discarded once its matrix operations have completed (R277). -/
def discardTiles (team : Nat) (s : State) : State :=
  match amGet team s.teams with
  | none => s
  | some t =>
    if !t.exited || matrixBusy s team then s
    else
      modTeam team (fun t => { t with acc := [], accCount := 0, stamps := [] })
        (t.stamps.foldl (fun s (e : Nat × Stamps) => retireTile t e.1 2 e.2 s) s)

/-- A team none of whose lanes is left has exited once every matrix operation it issued has completed (R112, R277). -/
def settleTeam (team : Nat) (s : State) : State :=
  if s.frags.any (fun e => e.2.team == team) || matrixBusy s team then s
  else discardTiles team (modTeam team (fun t => { t with exited := true }) s)

/-- Every team of a unit stops as at a cancel and the unit finishes by cancel (R20, R127). Its operations in flight stay. -/
def stopUnit (unit : Nat) (s : State) : State :=
  let ids := (s.frags.filter (fun e => match amGet e.2.team s.teams with | some t => t.unit == unit | none => false)).map Prod.fst
  let s := ids.foldl (fun s i => leaveMerge (.frag i) (leaveMerge (.service i) s)) s
  let s := (s.ops.filter (fun o => match o.2.body with | .partner _ _ => o.2.unit == unit | _ => false)).foldl (fun s o => endOp o.1 s) s
  let s : State := { s with
    frags := s.frags.filter (fun e => !ids.contains e.1)
    teams := s.teams.map (fun e => if e.2.unit = unit then (e.1, { e.2 with exited := true, frame := none }) else e)
    ops := s.ops.filter (fun e => match e.2.body with
      | .fence .. => e.2.unit != unit
      | .overflow .. => e.2.unit != unit
      | .service _ => e.2.unit != unit
      | .ctrWait .. => e.2.unit != unit
      | .waitFull .. => e.2.unit != unit
      | .behind .. => e.2.unit != unit
      | _ => true)
    units := amMod unit (fun u => { u with cancelled := true }) s.units }
  (s.teams.filter (fun e => decide (e.2.unit = unit))).foldl (fun s e => discardTiles e.1 s) s

/-- A fragment that starts with a mask at an address, as a control transfer from `src` reaches it. -/
def newFrag (team : Nat) (pc : DWord) (mask : LaneMask) (key : Nat) (src : Option DWord) : Frag :=
  { team := team, pc := pc, beyond := false, mask := mask, entry := none, pending := none, clause := { hdr := 0, word := 0 }, key := key,
    pass := 0, mid := false, wait := .run, xfer := src, handler := false, held := none, deferred := [], iword := 0,
    tagging := none, latch := 0, taken := 0, arrived := false, delayed := false, hit := none, stopFor := none, frozen := false, skid := 0,
    stepping := none, stepSeq := 0 }

/-! ### What the debug unit records (R389 to R395) -/

/-- A register of a die's debug page, the secure bank from 0x8000 on; the spec gives the page no layout (DESIGN CHOICE,
notes/assumptions/40.md). -/
def dbgReg (s : State) (die off : Nat) : DWord := smGet 0 (0x600000 + die * 0x10000 + off) s.bar0

/-- A bank of a die's debug unit (R400): its number, from 2 on the secure ones, and where its registers begin in the page. -/
def dbgBank (die : Nat) (secure : Bool) : Nat × Nat := (die + 2 * b2n secure, 0x8000 * b2n secure)

/-- The debug unit writes a record through a bank: never to a page table or log area (R279), and through the non-secure bank never to
a secure page (R389). -/
def dbgWrite (secure : Bool) (a : Nat) (bs : List Byte) (s : State) : State :=
  if meetsTables s a bs.length || (!secure && decide (a < 2 ^ 40) && (secureFrame (a / 2 ^ 16) || secureFrame ((a + bs.length - 1) / 2 ^ 16)))
  then s else pokeBytes a bs s

/-! ### The register page of a fabric port (R380); the spec gives it no layout (DESIGN CHOICE, notes/assumptions/40.md) -/

/-- The page of port die·6 + n. -/
def portPage (port : Nat) : Nat := 0x400000 + port * 0x10000
/-- A register of ring port·64 + n: 0 RBASE, 8 the context and RLEN, 16 DB. -/
def ringReg (s : State) (ring k : Nat) : DWord := smGet 0 (portPage (ring / 64) + ring % 64 * 0x20 + k) s.bar0
/-- The context a ring is bound to. -/
def ringCtx (s : State) (ring : Nat) : Nat := bitsOf (ringReg s ring 8) 15 0

/-- The context of a team is debuggable (R389). -/
def debuggable (s : State) (t : Team) : Bool :=
  match amGet t.unit s.units with
  | none => false
  | some u => match amGet u.ctx s.ctxs with
    | none => false
    | some c => c.debuggable

/-- The team runs in a secure-world context: the unit's secure bank alone reads and writes its state (R389). -/
def secureTeam (s : State) (t : Team) : Bool :=
  match amGet t.unit s.units with
  | none => false
  | some u => match amGet u.ctx s.ctxs with
    | none => false
    | some c => c.secure

/-- A control-transfer record of a core with tracing enabled: toll, source PC and kind (R395). -/
def traceRec (t : Team) (kind : Nat) (pc : DWord) (s : State) : State :=
  let die := dieOf t.gcore
  let core := t.gcore % 768
  let (bank, off) := dbgBank die (secureTeam s t)
  let len := (dbgReg s die (off + 0x118)).toNat
  if bitsOf (dbgReg s die (off + 0x200 + 8 * (core / 64))) (core % 64) (core % 64) = 0 ∨ len = 0 ∨ !debuggable s t then s
  else
    let n := smGet 0 bank s.traced
    if (dbgReg s die (off + 0x120)).toNat + len ≤ n then { s with dropped := smPut 0 bank (smGet 0 bank s.dropped + 1) s.dropped }
    else dbgWrite (secureTeam s t) ((dbgReg s die (off + 0x110)).toNat + 16 * (n % len))
      (natBytes 8 s.toll ++ natBytes 8 (bitsOf pc 47 1 * 2 + kind * 2 ^ 48))
      { s with traced := smPut 0 bank (n + 1) s.traced }

/-- A fragment stops for the debug unit at a tick, and its skid record is written (R393). -/
def freezeFrag (i : Nat) (tick cause : Nat) (s : State) : State :=
  match amGet i s.frags with
  | none => s
  | some f => match amGet f.team s.teams with
    | none => s
    | some t =>
      let die := dieOf t.gcore
      let (bank, off) := dbgBank die (secureTeam s t)
      let n := smGet 0 bank s.skids
      let s := setFrag i { f with frozen := true, stopFor := none, stepping := none } s
      dbgWrite (secureTeam s t) ((dbgReg s die (off + 0x100)).toNat + 32 * n)
        (natBytes 8 tick ++ natBytes 8 f.pc.toNat ++ natBytes 2 (t.gcore % 16 + t.tslot * 16 + f.pass * 256) ++
          natBytes 2 (min f.skid 65535) ++ natBytes 4 cause ++ natBytes 8 0)
        { s with skids := smPut 0 bank (n + 1) s.skids }

/-- The fragments of a cluster. -/
def clusterFrags (s : State) (c : Nat) : List Nat :=
  (s.frags.filter (fun e => match amGet e.2.team s.teams with | some t => decide (clusterOf t.gcore = c) | none => false)).map Prod.fst

/-- A cluster stop is triggered (R393): the skid counts begin, and the broadcast is on its way. -/
def triggerStop (c cause : Nat) (s : State) : State :=
  if (amGet c s.stops).isSome then s
  else
    let s := (clusterFrags s c).foldl (fun s i => modFrag i (fun f => { f with skid := 0 }) s) s
    let s : State := { s with teams := s.teams.map (fun e => if clusterOf e.2.gcore = c then
      (e.1, { e.2 with frame := e.2.frame.map (fun r => { r with saved := { r.saved with skid := 0 } }) }) else e) }
    { s with stops := amPut c { tick := s.toll, cause := cause, cores := [] } s.stops }

/-- The wait that a fragment saved in a trap frame has when it resumes: it judges an arrival at RCV and a translation again; its
other waits are pending again (R122, R129). -/
def savedWait : Wait → Wait
  | .header w k => .header w k
  | .ctr op => .ctr op
  | .bar n t => .bar n t
  | .fence op => .fence op
  | .svc n a b c ns => .svc n a b c ns
  | .matrix op => .matrix op
  | _ => .run

/-- A trap is taken: the fragment goes into the team's trap frame, the trap registers are written, and a handler fragment
with its mask enters SHE in its place (R124). -/
def takeTrap (i : Nat) (f : Frag) (she : DWord) (r : TrapRec) (s : State) : State :=
  let s := match f.wait with
    | .merge .. => leaveMerge (.frag i) s
    | _ => s
  let s := match amGet f.team s.teams with
    | none => s
    | some t => traceRec t 5 f.pc s
  let s := modTeam f.team (fun t => { t with
    frame := some { saved := { f with held := none, mid := false, wait := savedWait f.wait, stepping := none }, hmask := f.mask, hpc0 := r.hpc }
    hcause := r.hcause, haddr := r.haddr, hpc := r.hpc, hinfo := r.hinfo, hdpc := r.hdpc }) s
  let s := setFrag i { newFrag f.team she f.mask r.tick (some 0) with handler := true, frozen := f.frozen, skid := if f.stepping.isSome then f.skid else 0 } s
  -- a step ends with the trap of its instruction (R394)
  if f.stepping.isSome then freezeFrag i (s.toll + 1) 0 s else s

/-- A trap of fragment i (R124, R127): it stops the unit in handler mode or with SHE 0, is held while the team has a
handler fragment, and is taken otherwise. -/
def raiseTrap (i : Nat) (r : TrapRec) (s : State) : State :=
  match amGet i s.frags with
  | none => s
  | some f => match amGet f.team s.teams with
    | none => s
    | some t => match amGet t.unit s.units with
      | none => s
      | some u =>
        if f.handler || u.she == 0 then stopUnit t.unit (recordError u.ctx t.gcore t.idx r s)
        else if t.frame.isSome then setFrag i { f with wait := .trapped, held := some r, mid := false } s
        else takeTrap i f u.she r s

/-- The mask word of the pass that a fragment would issue next: the first word from `pass` on that is not zero. -/
def passWord (f : Frag) : Nat := (wordsFrom f.mask f.pass).headD 0

/-- A trap raised by a pass of the fragment's instruction at its PC: PASS and PARTIAL are those of a lane-acting
instruction, or 0 for one of a single pass (R126). -/
def trapHere (i : Nat) (f : Frag) (lanes : Bool) (cause : Nat) (hpc haddr hinfo : DWord) (fetch : Bool) (s : State) : State :=
  let j := if lanes then passWord f else 0
  raiseTrap i
    { hcause := causeWord cause j (lanes && (wordsFrom f.mask 0).headD 0 != j) fetch false,
      haddr := haddr, hpc := hpc, hinfo := hinfo, hdpc := 0, tick := s.toll } s

/-- The address of the instruction that a fragment would issue next: past the one at which it waits with its pass issued. -/
def Frag.nextPc (f : Frag) : DWord :=
  match f.wait with
  | .rcv => f.pc + 4
  | .ctr _ => f.pc + 4
  | .bar _ _ => f.pc + 4
  | .fence _ => f.pc + 4
  | .svc .. => f.pc + 4
  | .matrix _ => f.pc + 4
  | _ => f.pc

/-- A deferred trap of fragment i (R122): taken at once unless the team has a handler fragment; HPC is the instruction the
fragment would issue next. -/
def raiseDeferred (i : Nat) (r : TrapRec) (s : State) : State :=
  match amGet i s.frags with
  | none => s
  | some f => match amGet f.team s.teams with
    | none => s
    | some t => match amGet t.unit s.units with
      | none => s
      | some u =>
        if f.handler || u.she == 0 then stopUnit t.unit (recordError u.ctx t.gcore t.idx { r with hpc := f.nextPc } s)
        else if t.frame.isSome then setFrag i { f with deferred := f.deferred ++ [r] } s
        else takeTrap i f u.she { r with hpc := f.nextPc } s

/-- The tick of the trap that a fragment holds pending (R124, R122). -/
def pendingTick (f : Frag) : Option Nat :=
  match f.held with
  | some r => some r.tick
  | none => (f.deferred.head?).map (fun r => r.tick)

/-- The earliest pending trap of a team without a handler fragment is taken: trap-tick order, ties to the lowest first lane
(R124). -/
def takePending (team : Nat) (s : State) : State :=
  let waiting := s.frags.filter (fun e => e.2.team == team && (pendingTick e.2).isSome)
  match minBy (fun e => (pendingTick e.2).getD 0 * 2048 + lowestLane e.2.mask) waiting with
  | none => s
  | some (i, f) => match f.held, f.deferred with
    | some r, _ => raiseTrap i r (setFrag i { f with wait := .run, held := none } s)
    | none, r :: rs => raiseDeferred i r (setFrag i { f with deferred := rs } s)
    | none, [] => s

/-- The causes whose trapped instruction resumes at the saved pass: HPC "This" (R125, R129). -/
def resumesThis (cause : Nat) : Bool := cause != 0x03 && cause != 0x13 && cause != 0x20 && cause != 0x21 && cause != 0x22

/-- A return from a handler (R129): the saved fragment takes the handler's place, at the saved pass if HPC is unchanged and
the cause's HPC is "This", else at HPC from pass 0; a wait that a deferred trap found pending is pending again (R122); it leaves a
first-touch entry whose handler this was (R289); then a pending trap is taken (R124). With HPC unchanged after a deferred trap between
two passes, R129's pass 0 is followed (DESIGN CHOICE, notes/assumptions/49.md). -/
def returnFromTrap (i : Nat) (team : Nat) (s : State) : State :=
  match amGet team s.teams with
  | none => s
  | some t => match t.frame with
    | none => s
    | some fr =>
      let f := if t.hpc != fr.hpc0 then
          { fr.saved with pc := t.hpc, beyond := false, pass := 0, wait := .run, xfer := none, arrived := false, tagging := none, hit := none }
        else if bitsOf t.hcause 15 15 == 1 then { fr.saved with pass := 0, xfer := none }
        else if resumesThis (bitsOf t.hcause 7 0) then { fr.saved with xfer := none }
        else { fr.saved with pc := t.hpc, beyond := false, pass := 0, wait := .run, xfer := none, arrived := false, tagging := none }
      takePending team (setFrag i f (modTeam team (fun t => { t with frame := none }) (leaveMerge (.frag i) s)))

/-! ### Ending an instruction -/

/-- A pass has issued: its core issues again at a later tick (R101), and the debug unit's count of passes goes on. -/
def spend (i : Nat) (s : State) : State :=
  match amGet i s.frags with
  | none => s
  | some f => match amGet f.team s.teams with
    | none => s
    | some t =>
      -- passes at the trigger's tick are not counted (R393)
      let counted := match amGet (clusterOf t.gcore) s.stops with | some st => decide (st.tick < s.toll) | none => true
      setFrag i { f with skid := f.skid + b2n counted } { s with issued := amPut t.gcore (s.toll + 1) s.issued }

/-- The exact address is none of 0 to 2^64 − 1 (R63). -/
def noAddress (a : Int) : Bool := decide (a < 0) || decide ((2 : Int) ^ 64 ≤ a)

/-- A branch target (R68): the address of the branching instruction and a signed count of halfwords, without wrap. -/
def branchTarget (pc : DWord) (halfwords : Int) : Int := (pc.toNat : Int) + 2 * halfwords

/-- The fragment goes on after the instruction; its key is the tick after the last pass (R101). What follows an instruction that ends at
2^64 is open: its fetch is past every address, and raises ILLEGAL-TARGET (DESIGN CHOICE, notes/assumptions/82.md). -/
def moveOn (len : Nat) (key : Nat) (f : Frag) : Frag :=
  { f with pc := f.pc + dw len, beyond := noAddress ((f.pc.toNat : Int) + len), pass := 0, mid := false, wait := .run, xfer := none,
           key := key, arrived := false, delayed := false, tagging := none }

/-- What a watchpoint hit of the finished instruction leads to (R392): nothing more, where the unit's stop was made at the hitting pass;
otherwise the trap WATCHPOINT, at the next instruction. -/
def finishHit (i : Nat) (s : State) : State :=
  match amGet i s.frags with
  | none => s
  | some f => match f.hit with
    | none => s
    | some h => if h.taken then setFrag i { f with hit := none } s else raiseTrap i
        { hcause := causeWord 0x22 h.word false false false, haddr := h.addr, hpc := f.pc, hinfo := dw h.lane, hdpc := 0, tick := s.toll }
        (setFrag i { f with hit := none } s)

/-- The wait-full load that a fragment's STEP has issued waits for a granule (R394). -/
def stepWaits (s : State) (i : Nat) (f : Frag) : Bool :=
  f.stepping.isSome && s.ops.any (fun o => decide (f.stepSeq ≤ o.1) && o.2.frag == i && match o.2.body with
    | .waitFull ls _ => !ls.isEmpty
    | _ => false)

/-- The end of a debug step (R394), or of the pass that a watchpoint the unit takes hit (R392): the fragment stops. Where the step was
of a wait-full load that waits, it issues nothing more, and its record comes with the load's return. -/
def finishStop (i : Nat) (s : State) : State :=
  match amGet i s.frags with
  | none => s
  | some f => match f.stopFor with
    | some c => freezeFrag i (s.toll + 1) c s
    | none => match f.stepping with
      | some _ =>
        if f.mid || f.wait != .run then s
        else if stepWaits s i f then setFrag i { f with frozen := true } s
        else freezeFrag i (s.toll + 1) 0 s
      | none => s

/-- The fragment's instruction is over: it goes on to the next. -/
def advance (i : Nat) (len : Nat) (s : State) : State :=
  finishStop i (finishHit i (modFrag i (moveOn len (s.toll + 1)) (spend i s)))

/-- The fragment transfers control to an exact target, which must be a clause header (R68, R75). -/
def transfer (i : Nat) (target : Int) (s : State) : State :=
  finishStop i (modFrag i (fun f => { f with pc := BitVec.ofInt 64 target, beyond := noAddress target, pass := 0, mid := false,
                                             xfer := some f.pc, key := s.toll + 1, tagging := none }) (spend i s))

/-- One pass is over: the fragment goes to its next mask word, or past the instruction after the last (R93). -/
def passDone (i : Nat) (len : Nat) (s : State) : State :=
  match amGet i s.frags with
  | none => s
  | some f => match wordsFrom f.mask (passWord f + 1) with
    | [] => advance i len s
    | j :: _ => finishStop i (modFrag i (fun f => { f with pass := j, mid := true }) (spend i s))

/-- A fragment begins a wait at its instruction, whose pass has issued: its key is the tick after that pass (R101). -/
def beginWait (i : Nat) (w : Wait) (s : State) : State :=
  modFrag i (fun f => { f with wait := w, mid := false, key := s.toll + 1 }) (spend i s)

/-- A fragment that waits at a 32-bit instruction, live or saved in a trap frame, goes on past it; the wait's return is no pass
(R101, R122). -/
def resumeAfter (w : Wait) (s : State) : State :=
  let go (f : Frag) : Frag := moveOn 4 f.key f
  let ids := (s.frags.filter (fun e => e.2.wait == w)).map Prod.fst
  let s := { s with
    frags := s.frags.map (fun e => if e.2.wait = w then (e.1, go e.2) else e)
    teams := s.teams.map (fun e => match e.2.frame with
      | some fr => if fr.saved.wait = w then (e.1, { e.2 with frame := some { fr with saved := go fr.saved } }) else e
      | none => e) }
  ids.foldl (fun s i => finishStop i s) s

/-- A wait for a page that a pass over lanes begins. -/
def Wait.ofLanes (lanes : Bool) : Wait → Wait
  | .merge n va 0 => .merge n va (b2n lanes)
  | w => w

/-- The core of fragment i has issued its pass of this tick (R102). -/
def passTick (i : Nat) (s : State) : State :=
  match amGet i s.frags with
  | none => s
  | some f => match amGet f.team s.teams with
    | none => s
    | some t => { s with issued := amPut t.gcore (s.toll + 1) s.issued }

/-- What a Stop does to the fragment's pass: one that traps has issued (R102, R124). -/
def stopPass (i : Nat) (f : Frag) (lanes : Bool) (s : State) : Stop → State
  | .trap c haddr hinfo => trapHere i f lanes c f.pc haddr hinfo false (passTick i s)
  | .trapAt c hpc haddr hinfo => trapHere i f lanes c hpc haddr hinfo false (passTick i s)
  | .wait w => modFrag i (fun f => { f with wait := w.ofLanes lanes, mid := false }) s
  | .stall => s

/-- An instruction that acts on lanes: one pass of the selected fragment (R93). -/
def lanePass (len : Nat) (body : State → Nat → Frag → Team → List Nat → Except (State × Stop) State) (s : State) : Out :=
  match current s with
  | none => .fault .noFragment
  | some (i, f, t) =>
    match body s i f t (wordLanes f.mask (passWord f)) with
    | .ok s' => .next (passDone i len s')
    | .error (s', e) => .next (stopPass i f true s' e)

/-- The pass is the first of its fragment's instruction (R93). -/
def firstPass (f : Frag) : Bool := passWord f == (wordsFrom f.mask 0).headD 0

/-- The pass is the last of its fragment's instruction (R93). -/
def lastPass (f : Frag) : Bool := (wordsFrom f.mask (passWord f + 1)).isEmpty

/-- One pass of an instruction that reads a condition of each active lane, and takes effect with its last pass (R93, R95, R120):
`look` gives the conditions and what the first pass keeps; `finish` has the fragment with all that the passes have found. -/
def gatherPass (look : State → Frag → Team → Except (State × Stop) ((Nat → Bool) × DWord))
    (finish : State → Nat → Frag → Team → Except (State × Stop) State) (s : State) : Out :=
  match current s with
  | none => .fault .noFragment
  | some (i, f, t) =>
    match look s f t with
    | .error (s', e) => .next (stopPass i f true s' e)
    | .ok (true_, first) =>
      let f' := { f with
        taken := (if firstPass f then 0 else f.taken) ||| maskOf ((wordLanes f.mask (passWord f)).filter true_)
        latch := if firstPass f then first else f.latch }
      if lastPass f then
        match finish s i f' t with
        | .ok s' => .next s'
        | .error (s', e) => .next (stopPass i f true s' e)
      else .next (passDone i 4 (setFrag i f' s))

/-- An instruction whose passes the model issues together, with none of another fragment between them (R93, R154, R216): it is over
with the last of them; a trap is its first pass's. -/
def allPasses (len : Nat) (body : State → Nat → Frag → Team → Except (State × Stop) State) (s : State) : Out :=
  match current s with
  | none => .fault .noFragment
  | some (i, f, t) =>
    match body s i f t with
    | .ok s' =>
      let more := (wordsFrom f.mask (passWord f)).length - 1
      .next (finishStop i (finishHit i (modFrag i (fun g => moveOn len (s'.toll + 1 + more) { g with skid := g.skid + more })
        (let x := spend i s'; { x with issued := amPut t.gcore (s'.toll + 1 + more) x.issued }))))
    | .error (s', e) => .next (stopPass i f true s' e)

/-- An instruction of one pass that acts on no lane and goes on to the next instruction. -/
def onePass (len : Nat) (body : State → Nat → Frag → Team → Except (State × Stop) State) (s : State) : Out :=
  match current s with
  | none => .fault .noFragment
  | some (i, f, t) =>
    match body s i f t with
    | .ok s' => .next (advance i len s')
    | .error (s', e) => .next (stopPass i f false s' e)

/-- An instruction of one pass whose body itself says where the fragment goes. -/
def onePassTo (body : State → Nat → Frag → Team → Except (State × Stop) State) (s : State) : Out :=
  match current s with
  | none => .fault .noFragment
  | some (i, f, t) =>
    match body s i f t with
    | .ok s' => .next s'
    | .error (s', e) => .next (stopPass i f false s' e)

/-- ILLEGAL-INSTRUCTION with the instruction word (R125). -/
def illegal (s : State) (f : Frag) : State × Stop := (s, .trap 0x01 0 (dw f.iword.toNat))
/-- ILLEGAL-MODE with the instruction word (R125). -/
def illegalMode (s : State) (f : Frag) : State × Stop := (s, .trap 0x02 0 (dw f.iword.toNat))

/-- The register checks of an instruction of width W = 2^w whose operands, each given with its group size h, cover W·h
registers: every register reached below d64 lies below the declared count (R71); then the mode is one the instruction is
defined in, and every operand is a multiple of W·h whose group ends by d63 (R70, R173). -/
def checkRegs (s : State) (f : Frag) (t : Team) (w : BitVec 2) (modeOk : Bool) (regs : List (Nat × Nat)) :
    Except (State × Stop) Unit :=
  let n := 2 ^ w.toNat
  if regs.any (fun r => decide (t.regs ≤ min (r.1 + n * r.2 - 1) 63)) then .error (illegal s f)
  else if !modeOk || regs.any (fun r => r.1 % (n * r.2) != 0 || decide (64 < r.1 + n * r.2)) then .error (illegalMode s f)
  else .ok ()

end Sys2Proof.Machine
end

