-- ==== Sys2Proof/Machine/Flags.lean ====
section
/-! DEFINITION. FLAGS and OVF (R107, R138, R139), and the finishing rules of variances and LIN groups (R160, R170, R174). -/

namespace Sys2Proof.Machine

/-- FLAGS bits set by OR; INV or OF also sets OVF.LANE (R139). -/
def setFlags (team fl : Nat) (s : State) : State :=
  if fl = 0 then s
  else modTeam team (fun t => { t with
    flags := t.flags ||| dw fl
    ovf := if fl &&& (fINV + fOF) = 0 then t.ovf else t.ovf ||| 4 }) s

/-- OVF bits set by OR (R107). -/
def setOvf (team bits : Nat) (s : State) : State := modTeam team (fun t => { t with ovf := t.ovf ||| dw bits }) s

/-- A variance or residual after R160 (and the last lines of R170), for a mean that is not NaN: the word and SPO. -/
def finishVar (v : Word) : Word × Nat :=
  if isNan v || v == infOf false then (infOf false, fSPO) else if v == zeroOf true then (0, 0) else (v, 0)

/-- R160: the final variance of a MOM result. -/
def finishMom (mu v : Word) : Word × Nat := if isNan mu then (qnan, 0) else finishVar v

/-- R174: the intake rule. -/
def intake (mu x : Word) : Word × Nat :=
  if isNan mu then (qnan, 0)
  else if isNan x || x == infOf false || (signOf x && !isZero x) then (infOf false, fSPO)
  else if x == zeroOf true then (0, 0)
  else (x, 0)

/-- A LIN group's value (R161): mean, residual, coefficient, tag. -/
structure Lin where
  mu : Word
  r : Word
  c : Word
  t : Nat
  deriving DecidableEq, Repr

/-- R170: the finishing rule of a LIN result. -/
def finishLin (g : Lin) : Lin × Nat :=
  if isNan g.mu then (⟨g.mu, qnan, qnan, 0⟩, 0)
  else if isNan g.c || isInf g.c then (⟨g.mu, infOf false, 0, 0⟩, fSPO)
  else
    let (r, fl) := finishVar g.r
    (⟨g.mu, r, if g.t = 0 || g.c == zeroOf true then 0 else g.c, g.t⟩, fl)

end Sys2Proof.Machine
end

