-- ==== Sys2Proof/Machine/Operands.lean ====
section
/-! DEFINITION. The operands of lane instructions: pattern slots (R72, R142), groups by distribution mode (R70, R135, R161),
and the passes that read, compute and write them (R140, R141). -/

namespace Sys2Proof.Machine

/-- The source lane of lane i of a pass through a pattern (R142). -/
def Pattern.source (p : Pattern) (i : Nat) : Nat :=
  match p.kind.toNat with
  | 0 => (i + p.n.toNat) % 32
  | 1 => p.n.toNat
  | 2 => i ^^^ 2 ^ p.n.toNat
  | _ => i ^^^ (2 ^ p.n.toNat - 1)

/-- The pattern in slot x0 to x3; x0 is identity (R72). -/
def slot (t : Team) (x : Nat) : Pattern :=
  match x with
  | 0 => ⟨0, 0⟩
  | 1 => t.x1
  | 2 => t.x2
  | _ => t.x3

/-- The lane whose registers lane l reads through slot x: in the same 32-lane pass. -/
def srcLane (t : Team) (x l : Nat) : Nat := 32 * (l / 32) + (slot t x).source (l % 32)

/-- The mean word of a register (R135). -/
def meanOf (v : DWord) : Word := v.setWidth 32
/-- The spread word of a register (R135). -/
def spreadOf (v : DWord) : Word := (v >>> 32).setWidth 32
/-- A register of a mean and a spread word. -/
def reg (m s : Word) : DWord := s ++ m

/-- The h registers from r in lane l. -/
def groupAt (t : Team) (l r h : Nat) : List DWord := (upFrom r h).map (dGet t l)

/-- The value words of a group (R135): eight samples in SMP, else the first mean word. -/
def values (mode : Nat) (g : List DWord) : List Word :=
  if mode = 3 then g.flatMap (fun v => [meanOf v, spreadOf v]) else [meanOf (g.headD 0)]

/-- Samples packed into registers (R161). -/
def packSamples : List Word → List DWord
  | a :: b :: l => reg a b :: packSamples l
  | [a] => [reg a 0]
  | [] => []

/-- An integer result as its mode writes it (R140): the spread words are 0. -/
def packInt (mode : Nat) (ws : List Word) : List DWord :=
  match mode with
  | 2 => [reg (ws.headD 0) 0, 0]
  | 3 => packSamples ws
  | _ => [reg (ws.headD 0) 0]

/-- The LIN value of a group, as instructions read it (R162): with tag 0 there is no term. -/
def linOf (g : List DWord) : Lin :=
  let a := g.headD 0
  let b := nth 0 g 1
  let t := (spreadOf b).toNat % 256
  ⟨meanOf a, unsign (spreadOf a), if t = 0 then 0 else meanOf b, t⟩

/-- The registers of a LIN value. -/
def packLin (g : Lin) : List DWord := [reg g.mu g.r, reg g.c (BitVec.ofNat 32 g.t)]

/-- What a pass computes for one lane and one operation: from the mode, acct and the source groups (a, b, then old d), the
registers of the result and the FLAGS bits. -/
abbrev LaneFn := Nat → Bool → List (List DWord) → List DWord × Nat

/-- A source operand: its register, its pattern slot and its group size by mode. -/
structure Src where
  r : Nat
  x : Nat
  h : Nat → Nat

/-- The results of one pass: for every lane and operation, the registers written from d on; and the FLAGS bits. -/
def passResults (t : Team) (mode : Nat) (acct : Bool) (n d hd : Nat) (srcs : List Src) (fn : LaneFn) (lanes : List Nat) :
    List (Nat × Nat × DWord) × Nat :=
  let one (l j : Nat) : List (Nat × Nat × DWord) × Nat :=
    let gs := srcs.map (fun a => groupAt t (srcLane t a.x l) (a.r + j * a.h mode) (a.h mode))
    let (vs, fl) := fn mode acct (gs ++ [groupAt t l (d + j * hd) hd])
    ((vs.zip (upFrom (d + j * hd) vs.length)).map (fun v => (l, v.2, v.1)), fl)
  let rs := lanes.flatMap (fun l => (upFrom 0 n).map (one l))
  (rs.flatMap Prod.fst, rs.foldl (fun m r => m ||| r.2) 0)

/-- A lane-engine or spread-engine instruction: in each pass it checks its registers and mode, reads every source, then
writes (R70, R71, R141). -/
def laneGen (len : Nat) (w : BitVec 2) (modes : Nat → Bool) (d : Nat) (hd : Nat → Nat) (srcs : List Src) (fn : LaneFn)
    (s : State) : Out :=
  lanePass len (fun s _ f t lanes =>
    match checkRegs s f t w (modes f.mode) ((d, hd f.mode) :: srcs.map (fun a => (a.r, a.h f.mode))) with
    | .error e => .error e
    | .ok () =>
      let (ws, fl) := passResults t f.mode f.acct (2 ^ w.toNat) d (hd f.mode) srcs fn lanes
      .ok (setFlags f.team fl (writeLanes f.team ws s))) s

/-- Any mode. -/
def anyMode (_ : Nat) : Bool := true
/-- Group size 1 in every mode. -/
def single (_ : Nat) : Nat := 1

/-- An instruction of two sources whose operands all take the clause's group size. -/
def laneOp2 (len : Nat) (w : BitVec 2) (d a : Nat) (p : BitVec 2) (b : Nat) (q : BitVec 2) (modes : Nat → Bool) (fn : LaneFn)
    (s : State) : Out :=
  laneGen len w modes d groupOf [⟨a, p.toNat, groupOf⟩, ⟨b, q.toNat, groupOf⟩] fn s

/-- An instruction of one source whose operands take the clause's group size. -/
def laneOp1 (len : Nat) (w : BitVec 2) (d a : Nat) (p : BitVec 2) (fn : LaneFn) (s : State) : Out :=
  laneGen len w anyMode d groupOf [⟨a, p.toNat, groupOf⟩] fn s

/-- Group k of the sources given to a LaneFn. -/
def grp (gs : List (List DWord)) (k : Nat) : List DWord := nth [] gs k

/-- An integer function of the value words of a, b and the old d (R140). -/
def intFn2 (op : Word → Word → Word → Word) : LaneFn := fun mode _ gs =>
  let a := values mode (grp gs 0)
  let b := values mode (grp gs 1)
  let d := values mode (grp gs 2)
  (packInt mode ((a.zip (b.zip d)).map (fun x => op x.1 x.2.1 x.2.2)), 0)

/-- An integer-result function of the value word of a, with FLAGS bits. -/
def intFn1 (op : Word → Word × Nat) : LaneFn := fun mode _ gs =>
  let rs := (values mode (grp gs 0)).map op
  (packInt mode (rs.map Prod.fst), rs.foldl (fun m r => m ||| r.2) 0)

end Sys2Proof.Machine
end

