-- ==== Sys2Proof/Machine/Fp.lean ====
section
/-! DEFINITION. Binary32 operations of the lane engine with what each mode adds to the mean: MOM variances (R158 to R160),
LIN terms and residuals (R167 to R170), SMP samples (R166). -/

namespace Sys2Proof.Machine

/-- A MOM value: mean, and variance with its sign bit ignored (R158). -/
structure Mom where
  m : Word
  v : Word
  deriving DecidableEq, Repr

/-- The MOM value of a register. -/
def momOf (v : DWord) : Mom := ⟨meanOf v, unsign (spreadOf v)⟩

/-- An FP operation: the mean, the MOM variance before accounting (R158) and the LIN term and residual before accounting
(R168), of operands a, b and old d and the result's mean. -/
structure FpOp where
  mean : Word → Word → Word → FRes
  var : Mom → Mom → Mom → Word → Word
  lin : Lin → Lin → Lin → Word → Lin

/-- The accounting term, when the header sets acct (R159, R169). -/
def account (acct : Bool) (mu v : Word) : Word := if acct then (fAdd v (roundVar (ulp mu 24))).w else v

/-- An FP result in its mode (R140, R165, R166, R170). R152 lets FABS and FNEG set no flag, and R160 has SPO set for a variance that is NaN or
+infinity: in MOM every result's variance goes through R160, theirs included (DESIGN CHOICE, notes/assumptions/52.md). -/
def fpFn (o : FpOp) : LaneFn := fun mode acct gs =>
  let ga := grp gs 0
  let gb := grp gs 1
  let gd := nth (grp gs 1) gs (gs.length - 1)
  match mode with
  | 0 =>
    let r := o.mean (meanOf (ga.headD 0)) (meanOf (gb.headD 0)) (meanOf (gd.headD 0))
    ([reg r.w 0], r.fl)
  | 1 =>
    let a := momOf (ga.headD 0)
    let b := momOf (gb.headD 0)
    let d := momOf (gd.headD 0)
    let r := o.mean a.m b.m d.m
    let v := finishMom r.w (account acct r.w (o.var a b d r.w))
    ([reg r.w v.1], r.fl ||| v.2)
  | 2 =>
    let a := linOf ga
    let b := linOf gb
    let d := linOf gd
    let r := o.mean a.mu b.mu d.mu
    let g := o.lin a b d r.w
    let v := finishLin { g with mu := r.w, r := account acct r.w g.r }
    (packLin v.1, r.fl ||| v.2)
  | _ =>
    let a := values 3 ga
    let b := values 3 gb
    let d := values 3 gd
    let rs := (upFrom 0 8).map (fun k => o.mean (nth 0 a k) (nth 0 b k) (nth 0 d k))
    (packSamples (rs.map FRes.w), rs.foldl (fun m r => m ||| r.fl) 0)

/-- P + Q of FMUL and FMA (R158): each product is formed only for a variance that is not zero. -/
def crossVar (ma va mb vb : Word) : Word :=
  let p := if va = 0 then 0 else (fMul (fMul mb mb).w va).w
  let q := if vb = 0 then 0 else (fMul (fMul ma ma).w vb).w
  (fAdd p q).w

/-- MERGE of R167: the term kept, and the residual with a discarded term folded in. -/
def mergeTerms (p q : Word × Nat) (r : Word) : Word × Nat × Word :=
  if q.2 = 0 then (p.1, p.2, r)
  else if p.2 = 0 then (q.1, q.2, r)
  else if p.2 = q.2 then ((fAdd p.1 q.1).w, p.2, r)
  else
    let swap := fLt (unsign p.1) (unsign q.1)
    let keep := if swap then q else p
    let drop := if swap then p else q
    (keep.1, keep.2, (fAdd r (fMul drop.1 drop.1).w).w)

/-- A LIN value from MERGE's result; its mean is set by the caller. -/
def linMerged (m : Word × Nat × Word) : Lin := ⟨0, m.2.2, m.1, m.2.1⟩

/-- FMUL's term before merging: a product for tag 0 is not formed (R168). -/
def termTimes (mu : Word) (c : Word) (t : Nat) : Word × Nat := if t = 0 then (0, 0) else ((fMul mu c).w, t)

/-- FMUL's term and residual (R168). -/
def linMul (a b : Lin) : Word × Nat × Word :=
  mergeTerms (termTimes b.mu a.c a.t) (termTimes a.mu b.c b.t) (crossVar a.mu a.r b.mu b.r)

/-- FADD. -/
def opAdd : FpOp where
  mean a b _ := fAdd a b
  var a b _ _ := (fAdd a.v b.v).w
  lin a b _ _ := linMerged (mergeTerms (a.c, a.t) (b.c, b.t) (fAdd a.r b.r).w)

/-- FSUB. -/
def opSub : FpOp where
  mean a b _ := fSub a b
  var a b _ _ := (fAdd a.v b.v).w
  lin a b _ _ := linMerged (mergeTerms (a.c, a.t) (b.c ^^^ 0x80000000, b.t) (fAdd a.r b.r).w)

/-- FMUL. -/
def opMul : FpOp where
  mean a b _ := fMul a b
  var a b _ _ := crossVar a.m a.v b.m b.v
  lin a b _ _ := linMerged (linMul a b)

/-- FMA. -/
def opFma : FpOp where
  mean a b d := fFma a b d
  var a b d _ := (fAdd (crossVar a.m a.v b.m b.v) d.v).w
  lin a b d _ :=
    let k := linMul a b
    linMerged (mergeTerms (k.1, k.2.1) (d.c, d.t) (fAdd k.2.2 d.r).w)

/-- A function with a derivative, by its number (R151, R158, R168). -/
def opFnu (fn : Nat) : FpOp where
  mean a _ _ := fnu fn a
  var a _ _ _ := if a.v = 0 then 0 else let g := derivative fn a.m; (fMul (fMul g g).w a.v).w
  lin a _ _ _ :=
    let g := derivative fn a.mu
    ⟨0, if a.r = 0 then 0 else (fMul (fMul g g).w a.r).w, if a.t = 0 then 0 else (fMul g a.c).w, a.t⟩

/-- FABS and FNEG: `flip` of the sign bit of a number. -/
def opSign (f : Word → Word) (flips : Word → Bool) : FpOp where
  mean a _ _ := ⟨if isNan a then qnan else f a, 0⟩
  var a _ _ _ := a.v
  lin a _ _ _ := ⟨0, a.r, if flips a.mu then a.c ^^^ 0x80000000 else a.c, a.t⟩

/-- A function whose result carries no spread of its operand: FRINT, FFLOOR, FTRUNC, CVTIF, CVTUF (R158, R168). -/
def opFresh (f : Word → FRes) : FpOp where
  mean a _ _ := f a
  var _ _ _ _ := 0
  lin _ _ _ _ := ⟨0, 0, 0, 0⟩

/-- RND to p bits (R153). -/
def opRnd (p : Nat) : FpOp where
  mean a _ _ := fRound p a
  var a _ _ _ := (fAdd a.v (roundVar (ulp a.m p))).w
  lin a _ _ _ := ⟨0, (fAdd a.r (roundVar (ulp a.mu p))).w, a.c, a.t⟩

/-- FMIN (`less`) and FMAX (R147): the operand picked, whole; for two NaNs the mode's finishing rule. -/
def minMaxFn (less : Bool) : LaneFn := fun mode _ gs =>
  let ga := grp gs 0
  let gb := grp gs 1
  let a := meanOf (ga.headD 0)
  let b := meanOf (gb.headD 0)
  match mode with
  | 0 => ([reg (fPick less a b) 0], 0)
  | 1 =>
    let v := match pickB less a b with
      | none => 0
      | some true => (momOf (gb.headD 0)).v
      | some false => (momOf (ga.headD 0)).v
    let x := finishMom (fPick less a b) v
    ([reg (fPick less a b) x.1], x.2)
  | 2 => match pickB less a b with
    | none => (packLin ⟨qnan, qnan, qnan, 0⟩, 0)
    | some true => (gb, 0)
    | some false => (ga, 0)
  | _ => (packSamples (((values 3 ga).zip (values 3 gb)).map (fun x => fPick less x.1 x.2)), 0)

/-- A comparison's integer result (R148). -/
def cmpFn (c : Word → Word → Bool) : LaneFn := intFn2 (fun a b _ => BitVec.ofNat 32 (b2n (c a b)))

end Sys2Proof.Machine
end

