-- ==== Sys2Proof/Machine/Xlat.lean ====
section
/-! DEFINITION. Apertures and their checks (R22 to R25), page-table walks (R280 to R282), TLBs and the judgement of an
access (R284 to R286), and the fault merge table (R287 to R289). -/

namespace Sys2Proof.Machine

/-! ### Apertures -/

/-- First address of the scratchpad aperture (R22). -/
def scratchBase : Nat := 0xFF80000000000000
/-- First address of the stack aperture (R22). -/
def stackBase : Nat := 0xFFC0000000000000

/-- Bits [63:57] all equal bit [56] (R22). -/
def canonical (a : Nat) : Bool := decide (a < 2 ^ 56) || decide (2 ^ 64 - 2 ^ 56 ≤ a)

/-- The aperture of an address: 1 scratchpad, 2 stack, 0 global (R22). -/
def aperture (a : Nat) : Nat :=
  if scratchBase ≤ a ∧ a ≤ scratchBase + 0xFFFFFF then 1
  else if stackBase ≤ a ∧ a ≤ stackBase + 0x3FFFFFFFF then 2
  else 0

/-- The checks of R23 on n bytes (n not 0) from an exact address: the trap cause of the first that fails. -/
def checkSpan (ea : Int) (n : Nat) : Option Nat :=
  if ea < 0 ∨ (2 : Int) ^ 64 < ea + n then some 0x09
  else
    let a := ea.toNat
    if !canonical a then some 0x08
    else if a < 2 ^ 56 ∧ 2 ^ 56 < a + n then some 0x09
    else if aperture a ≠ aperture (a + n - 1) then some 0x0A
    else none

/-- A scratchpad address of a unit: where its bytes lie, if the allocation holds them (R24). -/
def scratchSpot (u : UnitSt) (a n : Nat) : Option Nat :=
  let core := (a - scratchBase) / 2 ^ 19
  let off := (a - scratchBase) % 2 ^ 19
  if 16 ≤ core then none
  else match amGet (u.cluster * 16 + core) u.scratch with
    | none => none
    | some (base, size) => if off + n ≤ size then some (base + off) else none

/-- The conversion of a stack access of lane l to a global address (R25), judged under R23 and to lie in the global
aperture. `whole` asks that the access lie in one 16-byte unit. -/
def stackSpot (t : Team) (lstk l a n : Nat) (whole : Bool) : Option Nat :=
  let o := a - stackBase
  if lstk < o + n ∨ (whole = true ∧ 16 < o % 16 + n) then none
  else
    let g := t.tsb.toNat + o / 16 * 16 * t.lanes + 16 * l + o % 16
    match checkSpan g n with
    | some _ => none
    | none => if aperture g = 0 then some g else none

/-! ### Page tables -/

/-- The TYPE of an entry (R281). -/
def entryType (e : DWord) : Nat := bitsOf e 2 0
/-- Bit k of an entry. -/
def entryBit (e : DWord) (k : Nat) : Bool := bitsOf e k k == 1

/-- R282. -/
def malformed (level : Nat) (e : DWord) : Bool :=
  let ty := entryType e
  if ty = 0 then false
  else if ty = 1 then
    level == 0 || bitsOf e 7 3 != 0 || bitsOf e 63 48 != 0 || (decide (2 ≤ level) && bitsOf e 14 8 != 0)
  else
    decide (5 ≤ ty) || decide (2 ≤ level) || (level == 1 && ty == 3) || bitsOf e 15 13 != 0 || bitsOf e 63 48 != 0 ||
    bitsOf e 8 7 == 3 || (level == 1 && ty == 2 && bitsOf e 20 16 != 0) || (level == 1 && entryBit e 10) ||
    (entryBit e 9 && entryBit e 10)

/-- Where a walk ends: the leaf, whether at 2 MiB size (an INVALID entry of L3 or L2 counts as one of L1, R287), and
whether the entry met is malformed. -/
structure Walked where
  entry : DWord
  large : Bool
  bad : Bool
  deriving DecidableEq, Repr

/-- The next table of a TABLE entry (R281). -/
def nextTable (e : DWord) : Nat := bitsOf e 47 8 * 2 ^ 8

/-- The walk of R280 from a root, where `rd` gives the entry at an address in a table of a level. -/
def walkBy (rd : Nat → Nat → DWord) (root va : Nat) : Walked :=
  let e3 := rd 3 (root + 8 * (va / 2 ^ 45 % 4096))
  if malformed 3 e3 then ⟨e3, true, true⟩ else if entryType e3 = 0 then ⟨0, true, false⟩ else
  let e2 := rd 2 (nextTable e3 + 8 * (va / 2 ^ 33 % 4096))
  if malformed 2 e2 then ⟨e2, true, true⟩ else if entryType e2 = 0 then ⟨0, true, false⟩ else
  let e1 := rd 1 (nextTable e2 + 8 * (va / 2 ^ 21 % 4096))
  if malformed 1 e1 then ⟨e1, true, true⟩ else if entryType e1 ≠ 1 then ⟨e1, true, false⟩ else
  let e0 := rd 0 (nextTable e1 + 8 * (va / 2 ^ 16 % 32))
  ⟨e0, false, malformed 0 e0⟩

/-- The walk of R280 from a root, as the tables stand in memory. -/
def walk (s : State) (root va : Nat) : Walked := walkBy (fun _ a => dw (rdNat s a 8)) root va

/-- The TABLE entries that such a walk goes through, each with its level, from L3 down. -/
def walkTables (rd : Nat → Nat → DWord) (root va : Nat) : List (Nat × DWord) :=
  let is (l : Nat) (e : DWord) : Bool := entryType e == 1 && !malformed l e
  let e3 := rd 3 (root + 8 * (va / 2 ^ 45 % 4096))
  let e2 := rd 2 (nextTable e3 + 8 * (va / 2 ^ 33 % 4096))
  let e1 := rd 1 (nextTable e2 + 8 * (va / 2 ^ 21 % 4096))
  if !is 3 e3 then [] else (3, e3) :: (if !is 2 e2 then [] else (2, e2) :: (if !is 1 e1 then [] else [(1, e1)]))

/-- Where the leaf entry itself lies, if the walk reaches L0 or a leaf at L1: its address and whether it is large. -/
def leafAddr (s : State) (root va : Nat) : Option (Nat × Bool) :=
  let e3 := dw (rdNat s (root + 8 * (va / 2 ^ 45 % 4096)) 8)
  if malformed 3 e3 ∨ entryType e3 ≠ 1 then none else
  let e2 := dw (rdNat s (nextTable e3 + 8 * (va / 2 ^ 33 % 4096)) 8)
  if malformed 2 e2 ∨ entryType e2 ≠ 1 then none else
  let a1 := nextTable e2 + 8 * (va / 2 ^ 21 % 4096)
  let e1 := dw (rdNat s a1 8)
  if entryType e1 ≠ 1 then some (a1, true) else some (nextTable e1 + 8 * (va / 2 ^ 16 % 32), false)

/-- The physical address a PAGE entry gives (R281). -/
def pageAddr (e : DWord) (large : Bool) (va : Nat) : Nat :=
  bitsOf e 47 16 * 2 ^ 16 + va % (if large then 2 ^ 21 else 2 ^ 16)

/-- What an access needs of its page: KIND of R286 and the permissions. -/
structure Need where
  kind : Nat
  r : Bool
  w : Bool
  x : Bool
  deriving DecidableEq, Repr

/-- A load. -/
def needLoad : Need := ⟨0, true, false, false⟩
/-- A store. -/
def needStore : Need := ⟨1, false, true, false⟩
/-- An add-on-store or drain. -/
def needAdd : Need := ⟨2, false, true, false⟩
/-- CTR.ADD, or an engine's counter add (R122). -/
def needCtrAdd : Need := ⟨2, true, true, false⟩
/-- An instruction fetch. -/
def needFetch : Need := ⟨3, false, false, true⟩

/-- How an access to a page comes out (R285). -/
inductive Xlat where
  | page (pa : Nat) (entry : DWord)
  | denied (world : Bool)
  | noexec
  | malformed
  | touch (entry : DWord)
  | loggable (entry : DWord)
  | host (entry : DWord) (large : Bool)
  deriving DecidableEq, Repr

/-- The judgement of a leaf (R285): world, permission, then its TYPE. An INVALID entry is read by its TYPE alone (R281). -/
def judge (secure : Bool) (need : Need) (va : Nat) (w : Walked) : Xlat :=
  let e := w.entry
  if w.bad then .malformed
  else if entryType e = 0 then .host 0 w.large
  else if !secure && entryBit e 6 then .denied true
  else if (need.r && !entryBit e 3) || (need.w && !entryBit e 4) then .denied false
  else if need.x && !entryBit e 5 then .noexec
  else if entryType e = 2 then .page (pageAddr e w.large va) e
  else if entryBit e 10 then .loggable e
  else if entryType e = 3 then .touch e
  else .host e w.large

/-- The TLB entries of a core and its cluster that match an address, 64 KiB ones first (R284). -/
def tlbHits (s : State) (ctx gcore va : Nat) : List TlbEntry :=
  let es := (smGet [] gcore s.tlb ++ smGet [] (4096 + clusterOf gcore) s.tlb).filter
    (fun e => decide (e.ctx = ctx) && decide (e.vpn = if e.large then va / 2 ^ 21 else va / 2 ^ 16))
  es.filter (fun e => !e.large) ++ es.filter (fun e => e.large)

/-- One cache of translations takes an entry, dropping its oldest beyond its size. -/
def tlbFill (k size : Nat) (e : TlbEntry) (s : State) : State :=
  let es := smGet [] k s.tlb
  if es.contains e then s else { s with tlb := amPut k ((e :: es).take size) s.tlb }

/-- The part of an address that chooses a table entry of a level, with all above it (R280). -/
def walkIndex (level va : Nat) : Nat := va / 2 ^ (match level with | 3 => 45 | 2 => 33 | _ => 21)

/-- A walker's cache takes the TABLE entries of a walk; 1,024 stay (R284). -/
def walkFill (die ctx va : Nat) (path : List (Nat × DWord)) (s : State) : State :=
  path.foldl (fun s x =>
    let e : WalkEntry := ⟨ctx, x.1, walkIndex x.1 va, x.2⟩
    let es := smGet [] die s.walks
    if es.contains e then s else { s with walks := amPut die ((e :: es).take 1024) s.walks }) s

/-- A die's walk (R280, R284). Where its cache holds a TABLE entry that differs from the one in memory, it uses either, by free
choice, until that is shot down (R298, R299). -/
def dieWalk (die ctx root va : Nat) (s : State) : Walked × State :=
  let cached (level : Nat) : Option DWord :=
    ((smGet [] die s.walks).find? (fun e => e.ctx == ctx && e.level == level && e.index == walkIndex level va)).map WalkEntry.entry
  let mem (_ a : Nat) : DWord := dw (rdNat s a 8)
  let stale := (walkTables mem root va).any (fun x => match cached x.1 with | some e => e != x.2 | none => false)
  let (k, s) := choose (if stale then 2 else 1) s
  let rd (level a : Nat) : DWord := if k = 1 then (cached level).getD (mem level a) else mem level a
  (walkBy rd root va, walkFill die ctx va (walkTables rd root va) s)

/-- A translation (R284, R285). A PAGE entry found by the walk and not SPLITTING enters the L1 and L2 TLB; a TLB hit whose
permissions allow the access and that differs from the walk may be used instead, by free choice, until it is shot down (R299). -/
def translate (ctx gcore va : Nat) (need : Need) (s : State) : Xlat × State :=
  match amGet ctx s.ctxs with
  | none => (.malformed, s)
  | some c =>
    let (w, s) := dieWalk (dieOf gcore) ctx c.root va s
    let now := judge c.secure need va w
    let fill : State → State := fun s => match now with
      | .page _ e => if entryBit e 12 then s else
          let te : TlbEntry := ⟨ctx, w.large, if w.large then va / 2 ^ 21 else va / 2 ^ 16, e⟩
          tlbFill gcore 128 te (tlbFill (4096 + clusterOf gcore) 4096 te s)
      | _ => s
    match tlbHits s ctx gcore va with
    | [] => (now, fill s)
    | h :: _ =>
      match judge c.secure need va ⟨h.entry, h.large, false⟩ with
      | .page pa e =>
        if now = .page pa e then (now, s)
        else
          let (k, s) := choose 2 s
          if k = 0 then (now, fill s) else (.page pa e, s)
      | _ => (now, fill s)

/-! ### The fault merge table -/

/-- The entry of a die's table for a page, with its number (R287). One that is released is no longer in the table. -/
def mergeFind (s : State) (die ctx : Nat) (large : Bool) (vpn : Nat) : Option (Nat × MergeEntry) :=
  s.merge.find? (fun e => decide (e.1 / 2048 = die) && decide (e.2.ctx = ctx) && e.2.large == large && decide (e.2.vpn = vpn) &&
    e.2.released.isNone)

/-- The waiter is a team access (R289). -/
def Waiter.isTeam : Waiter → Bool
  | .frag _ => true
  | _ => false

/-- A requester joins the entry of its page, which is made on a miss (R287); none when the table is full (R288). The
entry's number is returned. -/
def mergeJoin (die ctx : Nat) (large : Bool) (va : Nat) (leaf : DWord) (kind : Nat) (who : Waiter) (s : State) :
    Option (Nat × State) :=
  let vpn := if large then va / 2 ^ 21 else va / 2 ^ 16
  match mergeFind s die ctx large vpn with
  | some (n, e) => some (n, { s with merge := amPut n { e with waiters := e.waiters.filter (fun x => x != who) ++ [who] } s.merge })
  | none =>
    if 2048 ≤ (s.merge.filter (fun e => decide (e.1 / 2048 = die))).length then none
    else
      let n := amFresh s.merge (die * 2048)
      let e : MergeEntry :=
        { ctx := ctx, large := large, vpn := vpn, waiters := [who], byEngine := !who.isTeam, toucher := none, leaf := leaf,
          info := kind + die * 4 + b2n large * 8 + entryType leaf * 16,
          sub := if large then va / 2 ^ 16 % 32 else 0, recorded := false, released := none }
      some (n, { s with merge := amPut n e s.merge })

/-- The tile of a LOGGABLE leaf, keyed by its log area; a leaf never met before makes an empty log (R302). -/
def tileOf (ctx va : Nat) (e : DWord) (s : State) : Nat × State :=
  let k := bitsOf e 47 16 * 2 ^ 16
  match amGet k s.tiles with
  | some _ => (k, s)
  | none =>
    let t : Tile :=
      { ctx := ctx, va := dw (va / 2 ^ 16 * 2 ^ 16), leaf := e, entries := [], pins := 0, state := .absent, appends := 0,
        forced := 0, frame := none, failed := none, missed := false, held := [] }
    (k, { s with tiles := amPut k t s.tiles })

/-- Arrival starts, unless under way or done (R310). -/
def startArrival (k : Nat) (s : State) : State :=
  { s with tiles := amMod k (fun t => if t.state = .absent then { t with state := .arriving, missed := false } else t) s.tiles }

/-- HINFO of FIRST-TOUCH and PERMISSION (R286). -/
def accessInfo (kind : Nat) (scalar later world : Bool) (lane : Nat) : DWord :=
  dw (kind + b2n scalar * 4 + b2n later * 8 + b2n world * 16 + lane * 2 ^ 8)

/-- The first-touch trap of a page has passed to fragment i, whose handler does not run yet (R289). -/
def designated (s : State) (die ctx va i : Nat) : Bool :=
  match mergeFind s die ctx false (va / 2 ^ 16), amGet i s.frags with
  | some (_, m), some f => m.toucher == some i && !f.handler
  | _, _ => false

/-- One page of a team's data access (R285): where the page's first byte of it lies, or the trap or wait that R285, R287
and R289 give. `haddr` is the address the lane named. -/
def teamPage (i : Nat) (t : Team) (ctx va : Nat) (need : Need) (haddr : DWord) (scalar later : Bool) (lane : Nat) (s : State) :
    Res Spot :=
  let die := dieOf t.gcore
  let (x, s) := translate ctx t.gcore va need s
  match x with
  | .page pa e => .ok (s, .at pa e)
  | .denied world => .error (s, .trap 0x11 haddr (accessInfo need.kind scalar later world lane))
  | .noexec => .error (s, .trap 0x11 haddr (accessInfo need.kind scalar later false lane))
  | .malformed => .error (s, .trap 0x12 haddr 6)
  | .loggable e =>
    let (k, s) := tileOf ctx va e s
    if need.w && !need.r then .ok (s, .log k (va % 2 ^ 16))
    else match mergeJoin die ctx false va e need.kind (.frag i) s with
    | none => .error (s, .stall)
    | some (n, s) => .error (startArrival k s, .wait (.merge n haddr 0))
  | .touch e =>
    let info := accessInfo need.kind scalar later false lane
    -- the trap has passed to this fragment, whose handler does not run yet (R289)
    if designated s die ctx va i then .error (s, .trap 0x10 haddr info)
    else match mergeJoin die ctx false va e need.kind (.frag i) s with
    | none => .error (s, .stall)
    | some (n, s) => match amGet n s.merge with
      | none => .error (s, .stall)
      | some m =>
        if m.byEngine = false ∧ m.toucher = none ∧ (m.waiters.filter Waiter.isTeam).head? = some (.frag i) then
          .error ({ s with merge := amPut n { m with toucher := some i } s.merge }, .trap 0x10 haddr info)
        else .error (s, .wait (.merge n haddr 0))
  | .host e large => match mergeJoin die ctx large va e need.kind (.frag i) s with
    | none => .error (s, .stall)
    | some (n, s) => .error (s, .wait (.merge n haddr 0))

/-- The 64 KiB pieces of a global span: address and length (a span of at most 2 MiB has at most 33). -/
def pagePieces : Nat → Nat → Nat → List (Nat × Nat)
  | 0, _, _ => []
  | _, _, 0 => []
  | k + 1, a, n => (a, min n (2 ^ 16 - a % 2 ^ 16)) :: pagePieces k (a + min n (2 ^ 16 - a % 2 ^ 16)) (n - min n (2 ^ 16 - a % 2 ^ 16))

/-- The bytes that a log write covers, as spans from a base address; `plain` leaves out add-on-stores. -/
def WriteBody.spans (base : Nat) (plain : Bool) : WriteBody → List (Nat × Nat)
  | .bytes cells => cells.map (fun c => (base + c.1, 1))
  | .adds groups => if plain then [] else groups.flatten.map (fun e => (base + e.pa, if e.pair then 8 else 4))

/-- A write that fragment i's team aimed at a tile's log, and that finds the tile resident, is still on its way to bytes of
[a, a + n): the team's later accesses of them follow it (R36, R197, R312). -/
def behindAppend (s : State) (i a n : Nat) (plain : Bool) : Bool :=
  match amGet i s.frags with
  | none => false
  | some f => s.ops.any (fun o => decide (o.2.team = f.team) && match o.2.body with
    | .append k b => (match amGet k s.tiles with
      | some t => (match t.frame with
        | some fr => (b.spans (fr * 2 ^ 16) plain).any (fun p => decide (p.1 < a + n) && decide (a < p.1 + p.2))
        | none => false)
      | none => false)
    | _ => false)

/-- Every page of a team's global span, in ascending order; the first that does not translate decides (R285). Each piece
is given with its length. -/
def teamPieces (i : Nat) (t : Team) (ctx : Nat) (need : Need) (haddr : DWord) (scalar : Bool) (lane : Nat) :
    List (Nat × Nat) → Bool → State → Res (List (Spot × Nat))
  | [], _, s => .ok (s, [])
  | (a, n) :: ps, later, s =>
    andThen (teamPage i t ctx a need haddr scalar later lane s) fun s sp =>
    if (match sp with | .at pa _ => behindAppend s i pa n (need.kind == 0) | .log _ _ => false) then .error (s, .stall)
    else andThen (teamPieces i t ctx need haddr scalar lane ps true s) fun s rest =>
    .ok (s, (sp, n) :: rest)

/-- A spot on a COUNTER page. -/
def Spot.counter : Spot → Bool
  | .at _ e => entryBit e 9
  | .log _ _ => false

/-- The unit of a team. -/
def unitOf (s : State) (t : Team) : Option UnitSt := amGet t.unit s.units

/-- A lane's whole access, checked in the order of R189: span, aperture, qualifier (`scratchOnly`), alignment, translation,
COUNTER rule (for `need.w`). The bytes lie in the returned pieces, in order. `parts` cuts a stack access into parts of that
many bytes converted each on its own (R204); 0 for none. -/
def laneAccess (i : Nat) (t : Team) (lane : Nat) (ea : Int) (n align : Nat) (need : Need) (scratchOnly : Bool) (parts : Nat)
    (s : State) : Res (List (Spot × Nat)) :=
  let h : DWord := BitVec.ofInt 64 ea
  let l := dw lane
  match checkSpan ea n, unitOf s t with
  | some c, _ => .error (s, .trap c h l)
  | none, none => .error (s, .stall)
  | none, some u =>
    let a := ea.toNat
    let ap := aperture a
    if ap = 1 then
      match scratchSpot u a n with
      | none => .error (s, .trap 0x0B h l)
      | some p => if a % align ≠ 0 then .error (s, .trap 0x0D h l) else .ok (s, [(.at p 0, n)])
    else if ap = 2 then
      let cuts := if parts = 0 then [(a, n)] else (upFrom 0 (n / parts)).map (fun k => (a + parts * k, parts))
      let gs := cuts.map (fun c => stackSpot t u.lstk lane c.1 c.2 (parts == 0))
      if gs.any Option.isNone ∨ u.lstk < a - stackBase + n then .error (s, .trap 0x0C h l)
      else if scratchOnly then .error (s, .trap 0x0B h l)
      else if a % align ≠ 0 then .error (s, .trap 0x0D h l)
      else
        andThen (teamPieces i t u.ctx need h false lane
          ((gs.zip cuts).flatMap (fun g => pagePieces 33 (g.1.getD 0) g.2.2)) false s) fun s ps =>
        if need.w && ps.any (fun p => p.1.counter) then .error (s, .trap 0x0E h l) else .ok (s, ps)
    else if scratchOnly then .error (s, .trap 0x0B h l)
    else if a % align ≠ 0 then .error (s, .trap 0x0D h l)
    else
      andThen (teamPieces i t u.ctx need h false lane (pagePieces 33 a n) false s) fun s ps =>
      if need.w && ps.any (fun p => p.1.counter) then .error (s, .trap 0x0E h l) else .ok (s, ps)

/-! ### Watchpoints (R391, R392) -/

/-- WPADDR and WPCTL of watchpoint n of a die: of the secure bank where that bank has enabled it, else of the non-secure bank, which
reaches no secure-world context (R389, R391; DESIGN CHOICE, notes/assumptions/40.md). -/
def watchpoint (s : State) (die n : Nat) (secure : Bool) : DWord × DWord :=
  if bitsOf (dbgReg s die (0x8000 + 16 * n + 8)) 0 0 = 1 then (dbgReg s die (0x8000 + 16 * n), dbgReg s die (0x8000 + 16 * n + 8))
  else (dbgReg s die (16 * n), if secure then 0 else dbgReg s die (16 * n + 8))

/-- The lanes in which an access of a kind (1 read, 2 write, 3 add-on-store) by a context hits a watchpoint (R391, R392). -/
def watchLanes (wp : DWord × DWord) (ctx kind : Nat) (spans : List (Nat × Int × Nat)) : List Nat :=
  if bitsOf wp.2 0 0 = 1 ∧ bitsOf wp.2 kind kind = 1 ∧ bitsOf wp.2 20 5 = ctx then
    (spans.filter (fun x => decide (x.2.1 < (wp.1.toNat : Int) + 8) && decide ((wp.1.toNat : Int) < x.2.1 + x.2.2))).map Prod.fst
  else []

/-- The lowest-numbered watchpoint of a die that a pass's accesses of a kind hit: its number, its address and whether the unit takes
it; and the lowest lane of the pass that hits any (R392). -/
def watchHit (s : State) (die ctx : Nat) (secure : Bool) (kind : Nat) (spans : List (Nat × Int × Nat)) : Option (Nat × DWord × Bool × Nat) :=
  let lanes := (upFrom 0 16).flatMap (fun n => watchLanes (watchpoint s die n secure) ctx kind spans)
  (upFrom 0 16).findSome? (fun n =>
    let wp := watchpoint s die n secure
    if (watchLanes wp ctx kind spans).isEmpty then none
    else some (n, wp.1, bitsOf wp.2 4 4 == 1, lanes.foldl min (lanes.headD 0)))

/-- The accesses of a pass of a mask word, each with its lane, address and length, are compared with the watchpoints: the first hit of
the instruction is kept, or stops the cluster (R392). -/
def watchWord (word : Nat) (i : Nat) (f : Frag) (t : Team) (kind : Nat) (spans : List (Nat × Int × Nat)) (s : State) : State :=
  match f.hit, amGet t.unit s.units with
  | none, some u =>
    match watchHit s (dieOf t.gcore) u.ctx (secureTeam s t) kind spans with
    | none => s
    | some (n, a, take, lane) =>
      let taken := take && debuggable s t
      let s := modFrag i (fun f => { f with
        hit := some { n := n, addr := a, lane := lane, word := word, taken := taken }
        stopFor := if taken then some (2 + 16 * n) else f.stopFor }) s
      if taken then triggerStop (clusterOf t.gcore) (2 + 16 * n) s else s
  | _, _ => s

/-- The accesses of a pass over lanes are compared with the watchpoints (R392). -/
def watch (i : Nat) (f : Frag) (t : Team) (kind : Nat) (spans : List (Nat × Int × Nat)) (s : State) : State :=
  watchWord (passWord f) i f t kind spans s

end Sys2Proof.Machine
end

