-- ==== Sys2Proof/Machine/Access.lean ====
section
/-! DEFINITION. The access unit: reads and writes of memory by a pass, loads, stores, add-on-stores, spill and fill (R186 to
R206), FENCE (R40 to R43), and the completion of their operations (R77, R80, R81). -/

namespace Sys2Proof.Machine

/-! ### Add-on-stores at their port (R196) -/

/-- An element after one application: memory's pair, then the operand's. -/
def addApplied (e : AddElem) (m v : Word) : Word × Word :=
  match e.q3 with
  | 0 => (m + e.mean, v)
  | 3 => (if e.mean.slt m then e.mean else m, v)
  | 4 => (if m.slt e.mean then e.mean else m, v)
  | 7 => (m ||| e.mean, v)
  | 5 => if e.pair then (match pickB true m e.mean with | none => (qnan, qnan) | some true => (e.mean, e.spread) | some false => (m, v))
    else (fPick true m e.mean, v)
  | 6 => if e.pair then (match pickB false m e.mean with | none => (qnan, qnan) | some true => (e.mean, e.spread) | some false => (m, v))
    else (fPick false m e.mean, v)
  | _ =>
    let mu := (fAdd m e.mean).w
    if e.pair then (mu, (finishMom mu (account e.acct mu (fAdd (unsign v) (unsign e.spread)).w)).1) else (mu, v)

/-- The bytes of an element: 8 for a pair, else 4. -/
def AddElem.size (e : AddElem) : Nat := if e.pair then 8 else 4

/-- One element applied at its port, indivisibly (R196, R49). -/
def applyAdd (agent : Nat) (e : AddElem) (s : State) : State :=
  let m : Word := BitVec.ofNat 32 (rdNat s e.pa 4)
  let v : Word := BitVec.ofNat 32 (if e.pair then rdNat s (e.pa + 4) 4 else 0)
  let r := addApplied e m v
  writeMem agent e.pa (natBytes 4 r.1.toNat ++ (if e.pair then natBytes 4 r.2.toNat else [])) s

/-- The CTR.ADDs of the team, issued after number n, whose adds are still to be made: their releases order what the accesses before them
do (R44). -/
def laterAdds (s : State) (team n : Nat) : List Nat :=
  (s.ops.filter (fun o => decide (o.2.team = team) && decide (n < o.1) && match o.2.body with | .ctrAdd .. => true | _ => false)).map Prod.fst

/-- Writes marked with releases still to be made. -/
def markWrites (rels : List Nat) (p : WriteRec → Bool) (s : State) : State :=
  if rels.isEmpty then s else { s with hist := s.hist.map (fun w => if p w then { w with rel := rels ++ w.rel } else w) }

/-- Writes just made, of stamp `start` and later, for the team's operation numbered `ord` are ordered by its later CTR.ADDs on their way
(R44), visible to the copy engine's later quires if a CPY.FENCE issued after the operation is outstanding (R224), and to the matrix
engine if such an MFEN is (R264). -/
def fencedWrite (team ord start : Nat) (s : State) : State :=
  let s := markWrites (laterAdds s team ord) (fun w => decide (start ≤ w.stamp)) s
  let after (b : OpBody) : List Nat := (s.ops.filter (fun o => decide (o.2.team = team) && decide (ord < o.1) && o.2.body == b)).map Prod.fst
  let copies := match after .cpyFence with
    | [] => []
    | f :: _ => agentCopy team :: (s.ops.filter (fun o => decide (o.2.team = team) && decide (f < o.1) &&
        match o.2.body with | .quire _ => true | _ => false)).map (fun o => agentEngine o.1)
  let all := copies ++ (if (after .mfen).isEmpty then [] else [agentOperand team])
  if all.isEmpty then s
  else { s with hist := s.hist.map (fun w => if start ≤ w.stamp then { w with acq := all ++ w.acq } else w) }

/-- The element covers a byte of a span. -/
def AddElem.on (e : AddElem) (p : Nat × Nat) : Bool := decide (e.pa < p.1 + p.2) && decide (p.1 < e.pa + e.size)

/-- The operations of a team whose add-on-stores come, location by location, before a write to the spans: those that meet them, and
those that meet one of these and precede it (R197). The list is the newest operation first. -/
def addsBefore (team : Nat) (spans : List (Nat × Nat)) : List (Nat × Op) → List Nat
  | [] => []
  | o :: os => match o.2.body with
    | .adds es =>
      if o.2.team = team ∧ es.any (fun e => spans.any e.on) = true then
        o.1 :: addsBefore team (spans ++ es.map (fun e => (e.pa, e.size))) os
      else addsBefore team spans os
    | _ => addsBefore team spans os

/-- The team's add-on-stores that come before a later plain store are applied before it (R197). -/
def flushAdds (team : Nat) (spans : List (Nat × Nat)) (s : State) : State :=
  (addsBefore team spans s.ops.reverse).reverse.foldl (fun s n => match amGet n s.ops with
    | none => s
    | some o => match o.body with
      | .adds es => endOp n (es.foldl (fun s e => fencedWrite team o.ord s.seq (applyAdd (agentAdds team) e s)) s)
      | _ => s) s

/-! ### What earlier accesses have reached (R38, R41, R44) -/

/-- An operation that is an access still under way (R34). -/
def OpBody.isAccess : OpBody → Bool
  | .results _ => true
  | .waitFull _ _ => true
  | .behind _ _ => true
  | .taking => true
  | .adds _ => true
  | .append _ _ => true
  | .ctrAdd .. => true
  | .ctrLoad .. => true
  | .drainAdd _ => true
  | .matrix m => m.kind == 4 || m.kind == 5 || m.kind == 6
  | _ => false

/-- An operation that an engine runs for itself: its writes are no accesses of the team (R34, R53). -/
def OpBody.isEngine : OpBody → Bool
  | .quire _ => true
  | .select _ => true
  | _ => false

/-- The agent whose write an append on its way is: the team, or the quire or selection it stems from. -/
def appendAgent (s : State) (o : Op) : Nat :=
  match amGet o.ord s.ops with
  | none => o.team
  | some e => if e.body.isEngine then agentEngine o.ord else o.team

/-- A tile's log, or the writes it holds, still carries an append of the agent numbered below n (R56). -/
def Tile.pendingOf (t : Tile) (agent n : Nat) : Bool :=
  t.entries.any (fun e => (e.stamps ++ e.past).any (fun x => decide (x.1 = agent) && decide (x.2.1 < n))) ||
  t.held.any (fun h => decide (h.writer = agent) && decide (h.stamp < n))

/-- A CTR.WAIT whose fragment waits on it: a read under way (R34); one saved in a trap frame is pending again after RTE (R122). -/
def ctrWaits (s : State) (o : Nat × Op) : Bool :=
  (match o.2.body with | .ctrWait .. => true | _ => false) && s.frags.any (fun e => e.2.wait == .ctr o.1)

/-- Every access that the team issued before operation n is performed at the scope: none is under way, none is held by a
full log, and at SYSTEM scope none rests in a log (R41, R56). -/
def performedBefore (s : State) (team n scope : Nat) : Bool :=
  !s.ops.any (fun o => decide (o.2.team = team) && decide (o.2.ord < n) &&
    ((o.2.body.isAccess && appendAgent s o.2 == team) || ctrWaits s o)) &&
  !s.tiles.any (fun t => t.2.held.any (fun h => decide (h.writer = team) && decide (h.stamp < n))) &&
  (decide (scope < 5) || !s.tiles.any (fun t => t.2.pendingOf team n))

/-- A SYSTEM-scope wait starts the arrival of every tile whose log holds it up (R310). -/
def startPending (team n : Nat) (s : State) : State :=
  (s.tiles.filter (fun t => t.2.pendingOf team n)).foldl (fun s t => startArrival t.1 s) s

/-- A FENCE SYSTEM or CTR.ADD SYSTEM of the team waits for what it issued as number `ord` (R44, R56, R310). -/
def systemWaits (s : State) (team ord : Nat) : Bool :=
  s.ops.any (fun x => decide (x.2.team = team) && decide (ord < x.1) && match x.2.body with
    | .fence 5 _ => true
    | .ctrAdd _ _ _ 5 _ _ _ _ => true
    | _ => false)

/-! ### Reads and writes of a pass -/

/-- Where byte `off` of a span lies, given the span's pieces. -/
def spotAt : List (Spot × Nat) → Nat → Spot
  | [], _ => .at 0 0
  | (sp, n) :: ps, off =>
    if off < n then (match sp with | .at pa e => .at (pa + off) e | .log k o => .log k (o + off)) else spotAt ps (off - n)

/-- The physical address of byte `off` of a span of which no part is in a log. -/
def paAt (ps : List (Spot × Nat)) (off : Nat) : Nat := match spotAt ps off with | .at pa _ => pa | .log _ o => o

/-- The bytes of spans read by a pass, every 8-byte unit once, so that lanes naming one byte read the same write (R35,
R193): the bytes by address. -/
def readSpans (agent : Nat) (spans : List (Nat × Nat)) (s : State) : AMap Byte × State :=
  (spans.flatMap (fun p => unitsOf 8 p.2 p.1 p.2)).foldl (fun r u =>
    if (upFrom u.1 u.2).all (fun x => (amGet x r.1).isSome) then r
    else
      let (bs, s) := readUnit agent u.1 u.2 r.2
      ((bs.zip (upFrom u.1 u.2)).foldl (fun m x => if (amGet x.2 m).isSome then m else amPut x.2 x.1 m) r.1, s)) ([], s)

/-- Operation n of the team, or with n unissued its next access, reads bytes of a span at which an earlier load of the team waits to read
(R36): the earlier one reads first. -/
def readsBehind (s : State) (team n : Nat) (p : Nat × Nat) : Bool :=
  let on (q : Nat × Nat) : Bool := decide (q.1 < p.1 + p.2) && decide (p.1 < q.1 + q.2)
  s.ops.any (fun o => decide (o.2.team = team) && decide (o.1 < n) && match o.2.body with
    | .waitFull ls _ => ls.any (fun l => on (l.pa, l.span))
    | .behind ps _ => ps.any on
    | _ => false)

/-- A read's bytes as a number. -/
def spanNat (m : AMap Byte) (pas : List Nat) : Nat := bytesNat (pas.map (fun a => smGet 0 a m))

/-- The register value of a code and the bytes read (R191). -/
def loadVal (code : Nat) (v : Nat) : DWord :=
  let size := code / 4 % 16
  let w : Word := if code / 64 % 2 = 1 ∧ 2 ^ (8 * size - 1) ≤ v then BitVec.ofInt 32 ((v : Int) - 2 ^ (8 * size)) else BitVec.ofNat 32 v
  match code % 4 with
  | 0 => reg w 0
  | 1 => 0
  | 2 => reg w w
  | _ => dw v

/-- The value that a register takes from the number its bytes hold. -/
def ReadForm.val (v : Nat) : ReadForm → DWord
  | .load code => loadVal code v
  | .record =>
    if v % 4 = 0 then 0 else reg (BitVec.ofNat 32 (v / 2 ^ 32)) (if v % 4 = 1 then 0 else BitVec.ofNat 32 (v / 2 ^ 64))
  | .scalar bits sx => if sx then (BitVec.ofNat bits v).signExtend 64 else dw v

/-- The results of a read that found bytes. -/
def readElems (bytes : AMap Byte) (ds : List ReadDest) : List Elem :=
  ds.map (fun r => { dest := r.dest, live := true, val := r.form.val (spanNat bytes r.pas) })

/-- A plain read of spans enters flight: it reads at once, unless an earlier load of the team must read there first (R36). -/
def issueRead (i : Nat) (f : Frag) (t : Team) (spans : List (Nat × Nat)) (ds : List ReadDest) (s : State) : State :=
  if spans.any (readsBehind s f.team s.seq) then issueOp i f t f.setA (.behind spans ds) s
  else
    let (bytes, s) := readSpans f.team spans s
    issueOp i f t f.setA (.results (readElems bytes ds)) s

/-- The physical spans of pieces. -/
def pieceSpans (ps : List (Spot × Nat)) : List (Nat × Nat) :=
  ps.filterMap (fun p => match p.1 with | .at pa _ => some (pa, p.2) | .log _ _ => none)

/-- The bytes of one lane's write: where each lies, in order. -/
def placeBytes (ps : List (Spot × Nat)) (bs : List Byte) : List (Spot × Byte) :=
  (bs.zip (upFrom 0 bs.length)).map (fun b => (spotAt ps b.2, b.1))

/-- A team's plain write of bytes (R36, R193, R197): those in memory at once as one write, those in a tile's log as appends
on their way (R305). Later bytes of the list win. `sf` is the release of a set-full store. -/
def teamWrite (i : Nat) (f : Frag) (t : Team) (sf : Option Nat) (cells : List (Spot × Byte)) (s : State) : State :=
  let here := cells.foldl (fun m c => match c.1 with | .at pa _ => amPut pa c.2 m | .log _ _ => m) ([] : AMap Byte)
  let keys := (cells.filterMap (fun c => match c.1 with | .log k _ => some k | .at _ _ => none)).eraseDups
  let runs := runsOf here
  let s := flushAdds f.team (runs.map (fun r => (r.1, r.2.length))) s
  let s := if runs.isEmpty then s else writeRuns f.team sf runs s
  keys.foldl (fun s k =>
    issueOp i f t none (.append k (.bytes (cells.foldl (fun m c => match c.1 with
      | .log k' o => if k' = k then amPut o c.2 m else m
      | .at _ _ => m) []))) s) s

/-! ### Loads and stores (R187 to R194) -/

/-- The effective address A + 16·imm7, exact (R187). -/
def effAddr (t : Team) (l a : Nat) (o : BitVec 7) : Int := ((dGet t l a).toNat : Int) + 16 * o.toInt

/-- Each lane's access of a pass, checked in lane order: the lowest lane that fails a check decides with its trap; one whose page must
be waited for holds the pass until it is mapped or has failed (R189). -/
def laneAccesses (i : Nat) (t : Team) (n align : Nat) (need : Need) (scratchOnly : Bool) (parts : Nat) (ea : Nat → Int) :
    List Nat → State → Res (List (Nat × List (Spot × Nat)))
  | [], s => .ok (s, [])
  | l :: ls, s =>
    andThen (laneAccess i t l (ea l) n align need scratchOnly parts s) fun s ps =>
    andThen (laneAccesses i t n align need scratchOnly parts ea ls s) fun s rest => .ok (s, (l, ps) :: rest)

/-- What a load writes into one register: the form (0 mean word with spread 0, 1 a zero register, 2 every sample, 3 the raw
eight bytes), the bytes read and whether they are sign-extended (R191). -/
structure LoadForm where
  form : Nat
  size : Nat
  sx : Bool

/-- A LoadForm as the code a wait-full lane keeps. -/
def LoadForm.code (k : LoadForm) : Nat := k.form + 4 * k.size + 64 * b2n k.sx

/-- The registers of operation j of a load: each with its offset in the lane's span and its code (R191). -/
def loadDests (mode : Nat) (size : Nat) (sx : Bool) (d n : Nat) : List (Nat × Nat × Nat) :=
  let g := groupOf mode
  (upFrom 0 n).flatMap (fun j =>
    if size = 8 then (upFrom 0 g).map (fun x => (d + j * g + x, (j * g + x) * 8, LoadForm.code ⟨3, 8, false⟩))
    else (upFrom 0 g).map (fun x => (d + j * g + x, j * size,
      LoadForm.code ⟨if mode = 3 then 2 else if x = 0 then 0 else 1, size, sx⟩)))

/-- The registers checked by an access-unit instruction: d with its group, a as one register (R69, R186). -/
def checkAccess (s : State) (f : Frag) (t : Team) (w : BitVec 2) (g d a : Nat) : Except (State × Stop) Unit :=
  if t.regs ≤ a then .error (illegal s f) else checkRegs s f t w true [(d, g)]

/-- While a CTR.LOAD of the team is outstanding, or a fragment of it is in CTR.WAIT, its later accesses are held (R44, R122). -/
def accessHeld (s : State) (team : Nat) : Bool :=
  s.ops.any (fun o => decide (o.2.team = team) && ((match o.2.body with | .ctrLoad .. => true | _ => false) || ctrWaits s o))

/-- A load (R191): plain, or with q3 1 (WF), 3 (WFE), 4 (SX). -/
def load (size : Nat) (w : BitVec 2) (d a : BitVec 6) (q : BitVec 3) (o : BitVec 7) (s : State) : Out :=
  lanePass 4 (fun s i f t lanes =>
    let g := groupOf f.mode
    let n := 2 ^ w.toNat
    let span := n * (if size = 8 then 8 * g else size)
    let waits := q.toNat == 1 || q.toNat == 3
    match checkAccess s f t w g d.toNat a.toNat with
    | .error e => .error e
    | .ok () =>
      if waits && decide (16 < span) then .error (illegalMode s f)
      else if accessHeld s f.team then .error (s, .stall)
      else
        andOk (laneAccesses i t span (min span 16) needLoad waits 0 (fun l => effAddr t l a.toNat o) lanes s) fun s ls =>
        let seen (s : State) : State := watch i f t 1 (ls.map (fun x => (x.1, effAddr t x.1 a.toNat o, span))) s
        let dests := loadDests f.mode size (q.toNat == 4) d.toNat n
        if waits then
          .ok (seen (issueOp i f t f.setA (.waitFull (ls.map (fun x =>
            { lane := x.1, pa := paAt x.2 0, span := span, empties := q.toNat == 3, dests := dests })) []) s))
        else
          .ok (seen (issueRead i f t (ls.flatMap (fun x => pieceSpans x.2)) (ls.flatMap (fun x => dests.map (fun r =>
            { dest := .lane x.1 r.1, form := .load r.2.2, pas := (upFrom r.2.1 (r.2.2 / 4 % 16)).map (paAt x.2) }))) s))) s

/-- LDB (R191). -/
def execLdb (w : BitVec 2) (d a : BitVec 6) (q : BitVec 3) (o : BitVec 7) (s : State) : Out := load 1 w d a q o s
/-- LDH (R191). -/
def execLdh (w : BitVec 2) (d a : BitVec 6) (q : BitVec 3) (o : BitVec 7) (s : State) : Out := load 2 w d a q o s
/-- LDW (R191). -/
def execLdw (w : BitVec 2) (d a : BitVec 6) (q : BitVec 3) (o : BitVec 7) (s : State) : Out := load 4 w d a q o s
/-- LDD (R191). -/
def execLdd (w : BitVec 2) (d a : BitVec 6) (q : BitVec 3) (o : BitVec 7) (s : State) : Out := load 8 w d a q o s

/-- The granules of a set-full store become full, with the write (R50). -/
def fillGranules (gs : List Nat) (s : State) : State := { s with full := gs.foldl (fun m g => smPut false g true m) s.full }

/-- The stores of a pass: the bytes each lane gives (R192, R193), then its completion at the access unit (R77). -/
def storePass (i : Nat) (f : Frag) (t : Team) (setFull : Bool) (ls : List (Nat × List (Spot × Nat))) (data : Nat → List Byte)
    (s : State) : State :=
  let cells := ls.flatMap (fun x => placeBytes x.2 (data x.1))
  let n := s.seq
  let s := if setFull then
      fillGranules ((ls.map (fun x => paAt x.2 0 / 16)).eraseDups)
        (release [f.team, agentAdds f.team, agentMatrix f.team]
          { agent := f.team, pos := .core t.gcore, scope := 2, full := false, all := true, counter := none } s)
    else s
  issueOp i f t f.setA .taking (teamWrite i f t (if setFull then some n else none) cells s)

/-- A store (R192): plain, or with q3 1 set-full, which waits as a release at CLUSTER scope does (R51). -/
def store (size : Nat) (w : BitVec 2) (d a : BitVec 6) (q : BitVec 3) (o : BitVec 7) (s : State) : Out :=
  lanePass 4 (fun s i f t lanes =>
    let g := groupOf f.mode
    let n := 2 ^ w.toNat
    let span := n * (if size = 8 then 8 * g else size)
    let sf := q.toNat == 1
    match checkAccess s f t w g d.toNat a.toNat with
    | .error e => .error e
    | .ok () =>
      if sf && decide (16 < span) then .error (illegalMode s f)
      else if accessHeld s f.team then .error (s, .stall)
      else
        andOk (laneAccesses i t span (min span 16) needStore sf 0 (fun l => effAddr t l a.toNat o) lanes s) fun s ls =>
        let seen (s : State) : State := watch i f t 2 (ls.map (fun x => (x.1, effAddr t x.1 a.toNat o, span))) s
        if sf && !performedBefore s f.team s.seq 2 then .error (s, .stall)
        else
          .ok (seen (storePass i f t sf ls (fun l => (upFrom 0 n).flatMap (fun j =>
            if size = 8 then (upFrom 0 g).flatMap (fun x => natBytes 8 (dGet t l (d.toNat + j * g + x)).toNat)
            else natBytes size (dGet t l (d.toNat + j * g)).toNat)) s))) s

/-- STB (R192). -/
def execStb (w : BitVec 2) (d a : BitVec 6) (q : BitVec 3) (o : BitVec 7) (s : State) : Out := store 1 w d a q o s
/-- STH (R192). -/
def execSth (w : BitVec 2) (d a : BitVec 6) (q : BitVec 3) (o : BitVec 7) (s : State) : Out := store 2 w d a q o s
/-- STW (R192). -/
def execStw (w : BitVec 2) (d a : BitVec 6) (q : BitVec 3) (o : BitVec 7) (s : State) : Out := store 4 w d a q o s
/-- STD (R192). -/
def execStd (w : BitVec 2) (d a : BitVec 6) (q : BitVec 3) (o : BitVec 7) (s : State) : Out := store 8 w d a q o s

/-- ASTO (R195): the pass's elements enter flight, lane by lane and j by j (R197); those of a non-resident tile go to its log
(R199). -/
def asto (q3 : Nat) (w : BitVec 2) (d a : BitVec 6) (o : BitVec 7) (s : State) : Out :=
  lanePass 4 (fun s i f t lanes =>
    let n := 2 ^ w.toNat
    let pair := f.mode == 1 && (q3 == 1 || q3 == 2 || q3 == 5 || q3 == 6)
    let size := if pair then 8 else 4
    match checkAccess s f t w (groupOf f.mode) d.toNat a.toNat with
    | .error e => .error e
    | .ok () =>
      if 2 ≤ f.mode then .error (illegalMode s f)
      else if accessHeld s f.team then .error (s, .stall)
      else
        andOk (laneAccesses i t (n * size) (min (n * size) 16) needAdd false 0 (fun l => effAddr t l a.toNat o) lanes s) fun s ls =>
        let seen (s : State) : State := watch i f t 3 (ls.map (fun x => (x.1, effAddr t x.1 a.toNat o, (n * size)))) s
        let elem (l j pa : Nat) : AddElem :=
          { pa := pa, mean := meanOf (dGet t l (d.toNat + j)), spread := spreadOf (dGet t l (d.toNat + j)), q3 := q3, pair := pair,
            acct := f.acct && pair && (q3 == 1 || q3 == 2) }
        let all := ls.flatMap (fun x => (upFrom 0 n).map (fun j => (x.1, j, spotAt x.2 (j * size))))
        let here := all.filterMap (fun x => match x.2.2 with | .at pa _ => some (elem x.1 x.2.1 pa) | .log _ _ => none)
        -- elements of different lanes share no entry (R306)
        let logs := ((all.filterMap (fun y => match y.2.2 with | .log k _ => some k | .at _ _ => none)).eraseDups).map (fun k =>
          (k, (ls.map (fun x => all.filterMap (fun y => match y.2.2 with
            | .log k' off => if k' = k ∧ y.1 = x.1 then some (elem y.1 y.2.1 off) else none
            | .at _ _ => none))).filter (fun g => !g.isEmpty)))
        let s := issueOp i f t f.setA .taking s
        let s := if here.isEmpty then s else issueOp i f t none (.adds here) s
        .ok (seen (logs.foldl (fun s k => issueOp i f t none (.append k.1 (.adds k.2)) s) s))) s

/-- ASTO.IADD (R195). -/
def execAstoIadd (w : BitVec 2) (d a : BitVec 6) (o : BitVec 7) (s : State) : Out := asto 0 w d a o s
/-- ASTO.FADD (R195). -/
def execAstoFadd (w : BitVec 2) (d a : BitVec 6) (o : BitVec 7) (s : State) : Out := asto 1 w d a o s
/-- ASTO.FADD.R (R195, R198). -/
def execAstoFaddR (w : BitVec 2) (d a : BitVec 6) (o : BitVec 7) (s : State) : Out := asto 2 w d a o s
/-- ASTO.IMIN (R195). -/
def execAstoImin (w : BitVec 2) (d a : BitVec 6) (o : BitVec 7) (s : State) : Out := asto 3 w d a o s
/-- ASTO.IMAX (R195). -/
def execAstoImax (w : BitVec 2) (d a : BitVec 6) (o : BitVec 7) (s : State) : Out := asto 4 w d a o s
/-- ASTO.FMIN (R195). -/
def execAstoFmin (w : BitVec 2) (d a : BitVec 6) (o : BitVec 7) (s : State) : Out := asto 5 w d a o s
/-- ASTO.FMAX (R195). -/
def execAstoFmax (w : BitVec 2) (d a : BitVec 6) (o : BitVec 7) (s : State) : Out := asto 6 w d a o s
/-- ASTO.IOR (R195). -/
def execAstoIor (w : BitVec 2) (d a : BitVec 6) (o : BitVec 7) (s : State) : Out := asto 7 w d a o s

/-- PREF (R200): no access, no trap of R189, no value changed; tagged until its addresses are taken. -/
def execPref (a : BitVec 6) (_l : BitVec 1) (_o : BitVec 7) (s : State) : Out :=
  lanePass 4 (fun s i f t _ =>
    if t.regs ≤ a.toNat then .error (illegal s f) else .ok (issueOp i f t f.setA .taking s)) s

/-- The span of a SPILL or FILL record: 272·W bytes from the address of the pass's lowest active lane, never in the stack
aperture (R202). -/
def recordSpan (i : Nat) (t : Team) (w : BitVec 2) (a : Nat) (o : BitVec 7) (need : Need) (lanes : List Nat) (s : State) :
    Res (List (Spot × Nat)) :=
  let l := lanes.headD 0
  let ea := effAddr t l a o
  let n := 272 * 2 ^ w.toNat
  if checkSpan ea n = none ∧ aperture ea.toNat = 2 then .error (s, .trap 0x0C (BitVec.ofInt 64 ea) (dw l))
  else laneAccess i t l ea n 16 need false 0 s

/-- The KIND of a record over the active lanes (R201). -/
def recordKind (vs : List DWord) : Nat :=
  if vs.all (fun v => v == 0) then 0 else if vs.all (fun v => spreadOf v == 0) then 1 else 2

/-- The bytes of records of the given kinds from an address on that a pass writes or reads, by lane: bytes 0 to 15, and by kind the words
of the active lanes in MEANS and SPREADS (R201, R203). -/
def recordBytes (ea : Int) (lanes : List Nat) (kinds : List Nat) : List (Nat × Int × Nat) :=
  (kinds.zip (upFrom 0 kinds.length)).flatMap (fun k =>
    let base := ea + 272 * (k.2 : Int)
    (lanes.headD 0, base, 16) ::
    (if k.1 = 0 then [] else lanes.map (fun l => (l, base + 16 + 4 * ((l % 32 : Nat) : Int), 4))) ++
    (if k.1 ≤ 1 then [] else lanes.map (fun l => (l, base + 144 + 4 * ((l % 32 : Nat) : Int), 4))))

/-- SPILL (R201). -/
def execSpill (w : BitVec 2) (d a : BitVec 6) (o : BitVec 7) (s : State) : Out :=
  lanePass 4 (fun s i f t lanes =>
    match checkAccess s f t w 1 d.toNat a.toNat with
    | .error e => .error e
    | .ok () =>
      if accessHeld s f.team then .error (s, .stall) else
      andOk (recordSpan i t w a.toNat o needStore lanes s) fun s ps =>
      let seen (s : State) : State := watch i f t 2 (recordBytes (effAddr t (lanes.headD 0) a.toNat o) lanes
        ((upFrom 0 (2 ^ w.toNat)).map (fun k => recordKind (lanes.map (fun l => dGet t l (d.toNat + k)))))) s
      let word (off : Nat) (v : Nat) : List (Spot × Byte) := (natBytes 4 v).zip (upFrom off 4) |>.map (fun b => (spotAt ps b.2, b.1))
      let cells := (upFrom 0 (2 ^ w.toNat)).flatMap (fun k =>
        let vs := lanes.map (fun l => dGet t l (d.toNat + k))
        let kind := recordKind vs
        let base := 272 * k
        word base (maskWord f.mask (passWord f)) ++ word (base + 4) kind ++ word (base + 8) 0 ++ word (base + 12) 0 ++
        (if kind = 0 then [] else (lanes.zip vs).flatMap (fun x => word (base + 16 + 4 * (x.1 % 32)) (meanOf x.2).toNat)) ++
        (if kind = 2 then (lanes.zip vs).flatMap (fun x => word (base + 144 + 4 * (x.1 % 32)) (spreadOf x.2).toNat) else []))
      .ok (seen (issueOp i f t f.setA .taking (teamWrite i f t none cells s)))) s

/-- FILL (R203). -/
def execFill (w : BitVec 2) (d a : BitVec 6) (o : BitVec 7) (s : State) : Out :=
  lanePass 4 (fun s i f t lanes =>
    match checkAccess s f t w 1 d.toNat a.toNat with
    | .error e => .error e
    | .ok () =>
      if accessHeld s f.team then .error (s, .stall) else
      andOk (recordSpan i t w a.toNat o needLoad lanes s) fun s ps =>
      let seen (s : State) : State := watch i f t 1 (recordBytes (effAddr t (lanes.headD 0) a.toNat o) lanes
        ((upFrom 0 (2 ^ w.toNat)).map (fun k => (rdByte s (paAt ps (272 * k + 4))).toNat % 4))) s
      let word (off : Nat) : List Nat := (upFrom off 4).map (paAt ps)
      .ok (seen (issueRead i f t (pieceSpans ps) ((upFrom 0 (2 ^ w.toNat)).flatMap (fun k => lanes.map (fun l =>
        { dest := .lane l (d.toNat + k), form := .record,
          pas := word (272 * k + 4) ++ word (272 * k + 16 + 4 * (l % 32)) ++ word (272 * k + 144 + 4 * (l % 32)) }))) s))) s

/-- SPILLP (R204). -/
def execSpillp (w : BitVec 2) (d a : BitVec 6) (o : BitVec 7) (s : State) : Out :=
  lanePass 4 (fun s i f t lanes =>
    let n := 2 ^ w.toNat
    match checkAccess s f t w 1 d.toNat a.toNat with
    | .error e => .error e
    | .ok () =>
      if accessHeld s f.team then .error (s, .stall) else
      andOk (laneAccesses i t (8 * n) 8 needStore false 8 (fun l => effAddr t l a.toNat o) lanes s) fun s ls =>
      let seen (s : State) : State := watch i f t 2 (ls.map (fun x => (x.1, effAddr t x.1 a.toNat o, (8 * n)))) s
      .ok (seen (storePass i f t false ls (fun l => (upFrom 0 n).flatMap (fun k => natBytes 8 (dGet t l (d.toNat + k)).toNat)) s))) s

/-- FILLP (R204). -/
def execFillp (w : BitVec 2) (d a : BitVec 6) (o : BitVec 7) (s : State) : Out :=
  lanePass 4 (fun s i f t lanes =>
    let n := 2 ^ w.toNat
    match checkAccess s f t w 1 d.toNat a.toNat with
    | .error e => .error e
    | .ok () =>
      if accessHeld s f.team then .error (s, .stall) else
      andOk (laneAccesses i t (8 * n) 8 needLoad false 8 (fun l => effAddr t l a.toNat o) lanes s) fun s ls =>
      let seen (s : State) : State := watch i f t 1 (ls.map (fun x => (x.1, effAddr t x.1 a.toNat o, (8 * n)))) s
      .ok (seen (issueRead i f t (ls.flatMap (fun x => pieceSpans x.2)) (ls.flatMap (fun x => (upFrom 0 n).map (fun k =>
        { dest := .lane x.1 (d.toNat + k), form := .load (LoadForm.code ⟨3, 8, false⟩), pas := (upFrom (8 * k) 8).map (paAt x.2) }))) s))) s

/-! ### FENCE (R40 to R43) -/

/-- FENCE: it enters flight untagged, and the team issues nothing until its conditions hold (R41). -/
def execFence (sc : BitVec 3) (k : BitVec 2) (s : State) : Out :=
  onePassTo (fun s i f t =>
    let n := s.seq
    let s := issueOp i f t none (.fence sc.toNat k.toNat) s
    let s := if sc.toNat = 5 then startPending f.team n s else s
    .ok (beginWait i (.fence n) s)) s

/-- A team with a FENCE under way issues nothing (R41). -/
def teamFenced (s : State) (team : Nat) : Bool :=
  s.ops.any (fun o => decide (o.2.team = team) && match o.2.body with | .fence .. => true | _ => false)

/-- FENCE_COMPLETE (R41 to R43, R46): once every earlier access is performed at the scope, REL and FULL release the team's
writes, ACQ and FULL acquire, the team's own add-on-stores become visible to it, and the fragment goes on. -/
def execFenceComplete (op : Nat) (s : State) : Out :=
  match amGet op s.ops with
  | none => .next s
  | some o => match o.body with
    | .fence scope kind =>
      if !performedBefore s o.team op scope then .next s
      else
        let p : Pos := .core o.gcore
        let s := { s with hist := s.hist.map (fun w =>
          if w.of (agentAdds o.team) ∨ w.of (agentMatrix o.team) then { w with acq := o.team :: w.acq } else w) }
        let s := if kind = 1 then s else acquireFrom o.team (syncFence s o.team p scope (kind == 3)) s
        let s := if kind = 2 then s else
          release [o.team, agentAdds o.team, agentMatrix o.team] { agent := o.team, pos := p, scope := scope, full := kind == 3, all := true, counter := none } s
        .next (resumeAfter (.fence op) (endOp op s))
    | _ => .next s

/-! ### Completions (R77, R80, R81) -/

/-- One element of an operation's results is written, unless superseded; earlier operations' writes to its register are
then superseded (R80, R81). Which element comes next is free. The flag clears with the last. -/
def deliver (op : Nat) (o : Op) (es : List Elem) (rebuild : List Elem → OpBody) (s : State) : State :=
  let (k, s) := choose es.length s
  match es.drop k with
  | [] => endOp op s
  | e :: after =>
    let rest := es.take k ++ after
    let (go, s) := if e.live then destGate o.team e.dest s else (true, s)
    if !go then s else
    let s := if e.live then
        { s with
          teams := amMod o.team (putDest e.dest e.val) s.teams
          ops := killEarlier o.team op [e.dest] s.ops }
      else s
    if rest.isEmpty then endOp op s else setBody op (rebuild rest) s

/-- As `deliver`, for an operation that stays outstanding after its last element. -/
def deliverKeep (op : Nat) (o : Op) (es : List Elem) (rebuild : List Elem → OpBody) (s : State) : State :=
  match es with
  | [] => s
  | e :: rest =>
    let (go, s) := if e.live then destGate o.team e.dest s else (true, s)
    if !go then s else
    let s := if e.live then
        { s with
          teams := amMod o.team (putDest e.dest e.val) s.teams
          ops := killEarlier o.team op [e.dest] s.ops }
      else s
    setBody op (rebuild rest) s

/-- LOAD_DATA_RETURN (R77, R80, R81, R191): one register element of a load arrives. -/
def execLoadDataReturn (op : Nat) (s : State) : Out :=
  match amGet op s.ops with
  | none => .next s
  | some o => match o.body with
    | .results es => .next (deliver op o es .results s)
    | .commit b es => .next (deliverKeep op o es (.commit b) s)
    | .tile k l a d es => .next (if k < 16 then deliverKeep op o es (.tile k l a d) s else deliver op o es (.tile k l a d) s)
    | .waitFull [] es => .next (deliver op o es (.waitFull []) s)
    | .waitFull ls (e :: es) => .next (deliverKeep op o (e :: es) (.waitFull ls) s)
    | _ => .next s

/-- The release of the newest set-full store that covers byte a (R51). -/
def fillRelease (s : State) (a : Nat) : Option Nat :=
  match s.hist.find? (fun w => w.meets a 1) with
  | none => none
  | some w => w.sf

/-- A wait-full lane of operation n can read: its granule is full, and no earlier load of the team has still to read there (R36, R194). -/
def laneFull (s : State) (n : Nat) (o : Op) (l : WaitLane) : Bool :=
  smGet false (l.pa / 16) s.full && !readsBehind s o.team n (l.pa, l.span)

/-- The lanes of a wait-full load that read next: those of the first granule that each lane naming it can read. -/
def fullLane (s : State) (n : Nat) (o : Op) (ls : List WaitLane) : Option WaitLane :=
  ls.find? (fun l => (ls.filter (fun x => x.pa / 16 == l.pa / 16)).all (laneFull s n o))

/-- What operation n has read before later CTR.ADDs of its team is ordered by their releases (R44): the writes of the spans, and those
that an acquire has put before. -/
def readOrdered (n : Nat) (o : Op) (spans : List (Nat × Nat)) (s : State) : State :=
  markWrites (laterAdds s o.team n) (fun w => w.acq.contains o.team || (w.readBy.contains o.team && spans.any (fun p => w.meets p.1 p.2))) s

/-- WAIT_FULL_READ (R36, R50, R51, R194): every lane of the pass that names one full granule reads it; an empty-on-read empties it
with the read; the read acquires from the set-full stores whose bytes it returns. A plain read behind such loads reads once they have
(R36). -/
def execWaitFullRead (op : Nat) (s : State) : Out :=
  match amGet op s.ops with
  | none => .next s
  | some o => match o.body with
    | .behind spans ds =>
      if spans.any (readsBehind s o.team op) then .next s
      else
        let (bytes, s) := readSpans o.team spans s
        .next (setBody op (.results (readElems bytes ds)) (readOrdered op o spans s))
    | .waitFull ls es =>
      match fullLane s op o ls with
      | none => .next s
      | some l0 =>
        let g := l0.pa / 16
        let mine := ls.filter (fun l => l.pa / 16 == g)
        let got := mine.flatMap (fun l => l.dests.map (fun r =>
          ({ dest := .lane l.lane r.1, live := true, val := loadVal r.2.2 (rdNat s (l.pa + r.2.1) (r.2.2 / 4 % 16)) } : Elem)))
        let rels := (mine.flatMap (fun l => (upFrom l.pa l.span).filterMap (fillRelease s))).eraseDups
        let s := mine.foldl (fun s l => (readNow o.team l.pa l.span s).2) s
        let s := if rels.isEmpty then s else acquireFrom o.team rels s
        let s := readOrdered op o (mine.map (fun l => (l.pa, l.span))) s
        let s := if l0.empties then { s with full := smPut false g false s.full } else s
        let s := setBody op (.waitFull (ls.filter (fun l => l.pa / 16 != g)) (es ++ got)) s
        -- the end of the STEP of a load that waited (R394)
        let step := match amGet o.frag s.frags with | some f => f.stepping.isSome && f.frozen && decide (f.stepSeq ≤ op) | none => false
        .next (if step then finishStop o.frag s else s)
    | _ => .next s

/-- STORE_TAKEN (R77): the access unit has taken every lane's address and data. -/
def execStoreTaken (op : Nat) (s : State) : Out :=
  match amGet op s.ops with
  | none => .next s
  | some o => match o.body with
    | .taking => .next (endOp op s)
    | _ => .next s

/-- The team's add-on-store elements in flight that meet element e, in the order in which they apply (R197): each with its operation
and its place there. -/
def addsAt (s : State) (team : Nat) (e : AddElem) : List (Nat × Nat × AddElem) :=
  s.ops.flatMap (fun o => match o.2.body with
    | .adds es => if o.2.team = team then ((upFrom 0 es.length).zip es).filterMap (fun x => if x.2.on (e.pa, e.size) then some (o.1, x) else none)
      else []
    | _ => [])

/-- Element e of a team is the next to apply at its location (R197). -/
def addReady (s : State) (team op : Nat) (e : AddElem) : Bool :=
  match addsAt s team e with
  | x :: _ => x.1 == op
  | [] => false

/-- What a port may combine of a team's FADD.R on the element of e: its elements there up to the first of another kind (R198). Those whose
clauses differ in acct are not combined: R198 does not say which an inner node would use (DESIGN CHOICE, notes/assumptions/72.md). -/
def addsAlike (s : State) (team : Nat) (e : AddElem) : List (Nat × Nat × AddElem) :=
  (addsAt s team e).takeWhile (fun x => x.2.2.q3 == 2 && decide (x.2.2.pa = e.pa) && x.2.2.pair == e.pair && x.2.2.acct == e.acct)

/-- Some full binary tree of FADD over the leaves, drawn freely (R198); fuel is their number. -/
def addTree (e : AddElem) : Nat → List (Word × Word) → State → (Word × Word) × State
  | n + 1, a :: b :: ls, s =>
    let join (x y : Word × Word) : Word × Word := addApplied { e with mean := y.1, spread := y.2 } x.1 x.2
    if ls.isEmpty then (join a b, s)
    else
      let l := a :: b :: ls
      let (i, s) := choose l.length s
      let x := nth (0, 0) l i
      let l := l.take i ++ l.drop (i + 1)
      let (j, s) := choose l.length s
      addTree e n (join x (nth (0, 0) l j) :: (l.take j ++ l.drop (j + 1))) s
  | _, a :: _, s => (a, s)
  | _, [], s => ((0, 0), s)

/-- How many of its leading alike elements each other team puts into a combination, by free choice. -/
def otherTeams (e : AddElem) : List Nat → State → List (Nat × List (Nat × Nat × AddElem)) × State
  | [], s => ([], s)
  | t :: ts, s =>
    let l := addsAlike s t e
    let (k, s) := choose (l.length + 1) s
    let (r, s) := otherTeams e ts s
    (if k = 0 then r else (t, l.take k) :: r, s)

/-- The teams with add-on-stores in flight, but one. -/
def addTeams (s : State) (team : Nat) : List Nat :=
  ((s.ops.filterMap (fun o => match o.2.body with | .adds _ => some o.2.team | _ => none)).eraseDups).filter (fun t => t != team)

/-- Elements leave their operations; one with none left is over. -/
def takeAdds (xs : List (Nat × Nat × AddElem)) (s : State) : State :=
  ((xs.map Prod.fst).eraseDups).foldl (fun s n => match amGet n s.ops with
    | none => s
    | some o => match o.body with
      | .adds es =>
        let left := ((upFrom 0 es.length).zip es).filter (fun x => !xs.any (fun y => y.1 == n && y.2.1 == x.1))
        if left.isEmpty then endOp n s else setBody n (.adds (left.map Prod.snd)) s
      | _ => s) s

/-- Combined FADD.R elements are applied as one (R198): the write is the team's, and stands for the other teams' as well. -/
def applyTree (team : Nat) (e : AddElem) (xs : List (Nat × Nat × AddElem)) (others : List Nat) (s : State) : State :=
  let m : Word := BitVec.ofNat 32 (rdNat s e.pa 4)
  let v : Word := BitVec.ofNat 32 (if e.pair then rdNat s (e.pa + 4) 4 else 0)
  let (r, s) := addTree e (xs.length + 1) ((m, v) :: xs.map (fun x => (x.2.2.mean, x.2.2.spread))) s
  let start := s.seq
  let s := writeMem (agentAdds team) e.pa (natBytes 4 r.1.toNat ++ (if e.pair then natBytes 4 r.2.toNat else [])) s
  let s : State := { s with hist := s.hist.map (fun w => if w.stamp = start then { w with also := others.map agentAdds } else w) }
  xs.foldl (fun s x => match amGet x.1 s.ops with
    | none => s
    | some o => fencedWrite o.team o.ord start s) s

/-- ASTO_APPLY (R196 to R198): the next element is applied at its port, once it is the next of its team at its location; an FADD.R may
be combined with further FADD.R elements in flight to the same element, of its own team and of others, by free choice. -/
def execAstoApply (op : Nat) (s : State) : Out :=
  match amGet op s.ops with
  | none => .next s
  | some o => match o.body with
    | .adds [] => .next (endOp op s)
    | .adds (e :: es) =>
      if !addReady s o.team op e then .next s
      else if e.q3 = 2 then
        let own := addsAlike s o.team e
        let (k, s) := choose own.length s
        let (rest, s) := otherTeams e (addTeams s o.team) s
        let xs := own.take (k + 1) ++ rest.flatMap Prod.snd
        .next (takeAdds xs (applyTree o.team e xs (rest.map Prod.fst) s))
      else
        let s := fencedWrite o.team o.ord s.seq (applyAdd (agentAdds o.team) e s)
        .next (if es.isEmpty then endOp op s else setBody op (.adds es) s)
    | _ => .next s

end Sys2Proof.Machine
end

