-- ==== Sys2Proof/Machine/Fetch.lean ====
section
/-! DEFINITION. Fetching a halfword of code (R61 to R63, R285), and the traps and waits that a fetch or KPUSH's read of its
target ends in (R94, R125). -/

namespace Sys2Proof.Machine

/-- The fetch of a launch's code is an agent of its own: it is not ordered with stores (R60). -/
def agentFetch (unit : Nat) : Nat := 9 * 2 ^ 40 + unit

/-- How a fetch of a halfword comes out. -/
inductive Fetched where
  | half (h : Nat)
  | fault (f : FetchFault)
  deriving DecidableEq, Repr

/-- The address conditions of R63 on one halfword. -/
def fetchable (a : Nat) : Bool := canonical a && decide (a % 2 = 0) && decide (aperture a = 0)

/-- The halfword at an address, or why there is none yet (R63, R285). -/
def fetchHalf (t : Team) (u : UnitSt) (a : DWord) (s : State) : Fetched × State :=
  if !fetchable a.toNat then (.fault (.target a), s)
  else
    let (x, s) := translate u.ctx t.gcore a.toNat needFetch s
    match x with
    | .page pa _ =>
      -- no fetch is ordered with another (R60): nothing is kept of what it found
      let (bs, s') := readUnit (agentFetch t.unit) pa 2 s
      (.half (bytesNat bs), { s with free := s'.free })
    | .denied _ => (.fault (.world a), s)
    | .noexec => (.fault (.fetch a 8), s)
    | .malformed => (.fault (.fetch a 6), s)
    | .touch _ => (.fault (.fetch a 9), s)
    | .loggable _ => (.fault (.await a), s)
    | .host _ _ => (.fault (.await a), s)

/-- The fragment waits for the page of a fetch, or of KPUSH's read (`how`, see `Wait.merge`), in the merge table (R285, R287). Should
the page have come meanwhile, it fetches again. -/
def fetchWait (i : Nat) (t : Team) (u : UnitSt) (a : DWord) (how : Nat) (s : State) : State × Stop :=
  let (x, s) := translate u.ctx t.gcore a.toNat needFetch s
  match x with
  | .loggable e =>
    let (k, s) := tileOf u.ctx a.toNat e s
    (match mergeJoin (dieOf t.gcore) u.ctx false a.toNat e needFetch.kind (.frag i) s with
     | none => (s, .stall)
     | some (n, s) => (startArrival k s, .wait (.merge n a how)))
  | .host e large => match mergeJoin (dieOf t.gcore) u.ctx large a.toNat e needFetch.kind (.frag i) s with
    | none => (s, .stall)
    | some (n, s) => (s, .wait (.merge n a how))
  | _ => (s, .stall)

/-- FETCH_FAULT (R63, R75, R125, R285): the fragment's fetch raises its trap or waits. HADDR of ILLEGAL-TARGET is the
transferring instruction, 0 for sequential fetch. -/
def execFetchFault (ff : FetchFault) (s : State) : Out :=
  match current s with
  | none => .fault .noFragment
  | some (i, f, t) =>
    let from_ : DWord → DWord := fun a => if a = f.pc then f.xfer.getD 0 else 0
    match ff with
    | .target a => .next (trapHere i f false 0x03 a (from_ a) 0 true s)
    | .noHeader a => .next (trapHere i f false 0x03 a (f.xfer.getD 0) 0 false s)
    | .fetch a st => .next (trapHere i f false 0x13 a a (dw st.toNat) true s)
    | .world a => .next (trapHere i f false 0x11 f.pc a (accessInfo 3 false false true 0) true s)
    | .await a => match amGet t.unit s.units with
      | none => .next s
      | some u =>
        let (s, e) := fetchWait i t u a 2 s
        .next (stopPass i f false (modFrag i (fun f => { f with iword := 0 }) s) e)

/-- ILLEGAL_INSTRUCTION (R83): the trap with the instruction word (R125). PASS of a word that acts on lanes is open: it is 0 where decoding
or the clause's length refuses the word, and the pass reached where R71 refuses its registers (DESIGN CHOICE,
notes/assumptions/90.md). -/
def execIllegalInstruction (word : Word) (s : State) : Out :=
  match current s with
  | none => .fault .noFragment
  | some (i, f, _) => .next (trapHere i f false 0x01 f.pc 0 (dw word.toNat) false s)

end Sys2Proof.Machine
end

