-- ==== Sys2Proof/Machine/Kettle.lean ====
section
/-! DEFINITION. Divergence (R94 to R100): the kettle with its spill area, SPLIT, RCV, EXIT and KPUSH. -/

namespace Sys2Proof.Machine

/-- An entry's record (R99): 16 bytes, or 176 for a serial one. -/
def entryBytes (e : Entry) : List Byte :=
  natBytes 8 e.raddr.toNat ++ natBytes 2 (e.parent.getD 0xFFFF) ++ natBytes 1 e.out ++
  natBytes 1 (b2n e.serial + 2 * b2n e.freed + 4 * b2n e.dstarted) ++ natBytes 4 0 ++
  (if e.serial then natBytes 8 e.dpc.toNat ++ natBytes 8 e.dclause.hdr.toNat ++ natBytes 4 e.dclause.word.toNat ++ natBytes 12 0 ++
    natBytes 128 e.dmask.toNat else [])

/-- The entry that a record of 176 bytes holds (R99): whatever bytes stand there, where the program has written over them (R99 calls that
unpredictable, confined; DESIGN CHOICE, notes/assumptions/48.md). -/
def entryOf (bs : List Byte) : Entry :=
  let at_ (o n : Nat) : Nat := bytesNat ((bs.drop o).take n)
  let fl := at_ 11 1
  let serial := fl % 2 == 1
  { raddr := dw (at_ 0 8), parent := if at_ 8 2 = 0xFFFF then none else some (at_ 8 2), out := at_ 10 1, serial := serial,
    freed := fl / 2 % 2 == 1, dstarted := fl / 4 % 2 == 1, dpc := if serial then dw (at_ 16 8) else 0,
    dclause := if serial then { hdr := dw (at_ 24 8), word := BitVec.ofNat 32 (at_ 32 4) } else { hdr := 0, word := 0 },
    dmask := if serial then BitVec.ofNat 1024 (at_ 48 128) else 0 }

/-- The team as it stands now. -/
def teamNow (s : State) (f : Frag) (t : Team) : Team := (amGet f.team s.teams).getD t

/-- Bytes read by the sequencer on the team's behalf (R98). -/
def seqRead (i : Nat) (f : Frag) (t : Team) (a : Nat) (n : Nat) (s : State) : Res (List Byte) :=
  andThen (laneAccess i t 0 a n 1 needLoad false 0 s) fun s ps =>
  let (m, s) := readSpans f.team (pieceSpans ps) s
  .ok (s, (upFrom 0 n).map (fun o => smGet 0 (paAt ps o) m))

/-- Bytes written by the sequencer on the team's behalf (R98). -/
def seqWrite (i : Nat) (f : Frag) (t : Team) (a : Nat) (bs : List Byte) (s : State) : Res Unit :=
  andThen (laneAccess i t 0 a bs.length 1 needStore false 0 s) fun s ps =>
  .ok (teamWrite i f t none (placeBytes ps bs) s, ())

/-- The record in spill slot k. -/
def readSlot (i : Nat) (f : Frag) (t : Team) (k : Nat) (s : State) : Res Entry :=
  andThen (seqRead i f t (t.ksb.toNat + 176 * k) 16 s) fun s head =>
  if (entryOf head).serial then
    andThen (seqRead i f t (t.ksb.toNat + 176 * k + 16) 160 s) fun s rest => .ok (s, entryOf (head ++ rest))
  else .ok (s, entryOf head)

/-- Entry number k of the stack, in the hardware or in its record (R98). -/
def kettleGet (i : Nat) (f : Frag) (t : Team) (k : Nat) (s : State) : Res (Option Entry) :=
  let t := teamNow s f t
  let sp := t.ksp / 176
  if k < sp then andThen (readSlot i f t k s) fun s e => .ok (s, some e)
  else .ok (s, t.kettle[k - sp]?)

/-- Entry number k set, in the hardware or in its record, in place (R98). -/
def kettlePut (i : Nat) (f : Frag) (t : Team) (k : Nat) (e : Entry) (s : State) : Res Unit :=
  let t := teamNow s f t
  let sp := t.ksp / 176
  if k < sp then seqWrite i f t (t.ksb.toNat + 176 * k) (entryBytes e) s
  else .ok (modTeam f.team (fun t => { t with kettle := setNth e t.kettle (k - sp) }) s, ())

/-- A push (R98): at depth 32 the lowest hardware slot is spilled first. The new entry's number is returned. -/
def kettlePush (i : Nat) (f : Frag) (t : Team) (e : Entry) (s : State) : Res Nat :=
  let t := teamNow s f t
  let depth := t.ksp / 176 + t.kettle.length
  match t.kettle with
  | low :: rest =>
    if t.kettle.length < 32 then
      .ok (modTeam f.team (fun t => { t with kettle := t.kettle ++ [e], rcvAt := amDel depth t.rcvAt }) s, depth)
    else if t.ksz.toNat < t.ksp + 176 then .error (s, .trap 0x1A (t.ksb + dw t.ksp) (dw depth))
    else
      andThen (seqWrite i f t (t.ksb.toNat + t.ksp) (entryBytes low) s) fun s _ =>
      .ok (modTeam f.team (fun t => { t with kettle := rest ++ [e], ksp := t.ksp + 176, rcvAt := amDel depth t.rcvAt }) s, depth)
  | [] => .ok (modTeam f.team (fun t => { t with kettle := [e], rcvAt := amDel depth t.rcvAt }) s, depth)

/-- Freed slots at the top are reclaimed, and spilled records fill back below the hardware slots (R98). -/
def kettleSettle (i : Nat) (f : Frag) (t : Team) : Nat → State → Res Unit
  | 0, s => .ok (s, ())
  | n + 1, s =>
    let t := teamNow s f t
    match t.kettle.reverse with
    | top :: below =>
      if top.freed then kettleSettle i f t n (modTeam f.team (fun t => { t with kettle := below.reverse }) s)
      else if t.kettle.length < 32 ∧ t.ksp ≠ 0 then
        andThen (readSlot i f t (t.ksp / 176 - 1) s) fun s e =>
        kettleSettle i f t n (modTeam f.team (fun t => { t with kettle := e :: t.kettle, ksp := t.ksp - 176 }) s)
      else .ok (s, ())
    | [] =>
      if t.ksp ≠ 0 then
        andThen (readSlot i f t (t.ksp / 176 - 1) s) fun s e =>
        kettleSettle i f t n (modTeam f.team (fun t => { t with kettle := [e], ksp := t.ksp - 176 }) s)
      else .ok (s, ())

/-- Entry k is freed (R97, R98). -/
def kettleFree (i : Nat) (f : Frag) (t : Team) (k : Nat) (e : Entry) (s : State) : Res Unit :=
  andThen (kettlePut i f t k { e with freed := true, out := 0 } s) fun s _ =>
  let s := modTeam f.team (fun t => { t with rcvAt := amDel k t.rcvAt }) s
  let t := teamNow s f t
  kettleSettle i f t (2 * (t.ksp / 176 + t.kettle.length) + 2) s

/-- A translation fault of the sequencer's own access comes before the instruction's other effects (R98): of what was done,
only what the fault itself leaves is kept. -/
def beforeEffects {α : Type} (s : State) : Res α → Res α
  | .ok r => .ok r
  | .error (s', e) => .error ({ s with merge := s'.merge, tiles := s'.tiles, tlb := s'.tlb, free := s'.free }, e)

/-- The fragments waiting at RCV on entry k, and whether one such is saved in the trap frame. -/
def waitersOf (s : State) (team k : Nat) : AMap Frag :=
  s.frags.filter (fun e => e.2.team == team && e.2.wait == .rcv && e.2.entry == some k)

/-- A fragment that has arrived on entry k is saved in the team's trap frame. -/
def savedWaiter (s : State) (team k : Nat) : Bool :=
  match amGet team s.teams with
  | none => false
  | some t => match t.frame with
    | none => false
    | some fr => fr.saved.arrived && fr.saved.entry == some k

/-- Fusion on entry k into fragment i, which stands at its RCV, its last pass before a tick (R97). Which of the joined
fragments' PENDING the result has is not stated: it is one of them. Nor is it stated after which RCV it goes on where they wait at different
ones of the clause (R96): after the last arriver's, or, where an EXIT brings the fusion, after that of the waiter with the lowest lane
(DESIGN CHOICE, notes/assumptions/47.md). -/
def fuseFrags (i : Nat) (f : Frag) (t : Team) (k : Nat) (e : Entry) (key : Nat) (s : State) : Res Unit :=
  let ws := (waitersOf s f.team k).filter (fun w => w.1 != i)
  let pendings := ((f :: ws.map Prod.snd).map (fun w => w.pending)).eraseDups
  let (c, s) := choose pendings.length s
  let mask := ws.foldl (fun m w => m ||| w.2.mask) f.mask ||| (if e.serial then e.dmask else 0)
  let s := ws.foldl (fun s w => delFrag w.1 s) s
  let f' := moveOn 4 (ws.foldl (fun n w => max n w.2.key) key) f
  let s := setFrag i { f' with mask := mask, entry := e.parent, pending := nth none pendings c,
                               deferred := f.deferred ++ ws.flatMap (fun w => w.2.deferred) } s
  kettleFree i f t k e s

/-- The gathering table of a team's core holds 64 fragments (R95): those of its context, since another's are saved in its image
(R133). -/
def tableFull (s : State) (t : Team) : Bool :=
  let ctx (unit : Nat) : Option Nat := (amGet unit s.units).map (fun u => u.ctx)
  decide (64 ≤ (s.frags.filter (fun e => match amGet e.2.team s.teams with
    | some u => decide (u.gcore = t.gcore) && ctx u.unit == ctx t.unit
    | none => false)).length)

/-- The division of a SPLIT, after its last pass (R95); `f` holds the taken lanes. -/
def divide (o : BitVec 18) (s : State) (i : Nat) (f : Frag) (t : Team) : Except (State × Stop) State :=
  let target := branchTarget f.pc o.toInt
  let rest := f.mask &&& ~~~f.taken
  match f.pending with
  | none => .error (s, .trap 0x04 0 (dw f.iword.toNat))
  | some p =>
    if rest = 0 then .ok (transfer i target (modFrag i (fun f => { f with pending := none }) (traceRec t 1 f.pc s)))
    else if f.taken = 0 then .ok (advance i 4 (modFrag i (fun f => { f with pending := none }) (traceRec t 1 f.pc s)))
    else
      let full := tableFull s t
      let e : Entry :=
        { raddr := p, parent := f.entry, out := 2, serial := full, freed := false, dstarted := false,
          dpc := if full then f.pc + 4 else 0, dclause := if full then f.clause else { hdr := 0, word := 0 },
          dmask := if full then rest else 0 }
      match beforeEffects s (kettlePush i f t e s) with
      | .error e => .error e
      | .ok (s, k) =>
        let s := traceRec t 1 f.pc s
        let s := modFrag i (fun g => { g with mask := f.taken, entry := some k, pending := none }) s
        let s := if full then s else
          let f' := moveOn 4 (s.toll + 1) f
          let b : Frag :=
            { f' with mask := rest, entry := some k, pending := none, deferred := [], skid := 0,
                                           stepping := none, stopFor := none, frozen := false }
          let s' := setFrag s.seq b { s with seq := s.seq + 1 }
          match f.stepping with
          | some _ => freezeFrag s.seq (s.toll + 1) 0 s'
          | none => s'
        .ok (transfer i target s)

/-- SPLIT (R95): the passes read the condition, and the division takes effect after the last. -/
def execSplit (d : BitVec 6) (o : BitVec 18) (s : State) : Out :=
  gatherPass (fun s f t =>
    if t.regs ≤ d.toNat then .error (illegal s f)
    else if f.pending.isNone then .error (s, .trap 0x04 0 (dw f.iword.toNat))
    else .ok (fun l => meanOf (dGet t l d.toNat) != 0, 0)) (divide o) s

/-- RCV (R96, R97). The entry keeps its deferred address and clause; where the taken side goes on is kept beside it (R99). -/
def execRcv (s : State) : Out :=
  onePassTo (fun s i f t =>
    match f.entry with
    | none => .ok (advance i 4 s)
    | some k =>
      match beforeEffects s (
        andThen (kettleGet i f t k s) fun s e? =>
        match e? with
        | none => .ok (advance i 4 s, ())
        | some e =>
          if e.raddr != f.clause.hdr then .ok (advance i 4 s, ())
          else
            let e1 := if f.arrived then e else { e with out := e.out - 1 }
            if e.serial && !e.dstarted then
              andThen (kettlePut i f t k { e1 with dstarted := true, dmask := f.mask } s) fun s _ =>
              let s := modTeam f.team (fun t => { t with rcvAt := amPut k (f.pc + 4, f.clause) t.rcvAt }) s
              .ok (advance i 0 (modFrag i (fun f => { f with mask := e.dmask, pc := e.dpc, clause := e.dclause }) s), ())
            else if e1.out > 0 || savedWaiter s f.team k then
              andThen (kettlePut i f t k e1 s) fun s _ =>
              .ok (finishStop i (beginWait i .rcv (modFrag i (fun f => { f with arrived := true }) s)), ())
            else
              andThen (fuseFrags i f t k e1 (s.toll + 1) s) fun s _ => .ok (finishStop i (spend i s), ())) with
      | .ok (s, _) => .ok s
      | .error e => .error e) s

/-- A fragment of entry k has exited (R97): the deferred side starts, the waiting fragments fuse, or the entry is freed and
its parent counts one fragment exited. `i` is the number a fragment that starts here takes. A deferred side that starts because the taken
side exited has no PENDING: R97 says 'as at RCV', where a fragment goes on that has its own (DESIGN CHOICE, notes/assumptions/47.md). -/
def leaveEntry (i : Nat) (f : Frag) (t : Team) : Nat → Nat → State → Res Unit
  | 0, _, s => .ok (s, ())
  | n + 1, k, s =>
    andThen (kettleGet i f t k s) fun s e? =>
    match e? with
    | none => .ok (s, ())
    | some e =>
      let e1 := { e with out := e.out - 1 }
      if e.serial && !e.dstarted then
        andThen (kettlePut i f t k { e1 with dstarted := true, dmask := 0 } s) fun s _ =>
        .ok (setFrag i { newFrag f.team e.dpc e.dmask (s.toll + 1) none with entry := some k, clause := e.dclause } s, ())
      else if e1.out > 0 then kettlePut i f t k e1 s
      else
        match minBy (fun w => lowestLane w.2.mask) (waitersOf s f.team k) with
        | some (j, w) => fuseFrags j w t k e1 w.key s
        | none =>
          if savedWaiter s f.team k then kettlePut i f t k e1 s
          else if e.serial && e.dmask != 0 then
            let back := smGet (e.dpc, e.dclause) k (teamNow s f t).rcvAt
            andThen (kettleFree i f t k e1 s) fun s _ =>
            .ok (setFrag i { newFrag f.team back.1 e.dmask (s.toll + 1) none with entry := e.parent, clause := back.2 } s, ())
          else
            andThen (kettleFree i f t k e1 s) fun s _ =>
            match e.parent with
            | none => .ok (s, ())
            | some p => leaveEntry i f t n p s

/-- EXIT (R97, R112): illegal in a supervisor-handler fragment. -/
def execExit (s : State) : Out :=
  onePassTo (fun s i f t =>
    if f.handler then .error (illegal s f)
    else
      let gone := modTeam f.team (fun t => { t with left := t.left ||| f.mask }) (delFrag i (traceRec t 7 f.pc (spend i s)))
      match f.entry with
      | none => .ok (settleTeam f.team gone)
      | some k =>
        match beforeEffects s (leaveEntry i f t ((teamNow s f t).ksp / 176 + (teamNow s f t).kettle.length + 1) k gone) with
        | .ok (s, _) => .ok (settleTeam f.team s)
        | .error e => .error e) s

/-- KPUSH (R94): the target's halfword is read as a fetch, and must be a clause header. -/
def execKpush (o : BitVec 24) (s : State) : Out :=
  onePass 4 (fun s i f t =>
    let exact := branchTarget f.pc o.toInt
    let target : DWord := BitVec.ofInt 64 exact
    match amGet t.unit s.units with
    | none => .error (s, .stall)
    | some u =>
      match (if noAddress exact then (.fault (.target target), s) else fetchHalf t u target s) with
      | (.half h, s) =>
        if h % 256 = 0xFF then .ok (modFrag i (fun f => { f with pending := some target }) s)
        else .error (s, .trapAt 0x03 target f.pc 0)
      | (.fault (.target _), s) => .error (s, .trapAt 0x03 target f.pc 0)
      | (.fault (.noHeader _), s) => .error (s, .trapAt 0x03 target f.pc 0)
      | (.fault (.fetch _ st), s) => .error (s, .trap 0x13 target (dw st.toNat))
      | (.fault (.world _), s) => .error (s, .trap 0x11 target (accessInfo 3 false false true 0))
      | (.fault (.await _), s) => .error (fetchWait i t u target 3 s)) s

end Sys2Proof.Machine
end

