-- ==== Sys2Proof/Machine/Lane.lean ====
section
/-! DEFINITION. The lane-engine instructions (R135 to R160) and their 16-bit forms (R64 to R66). -/

namespace Sys2Proof.Machine

/-- A word from a Boolean. -/
def w01 (b : Bool) : Word := BitVec.ofNat 32 (b2n b)

/-- The lesser by an order, the first of equals. -/
def pickWord (lt : Word → Word → Bool) (a b : Word) : Word := if lt b a then b else a

/-! ### Value-word functions of the integer instructions (R143) -/

/-- IADD (R143). -/
def wordIadd (a b _d : Word) : Word := a + b
/-- ISUB (R143). -/
def wordIsub (a b _d : Word) : Word := a - b
/-- IMUL (R143). -/
def wordImul (a b _d : Word) : Word := a * b
/-- IMULH (R143). -/
def wordImulh (a b _d : Word) : Word := BitVec.ofInt 32 (a.toInt * b.toInt / 2 ^ 32)
/-- IMULHU (R143). -/
def wordImulhu (a b _d : Word) : Word := BitVec.ofNat 32 (a.toNat * b.toNat / 2 ^ 32)
/-- IMAD (R143). -/
def wordImad (a b d : Word) : Word := a * b + d
/-- IAND (R143). -/
def wordIand (a b _d : Word) : Word := a &&& b
/-- IOR (R143). -/
def wordIor (a b _d : Word) : Word := a ||| b
/-- IXOR (R143). -/
def wordIxor (a b _d : Word) : Word := a ^^^ b
/-- IANDN (R143). -/
def wordIandn (a b _d : Word) : Word := a &&& ~~~b
/-- ISHL (R143). -/
def wordIshl (a b _d : Word) : Word := a <<< (b.toNat % 32)
/-- ISHR (R143). -/
def wordIshr (a b _d : Word) : Word := a >>> (b.toNat % 32)
/-- ISRA (R143). -/
def wordIsra (a b _d : Word) : Word := a.sshiftRight (b.toNat % 32)
/-- IMIN (R143). -/
def wordImin (a b _d : Word) : Word := pickWord BitVec.slt a b
/-- IMAX (R143). -/
def wordImax (a b _d : Word) : Word := pickWord (fun x y => y.slt x) a b
/-- UMIN (R143). -/
def wordUmin (a b _d : Word) : Word := pickWord BitVec.ult a b
/-- UMAX (R143). -/
def wordUmax (a b _d : Word) : Word := pickWord (fun x y => y.ult x) a b
/-- ISEQ (R143). -/
def wordIseq (a b _d : Word) : Word := w01 (a == b)
/-- ISLT (R143). -/
def wordIslt (a b _d : Word) : Word := w01 (a.slt b)
/-- ISLTU (R143). -/
def wordIsltu (a b _d : Word) : Word := w01 (a.ult b)

/-- IADD64 and ISUB64: all 64 bits of one register (R136). -/
def fn64 (op : DWord → DWord → DWord) : LaneFn := fun _ _ gs => ([op ((grp gs 0).headD 0) ((grp gs 1).headD 0)], 0)

/-- PLAIN alone. -/
def plainOnly (m : Nat) : Bool := m == 0
/-- PLAIN and MOM. -/
def plainOrMom (m : Nat) : Bool := decide (m ≤ 1)

/-! ### Three-register instructions -/

/-- IADD (R143). -/
def execIadd (w : BitVec 2) (d a : BitVec 6) (p : BitVec 2) (b : BitVec 6) (q : BitVec 2) (s : State) : Out :=
  laneOp2 4 w d.toNat a.toNat p b.toNat q anyMode (intFn2 wordIadd) s

/-- ISUB (R143). -/
def execIsub (w : BitVec 2) (d a : BitVec 6) (p : BitVec 2) (b : BitVec 6) (q : BitVec 2) (s : State) : Out :=
  laneOp2 4 w d.toNat a.toNat p b.toNat q anyMode (intFn2 wordIsub) s

/-- IMUL (R143). -/
def execImul (w : BitVec 2) (d a : BitVec 6) (p : BitVec 2) (b : BitVec 6) (q : BitVec 2) (s : State) : Out :=
  laneOp2 4 w d.toNat a.toNat p b.toNat q anyMode (intFn2 wordImul) s

/-- IMULH (R143). -/
def execImulh (w : BitVec 2) (d a : BitVec 6) (p : BitVec 2) (b : BitVec 6) (q : BitVec 2) (s : State) : Out :=
  laneOp2 4 w d.toNat a.toNat p b.toNat q anyMode (intFn2 wordImulh) s

/-- IMULHU (R143). -/
def execImulhu (w : BitVec 2) (d a : BitVec 6) (p : BitVec 2) (b : BitVec 6) (q : BitVec 2) (s : State) : Out :=
  laneOp2 4 w d.toNat a.toNat p b.toNat q anyMode (intFn2 wordImulhu) s

/-- IMAD (R143). -/
def execImad (w : BitVec 2) (d a : BitVec 6) (p : BitVec 2) (b : BitVec 6) (q : BitVec 2) (s : State) : Out :=
  laneOp2 4 w d.toNat a.toNat p b.toNat q anyMode (intFn2 wordImad) s

/-- IAND (R143). -/
def execIand (w : BitVec 2) (d a : BitVec 6) (p : BitVec 2) (b : BitVec 6) (q : BitVec 2) (s : State) : Out :=
  laneOp2 4 w d.toNat a.toNat p b.toNat q anyMode (intFn2 wordIand) s

/-- IOR (R143). -/
def execIor (w : BitVec 2) (d a : BitVec 6) (p : BitVec 2) (b : BitVec 6) (q : BitVec 2) (s : State) : Out :=
  laneOp2 4 w d.toNat a.toNat p b.toNat q anyMode (intFn2 wordIor) s

/-- IXOR (R143). -/
def execIxor (w : BitVec 2) (d a : BitVec 6) (p : BitVec 2) (b : BitVec 6) (q : BitVec 2) (s : State) : Out :=
  laneOp2 4 w d.toNat a.toNat p b.toNat q anyMode (intFn2 wordIxor) s

/-- IANDN (R143). -/
def execIandn (w : BitVec 2) (d a : BitVec 6) (p : BitVec 2) (b : BitVec 6) (q : BitVec 2) (s : State) : Out :=
  laneOp2 4 w d.toNat a.toNat p b.toNat q anyMode (intFn2 wordIandn) s

/-- ISHL (R143). -/
def execIshl (w : BitVec 2) (d a : BitVec 6) (p : BitVec 2) (b : BitVec 6) (q : BitVec 2) (s : State) : Out :=
  laneOp2 4 w d.toNat a.toNat p b.toNat q anyMode (intFn2 wordIshl) s

/-- ISHR (R143). -/
def execIshr (w : BitVec 2) (d a : BitVec 6) (p : BitVec 2) (b : BitVec 6) (q : BitVec 2) (s : State) : Out :=
  laneOp2 4 w d.toNat a.toNat p b.toNat q anyMode (intFn2 wordIshr) s

/-- ISRA (R143). -/
def execIsra (w : BitVec 2) (d a : BitVec 6) (p : BitVec 2) (b : BitVec 6) (q : BitVec 2) (s : State) : Out :=
  laneOp2 4 w d.toNat a.toNat p b.toNat q anyMode (intFn2 wordIsra) s

/-- IMIN (R143). -/
def execImin (w : BitVec 2) (d a : BitVec 6) (p : BitVec 2) (b : BitVec 6) (q : BitVec 2) (s : State) : Out :=
  laneOp2 4 w d.toNat a.toNat p b.toNat q anyMode (intFn2 wordImin) s

/-- IMAX (R143). -/
def execImax (w : BitVec 2) (d a : BitVec 6) (p : BitVec 2) (b : BitVec 6) (q : BitVec 2) (s : State) : Out :=
  laneOp2 4 w d.toNat a.toNat p b.toNat q anyMode (intFn2 wordImax) s

/-- UMIN (R143). -/
def execUmin (w : BitVec 2) (d a : BitVec 6) (p : BitVec 2) (b : BitVec 6) (q : BitVec 2) (s : State) : Out :=
  laneOp2 4 w d.toNat a.toNat p b.toNat q anyMode (intFn2 wordUmin) s

/-- UMAX (R143). -/
def execUmax (w : BitVec 2) (d a : BitVec 6) (p : BitVec 2) (b : BitVec 6) (q : BitVec 2) (s : State) : Out :=
  laneOp2 4 w d.toNat a.toNat p b.toNat q anyMode (intFn2 wordUmax) s

/-- ISEQ (R143). -/
def execIseq (w : BitVec 2) (d a : BitVec 6) (p : BitVec 2) (b : BitVec 6) (q : BitVec 2) (s : State) : Out :=
  laneOp2 4 w d.toNat a.toNat p b.toNat q anyMode (intFn2 wordIseq) s

/-- ISLT (R143). -/
def execIslt (w : BitVec 2) (d a : BitVec 6) (p : BitVec 2) (b : BitVec 6) (q : BitVec 2) (s : State) : Out :=
  laneOp2 4 w d.toNat a.toNat p b.toNat q anyMode (intFn2 wordIslt) s

/-- ISLTU (R143). -/
def execIsltu (w : BitVec 2) (d a : BitVec 6) (p : BitVec 2) (b : BitVec 6) (q : BitVec 2) (s : State) : Out :=
  laneOp2 4 w d.toNat a.toNat p b.toNat q anyMode (intFn2 wordIsltu) s

/-- IADD64 (R136, R143). -/
def execIadd64 (w : BitVec 2) (d a : BitVec 6) (p : BitVec 2) (b : BitVec 6) (q : BitVec 2) (s : State) : Out :=
  laneOp2 4 w d.toNat a.toNat p b.toNat q plainOnly (fn64 (fun a b => a + b)) s

/-- ISUB64 (R136, R143). -/
def execIsub64 (w : BitVec 2) (d a : BitVec 6) (p : BitVec 2) (b : BitVec 6) (q : BitVec 2) (s : State) : Out :=
  laneOp2 4 w d.toNat a.toNat p b.toNat q plainOnly (fn64 (fun a b => a - b)) s

/-- FADD (R146). -/
def execFadd (w : BitVec 2) (d a : BitVec 6) (p : BitVec 2) (b : BitVec 6) (q : BitVec 2) (s : State) : Out :=
  laneOp2 4 w d.toNat a.toNat p b.toNat q anyMode (fpFn opAdd) s

/-- FSUB (R146). -/
def execFsub (w : BitVec 2) (d a : BitVec 6) (p : BitVec 2) (b : BitVec 6) (q : BitVec 2) (s : State) : Out :=
  laneOp2 4 w d.toNat a.toNat p b.toNat q anyMode (fpFn opSub) s

/-- FMUL (R146). -/
def execFmul (w : BitVec 2) (d a : BitVec 6) (p : BitVec 2) (b : BitVec 6) (q : BitVec 2) (s : State) : Out :=
  laneOp2 4 w d.toNat a.toNat p b.toNat q anyMode (fpFn opMul) s

/-- FMA (R146). -/
def execFma (w : BitVec 2) (d a : BitVec 6) (p : BitVec 2) (b : BitVec 6) (q : BitVec 2) (s : State) : Out :=
  laneOp2 4 w d.toNat a.toNat p b.toNat q anyMode (fpFn opFma) s

/-- FMIN (R147). -/
def execFmin (w : BitVec 2) (d a : BitVec 6) (p : BitVec 2) (b : BitVec 6) (q : BitVec 2) (s : State) : Out :=
  laneOp2 4 w d.toNat a.toNat p b.toNat q anyMode (minMaxFn true) s

/-- FMAX (R147). -/
def execFmax (w : BitVec 2) (d a : BitVec 6) (p : BitVec 2) (b : BitVec 6) (q : BitVec 2) (s : State) : Out :=
  laneOp2 4 w d.toNat a.toNat p b.toNat q anyMode (minMaxFn false) s

/-- FSEQ (R148). -/
def execFseq (w : BitVec 2) (d a : BitVec 6) (p : BitVec 2) (b : BitVec 6) (q : BitVec 2) (s : State) : Out :=
  laneOp2 4 w d.toNat a.toNat p b.toNat q anyMode (cmpFn fEq) s

/-- FSLT (R148). -/
def execFslt (w : BitVec 2) (d a : BitVec 6) (p : BitVec 2) (b : BitVec 6) (q : BitVec 2) (s : State) : Out :=
  laneOp2 4 w d.toNat a.toNat p b.toNat q anyMode (cmpFn fLt) s

/-- FSLE (R148). -/
def execFsle (w : BitVec 2) (d a : BitVec 6) (p : BitVec 2) (b : BitVec 6) (q : BitVec 2) (s : State) : Out :=
  laneOp2 4 w d.toNat a.toNat p b.toNat q anyMode (cmpFn fLe) s

/-- SEL's choice (R149): d's first register, read raw, chooses the whole group. -/
def selFn : LaneFn := fun _ _ gs => (if meanOf ((grp gs 2).headD 0) != 0 then grp gs 0 else grp gs 1, 0)

/-- SEL (R149). -/
def execSel (w : BitVec 2) (d a : BitVec 6) (p : BitVec 2) (b : BitVec 6) (q : BitVec 2) (s : State) : Out :=
  laneOp2 4 w d.toNat a.toNat p b.toNat q anyMode selFn s

/-- PERM (R150): lane i receives the whole a-group, read through pa, of lane k of the same pass, k being bits [4:0] of the
first value word of b's group. -/
def execPerm (w : BitVec 2) (d a : BitVec 6) (p : BitVec 2) (b : BitVec 6) (q : BitVec 2) (s : State) : Out :=
  lanePass 4 (fun s _ f t lanes =>
    let g := groupOf f.mode
    match checkRegs s f t w true [(d.toNat, g), (a.toNat, g), (b.toNat, g)] with
    | .error e => .error e
    | .ok () =>
      let one (l j : Nat) : List (Nat × Nat × DWord) :=
        let k := (meanOf (dGet t (srcLane t q.toNat l) (b.toNat + j * g))).toNat % 32
        let src := srcLane t p.toNat (32 * (l / 32) + k)
        (upFrom 0 g).map (fun x => (l, d.toNat + j * g + x, dGet t src (a.toNat + j * g + x)))
      .ok (writeLanes f.team (lanes.flatMap (fun l => (upFrom 0 (2 ^ w.toNat)).flatMap (one l))) s)) s

/-! ### Immediate instructions (R144, R145, R153) -/

/-- ADDI (R144). -/
def execAddi (w : BitVec 2) (d a : BitVec 6) (p : BitVec 2) (i : BitVec 8) (s : State) : Out :=
  laneOp1 4 w d.toNat a.toNat p (intFn1 (fun a => (a + i.signExtend 32, 0))) s

/-- SHLI (R144). -/
def execShli (w : BitVec 2) (d a : BitVec 6) (p : BitVec 2) (i : BitVec 5) (s : State) : Out :=
  laneOp1 4 w d.toNat a.toNat p (intFn1 (fun a => (a <<< i.toNat, 0))) s

/-- SHRI (R144). -/
def execShri (w : BitVec 2) (d a : BitVec 6) (p : BitVec 2) (i : BitVec 5) (s : State) : Out :=
  laneOp1 4 w d.toNat a.toNat p (intFn1 (fun a => (a >>> i.toNat, 0))) s

/-- SRAI (R144). -/
def execSrai (w : BitVec 2) (d a : BitVec 6) (p : BitVec 2) (i : BitVec 5) (s : State) : Out :=
  laneOp1 4 w d.toNat a.toNat p (intFn1 (fun a => (a.sshiftRight i.toNat, 0))) s

/-- ANDI (R144). -/
def execAndi (w : BitVec 2) (d a : BitVec 6) (p : BitVec 2) (i : BitVec 8) (s : State) : Out :=
  laneOp1 4 w d.toNat a.toNat p (intFn1 (fun a => (a &&& i.signExtend 32, 0))) s

/-- RND (R153). -/
def execRnd (w : BitVec 2) (d a : BitVec 6) (p : BitVec 2) (i : BitVec 5) (s : State) : Out :=
  laneOp1 4 w d.toNat a.toNat p (fpFn (opRnd i.toNat)) s

/-- One register written in every active lane, in every mode (R66, R145, R156): `val` gives it from the lane and the old
register. -/
def oneReg (len : Nat) (d : Nat) (others : List Nat) (val : State → Nat → Team → Nat → DWord) (s : State) : Out :=
  lanePass len (fun s i f t lanes =>
    match checkRegs s f t 0 true ((d :: others).map (fun r => (r, 1))) with
    | .error e => .error e
    | .ok () => .ok (writeLanes f.team (lanes.map (fun l => (l, d, val s i t l))) s)) s

/-- MOVI (R145). -/
def execMovi (d : BitVec 6) (i : BitVec 16) (s : State) : Out :=
  oneReg 4 d.toNat [] (fun _ _ _ _ => i.setWidth 64) s

/-- MOVHI (R145): the low half of the mean word and the spread word stay. -/
def execMovhi (d : BitVec 6) (i : BitVec 16) (s : State) : Out :=
  oneReg 4 d.toNat [] (fun _ _ t l =>
    let v := dGet t l d.toNat
    reg (i ++ (meanOf v).setWidth 16) (spreadOf v)) s

/-- MOV (R66): the whole register, in every mode. Of MOV d0, d0, the halfword 0x0000, while a load to d0 is outstanding, R66 says that it has no
visible effect and R81 that a later-issued write stands: here it is such a write, and what the load brings is discarded (DESIGN CHOICE,
notes/assumptions/97.md). -/
def execMov (d b : BitVec 5) (s : State) : Out :=
  oneReg 2 d.toNat [b.toNat] (fun _ _ t l => dGet t l b.toNat) s

/-! ### The 16-bit forms (R65): width 1, a = d, identity patterns -/

/-- A 16-bit form of a two-source lane instruction. -/
def short2 (d b : BitVec 5) (fn : LaneFn) (s : State) : Out :=
  laneOp2 2 0 d.toNat d.toNat 0 b.toNat 0 anyMode fn s

/-- The 16-bit IADD (R65). -/
def execIadd16 (d b : BitVec 5) (s : State) : Out := short2 d b (intFn2 wordIadd) s
/-- The 16-bit ISUB (R65). -/
def execIsub16 (d b : BitVec 5) (s : State) : Out := short2 d b (intFn2 wordIsub) s
/-- The 16-bit IMUL (R65). -/
def execImul16 (d b : BitVec 5) (s : State) : Out := short2 d b (intFn2 wordImul) s
/-- The 16-bit IAND (R65). -/
def execIand16 (d b : BitVec 5) (s : State) : Out := short2 d b (intFn2 wordIand) s
/-- The 16-bit IOR (R65). -/
def execIor16 (d b : BitVec 5) (s : State) : Out := short2 d b (intFn2 wordIor) s
/-- The 16-bit IXOR (R65). -/
def execIxor16 (d b : BitVec 5) (s : State) : Out := short2 d b (intFn2 wordIxor) s
/-- The 16-bit ISHL (R65). -/
def execIshl16 (d b : BitVec 5) (s : State) : Out := short2 d b (intFn2 wordIshl) s
/-- The 16-bit ISHR (R65). -/
def execIshr16 (d b : BitVec 5) (s : State) : Out := short2 d b (intFn2 wordIshr) s
/-- The 16-bit FADD (R65). -/
def execFadd16 (d b : BitVec 5) (s : State) : Out := short2 d b (fpFn opAdd) s
/-- The 16-bit FSUB (R65). -/
def execFsub16 (d b : BitVec 5) (s : State) : Out := short2 d b (fpFn opSub) s
/-- The 16-bit FMUL (R65). -/
def execFmul16 (d b : BitVec 5) (s : State) : Out := short2 d b (fpFn opMul) s
/-- The 16-bit FMAX (R65). -/
def execFmax16 (d b : BitVec 5) (s : State) : Out := short2 d b (minMaxFn false) s
/-- The 16-bit FMIN (R65). -/
def execFmin16 (d b : BitVec 5) (s : State) : Out := short2 d b (minMaxFn true) s
/-- The 16-bit IMAX (R65). -/
def execImax16 (d b : BitVec 5) (s : State) : Out := short2 d b (intFn2 wordImax) s
/-- The 16-bit IMIN (R65). -/
def execImin16 (d b : BitVec 5) (s : State) : Out := short2 d b (intFn2 wordImin) s

/-! ### The function unit (R151, R152) -/

/-- RCP (R151, R152). -/
def execRcp (w : BitVec 2) (d a : BitVec 6) (p : BitVec 2) (s : State) : Out :=
  laneOp1 4 w d.toNat a.toNat p (fpFn (opFnu 0)) s

/-- RSQ (R151, R152). -/
def execRsq (w : BitVec 2) (d a : BitVec 6) (p : BitVec 2) (s : State) : Out :=
  laneOp1 4 w d.toNat a.toNat p (fpFn (opFnu 1)) s

/-- SQRT (R151, R152). -/
def execSqrt (w : BitVec 2) (d a : BitVec 6) (p : BitVec 2) (s : State) : Out :=
  laneOp1 4 w d.toNat a.toNat p (fpFn (opFnu 2)) s

/-- EXP2 (R151, R152). -/
def execExp2 (w : BitVec 2) (d a : BitVec 6) (p : BitVec 2) (s : State) : Out :=
  laneOp1 4 w d.toNat a.toNat p (fpFn (opFnu 3)) s

/-- LOG2 (R151, R152). -/
def execLog2 (w : BitVec 2) (d a : BitVec 6) (p : BitVec 2) (s : State) : Out :=
  laneOp1 4 w d.toNat a.toNat p (fpFn (opFnu 4)) s

/-- SIN2PI (R151, R152). -/
def execSin2pi (w : BitVec 2) (d a : BitVec 6) (p : BitVec 2) (s : State) : Out :=
  laneOp1 4 w d.toNat a.toNat p (fpFn (opFnu 5)) s

/-- COS2PI (R151, R152). -/
def execCos2pi (w : BitVec 2) (d a : BitVec 6) (p : BitVec 2) (s : State) : Out :=
  laneOp1 4 w d.toNat a.toNat p (fpFn (opFnu 6)) s

/-- TANH (R151, R152). -/
def execTanh (w : BitVec 2) (d a : BitVec 6) (p : BitVec 2) (s : State) : Out :=
  laneOp1 4 w d.toNat a.toNat p (fpFn (opFnu 7)) s

/-- FABS (R151). -/
def execFabs (w : BitVec 2) (d a : BitVec 6) (p : BitVec 2) (s : State) : Out :=
  laneOp1 4 w d.toNat a.toNat p (fpFn (opSign unsign signOf)) s

/-- FNEG (R151). -/
def execFneg (w : BitVec 2) (d a : BitVec 6) (p : BitVec 2) (s : State) : Out :=
  laneOp1 4 w d.toNat a.toNat p (fpFn (opSign fNeg (fun _ => true))) s

/-- CVTIF (R151). -/
def execCvtif (w : BitVec 2) (d a : BitVec 6) (p : BitVec 2) (s : State) : Out :=
  laneOp1 4 w d.toNat a.toNat p (fpFn (opFresh (fun a => fOfInt a.toInt))) s

/-- CVTUF (R151). -/
def execCvtuf (w : BitVec 2) (d a : BitVec 6) (p : BitVec 2) (s : State) : Out :=
  laneOp1 4 w d.toNat a.toNat p (fpFn (opFresh (fun a => fOfInt a.toNat))) s

/-- A float-to-integer conversion's word and flags (R152). -/
def cvtWord (how : Nat) (lo hi : Int) (a : Word) : Word × Nat :=
  let r := fToInt how lo hi a
  (BitVec.ofInt 32 r.1, r.2)

/-- CVTFI (R151, R152). -/
def execCvtfi (w : BitVec 2) (d a : BitVec 6) (p : BitVec 2) (s : State) : Out :=
  laneOp1 4 w d.toNat a.toNat p (intFn1 (cvtWord 0 (-(2 ^ 31)) (2 ^ 31 - 1))) s

/-- CVTFU (R151, R152). -/
def execCvtfu (w : BitVec 2) (d a : BitVec 6) (p : BitVec 2) (s : State) : Out :=
  laneOp1 4 w d.toNat a.toNat p (intFn1 (cvtWord 0 0 (2 ^ 32 - 1))) s

/-- CVTFIR (R151, R152). -/
def execCvtfir (w : BitVec 2) (d a : BitVec 6) (p : BitVec 2) (s : State) : Out :=
  laneOp1 4 w d.toNat a.toNat p (intFn1 (cvtWord 1 (-(2 ^ 31)) (2 ^ 31 - 1))) s

/-- FRINT (R151, R152). -/
def execFrint (w : BitVec 2) (d a : BitVec 6) (p : BitVec 2) (s : State) : Out :=
  laneOp1 4 w d.toNat a.toNat p (fpFn (opFresh (fIntegral 1))) s

/-- FFLOOR (R151, R152). -/
def execFfloor (w : BitVec 2) (d a : BitVec 6) (p : BitVec 2) (s : State) : Out :=
  laneOp1 4 w d.toNat a.toNat p (fpFn (opFresh (fIntegral 2))) s

/-- FTRUNC (R151, R152). -/
def execFtrunc (w : BitVec 2) (d a : BitVec 6) (p : BitVec 2) (s : State) : Out :=
  laneOp1 4 w d.toNat a.toNat p (fpFn (opFresh (fIntegral 0))) s

/-- CLZ (R151). -/
def execClz (w : BitVec 2) (d a : BitVec 6) (p : BitVec 2) (s : State) : Out :=
  laneOp1 4 w d.toNat a.toNat p (intFn1 (fun a => (BitVec.ofNat 32 (clz32 a), 0))) s

/-- POPC (R151). -/
def execPopc (w : BitVec 2) (d a : BitVec 6) (p : BitVec 2) (s : State) : Out :=
  laneOp1 4 w d.toNat a.toNat p (intFn1 (fun a => (BitVec.ofNat 32 (popc32 a), 0))) s

/-- BREV (R151). -/
def execBrev (w : BitVec 2) (d a : BitVec 6) (p : BitVec 2) (s : State) : Out :=
  laneOp1 4 w d.toNat a.toNat p (intFn1 (fun a => (brev32 a, 0))) s

/-! ### Team reductions and scans (R154, R155) -/

/-- A combination of two operands with the FLAGS bits it sets. -/
abbrev Comb := DWord → DWord → DWord × Nat

/-- Positions combined in tree order, one level (R155): an empty position passes the other on. -/
def treeLevel (c : Comb) : List (Option DWord) → List (Option DWord) × Nat
  | [] => ([], 0)
  | [x] => ([x], 0)
  | x :: y :: l =>
    let (r, fl) := treeLevel c l
    match x, y with
    | none, y => (y :: r, fl)
    | x, none => (x :: r, fl)
    | some x, some y => let z := c x y; (some z.1 :: r, fl ||| z.2)

/-- Levels until one position remains (the first argument bounds them). -/
def treeAll (c : Comb) : Nat → List (Option DWord) → Option DWord × Nat
  | 0, l => (l.headD none, 0)
  | n + 1, l => match l with
    | [] => (none, 0)
    | [x] => (x, 0)
    | l => let (l', fl) := treeLevel c l
           let (r, fl') := treeAll c n l'
           (r, fl ||| fl')

/-- The running values of a scan in ascending lane order, each with its lane; `excl` gives each lane the value before its own,
the first `zero`. Every later operand is added, the last one too, and sets its flags (R155). -/
def scanFrom (c : Comb) (excl : Bool) (zero : DWord) : Option DWord → List (Nat × DWord) → List (Nat × DWord) × Nat
  | _, [] => ([], 0)
  | run, (l, x) :: rest =>
    let here : DWord := run.getD zero
    match run with
    | none =>
      let (r, fl) := scanFrom c excl zero (some x) rest
      ((l, if excl then here else x) :: r, fl)
    | some v =>
      let z := c v x
      let (r, fl) := scanFrom c excl zero (some z.1) rest
      ((l, if excl then here else z.1) :: r, fl ||| z.2)

/-- An integer combination: mean words alone (R140). -/
def combInt (op : Word → Word → Word) : Comb := fun a b => (reg (op (meanOf a) (meanOf b)) 0, 0)
/-- An FP combination, as its own instruction in the clause's mode (R155). -/
def combFp (mode : Nat) (acct : Bool) (fn : LaneFn) : Comb := fun a b =>
  let r := fn mode acct [[a], [b], [0]]
  (r.1.headD 0, r.2)

/-- XRED (R154): a is read in every pass and d written after the last. Integer operands lose their spread words, and so do
all in PLAIN. -/
def xred (d a : BitVec 6) (p : BitVec 2) (keep : Bool) (comb : Nat → Bool → Comb) (scan : Option Bool) (s : State) : Out :=
  allPasses 4 (fun s _ f t =>
    match checkRegs s f t 0 (plainOrMom f.mode) [(d.toNat, 1), (a.toNat, 1)] with
    | .error e => .error e
    | .ok () =>
      let c := comb f.mode f.acct
      let val (l : Nat) : DWord :=
        let v := dGet t (srcLane t p.toNat l) a.toNat
        if keep && f.mode == 1 then v else reg (meanOf v) 0
      let lanes := (upFrom 0 t.lanes).filter (laneOn f.mask)
      let (ws, fl) : List (Nat × DWord) × Nat := match scan with
        | some excl => scanFrom c excl 0 none (lanes.map (fun l => (l, val l)))
        | none =>
          let r := treeAll c 11 ((upFrom 0 t.lanes).map (fun l => if laneOn f.mask l then some (val l) else none))
          (lanes.map (fun l => (l, r.1.getD 0)), r.2)
      .ok (setFlags f.team fl (writeLanes f.team (ws.map (fun x => (x.1, d.toNat, x.2))) s))) s

/-- XRED.IADD (R154, R155). -/
def execXredIadd (d a : BitVec 6) (p : BitVec 2) (s : State) : Out :=
  xred d a p false (fun _ _ => combInt (fun a b => a + b)) none s
/-- XRED.IMIN (R154, R155). -/
def execXredImin (d a : BitVec 6) (p : BitVec 2) (s : State) : Out :=
  xred d a p false (fun _ _ => combInt (fun a b => wordImin a b 0)) none s
/-- XRED.IMAX (R154, R155). -/
def execXredImax (d a : BitVec 6) (p : BitVec 2) (s : State) : Out :=
  xred d a p false (fun _ _ => combInt (fun a b => wordImax a b 0)) none s
/-- XRED.UMIN (R154, R155). -/
def execXredUmin (d a : BitVec 6) (p : BitVec 2) (s : State) : Out :=
  xred d a p false (fun _ _ => combInt (fun a b => wordUmin a b 0)) none s
/-- XRED.UMAX (R154, R155). -/
def execXredUmax (d a : BitVec 6) (p : BitVec 2) (s : State) : Out :=
  xred d a p false (fun _ _ => combInt (fun a b => wordUmax a b 0)) none s
/-- XRED.IAND (R154, R155). -/
def execXredIand (d a : BitVec 6) (p : BitVec 2) (s : State) : Out :=
  xred d a p false (fun _ _ => combInt (fun a b => a &&& b)) none s
/-- XRED.IOR (R154, R155). -/
def execXredIor (d a : BitVec 6) (p : BitVec 2) (s : State) : Out :=
  xred d a p false (fun _ _ => combInt (fun a b => a ||| b)) none s
/-- XRED.IXOR (R154, R155). -/
def execXredIxor (d a : BitVec 6) (p : BitVec 2) (s : State) : Out :=
  xred d a p false (fun _ _ => combInt (fun a b => a ^^^ b)) none s
/-- XRED.FADD (R154, R155). -/
def execXredFadd (d a : BitVec 6) (p : BitVec 2) (s : State) : Out :=
  xred d a p true (fun m k => combFp m k (fpFn opAdd)) none s
/-- XRED.FMIN (R154, R155). -/
def execXredFmin (d a : BitVec 6) (p : BitVec 2) (s : State) : Out :=
  xred d a p true (fun m k => combFp m k (minMaxFn true)) none s
/-- XRED.FMAX (R154, R155). -/
def execXredFmax (d a : BitVec 6) (p : BitVec 2) (s : State) : Out :=
  xred d a p true (fun m k => combFp m k (minMaxFn false)) none s
/-- XRED.ISCAN (R154, R155). -/
def execXredIscan (d a : BitVec 6) (p : BitVec 2) (s : State) : Out :=
  xred d a p false (fun _ _ => combInt (fun a b => a + b)) (some false) s
/-- XRED.ISCANX (R154, R155). -/
def execXredIscanx (d a : BitVec 6) (p : BitVec 2) (s : State) : Out :=
  xred d a p false (fun _ _ => combInt (fun a b => a + b)) (some true) s
/-- XRED.FSCAN (R154, R155). -/
def execXredFscan (d a : BitVec 6) (p : BitVec 2) (s : State) : Out :=
  xred d a p true (fun m k => combFp m k (fpFn opAdd)) (some false) s
/-- XRED.FSCANX (R154, R155). -/
def execXredFscanx (d a : BitVec 6) (p : BitVec 2) (s : State) : Out :=
  xred d a p true (fun m k => combFp m k (fpFn opAdd)) (some true) s

/-! ### Lane identity (R156, R157) -/

/-- LANE.INDEX (R156). -/
def execLaneIndex (d : BitVec 6) (s : State) : Out := oneReg 4 d.toNat [] (fun _ _ _ l => dw l) s
/-- LANE.DIE (R156). -/
def execLaneDie (d : BitVec 6) (s : State) : Out := oneReg 4 d.toNat [] (fun _ _ t _ => dw (dieOf t.gcore)) s
/-- LANE.GCORE (R156). -/
def execLaneGcore (d : BitVec 6) (s : State) : Out := oneReg 4 d.toNat [] (fun _ _ t _ => dw t.gcore) s

/-- The home slice of a device physical address (R27). -/
def homeSlice (pa : Nat) : Nat :=
  (pa / 2 ^ 8 % 64) ^^^ (pa / 2 ^ 14 % 64) ^^^ (pa / 2 ^ 20 % 64) ^^^ (pa / 2 ^ 26 % 64) ^^^ (pa / 2 ^ 32 % 64) ^^^ (pa / 2 ^ 38 % 2)

/-- The die that a leaf's HOME takes a frame from (R26). -/
def homeDie (e : DWord) (large : Bool) (va : Nat) : Nat :=
  match bitsOf e 8 7 with
  | 2 => if large then va / 2 ^ 21 % 2 else va / 2 ^ 16 % 2
  | k => k % 2

/-- LANE.HOME's word for a global address (R157), or the trap a load of one byte would raise. -/
def homeOf (t : Team) (ctx va : Nat) (haddr : DWord) (lane : Nat) (s : State) : Res Nat :=
  let large := match amGet ctx s.ctxs with | some c => (walk s c.root va).large | none => false
  match translate ctx t.gcore va needLoad s with
  | (.page pa _, s) => .ok (s, if 2 ^ 40 ≤ pa then 2 ^ 31 else homeSlice pa + (pa / 2 ^ 39 % 2) * 2 ^ 8)
  | (.denied world, s) => .error (s, .trap 0x11 haddr (accessInfo 0 false false world lane))
  | (.noexec, s) => .error (s, .trap 0x11 haddr (accessInfo 0 false false false lane))
  | (.malformed, s) => .error (s, .trap 0x12 haddr 6)
  | (.loggable e, s) => .ok (s, 2 ^ 29 + homeDie e false va * 2 ^ 8)
  | (.touch e, s) => .ok (s, 2 ^ 28 + homeDie e false va * 2 ^ 8)
  | (.host e _, s) => .ok (s, 2 ^ 28 + (if entryType e = 0 then 0 else homeDie e large va * 2 ^ 8))

/-- LANE.HOME of one address: checks 1 and 2 of R189, then `homeOf`. -/
def homeLane (t : Team) (lane : Nat) (a : DWord) (s : State) : Res Nat :=
  match checkSpan a.toNat 1, unitOf s t with
  | some c, _ => .error (s, .trap c a (dw lane))
  | none, none => .error (s, .stall)
  | none, some u =>
    if aperture a.toNat = 1 then
      match scratchSpot u a.toNat 1 with
      | none => .error (s, .trap 0x0B a (dw lane))
      | some _ => .ok (s, 2 ^ 30 + dieOf t.gcore * 2 ^ 8)
    else if aperture a.toNat = 2 then
      match stackSpot t u.lstk lane a.toNat 1 true with
      | none => .error (s, .trap 0x0C a (dw lane))
      | some g => homeOf t u.ctx g a lane s
    else homeOf t u.ctx a.toNat a lane s

/-- LANE.HOME of the lanes of a pass, in ascending order. -/
def homeLanes (t : Team) (p a : Nat) : List Nat → State → Res (List (Nat × Nat))
  | [], s => .ok (s, [])
  | l :: ls, s =>
    andThen (homeLane t l (dGet t (srcLane t p l) a) s) fun s h =>
    andThen (homeLanes t p a ls s) fun s rest => .ok (s, (l, h) :: rest)

/-- LANE.HOME (R156, R157). -/
def execLaneHome (d a : BitVec 6) (p : BitVec 2) (s : State) : Out :=
  lanePass 4 (fun s _ f t lanes =>
    match checkRegs s f t 0 true [(d.toNat, 1), (a.toNat, 1)] with
    | .error e => .error e
    | .ok () => andOk (homeLanes t p.toNat a.toNat lanes s) fun s hs =>
        .ok (writeLanes f.team (hs.map (fun x => (x.1, d.toNat, dw x.2))) s)) s

end Sys2Proof.Machine
end

