-- ==== Sys2Proof/Machine/Sequencer.lean ====
section
/-! DEFINITION. The sequencer's instructions (R73 to R76, R110 to R123, R128, R129): clause headers, control transfer, scalar
arithmetic and memory, team state, votes and broadcasts, counters, barriers, system registers, traps and services. -/

namespace Sys2Proof.Machine

/-! ### Clause headers (R73, R76) -/

/-- The flags a header's word names in wait are all clear. -/
def headerClear (s : State) (team : Nat) (word : Word) : Bool :=
  (upFrom 0 12).all (fun i => !(word.getLsbD (8 + i) && flagSet s team i))

/-- A fragment enters the clause of the header at its PC (R76): the team's view of the k-registers is refreshed (R106). -/
def enterClause (i : Nat) (word : Word) (key : Nat) (s : State) : State :=
  match amGet i s.frags with
  | none => s
  | some f => match amGet f.team s.teams with
    | none => s
    | some t =>
      let k := match amGet t.unit s.units with | some u => u.k | none => t.kview
      modTeam f.team (fun t => { t with kview := k })
        (setFrag i { f with clause := { hdr := f.pc, word := word }, pc := f.pc + 4, xfer := none, wait := .run, key := key,
                            beyond := noAddress ((f.pc.toNat : Int) + 4), pass := 0, mid := false, arrived := false, tagging := none } s)

/-- The word of a clause header (R73). -/
def headerWord (w : BitVec 12) (a b : BitVec 4) (m : BitVec 2) (c : BitVec 1) : Word :=
  BitVec.ofNat 32 (0xFF + w.toNat * 2 ^ 8 + a.toNat * 2 ^ 20 + b.toNat * 2 ^ 24 + m.toNat * 2 ^ 28 + c.toNat * 2 ^ 30)

/-- CLAUSE (R73, R76): it takes no issue cycle; a named flag that is set, or that this tick has cleared, makes the fragment wait at the
header. -/
def execClause (w : BitVec 12) (a b : BitVec 4) (m : BitVec 2) (c : BitVec 1) (s : State) : Out :=
  onePassTo (fun s i f t =>
    let word := headerWord w a b m c
    if headerClear s f.team word && decide (clearedAt t word ≤ s.toll) then .ok (enterClause i word (max f.key (clearedAt t word)) s)
    else .error (s, .wait (.header word none))) s

/-- CLAUSE_WAIT_RELEASE (R76): the named flags have been clear since an earlier tick, and the fragment is in its clause. -/
def execClauseWaitRelease (frag : Nat) (s : State) : Out :=
  match amGet frag s.frags with
  | none => .next s
  | some f => match f.wait with
    | .header word (some n) =>
      if headerClear s f.team word && decide (n < s.toll) then .next (enterClause frag word (max s.toll f.key) s) else .next s
    | _ => .next s

/-! ### Scalar results -/

/-- A scalar register written at issue, once the matrix engine's lock on it allows (R79, R258). -/
def toScalar (f : Frag) (n : Nat) (v : DWord) (s : State) : Except (State × Stop) State :=
  let (go, s) := destGate f.team (sDest f.handler n) s
  if go then .ok (writeScalar f n v s) else .error (s, .stall)

/-- A one-pass instruction whose result is a scalar register. -/
def scalarOp (d : BitVec 5) (val : State → Frag → Team → DWord) (s : State) : Out :=
  onePass 4 (fun s _ f t => toScalar f d.toNat (val s f t) s) s

/-! ### Control transfer (R110 to R112) -/

/-- BRA (R110). -/
def execBra (o : BitVec 24) (s : State) : Out :=
  onePassTo (fun s i f t => .ok (transfer i (branchTarget f.pc o.toInt) (traceRec t 0 f.pc s))) s

/-- A conditional branch (R110). -/
def branchIf (cond : DWord → Bool) (n : BitVec 5) (o : BitVec 18) (s : State) : Out :=
  onePassTo (fun s i f t =>
    if cond (sGet t f.handler n.toNat) then .ok (transfer i (branchTarget f.pc o.toInt) (traceRec t 0 f.pc s))
    else .ok (advance i 4 s)) s

/-- BRZ (R110). -/
def execBrz (n : BitVec 5) (o : BitVec 18) (s : State) : Out := branchIf (fun v => v == 0) n o s
/-- BRNZ (R110). -/
def execBrnz (n : BitVec 5) (o : BitVec 18) (s : State) : Out := branchIf (fun v => v != 0) n o s

/-- CALL (R111): the target is read before the link is written. -/
def execCall (d a : BitVec 5) (s : State) : Out :=
  onePassTo (fun s i f t =>
    match toScalar f d.toNat (f.pc + 4) s with
    | .error e => .error e
    | .ok s => .ok (transfer i (sGet t f.handler a.toNat).toNat (traceRec t 2 f.pc s))) s

/-- RET (R111). -/
def execRet (a : BitVec 5) (s : State) : Out :=
  onePassTo (fun s i f t => .ok (transfer i (sGet t f.handler a.toNat).toNat (traceRec t 3 f.pc s))) s

/-- JMPR (R111). -/
def execJmpr (a : BitVec 5) (s : State) : Out :=
  onePassTo (fun s i f t => .ok (transfer i (sGet t f.handler a.toNat).toNat (traceRec t 4 f.pc s))) s

/-- YIELD (R112): the key is the tick after it, as after every instruction (R101). -/
def execYield (s : State) : Out := onePass 4 (fun s _ _ _ => .ok s) s

/-- NOP (R112). -/
def execNop (s : State) : Out := onePass 4 (fun s _ _ _ => .ok s) s

/-! ### Scalar arithmetic (R113) -/

/-- 1 or 0. -/
def d01 (b : Bool) : DWord := dw (b2n b)

/-- A SALU operation. -/
def salu (op : DWord → DWord → DWord) (d a b : BitVec 5) (s : State) : Out :=
  scalarOp d (fun _ f t => op (sGet t f.handler a.toNat) (sGet t f.handler b.toNat)) s

/-- A SALUI operation, with its immediate already extended. -/
def salui (op : DWord → DWord → DWord) (d a : BitVec 5) (i : DWord) (s : State) : Out :=
  scalarOp d (fun _ f t => op (sGet t f.handler a.toNat) i) s


/-- The operation ADD (R113). -/
def opAdd64 (a b : DWord) : DWord := a + b

/-- The operation SUB (R113). -/
def opSub64 (a b : DWord) : DWord := a - b

/-- The operation MUL (R113). -/
def opMul64 (a b : DWord) : DWord := a * b

/-- The operation MULHU (R113). -/
def opMulhu64 (a b : DWord) : DWord := dw (a.toNat * b.toNat / 2 ^ 64)

/-- The operation AND (R113). -/
def opAnd64 (a b : DWord) : DWord := a &&& b

/-- The operation OR (R113). -/
def opOr64 (a b : DWord) : DWord := a ||| b

/-- The operation XOR (R113). -/
def opXor64 (a b : DWord) : DWord := a ^^^ b

/-- The operation SHL (R113). -/
def opShl64 (a b : DWord) : DWord := a <<< (b.toNat % 64)

/-- The operation SHR (R113). -/
def opShr64 (a b : DWord) : DWord := a >>> (b.toNat % 64)

/-- The operation SRA (R113). -/
def opSra64 (a b : DWord) : DWord := a.sshiftRight (b.toNat % 64)

/-- The operation SLT (R113). -/
def opSlt64 (a b : DWord) : DWord := d01 (a.slt b)

/-- The operation SLTU (R113). -/
def opSltu64 (a b : DWord) : DWord := d01 (a.ult b)

/-- The operation MIN (R113). -/
def opMin64 (a b : DWord) : DWord := if b.slt a then b else a

/-- The operation MAX (R113). -/
def opMax64 (a b : DWord) : DWord := if a.slt b then b else a

/-- The operation MINU (R113). -/
def opMinu64 (a b : DWord) : DWord := if b.ult a then b else a

/-- The operation MAXU (R113). -/
def opMaxu64 (a b : DWord) : DWord := if a.ult b then b else a

/-- SHOR's operation (R113): the immediate's low 10 bits. -/
def opShor64 (a b : DWord) : DWord := a <<< 10 ||| (b &&& 0x3FF)

/-- SALU.ADD (R113). -/
def execSaluAdd (d a b : BitVec 5) (s : State) : Out := salu opAdd64 d a b s
/-- SALU.SUB (R113). -/
def execSaluSub (d a b : BitVec 5) (s : State) : Out := salu opSub64 d a b s
/-- SALU.MUL (R113). -/
def execSaluMul (d a b : BitVec 5) (s : State) : Out := salu opMul64 d a b s
/-- SALU.MULHU (R113). -/
def execSaluMulhu (d a b : BitVec 5) (s : State) : Out := salu opMulhu64 d a b s
/-- SALU.AND (R113). -/
def execSaluAnd (d a b : BitVec 5) (s : State) : Out := salu opAnd64 d a b s
/-- SALU.OR (R113). -/
def execSaluOr (d a b : BitVec 5) (s : State) : Out := salu opOr64 d a b s
/-- SALU.XOR (R113). -/
def execSaluXor (d a b : BitVec 5) (s : State) : Out := salu opXor64 d a b s
/-- SALU.SHL (R113). -/
def execSaluShl (d a b : BitVec 5) (s : State) : Out := salu opShl64 d a b s
/-- SALU.SHR (R113). -/
def execSaluShr (d a b : BitVec 5) (s : State) : Out := salu opShr64 d a b s
/-- SALU.SRA (R113). -/
def execSaluSra (d a b : BitVec 5) (s : State) : Out := salu opSra64 d a b s
/-- SALU.SLT (R113). -/
def execSaluSlt (d a b : BitVec 5) (s : State) : Out := salu opSlt64 d a b s
/-- SALU.SLTU (R113). -/
def execSaluSltu (d a b : BitVec 5) (s : State) : Out := salu opSltu64 d a b s
/-- SALU.MIN (R113). -/
def execSaluMin (d a b : BitVec 5) (s : State) : Out := salu opMin64 d a b s
/-- SALU.MAX (R113). -/
def execSaluMax (d a b : BitVec 5) (s : State) : Out := salu opMax64 d a b s
/-- SALU.MINU (R113). -/
def execSaluMinu (d a b : BitVec 5) (s : State) : Out := salu opMinu64 d a b s
/-- SALU.MAXU (R113). -/
def execSaluMaxu (d a b : BitVec 5) (s : State) : Out := salu opMaxu64 d a b s
/-- SALUI.ADD (R113). -/
def execSaluiAdd (d a : BitVec 5) (i : BitVec 10) (s : State) : Out := salui opAdd64 d a (i.signExtend 64) s
/-- SALUI.AND (R113). -/
def execSaluiAnd (d a : BitVec 5) (i : BitVec 10) (s : State) : Out := salui opAnd64 d a (i.signExtend 64) s
/-- SALUI.OR (R113). -/
def execSaluiOr (d a : BitVec 5) (i : BitVec 10) (s : State) : Out := salui opOr64 d a (i.signExtend 64) s
/-- SALUI.XOR (R113). -/
def execSaluiXor (d a : BitVec 5) (i : BitVec 10) (s : State) : Out := salui opXor64 d a (i.signExtend 64) s
/-- SALUI.SLT (R113). -/
def execSaluiSlt (d a : BitVec 5) (i : BitVec 10) (s : State) : Out := salui opSlt64 d a (i.signExtend 64) s
/-- SALUI.SLTU (R113). -/
def execSaluiSltu (d a : BitVec 5) (i : BitVec 10) (s : State) : Out := salui opSltu64 d a (i.signExtend 64) s
/-- SALUI.SHOR (R113). -/
def execSaluiShor (d a : BitVec 5) (i : BitVec 10) (s : State) : Out := salui opShor64 d a (i.signExtend 64) s
/-- SALUI.SHL (R113). -/
def execSaluiShl (d a : BitVec 5) (i : BitVec 6) (s : State) : Out := salui opShl64 d a (i.setWidth 64) s
/-- SALUI.SHR (R113). -/
def execSaluiShr (d a : BitVec 5) (i : BitVec 6) (s : State) : Out := salui opShr64 d a (i.setWidth 64) s
/-- SALUI.SRA (R113). -/
def execSaluiSra (d a : BitVec 5) (i : BitVec 6) (s : State) : Out := salui opSra64 d a (i.setWidth 64) s

/-! ### Scalar binary32 (R114) -/

/-- An SFPU operation on the low words: its result with the exceptions met; overflow, invalid and division by zero set
OVF.SCALAR. -/
def sfpu (op : DWord → DWord → DWord × Nat) (d a b : BitVec 5) (s : State) : Out :=
  onePass 4 (fun s _ f t =>
    let r := op (sGet t f.handler a.toNat) (sGet t f.handler b.toNat)
    match toScalar f d.toNat r.1 s with
    | .error e => .error e
    | .ok s => .ok (if r.2 &&& (fINV + fOF + fDZ) = 0 then s else setOvf f.team 8 s)) s

/-- A binary32 operation on the low words. -/
def lowWords (op : Word → Word → FRes) (a b : DWord) : DWord × Nat :=
  let r := op (a.setWidth 32) (b.setWidth 32)
  (r.w.setWidth 64, r.fl)

/-- A comparison of the low words. -/
def lowTest (c : Word → Word → Bool) (a b : DWord) : DWord × Nat := (d01 (c (a.setWidth 32) (b.setWidth 32)), 0)

/-- SFPU.ADD (R114). -/
def execSfpuAdd (d a b : BitVec 5) (s : State) : Out := sfpu (lowWords fAdd) d a b s
/-- SFPU.SUB (R114). -/
def execSfpuSub (d a b : BitVec 5) (s : State) : Out := sfpu (lowWords fSub) d a b s
/-- SFPU.MUL (R114). -/
def execSfpuMul (d a b : BitVec 5) (s : State) : Out := sfpu (lowWords fMul) d a b s
/-- SFPU.DIV (R114). -/
def execSfpuDiv (d a b : BitVec 5) (s : State) : Out := sfpu (lowWords fDiv) d a b s
/-- SFPU.MIN (R114): of one NaN operand, the other operand, as the table's reference to FMIN has it (R147); R114's text gives the canonical
NaN to a NaN operand of any other minor, and this one is named in the table (DESIGN CHOICE, notes/assumptions/99.md). -/
def execSfpuMin (d a b : BitVec 5) (s : State) : Out := sfpu (lowWords (fun x y => ⟨fPick true x y, 0⟩)) d a b s
/-- SFPU.MAX (R114): as SFPU.MIN of one NaN operand (DESIGN CHOICE, notes/assumptions/99.md). -/
def execSfpuMax (d a b : BitVec 5) (s : State) : Out := sfpu (lowWords (fun x y => ⟨fPick false x y, 0⟩)) d a b s
/-- SFPU.SEQ (R114). -/
def execSfpuSeq (d a b : BitVec 5) (s : State) : Out := sfpu (lowTest fEq) d a b s
/-- SFPU.SLT (R114). -/
def execSfpuSlt (d a b : BitVec 5) (s : State) : Out := sfpu (lowTest fLt) d a b s
/-- SFPU.SLE (R114). -/
def execSfpuSle (d a b : BitVec 5) (s : State) : Out := sfpu (lowTest fLe) d a b s
/-- SFPU.CVTIF (R114). -/
def execSfpuCvtif (d a : BitVec 5) (s : State) : Out :=
  sfpu (fun x _ => ((fOfInt x.toInt).w.setWidth 64, 0)) d a 0 s
/-- SFPU.CVTFI (R114). -/
def execSfpuCvtfi (d a : BitVec 5) (s : State) : Out :=
  sfpu (fun x _ =>
    let r := fToInt 0 (-(2 ^ 63)) (2 ^ 63 - 1) (x.setWidth 32)
    (BitVec.ofInt 64 r.1, r.2)) d a 0 s

/-! ### Scalar memory (R115) -/

/-- The access of SLD and SST: the checks of R115, in order. -/
def scalarAccess (i : Nat) (t : Team) (ea : Int) (n : Nat) (need : Need) (s : State) : Res (List (Spot × Nat)) :=
  let h : DWord := BitVec.ofInt 64 ea
  match checkSpan ea n, unitOf s t with
  | some c, _ => .error (s, .trap c h 0)
  | none, none => .error (s, .stall)
  | none, some u =>
    let a := ea.toNat
    if aperture a = 1 then
      match scratchSpot u a n with
      | none => .error (s, .trap 0x0B h 0)
      | some p => if a % n ≠ 0 then .error (s, .trap 0x0D h 0) else .ok (s, [(.at p 0, n)])
    else if aperture a = 2 then .error (s, .trap 0x0C h 0)
    else if a % n ≠ 0 then .error (s, .trap 0x0D h 0)
    else
      andThen (teamPieces i t u.ctx need h true 0 (pagePieces 33 a n) false s) fun s ps =>
      if need.w && ps.any (fun p => p.1.counter) then .error (s, .trap 0x0E h 0) else .ok (s, ps)

/-- A scalar load of n bytes, sign-extended or not, tagged by set-A. -/
def scalarLoad (n : Nat) (sx : Bool) (d a : BitVec 5) (o : BitVec 10) (s : State) : Out :=
  onePass 4 (fun s i f t =>
    let ea : Int := ((sGet t f.handler a.toNat).toNat : Int) + (n : Int) * o.toInt
    if accessHeld s f.team then .error (s, .stall)
    else
      andOk (scalarAccess i t ea n needLoad s) fun s ps =>
      .ok (watchWord 0 i f t 1 [(0, ea, n)]
        (issueRead i f t (pieceSpans ps)
          [{ dest := sDest f.handler d.toNat, form := .scalar (8 * n) sx, pas := (upFrom 0 n).map (paAt ps) }] s))) s

/-- A scalar store of the low n bytes of a register, tagged by set-A. -/
def scalarStore (n : Nat) (d a : BitVec 5) (o : BitVec 10) (s : State) : Out :=
  onePass 4 (fun s i f t =>
    let ea : Int := ((sGet t f.handler a.toNat).toNat : Int) + (n : Int) * o.toInt
    if accessHeld s f.team then .error (s, .stall)
    else
      andOk (scalarAccess i t ea n needStore s) fun s ps =>
      .ok (watchWord 0 i f t 2 [(0, ea, n)]
        (issueOp i f t f.setA .taking
          (teamWrite i f t none (placeBytes ps (natBytes n (sGet t f.handler d.toNat).toNat)) s)))) s

/-- SLD.D (R115). -/
def execSldD (d a : BitVec 5) (i : BitVec 10) (s : State) : Out := scalarLoad 8 false d a i s
/-- SLD.W (R115). -/
def execSldW (d a : BitVec 5) (i : BitVec 10) (s : State) : Out := scalarLoad 4 false d a i s
/-- SLD.WS (R115). -/
def execSldWs (d a : BitVec 5) (i : BitVec 10) (s : State) : Out := scalarLoad 4 true d a i s
/-- SST.D (R115). -/
def execSstD (d a : BitVec 5) (i : BitVec 10) (s : State) : Out := scalarStore 8 d a i s
/-- SST.W (R115). -/
def execSstW (d a : BitVec 5) (i : BitVec 10) (s : State) : Out := scalarStore 4 d a i s

/-! ### Team registers (R116 to R118) -/

/-- TSR.SET (R116): it waits for the matrix engine's lock. All 64 bits are kept: a matrix operation traps on a res0 bit that is set
(R254, R260). -/
def execTsrSet (n : BitVec 3) (a : BitVec 5) (s : State) : Out :=
  onePass 4 (fun s _ f t =>
    let (go, s) := lockGate f.team (fun l => l.1 == n.toNat) s
    if go then .ok (modTeam f.team (fun u => { u with ts := smPut 0 n.toNat (sGet t f.handler a.toNat) u.ts }) s)
    else .error (s, .stall)) s

/-- TSR.GET (R116): the res0 bits [63:52] read zero (R5, R254). -/
def execTsrGet (d : BitVec 5) (n : BitVec 3) (s : State) : Out := scalarOp d (fun _ _ t => dw (bitsOf (smGet 0 n.toNat t.ts) 51 0)) s

/-- TSR.LSW (R116). -/
def execTsrLsw (a : BitVec 5) (s : State) : Out :=
  onePass 4 (fun s _ f t => .ok (modTeam f.team (fun u => { u with lscale := (sGet t f.handler a.toNat).setWidth 32 }) s)) s

/-- TSR.LSR (R116). -/
def execTsrLsr (d : BitVec 5) (s : State) : Out := scalarOp d (fun _ _ t => t.lscale.setWidth 64) s

/-- TSR.OVR (R116). -/
def execTsrOvr (d : BitVec 5) (s : State) : Out := scalarOp d (fun _ _ t => t.ovf) s

/-- TSR.OVC (R116): the old value is returned and the named bits are cleared, indivisibly. -/
def execTsrOvc (d a : BitVec 5) (s : State) : Out :=
  onePass 4 (fun s _ f t =>
    match toScalar f d.toNat t.ovf s with
    | .error e => .error e
    | .ok s => .ok (modTeam f.team (fun u => { u with ovf := u.ovf &&& ~~~(sGet t f.handler a.toNat) }) s)) s

/-- TSR.FLR (R116). -/
def execTsrFlr (d : BitVec 5) (s : State) : Out := scalarOp d (fun _ _ t => t.flags) s

/-- TSR.FLC (R116). -/
def execTsrFlc (d a : BitVec 5) (s : State) : Out :=
  onePass 4 (fun s _ f t =>
    match toScalar f d.toNat t.flags s with
    | .error e => .error e
    | .ok s => .ok (modTeam f.team (fun u => { u with flags := u.flags &&& ~~~(sGet t f.handler a.toNat) }) s)) s

/-- XPS (R117). -/
def execXps (c : BitVec 5) (n : BitVec 5) (k : BitVec 2) (s : State) : Out :=
  onePass 4 (fun s _ f _ =>
    let p : Pattern := ⟨k, n⟩
    .ok (modTeam f.team (fun u => match c.toNat with
      | 1 => { u with x1 := p }
      | 2 => { u with x2 := p }
      | _ => { u with x3 := p }) s)) s

/-- KREG.RD (R118): the team's view. -/
def execKregRd (d : BitVec 5) (n : BitVec 4) (s : State) : Out := scalarOp d (fun _ _ t => smGet 0 n.toNat t.kview) s

/-- A k-register written: the unit's register, and the writing team's view at once (R106). -/
def putK (f : Frag) (t : Team) (n : Nat) (v : DWord) (s : State) : State :=
  modTeam f.team (fun u => { u with kview := smPut 0 n v u.kview })
    (modUnit t.unit (fun u => { u with k := smPut 0 n v u.k, kLast := (s.toll, t.idx) }) s)

/-- KREG.WR (R118). -/
def execKregWr (n : BitVec 4) (a : BitVec 5) (s : State) : Out :=
  onePass 4 (fun s _ f t => .ok (putK f t n.toNat (sGet t f.handler a.toNat) s)) s

/-- KREG.ADD (R118): the current value is returned, and the sum kept, indivisibly. -/
def execKregAdd (d : BitVec 5) (n : BitVec 4) (b : BitVec 5) (s : State) : Out :=
  onePass 4 (fun s _ f t =>
    let v := match amGet t.unit s.units with | some u => smGet 0 n.toNat u.k | none => 0
    match toScalar f d.toNat v s with
    | .error e => .error e
    | .ok s => .ok (putK f t n.toNat (v + sGet t f.handler b.toNat) s)) s

/-! ### System registers (R108, R109, R119, R130) -/

/-- The team number n of a unit, with its key. -/
def teamAt (s : State) (u : UnitSt) (n : Nat) : Option (Nat × Team) :=
  match u.teams[n]? with
  | none => none
  | some k => match amGet k s.teams with
    | none => none
    | some t => some (k, t)

/-- The codes of HCTL.STATE that describe a team (R130); where several do, the spec does not say which is read. -/
def teamStates (s : State) : Option (Nat × Team) → List Nat
  | none => [5]
  | some (k, t) =>
    if t.exited then [4]
    else
      let on := (if t.stop then [1] else []) ++ (if t.frame.isSome then [2] else []) ++
        (if s.frags.any (fun e => e.2.team == k && (pendingTick e.2).isSome) then [3] else [])
      if on.isEmpty then [0] else on

/-- HCTL as the team reads it for team HSEL (R130). -/
def readHctl (s : State) (u : UnitSt) (t : Team) : DWord × State :=
  let sel := teamAt s u t.hsel
  let states := teamStates s sel
  let (k, s) := choose states.length s
  (dw ((match sel with | some (_, x) => b2n x.stop | none => 0) + 2 * nth 0 states k), s)

/-- IDPART (R29). -/
def idPart : DWord := dw (0x9100 + Config.stepping.toNat * 2 ^ 16 + 2 ^ 20 + 0x0D2F * 2 ^ 24 + 2 * 2 ^ 40)

/-- IDCORE of a global core (R30). -/
def idCore (g : Nat) : DWord := dw (g % 4 + g / 4 % 4 * 2 ^ 2 + g / 16 % 48 * 2 ^ 4 + dieOf g * 2 ^ 10 + g * 2 ^ 11)

/-- TEAMID (R109). -/
def teamId (u : UnitSt) (t : Team) : DWord :=
  dw (t.idx + (u.teams.length - 1) * 2 ^ 4 + t.lanes * 2 ^ 8 + t.gcore % 16 * 2 ^ 19 + t.tslot * 2 ^ 23 + t.regs * 2 ^ 27)

/-- Three 16-bit extents (R108). -/
def gridWord (x y z : Nat) : DWord := dw (x + y * 2 ^ 16 + z * 2 ^ 32)

/-- The governor of a cluster. -/
def govOf (s : State) (c : Nat) : Gov := (amGet c s.gov).getD Gov.idle

/-- The cluster's governor with a window that the toll has left behind restarted (R275). -/
def govNow (s : State) (c : Nat) : Gov :=
  let g := govOf s c
  if g.window = s.toll / 1024 then g else { g with window := s.toll / 1024, used := 0 }

/-- GOVSTAT (R276). -/
def govStat (s : State) (c : Nat) : DWord :=
  let g := govNow s c
  dw (min g.budget 0xFFFF + min g.used 0xFFFF * 2 ^ 16 + min g.stalls (2 ^ 32 - 1) * 2 ^ 32)

/-- A system register that any fragment may read (R108), none for a number that is reserved or a handler's. -/
def sysAny (s : State) (u : UnitSt) (t : Team) : Nat → Option DWord
  | 0 => some idPart
  | 1 => some (idCore t.gcore)
  | 2 => some (dw s.toll)
  | 3 => some (teamId u t)
  | 4 => some (gridWord u.x u.y u.z)
  | 5 => some (gridWord u.gridX u.gridY u.gridZ)
  | 6 => some u.args
  | 7 => some t.tsb
  | 8 => some (dw u.lstk)
  | 9 => some t.ksb
  | 10 => some t.ksz
  | 11 => some (govStat s (clusterOf t.gcore))
  | 12 => some (dw (u.ctx + b2n (debuggable s t) * 2 ^ 16))
  | 13 => some u.she
  | 14 => some (dw t.ksp)
  | _ => none

/-- A system register of handler mode (R108): its value, and the state after reading it. -/
def sysHandler (s : State) (u : UnitSt) (t : Team) : Nat → Option (DWord × State)
  | 16 => some (t.hcause, s)
  | 17 => some (t.haddr, s)
  | 18 => some (t.hpc, s)
  | 19 => some (t.hinfo, s)
  | 20 => some (dw t.hsel, s)
  | 21 => some (readHctl s u t)
  | 22 => some (t.hdpc, s)
  | _ => none

/-- PRIVILEGED with the instruction word (R125). -/
def privileged (s : State) (f : Frag) : State × Stop := (s, .trap 0x05 0 (dw f.iword.toNat))

/-- SYS.RD (R119). -/
def execSysRd (d n : BitVec 5) (s : State) : Out :=
  onePass 4 (fun s _ f t =>
    match amGet t.unit s.units with
    | none => .error (s, .stall)
    | some u => match sysAny s u t n.toNat with
      | some v => toScalar f d.toNat v s
      | none =>
        if n.toNat < 16 ∨ 22 < n.toNat then .error (illegal s f)
        else if !f.handler then .error (privileged s f)
        else match sysHandler s u t n.toNat with
          | none => .error (illegal s f)
          | some (v, s) => toScalar f d.toNat v s) s

/-- SYS.WR (R119): handler only; HPC, HSEL and HCTL are the RW registers (R108). Of a write outside a handler to a read-only register,
R119 names two traps: ILLEGAL-INSTRUCTION is raised for the registers that any team may read, and PRIVILEGED for those of a handler
(DESIGN CHOICE, notes/assumptions/89.md). -/
def execSysWr (n a : BitVec 5) (s : State) : Out :=
  onePass 4 (fun s _ f t =>
    let v := sGet t f.handler a.toNat
    if n.toNat ≠ 18 ∧ n.toNat ≠ 20 ∧ n.toNat ≠ 21 then
      (if (16 ≤ n.toNat ∧ n.toNat ≤ 22) ∧ f.handler = false then .error (privileged s f) else .error (illegal s f))
    else if !f.handler then .error (privileged s f)
    else if n.toNat = 18 then .ok (modTeam f.team (fun t => { t with hpc := v }) s)
    else if n.toNat = 20 then .ok (modTeam f.team (fun t => { t with hsel := v.toNat % 16 }) s)
    else match amGet t.unit s.units with
      | none => .error (s, .stall)
      | some u => match teamAt s u t.hsel with
        | none => .ok s
        | some (k, x) =>
          if x.exited || (v.getLsbD 0 && k == f.team) then .ok s
          else .ok (modTeam k (fun t => { t with stop := v.getLsbD 0 }) s)) s

/-- Team HSEL, while SYS.HRD and SYS.HWR act on it (R119). -/
def selected (s : State) (t : Team) : Option (Nat × Team) :=
  match amGet t.unit s.units with
  | none => none
  | some u => match teamAt s u t.hsel with
    | none => none
    | some (k, x) => if x.exited then none else some (k, x)

/-- SYS.HRD (R119): a main scalar register of team HSEL, 0 for a team that has exited or is none. -/
def execSysHrd (d n : BitVec 5) (s : State) : Out :=
  onePass 4 (fun s _ f t =>
    if !f.handler then .error (privileged s f)
    else toScalar f d.toNat (match selected s t with | some (_, x) => sGet x false n.toNat | none => 0) s) s

/-- SYS.HWR (R119). -/
def execSysHwr (n a : BitVec 5) (s : State) : Out :=
  onePass 4 (fun s _ f t =>
    if !f.handler then .error (privileged s f)
    else match selected s t with
      | none => .ok s
      | some (k, _) =>
        let (go, s) := destGate k (.scalar n.toNat) s
        if go then .ok (writeDests k [(.scalar n.toNat, sGet t f.handler a.toNat)] s) else .error (s, .stall)) s

/-! ### Votes and broadcasts (R120, R121) -/

/-- A vote over the active lanes, whose conditions are read through the pattern slot pass by pass; the result is written with the
last pass, from the lanes that are true and the first lane's register. -/
def vote (d : BitVec 5) (a : BitVec 6) (p : BitVec 2) (val : Frag → DWord) (s : State) : Out :=
  gatherPass (fun s f t =>
    match checkRegs s f t 0 true [(a.toNat, 1)] with
    | .error e => .error e
    | .ok () =>
      let read (l : Nat) : DWord := dGet t (srcLane t p.toNat l) a.toNat
      .ok (fun l => meanOf (read l) != 0, read (lowestLane f.mask)))
    (fun s i f _ => match toScalar f d.toNat (val f) s with
      | .error e => .error e
      | .ok s => .ok (advance i 4 s)) s

/-- How many lanes a mask holds. -/
def laneCount (m : LaneMask) : Nat := ((upFrom 0 1024).filter (laneOn m)).length

/-- VOTE.ANY (R120). -/
def execVoteAny (d : BitVec 5) (a : BitVec 6) (p : BitVec 2) (s : State) : Out := vote d a p (fun f => d01 (f.taken != 0)) s
/-- VOTE.ALL (R120). -/
def execVoteAll (d : BitVec 5) (a : BitVec 6) (p : BitVec 2) (s : State) : Out := vote d a p (fun f => d01 (f.taken == f.mask)) s
/-- VOTE.COUNT (R120). -/
def execVoteCount (d : BitVec 5) (a : BitVec 6) (p : BitVec 2) (s : State) : Out := vote d a p (fun f => dw (laneCount f.taken)) s
/-- VOTE.FIRST (R120). -/
def execVoteFirst (d : BitVec 5) (a : BitVec 6) (p : BitVec 2) (s : State) : Out := vote d a p (fun f => f.latch) s
/-- VOTE.BALLOT (R120). -/
def execVoteBallot (d : BitVec 5) (a : BitVec 6) (p : BitVec 2) (k : BitVec 4) (s : State) : Out :=
  vote d a p (fun f => dw (f.taken.toNat / 2 ^ (64 * k.toNat) % 2 ^ 64)) s

/-- SBCAST (R121): the scalar is read when the first pass issues (R79). -/
def sbcast (val : DWord → DWord) (d : BitVec 6) (n : BitVec 5) (s : State) : Out :=
  lanePass 4 (fun s i f t lanes =>
    match checkRegs s f t 0 true [(d.toNat, 1)] with
    | .error e => .error e
    | .ok () =>
      let v := if firstPass f then sGet t f.handler n.toNat else f.latch
      .ok (writeLanes f.team (lanes.map (fun l => (l, d.toNat, val v))) (modFrag i (fun f => { f with latch := v }) s))) s

/-- SBCAST.D (R121). -/
def execSbcastD (d : BitVec 6) (n : BitVec 5) (s : State) : Out := sbcast id d n s
/-- SBCAST.M (R121). -/
def execSbcastM (d : BitVec 6) (n : BitVec 5) (s : State) : Out := sbcast (fun v => reg (meanOf v) 0) d n s

/-! ### Counters (R15, R44, R45, R122) -/

/-- The checks of R122 on a counter operation, in order: the counter's physical address. -/
def counterAccess (i : Nat) (t : Team) (va : DWord) (need : Need) (s : State) : Res Nat :=
  match checkSpan va.toNat 8, amGet t.unit s.units with
  | some c, _ => .error (s, .trap c va 0)
  | none, none => .error (s, .stall)
  | none, some u =>
    if aperture va.toNat ≠ 0 then .error (s, .trap 0x0E va 0)
    else if va.toNat % 8 ≠ 0 then .error (s, .trap 0x0D va 0)
    else
      andThen (teamPage i t u.ctx va.toNat need va true false 0 s) fun s sp =>
      match sp with
      | .at pa e => if entryBit e 9 then .ok (s, pa) else .error (s, .trap 0x0E va 0)
      | .log _ _ => .error (s, .trap 0x0E va 0)

/-- CTR.ADD (R122): the checks, then the add is on its way; issue goes on. -/
def execCtrAdd (a b c i : BitVec 5) (s : State) : Out :=
  onePass 4 (fun s n f t =>
    let va := sGet t f.handler a.toNat
    if accessHeld s f.team then .error (s, .stall)
    else
      andOk (counterAccess n t va needCtrAdd s) fun s pa =>
      let op := s.seq
      -- what the team has written and read so far is what its release orders (R44, R47)
      let s := issueOp n f t f.setB (.ctrAdd va pa (sGet t f.handler b.toNat) i.toNat (sDest f.handler c.toNat) f.pc f.mask f.handler)
        (markRelease op [f.team, agentAdds f.team, agentMatrix f.team] s)
      .ok (if i.toNat = 5 then startPending f.team op s else s)) s

/-- CTR.WAIT (R122): the fragment waits until the counter reaches the threshold. -/
def execCtrWait (a b c i : BitVec 5) (s : State) : Out :=
  onePassTo (fun s n f t =>
    if accessHeld s f.team then .error (s, .stall)
    else
      let va := sGet t f.handler a.toNat
      andOk (counterAccess n t va needLoad s) fun s pa =>
      let op := s.seq
      let s := issueOp n f t f.setB (.ctrWait va pa (sGet t f.handler b.toNat) i.toNat (sDest f.handler c.toNat)) s
      .ok (beginWait n (.ctr op) s)) s

/-- CTR.LOAD (R122): issue goes on; the team's later accesses are held until the load returns. -/
def execCtrLoad (a c i : BitVec 5) (s : State) : Out :=
  onePass 4 (fun s n f t =>
    if accessHeld s f.team then .error (s, .stall)
    else
      andOk (counterAccess n t (sGet t f.handler a.toNat) needLoad s) fun s pa =>
      .ok (issueOp n f t f.setB (.ctrLoad pa i.toNat (sDest f.handler c.toNat)) s)) s

/-- Where the deferred trap of a CTR.ADD that a fragment with a mask issued can be raised (R122): 0 nowhere yet, 1 on a fragment that
holds one of its lanes, 2 in the trap frame, 3 that every one of the lanes has exited. Of an add that a handler fragment issued which has
ended by RTE before the result is known, it is 3 as well: the unit stops, as for any trap of a handler (R127; R122 does not say; DESIGN
CHOICE, notes/assumptions/49.md). -/
def overflowPlace (s : State) (o : Op) (mask : LaneMask) (handler : Bool) : Nat :=
  if s.frags.any (fun e => e.2.team == o.team && e.2.handler == handler && (e.2.mask &&& mask) != 0) then 1
  else match amGet o.team s.teams with
    | none => 3
    | some t =>
      if (match t.frame with | some fr => !handler && (fr.saved.mask &&& mask) != 0 | none => false) then 2
      else if handler || (mask &&& ~~~t.left) == 0 then 3 else 0

/-- The deferred COUNTER-OVERFLOW of a CTR.ADD at `pc` that a fragment with a mask issued (R122): it goes to the fragment that
now holds the lowest of those lanes, live or saved in the trap frame, once there is one: lanes that wait in a serial entry come
back. With every lane exited, or from a handler, it stops the unit. -/
def overflowTrap (n : Nat) (o : Op) (va amount pc : DWord) (mask : LaneMask) (handler : Bool) (s : State) : State :=
  let r : TrapRec :=
    { hcause := causeWord 0x18 0 false false true, haddr := va, hpc := 0, hinfo := amount, hdpc := pc, tick := s.toll }
  let mine := s.frags.filter (fun e => e.2.team == o.team && e.2.handler == handler && (e.2.mask &&& mask) != 0)
  match overflowPlace s o mask handler with
  | 1 => (match minBy (fun e => lowestLane (e.2.mask &&& mask)) mine with
    | some (i, _) => raiseDeferred i r (endOp n s)
    | none => s)
  | 2 => modTeam o.team (fun t => { t with
      frame := t.frame.map (fun fr => { fr with saved := { fr.saved with deferred := fr.saved.deferred ++ [r] } }) }) (endOp n s)
  | 3 => stopUnit o.unit (recordError o.ctx o.gcore (match amGet o.team s.teams with | some t => t.idx | none => 0) r (endOp n s))
  | _ => s

/-- The send ring whose doorbell counter lies at va in a context, of a port page that has it (R380, R381). -/
def doorbellRing (s : State) (ctx : Nat) (va : DWord) : Option (Nat × Ring) :=
  s.rings.find? (fun r => decide (ringCtx s r.1 = ctx) && ringReg s r.1 16 == va)

/-- An add of an amount to a doorbell that then holds n exposes descriptors that the port has not taken (R387). -/
def exposes (r : Ring) (amount n : Nat) : Bool := decide (amount ≠ 0) && decide (r.taken < n)

/-- CTR_ADD_RESULT (R15, R44, R122): once every earlier access is performed at its scope, the add takes its place in the
counter's order; an overflow leaves counter and register as they are and is a deferred trap. An add to a doorbell keeps the
unit's work outstanding until its descriptors are taken (R387). -/
def execCtrAddResult (op : Nat) (s : State) : Out :=
  match amGet op s.ops with
  | none => .next s
  | some o => match o.body with
    | .ctrAdd va pa amount scope dest pc mask handler =>
      if !performedBefore s o.team op scope then .next s
      else
        match teamAdd op o.team (.core o.gcore) scope pa amount.toNat s with
        | ((_, false), s) =>
          let s : State := { s with ops := amMod op (fun o => { o with tag := none, body := .overflow va amount pc mask handler }) s.ops }
          .next (overflowTrap op o va amount pc mask handler s)
        | ((old, true), s) =>
          let s := setBody op (.results [{ dest := dest, val := dw old, live := true }]) s
          match doorbellRing s o.ctx va with
          | none => .next s
          | some (k, r) => .next (if !exposes r amount.toNat (old + amount.toNat) then s else
              { s with
                ops := amPut s.seq { o with tag := none, weight := 0, body := .doorbell k (old + amount.toNat) } s.ops
                seq := s.seq + 1 })
    | .overflow va amount pc mask handler => .next (overflowTrap op o va amount pc mask handler s)
    | _ => .next s

/-- CTR_WAIT_RETURN (R45, R122): the counter is at its threshold, and the wait of a fragment that is not in a trap frame
returns the value it observes. Each read of the counter goes through its translation as it then stands, and no wait outlives the
page: the instruction is made again where the address leads to no counter now, or to another (R299). -/
def execCtrWaitReturn (op : Nat) (s : State) : Out :=
  match amGet op s.ops with
  | none => .next s
  | some o => match o.body with
    | .ctrWait va pa threshold scope dest =>
      let (x, s) := translate o.ctx o.gcore va.toNat needLoad s
      let held := match x with | .page p e => p == pa && entryBit e 9 | _ => false
      let v := rdNat s pa 8
      if !s.frags.any (fun e => e.2.wait == .ctr op) then .next s
      else if !held then .next (endOp op { s with frags := s.frags.map (fun e =>
        if e.2.wait = .ctr op then (e.1, { e.2 with wait := .run }) else e) })
      else if v < threshold.toNat then .next s
      else
        let (go, s) := destGate o.team dest s
        if !go then .next s
        else
          let s := acquireCounter o.team (.core o.gcore) scope pa v (readNow o.team pa 8 s).2
          .next (resumeAfter (.ctr op) (endOp op
            { s with teams := amMod o.team (putDest dest (dw v)) s.teams, ops := killEarlier o.team op [dest] s.ops }))
    | _ => .next s

/-- CTR_LOAD_RESULT (R45, R122): the counter's value is returned, and the team's held accesses go on. -/
def execCtrLoadResult (op : Nat) (s : State) : Out :=
  match amGet op s.ops with
  | none => .next s
  | some o => match o.body with
    | .ctrLoad pa scope dest =>
      let (go, s) := destGate o.team dest s
      if !go then .next s
      else
        let v := rdNat s pa 8
        let s := acquireCounter o.team (.core o.gcore) scope pa v (readNow o.team pa 8 s).2
        .next (endOp op
          { s with teams := amMod o.team (putDest dest (dw v)) s.teams, ops := killEarlier o.team op [dest] s.ops })
    | _ => .next s

/-! ### Barriers (R52, R123) -/

/-- The number under which releases on barrier n of a unit are kept. -/
def barrierId (unit n : Nat) : Nat := 2 ^ 60 + unit * 16 + n

/-- BAR (R52, R123): once every earlier access is performed at CLUSTER scope, it adds 1 and waits for its target. -/
def execBar (a : BitVec 5) (n : BitVec 4) (s : State) : Out :=
  onePassTo (fun s i f t =>
    let count := (sGet t f.handler a.toNat).toNat
    match amGet t.unit s.units with
    | none => .error (s, .stall)
    | some u =>
      let v := smGet 0 n.toNat u.bar + 1
      if count = 0 then .error (s, .trap 0x19 0 (dw n.toNat))
      else if 2 ^ 64 ≤ v then .error (s, .trap 0x18 0 1)
      else if !performedBefore s f.team s.seq 2 then .error (s, .stall)
      else
        let s := release [f.team, agentAdds f.team, agentMatrix f.team]
          { agent := f.team, pos := .core t.gcore, scope := 2, full := false, all := true, counter := some (barrierId t.unit n.toNat, v) } s
        let s := modUnit t.unit (fun u => { u with bar := smPut 0 n.toNat v u.bar }) s
        .ok (beginWait i (.bar n.toNat ((v + count - 1) / count * count)) s)) s

/-- BAR_RELEASE (R52): the counter has reached the fragment's target. -/
def execBarRelease (frag : Nat) (s : State) : Out :=
  match amGet frag s.frags with
  | none => .next s
  | some f => match f.wait, amGet f.team s.teams with
    | .bar n target, some t => match amGet t.unit s.units with
      | none => .next s
      | some u =>
        if smGet 0 n u.bar < target then .next s
        else
          let s := acquireCounter f.team (.core t.gcore) 2 (barrierId t.unit n) target s
          .next (finishStop frag (modFrag frag (moveOn 4 f.key) s))
    | _, _ => .next s

/-! ### TRAP, SVC and RTE (R128, R129) -/

/-- TRAP (R128). -/
def execTrap (i : BitVec 9) (s : State) : Out :=
  onePassTo (fun s _ f _ => .error (s, .trapAt 0x20 (f.pc + 4) 0 (dw i.toNat))) s

/-- A service call (R128, R296): the arguments are taken, and the fragment waits for the MMP. -/
def svc (n : Nat) (s : State) : Out :=
  onePassTo (fun s i f t =>
    let call := s.seq
    .ok (beginWait i (.svc n (sGet t f.handler 16) (sGet t f.handler 17) call [])
      (issueOp i f t none (.service true) s))) s

/-- SVC 0, VERSION (R128, R295). -/
def execSvcVersion (s : State) : Out := svc 0 s
/-- SVC 1, POOLMAP (R128, R290). -/
def execSvcPoolmap (s : State) : Out := svc 1 s
/-- SVC 2, POOLCOUNT (R128, R295). -/
def execSvcPoolcount (s : State) : Out := svc 2 s
/-- SVC 3, PREFETCH (R128, R295). -/
def execSvcPrefetch (s : State) : Out := svc 3 s
/-- SVC n, of a number without a service (R128, R295). -/
def execSvcUnknown (n : BitVec 9) (s : State) : Out := svc n.toNat s

/-- RTE (R128, R129): handler only, with the handler's entry mask. -/
def execRte (s : State) : Out :=
  onePassTo (fun s i f t =>
    if !f.handler then .error (privileged s f)
    else match t.frame with
      | none => .error (s, .trap 0x04 0 (dw f.iword.toNat))
      | some fr =>
        if f.mask != fr.hmask then .error (s, .trap 0x04 0 (dw f.iword.toNat))
        else
          let s := spend i (traceRec t 6 f.pc s)
          let skid := match amGet i s.frags with | some h => h.skid | none => 0
          let s := returnFromTrap i f.team (delFrag i s)
          -- a STEP of RTE leaves the resumed fragment stopped (R394)
          .ok (if f.stepping.isSome || f.stopFor.isSome then freezeFrag i (s.toll + 1) (f.stopFor.getD 0) (modFrag i (fun g => { g with skid := skid }) s)
            else s)) s

end Sys2Proof.Machine
end

