-- ==== Sys2Proof/Machine/Spread.lean ====
section
/-! DEFINITION. The spread-engine instructions (R172 to R185). -/

namespace Sys2Proof.Machine

/-- √v rounded (v a variance), with the flags of the rounding; √(+infinity) is +infinity (R176). -/
def sqrtVar (v : Word) : FRes := fnu 2 v

/-- V of a LIN value: r + c² with a term, else r (R176, R178, R180). -/
def linVar (g : Lin) : FRes :=
  if g.t = 0 then ⟨g.r, 0⟩ else let q := fMul g.c g.c; let v := fAdd g.r q.w; ⟨v.w, q.fl ||| v.fl⟩

/-- A sum in tree order of values, some of whose positions are empty (R155, R166, R183). -/
def treeSum (xs : List (Option Word)) : FRes :=
  let r := treeAll (fun a b => let z := fAdd (meanOf a) (meanOf b); (reg z.w 0, z.fl)) 4 (xs.map (fun x => x.map (fun w => reg w 0)))
  ⟨meanOf (r.1.getD 0), r.2⟩

/-- One eighth. -/
def eighth : Word := 0x3E000000

/-- The mean of eight samples: RNE32(T(x) · 0.125). -/
def mean8 (xs : List Word) : FRes :=
  let t := treeSum (xs.map some)
  let m := fMul t.w eighth
  ⟨m.w, t.fl ||| m.fl⟩

/-- The flags of results, joined. -/
def flagsOf (rs : List FRes) : Nat := rs.foldl (fun m r => m ||| r.fl) 0

/-- DSET (R175). -/
def dsetFn : LaneFn := fun mode _ gs =>
  let a := meanOf ((grp gs 0).headD 0)
  let mu := if isNan a then qnan else a
  let v := intake mu (meanOf ((grp gs 1).headD 0))
  if mode = 2 then
    let g := finishLin ⟨mu, v.1, 0, 0⟩
    (packLin g.1, v.2 ||| g.2)
  else ([reg mu v.1], v.2)

/-- DSET (R175). -/
def execDset (w : BitVec 2) (d a : BitVec 6) (p : BitVec 2) (b : BitVec 6) (q : BitVec 2) (s : State) : Out :=
  laneGen 4 w (fun m => m != 3) d.toNat groupOf [⟨a.toNat, p.toNat, single⟩, ⟨b.toNat, q.toNat, single⟩] dsetFn s

/-- The variance V of R176 for a mean (as DMEAN gives it): by 7 instead of 8 for `unbiased`. -/
def varOf (mode : Nat) (unbiased : Bool) (g : List DWord) (mu : Word) : FRes :=
  match mode with
  | 0 => ⟨0, 0⟩
  | 1 => let v := intake mu (unsign (spreadOf (g.headD 0))); ⟨v.1, v.2⟩
  | 2 => linVar (linOf g)
  | _ =>
    let es := (values 3 g).map (fun x => fSub x mu)
    let qs := es.map (fun e => fMul e.w e.w)
    let t := treeSum (qs.map (fun q => some q.w))
    let v := if unbiased then fDiv t.w 0x40E00000 else fMul t.w eighth
    ⟨v.w, flagsOf es ||| flagsOf qs ||| t.fl ||| v.fl⟩

/-- DMEAN's result (R176): a NaN mean is canonical in LIN and SMP. -/
def meanFn (mode : Nat) (g : List DWord) : FRes :=
  let m : FRes := if mode = 3 then mean8 (values 3 g) else ⟨meanOf (g.headD 0), 0⟩
  if decide (2 ≤ mode) && isNan m.w then ⟨qnan, m.fl⟩ else m

/-- DVAR's or, for `root`, DSTD's result (R176). -/
def varFn (unbiased root : Bool) : LaneFn := fun mode _ gs =>
  let g := grp gs 0
  let m := meanFn mode g
  let mfl := if mode = 3 then m.fl else 0
  if decide (2 ≤ mode) && isNan m.w then ([reg qnan 0], mfl)
  else
    let v := varOf mode unbiased g m.w
    let r : FRes := if root then sqrtVar v.w else ⟨v.w, 0⟩
    ([reg r.w 0], mfl ||| v.fl ||| r.fl)

/-- A spread instruction from one group to one plain register. -/
def spreadOut (w : BitVec 2) (modes : Nat → Bool) (d a : BitVec 6) (p : BitVec 2) (fn : LaneFn) (s : State) : Out :=
  laneGen 4 w modes d.toNat single [⟨a.toNat, p.toNat, groupOf⟩] fn s

/-- SMP alone. -/
def smpOnly (m : Nat) : Bool := m == 3
/-- MOM alone. -/
def momOnly (m : Nat) : Bool := m == 1
/-- LIN alone. -/
def linOnly (m : Nat) : Bool := m == 2
/-- Group size 4, SMP's, in every mode. -/
def four (_ : Nat) : Nat := 4
/-- Group size 2, LIN's, in every mode. -/
def two (_ : Nat) : Nat := 2
/-- Every mode but PLAIN. -/
def notPlain (m : Nat) : Bool := m != 0

/-- DMEAN (R176). -/
def execDmean (w : BitVec 2) (d a : BitVec 6) (p : BitVec 2) (s : State) : Out :=
  spreadOut w anyMode d a p (fun mode _ gs => let m := meanFn mode (grp gs 0); ([reg m.w 0], m.fl)) s
/-- DVAR (R176). -/
def execDvar (w : BitVec 2) (d a : BitVec 6) (p : BitVec 2) (s : State) : Out := spreadOut w anyMode d a p (varFn false false) s
/-- DVAR.U (R176). -/
def execDvarU (w : BitVec 2) (d a : BitVec 6) (p : BitVec 2) (s : State) : Out :=
  laneGen 4 w smpOnly d.toNat single [⟨a.toNat, p.toNat, four⟩] (varFn true false) s
/-- DSTD (R176). -/
def execDstd (w : BitVec 2) (d a : BitVec 6) (p : BitVec 2) (s : State) : Out := spreadOut w anyMode d a p (varFn false true) s
/-- DSTD.U (R176). -/
def execDstdU (w : BitVec 2) (d a : BitVec 6) (p : BitVec 2) (s : State) : Out :=
  laneGen 4 w smpOnly d.toNat single [⟨a.toNat, p.toNat, four⟩] (varFn true true) s

/-- DSCALE (R177): a zero variance or residual is not multiplied. -/
def dscaleFn : LaneFn := fun mode _ gs =>
  let g := grp gs 0
  let k := meanOf ((grp gs 1).headD 0)
  let kk := (fMul k k).w
  let scale (v : Word) : Word := if v = 0 then 0 else (fMul kk v).w
  match mode with
  | 2 =>
    let x := linOf g
    let r := finishLin ⟨x.mu, scale x.r, if x.t = 0 then 0 else (fMul k x.c).w, x.t⟩
    (packLin r.1, r.2)
  | 3 =>
    let m := mean8 (values 3 g)
    let rs := (values 3 g).map (fun x =>
      let e := fSub x m.w
      let q := fMul k e.w
      let y := fAdd m.w q.w
      (⟨y.w, e.fl ||| q.fl ||| y.fl⟩ : FRes))
    (packSamples (rs.map FRes.w), m.fl ||| flagsOf rs)
  | _ =>
    let x := momOf (g.headD 0)
    let v := finishMom x.m (scale x.v)
    ([reg x.m v.1], v.2)

/-- DSCALE (R177). -/
def execDscale (w : BitVec 2) (d a : BitVec 6) (p : BitVec 2) (b : BitVec 6) (q : BitVec 2) (s : State) : Out :=
  laneGen 4 w notPlain d.toNat groupOf [⟨a.toNat, p.toNat, groupOf⟩, ⟨b.toNat, q.toNat, single⟩] dscaleFn s

/-- DTAG.NEW's result in one lane and operation, with the tag the operation received (R178). -/
def tagFn (tag : Option Nat) (g : List DWord) : List DWord × Nat :=
  let x := linOf g
  let v := (linVar x).w
  match tag with
  | some t =>
    let c := (sqrtVar v).w
    let e := (fSub v (fMul c c).w).w
    let r := finishLin ⟨x.mu, if signOf e && !isNan e then 0 else e, c, t⟩
    (packLin r.1, r.2)
  | none =>
    let r := finishLin ⟨x.mu, v, 0, 0⟩
    (packLin r.1, r.2 ||| fTAG)

/-- DTAG.NEW (R178, R179): the first pass takes the tags that every pass uses. -/
def execDtagNew (w : BitVec 2) (d a : BitVec 6) (p : BitVec 2) (s : State) : Out :=
  lanePass 4 (fun s i f t lanes =>
    match checkRegs s f t w (linOnly f.mode) [(d.toNat, 2), (a.toNat, 2)] with
    | .error e => .error e
    | .ok () =>
      let n := 2 ^ w.toNat
      let base := if firstPass f then t.tagctr else f.latch.toNat
      let s := if firstPass f then modFrag i (fun f => { f with latch := dw base })
          (modTeam f.team (fun t => { t with tagctr := min 256 (base + n) }) s) else s
      let tag (j : Nat) : Option Nat := if base + j ≤ 255 then some (base + j) else none
      let rs := lanes.flatMap (fun l => (upFrom 0 n).map (fun j =>
        let r := tagFn (tag j) (groupAt t (srcLane t p.toNat l) (a.toNat + 2 * j) 2)
        ((r.1.zip (upFrom (d.toNat + 2 * j) 2)).map (fun v => (l, v.2, v.1)), r.2)))
      .ok (setFlags f.team (rs.foldl (fun m r => m ||| r.2) 0) (writeLanes f.team (rs.flatMap Prod.fst) s))) s

/-- DTAG.READ (R178): it reads TAGCTR once, when its first pass issues. -/
def execDtagRead (d : BitVec 6) (s : State) : Out :=
  lanePass 4 (fun s i f t lanes =>
    match checkRegs s f t 0 true [(d.toNat, 1)] with
    | .error e => .error e
    | .ok () =>
      let v := if firstPass f then dw t.tagctr else f.latch
      .ok (writeLanes f.team (lanes.map (fun l => (l, d.toNat, v))) (modFrag i (fun f => { f with latch := v }) s))) s

/-- DTAG.RESET (R93, R178): it issues its passes, and acts once for the team, with the first. -/
def execDtagReset (s : State) : Out :=
  lanePass 4 (fun s _ f _ _ => .ok (if firstPass f then modTeam f.team (fun t => { t with tagctr := 1 }) s else s)) s

/-- DFOLD.T (R180). -/
def execDfoldT (w : BitVec 2) (d a : BitVec 6) (p : BitVec 2) (s : State) : Out :=
  laneGen 4 w linOnly d.toNat two [⟨a.toNat, p.toNat, two⟩] (fun _ _ gs =>
    let x := linOf (grp gs 0)
    let r := finishLin ⟨x.mu, (linVar x).w, 0, 0⟩
    (packLin r.1, r.2)) s

/-- DFOLD.M (R180). -/
def execDfoldM (w : BitVec 2) (d a : BitVec 6) (p : BitVec 2) (s : State) : Out :=
  laneGen 4 w linOnly d.toNat single [⟨a.toNat, p.toNat, two⟩] (fun _ _ gs =>
    let x := linOf (grp gs 0)
    let v := finishMom x.mu (linVar x).w
    ([reg x.mu v.1], v.2)) s

/-- DFOLD.L (R180). -/
def execDfoldL (w : BitVec 2) (d a : BitVec 6) (p : BitVec 2) (s : State) : Out :=
  laneGen 4 w linOnly d.toNat two [⟨a.toNat, p.toNat, single⟩] (fun _ _ gs =>
    let x := momOf ((grp gs 0).headD 0)
    let v := intake x.m x.v
    let r := finishLin ⟨x.m, v.1, 0, 0⟩
    (packLin r.1, v.2 ||| r.2)) s

/-- DCOV's covariance (R181). -/
def covFn : LaneFn := fun mode _ gs =>
  let ga := grp gs 0
  let gb := grp gs 1
  if mode = 3 then
    let ma := mean8 (values 3 ga)
    let mb := mean8 (values 3 gb)
    let ps := ((values 3 ga).zip (values 3 gb)).map (fun x =>
      let a := fSub x.1 ma.w
      let b := fSub x.2 mb.w
      let q := fMul a.w b.w
      (⟨q.w, a.fl ||| b.fl ||| q.fl⟩ : FRes))
    let t := treeSum (ps.map (fun q => some q.w))
    let v := fMul t.w eighth
    ([reg v.w 0], ma.fl ||| mb.fl ||| flagsOf ps ||| t.fl ||| v.fl)
  else if isNan (meanOf (ga.headD 0)) || isNan (meanOf (gb.headD 0)) then ([reg qnan 0], 0)
  else
    let a := linOf ga
    let b := linOf gb
    if mode = 2 ∧ a.t ≠ 0 ∧ a.t = b.t then let v := fMul a.c b.c; ([reg v.w 0], v.fl) else ([0], 0)

/-- DCOV (R181). -/
def execDcov (w : BitVec 2) (d a : BitVec 6) (p : BitVec 2) (b : BitVec 6) (q : BitVec 2) (s : State) : Out :=
  laneGen 4 w notPlain d.toNat single [⟨a.toNat, p.toNat, groupOf⟩, ⟨b.toNat, q.toNat, groupOf⟩] covFn s

/-- The two-point ensemble of a mean and variance (R182). -/
def ensemble (mu v : Word) : List DWord × Nat :=
  if isNan mu then (packSamples (List.replicate 8 qnan), 0)
  else
    let sg := (sqrtVar v).w
    let lo := fSub mu sg
    let hi := fAdd mu sg
    (List.replicate 4 (reg lo.w hi.w), lo.fl ||| hi.fl)

/-- DTOS (R182). -/
def execDtos (w : BitVec 2) (d a : BitVec 6) (p : BitVec 2) (s : State) : Out :=
  laneGen 4 w smpOnly d.toNat four [⟨a.toNat, p.toNat, single⟩] (fun _ _ gs =>
    let x := momOf ((grp gs 0).headD 0)
    let v := intake x.m x.v
    let r := ensemble x.m v.1
    (r.1, v.2 ||| r.2)) s

/-- DTOS.L (R182). -/
def execDtosL (w : BitVec 2) (d a : BitVec 6) (p : BitVec 2) (s : State) : Out :=
  laneGen 4 w smpOnly d.toNat four [⟨a.toNat, p.toNat, two⟩] (fun _ _ gs =>
    let x := linOf (grp gs 0)
    ensemble x.mu (linVar x).w) s

/-- STOD's fit (R183). -/
def stodFn : LaneFn := fun _ acct gs =>
  let xs := values 3 (grp gs 0)
  let sel := (meanOf ((grp gs 1).headD 0)).toNat
  let n := popc32 (BitVec.ofNat 32 (sel % 256))
  let picked : List (Option Word) := (xs.zip (upFrom 0 8)).map (fun x => if sel.testBit x.2 then some x.1 else none)
  if n = 0 then ([reg qnan qnan], fINV)
  else
    let t := treeSum picked
    let mu := fDiv t.w (fOfInt n).w
    let qs := picked.map (fun x => x.map (fun w => let e := (fSub w mu.w).w; (fMul e e).w))
    let dv := if sel.testBit 8 then n - 1 else n
    let v := if dv = 0 then infOf false else (fDiv (treeSum qs).w (fOfInt dv).w).w
    let r := finishMom mu.w (account acct mu.w v)
    ([reg mu.w r.1], t.fl ||| mu.fl ||| r.2)

/-- STOD (R183). -/
def execStod (w : BitVec 2) (d a : BitVec 6) (p : BitVec 2) (b : BitVec 6) (q : BitVec 2) (s : State) : Out :=
  laneGen 4 w momOnly d.toNat single [⟨a.toNat, p.toNat, four⟩, ⟨b.toNat, q.toNat, single⟩] stodFn s

/-- clamp of R184; a NaN stays as it is, payload and all, in every mode (DESIGN CHOICE, notes/assumptions/53.md). -/
def clampTo (lo hi x : Word) : Word := if isNan x then x else fPick true (fPick false x lo) hi

/-- DCLAMP (R184). In MOM min(va, B) of a NaN B, which lo and hi of one infinity give, is va (DESIGN CHOICE, notes/assumptions/53.md). -/
def clampFn : LaneFn := fun mode _ gs =>
  let g := grp gs 0
  let b := (grp gs 1).headD 0
  let lo := meanOf b
  let hi := spreadOf b
  if isNan lo || isNan hi || decide (ordKey hi < ordKey lo) then
    (match mode with
      | 0 => [reg qnan 0]
      | 1 => [reg qnan qnan]
      | 2 => packLin ⟨qnan, qnan, qnan, 0⟩
      | _ => packSamples (List.replicate 8 qnan), fINV)
  else
    let h := (fMul (fSub hi lo).w 0x3F000000).w
    let bound := (fMul h h).w
    match mode with
    | 0 => ([reg (clampTo lo hi (meanOf (g.headD 0))) 0], 0)
    | 1 =>
      let x := momOf (g.headD 0)
      let mu := clampTo lo hi x.m
      let v := finishMom mu (fPick true x.v bound)
      ([reg mu v.1], v.2)
    | 2 =>
      let x := linOf g
      let mu := clampTo lo hi x.mu
      let cc := (fMul x.c x.c).w
      let y : Lin :=
        if fLt bound (linVar x).w then
          if fLe cc bound then ⟨mu, (fSub bound cc).w, x.c, x.t⟩
          else ⟨mu, 0, (sqrtVar bound).w ||| zeroOf (signOf x.c), x.t⟩
        else ⟨mu, x.r, x.c, x.t⟩
      let r := finishLin y
      (packLin r.1, r.2)
    | _ => (packSamples ((values 3 g).map (clampTo lo hi)), 0)

/-- DCLAMP (R184). -/
def execDclamp (w : BitVec 2) (d a : BitVec 6) (p : BitVec 2) (b : BitVec 6) (q : BitVec 2) (s : State) : Out :=
  laneGen 4 w anyMode d.toNat groupOf [⟨a.toNat, p.toNat, groupOf⟩, ⟨b.toNat, q.toNat, single⟩] clampFn s

/-- DFUSE's cases (R185): mean, variance, flags and whether the mean was computed. -/
def fuse (a b : Mom) : Word × Word × Nat × Bool :=
  let inf := infOf false
  if isNan a.m || isNan b.m then (qnan, qnan, 0, false)
  else if a.v = 0 ∧ b.v = 0 then (if fEq a.m b.m then (a.m, a.v, 0, false) else (qnan, qnan, fINV, false))
  else if a.v = 0 then (a.m, a.v, 0, false)
  else if b.v = 0 then (b.m, b.v, 0, false)
  else if a.v = inf ∧ b.v = inf then
    let t := fAdd a.m b.m
    let m := fMul t.w 0x3F000000
    (m.w, inf, t.fl ||| m.fl, true)
  else if a.v = inf then (b.m, b.v, 0, false)
  else if b.v = inf then (a.m, a.v, 0, false)
  else
    let w := (fAdd a.v b.v).w
    let k := (fDiv a.v w).w
    let e := fSub b.m a.m
    let x := fMul k e.w
    let m := fAdd a.m x.w
    (m.w, (fMul k b.v).w, e.fl ||| x.fl ||| m.fl, true)

/-- DFUSE (R185). -/
def execDfuse (w : BitVec 2) (d a : BitVec 6) (p : BitVec 2) (b : BitVec 6) (q : BitVec 2) (s : State) : Out :=
  laneGen 4 w momOnly d.toNat single [⟨a.toNat, p.toNat, single⟩, ⟨b.toNat, q.toNat, single⟩] (fun _ acct gs =>
    let x := fuse (momOf ((grp gs 0).headD 0)) (momOf ((grp gs 1).headD 0))
    let v := finishMom x.1 (account (acct && x.2.2.2) x.1 x.2.1)
    ([reg x.1 v.1], x.2.2.1 ||| v.2)) s

end Sys2Proof.Machine
end

