-- ==== Sys2Proof/Machine/Noise.lean ====
section
/-! DEFINITION. The noise engine (R207 to R220): Peal, the samplers, the draw instructions, SRND and the stream slots. -/

namespace Sys2Proof.Machine

/-! ### Peal (R208) -/

/-- The four words of a Peal state. -/
structure Block where
  w0 : Word
  w1 : Word
  w2 : Word
  w3 : Word
  deriving DecidableEq, Repr

/-- One round, rotating by r1 and r2. -/
def pealRound (r1 r2 : Nat) (b : Block) : Block :=
  let x0 := b.w0 + b.w1
  let x3 := (b.w3 ^^^ x0).rotateLeft r1
  let x2 := b.w2 + x3
  let x1 := (b.w1 ^^^ x2).rotateLeft r2
  ⟨x0, x1, x2, x3⟩

/-- Word i mod 4 of a key. -/
def keyWord (k : PealKey) (i : Nat) : Word := (k >>> (32 * (i % 4))).setWidth 32

/-- Rounds 2h − 1 and 2h, and the key injection after them. -/
def pealPair (k : PealKey) (b : Block) (h : Nat) : Block :=
  let b := pealRound 8 4 (pealRound 16 12 b)
  ⟨b.w0 + keyWord k h + 0x9E3779B9, b.w1 + keyWord k (1 + h) + 0xBB67AE85, b.w2 + keyWord k (2 + h) + 0x3C6EF372,
   b.w3 + keyWord k (3 + h) + 0xA54FF53A + BitVec.ofNat 32 h⟩

/-- Peal(KEY, X, D) (R208). -/
def peal (k : PealKey) (x d : DWord) : Block :=
  (upFrom 1 5).foldl (pealPair k)
    ⟨x.setWidth 32 + keyWord k 0, (x >>> 32).setWidth 32 + keyWord k 1, d.setWidth 32 + keyWord k 2,
     (d >>> 32).setWidth 32 + keyWord k 3⟩

/-! ### Samplers (R210, R211) -/

/-- The 24 bits of a word that a uniform is formed from. -/
def top24 (w : Word) : Nat := w.toNat / 2 ^ 8

/-- A uniform value of a word (R210). -/
def uniformOf (w : Word) : Word := (roundDy (top24 w) (-24) false).w

/-- The Gaussian of a block (R211). -/
def gaussOf (b : Block) : Word :=
  let l := (fnu 4 (roundDy (top24 b.w0 + 1) (-24) false).w).w
  let q := (fMul l 0xBFB17218).w
  (fMul (fnu 2 q).w (fnu 6 (uniformOf b.w1)).w).w

/-! ### Draws (R212 to R215) -/

/-- What a draw makes of the blocks of one group: from the mode, block of a sample index, block of a tag, and the old group, the
registers written and FLAGS bits. -/
abbrev DrawFn := Nat → (Nat → Block) → (Nat → Block) → List DWord → List DWord × Nat

/-- A result of kind "FP value, spread, residual or term := 0" (R212). -/
def packDraw (mode : Nat) (ws : List Word) : List DWord :=
  match mode with
  | 3 => packSamples ws
  | 2 => [reg (ws.headD 0) 0, 0]
  | _ => [reg (ws.headD 0) 0]

/-- The samples of a group: eight in SMP. -/
def samples (mode : Nat) : List Nat := upFrom 0 (if mode = 3 then 8 else 1)

/-- RNG.U (R213). -/
def drawU : DrawFn := fun mode blk _ _ => (packDraw mode ((samples mode).map (fun i => uniformOf (blk i).w0)), 0)

/-- RNG.G (R213). -/
def drawG : DrawFn := fun mode blk _ _ => (packDraw mode ((samples mode).map (fun i => gaussOf (blk i))), 0)

/-- RNG.B (R214). -/
def drawB : DrawFn := fun mode blk _ old =>
  let ps := values mode old
  (packInt mode ((samples mode).map (fun i => w01 (fLt (uniformOf (blk i).w0) (nth 0 ps i)))),
   if ps.any isNan then fINV else 0)

/-- RNG.D (R215). -/
def drawD : DrawFn := fun mode blk tagged old =>
  let z := gaussOf (blk 0)
  if mode = 1 then
    let r := old.headD 0
    let v := (intake (meanOf r) (unsign (spreadOf r))).1
    (packDraw mode [(fAdd (meanOf r) (fMul (sqrtVar v).w z).w).w], 0)
  else
    let g := linOf old
    let y := if g.t = 0 then g.mu else (fAdd g.mu (fMul g.c (gaussOf (tagged g.t))).w).w
    let v := if isNan g.r then infOf false else g.r
    (packDraw mode [(fAdd y (fMul (sqrtVar v).w z).w).w], 0)

/-! ### Stochastic rounding (R217) -/

/-- SRND of one value to p bits with the uniform's 24 bits u: the result, the variance Vs and the FLAGS bits. With p = 24 it changes
nothing, so Vs is taken as +0 even where q·q overflows and the line of Vs would make it NaN (DESIGN CHOICE,
notes/assumptions/81.md). -/
def stochastic (a : Word) (p u : Nat) : Word × Word × Nat :=
  match fval a with
  | .nan => (qnan, 0, 0)
  | .inf neg => (infOf neg, 0, 0)
  | .fin neg m e =>
    if m = 0 then (a, 0, 0)
    else
      let k : Int := max ((Nat.log2 m : Int) + e) (-126) - ((p : Int) - 1)
      let q := (roundDy 1 k false).w
      let vs (f : Word) : Word := if 24 ≤ p then 0 else (fMul (fMul f (fSub 0x3F800000 f).w).w (fMul q q).w).w
      if k ≤ e then (a, vs 0, 0)
      else
        let s := (k - e).toNat
        let n := signed neg m
        let lo := n / 2 ^ s
        let fr := (n - lo * 2 ^ s).toNat
        if fr = 0 then (a, vs 0, 0)
        else
          let r := roundDy (if u * 2 ^ s < fr * 2 ^ 24 then lo + 1 else lo) k neg
          (r.w, vs (roundDy fr (-(s : Int)) false).w, r.fl ||| fNX)

/-- SRND in its mode (R217). -/
def srndFn (p : Nat) : DrawFn := fun mode blk _ old =>
  match mode with
  | 1 =>
    let a := momOf (old.headD 0)
    let r := stochastic a.m p (top24 (blk 0).w0)
    let v := finishMom r.1 (fAdd a.v r.2.1).w
    ([reg r.1 v.1], r.2.2 ||| v.2)
  | 2 =>
    let g := linOf old
    let r := stochastic g.mu p (top24 (blk 0).w0)
    let v := finishLin { g with mu := r.1, r := (fAdd g.r r.2.1).w }
    (packLin v.1, r.2.2 ||| v.2)
  | _ =>
    let rs := ((samples mode).zip (values mode old)).map (fun x => stochastic x.2 p (top24 (blk x.1).w0))
    (packDraw mode (rs.map Prod.fst), rs.foldl (fun m r => m ||| r.2.2) 0)

/-! ### The draw instructions (R212, R219) -/

/-- A team's stream slot (R207). -/
def streamOf (t : Team) (n : Nat) : Stream := smGet ⟨0, 0⟩ n t.noise

/-- The block of sample i of a draw at element index x with offset o (R212). -/
def drawBlock (st : Stream) (x : DWord) (o i : Nat) : Block := peal st.key x (st.pos + dw (8 * o + i))

/-- The element index of the team-common block of a tag (R215). -/
def tagIndex (t : Nat) : DWord := 0xFFFFFFFFFFFFFF00 + dw t

/-- A draw instruction: one pass draws for its lanes; the results come later, tagged by set-A (R219). -/
def drawOp (modes : Nat → Bool) (fn : DrawFn) (o : Nat) (w : BitVec 2) (d a : BitVec 6) (p : BitVec 2) (n : BitVec 3)
    (s : State) : Out :=
  lanePass 4 (fun s i f t lanes =>
    let g := groupOf f.mode
    match checkRegs s f t w (modes f.mode) [(d.toNat, g), (a.toNat, g)] with
    | .error e => .error e
    | .ok () =>
      let st := streamOf t n.toNat
      let one (l j : Nat) : List Elem × Nat :=
        let x := dGet t (srcLane t p.toNat l) (a.toNat + j * g)
        let r := fn f.mode (drawBlock st x o) (fun k => drawBlock st (tagIndex k) o 0) (groupAt t l (d.toNat + j * g) g)
        ((r.1.zip (upFrom (d.toNat + j * g) r.1.length)).map (fun v => { dest := .lane l v.2, val := v.1, live := true }), r.2)
      let rs := lanes.flatMap (fun l => (upFrom 0 (2 ^ w.toNat)).map (one l))
      .ok (issueOp i f t f.setA (.noise (rs.flatMap Prod.fst) (rs.foldl (fun m r => m ||| r.2) 0)) s)) s

/-- RNG.U (R213). -/
def execRngU (w : BitVec 2) (d a : BitVec 6) (p : BitVec 2) (n : BitVec 3) (o : BitVec 5) (s : State) : Out :=
  drawOp anyMode drawU o.toNat w d a p n s
/-- RNG.G (R213). -/
def execRngG (w : BitVec 2) (d a : BitVec 6) (p : BitVec 2) (n : BitVec 3) (o : BitVec 5) (s : State) : Out :=
  drawOp anyMode drawG o.toNat w d a p n s
/-- RNG.B (R214). -/
def execRngB (w : BitVec 2) (d a : BitVec 6) (p : BitVec 2) (n : BitVec 3) (o : BitVec 5) (s : State) : Out :=
  drawOp anyMode drawB o.toNat w d a p n s
/-- RNG.D (R215): MOM and LIN only. -/
def execRngD (w : BitVec 2) (d a : BitVec 6) (p : BitVec 2) (n : BitVec 3) (o : BitVec 5) (s : State) : Out :=
  drawOp (fun m => m == 1 || m == 2) drawD o.toNat w d a p n s
/-- SRND (R217): p is one more than the field. -/
def execSrnd (w : BitVec 2) (d a : BitVec 6) (p : BitVec 2) (n : BitVec 3) (c : BitVec 5) (s : State) : Out :=
  drawOp anyMode (srndFn (c.toNat + 1)) 0 w d a p n s

/-- The running sums of weights (R216). -/
def runningSums : Option Word → List Word → List Word
  | _, [] => []
  | none, w :: ws => w :: runningSums (some w) ws
  | some c, w :: ws => (fAdd c w).w :: runningSums (some (fAdd c w).w) ws

/-- The category drawn (R216), none where INV is set. -/
def category (lanes : List Nat) (ws : List Word) (u : Word) : Option Nat :=
  let cs := runningSums none ws
  let total := cs.getLastD 0
  if ws.any (fun w => isNan w || isInf w || (signOf w && !isZero w)) || isNan total || isInf total || isZero total then none
  else
    let t := (fMul u total).w
    match (lanes.zip cs).find? (fun x => fLt t x.2) with
    | some x => some x.1
    | none => some (((lanes.zip ws).reverse.find? (fun x => fLt 0 x.2)).getD (0, 0)).1

/-- RNG.C (R216): it reads in every pass and writes after the last. -/
def execRngC (d a : BitVec 6) (p : BitVec 2) (n : BitVec 3) (o : BitVec 5) (s : State) : Out :=
  allPasses 4 (fun s i f t =>
    match checkRegs s f t 0 (decide (f.mode ≤ 1)) [(d.toNat, groupOf f.mode), (a.toNat, groupOf f.mode)] with
    | .error e => .error e
    | .ok () =>
      let lanes := (upFrom 0 1024).filter (laneOn f.mask)
      let x := dGet t (srcLane t p.toNat (lanes.headD 0)) a.toNat
      let k := category lanes (lanes.map (fun l => meanOf (dGet t l d.toNat))) (uniformOf (drawBlock (streamOf t n.toNat) x o.toNat 0).w0)
      let v := match k with | some l => dw l | none => 0xFFFFFFFF
      .ok (issueOp i f t f.setA (.noise (lanes.map (fun l => { dest := .lane l d.toNat, val := v, live := true }))
        (match k with | some _ => 0 | none => fINV)) s)) s

/-! ### Stream slots (R218) -/

/-- A slot instruction: it acts once at issue, in the team's issue order (R219), and completes later with its scalar results. -/
def slotOp (n : BitVec 3) (change : Frag → Team → Stream → Stream) (results : Frag → Stream → List Elem) (s : State) : Out :=
  onePass 4 (fun s i f t =>
    let st := streamOf t n.toNat
    .ok (issueOp i f t f.setA (.noise (results f st) 0)
      (modTeam f.team (fun u => { u with noise := smPut ⟨0, 0⟩ n.toNat (change f t st) u.noise }) s))) s

/-- A slot instruction that reads. -/
def slotRead (d : BitVec 5) (n : BitVec 3) (val : Stream → DWord) (s : State) : Out :=
  slotOp n (fun _ _ st => st) (fun f st => [{ dest := sDest f.handler d.toNat, val := val st, live := true }]) s

/-- RNG.KEY (R218): POS becomes 0. -/
def execRngKey (n : BitVec 3) (a b : BitVec 5) (s : State) : Out :=
  slotOp n (fun f t _ => ⟨sGet t f.handler b.toNat ++ sGet t f.handler a.toNat, 0⟩) (fun _ _ => []) s
/-- RNG.KEY.LO (R218). -/
def execRngKeyLo (d : BitVec 5) (n : BitVec 3) (s : State) : Out := slotRead d n (fun st => st.key.setWidth 64) s
/-- RNG.KEY.HI (R218). -/
def execRngKeyHi (d : BitVec 5) (n : BitVec 3) (s : State) : Out := slotRead d n (fun st => (st.key >>> 64).setWidth 64) s
/-- RNG.POS (R218). -/
def execRngPos (n : BitVec 3) (a : BitVec 5) (s : State) : Out :=
  slotOp n (fun f t st => { st with pos := sGet t f.handler a.toNat }) (fun _ _ => []) s
/-- RNG.POS.ADD (R218). -/
def execRngPosAdd (n : BitVec 3) (a : BitVec 5) (s : State) : Out :=
  slotOp n (fun f t st => { st with pos := st.pos + sGet t f.handler a.toNat }) (fun _ _ => []) s
/-- RNG.POS.RD (R218). -/
def execRngPosRd (d : BitVec 5) (n : BitVec 3) (s : State) : Out := slotRead d n (fun st => st.pos) s

/-- NOISE_RESULT (R80, R81, R219): one element of a noise instruction's results is written; with the last, its FLAGS bits are
set and it is complete. -/
def execNoiseResult (op : Nat) (s : State) : Out :=
  match amGet op s.ops with
  | none => .next s
  | some o => match o.body with
    | .noise es fl =>
      let s := deliver op o es (fun es => .noise es fl) s
      .next (if (amGet op s.ops).isNone then setFlags o.team fl s else s)
    | _ => .next s

end Sys2Proof.Machine
end

