-- ==== Sys2Proof/Machine/Engine.lean ====
section
/-! DEFINITION. Memory accesses of the engines (R242, R285, R291): translation with its waits and failures, sector-wise reads
and writes (R35), writes into logs (R305), full-empty bits (R50), and engine counter adds (R15, R122). -/

namespace Sys2Proof.Machine

/-- Who makes an engine's accesses: how it waits, its agent, its context and die, the core whose TLBs it uses, the number
its appends stem from, and the phase that they belong to (R16). -/
structure Eng where
  who : Waiter
  agent : Nat
  ctx : Nat
  die : Nat
  core : Option Nat
  ord : Nat
  phase : Option Nat
  deriving DecidableEq, Repr

/-- Why an engine access does not go on. -/
inductive EngStop where
  /-- It fails with a cause of R125 at an address. -/
  | fault (cause : Nat) (addr : DWord)
  /-- It waits, its page's merge entry joined if there was room. -/
  | wait
  deriving DecidableEq, Repr

/-- An engine's access, with the state after it. -/
abbrev EngRes (α : Type) := Except (State × EngStop) (State × α)

/-- The computation r, then k on its state and result. -/
def engThen {α β : Type} (r : EngRes α) (k : State → α → EngRes β) : EngRes β :=
  match r with
  | .error e => .error e
  | .ok (s, a) => k s a

/-- The requester waits in a fault merge table (R287). -/
def isMerged (s : State) (w : Waiter) : Bool := s.merge.any (fun e => e.2.waiters.contains w)

/-- The requester joins its page's entry; a full table leaves it to try again (R288). -/
def engJoin (g : Eng) (large : Bool) (va : Nat) (leaf : DWord) (kind : Nat) (s : State) : State :=
  match mergeJoin g.die g.ctx large va leaf kind g.who s with
  | none => s
  | some (_, s) => s

/-- One page of an engine's access (R285, R291). -/
def enginePage (g : Eng) (va : Nat) (need : Need) (s : State) : EngRes Spot :=
  let (x, s) : Xlat × State := match g.core with
    | some c => translate g.ctx c va need s
    | none => match amGet g.ctx s.ctxs with
      | none => (.malformed, s)
      | some c => let (w, s) := dieWalk g.die g.ctx c.root va s; (judge c.secure need va w, s)
  match x with
  | .page pa e => .ok (s, .at pa e)
  | .denied _ => .error (s, .fault 0x11 (dw va))
  | .noexec => .error (s, .fault 0x11 (dw va))
  | .malformed => .error (s, .fault 0x12 (dw va))
  | .loggable e =>
    let (k, s) := tileOf g.ctx va e s
    if need.w && !need.r then .ok (s, .log k (va % 2 ^ 16))
    else .error (engJoin g false va e need.kind (startArrival k s), .wait)
  | .touch e => .error (engJoin g false va e need.kind s, .wait)
  | .host e large => .error (engJoin g large va e need.kind s, .wait)

/-- The pages of an engine's global span. -/
def enginePages (g : Eng) (need : Need) : List (Nat × Nat) → State → EngRes (List (Spot × Nat))
  | [], s => .ok (s, [])
  | (a, n) :: ps, s =>
    engThen (enginePage g a need s) fun s sp =>
    if need.w && !need.r && sp.counter then .error (s, .fault 0x0E (dw a))
    else engThen (enginePages g need ps s) fun s rest => .ok (s, (sp, n) :: rest)

/-- An engine's access to n bytes: R23, then the scratchpad of a unit (R24), no stack (R242), then its pages. -/
def engineSpots (g : Eng) (u : Option UnitSt) (ea : Int) (n : Nat) (need : Need) (s : State) : EngRes (List (Spot × Nat)) :=
  if n = 0 then .ok (s, [])
  else match checkSpan ea n with
  | some c => .error (s, .fault c (BitVec.ofInt 64 ea))
  | none =>
    let a := ea.toNat
    match aperture a with
    | 1 => match u with
      | none => .error (s, .fault 0x0B (dw a))
      | some u => match scratchSpot u a n with
        | none => .error (s, .fault 0x0B (dw a))
        | some p => .ok (s, [(.at p 0, n)])
    | 2 => .error (s, .fault 0x0C (dw a))
    | _ => enginePages g need (pagePieces (n / 2 ^ 16 + 2) a n) s

/-- A counter's address, checked as R122 has it: `add` needs W as well. -/
def engineCounter (g : Eng) (va : DWord) (add : Bool) (s : State) : EngRes Nat :=
  match checkSpan va.toNat 8 with
  | some c => .error (s, .fault c va)
  | none =>
    if aperture va.toNat ≠ 0 then .error (s, .fault 0x0E va)
    else if va.toNat % 8 ≠ 0 then .error (s, .fault 0x0D va)
    else
      engThen (enginePage g va.toNat (if add then needCtrAdd else needLoad) s) fun s sp =>
      match sp with
      | .at pa e => if entryBit e 9 then .ok (s, pa) else .error (s, .fault 0x0E va)
      | .log _ _ => .error (s, .fault 0x0E va)

/-! ### Reads -/

/-- The single-copy atomic unit of an engine at an address: a sector of global memory, a granule of a scratchpad (R35). -/
def engineUnit (pa : Nat) : Nat := if pa < 2 ^ 48 then 32 else 16

/-- The bytes at addresses, each unit that holds some of them read once (R35, R53). -/
def engineBytes (agent : Nat) (pas : List Nat) (s : State) : AMap Byte × State :=
  ((pas.map (fun a => a / engineUnit a * engineUnit a)).eraseDups).foldl (fun r a =>
    let (bs, s) := readUnit agent a (engineUnit a) r.2
    ((bs.zip (upFrom a bs.length)).foldl (fun m x => amPut x.2 x.1 m) r.1, s)) ([], s)

/-- An engine's read of n bytes at an address. -/
def engineRead (g : Eng) (u : Option UnitSt) (ea : Int) (n : Nat) (s : State) : EngRes (List Byte) :=
  engThen (engineSpots g u ea n needLoad s) fun s ps =>
  let pas := (upFrom 0 n).map (paAt ps)
  let (m, s) := engineBytes g.agent pas s
  .ok (s, pas.map (fun a => smGet 0 a m))

/-! ### Writes -/

/-- Bytes of an engine's write: where each lies, its value, and the bits of it that change (R244). -/
abbrev Cell := Spot × Byte × Byte

/-- The key of the unit a cell lies in. -/
def cellUnit (c : Cell) : Nat :=
  match c.1 with
  | .at pa _ => pa / engineUnit pa * engineUnit pa
  | .log k o => 2 ^ 70 + k * 2 ^ 20 + o / 32 * 32

/-- One sector or granule written as one write (R35); a byte of which some bits change keeps the others (R244). -/
def writeUnit (agent : Nat) (cells : List Cell) (s : State) : State :=
  let here := cells.foldl (fun m c => match c.1 with
    | .at pa _ => amPut pa ((rdByte s pa &&& ~~~c.2.2) ||| (c.2.1 &&& c.2.2)) m
    | .log _ _ => m) ([] : AMap Byte)
  if here.isEmpty then s else writeRuns agent none (runsOf here) s

/-- An engine's write to a log, on its way (R305, R306); `o` is the operation it stems from. -/
def appendUnit (o : Op) (ord : Nat) (cells : List Cell) (s : State) : State :=
  match cells.findSome? (fun c => match c.1 with | .log k _ => some k | .at _ _ => none) with
  | none => s
  | some k =>
    let m := cells.foldl (fun m c => match c.1 with | .log _ off => amPut off c.2.1 m | .at _ _ => m) ([] : AMap Byte)
    let (w, s) := spawnFor o s
    { s with
      ops := amPut s.seq { o with ord := ord, weight := w, fault := none, tag := none, body := .append k (.bytes m) } s.ops
      seq := s.seq + 1 }

/-- Cells grouped by their units, in ascending order. -/
def byUnit (cells : List Cell) : List (List Cell) :=
  (((cells.map cellUnit).eraseDups).map (fun k => cells.filter (fun c => cellUnit c == k)))

/-- An engine's writes, unit by unit; `o` and `ord` name the operation that appends stem from. -/
def writeCells (agent : Nat) (o : Op) (ord : Nat) (cells : List Cell) (s : State) : State :=
  (byUnit cells).foldl (fun s u => appendUnit o ord u (writeUnit agent u s)) s

/-- The scratchpad granules that cells lie in. -/
def granulesOf (cells : List Cell) : List Nat :=
  (cells.filterMap (fun c => match c.1 with
    | .at pa _ => if pa < 2 ^ 48 then none else some (pa / 16)
    | .log _ _ => none)).eraseDups

/-- Whole bytes at spots. -/
def cellsAt (ps : List (Spot × Nat)) (bs : List Byte) : List Cell :=
  (placeBytes ps bs).map (fun c => (c.1, c.2, 0xFF))

/-- A write of an engine outside any unit's operations. -/
def engineOp (g : Eng) : Op :=
  { ord := g.ord, phase := g.phase, weight := 0, fault := none, unit := 2 ^ 40, team := g.agent, frag := 0, gcore := g.die * 768, ctx := g.ctx,
    tag := none, body := .taking }

/-- An engine's write of bytes at an address. -/
def engineWrite (g : Eng) (u : Option UnitSt) (ea : Int) (bs : List Byte) (s : State) : EngRes Unit :=
  engThen (engineSpots g u ea bs.length needStore s) fun s ps =>
  .ok (writeCells g.agent (engineOp g) g.ord (cellsAt ps bs) s, ())

/-- Appends stemming from an operation that no log has taken yet, or that a full log holds (R315), and add-on-stores not yet applied. -/
def appendsOut (s : State) (agent ord : Nat) : Bool :=
  s.ops.any (fun o => decide (o.2.ord = ord) && appendAgent s o.2 == agent && match o.2.body with
    | .append _ _ => true
    | .adds _ => true
    | .drainAdd rows => rows.any (fun r => r.any (fun x => x.1.isSome))
    | _ => false) ||
  s.tiles.any (fun t => t.2.held.any (fun h => decide (h.writer = agent) && decide (h.stamp = ord)))

/-- Log entries of an agent that no application has taken yet (R56). -/
def logsOut (s : State) (agent : Nat) : Bool := s.tiles.any (fun t => t.2.entries.any (fun e => (e.stamps ++ e.past).any (fun x => x.1 == agent)))

/-- A SYSTEM-scope end that waits for an agent's log entries starts the arrival of their tiles once (R310, R313). -/
def startLogs (agent : Nat) (s : State) : State :=
  (s.tiles.filter (fun t => t.2.entries.any (fun e => (e.stamps ++ e.past).any (fun x => x.1 == agent)))).foldl (fun s t => startArrival t.1 s) s

/-- An engine's counter add to a checked address: a refused one is recorded in the context's error record (R15, R297). -/
def addCounter (writer agent : Nat) (pos : Pos) (scope pa amount : Nat) (ctx gcore team : Nat) (va : DWord) (s : State) : State :=
  match engineAdd writer agent pos scope pa amount s with
  | (true, s) => s
  | (false, s) => recordOverflow ctx gcore team va amount s

/-- One of a list's elements, by free choice. -/
def pickOne {α : Type} (z : α) (l : List α) (s : State) : α × State :=
  let (k, s) := choose l.length s
  (nth z l k, s)

/-- The address at which an access to spans met a failed page of n bytes; of several pages' worth, which was met is open. -/
def faultAddr (spans : List (Int × Nat)) (page n : Nat) (s : State) : Nat × State :=
  pickOne page (spans.flatMap (fun x =>
    let lo := max x.1.toNat page
    let hi := min (x.1.toNat + x.2) (page + n)
    if x.1 < 0 ∨ hi ≤ lo then [] else (upFrom (lo / 2 ^ 16) ((hi - 1) / 2 ^ 16 - lo / 2 ^ 16 + 1)).map (fun p => max lo (p * 2 ^ 16)))) s

/-- The stack of a physical address of device memory, 0 to 15 (R27). -/
def stackOf (pa : Nat) : Nat := pa / 2 ^ 39 % 2 * 8 + homeSlice pa / 8

/-- Free bytes. -/
def drawBytes : Nat → State → List Byte × State
  | 0, s => ([], s)
  | n + 1, s =>
    let (k, s) := draw s
    let (r, s) := drawBytes n s
    (BitVec.ofNat 8 k :: r, s)

end Sys2Proof.Machine
end

