-- ==== Sys2Proof/Machine/Folio.lean ====
section
/-! DEFINITION. Storage formats (R231 to R233), folio tiles (R234, R235), expansion (R236, R237) and the narrowings (R238 to
R240) of one element. -/

namespace Sys2Proof.Machine

/-! ### Exact magnitudes -/

/-- The exponent of the leading bit of m·2^e, m not 0. -/
def topOf (m : Nat) (e : Int) : Int := (Nat.log2 m : Int) + e

/-- m·2^e in units of 2^q, rounded to nearest, ties to even. -/
def rneUnits (m : Nat) (e q : Int) : Nat :=
  if q ≤ e then m * 2 ^ (e - q).toNat
  else
    let u := 2 ^ (q - e).toNat
    let d := m / u
    let r := m % u
    if u < 2 * r ∨ (2 * r = u ∧ d % 2 = 1) then d + 1 else d

/-- m·2^e in units of 2^q, for q at most e. -/
def unitsAt (x : Nat × Int) (q : Int) : Nat := x.1 * 2 ^ (x.2 - q).toNat

/-- m·2^e ≤ n·2^f. -/
def leMag (x y : Nat × Int) : Bool := decide (unitsAt x (min x.2 y.2) ≤ unitsAt y (min x.2 y.2))

/-- A value times a power of two. -/
def FVal.times (v : FVal) (k : Int) : FVal := match v with | .fin n m e => .fin n m (e + k) | v => v

/-- A value without its sign. -/
def FVal.abs (v : FVal) : FVal := match v with | .fin _ m e => .fin false m e | .inf _ => .inf false | .nan => .nan

/-! ### Formats (R231) -/

/-- A row format's bits per element, 0 for a code that is no row format. -/
def fmtBits : Nat → Nat
  | 0 => 32 | 1 => 16 | 2 => 16 | 3 => 8 | 4 => 32 | 5 => 8 | 6 => 6 | _ => 0

/-- The floating formats: fraction bits, exponent of the least quantum, code of infinity, sign bit's number. -/
def floatFmt : Nat → Option (Nat × Int × Nat × Nat)
  | 0 => some (23, -149, 0x7F800000, 31)
  | 1 => some (10, -24, 0x7C00, 15)
  | 2 => some (7, -133, 0x7F80, 15)
  | _ => none

/-- The length of the run of b at the start of a list of bits. -/
def runLength (b : Bool) : List Bool → Nat
  | [] => 0
  | c :: cs => if c = b then runLength b cs + 1 else 0

/-- The magnitude of a tapered code of w bits whose magnitude code c is not 0 (R232). -/
def taperMag (w c : Nat) : Nat × Int :=
  let bits := (upFrom 0 (w - 1)).map (fun i => c.testBit (w - 2 - i))
  let top := bits.headD false
  let n := runLength top bits
  let k : Int := if top then (n : Int) - 1 else -(n : Int)
  let rest := bits.drop (n + 1)
  let f := (rest.drop 1).foldl (fun a b => 2 * a + b2n b) 0
  let nf := (rest.drop 1).length
  (2 ^ nf + f, 2 * k + (b2n (rest.headD false) : Int) - (nf : Int))

/-- The value of a code (R231, R232). -/
def fmtValue (fmt code : Nat) : FVal :=
  match floatFmt fmt with
  | some (fb, q, inf, sb) =>
    let neg := code.testBit sb
    let m := code % 2 ^ sb
    if inf < m then .nan
    else if m = inf then .inf neg
    else if m < 2 ^ fb then .fin neg m q
    else .fin neg (2 ^ fb + m % 2 ^ fb) (q + ((m / 2 ^ fb : Nat) : Int) - 1)
  | none =>
    let w := fmtBits fmt
    if fmt = 3 ∨ fmt = 4 then
      let c := code % 2 ^ w
      if 2 ^ (w - 1) ≤ c then .fin true (2 ^ w - c) 0 else .fin false c 0
    else
      let c := code % 2 ^ (w - 1)
      let neg := code.testBit (w - 1)
      if c = 0 then (if neg then .nan else .fin false 0 0)
      else .fin neg (taperMag w c).1 (taperMag w c).2

/-- A code of a magnitude code with a sign: two's complement for the integers; a tapered zero has no sign. -/
def signCode (fmt : Nat) (neg : Bool) (c : Nat) : Nat :=
  if !neg then c
  else match floatFmt fmt with
    | some (_, _, _, sb) => c + 2 ^ sb
    | none =>
      let w := fmtBits fmt
      if c = 0 then 0 else if fmt = 3 ∨ fmt = 4 then 2 ^ w - c else c + 2 ^ (w - 1)

/-- The largest magnitude code of an integer or tapered format, of a sign. -/
def topCode (fmt : Nat) (neg : Bool) : Nat :=
  let w := fmtBits fmt
  if (fmt = 3 ∨ fmt = 4) ∧ neg = true then 2 ^ (w - 1) else 2 ^ (w - 1) - 1

/-- The greatest tapered magnitude code whose value is at most y. -/
def taperBelow (w : Nat) (y : Nat × Int) : Nat := ((upFrom 1 (2 ^ (w - 1) - 1)).filter (fun c => leMag (taperMag w c) y)).length

/-- The magnitude of a tapered code, 0 included. -/
def taperOf (w c : Nat) : Nat × Int := if c = 0 then (0, 0) else taperMag w c

/-- The nearest magnitude code to m·2^e, m not 0 (R238), and whether the value saturates. -/
def nearest (fmt : Nat) (neg : Bool) (m : Nat) (e : Int) : Nat × Bool :=
  match floatFmt fmt with
  | some (fb, q0, inf, _) =>
    let q := max (topOf m e - (fb : Int)) q0
    let c := rneUnits m e q + (q - q0).toNat * 2 ^ fb
    if inf ≤ c then (inf, true) else (c, false)
  | none =>
    if fmt = 3 ∨ fmt = 4 then
      let n := rneUnits m e 0
      if topCode fmt neg < n then (topCode fmt neg, true) else (n, false)
    else
      let w := fmtBits fmt
      let c := taperBelow w (m, e)
      let a := taperOf w c
      if c = 2 ^ (w - 1) - 1 then (c, !leMag (m, e) a)
      else
        let b := taperMag w (c + 1)
        let q := min (min a.2 b.2) e
        let s := unitsAt a q + unitsAt b q
        let y := 2 * unitsAt (m, e) q
        (if y < s ∨ (y = s ∧ c % 2 = 0) then c else c + 1, false)

/-- The code that R238 chooses for y, with SAT and NAN. -/
def narrowCode (fmt : Nat) (y : FVal) : Nat × Bool × Bool :=
  match y with
  | .nan => (match fmt with | 0 => 0x7FC00000 | 1 => 0x7E00 | 2 => 0x7FC0 | 5 => 0x80 | 6 => 0x20 | _ => 0, false, true)
  | .inf neg => (signCode fmt neg (match floatFmt fmt with | some (_, _, inf, _) => inf | none => topCode fmt neg), true, false)
  | .fin neg m e =>
    if m = 0 then (signCode fmt neg 0, false, false)
    else
      let r := nearest fmt neg m e
      (signCode fmt neg r.1, r.2, false)

/-- The adjacent magnitude codes around m·2^e, with their values in units of 2^q and that of m·2^e; none where it is
representable or beyond the largest magnitude (R240). -/
def bracket (fmt : Nat) (neg : Bool) (m : Nat) (e : Int) : Option (Nat × Nat × Nat × Nat × Nat × Int) :=
  match floatFmt fmt with
  | some (fb, q0, inf, _) =>
    let q := max (topOf m e - (fb : Int)) q0
    if q ≤ e then none
    else
      let u := 2 ^ (q - e).toNat
      let n := m / u
      let c := n + (q - q0).toNat * 2 ^ fb
      if m % u = 0 ∨ inf ≤ c + 1 then none else some (c, c + 1, n * u, (n + 1) * u, m, e)
  | none =>
    if fmt = 3 ∨ fmt = 4 then
      if 0 ≤ e then none
      else
        let u := 2 ^ (-e).toNat
        let n := m / u
        if m % u = 0 ∨ topCode fmt neg ≤ n then none else some (n, n + 1, n * u, (n + 1) * u, m, e)
    else
      let w := fmtBits fmt
      let c := taperBelow w (m, e)
      if c = 2 ^ (w - 1) - 1 ∨ leMag (m, e) (taperOf w c) = true then none
      else
        let a := taperOf w c
        let b := taperMag w (c + 1)
        let q := min (min a.2 b.2) e
        some (c, c + 1, unitsAt a q, unitsAt b q, unitsAt (m, e) q, q)

/-- SNARROW of one element (R240) with the uniform word u: the code, SAT, NAN and Vs. -/
def stochasticCode (fmt : Nat) (y : FVal) (u : Word) : Nat × Bool × Bool × Word :=
  let plain := let r := narrowCode fmt y; (r.1, r.2.1, r.2.2, (0 : Word))
  match y with
  | .fin neg m e =>
    if m = 0 then plain
    else match bracket fmt neg m e with
      | none => plain
      | some (c, d, a, b, v, q) =>
        -- lo and hi in the order of the signed values
        let f := (divMag false (if neg then b - v else v - a) 0 (b - a) 0).w
        let up := fLt u f
        let k := if up == neg then c else d
        (signCode fmt neg k, false, false,
          (fMul (fMul f (fSub 0x3F800000 f).w).w (roundMag 24 false ((b - a) * (b - a)) (2 * q) false).w).w)
  | _ => plain

/-- The exponent of u of R239 for a destination code. -/
def codeUlp (fmt code : Nat) : Int :=
  match floatFmt fmt with
  | some (fb, q, _, sb) => q + ((max (code % 2 ^ sb / 2 ^ fb) 1 : Nat) : Int) - 1
  | none =>
    if fmt = 3 ∨ fmt = 4 then 0
    else
      let w := fmtBits fmt
      let c := code % 2 ^ (w - 1)
      if c = 0 then (if fmt = 5 then -12 else -8) else (taperMag w c).2

/-- A source variance as a binary32 word: RNE32 of its magnitude, 0 kept (R237, R239). -/
def varWord (vs : FVal) : Word :=
  match vs with
  | .nan => qnan
  | .inf _ => infOf false
  | .fin _ m e => (roundMag 24 false m e false).w

/-- The variance element of a narrowing (R239, R240): `vs` in destination units, `term` the accounting term. -/
def narrowVar (vs : FVal) (term : Option Word) (sat nan : Bool) : Word :=
  let v := match term with | none => varWord vs | some a => (fAdd (varWord vs) a).w
  if nan then qnan else if sat || isNan v || v == infOf false then infOf false else if v == zeroOf true then 0 else v

/-! ### Folio tiles (R234, R235) -/

/-- A present element of a folio: E, S, F, V and M. -/
structure FolioVal where
  e : Int
  s : Int
  f : Int
  v : Nat
  m : Nat
  deriving DecidableEq, Repr

/-- FSIZE (R234). -/
def folioSize (p pv : Nat) : Nat := if pv = 0 then 1152 + 128 * p else 2176 + 128 * p + 256 * pv

/-- A byte as a signed number. -/
def signedByte (b : Nat) : Int := if 128 ≤ b % 256 then (b % 256 : Nat) - 256 else (b % 256 : Nat)

/-- The number that element m's bits of n planes from byte offset `off` of a tile form, first plane highest. The tile is given
as the number its bytes hold, so that plane bit m of a plane is bit 8·off + m. -/
def planeBits (tile off n m : Nat) : Nat := (upFrom 0 n).foldl (fun a i => 2 * a + b2n (tile.testBit (8 * (off + 128 * i) + m))) 0

/-- Element m of a tile, none when absent (R250 reads nothing else of an absent element). -/
def folioElem (tile p pv m : Nat) : Option FolioVal :=
  if !tile.testBit (8 * 1024 + m) then none
  else
    let s := planeBits tile 1152 p m
    let vb := 1152 + 128 * p
    some
      { e := signedByte (tile / 2 ^ (8 * m))
        s := if 2 ^ (p - 1) ≤ s then (s : Int) - 2 ^ p else s
        f := if pv = 0 then 0 else signedByte (tile / 2 ^ (8 * (vb + m)))
        v := planeBits tile (vb + 1024) pv m
        m := planeBits tile (vb + 1024 + 128 * pv) pv m }

/-- The planes of a number of n bits of element m. -/
def putPlanes (off n m x : Nat) : Nat :=
  (upFrom 0 n).foldl (fun a i => if x.testBit (n - 1 - i) then a + 2 ^ (8 * (off + 128 * i) + m) else a) 0

/-- A signed number of w bits as a code. -/
def twos (w : Nat) (x : Int) : Nat := (x % 2 ^ w).toNat

/-- The tile, as the number its bytes hold, of an element m alone. -/
def folioBits (p pv m : Nat) (x : FolioVal) : Nat :=
  let vb := 1152 + 128 * p
  twos 8 x.e * 2 ^ (8 * m) + 2 ^ (8 * 1024 + m) + putPlanes 1152 p m (twos p x.s) +
    (if pv = 0 then 0 else twos 8 x.f * 2 ^ (8 * (vb + m)) + putPlanes (vb + 1024) pv m x.v + putPlanes (vb + 1024 + 128 * pv) pv m x.m)

/-- The bytes of a tile whose element m is `at_ m`. -/
def folioBytes (p pv : Nat) (at_ : Nat → Option FolioVal) : List Byte :=
  natBytes (folioSize p pv) ((upFrom 0 1024).foldl (fun a m => match at_ m with | none => a | some x => a + folioBits p pv m x) 0)

/-- The exact mean of an element (R235). -/
def FolioVal.mean (x : FolioVal) (p : Nat) : FVal := .fin (decide (x.s < 0)) x.s.natAbs (x.e - ((p : Int) - 2))
/-- The exact variance of an element (R235). -/
def FolioVal.var (x : FolioVal) (pv : Nat) : FVal := .fin false x.v (x.f - ((pv : Int) - 1))

/-- The accounting term A(2^k) with 2^k·2^k formed exactly (R237). -/
def exactVar (k : Int) : Word := (roundMag 24 false 0xAAAAAB (-27 + 2 * k) false).w

/-- The variance fields of an element (R237): F, V and SAT, for the variance word v. -/
def expandVar (pv : Nat) (v : Word) : Int × Nat × Bool :=
  match fval v with
  | .fin _ m e =>
    if m = 0 then (-128, 0, false)
    else
      let q := max (topOf m e) (-128) - ((pv : Int) - 1)
      let w := rneUnits m e q
      let f := if w = 0 then -128 else max (topOf w q) (-128)
      if 127 < f then (127, 2 ^ pv - 1, true) else (f, rneUnits w q (f - ((pv : Int) - 1)), false)
  | _ => (127, 2 ^ pv - 1, true)

/-- Expansion of one element (R236, R237) of scaled value x with the source variance vs in the folio's units: the element, none
when absent, with SAT and NAN. -/
def expandElem (x vs : FVal) (p pv : Nat) (acct zabs : Bool) : Option FolioVal × Bool × Bool :=
  let big : Int := 2 ^ (p - 1) - 1
  let mean : Option (Int × Int × Bool) := match x with
    | .nan => none
    | .inf neg => some (127, if neg then -big else big, true)
    | .fin neg m e =>
      if m = 0 then (if zabs then none else some (-128, 0, false))
      else
        let q := max (topOf m e) (-128) - ((p : Int) - 2)
        let y := rneUnits m e q
        if y = 0 then some (-128, 0, false)
        else
          let ee := max (topOf y q) (-128)
          if 127 < ee then some (127, if neg then -big else big, true)
          else some (ee, signed neg (rneUnits y q (ee - ((p : Int) - 2))), false)
  match mean with
  | none => (none, false, x == .nan)
  | some (e, s, sat) =>
    if pv = 0 then (some ⟨e, s, 0, 0, 0⟩, sat, false)
    else
      let v := match vs with | .nan => infOf false | vs => varWord vs
      let v := if acct then (fAdd v (exactVar (e - ((p : Int) - 2)))).w else v
      let (f, vv, vsat) := expandVar pv v
      let m := min (rneUnits (s.natAbs * s.natAbs) (2 - 2 * (p : Int) + (pv : Int)) 0) (2 ^ pv - 1)
      (some ⟨e, s, if sat then 127 else f, if sat then 2 ^ pv - 1 else vv, m⟩, sat || vsat, false)

end Sys2Proof.Machine
end

