-- ==== Sys2Proof/Machine/Copy.lean ====
section
/-! DEFINITION. The copy engine (R221 to R248): the quire block, its checks, the movement of its elements, CPY.GO, CPY.FENCE,
CPY.CANCEL and completion. -/

namespace Sys2Proof.Machine

/-! ### The block (R226) -/

/-- A field of n bytes of a block of bytes. -/
def field (b : List Byte) (off n : Nat) : Nat := bytesNat ((b.drop off).take n)

/-- A signed 32-bit field. -/
def field32 (b : List Byte) (off : Nat) : Int := (BitVec.ofNat 32 (field b off 4)).toInt

/-- DIR. -/
def Quire.dir (q : Quire) : Nat := field q.block 0 1
/-- SFMT. -/
def Quire.sfmt (q : Quire) : Nat := field q.block 1 1
/-- DFMT. -/
def Quire.dfmt (q : Quire) : Nat := field q.block 2 1
/-- NDIM. -/
def Quire.ndim (q : Quire) : Nat := field q.block 3 1
/-- P. -/
def Quire.p (q : Quire) : Nat := field q.block 4 1
/-- PV. -/
def Quire.pv (q : Quire) : Nat := field q.block 5 1
/-- Bit k of OPT. -/
def Quire.opt (q : Quire) (k : Nat) : Bool := (field q.block 6 1).testBit k
/-- SCALE. -/
def Quire.scale (q : Quire) : Int := signedByte (field q.block 7 1)
/-- MCAST. -/
def Quire.mcast (q : Quire) : Nat := field q.block 8 2
/-- CSCOPE. -/
def Quire.cscope (q : Quire) : Nat := field q.block 10 1
/-- SBASE. -/
def Quire.sbase (q : Quire) : Nat := field q.block 16 8
/-- DBASE. -/
def Quire.dbase (q : Quire) : Nat := field q.block 24 8
/-- SVBASE. -/
def Quire.svbase (q : Quire) : Nat := field q.block 32 8
/-- DVBASE. -/
def Quire.dvbase (q : Quire) : Nat := field q.block 40 8
/-- CTR. -/
def Quire.ctr (q : Quire) : DWord := dw (field q.block 48 8)
/-- SIZE[d]. -/
def Quire.size (q : Quire) (d : Nat) : Nat := field q.block (64 + 4 * d) 4
/-- SSTRIDE[d]. -/
def Quire.sstride (q : Quire) (d : Nat) : Int := field32 q.block (128 + 4 * d)
/-- DSTRIDE[d]. -/
def Quire.dstride (q : Quire) (d : Nat) : Int := field32 q.block (192 + 4 * d)
/-- The SIZEs of the quire's dimensions. -/
def Quire.sizes (q : Quire) : List Nat := (upFrom 0 q.ndim).map q.size

/-- A row format (R231). -/
def rowFmt (f : Nat) : Bool := fmtBits f != 0
/-- FOLIO (R231). -/
def folioFmt : Nat := 15

/-- The folio fields of a side are legal (R227). -/
def Quire.folioOk (q : Quire) (stride : Nat → Int) : Bool :=
  decide (2 ≤ q.ndim) && decide (2 ≤ q.p) && decide (q.p ≤ 24) && decide (q.pv ≤ 12) && decide (q.size 0 ≤ 32) &&
  decide (q.size 1 ≤ 32) && stride 0 == 0 && stride 1 == 0

/-- A base that a multicast can go to (R247). -/
def mcastBase (a : Nat) : Bool := decide (aperture a = 1) && decide ((a - scratchBase) / 2 ^ 19 = 0)

/-- The quire breaks no rule of R227, R231 and R247. R226 has the SIZE, SSTRIDE and DSTRIDE entries at or above NDIM be 0, and R227
does not say what another value does: here it is malformed too (DESIGN CHOICE, notes/assumptions/83.md). -/
def Quire.wellFormed (q : Quire) : Bool :=
  decide (q.dir ≤ 3) && decide (q.cscope ≤ 5) && decide (1 ≤ q.ndim) && decide (q.ndim ≤ 16) &&
  decide (field q.block 6 1 < 8) && decide (field q.block 11 1 < 8) && field q.block 12 4 == 0 &&
  (upFrom q.ndim (16 - q.ndim)).all (fun d => q.size d == 0 && q.sstride d == 0 && q.dstride d == 0) &&
  (q.mcast == 0 || (mcastBase q.dbase && (q.dvbase == 0 || mcastBase q.dvbase))) &&
  (q.dir == 3 || field q.block 11 1 == 0) &&
  match q.dir with
  | 0 => rowFmt q.sfmt && q.dfmt == q.sfmt && q.p == 0 && q.pv == 0 && !q.opt 0 && !q.opt 2 && q.scale == 0 &&
      q.svbase == 0 && q.dvbase == 0
  | 1 => rowFmt q.sfmt && q.dfmt == folioFmt && q.folioOk q.dstride && (!q.opt 0 || q.pv != 0) &&
      (q.svbase == 0 || q.pv != 0) && q.dvbase == 0
  | _ => rowFmt q.dfmt && !q.opt 2 && (!q.opt 0 || q.dvbase != 0) &&
      (if q.sfmt = 0 then q.p == 0 && q.pv == 0
       else q.sfmt == folioFmt && q.folioOk q.sstride && !q.opt 1 && q.svbase == 0)

/-! ### Shapes and addresses (R229, R230) -/

/-- The index vectors of a shape, in ravel order. -/
def vectors : List Nat → List (List Nat)
  | [] => [[]]
  | n :: ns => (vectors ns).flatMap (fun v => (upFrom 0 n).map (fun i => i :: v))

/-- Σ i_d · stride_d over dimensions numbered from d on. -/
def dotFrom (stride : Nat → Int) : Nat → List Nat → Int
  | _, [] => 0
  | d, i :: is => (i : Int) * stride d + dotFrom stride (d + 1) is

/-- Where row element n of a format lies: the first byte, the bytes and the number of its lowest bit in them. -/
def rowSpan (base fmt : Nat) (n : Int) : Int × Nat × Nat :=
  if fmt = 6 then
    let b := 6 * (n % 4).toNat
    ((base : Int) + 3 * (n / 4) + ((b / 8 : Nat) : Int), (b + 5) / 8 - b / 8 + 1, b % 8)
  else ((base : Int) + n * ((fmtBits fmt / 8 : Nat) : Int), fmtBits fmt / 8, 0)

/-- The tile number of an index vector. -/
def tileNumber (stride : Nat → Int) (v : List Nat) : Int := dotFrom stride 2 (v.drop 2)

/-- Where a folio tile lies. -/
def tileSpan (q : Quire) (base : Nat) (t : Int) : Int × Nat :=
  ((base : Int) + t * ((folioSize q.p q.pv : Nat) : Int), folioSize q.p q.pv)

/-- The element number in its tile of an index vector. -/
def tileElem (v : List Nat) : Nat := 32 * nth 0 v 1 + nth 0 v 0

/-- The bytes of the source that an index vector needs: an element or its tile, then a variance element. A folio tile is read as a whole,
the planes that the narrowing does not use among them (DESIGN CHOICE, notes/assumptions/96.md). -/
def Quire.sourceSpans (q : Quire) (v : List Nat) : List (Int × Nat) :=
  if q.sfmt = folioFmt then [tileSpan q q.sbase (tileNumber q.sstride v)]
  else
    let n := dotFrom q.sstride 0 v
    let r := rowSpan q.sbase q.sfmt n
    (r.1, r.2.1) :: (if q.svbase = 0 then [] else [((q.svbase : Int) + 4 * n, 4)])

/-- The bytes of the destination that an index vector writes, on the core DBASE names. -/
def Quire.destSpans (q : Quire) (v : List Nat) : List (Int × Nat) :=
  if q.dfmt = folioFmt then [tileSpan q q.dbase (tileNumber q.dstride v)]
  else
    let n := dotFrom q.dstride 0 v
    let r := rowSpan q.dbase q.dfmt n
    (r.1, r.2.1) :: (if q.dvbase = 0 then [] else [((q.dvbase : Int) + 4 * n, 4)])

/-- The offsets that a multicast adds to a destination address, 0 alone without one (R247). -/
def Quire.receivers (q : Quire) : List Nat :=
  if q.mcast = 0 then [0] else ((upFrom 0 16).filter (fun c => q.mcast.testBit c)).map (fun c => c * 2 ^ 19)

/-- The nominal count C (R246). -/
def Quire.nominal (q : Quire) : Nat :=
  let sizes := q.sizes
  let copies := if q.mcast = 0 then 1 else (q.receivers).length
  if 3 < q.dir ∨ q.ndim = 0 ∨ 16 < q.ndim ∨ sizes.any (fun n => n == 0) = true then 0
  else if q.dir = 1 then
    if q.p < 2 ∨ 24 < q.p ∨ 12 < q.pv then 0
    else (((vectors (sizes.drop 2)).map (fun v => dotFrom q.dstride 2 v)).eraseDups).length * folioSize q.p q.pv * copies
  else (sizes.foldl (fun a n => a * n) 1 * fmtBits q.dfmt + 7) / 8 * copies

/-! ### Checks before anything is moved (R242) -/

/-- The alignment a side's base needs (R230). -/
def baseAlign (fmt : Nat) : Nat := if fmt = folioFmt then 128 else if fmt = 6 then 1 else fmtBits fmt / 8

/-- The bases a quire uses, each with its alignment. -/
def Quire.bases (q : Quire) : List (Nat × Nat) :=
  [(q.sbase, baseAlign q.sfmt), (q.dbase, baseAlign q.dfmt)] ++
  (if q.svbase = 0 then [] else [(q.svbase, 4)]) ++ (if q.dvbase = 0 then [] else [(q.dvbase, 4)])

/-- The spans of the quire over its whole shape, and of its receivers. -/
def Quire.allSpans (q : Quire) : List (Int × Nat) × List (Int × Nat) :=
  let vs := vectors q.sizes
  ((vs.flatMap q.sourceSpans).eraseDups,
   (((vs.flatMap q.destSpans).eraseDups).flatMap (fun x => q.receivers.map (fun (c : Nat) => (x.1 + (c : Int), x.2)))).eraseDups)

/-- A destination span of a multicast whose offsets are none of an allocation's: another receiver's address would result (R247). -/
def Quire.astray (q : Quire) (x : Int × Nat) : Bool :=
  q.mcast != 0 && (decide (x.1 < scratchBase) || decide ((scratchBase + 2 ^ 19 : Nat) < x.1 + (x.2 : Int)))

/-- A span in the scratchpad aperture that the unit's allocations do not hold (R24). -/
def outside (u : UnitSt) (x : Int × Nat) : Bool :=
  (checkSpan x.1 x.2).isNone && decide (aperture x.1.toNat = 1) && (scratchSpot u x.1.toNat x.2).isNone

/-- The first condition of R242 that ends the quire before it moves anything: its cause with the addresses it is found at. -/
def Quire.early (q : Quire) (u : UnitSt) : Option (Nat × List Nat) :=
  if !q.wellFormed then some (0x40, [])
  else match (q.bases.filter (fun b => b.1 % b.2 != 0)).map Prod.fst with
  | a :: as => some (0x0D, a :: as)
  | [] => match (q.bases.map Prod.fst).filter (fun b => aperture b == 2) with
    | a :: as => some (0x0C, a :: as)
    | [] =>
      let (src, dst) := q.allSpans
      match (src ++ dst).filter (outside u) ++ ((vectors q.sizes).flatMap q.destSpans).filter q.astray with
      | x :: xs => some (0x0B, (x :: xs).map (fun y => y.1.toNat))
      | [] => none

/-! ### Moving elements -/

/-- Where spans lie, or why not. -/
abbrev Places := List ((Int × Nat) × Except EngStop (List (Spot × Nat)))

/-- Every span translated. -/
def placeSpans (g : Eng) (u : UnitSt) (need : Need) (spans : List (Int × Nat)) (s : State) : Places × State :=
  spans.foldl (fun r x => match engineSpots g (some u) x.1 x.2 need r.2 with
    | .ok (s, ps) => (r.1 ++ [(x, .ok ps)], s)
    | .error (s, e) => (r.1 ++ [(x, .error e)], s)) ([], s)

/-- Where spans lie, without any effect of asking. -/
def peekSpans (g : Eng) (u : UnitSt) (need : Need) (spans : List (Int × Nat)) (s : State) : Places × State :=
  let (pl, s') := placeSpans g u need spans s
  (pl, { s with free := s'.free })

/-- The physical addresses of the bytes of places. -/
def placedAt (pl : Places) : List Nat :=
  (pl.flatMap (fun x => match x.2 with
    | .ok ps => (upFrom 0 x.1.2).filterMap (fun k => match spotAt ps k with | .at pa _ => some pa | .log _ _ => none)
    | .error _ => [])).eraseDups

/-- A gathered source outside device memory (R243): an element that the strides take into the stack aperture is one, and so is one of
the variance tensor at SVBASE (DESIGN CHOICE, notes/assumptions/96.md). -/
def gatherOut (x : (Int × Nat) × Except EngStop (List (Spot × Nat))) : Bool :=
  match x.2 with
  | .ok ps => ps.any (fun p => match p.1 with | .at pa _ => decide (2 ^ 40 ≤ pa) | .log _ _ => false)
  | .error (.fault c _) => c == 0x0B || c == 0x0C
  | .error .wait => false

/-- The pieces of a span, none that failed. -/
def placed (pl : Places) (x : Int × Nat) : List (Spot × Nat) :=
  match pl.find? (fun y => y.1 == x) with
  | some (_, .ok ps) => ps
  | _ => []

/-- Every span has a place. -/
def allPlaced (pl : Places) (xs : List (Int × Nat)) : Bool :=
  xs.all (fun x => pl.any (fun y => y.1 == x && match y.2 with | .ok _ => true | .error _ => false))

/-- The number that the bytes of a span form. -/
def spanValue (pl : Places) (bytes : AMap Byte) (x : Int × Nat) : Nat :=
  let ps := placed pl x
  spanNat bytes ((upFrom 0 x.2).map (paAt ps))

/-- Bytes to be written, by address on the core DBASE names: value and changed bits. Where two index vectors write the same
bits, one of them remains (R245). -/
abbrev Image := AMap (Byte × Byte)

/-- A byte's bits put into an image. -/
def imagePut (a : Nat) (v m : Byte) (x : Image × State) : Image × State :=
  if m = 0 then x
  else match amGet a x.1 with
    | none => (amPut a (v &&& m, m) x.1, x.2)
    | some (w, n) =>
      if m &&& n = 0 then (amPut a ((w ||| (v &&& m)), m ||| n) x.1, x.2)
      else
        let (k, s) := choose 2 x.2
        if k = 0 then (amPut a ((w ||| (v &&& m &&& ~~~n)), m ||| n) x.1, s)
        else (amPut a (((w &&& ~~~m) ||| (v &&& m)), m ||| n) x.1, s)

/-- A code of a format at row element n put into an image; an element whose address is below 0 has no place there. -/
def imageCode (base fmt : Nat) (n : Int) (code : Nat) (x : Image × State) : Image × State :=
  let (a, len, sh) := rowSpan base fmt n
  if a < 0 then x
  else (upFrom 0 len).foldl (fun x i =>
    imagePut (a.toNat + i) (BitVec.ofNat 8 (code % 2 ^ fmtBits fmt * 2 ^ sh / 2 ^ (8 * i)))
      (BitVec.ofNat 8 ((2 ^ fmtBits fmt - 1) * 2 ^ sh / 2 ^ (8 * i))) x) x

/-- The source element of an index vector: its code or exact value, and its variance. -/
def Quire.element (q : Quire) (pl : Places) (bytes : AMap Byte) (v : List Nat) : Nat × FVal × FVal :=
  match q.sourceSpans v with
  | [] => (0, .nan, .nan)
  | x :: xs =>
    if q.sfmt = folioFmt then
      match folioElem (spanValue pl bytes x) q.p q.pv (tileElem v) with
      | none => (0, .fin false 0 0, .fin false 0 0)
      | some e => (0, if e.s = 0 then .fin false 0 0 else e.mean q.p, if q.pv = 0 then .fin false 0 0 else e.var q.pv)
    else
      let r := rowSpan q.sbase q.sfmt (dotFrom q.sstride 0 v)
      let code := spanValue pl bytes x / 2 ^ r.2.2 % 2 ^ fmtBits q.sfmt
      (code, fmtValue q.sfmt code, match xs with | [] => .fin false 0 0 | y :: _ => (fmtValue 0 (spanValue pl bytes y)).abs)

/-- SAT and NAN of what has been converted, and the image. -/
structure Moved where
  image : Image
  sat : Bool
  nan : Bool

/-- One index vector (number nr in ravel order) of RAW or a narrowing moved (R238 to R241). -/
def Quire.move (q : Quire) (pl : Places) (bytes : AMap Byte) (nr : Nat) (v : List Nat) (m : Moved) (s : State) : Moved × State :=
  let (code, x, vs) := q.element pl bytes v
  let n := dotFrom q.dstride 0 v
  if q.dir = 0 then
    let (im, s) := imageCode q.dbase q.dfmt n code (m.image, s)
    ({ m with image := im }, s)
  else
    let y := x.times q.scale
    let (c, sat, nan, term) := if q.dir = 3 then
        stochasticCode q.dfmt y (uniformOf (peal q.key (dw nr) q.pos).w0)
      else
        let r := narrowCode q.dfmt y
        (r.1, r.2.1, r.2.2, roundVar (pow2 (codeUlp q.dfmt r.1)))
    let (im, s) := imageCode q.dbase q.dfmt n c (m.image, s)
    let (im, s) := if q.dvbase = 0 then (im, s)
      else imageCode q.dvbase 0 n (narrowVar (vs.times (2 * q.scale)) (if q.opt 0 then some term else none) sat nan).toNat (im, s)
    ({ image := im, sat := m.sat || sat, nan := m.nan || nan }, s)

/-- The tile that one combination of the outer dimensions expands to (R235 to R237): the bytes of it that no element has bits in which
`keep` does not admit. -/
def Quire.expandTile (q : Quire) (pl : Places) (bytes : AMap Byte) (keep : List Nat → Bool) (outer : List Nat) (m : Moved) (s : State) : Moved × State :=
  let within (k : Nat) : Bool := decide (k % 32 < q.size 0) && decide (k / 32 < q.size 1)
  let read (k : Nat) : Bool := keep (k % 32 :: k / 32 :: outer)
  let at_ (k : Nat) : Option FolioVal × Bool × Bool :=
    if within k && read k then
      let (_, x, vs) := q.element pl bytes (k % 32 :: k / 32 :: outer)
      expandElem (x.times q.scale) (vs.times (2 * q.scale)) q.p q.pv (q.opt 0) (q.opt 2)
    else (none, false, false)
  let es := (upFrom 0 1024).map at_
  let bs := folioBytes q.p q.pv (fun k => (nth (none, false, false) es k).1)
  let unread := folioBytes q.p q.pv (fun k => if within k && !read k then some ⟨-1, -1, -1, 2 ^ q.pv - 1, 2 ^ q.pv - 1⟩ else none)
  let base := (tileSpan q q.dbase (dotFrom q.dstride 2 outer)).1
  let (im, s) := if base < 0 then (m.image, s)
    else ((bs.zip unread).zip (upFrom base.toNat bs.length)).foldl (fun x b => if b.1.2 = 0 then imagePut b.2 b.1.1 0xFF x else x) (m.image, s)
  ({ image := im, sat := m.sat || es.any (fun e => e.2.1), nan := m.nan || es.any (fun e => e.2.2) }, s)

/-- The index vectors that `keep` admits, moved: the image of the destination on the core DBASE names. -/
def Quire.moveAll (q : Quire) (pl : Places) (bytes : AMap Byte) (keep : List Nat → Bool) (s : State) : Moved × State :=
  if q.dir = 1 then
    (vectors (q.sizes.drop 2)).foldl (fun r o => q.expandTile pl bytes keep o r.1 r.2) (⟨[], false, false⟩, s)
  else
    ((vectors q.sizes).zip (upFrom 0 (vectors q.sizes).length)).foldl (fun r x =>
      if keep x.1 then q.move pl bytes x.2 x.1 r.1 r.2 else r) (⟨[], false, false⟩, s)

/-- Where byte a of a destination lies. -/
def byteSpot (dst : Places) (a : Int) : Option Spot :=
  dst.findSome? (fun x => match x.2 with
    | .ok ps => if x.1.1 ≤ a ∧ a < x.1.1 + (x.1.2 : Int) then some (spotAt ps (a - x.1.1).toNat) else none
    | .error _ => none)

/-- The cells that an image gives a receiver. -/
def imageCells (dst : Places) (im : Image) (c : Nat) : List Cell :=
  im.filterMap (fun x => (byteSpot dst ((x.1 + c : Nat) : Int)).map (fun sp => (sp, x.2.1, x.2.2)))

/-! ### The run of a quire -/

/-- The quire's accesses: of its team's context, through its core's TLBs. -/
def quireEng (op : Nat) (o : Op) : Eng :=
  { who := .op op, agent := agentEngine op, ctx := o.ctx, die := dieOf o.gcore, core := some o.gcore, ord := op, phase := o.phase }

/-- Stage 1: the quire's end is known, its writes are made. -/
def endQuire (op : Nat) (q : Quire) (state cause : Nat) (fpage : Nat) (gather sat nan : Bool) (count : Nat) (s : State) : State :=
  setBody op (.quire { q with
    stage := 1, count := count,
    status := state + b2n sat * 2 ^ 4 + b2n nan * 2 ^ 5 + b2n gather * 2 ^ 6 + cause * 2 ^ 8 + fpage / 2 ^ 16 * 2 ^ 16 }) s

/-- The block with its CTR field 0: no add is made. -/
def Quire.noCounter (q : Quire) : Quire := { q with block := q.block.take 48 ++ natBytes 8 0 ++ q.block.drop 56 }

/-- Granules of which every byte among `targets` has been written become full (R50, R225, R246). -/
def fillWhole (targets done : List Nat) (s : State) : State :=
  fillGranules ((((done.filter (fun a => decide (2 ^ 48 ≤ a))).map (fun a => a / 16)).eraseDups).filter (fun g =>
    targets.all (fun a => a / 16 != g || done.contains a))) s

/-- A write of only some bits of a byte that lies in a log (R244). -/
def bitsInLog (c : Cell) : Bool := match c.1 with | .log _ _ => c.2.2 != 0xFF | .at _ _ => false

/-- Cells written or appended, and the granules whose every byte they complete made full (R246); what a log cannot take is left
(R244). -/
def Quire.put (q : Quire) (g : Eng) (o : Op) (dst : Places) (cells : List Cell) (s : State) : Quire × State :=
  let s := writeCells g.agent o g.ord (cells.filter (fun c => !bitsInLog c)) s
  ({ q with rest := (cells.filter bitsInLog).filterMap (fun c => match c.1 with
      | .log k off => some (k, off, c.2.1, c.2.2)
      | .at _ _ => none) },
   fillWhole (placedAt dst) (cells.filterMap (fun c => match c.1 with | .at pa _ => some pa | .log _ _ => none)) s)

/-- The physical addresses that the destinations of the other running quires have. -/
def otherTargets (op : Nat) (s : State) : List Nat :=
  s.ops.flatMap (fun x => match x.2.body, amGet x.2.unit s.units with
    | .quire y, some u =>
      if x.1 = op || (y.early u).isSome then [] else placedAt (placeSpans (quireEng x.1 x.2) u needStore (y.allSpans).2 s).1
    | _, _ => [])

/-- The source bytes of a quire; those that it or another running quire overwrites read as unpredictable values (R245). -/
def sourceBytes (op : Nat) (g : Eng) (src dst : Places) (s : State) : AMap Byte × State :=
  let (bytes, s) := engineBytes g.agent (placedAt src) s
  let targets := placedAt dst ++ otherTargets op s
  let both := (placedAt src).filter targets.contains
  let (fr, s) := drawBytes both.length s
  ((both.zip fr).foldl (fun m x => amPut x.1 x.2 m) bytes, s)

/-- The elements whose source has its place. -/
def Quire.readable (q : Quire) (src : Places) (v : List Nat) : Bool := allPlaced src (q.sourceSpans v)

/-- SAT and NAN of a quire that ends early: of the elements it may have converted, those that it did are open (R228). -/
def someFlags (m : Moved) (s : State) : (Bool × Bool) × State :=
  let (sat, s) := choose (if m.sat then 2 else 1) s
  let (nan, s) := choose (if m.nan then 2 else 1) s
  ((sat == 1, nan == 1), s)

/-- A cancelled quire (R225): what of its destination it wrote is open, and so are the values there; a granule is full exactly when
every byte was written. -/
def cancelQuire (op : Nat) (o : Op) (q : Quire) (u : UnitSt) (s : State) : State :=
  let g := quireEng op o
  let (src, s) := peekSpans g u needLoad (q.allSpans).1 s
  let (dst, s) := peekSpans g u needStore (q.allSpans).2 s
  let (bytes, s) := sourceBytes op g src dst s
  let (m, s) := q.moveAll src bytes (q.readable src) s
  let ((sat, nan), s) := someFlags m s
  let spots := (dst.flatMap (fun x => match x.2 with
    | .ok ps => (upFrom 0 x.1.2).map (spotAt ps)
    | .error _ => [])).eraseDups
  let (bs, s) := drawBytes spots.length s
  let (cells, s) := pickSome ((spots.zip bs).map (fun x => (x.1, x.2, (0xFF : Byte)))) s
  let (q, s) := q.put g o dst cells s
  endQuire op q 4 0 0 false sat nan q.nominal s

/-- A quire that meets a fault as it runs ends (R242): which of its other writes were made is open. -/
def failQuire (op : Nat) (o : Op) (q : Quire) (cause addr : Nat) (gather : Bool) (src dst : Places) (s : State) : State :=
  let g := quireEng op o
  let (bytes, s) := sourceBytes op g src dst s
  let (m, s) := q.moveAll src bytes (q.readable src) s
  let (cells, s) := pickSome (q.receivers.flatMap (imageCells dst m.image)) s
  let (q, s) := q.put g o dst cells s
  let ((sat, nan), s) := someFlags m s
  leaveMerge (.op op) (endQuire op q 3 cause addr gather sat nan q.nominal s)

/-- A failure delivered to a quire that waited for a page of n bytes ends it (R242, R285): a gathering unit has found it if it lies in
the source (R243). -/
def failedPage (op : Nat) (o : Op) (q : Quire) (u : UnitSt) (cause page n : Nat) (s : State) : State :=
  let g := quireEng op o
  let hits (l : List (Int × Nat)) : List (Int × Nat) :=
    l.filter (fun x => decide (x.1 < ((page + n : Nat) : Int)) && decide ((page : Int) < x.1 + (x.2 : Int)))
  let ins := hits (q.allSpans).1
  let outs := hits (q.allSpans).2
  let (k, s) := choose (if ins.isEmpty || outs.isEmpty then 1 else 2) s
  let fromSource := !ins.isEmpty && k == 0
  let (a, s) := faultAddr (if fromSource then ins else outs) page n s
  let (src, s) := peekSpans g u needLoad (q.allSpans).1 s
  let (dst, s) := peekSpans g u needStore (q.allSpans).2 s
  failQuire op o q cause a (q.opt 1 && fromSource) src dst s

/-- A stack has no pattern left for a quire (R243). -/
def gatherFull (op : Nat) (ks : List Nat) (s : State) : Bool :=
  ks.any (fun k => decide (32 ≤ (s.ops.filter (fun x => x.1 != op && match x.2.body with
    | .quire y => y.gathers.contains k
    | _ => false)).length))

/-- A quire whose every byte has its place runs: it reads, converts and writes (R229 to R247). One that gathers first takes a pattern
in every stack it reads (R243). -/
def runQuire (op : Nat) (o : Op) (q : Quire) (src dst : Places) (s : State) : State :=
  let g := quireEng op o
  let ks := if q.opt 1 then ((placedAt src).map stackOf).eraseDups else []
  if gatherFull op ks s then s
  else
    let (bytes, s) := sourceBytes op g src dst s
    let (m, s) := q.moveAll src bytes (fun _ => true) s
    let (q, s) := { q with gathers := ks }.put g o dst (q.receivers.flatMap (imageCells dst m.image)) s
    endQuire op q 2 0 0 false m.sat m.nan q.nominal s

/-- The faults and waits among places. -/
def troubles (pl : Places) : Bool × Bool :=
  (pl.any (fun x => match x.2 with | .error (.fault _ _) => true | _ => false),
   pl.any (fun x => match x.2 with | .error .wait => true | _ => false))

/-- The faults among places: cause, address, and whether a gathering unit has found it. -/
def faultsOf (pl : Places) (gather : Bool) : List (Nat × DWord × Bool) :=
  pl.filterMap (fun x => match x.2 with | .error (.fault c a) => some (c, a, gather) | _ => none)

/-- Stage 0 of a quire whose counter has been judged. -/
def startQuire (op : Nat) (o : Op) (q : Quire) (u : UnitSt) (s : State) : State :=
  match q.early u with
  | some (cause, as) =>
    let (a, s) := pickOne 0 as s
    endQuire op q 3 cause a false false false q.nominal s
  | none =>
    let g := quireEng op o
    let (src, s) := placeSpans g u needLoad (q.allSpans).1 s
    if q.opt 1 && src.any gatherOut then
      let (a, s) := pickOne 0 ((src.filter gatherOut).map (fun x => x.1.1.toNat)) s
      leaveMerge (.op op) (endQuire op q 3 0x41 a false false false q.nominal s)
    else
      let (dst, s) := placeSpans g u needStore (q.allSpans).2 s
      let (f1, w1) := troubles src
      let (f2, w2) := troubles dst
      if f1 || f2 then
        -- which of several faults is found first is open, and a wait may come before it
        let (k, s) := choose (if w1 || w2 then 2 else 1) s
        if k = 0 then
          let ((c, a, gather), s) := pickOne (0x12, 0, false) (faultsOf src (q.opt 1) ++ faultsOf dst false) s
          failQuire op o q c a.toNat gather src dst s
        else s
      else if w1 || w2 then s
      else runQuire op o q src dst s

/-- Quires that CPY.CANCEL operations wait for are gone: those are complete (R225). -/
def settleCancels (s : State) : State :=
  (s.ops.filter (fun o => match o.2.body with
    | .cpyCancel qs => qs.all (fun n => (amGet n s.ops).isNone)
    | _ => false)).foldl (fun s o => endOp o.1 s) s

/-- The writes of single bits that a quire has left: each is made in its tile's frame once the tile is in, and starts its arrival until
then (R244). -/
def settleRest (op : Nat) (o : Op) (q : Quire) (s : State) : Quire × State :=
  let g := quireEng op o
  q.rest.foldl (fun (r : Quire × State) x => match amGet x.1 r.2.tiles with
    | none => r
    | some t => match t.state, t.frame with
      | .resident, some f => (r.1, writeUnit g.agent [(.at (f * 2 ^ 16 + x.2.1) 0, x.2.2)] r.2)
      | _, _ => ({ r.1 with rest := r.1.rest ++ [x] },
          if r.1.rest.any (fun y => y.1 == x.1) then r.2 else engJoin g false t.va.toNat t.leaf 0 (startArrival x.1 r.2)))
    ({ q with rest := [] }, s)

/-- The tick of a quire's completion (R396): the latest one, for every tile of the team whose first operation, issued or to come, the
quire was handed over before. -/
def noteQuire (op team : Nat) (s : State) : State :=
  let late (m : MatOp) : MatOp := { m with cin := s.toll }
  { s with
    teams := amMod team (fun t => { t with
      quireTick := s.toll
      stamps := t.stamps.map (fun x => if op < x.2.ord then (x.1, { x.2 with cin := s.toll }) else x) }) s.teams
    ops := s.ops.map (fun x => if x.2.team = team ∧ op < x.1 then (x.1, { x.2 with body := match x.2.body with
      | .matrix m => .matrix (late m)
      | .partner m n => .partner (late m) n
      | b => b }) else x) }

/-- The quire's last steps (R246): OVF.NARROW, STATUS and the counter add, once its writes are performed at CSCOPE. A counter whose page
has failed gets no add; without an add, what was written is released at CSCOPE all the same (R38, R42; notes/assumptions/84.md). -/
def concludeQuire (op : Nat) (o : Op) (q : Quire) (s : State) : State :=
  let g := quireEng op o
  let add : EngRes Nat := if q.ctr = 0 ∨ o.fault.isSome = true then .error (s, .fault 0 0) else engineCounter g q.ctr true s
  match add with
  | .error (s, .wait) => s
  | r =>
    let s := match r with | .ok (s, _) => s | .error (s, _) => s
    let s := match amGet o.team s.teams with
      | none => s
      | some t => if (q.status / 2 ^ 4 % 4 != 0) && !t.exited then setOvf o.team 2 s else s
    let s := match r with
      | .ok _ => s
      | .error _ => releaseOwn g.agent { agent := g.agent, pos := .core o.gcore, scope := q.cscope, full := false, all := true, counter := none } s
    let s := match amGet o.unit s.units with
      | none => s
      | some u => match scratchSpot u (q.va.toNat + 56) 8 with
        | none => s
        | some p => writeRuns g.agent none [(p, natBytes 8 q.status)] s
    let s := match r with
      | .ok (_, pa) => addCounter g.agent o.team (.core o.gcore) q.cscope pa q.count o.ctx o.gcore
          (match amGet o.team s.teams with | some t => t.idx | none => 0) q.ctr s
      | .error _ => s
    let s := noteQuire op o.team s
    settleCancels (endOp op (inherit (agentEngine op) (agentUnit o.unit) s))

/-- The completion of a quire whose end is known: the writes it has left, then those that no log has taken, and at SYSTEM scope the
logs, are waited for (R244, R246). A CPY.CANCEL may reach it until it has completed (R225). -/
def completeQuire (op : Nat) (o : Op) (q : Quire) (s : State) : State :=
  let g := quireEng op o
  let (k, s) := choose (if q.cancelled && q.status % 16 == 2 then 2 else 1) s
  if k = 1 then
    -- what its wait for a tile came to is no concern of a cancelled quire; its counter's page is (R225, R242)
    leaveMerge (.op op) (setBody op (.quire { q with rest := [], status := q.status + 2 })
      { s with ops := amMod op (fun o => { o with fault := o.fault.filter (fun x => q.ctr.toNat / x.2.2 == x.2.1 / x.2.2) }) s.ops })
  else match q.rest, o.fault with
  | _ :: _, some (c, page, n) =>
    let (a, s) := faultAddr [((page : Int), n)] page n s
    endQuire op { q with rest := [] } 3 c a false (q.status.testBit 4) (q.status.testBit 5) q.count
      { s with ops := amMod op (fun o => { o with fault := none }) s.ops }
  | _ :: _, none =>
    let (q, s) := settleRest op o q s
    setBody op (.quire q) s
  | [], _ =>
    if appendsOut s g.agent op then s
    else if q.cscope = 5 ∧ q.stage = 1 then startLogs g.agent (setBody op (.quire { q with stage := 2 }) s)
    else if q.cscope = 5 && logsOut s g.agent then s
    else concludeQuire op o q s

/-- A CPY.FENCE of the team issued before the quire was handed over is outstanding (R224). -/
def quireFenced (s : State) (op : Nat) (o : Op) : Bool :=
  s.ops.any (fun f => decide (f.1 < op) && decide (f.2.team = o.team) && f.2.body == .cpyFence)

/-- QUIRE_COMPLETE (R222, R242, R246): a quire runs and ends, then completes. Its counter is judged in every case; a failing one
gets no add. -/
def execQuireComplete (op : Nat) (s : State) : Out :=
  match amGet op s.ops with
  | none => .next s
  | some o => match o.body, amGet o.unit s.units with
    | .quire q, some u =>
      if isMerged s (.op op) then .next s
      else if q.stage ≠ 0 then .next (completeQuire op o q s)
      else if quireFenced s op o then .next s
      else
        let g := quireEng op o
        let go (q : Quire) (s : State) : Out :=
          let (k, s) := choose (if q.cancelled then 2 else 1) s
          let s' := startQuire op o q u s
          -- a cancelled quire that has not completed ends as cancelled, waiting or not
          if q.cancelled && (k == 0 || (match amGet op s'.ops with
              | some x => (match x.body with | .quire y => y.stage == 0 | _ => true)
              | none => true)) then
            (match q.early u with
             | some _ => .next s'
             | none => .next (cancelQuire op o q u s))
          else .next s'
        match o.fault with
        | some (c, a, n) =>
          let s := { s with ops := amMod op (fun o => { o with fault := none }) s.ops }
          if q.ctr != 0 && q.ctr.toNat / n == a / n then
            match q.early u with
            | some (cause, as) =>
              let (x, s) := pickOne 0 as s
              .next (endQuire op q.noCounter 3 cause x false false false q.nominal s)
            | none => .next (endQuire op q.noCounter 3 c q.ctr.toNat false false false q.nominal s)
          else .next (failedPage op o q u c a n s)
        | none =>
          if q.ctr = 0 then go q s
          else match engineCounter g q.ctr true s with
            | .ok (s, _) => go q s
            | .error (s, .wait) => .next s
            | .error (s, .fault c a) => match q.early u with
              | some (cause, as) =>
                let (x, s) := pickOne 0 as s
                .next (endQuire op q.noCounter 3 cause x false false false q.nominal s)
              | none => .next (endQuire op q.noCounter 3 c a.toNat false false false q.nominal s)
    | _, _ => .next s

/-! ### The instructions (R223 to R225) -/

/-- CPY.GO (R221, R223): it issues once a slot is free; the checks in order, then the block is read, STATUS is RUNNING and the quire
runs. -/
def execCpyGo (a : BitVec 5) (s : State) : Out :=
  onePass 4 (fun s i f t =>
    let va := sGet t f.handler a.toNat
    if accessHeld s f.team then .error (s, .stall)
    else if decide (4 ≤ (s.ops.filter (fun o => decide (o.2.gcore = t.gcore) && match o.2.body with | .quire _ => true | _ => false)).length) then
      .error (s, .stall)
    else match checkSpan va.toNat 256, amGet t.unit s.units with
    | some c, _ => .error (s, .trap c va 0)
    | none, none => .error (s, .stall)
    | none, some u =>
      if aperture va.toNat ≠ 1 then .error (s, .trap 0x0B va 0)
      else match scratchSpot u va.toNat 256 with
        | none => .error (s, .trap 0x0B va 0)
        | some p =>
          if va.toNat % 256 ≠ 0 then .error (s, .trap 0x0D va 0)
          else
            let (bytes, s) := readSpans f.team [(p, 256)] s
            let block := (upFrom p 256).map (fun x => smGet 0 x bytes)
            let s := teamWrite i f t none (placeBytes [(.at (p + 56) 0, 8)] (natBytes 8 1)) s
            let st := streamOf t (field block 11 1 % 8)
            let op := s.seq
            let s := issueOp i f t f.setB
              (.quire { block := block, va := va, key := st.key, pos := st.pos, stage := 0, cancelled := false, status := 1, count := 0, gathers := [], rest := [] }) s
            -- the writes that an earlier CPY.FENCE ordered before this quire's reads (R53)
            .ok { s with hist := s.hist.map (fun w =>
              if w.acq.contains (agentCopy f.team) then { w with acq := agentEngine op :: w.acq } else w) }) s

/-- CPY.FENCE (R53, R224): the team's writes, and those that happen before it, are ordered before the reads of later quires. -/
def execCpyFence (s : State) : Out :=
  onePass 4 (fun s i f t =>
    let s := { s with hist := s.hist.map (fun w =>
      if (w.madeBy f.team ∨ w.acq.contains f.team) ∧ ¬ w.acq.contains (agentCopy f.team) then { w with acq := agentCopy f.team :: w.acq } else w) }
    .ok (issueOp i f t f.setB .cpyFence s)) s

/-- A write of the team issued before number n has not reached its place (R224). -/
def writesPending (s : State) (team n : Nat) : Bool :=
  s.ops.any (fun o => decide (o.2.team = team) && decide (o.2.ord < n) && appendAgent s o.2 == team && match o.2.body with
    | .adds _ => true
    | .append _ _ => true
    | .drainAdd _ => true
    | .ctrAdd .. => true
    | .matrix m => m.kind == 4 || m.kind == 5 || m.kind == 6
    | _ => false) ||
  s.tiles.any (fun t => t.2.held.any (fun h => decide (h.writer = team) && decide (h.stamp < n)))

/-- CPY_FENCE_COMPLETE (R224): every earlier write is visible to the copy engine. -/
def execCpyFenceComplete (op : Nat) (s : State) : Out :=
  match amGet op s.ops with
  | none => .next s
  | some o => match o.body with
    | .cpyFence => if writesPending s o.team op then .next s else .next (endOp op s)
    | _ => .next s

/-- CPY.CANCEL (R225): it marks the running quires of the unit on this core whose block address matches. -/
def execCpyCancel (a : BitVec 5) (s : State) : Out :=
  onePass 4 (fun s i f t =>
    let va := sGet t f.handler a.toNat
    let hits := (s.ops.filter (fun o => decide (o.2.gcore = t.gcore) && decide (o.2.unit = t.unit) && match o.2.body with
      | .quire q => q.va == va
      | _ => false)).map Prod.fst
    if hits.isEmpty then .ok s
    else
      let s := { s with ops := s.ops.map (fun o => if hits.contains o.1 then (o.1, { o.2 with body := match o.2.body with
        | .quire q => .quire { q with cancelled := true }
        | b => b }) else o) }
      -- a matched quire that waits for a page or a tile waits no more
      let s := hits.foldl (fun s n => leaveMerge (.op n) s) s
      .ok (issueOp i f t f.setB (.cpyCancel hits) s)) s

end Sys2Proof.Machine
end

