-- ==== Sys2Proof/Machine/Matrix.lean ====
section
/-! DEFINITION. The matrix engine (R250 to R278): steps, tile shape records, issue checks and the governor, the queue, drains,
MACC, the quad and cluster operations, and completions. -/

namespace Sys2Proof.Machine

/-! ### Steps (R255 to R257) -/

/-- An exact product: mantissa and exponent of two. -/
abbrev Prod2 := Int × Int

/-- The exponent of the leading bit of the largest product, none where every product is 0. -/
def topProd (ps : List Prod2) : Option Int :=
  ps.foldl (fun (m : Option Int) (p : Prod2) => if p.1 = 0 then m else
    let t := topOf p.1.natAbs p.2
    match m with | none => some t | some u => some (max t u)) none

/-- A product truncated toward zero to a multiple of 2^q, in units of 2^q. -/
def truncProd (q : Int) (p : Prod2) : Int :=
  if q ≤ p.2 then p.1 * 2 ^ (p.2 - q).toNat else Int.tdiv p.1 (2 ^ (q - p.2).toNat)

/-- The window sum of products: a number and the exponent of its unit (R255). -/
def windowSum (ps : List Prod2) : Prod2 :=
  match topProd ps with
  | none => (0, 0)
  | some l => ((ps.map (truncProd (l - 48))).foldl (· + ·) 0, l - 48)

/-- RNE32(EXACT(x + S)), with S = 0 leaving x, an infinite x kept and a NaN canonical (R255). -/
def plusSum (x : Word) (t : Prod2) : Word :=
  if t.1 = 0 then x
  else match fval x with
    | .nan => qnan
    | .inf _ => x
    | .fin neg m e =>
      let r := dyAdd (signed neg m) e t.1 t.2
      (roundDy r.1 r.2 false).w

/-- The present pairs K(r, c) of a row of A and a row of B. -/
def presentPairs (a b : List (Option FolioVal)) : List (FolioVal × FolioVal) :=
  (a.zip b).filterMap (fun x => match x.1, x.2 with | some u, some v => some (u, v) | _, _ => none)

/-- What a step is made with: DMMA's variance array, ACCT, and the precisions. -/
structure StepParams where
  dist : Bool
  acct : Bool
  pa : Nat
  pb : Nat
  pv : Nat
  deriving DecidableEq, Repr

/-- One element of a step: its mean and variance from the present pairs (R255 to R257). -/
def stepElem (q : StepParams) (ks : List (FolioVal × FolioVal)) (old : DWord) : DWord :=
  if ks.isEmpty then old
  else
    let d := plusSum (meanOf old) (windowSum (ks.map (fun x =>
      (x.1.s * x.2.s, (x.1.e - ((q.pa : Int) - 2)) + (x.2.e - ((q.pb : Int) - 2))))))
    let cross (x y : FolioVal) : Prod2 := ((x.m * y.v : Nat), (2 * x.e + 2 - (q.pv : Int)) + (y.f - ((q.pv : Int) - 1)))
    let v := if q.dist then
        plusSum (spreadOf old) (windowSum (ks.flatMap (fun x => [cross x.1 x.2, cross x.2 x.1])))
      else spreadOf old
    reg d (finishMom d (account (q.acct && !isNan d) d v)).1

/-- The elements of a folio tile given as the number of its bytes, row by row (R250). -/
def folioRows (tile p pv : Nat) : List (List (Option FolioVal)) :=
  (upFrom 0 32).map (fun r => (upFrom 0 32).map (fun k => folioElem tile p pv (32 * r + k)))

/-- One step of A·Bᵀ into a tile. -/
def matStep (q : StepParams) (ta tb : Nat) (tile : List DWord) : List DWord :=
  let a := folioRows ta q.pa (if q.dist then q.pv else 0)
  let b := folioRows tb q.pb (if q.dist then q.pv else 0)
  (tile.zip (upFrom 0 1024)).map (fun x => stepElem q (presentPairs (nth [] a (x.2 / 32)) (nth [] b (x.2 % 32))) x.1)

/-! ### Tile shape records (R254) -/

/-- PA. -/
def recPa (r : DWord) : Nat := bitsOf r 4 0
/-- PB. -/
def recPb (r : DWord) : Nat := bitsOf r 9 5
/-- PV. -/
def recPv (r : DWord) : Nat := bitsOf r 13 10
/-- KCNT. -/
def recKcnt (r : DWord) : Nat := bitsOf r 17 14
/-- ASTR. -/
def recAstr (r : DWord) : Nat := bitsOf r 28 18
/-- BSTR. -/
def recBstr (r : DWord) : Nat := bitsOf r 39 29
/-- TOFF. -/
def recToff (r : DWord) : Nat := bitsOf r 48 40
/-- ACCT. -/
def recAcct (r : DWord) : Bool := bitsOf r 49 49 == 1
/-- PAIR. -/
def recPair (r : DWord) : Bool := bitsOf r 50 50 == 1
/-- ZABS. -/
def recZabs (r : DWord) : Bool := bitsOf r 51 51 == 1

/-- DMMA and MMAQ.D. -/
def MatOp.dist (m : MatOp) : Bool := m.kind % 16 == 1 || m.kind % 16 == 3

/-- The record is one that an operation of a kind takes (R260, condition 1). -/
def recordOk (kind : Nat) (r : DWord) : Bool :=
  let within (lo hi v : Nat) : Bool := decide (lo ≤ v) && decide (v ≤ hi)
  bitsOf r 63 52 == 0 && (match kind with
    | 0 => within 2 24 (recPa r) && within 2 24 (recPb r)
    | 2 => within 2 24 (recPa r) && within 2 24 (recPb r)
    | 1 => within 2 24 (recPa r) && within 2 24 (recPb r) && within 1 12 (recPv r)
    | 3 => within 2 24 (recPa r) && within 2 24 (recPb r) && within 1 12 (recPv r)
    | 6 => within 2 24 (recPa r) && within 0 12 (recPv r)
    | _ => true)

/-- The array cycles an operation charges (R251, R261, R262). -/
def chargeOf (kind : Nat) (r : DWord) : Nat :=
  let pv := if kind = 1 ∨ kind = 3 then recPv r else 0
  if 3 < kind then 0
  else (if recPa r ≤ 12 then 1 else 2) * max (recPb r) (2 * pv) * (recKcnt r + 1) * (if kind < 2 then 1 else 2)

/-! ### Issue (R258 to R260) -/

/-- Operations in a core's queue. -/
def queueLen (s : State) (gcore : Nat) : Nat :=
  (s.ops.filter (fun o => decide (o.2.gcore = gcore) && o.2.body.queued)).length

/-- A matrix instruction needs every lane of its team (R260). -/
def wholeTeam (f : Frag) (t : Team) : Bool := f.mask == fullMask t.lanes

/-- ILLEGAL-CONVERGENCE with the instruction word (R125). -/
def illegalConvergence (s : State) (f : Frag) : State × Stop := (s, .trap 0x04 0 (dw f.iword.toNat))

/-- A scratchpad offset of a core as an aperture address. -/
def offsetAddr (t : Team) (off : Nat) : DWord := dw (scratchBase + t.gcore % 16 * 2 ^ 19 + off)

/-- The checks of scratchpad operands, each an offset with its span's length (R260, condition 3). -/
def operandCheck (u : UnitSt) (t : Team) (spans : List (Nat × Nat)) : Option (Nat × DWord) :=
  let size := match amGet t.gcore u.scratch with | some (_, n) => n | none => 0
  match spans.find? (fun x => x.1 % 128 != 0), spans.find? (fun x => decide (size < x.1 + x.2)) with
  | some x, _ => some (0x0D, offsetAddr t x.1)
  | none, some x => some (0x0B, offsetAddr t x.1)
  | none, none => none

/-- The wait that a matrix instruction begins: its failure raises TRANSLATION-FAILED with HINFO 0 (R260, R272). -/
def Wait.ofMatrix : Wait → Wait
  | .merge n va _ => .merge n va 4
  | w => w

/-- The pages of a drain's or MACC.LOAD's row, judged as a team's access; HINFO of every trap among them is 0 (R260, R272, R273). -/
def rowPages (i : Nat) (t : Team) (ctx : Nat) (need : Need) : List (Nat × Nat) → Bool → State → Res (List (Spot × Nat))
  | [], _, s => .ok (s, [])
  | (a, n) :: ps, later, s =>
    match teamPage i t ctx a need (dw a) false later 0 s with
    | .error (s, .trap c h _) => .error (s, .trap c h 0)
    | .error (s, .wait w) => .error (s, .wait w.ofMatrix)
    | .error e => .error e
    | .ok (s, sp) =>
      if need.w && sp.counter then .error (s, .trap 0x0E (dw a) 0)
      else if (match sp with | .at pa _ => need.w && behindAppend s i pa n false | .log _ _ => false) then .error (s, .stall)
      else andThen (rowPages i t ctx need ps true s) fun s rest => .ok (s, (sp, n) :: rest)

/-- Where one row of n bytes lies. -/
def rowSpots (i : Nat) (t : Team) (u : UnitSt) (need : Need) (ea : Int) (n : Nat) (s : State) : Res (List (Spot × Nat)) :=
  match checkSpan ea n with
  | some c => .error (s, .trap c (BitVec.ofInt 64 ea) 0)
  | none =>
    let a := ea.toNat
    match aperture a with
    | 1 => (match scratchSpot u a n with
      | none => .error (s, .trap 0x0B (dw a) 0)
      | some p => .ok (s, [(.at p 0, n)]))
    | 2 => .error (s, .trap 0x0C (dw a) 0)
    | _ => rowPages i t u.ctx need (pagePieces 33 a n) false s

/-- The rows, each with its number, placed in ascending address, so that the lowest faulting address decides (R272). -/
def placeRows (i : Nat) (t : Team) (u : UnitSt) (need : Need) (n : Nat) :
    List (Nat × Int) → State → Res (AMap (List (Spot × Nat)))
  | [], s => .ok (s, [])
  | (r, ea) :: rs, s =>
    andThen (rowSpots i t u need ea n s) fun s ps =>
    andThen (placeRows i t u need n rs s) fun s rest =>
    .ok (s, amPut r ps rest)

/-- The 32 rows of an operation (R253), checked at issue (R272, R273). -/
def tileRows (i : Nat) (t : Team) (u : UnitSt) (need : Need) (pair : Bool) (base stride : DWord) (s : State) :
    Res (List (List (Spot × Nat))) :=
  let al : Nat := if pair then 8 else 4
  let rows : List (Nat × Int) := (upFrom 0 32).map (fun r => (r, (base.toNat : Int) + (r : Int) * stride.toInt))
  let sorted := sortBy (fun x y => decide (x.2 ≤ y.2)) rows
  match (if base.toNat % al ≠ 0 ∨ stride.toNat % al ≠ 0 then sorted.find? (fun x => x.2 % (al : Int) != 0) else none) with
  | some x => .error (s, .trap 0x0D (BitVec.ofInt 64 x.2) 0)
  | none => andThen (placeRows i t u need (32 * al) sorted s) fun s m => .ok (s, m.map Prod.snd)

/-- The governor's part in an issue that charges cycles: not ready while USED is at least BUDGET, counted once in STALLS;
otherwise the charge is made (R275). -/
def governed (i : Nat) (f : Frag) (t : Team) (cycles : Nat) (s : State) : Res Unit :=
  if cycles = 0 then .ok (s, ())
  else
    let c := clusterOf t.gcore
    let g := govNow s c
    if g.budget ≠ 0xFFFF ∧ g.budget ≤ g.used then
      if f.delayed then .error (s, .stall)
      else .error (modFrag i (fun f => { f with delayed := true })
        { s with gov := amPut c { g with stalls := min (g.stalls + 1) (2 ^ 32 - 1) } s.gov }, .stall)
    else .ok ({ s with gov := amPut c { g with used := min (g.used + cycles) 0xFFFF } s.gov }, ())

/-- A register that a matrix operation locks: s0 and a handler's bank are no scalar registers of the team's. -/
def lockName (f : Frag) (n : Nat) : Nat := if f.handler && decide (24 ≤ n) then 0 else n

/-- The operation as it enters, with no rows. -/
def matOp (s : State) (f : Frag) (t : Team) (kind tile ts x y : Nat) : MatOp :=
  let r := smGet 0 ts t.ts
  { kind := kind, record := r, a := sGet t f.handler x, b := sGet t f.handler y, tile := tile, batch := t.batch,
    dest := .scalar 0, rows := [], locked := some (ts, lockName f x, lockName f y), issued := s.toll, accepted := s.toll,
    cin := t.quireTick, cycles := chargeOf kind r, members := [] }

/-- A matrix operation on a tile: the checks of R260 in order, its own (`more`, which may place rows), then acceptance. -/
def matrixIssue (kind n ts x y : Nat) (more : State → Nat → Frag → Team → UnitSt → MatOp → Res MatOp)
    (accept : State → Nat → Frag → Team → MatOp → Except (State × Stop) State) (s : State) : Out :=
  onePassTo (fun s i f t =>
    match amGet t.unit s.units with
    | none => .error (s, .stall)
    | some u =>
      let m := matOp s f t kind 0 ts x y
      let tile := n + recToff m.record
      if !wholeTeam f t then .error (illegalConvergence s f)
      else if !recordOk kind m.record || decide (t.accCount ≤ tile) then .error (illegal s f)
      else
        andOk (more s i f t u { m with tile := tile }) fun s m =>
        if 32 ≤ queueLen s t.gcore then .error (s, .stall)
        else andOk (governed i f t m.cycles s) fun s _ => accept s i f t m) s

/-- The operation enters its core's queue, and the fragment goes on (R259). -/
def enterQueue (s : State) (i : Nat) (f : Frag) (t : Team) (m : MatOp) : Except (State × Stop) State :=
  .ok (advance i 4 (issueOp i f t f.setB (.matrix m) s))

/-- The spans of the operands of MMA, DMMA and MMAQ (R260, R261). -/
def operandSpans (m : MatOp) : List (Nat × Nat) :=
  let pv := if m.dist then recPv m.record else 0
  [(m.a.toNat, 128 * recAstr m.record * recKcnt m.record + folioSize (recPa m.record) pv),
   (m.b.toNat, 128 * recBstr m.record * recKcnt m.record + folioSize (recPb m.record) pv)]

/-- The operand check of an operation that reads folios. -/
def withOperands (s : State) (_ : Nat) (_ : Frag) (t : Team) (u : UnitSt) (m : MatOp) : Res MatOp :=
  match operandCheck u t (operandSpans m) with
  | some (c, a) => .error (s, .trap c a 0)
  | none => .ok (s, m)

/-- MMA (R261). -/
def execMma (n : BitVec 9) (t : BitVec 3) (x y : BitVec 5) (s : State) : Out :=
  matrixIssue 0 n.toNat t.toNat x.toNat y.toNat withOperands enterQueue s
/-- DMMA (R261). -/
def execDmma (n : BitVec 9) (t : BitVec 3) (x y : BitVec 5) (s : State) : Out :=
  matrixIssue 1 n.toNat t.toNat x.toNat y.toNat withOperands enterQueue s

/-- The unit has a team on each of the cores. -/
def teamsOn (s : State) (unit : Nat) (cores : List Nat) : Bool :=
  cores.all (fun g => s.teams.any (fun t => decide (t.2.unit = unit) && decide (t.2.gcore = g)))

/-- The cores of a core's quad. -/
def quadCores (g : Nat) : List Nat := upFrom (g / 4 * 4) 4
/-- The cores of a core's cluster. -/
def clusterCores (g : Nat) : List Nat := upFrom (g / 16 * 16) 16

/-- The fragment waits for the partners of its operation, which is the `nth` of its core (R263, R274). -/
def awaitPartners (nth : Nat) (s : State) (i : Nat) (f : Frag) (t : Team) (m : MatOp) : Except (State × Stop) State :=
  let op := s.seq
  .ok (beginWait i (.matrix op) (issueOp i f t f.setB (.partner m nth) s))

/-- MMAQ (R262, R263): the checks of each member, then its number among the core's. ILLEGAL-CONVERGENCE for a quad core without a team
has no place in the order of R260: here it comes after the record and the tile, before the operands, and for MACC.TREE as well
(DESIGN CHOICE, notes/assumptions/85.md). -/
def mmaq (kind n ts x y : Nat) (s : State) : Out :=
  matrixIssue kind n ts x y
    (fun s i f t u m => if !teamsOn s t.unit (quadCores t.gcore) then .error (illegalConvergence s f) else withOperands s i f t u m)
    (fun s i f t m =>
      let k := match amGet t.unit s.units with | some u => smGet 0 t.gcore u.mmaqs | none => 0
      awaitPartners k (modUnit t.unit (fun u => { u with mmaqs := smPut 0 t.gcore (k + 1) u.mmaqs }) s) i f t m) s

/-- MMAQ.M (R262). -/
def execMmaqM (n : BitVec 9) (t : BitVec 3) (x y : BitVec 5) (s : State) : Out := mmaq 2 n.toNat t.toNat x.toNat y.toNat s
/-- MMAQ.D (R262). -/
def execMmaqD (n : BitVec 9) (t : BitVec 3) (x y : BitVec 5) (s : State) : Out := mmaq 3 n.toNat t.toNat x.toNat y.toNat s

/-- A drain of rows: they are checked as a store of the team, and a watchpoint on drains sees them (R272, R391). -/
def drainRows (kind n ts x y : Nat) (s : State) : Out :=
  matrixIssue kind n ts x y
    (fun s i f t u m =>
      let pair := recPair m.record
      if accessHeld s f.team then .error (s, .stall)
      else
        andThen (tileRows i t u needAdd pair m.a m.b s) fun s rows => .ok (s, { m with rows := rows }))
    (fun s i f t m =>
      let len : Nat := if recPair m.record then 256 else 128
      enterQueue (watch i f t 3 ((upFrom 0 32).map (fun (r : Nat) => (0, (m.a.toNat : Int) + (r : Int) * m.b.toInt, len))) s) i f t m) s

/-- MDRAIN.ROWS (R269, R270). -/
def execMdrainRows (n : BitVec 9) (t : BitVec 3) (x y : BitVec 5) (s : State) : Out := drainRows 4 n.toNat t.toNat x.toNat y.toNat s
/-- MDRAIN.ADD (R269, R270). -/
def execMdrainAdd (n : BitVec 9) (t : BitVec 3) (x y : BitVec 5) (s : State) : Out := drainRows 5 n.toNat t.toNat x.toNat y.toNat s

/-- MDRAIN.FOLIO (R269, R271, R272). -/
def execMdrainFolio (n : BitVec 9) (t : BitVec 3) (x : BitVec 5) (s : State) : Out :=
  let size (m : MatOp) : Nat := folioSize (recPa m.record) (recPv m.record)
  matrixIssue 6 n.toNat t.toNat x.toNat 0
    (fun s _ f _ u m =>
      match checkSpan m.a.toNat (size m) with
      | some c => .error (s, .trap c m.a 0)
      | none =>
        if aperture m.a.toNat ≠ 1 then .error (s, .trap 0x0B m.a 0)
        else match scratchSpot u m.a.toNat (size m) with
          | none => .error (s, .trap 0x0B m.a 0)
          | some p =>
            if m.a.toNat % 128 ≠ 0 then .error (s, .trap 0x0D m.a 0)
            else if accessHeld s f.team then .error (s, .stall)
            else .ok (s, { m with rows := [[(.at p 0, size m)]] }))
    (fun s i f t m => enterQueue (watch i f t 3 [(0, (m.a.toNat : Int), size m)] s) i f t m) s

/-- MACC.ZERO (R273). -/
def execMaccZero (n : BitVec 9) (t : BitVec 3) (s : State) : Out :=
  matrixIssue 7 n.toNat t.toNat 0 0 (fun s _ _ _ _ m => .ok (s, m)) enterQueue s

/-- MACC.LOAD (R273): its rows are checked as loads of the team. -/
def execMaccLoad (n : BitVec 9) (t : BitVec 3) (x y : BitVec 5) (s : State) : Out :=
  matrixIssue 8 n.toNat t.toNat x.toNat y.toNat
    (fun s i f t u m =>
      if accessHeld s f.team then .error (s, .stall)
      else andThen (tileRows i t u needLoad (recPair m.record) m.a m.b s) fun s rows => .ok (s, { m with rows := rows }))
    enterQueue s

/-- MACC.TREE (R274); see `mmaq` on the order of its checks. -/
def execMaccTree (n : BitVec 9) (t : BitVec 3) (x : BitVec 5) (s : State) : Out :=
  matrixIssue 9 n.toNat t.toNat x.toNat 0
    (fun s _ f t u m =>
      if !teamsOn s t.unit (clusterCores t.gcore) then .error (illegalConvergence s f)
      else match operandCheck u t [(m.a.toNat, 8192)] with
        | some (c, a) => .error (s, .trap c a 0)
        | none => .ok (s, m))
    (fun s i f t m =>
      let k := match amGet t.unit s.units with | some u => smGet 0 t.gcore u.trees | none => 0
      awaitPartners k (modUnit t.unit (fun u => { u with trees := smPut 0 t.gcore (k + 1) u.trees }) s) i f t m) s

/-- MACC.GOV (R273): no record, no lock. -/
def execMaccGov (d : BitVec 5) (s : State) : Out :=
  onePass 4 (fun s i f t =>
    if !wholeTeam f t then .error (illegalConvergence s f)
    else if 32 ≤ queueLen s t.gcore then .error (s, .stall)
    else .ok (issueOp i f t f.setB (.matrix
      { matOp s f t 10 0 0 0 0 with dest := sDest f.handler d.toNat, locked := none, cycles := 0 }) s)) s

/-- MFEN (R264): the unit's scratchpad stores so far, and the writes that happen before it, are ordered before the operand
reads of the team's later operations (R54). -/
def execMfen (s : State) : Out :=
  onePass 4 (fun s i f t =>
    if !wholeTeam f t then .error (illegalConvergence s f)
    else if 32 ≤ queueLen s t.gcore then .error (s, .stall)
    else
      let a := agentOperand f.team
      let mates := (s.teams.filter (fun e => decide (e.2.unit = t.unit))).map Prod.fst
      let own (w : WriteRec) : Bool := w.madeBy f.team || w.acq.contains f.team || (decide (2 ^ 48 ≤ w.addr) && mates.contains w.writer)
      .ok (issueOp i f t f.setB .mfen { s with hist := s.hist.map (fun w =>
        if own w && !w.acq.contains a then { w with acq := a :: w.acq } else w) })) s

/-- MCOMMIT (R265): it closes the open batch. -/
def execMcommit (d : BitVec 5) (s : State) : Out :=
  onePass 4 (fun s i f t =>
    if !wholeTeam f t then .error (illegalConvergence s f)
    else if 32 ≤ queueLen s t.gcore then .error (s, .stall)
    else .ok (issueOp i f t f.setB (.commit t.batch [{ dest := sDest f.handler d.toNat, val := dw t.batch, live := true }])
      (modTeam f.team (fun t => { t with batch := t.batch + 1 }) s))) s

/-- MWAIT (R266). -/
def execMwait (a : BitVec 5) (s : State) : Out :=
  onePass 4 (fun s i f t =>
    if !wholeTeam f t then .error (illegalConvergence s f)
    else if 32 ≤ queueLen s t.gcore then .error (s, .stall)
    else .ok (issueOp i f t f.setB (.mwait (sGet t f.handler a.toNat).toNat) s)) s

/-! ### Joining (R263, R274) -/

/-- The first partner of each core with the number that all of them have, if every core has one. -/
def partners (s : State) (unit : Nat) (cores : List Nat) (tree : Bool) : Option (List (Nat × Op × MatOp)) :=
  let mine := s.ops.filterMap (fun o => match o.2.body with
    | .partner m n => if o.2.unit = unit ∧ cores.contains o.2.gcore ∧ (m.kind == 9) = tree then some (n, o.1, o.2, m) else none
    | _ => none)
  let groups := (mine.map Prod.fst).eraseDups.map (fun n => cores.filterMap (fun g =>
    (mine.find? (fun x => x.1 == n && decide (x.2.2.1.gcore = g))).map Prod.snd))
  groups.find? (fun g => g.length == cores.length)

/-- The parts of a joint operation enter their queues at once, as the latest of each; the waiting fragments go on. -/
def joinParts (ps : List (Nat × Op × MatOp)) (s : State) : State :=
  let numbers := upFrom s.seq ps.length
  let s : State := { s with seq := s.seq + ps.length }
  (ps.zip numbers).foldl (fun s x =>
    let (old, o, m) := x.1
    resumeAfter (.matrix old) { s with
      ops := amPut x.2 { o with body := .matrix { m with members := numbers, accepted := s.toll } } (amDel old s.ops) }) s

/-- The joint operation of a set of cores, once each has issued its part and its queue has room. -/
def joinCores (unit : Nat) (cores : List Nat) (tree : Bool) (s : State) : Out :=
  if cores.any (fun g => decide (32 ≤ queueLen s g)) then .next s
  else match partners s unit cores tree with
    | none => .next s
    | some ps => .next (joinParts ps s)

/-- MMAQ_JOIN (R263). -/
def execMmaqJoin (unit quad : Nat) (s : State) : Out :=
  match amGet unit s.units with
  | none => .next s
  | some u => joinCores unit (upFrom (u.cluster * 16 + quad % 4 * 4) 4) false s

/-- MACC_TREE_JOIN (R274). -/
def execMaccTreeJoin (unit : Nat) (s : State) : Out :=
  match amGet unit s.units with
  | none => .next s
  | some u => joinCores unit (upFrom (u.cluster * 16) 16) true s

/-! ### Effects on tiles (R259, R268) -/

/-- A tile of +0 throughout. -/
def zeroTile : List DWord := List.replicate 1024 0

/-- A team's tile. -/
def tileGet (s : State) (team tile : Nat) : List DWord :=
  match amGet team s.teams with
  | none => zeroTile
  | some t => smGet zeroTile tile t.acc

/-- A team's tile set. -/
def tilePut (team tile : Nat) (v : List DWord) (s : State) : State :=
  modTeam team (fun t => { t with acc := smPut zeroTile tile v t.acc }) s

/-- An operation's folio for one step: read granule by granule, each with its old or its new contents (R250, R268). -/
def readFolio (o : Op) (off size : Nat) (s : State) : Nat × State :=
  let base := match amGet o.unit s.units with
    | some u => (match amGet o.gcore u.scratch with | some (b, _) => b | none => 0)
    | none => 0
  let pas := upFrom (base + off) size
  let (m, s) := engineBytes (agentOperand o.team) pas s
  (spanNat m pas, s)

/-- The A folio of step k of an operation. -/
def readA (o : Op) (m : MatOp) (k : Nat) (s : State) : Nat × State :=
  readFolio o (m.a.toNat + 128 * recAstr m.record * k) (folioSize (recPa m.record) (if m.dist then recPv m.record else 0)) s
/-- The B folio of step k of an operation. -/
def readB (o : Op) (m : MatOp) (k : Nat) (s : State) : Nat × State :=
  readFolio o (m.b.toNat + 128 * recBstr m.record * k) (folioSize (recPb m.record) (if m.dist then recPv m.record else 0)) s

/-- The parameters of an operation's steps. -/
def MatOp.params (m : MatOp) : StepParams :=
  { dist := m.dist, acct := recAcct m.record, pa := recPa m.record, pb := recPb m.record, pv := recPv m.record }

/-- The steps of MMA and DMMA in order. -/
def runSteps (o : Op) (m : MatOp) (s : State) : State :=
  let (tile, s) := (upFrom 0 (recKcnt m.record + 1)).foldl (fun (r : List DWord × State) k =>
    let (a, s) := readA o m k r.2
    let (b, s) := readB o m k s
    (matStep m.params a b r.1, s)) (tileGet s o.team m.tile, s)
  tilePut o.team m.tile tile s

/-- 1,024 free elements. -/
def drawTile : Nat → State → List DWord × State
  | 0, s => ([], s)
  | n + 1, s =>
    let (k, s) := draw s
    let (r, s) := drawTile n s
    (dw k :: r, s)

/-- The operations of a joint operation that are in queues, in the order of their cores. -/
def memberOps (s : State) (m : MatOp) : List (Op × MatOp) :=
  m.members.filterMap (fun n => match amGet n s.ops with
    | some o => (match o.body with | .matrix m => some (o, m) | _ => none)
    | none => none)

/-- One part of an MMAQ (R262): per joint step A(q div 2, 0) with B(q mod 2, 0), then A(q div 2, 1) with B(q mod 2, 1). Unequal
precisions, variances or step counts leave its tile unpredictable. -/
def runPart (o : Op) (m : MatOp) (s : State) : State :=
  let ms := memberOps s m
  let q := o.gcore % 4
  let same := ms.all (fun x => recPa x.2.record == recPa m.record && recPb x.2.record == recPb m.record &&
    recPv x.2.record == recPv m.record && recKcnt x.2.record == recKcnt m.record)
  if !same then
    let (v, s) := drawTile 1024 s
    tilePut o.team m.tile v s
  else
    let part (k : Nat) : Op × MatOp := nth (o, m) ms k
    let (tile, s) := (upFrom 0 (2 * (recKcnt m.record + 1))).foldl (fun (r : List DWord × State) j =>
      let x := part (2 * (q / 2) + j % 2)
      let y := part (2 * (q % 2) + j % 2)
      let (a, s) := readA x.1 x.2 (j / 2) r.2
      let (b, s) := readB y.1 y.2 (j / 2) s
      (matStep m.params a b r.1, s)) (tileGet s o.team m.tile, s)
    tilePut o.team m.tile tile s

/-- One element of a tree's combination (R274). -/
def treeElem (acct : Bool) (a b : DWord) : DWord :=
  let d := (fAdd (meanOf a) (meanOf b)).w
  let v := (fAdd (spreadOf a) (spreadOf b)).w
  reg d (finishMom d (account (acct && !isNan d) d v)).1

/-- A received tile as the staging area at `a` gives it, element m at byte 8·m (DEDUCED, notes/assumptions/86.md): each 16-byte granule
that foreign writes `ws`, the newest first, have touched is read as it was sent or as some of them left it (R268). -/
def receiveTile (ws : List WriteRec) (a : Nat) (sent : List DWord) (s : State) : List DWord × State :=
  ((upFrom 0 512).filter (fun g => ws.any (fun w => w.meets (a + 16 * g) 16))).foldl (fun (r : List DWord × State) g =>
    let (seen, s) := pickSome (ws.filter (fun w => w.meets (a + 16 * g) 16)) r.2
    let old := natBytes 8 (nth 0 sent (2 * g)).toNat ++ natBytes 8 (nth 0 sent (2 * g + 1)).toNat
    let bs := (old.zip (upFrom (a + 16 * g) 16)).map (fun x => match seen.find? (fun w => w.meets x.2 1) with
      | some w => byteAt s.hist w.stamp x.2 (rdByte s x.2)
      | none => x.1)
    ((r.1.set (2 * g) (dw (bytesNat (bs.take 8)))).set (2 * g + 1) (dw (bytesNat (bs.drop 8))), s)) (sent, s)

/-- Where a part's staging area lies. -/
def stagingAt (s : State) (o : Op) (m : MatOp) : Nat :=
  match amGet o.unit s.units with
  | some u => (match amGet o.gcore u.scratch with | some (b, _) => b | none => 0) + m.a.toNat
  | none => 0

/-- The combination at one core of one level. -/
def treeCombine (x y : Op × MatOp) (s : State) : State :=
  let a := stagingAt s x.1 x.2
  let ws := s.hist.filter (fun w => w.meets a 8192 && decide (x.1.ord < w.stamp) && w.writer != agentMatrix x.1.team)
  let (got, s) := receiveTile ws a (tileGet s y.1.team y.2.tile) s
  tilePut x.1.team x.2.tile (((tileGet s x.1.team x.2.tile).zip got).map (fun p => treeElem (recAcct x.2.record) p.1 p.2)) s

/-- The four levels of a tree, and free bytes in every staging area. -/
def runTree (m : MatOp) (s : State) : State :=
  let ms := memberOps s m
  let s := [1, 2, 4, 8].foldl (fun s step =>
    ((upFrom 0 16).filter (fun c => decide (c % (2 * step) = 0))).foldl (fun s c =>
      match ms[c]?, ms[c + step]? with
      | some x, some y => treeCombine x y s
      | _, _ => s) s) s
  ms.foldl (fun s x =>
    let (bs, s) := drawBytes 8192 s
    writeCells (agentMatrix x.1.team) x.1 x.1.ord (cellsAt [(.at (stagingAt s x.1 x.2) 0, 8192)] bs) s) s

/-- MACC.LOAD's new contents: the mean with a NaN made canonical, the variance by the intake rule (R273). -/
def runLoad (o : Op) (m : MatOp) (s : State) : State :=
  let pair := recPair m.record
  let pas := m.rows.flatMap (fun ps => (upFrom 0 (if pair then 256 else 128)).map (paAt ps))
  let (bytes, s) := engineBytes (agentOperand o.team) pas s
  let word (ps : List (Spot × Nat)) (off : Nat) : Word := BitVec.ofNat 32 (spanNat bytes ((upFrom off 4).map (paAt ps)))
  tilePut o.team m.tile (m.rows.flatMap (fun ps => (upFrom 0 32).map (fun c =>
    if pair then
      let x := word ps (8 * c)
      let mu := if isNan x then qnan else x
      reg mu (intake mu (unsign (word ps (8 * c + 4)))).1
    else
      let x := word ps (4 * c)
      reg (if isNan x then qnan else x) 0))) s

/-! ### Drains (R269 to R272) -/

/-- The bytes of a row of a tile (R253). -/
def rowBytes (pair : Bool) (row : List DWord) : List Byte :=
  row.flatMap (fun v => natBytes 4 (meanOf v).toNat ++ (if pair then natBytes 4 (spreadOf v).toNat else []))

/-- The logs that cells lie in. -/
def logsOf (cells : List Cell) : List Nat :=
  (cells.filterMap (fun c => match c.1 with | .log k _ => some k | .at _ _ => none)).eraseDups

/-- The cells that lie in one log. -/
def cellsIn (k : Nat) (cells : List Cell) : List Cell :=
  cells.filter (fun c => match c.1 with | .log k' _ => k' == k | .at _ _ => false)

/-- A row's bytes written: at once where they lie in memory, and as one append for each tile (R306). -/
def writeRow (op : Nat) (o : Op) (cells : List Cell) (s : State) : State :=
  let s := (byUnit cells).foldl (fun s u => writeUnit (agentMatrix o.team) u s) s
  (logsOf cells).foldl (fun s k => appendUnit o op (cellsIn k cells) s) s

/-- An operation that stems from operation `op` of the record `o` enters flight, untagged. -/
def spawnOp (op : Nat) (o : Op) (body : OpBody) (s : State) : State :=
  let (w, s) := spawnFor o s
  { s with
    ops := amPut s.seq { o with ord := op, weight := w, fault := none, tag := none, body := body } s.ops
    seq := s.seq + 1 }

/-- MDRAIN.ADD's elements, row by row, each with the log of its tile if it lies in one. -/
def drainElems (m : MatOp) (tile : List DWord) : List (List (Option Nat × AddElem)) :=
  let pair := recPair m.record
  let size : Nat := if pair then 8 else 4
  ((chunks 32 1024 tile).zip m.rows).map (fun x =>
    (x.1.zip (upFrom 0 32)).map (fun v =>
      let sp := spotAt x.2 (size * v.2)
      (match sp with | .at _ _ => none | .log k _ => some k,
       { pa := match sp with | .at pa _ => pa | .log _ off => off,
             mean := meanOf v.1, spread := spreadOf v.1, q3 := 1, pair := pair, acct := pair && recAcct m.record })))

/-- What a drain does when its tile is read (R270, R271); its appends are then on their way. -/
def runDrain (op : Nat) (o : Op) (m : MatOp) (s : State) : State :=
  let tile := tileGet s o.team m.tile
  let start := s.seq
  let s := if tile.any (fun v => isNan (meanOf v) || isInf (meanOf v)) then setOvf o.team 1 s else s
  match m.kind with
  | 4 =>
    let cells := ((chunks 32 1024 tile).zip m.rows).map (fun x => cellsAt x.2 (rowBytes (recPair m.record) x.1))
    let s := cells.foldl (fun s cs => writeRow op o cs s) s
    fencedWrite o.team op start (fillGranules (granulesOf cells.flatten) s)
  | 5 => spawnOp op o (.drainAdd (drainElems m tile)) s
  | _ =>
    let pv := recPv m.record
    let bs := folioBytes (recPa m.record) pv (fun k =>
      let v := nth 0 tile k
      (expandElem (fval (meanOf v)) (fval (spreadOf v)).abs (recPa m.record) pv (recAcct m.record) (recZabs m.record)).1)
    let cells := cellsAt (m.rows.headD []) bs
    fencedWrite o.team op start (fillGranules (granulesOf cells) (writeCells (agentMatrix o.team) o op cells s))

/-! ### Completion (R265 to R267) -/

/-- An earlier operation of the core's queue has not had its effect on the same tile (R259). -/
def tileBusy (s : State) (op : Nat) (o : Op) (m : MatOp) : Bool :=
  s.ops.any (fun x => decide (x.1 < op) && decide (x.2.gcore = o.gcore) && decide (x.2.team = o.team) && match x.2.body with
    | .matrix y => (decide (y.kind < 10) || decide (20 ≤ y.kind)) && decide (y.tile = m.tile)
    | _ => false)

/-- An MFEN of the operation's team, issued before it, is outstanding (R264). -/
def fencedReads (s : State) (o : Op) : Bool :=
  s.ops.any (fun x => decide (x.1 < o.ord) && decide (x.2.team = o.team) && x.2.body == .mfen)

/-- The stamps of an operation's tile count it in (R396): the time from acceptance to its first operand read is open. -/
def stampTile (o : Op) (m : MatOp) (s : State) : State :=
  match amGet o.team s.teams with
  | none => s
  | some t =>
    let st := (amGet m.tile t.stamps).getD { cin := m.cin, owait := 0, mcomp := 0, first := m.issued, ord := o.ord }
    let (k, s) := choose (s.toll - m.accepted + 1) s
    modTeam o.team (fun t => { t with stamps := amPut m.tile { st with owait := st.owait + k, mcomp := st.mcomp + m.cycles } t.stamps }) s

/-- A retiring operation completes: the tile's colophon goes out (R396). -/
def retireAt (o : Op) (m : MatOp) (how : Nat) (s : State) : State :=
  match amGet o.team s.teams with
  | none => s
  | some t => match amGet m.tile t.stamps with
    | none => s
    | some st => modTeam o.team (fun t => { t with stamps := amDel m.tile t.stamps }) (retireTile t m.tile how st s)

/-- An operation's end: a team that has exited discards its tiles after its last (R277). -/
def endMatrix (op : Nat) (o : Op) (s : State) : State := settleTeam o.team (endOp op s)

/-- The parts of a joint operation end together (R263, R274). -/
def endParts (m : MatOp) (s : State) : State :=
  m.members.foldl (fun s n => match amGet n s.ops with
    | none => s
    | some o => endMatrix n o s) s

/-- A queued operation takes effect, if it may. -/
def runMatrix (op : Nat) (o : Op) (m : MatOp) (s : State) : State :=
  let held := tileBusy s op o m
  match m.kind with
  | 10 =>
    let (go, s) := destGate o.team m.dest s
    if !go then s
    else
      let s := { s with
        teams := amMod o.team (putDest m.dest (govStat s (clusterOf o.gcore))) s.teams
        ops := killEarlier o.team op [m.dest] s.ops }
      endMatrix op o s
  | 0 => if held || fencedReads s o then s else endMatrix op o (stampTile o m (runSteps o m s))
  | 1 => if held || fencedReads s o then s else endMatrix op o (stampTile o m (runSteps o m s))
  | 2 => if held || (memberOps s m).any (fun x => fencedReads s x.1) then s
    else partDone s
  | 3 => if held || (memberOps s m).any (fun x => fencedReads s x.1) then s
    else partDone s
  | 7 => if held then s else endMatrix op o (retireAt o m 1 (stampTile o m (tilePut o.team m.tile zeroTile s)))
  | 8 => if held || fencedReads s o then s else endMatrix op o (retireAt o m 1 (stampTile o m (runLoad o m s)))
  | 9 =>
    let ms := m.members.filterMap (fun n => (amGet n s.ops).map (fun x => (n, x)))
    if ms.any (fun x => match x.2.body with | .matrix y => tileBusy s x.1 x.2 y | _ => false) then s
    else
      let s' := runTree m s
      endParts m ((memberOps s m).foldl (fun s x => stampTile x.1 x.2 s) s')
  | 4 => if held then s else drained s
  | 5 => if held then s else drained s
  | 6 => if held then s else drained s
  | _ =>
    -- a part of an MMAQ ends with the others (R263); a drain waits for its appends
    if m.kind < 20 then s
    else if appendsOut s o.team op then s else endMatrix op o (retireAt o m 0 s)
where
  /-- A part of an MMAQ takes effect; the last one ends them all. -/
  partDone (s : State) : State :=
    let s := setBody op (.matrix { m with kind := m.kind + 16, locked := none }) (stampTile o m (runPart o m s))
    if (memberOps s m).all (fun x => decide (16 ≤ x.2.kind)) then endParts m s else s
  /-- A drain's writes are made or on their way to a log. -/
  drained (s : State) : State :=
    let s := stampTile o m (runDrain op o m s)
    if appendsOut s o.team op then setBody op (.matrix { m with kind := m.kind + 16, locked := none }) s
    else endMatrix op o (retireAt o m 0 s)

/-- Operations of the team in batches that `p` names, issued before number n, have not completed. -/
def batchBusy (s : State) (team n : Nat) (p : Nat → Bool) : Bool :=
  s.ops.any (fun x => decide (x.2.team = team) && decide (x.2.ord < n) && match x.2.body with
    | .matrix m => m.kind != 10 && p m.batch
    | .partner m _ => p m.batch
    | _ => false)

/-- MATRIX_OP_COMPLETE (R259, R267): an operation of a queue takes effect and completes, or an MFEN, MCOMMIT or MWAIT whose
condition holds completes. -/
def execMatrixOpComplete (op : Nat) (s : State) : Out :=
  match amGet op s.ops with
  | none => .next s
  | some o => match o.body with
    | .matrix m => .next (runMatrix op o m s)
    | .mfen => if writesPending s o.team op then .next s else .next (endMatrix op o s)
    | .commit b es => if !es.isEmpty || batchBusy s o.team op (fun k => k == b) then .next s else .next (endMatrix op o s)
    | .mwait n => if batchBusy s o.team op (fun k => decide (k ≤ n)) then .next s else .next (endMatrix op o s)
    | _ => .next s

/-- GOVERNOR_WINDOW (R275): the window that the toll has reached begins with nothing used. -/
def execGovernorWindow (cluster : Nat) (s : State) : Out :=
  .next { s with gov := amPut cluster (govNow s cluster) s.gov }

end Sys2Proof.Machine
end

