-- ==== Sys2Proof/Machine/Residency.lean ====
section
/-! DEFINITION. Device-memory frames and pools (R290), the leaves the MMP writes (R283, R301), the tip-in logs (R302 to R309),
arrival (R310 to R315), TILE (R318, R319), the release of merge entries (R287 to R291), fault records (R292) and services
(R295, R296). -/

namespace Sys2Proof.Machine

/-! ### Frames (R26, R290) -/

/-- The 64 KiB frames of device memory in use, by number (frame f lies at 2^16·f, on die f / 2^23). -/
def usedFrames (s : State) : List Nat :=
  s.ctxs.flatMap (fun c => c.2.owned ++ c.2.tables ++ c.2.packs.map Prod.snd ++ c.2.pool0 ++ c.2.pool1 ++ [c.2.errRec / 2 ^ 16, c.2.frctl / 2 ^ 16] ++
    upFrom (c.2.fring / 2 ^ 16) (c.2.frlen / 2 ^ 11 + 2) ++ [(c.2.errRec + 63) / 2 ^ 16]) ++
  s.queues.flatMap (fun q => q.2.stat.toNat / 2 ^ 16 :: upFrom (q.2.base.toNat / 2 ^ 16) (q.2.len / 2 ^ 10 + 2))

/-- The first frame of an area of a die not in use, from a starting point on. -/
def probeFrame (used : List Nat) (die : Nat) (area : Nat × Nat) (start : Nat) : Nat → Option Nat
  | 0 => none
  | n + 1 =>
    let f := die * 2 ^ 23 + (area.1 + start % area.2) % 2 ^ 23
    if used.contains f then probeFrame used die area (start + 1) n else some f

/-- A die's free memory, in its secure range or outside it, holds no frame. -/
def noFrame (s : State) (die : Nat) (secure : Bool) : Bool :=
  decide ((frameArea die secure).2 ≤
    ((usedFrames s).eraseDups.filter (fun f => decide (f / 2 ^ 23 = die) && secureFrame f == secure)).length)

/-- A free frame of a die, in its secure range or outside it (R290, R400); which one is open. -/
def freeFrame (die : Nat) (secure : Bool) (s : State) : Option (Nat × State) :=
  if noFrame s die secure then none
  else
    let (k, s) := draw s
    match probeFrame (usedFrames s) die (frameArea die secure) k ((usedFrames s).length + 1) with
    | none => none
    | some f => some (f, s)

/-- A range of memory filled with zeros, its past forgotten. -/
def zeroRange (a n : Nat) (s : State) : State :=
  forgetRange a n { s with mem := s.mem.filter (fun c => !(decide (a ≤ c.1) && decide (c.1 < a + n))) }

/-- A frame zeroed. -/
def zeroFrame (f : Nat) (s : State) : State := zeroRange (f * 2 ^ 16) (2 ^ 16) s

/-- A context's pool on a die. -/
def Context.pool (c : Context) (die : Nat) : List Nat := if die = 0 then c.pool0 else c.pool1
/-- The frames a context has mapped from its pool on a die. -/
def Context.held (c : Context) (die : Nat) : Nat := (c.poolMapped.filter (fun f => decide (f / 2 ^ 23 = die))).length
/-- A refill of the pool on a die is under way. -/
def Context.refill (c : Context) (die : Nat) : Bool := if die = 0 then c.refill0 else c.refill1
/-- The pool on a die set, with its refill. -/
def Context.withPool (c : Context) (die : Nat) (pool : List Nat) (refill : Bool) : Context :=
  if die = 0 then { c with pool0 := pool, refill0 := refill } else { c with pool1 := pool, refill1 := refill }

/-- A refill of the context's pool on a die is refused (R290). -/
def poolRefused (s : State) (c : Context) (die : Nat) : Bool :=
  noFrame s die false || c.poolSize == 0 || (c.poolCap != 0 && decide (c.poolCap ≤ c.held die + (c.pool die).length))

/-- How a request for a pool frame comes out. -/
inductive PoolTake where
  | got (f : Nat) (s : State)
  | refused
  | later

/-- A pool frame is taken (R290). For a secure page a zeroed frame comes from the die's secure range, which no pool holds (R290, R400;
DESIGN CHOICE, notes/assumptions/42.md). -/
def takePool (ctx die : Nat) (secure : Bool) (s : State) : PoolTake :=
  match amGet ctx s.ctxs with
  | none => .refused
  | some c => if secure then
      (match freeFrame die true s with
       | none => .refused
       | some (f, s) => .got f (zeroFrame f (modCtx ctx (fun c => { c with owned := f :: c.owned }) s)))
    else match c.pool die with
    | [] => if poolRefused s c die then .refused else .later
    | f :: fs =>
      let c' := c.withPool die fs (c.refill die || decide (2 * fs.length < c.poolSize))
      .got f { s with ctxs := amPut ctx { c' with owned := f :: c'.owned, poolMapped := f :: c'.poolMapped } s.ctxs }

/-- The size table and overflow region of each of a COMPRESS leaf's frames, allocated with it on its die (R320): a frame for both (DESIGN
CHOICE, notes/assumptions/92.md). Frames of host memory have no port that packs. -/
def withPacks (ctx : Nat) (e : DWord) : List Nat → State → Option State
  | [], s => some s
  | f :: fs, s =>
    if !entryBit e 11 || decide (2 ^ 24 ≤ f) then withPacks ctx e fs s
    else match freeFrame (f / 2 ^ 23) (entryBit e 6) s with
      | none => none
      | some (p, s) => withPacks ctx e fs (zeroFrame p (modCtx ctx (fun c => { c with packs := amPut f p c.packs }) s))

/-- A pool frame for a leaf, with what its page needs besides (R290, R320). -/
def takeFrame (ctx die : Nat) (e : DWord) (s : State) : PoolTake :=
  match takePool ctx die (entryBit e 6) s with
  | .got f s => (match withPacks ctx e [f] s with | some s => .got f s | none => .refused)
  | r => r

/-! ### A page moved to another frame (R299) -/

/-- An address in frame a, taken to frame b. -/
def movedTo (a b x : Nat) : Nat := if x / 2 ^ 16 = a then b * 2 ^ 16 + x % 2 ^ 16 else x

/-- A spot, its physical address taken along. -/
def Spot.moved (m : Nat → Nat) : Spot → Spot
  | .at pa e => .at (m pa) e
  | .log k o => .log k o

/-- An operation in flight, the physical addresses that it holds taken along. -/
def OpBody.moved (m : Nat → Nat) : OpBody → OpBody
  | .behind ps ds => .behind (ps.map (fun p => (m p.1, p.2))) (ds.map (fun r => { r with pas := r.pas.map m }))
  | .adds es => .adds (es.map (fun e => { e with pa := m e.pa }))
  | .ctrAdd va pa n sc d pc mask h => .ctrAdd va (m pa) n sc d pc mask h
  | .ctrWait va pa n sc d => .ctrWait va (m pa) n sc d
  | .ctrLoad pa sc d => .ctrLoad (m pa) sc d
  | .matrix o => .matrix { o with rows := o.rows.map (fun r => r.map (fun p => (p.1.moved m, p.2))) }
  | .drainAdd rows => .drainAdd (rows.map (fun r => r.map (fun x => if x.1.isNone then (x.1, { x.2 with pa := m x.2.pa }) else x)))
  | .select x => .select { x with places := x.places.map (fun p => (p.1, p.2.map m)) }
  | .post c n es ctr va sc r => .post c n es (ctr.map m) va sc r
  | b => b

/-- The contents of frame a move to frame b in one act: memory and its past, and whatever holds a physical address of the frame
(translations, accesses in flight, releases, an arriving tile), so that every access uses b from then on (R36, R299; DEDUCED,
notes/assumptions/95.md). -/
def moveFrame (a b : Nat) (s : State) : State :=
  let m := movedTo a b
  let s := zeroFrame b s
  let here (c : Host.Cell) : Bool := decide (c.1 / 2 ^ 16 = a)
  { s with
    mem := (s.mem.filter here).foldl (fun x c => smPut 0 (m c.1) c.2 x) (s.mem.filter (fun c => !here c))
    hist := s.hist.map (fun w => { w with addr := m w.addr })
    seen := s.seen.foldl (fun x e => amPut (e.1 / 2 ^ 52 * 2 ^ 52 + m (e.1 % 2 ^ 52)) e.2 x) []
    rels := s.rels.map (fun e => (e.1, { e.2 with counter := e.2.counter.map (fun c => (m c.1, c.2)) }))
    tlb := s.tlb.map (fun e => (e.1, e.2.map (fun t =>
      if bitsOf t.entry 47 16 = a then { t with entry := dw (bitsOf t.entry 15 0 + b * 2 ^ 16) } else t)))
    ops := s.ops.map (fun o => (o.1, { o.2 with body := o.2.body.moved m }))
    crls := s.crls.map (fun c => (c.1, { c.2 with emit := c.2.emit.map (fun e => (e.1, e.2.map m)) }))
    tiles := s.tiles.map (fun t => (t.1, if t.2.frame = some a then { t.2 with frame := some b } else t.2)) }

/-- POOL_REFILL (R290): a zeroed frame enters the pool. -/
def execPoolRefill (ctx die : Nat) (s : State) : Out :=
  match amGet ctx s.ctxs with
  | none => .next s
  | some c =>
    if !c.refill die || poolRefused s c die then .next s
    else match freeFrame die false s with
      | none => .next s
      | some (f, s) =>
        let pool := c.pool die ++ [f]
        .next (zeroFrame f { s with ctxs := amPut ctx (c.withPool die pool (decide (pool.length < c.poolSize))) s.ctxs })

/-! ### Leaves (R283, R299, R301) -/

/-- A leaf made PAGE with a frame, every other field kept. -/
def asPage (e : DWord) (frame : Nat) : DWord := dw (bitsOf e 15 3 * 8 + 2 + frame * 2 ^ 16)

/-- A table entry written, by a write performed everywhere at once (R279). -/
def setEntry (a : Nat) (e : DWord) (s : State) : State := pokeNat a 8 e.toNat s

/-- A new table: a frame of either die, zeroed. -/
def newTable (ctx : Nat) (s : State) : Option (Nat × State) :=
  let (d, s) := choose 2 s
  match (match freeFrame d false s with | some x => some x | none => freeFrame (1 - d) false s) with
  | none => none
  | some (f, s) => some (f * 2 ^ 16, zeroFrame f (modCtx ctx (fun c => { c with tables := f :: c.tables }) s))

/-- The table that the entry at an address leads to, made where there is none; a large page at L1 is split (R301). -/
def childTable (ctx : Nat) (l1 : Bool) (a : Nat) (s : State) : Option (Nat × State) :=
  let e := dw (rdNat s a 8)
  if entryType e = 1 then some (nextTable e, s)
  else match newTable ctx s with
    | none => none
    | some (t, s) =>
      let s := if l1 && (entryType e == 2 || entryType e == 4) then
          (upFrom 0 32).foldl (fun s i => setEntry (t + 8 * i)
            (dw (bitsOf e 9 0 + bitsOf e 11 11 * 2 ^ 11 + (bitsOf e 47 16 + i) * 2 ^ 16)) s) s
        else s
      some (t, setEntry a (dw (t + 1)) s)

/-- A leaf written for an address, with the tables it needs (R293); none where no memory is left for them. -/
def putLeaf (ctx va : Nat) (large : Bool) (e : DWord) (s : State) : Option State :=
  match amGet ctx s.ctxs with
  | none => none
  | some c => match childTable ctx false (c.root + 8 * (va / 2 ^ 45 % 4096)) s with
    | none => none
    | some (t2, s) => match childTable ctx false (t2 + 8 * (va / 2 ^ 33 % 4096)) s with
      | none => none
      | some (t1, s) =>
        let a1 := t1 + 8 * (va / 2 ^ 21 % 4096)
        if large then some (setEntry a1 e s)
        else match childTable ctx true a1 s with
          | none => none
          | some (t0, s) => some (setEntry (t0 + 8 * (va / 2 ^ 16 % 32)) e s)

/-- Merge entries of an address are released, to walk again (0) or with the status of a failure (R287). -/
def releasePage (ctx va st : Nat) (s : State) : State :=
  { s with merge := s.merge.map (fun e =>
      if e.2.ctx = ctx ∧ e.2.vpn = (if e.2.large then va / 2 ^ 21 else va / 2 ^ 16) ∧ e.2.released = none then
        (e.1, { e.2 with released := some st }) else e) }

/-- A FIRST-TOUCH page mapped from a frame of its pool (R290). -/
def mapTouch (ctx va : Nat) (e : DWord) (f : Nat) (s : State) : State :=
  match putLeaf ctx va false (asPage e f) s with
  | none => s
  | some s => releasePage ctx va 0 s

/-! ### Log entries (R304, R306) -/

/-- The entry holds or covers tile offset b. -/
def LogEntry.has (e : LogEntry) (b : Nat) : Bool :=
  decide (e.off ≤ b) && decide (b < e.off + e.len) && (e.kind == 2 || e.mask.testBit (b - e.off))

/-- The tile offsets of an entry's bytes. -/
def LogEntry.offsets (e : LogEntry) : List Nat := (upFrom e.off e.len).filter e.has

/-- A fresh entry. -/
def logEntry (off kind mask len : Nat) (data : List Byte) (stamp : Nat × Nat × Nat) : LogEntry :=
  { off := off, kind := kind, mask := mask, len := len, data := data, weight := [], stamps := [stamp], past := [] }

/-- One unit that a write touches, with its mask and data. -/
def unitOfBytes (cells : AMap Byte) (stamp : Nat × Nat × Nat) (u : Nat) : LogEntry :=
  let here := (upFrom (16 * u) 16).map (fun b => amGet b cells)
  logEntry (16 * u) 1 (((upFrom 0 16).zip here).foldl (fun m x => if x.2.isSome then m + 2 ^ x.1 else m) 0) 16
    (here.map (fun b => b.getD 0)) stamp

/-- Runs of consecutive whole units that carry the same bytes joined (R306). -/
def joinFills : List LogEntry → List LogEntry
  | [] => []
  | e :: es => match joinFills es with
    | [] => [e]
    | n :: ns =>
      if e.mask = 0xFFFF ∧ n.mask = 0xFFFF ∧ n.off = e.off + 16 ∧ n.data = e.data then
        { e with kind := 2, len := n.len + 16 } :: ns
      else e :: n :: ns

/-- The entries of a write of bytes (R306). -/
def bytesEntries (cells : AMap Byte) (stamp : Nat × Nat × Nat) : List LogEntry :=
  joinFills (((cells.map (fun c => c.1 / 16)).eraseDups).map (unitOfBytes cells stamp))

/-- KIND of an add-on-store element (R304). -/
def AddElem.kind (e : AddElem) : Nat := 0x10 + e.q3 + 8 * b2n e.pair + 0x20 * b2n e.acct

/-- An element as an entry of its own. -/
def elemEntry (e : AddElem) (stamp : Nat × Nat × Nat) : LogEntry :=
  let o := e.pa % 16
  let bs := natBytes 4 e.mean.toNat ++ (if e.pair then natBytes 4 e.spread.toNat else [])
  logEntry (e.pa - o) e.kind ((2 ^ e.size - 1) * 2 ^ o) 16 (List.replicate o 0 ++ bs ++ List.replicate (16 - o - bs.length) 0) stamp

/-- Consecutive elements of one lane or row that fall in one unit form one entry (R306). -/
def groupEntries (stamp : Nat × Nat × Nat) : List AddElem → List LogEntry
  | [] => []
  | e :: es => match groupEntries stamp es with
    | [] => [elemEntry e stamp]
    | n :: ns =>
      let m := elemEntry e stamp
      if m.off = n.off ∧ m.kind = n.kind ∧ m.mask &&& n.mask = 0 then
        { n with mask := m.mask ||| n.mask, data := (m.data.zip n.data).map (fun x => x.1 ||| x.2) } :: ns
      else m :: n :: ns

/-- The entries of a write (R306). -/
def writeEntries (body : WriteBody) (stamp : Nat × Nat × Nat) : List LogEntry :=
  match body with
  | .bytes cells => bytesEntries cells stamp
  | .adds groups => groups.flatMap (groupEntries stamp)

/-- The elements of an add-on-store entry, at a base address. -/
def LogEntry.elems (e : LogEntry) (base : Nat) : List AddElem :=
  let pair := e.kind / 8 % 2 == 1
  let size : Nat := if pair then 8 else 4
  ((upFrom 0 (16 / size)).filter (fun j => e.mask.testBit (size * j))).map (fun j =>
    { pa := base + e.off + size * j, mean := BitVec.ofNat 32 (bytesNat ((e.data.drop (size * j)).take 4)),
      spread := BitVec.ofNat 32 (if pair then bytesNat ((e.data.drop (size * j + 4)).take 4) else 0),
      q3 := e.kind % 8, pair := pair, acct := e.kind / 0x20 % 2 == 1 })

/-! ### The log area (R303, R304) -/

/-- An entry's 32 bytes (R304). -/
def LogEntry.bytes (e : LogEntry) : List Byte :=
  natBytes 2 e.off ++ natBytes 1 e.kind ++ natBytes 1 0 ++ natBytes 2 (if e.kind = 2 then 0xFFFF else e.mask) ++ natBytes 2 0 ++
  natBytes 4 e.len ++ natBytes 4 0 ++ e.data

/-- STATE of a header (R303). -/
def TileState.code : TileState → Nat
  | .absent => 0
  | .arriving => 1
  | .resident => 2

/-- The header of a tile's log area and its live entries (R303). -/
def Tile.area (t : Tile) : List Byte :=
  natBytes 8 t.va.toNat ++ natBytes 2 t.entries.length ++ natBytes 2 t.pins ++ natBytes 1 t.state.code ++ natBytes 3 0 ++
  natBytes 8 t.appends ++ natBytes 8 t.forced ++ natBytes 224 0 ++ t.entries.flatMap LogEntry.bytes

/-! ### Compaction (R307, R308) -/

/-- What STORE or FILL n leaves of the live entries, and the entries it removes. -/
def superseded (n : LogEntry) (live : List LogEntry) : List LogEntry × List LogEntry :=
  let gone (p : LogEntry) : Bool := p.offsets.all n.has
  ((live.filter (fun p => !gone p)).map (fun p =>
      if p.kind = 1 then { p with mask := (upFrom 0 16).foldl (fun m b => if p.mask.testBit b && !n.has (p.off + b) then m + 2 ^ b else m) 0 } else p),
   live.filter gone)

/-- Two entries of one kind, unit and mask merged, the earlier as operand a. -/
def mergeEntries (p n : LogEntry) : LogEntry :=
  let rs := ((p.elems 0).zip (n.elems 0)).map (fun x =>
    let r := addApplied x.2 x.1.mean x.1.spread
    { x.1 with mean := r.1, spread := r.2 })
  let d := rs.foldl (fun d e => (d.zip (elemEntry e (0, 0, 0)).data).map (fun x => x.1 ||| x.2)) (List.replicate 16 (0 : Byte))
  { p with data := d, weight := p.weight ++ n.weight, stamps := p.stamps ++ n.stamps, past := p.past ++ n.past }

/-- The latest of the live entries that p names, changed by f. -/
def modLatest (p : LogEntry → Bool) (f : LogEntry → LogEntry) (live : List LogEntry) : List LogEntry :=
  ((live.reverse.foldl (fun (r : Bool × List LogEntry) e => if !r.1 && p e then (true, f e :: r.2) else (r.1, e :: r.2)) (false, [])).2)

/-- One new entry compacted and placed: the live entries and the removed ones; none where it needs a slot of a full log. -/
def placeEntry (n : LogEntry) (live : List LogEntry) : Option (List LogEntry × List LogEntry) :=
  let (live, gone) := if n.kind ≤ 2 then superseded n live else (live, [])
  let q3 := n.kind % 8
  let merges := decide (2 < n.kind) && (q3 == 0 || q3 == 2 || q3 == 3 || q3 == 4 || q3 == 7)
  let meets (p : LogEntry) : Bool := p.offsets.any n.has
  let twin := merges && (match (live.filter meets).getLast? with
    | some p => p.kind == n.kind && p.off == n.off && p.mask == n.mask
    | none => false)
  if twin then some (modLatest meets (fun p => mergeEntries p n) live, gone)
  else if 512 ≤ live.length then none
  else some (live ++ [{ n with past := gone.flatMap (fun p => p.stamps ++ p.past) ++ n.past }], gone)

/-- The new entries of one operation placed in order, if all of them fit. -/
def placeAll : List LogEntry → List LogEntry → List LogEntry → Option (List LogEntry × List LogEntry)
  | [], live, gone => some (live, gone)
  | n :: ns, live, gone => match placeEntry n live with
    | none => none
    | some (live, g) => placeAll ns live (gone ++ g)

/-- Weights returned to their phases. -/
def giveBackAll (ws : List (Nat × Nat)) (s : State) : State := ws.foldl (fun s w => giveBack w.1 w.2 s) s

/-- An operation's weight shared among its entries (R308). -/
def shareOut (ph w : Nat) : List LogEntry → State → List LogEntry × State
  | [], s => ([], giveBack ph w s)
  | [e], s => ([{ e with weight := [(ph, w)] }], s)
  | e :: es, s =>
    let root := match amGet ph s.phases with | some p => p.root | none => 0
    let (c, w', r) := splitWeight w root
    let (es, s) := shareOut ph w' es { s with phases := amMod ph (fun p => { p with root := r }) s.phases }
    ({ e with weight := [(ph, c)] } :: es, s)

/-! ### Appends (R309, R312, R315) -/

/-- A tile's writes applied to its frame as at its port (R312, R315). -/
def applyBody (frame : Nat) (agent : Nat) (body : WriteBody) (s : State) : State :=
  let base := frame * 2 ^ 16
  match body with
  | .bytes cells => if cells.isEmpty then s else writeRuns agent none (runsOf (cells.map (fun c => (base + c.1, c.2)))) s
  | .adds groups => groups.flatten.foldl (fun s e => applyAdd agent { e with pa := base + e.pa } s) s

/-- An earlier write of the same agent to the tile has not reached the engine (R309): an append on its way, or a drain. -/
def appendHeld (s : State) (op : Nat) (o : Op) (k : Nat) : Bool :=
  let a := appendAgent s o
  s.ops.any (fun x =>
    (decide (x.2.ord < o.ord) || (x.2.ord == o.ord && decide (x.1 < op))) && match x.2.body with
    | .append k' _ => k' == k && appendAgent s x.2 == a
    | .drainAdd rows => x.2.team == a && rows.any (fun r => r.any (fun y => y.1 == some k))
    | .matrix m => x.2.team == o.team && a == o.team && (m.kind == 4 || m.kind == 5) &&
        m.rows.any (fun r => r.any (fun p => match p.1 with | .log k' _ => k' == k | .at _ _ => false))
    | _ => false)

/-- An append as the memory model sees it, under the next stamp: a write of no byte of memory, which releases order and acquires
order after (R44 to R47). -/
def noteAppend (agent : Nat) (s : State) : State :=
  { s with
    hist := newWrite s.seq (2 ^ 63) [] agent :: s.hist
    seq := s.seq + 1 }

/-- A write of an agent at an engine: placed in the log, applied if the tile is resident, or held by a full log. -/
def acceptWrite (k : Nat) (t : Tile) (body : WriteBody) (agent ord : Nat) (ph : Option Nat) (w : Nat) (s : State) : State :=
  let back (s : State) : State := match ph with | some ph => if w = 0 then s else giveBack ph w s | none => s
  let weight : List (Nat × Nat) := match ph with | some ph => if w = 0 then [] else [(ph, w)] | none => []
  let hold (forced : Nat) : State := startArrival k { s with tiles := amPut k { t with
    forced := t.forced + forced, held := t.held ++ [{ body := body, weight := weight, stamp := ord, writer := agent }] } s.tiles }
  if t.state = .resident then
    match t.frame with
    | some f => back (fencedWrite agent ord s.seq (applyBody f agent body s))
    | none => back s
  else if !t.held.isEmpty then hold 0
  else
    let ns := writeEntries body (agent, ord, s.seq)
    let noted := fencedWrite agent ord s.seq (noteAppend agent s)
    let (ns, s') := match ph with
      | some ph => if w = 0 then (ns, noted) else shareOut ph w ns noted
      | none => (ns, noted)
    match placeAll ns t.entries [] with
    | none => hold 1
    | some (live, gone) =>
      giveBackAll (gone.flatMap (fun e => e.weight))
        { s' with tiles := amPut k { t with entries := live, appends := t.appends + ns.length, missed := false } s'.tiles }

/-! ### QSTAT and TILE (R318, R319) -/

/-- The leaf of an address in a context, with whether it is large; a malformed one reads as INVALID. -/
def leafOf (s : State) (ctx va : Nat) : DWord × Bool :=
  match amGet ctx s.ctxs with
  | none => (0, false)
  | some c => let w := walk s c.root va; (if w.bad then 0 else w.entry, w.large)

/-- The leaf of a tile as it stands now: a protection may have changed it since its log began (R299). -/
def Tile.now (s : State) (t : Tile) : DWord :=
  let e := (leafOf s t.ctx t.va.toNat).1
  if entryType e ≠ 0 ∧ entryBit e 10 = true then e else t.leaf

/-- The tile of a page, if the engine has a log for it. -/
def tileFind (s : State) (ctx va : Nat) : Option (Nat × Tile) :=
  s.tiles.find? (fun t => decide (t.2.ctx = ctx) && decide (t.2.va.toNat = va / 2 ^ 16 * 2 ^ 16))

/-- COUNT as operation n of a team has it (R319): of the live entries, those that stand for an append of the team's performed before
the operation issued, or for another agent's that happens before it. -/
def countFor (s : State) (team n : Nat) (t : Tile) : Nat :=
  (t.entries.filter (fun e => e.stamps.any (fun x =>
    if x.1 = team then decide (x.2.2 < n) else s.hist.any (fun w => w.stamp == x.2.2 && w.acq.contains team)))).length

/-- QSTAT for operation n of a team (R319). -/
def qstat (s : State) (ctx va team n : Nat) : DWord :=
  let (e, large) := leafOf s ctx va
  let log := entryType e != 0 && entryBit e 10
  let (arriving, count, pins) := match if log then tileFind s ctx va else none with
    | some (_, t) => (b2n (decide (t.state = .arriving)), countFor s team n t, t.pins)
    | none => (0, 0, 0)
  dw (b2n (entryType e == 2) + 2 * b2n log + 4 * arriving + 8 * b2n (large && entryType e != 0) + 16 * count + 2 ^ 16 * pins)

/-- The tile of a LOGGABLE page, made if the engine has none: a resident page that has had none gets its log area now. -/
def tileFor (ctx va : Nat) (e : DWord) (s : State) : Option (Nat × State) :=
  match tileFind s ctx va with
  | some (k, _) => some (k, s)
  | none =>
    if entryType e ≠ 2 then some (tileOf ctx va e s)
    else match freeFrame (homeDie e false va) false s with
      | none => none
      | some (f, s) =>
        let (k, s) := tileOf ctx va (dw (bitsOf e 15 0 + f * 2 ^ 16)) (modCtx ctx (fun c => { c with tables := f :: c.tables }) s)
        some (k, { s with tiles := amMod k (fun t => { t with state := .resident, frame := some (bitsOf e 47 16) }) s.tiles })

/-- A TILE operation's result is known: its elements are to be written. -/
def tileResult (d : Dest) (v : DWord) : List Elem := [{ dest := d, val := v, live := true }]

/-- A TILE operation reaches the residency engine (R318). -/
def tileRequest (op : Nat) (o : Op) (kind : Nat) (va : DWord) (d : Dest) (s : State) : State :=
  let (e, _) := leafOf s o.ctx va.toNat
  let now (s : State) : State := setBody op (.tile (kind + 16) 0 va d (tileResult d (qstat s o.ctx va.toNat o.team op))) s
  if kind = 2 ∨ !(entryType e != 0 && entryBit e 10) then now s
  else match tileFor o.ctx va.toNat e s with
    | none => now s
    | some (k, s) => match amGet k s.tiles with
      | none => now s
      | some t =>
        let resident := decide (t.state = .resident)
        match kind with
        | 0 => now { s with tiles := amPut k { t with pins := t.pins - 1 } s.tiles }
        | 1 =>
          let s : State := { s with tiles := amPut k { t with pins := min (t.pins + 1) 65535 } s.tiles }
          if resident then now s else setBody op (.tile 9 k va d []) (startArrival k s)
        | 3 => now (startArrival k s)
        | _ =>
          let v := if resident then 0 else dw (countFor s o.team op t)
          setBody op (.tile (if resident then 20 else 12) k va d (tileResult d v)) (startArrival k s)

/-- The world and permission checks of TILE (R318). -/
def tileCheck (s : State) (ctx va : Nat) (needR : Bool) : Option DWord :=
  match amGet ctx s.ctxs with
  | none => none
  | some c =>
    let w := walk s c.root va
    if w.bad || entryType w.entry == 0 then none
    else if !c.secure && entryBit w.entry 6 then some (accessInfo 0 false false true 0)
    else if needR && (entryType w.entry == 2 || entryBit w.entry 10) && !entryBit w.entry 3 then some (accessInfo 0 false false false 0)
    else none

/-- A TILE instruction (R318). -/
def tileOp (kind : Nat) (needR : Bool) (a c : BitVec 5) (s : State) : Out :=
  onePass 4 (fun s i f t =>
    let va := sGet t f.handler a.toNat
    match checkSpan va.toNat 1, amGet t.unit s.units with
    | some x, _ => .error (s, .trap x va 0)
    | none, none => .error (s, .stall)
    | none, some u =>
      match aperture va.toNat with
      | 1 => .error (s, .trap 0x0B va 0)
      | 2 => .error (s, .trap 0x0C va 0)
      | _ => match tileCheck s u.ctx va.toNat needR with
        | some info => .error (s, .trap 0x11 va info)
        | none => .ok (issueOp i f t f.setB (.tile kind 0 va (sDest f.handler c.toNat) []) s)) s

/-- TILE.PIN (R318). -/
def execTilePin (a c : BitVec 5) (n : BitVec 1) (s : State) : Out := tileOp n.toNat true a c s
/-- TILE.QUERY (R318). -/
def execTileQuery (a c : BitVec 5) (s : State) : Out := tileOp 2 false a c s
/-- TILE.PREFETCH (R318). -/
def execTilePrefetch (a c : BitVec 5) (s : State) : Out := tileOp 3 true a c s
/-- TILE.DRAINLOG (R318). -/
def execTileDrainlog (a c : BitVec 5) (s : State) : Out := tileOp 4 true a c s

/-- LOG_APPEND (R305 to R309, R312, R315): a write on its way, or a TILE request, reaches the residency engine. -/
def execLogAppend (op : Nat) (s : State) : Out :=
  match amGet op s.ops with
  | none => .next s
  | some o => match o.body with
    | .tile kind _ va d _ => .next (if kind < 8 then tileRequest op o kind va d s else s)
    | .append k body =>
      if appendHeld s op o k then .next s
      else match amGet k s.tiles with
        | none => .next (endOp op s)
        | some t =>
          let a := appendAgent s o
          let s := acceptWrite k t body a o.ord o.phase o.weight { s with ops := amDel op s.ops }
          -- a SYSTEM-scope wait of the team is already held up by it (R310)
          .next (if systemWaits s a o.ord then startArrival k s else s)
    | _ => .next s

/-- The part of an update that lies in one log, row by row. -/
def rowsIn (k : Nat) (rows : List (List (Option Nat × AddElem))) : List (List AddElem) :=
  (rows.map (fun r => r.filterMap (fun x => if x.1 = some k then some x.2 else none))).filter (fun g => !g.isEmpty)

/-- DRAIN_ADD_APPLY (R270): every element in ascending (r, c), as one indivisible update with one place in every order. What lies in
tiles that are not resident enters their logs with it; the part of a tile whose log has no room for all of it is held whole (R315),
and no read of that tile completes before it is applied (DEDUCED, notes/assumptions/87.md). -/
def execDrainAddApply (op : Nat) (s : State) : Out :=
  match amGet op s.ops with
  | none => .next s
  | some o => match o.body with
    | .drainAdd rows =>
      let frame (k : Nat) : Option Nat := (amGet k s.tiles).bind (fun t => if t.state = .resident then t.frame else none)
      let keys := ((rows.flatten.filterMap Prod.fst).eraseDups).filter (fun k => (frame k).isNone)
      if keys.any (appendHeld s op o) then .next s
      else
        let here := rows.flatten.filterMap (fun x => match x.1 with
          | none => some x.2
          | some k => (frame k).map (fun f => { x.2 with pa := f * 2 ^ 16 + x.2.pa }))
        let image := here.foldl (fun (m : AMap Byte) e =>
          let rd (a : Nat) : Nat := bytesNat ((upFrom a 4).map (fun x => (amGet x m).getD (rdByte s x)))
          let r := addApplied e (BitVec.ofNat 32 (rd e.pa)) (BitVec.ofNat 32 (if e.pair then rd (e.pa + 4) else 0))
          let bs := natBytes 4 r.1.toNat ++ (if e.pair then natBytes 4 r.2.toNat else [])
          (bs.zip (upFrom e.pa bs.length)).foldl (fun m x => amPut x.2 x.1 m) m) []
        let s := if here.isEmpty then s
          else fencedWrite o.team o.ord s.seq (writeRunsAs (agentMatrix o.team) none true (runsOf image) s)
        .next (endOp op (keys.foldl (fun s k => match amGet k s.tiles with
          | none => s
          | some t =>
            let (w, s) := spawnFor o s
            let s := acceptWrite k t (.adds (rowsIn k rows)) o.team o.ord o.phase w s
            if systemWaits s o.team o.ord then startArrival k s else s) s))
    | _ => .next s

/-! ### The end of an arrival (R310, R311, R313) -/

/-- One entry's bytes put into the frame, by writes performed everywhere at once (R311, R56) that stand for the appends of agents and
that their releases order. -/
def applyFrom (agents rels : List Nat) (frame : Nat) (e : LogEntry) (s : State) : State :=
  let base := frame * 2 ^ 16
  let put (a : Nat) (bs : List Byte) (s : State) : State := pokeAs (agents.headD agentControl) (agents.drop 1) rels a bs s
  if e.kind ≤ 2 then
    (runsOf (e.offsets.map (fun b => (base + b, nth 0 e.data ((b - e.off) % 16))))).foldl (fun s r => put r.1 r.2 s) s
  else (e.elems base).foldl (fun s x =>
    let r := addApplied x (BitVec.ofNat 32 (rdNat s x.pa 4)) (BitVec.ofNat 32 (if x.pair then rdNat s (x.pa + 4) 4 else 0))
    put x.pa (natBytes 4 r.1.toNat ++ (if x.pair then natBytes 4 r.2.toNat else [])) s) s

/-- The releases that order the appends an entry stands for (R42, R44, R56). -/
def LogEntry.rels (s : State) (e : LogEntry) : List Nat :=
  ((s.hist.filter (fun w => e.stamps.any (fun x => x.2.2 == w.stamp))).flatMap (fun w => w.rel)).eraseDups

/-- One entry applied to the frame (R311): its writes are those of the agents whose appends it stands for. -/
def applyEntry (frame : Nat) (s : State) (e : LogEntry) : State :=
  applyFrom ((e.stamps.map Prod.fst).eraseDups) (e.rels s) frame e s

/-- The trap of a fragment whose wait for a page or tile has failed with a status (R94, R125, R260); `how` is the wait's. -/
def waitFails (i : Nat) (f : Frag) (how : Nat) (va : DWord) (st : Nat) (s : State) : State :=
  match how with
  | 2 => trapHere i f false 0x13 va va (dw st) true s
  | 3 => trapHere i f false 0x13 f.pc va (dw st) false s
  | 4 => trapHere i f false 0x12 f.pc va 0 false s
  | h => trapHere i f (h == 1) 0x12 f.pc va (dw st) false s

/-- What waits for a tile goes on, with 0 or the status of its failed arrival: TILE operations, POOLMAP calls, and the waiters of its
merge entries (R310, R313). -/
def wakeTile (k : Nat) (t : Tile) (st : Nat) (s : State) : State :=
  let page := t.va.toNat
  let s : State := { s with ops := s.ops.map (fun o => match o.2.body with
    | .tile kind k' va d es =>
      if k' = k ∧ (kind = 9 ∨ kind = 12) then
        (o.1, { o.2 with body := .tile (kind + 8) k' va d (if kind = 9 then tileResult d (qstat s o.2.ctx va.toNat o.2.team o.1) else es) })
      else o
    | _ => o) }
  let s : State := { s with frags := s.frags.map (fun e => match e.2.wait with
    | .svc n a b call ns =>
      if ns.any (fun x => x.1 == page) && (match amGet e.2.team s.teams with
          | some tm => (match amGet tm.unit s.units with | some u => u.ctx == t.ctx | none => false)
          | none => false) then
        (e.1, { e.2 with wait := .svc n a b call (ns.map (fun x => if x.1 = page then (page, 256 + st) else x)) })
      else e
    | _ => e) }
  releasePage t.ctx page st s

/-- Operations of TILE whose result and arrival are both done are over. -/
def settleTiles (s : State) : State :=
  (s.ops.filter (fun o => match o.2.body with | .tile kind _ _ _ es => decide (16 ≤ kind) && es.isEmpty | _ => false)).foldl
    (fun s o => endOp o.1 s) s

/-- A held write applied as at its port, performed everywhere with it (R315). -/
def applyHeld (frame : Nat) (h : HeldWrite) (s : State) : State :=
  fencedWrite h.writer h.stamp s.seq
    ((writeEntries h.body (h.writer, h.stamp, s.seq)).foldl (fun s e => applyFrom [h.writer] [] frame e s) s)

/-- The arriving tile has its frame: its log is applied, then what a full log held; the leaf, as it stands now, becomes PAGE (R310,
R315). -/
def tileArrives (k : Nat) (t : Tile) (f : Nat) (s : State) : State :=
  let s := t.entries.foldl (applyEntry f) (forgetRange (f * 2 ^ 16) (2 ^ 16) s)
  let s := giveBackAll (t.entries.flatMap (fun e => e.weight)) s
  let s := t.held.foldl (fun s h => giveBackAll h.weight (applyHeld f h s)) s
  let s := match putLeaf t.ctx t.va.toNat false (asPage (t.now s) f) s with | some s => s | none => s
  let t' := { t with entries := [], held := [], state := .resident, frame := some f, failed := none }
  settleTiles (wakeTile k t' 0 { s with tiles := amPut k t' s.tiles })

/-- TILE_FRAME_OBTAINED (R310): the tile's frame comes from the pool or, filled, from the host. -/
def execTileFrameObtained (tile : Nat) (s : State) : Out :=
  match amGet tile s.tiles with
  | none => .next s
  | some t =>
    if t.state ≠ .arriving then .next s
    else match t.frame with
      | some f => .next (tileArrives tile t f s)
      | none =>
        if entryType t.leaf ≠ 3 then .next s
        else match takeFrame t.ctx (homeDie t.leaf false t.va.toNat) (t.now s) s with
          | .got f s => .next (tileArrives tile t f s)
          | _ => .next s

/-! ### Cancelling a context's job (R20) -/

/-- The units of a launch. -/
def Launch.units (l : Launch) : Nat := l.gridX * l.gridY * l.gridZ

/-- Its LAUNCH is done: every member has finished. -/
def Launch.done (l : Launch) : Bool := decide (l.units ≤ l.finished)

/-- A team has lanes that have not executed EXIT, and has not been stopped (R21, R112). -/
def teamRuns (s : State) (team : Nat) : Bool :=
  match amGet team s.teams with
  | some t => !t.exited && t.left != fullMask t.lanes
  | none => false

/-- The launches of a level that are not finished stop (R20, R21): what is not placed counts as finished by cancel, and every resident unit
with a lane that has not executed EXIT stops. -/
def cancelLaunches (p : Launch → Bool) (s : State) : State :=
  let hit := (s.launches.filter (fun l => p l.2 && !l.2.done)).map Prod.fst
  let s : State := { s with launches := s.launches.map (fun l => if hit.contains l.1 then (l.1, { l.2 with cancelled := true }) else l) }
  (s.units.filter (fun u => hit.contains u.2.launch && u.2.teams.any (teamRuns s))).foldl (fun s u => stopUnit u.1 s) s

/-- A cancel reaches a phase: one that has ended, but for the adds of its end, is finished and stays so (R21). -/
def Phase.cancel (p : Phase) : Phase := if p.closed && p.root == 2 ^ 48 then p else { p with cancelled := true }

/-- A Carillon context enters WAITING, HALTED or FAULTED: it returns its weight (R359). -/
def crlRest (n st : Nat) (s : State) : State :=
  match amGet n s.crls with
  | none => s
  | some c => giveBackAll c.weight { s with crls := amPut n { c with state := st, weight := [], blocked := false, halting := false, fault := none } s.crls }

/-- A job cancel halts a Carillon context (R362): at once at a boundary, where one stands that waits for a page with its microinstruction
still to be made (DEDUCED, notes/assumptions/61.md), else when its EMIT ends. -/
def crlCancel (n : Nat) (s : State) : State :=
  match amGet n s.crls with
  | none => s
  | some c =>
    if c.state = 2 ∨ (c.state = 1 ∧ c.emit.isNone = true) then leaveMerge (.carillon n) (crlRest n 3 s)
    else if c.state = 1 then { s with crls := amPut n { c with halting := true } s.crls }
    else if c.state = 5 ∧ c.prior ≤ 2 then crlRest n 5 { s with crls := amPut n { c with prior := 3 } s.crls }
    else s

/-- The job of a context is cancelled (R20). -/
def cancelJob (ctx : Nat) (s : State) : State :=
  let s := cancelLaunches (fun l => l.ctx == ctx) (modCtx ctx (fun c => { c with cancelled := true }) s)
  let s := (s.crls.filter (fun c => decide (c.2.owner = ctx))).foldl (fun s c => crlCancel c.1 s) s
  { s with
    phases := s.phases.map (fun p => if p.2.ctx = ctx then (p.1, p.2.cancel) else p)
    queues := s.queues.map (fun q => if q.2.ctx = ctx ∧ q.2.graph.isSome ∧ q.2.done < q.2.tail then (q.1, { q.2 with cancelled := true }) else q) }

/-- An arrival fails (R313, R315): the log is kept; what a full log held is lost, and then the job is cancelled. -/
def tileFails (k : Nat) (t : Tile) (st : Nat) (s : State) : State :=
  let t' := { t with state := .absent, failed := none, missed := true, held := [] }
  let s := settleTiles (wakeTile k t' st { s with tiles := amPut k t' s.tiles })
  if t.held.isEmpty then s
  else
    cancelJob t.ctx (recordError t.ctx 0 0
      { hcause := causeWord 0x12 0 false false false, haddr := t.va, hpc := 0, hinfo := dw st, hdpc := 0, tick := s.toll }
      (giveBackAll (t.held.flatMap (fun h => h.weight)) s))

/-- TILE_ARRIVAL_FAILED (R313): the pool cannot supply the frame, or the driver has refused. -/
def execTileArrivalFailed (tile : Nat) (status : Byte) (s : State) : Out :=
  match amGet tile s.tiles with
  | none => .next s
  | some t =>
    if t.state ≠ .arriving then .next s
    else if entryType t.leaf = 3 then
      match takeFrame t.ctx (homeDie t.leaf false t.va.toNat) (t.now s) s with
      | .refused => if status = 1 then .next (tileFails tile t 1 s) else .next s
      | _ => .next s
    else if t.failed = some status.toNat then .next (tileFails tile t status.toNat s)
    else .next s

/-- PHASE_LOG_ARRIVAL (R317): with every share of the phase home but those of logs, the tiles that carry its weight arrive. -/
def execPhaseLogArrival (phase : Nat) (s : State) : Out :=
  match amGet phase s.phases with
  | none => .next s
  | some p =>
    let inLog (e : LogEntry) : Nat := (e.weight.filter (fun w => w.1 = phase)).foldl (fun n w => n + w.2) 0
    let heldIn (h : HeldWrite) : Nat := (h.weight.filter (fun w => w.1 = phase)).foldl (fun n w => n + w.2) 0
    let total := s.tiles.foldl (fun n t => n + (t.2.entries.foldl (fun n e => n + inLog e) 0) + (t.2.held.foldl (fun n h => n + heldIn h) 0)) 0
    if p.root + total ≠ 2 ^ 48 then .next s
    else .next ((s.tiles.filter (fun t => t.2.entries.any (fun e => inLog e != 0))).foldl (fun s t => startArrival t.1 s) s)

/-! ### Fault records (R292) -/

/-- A record of a merge entry. -/
def faultRecord (n : Nat) (e : MergeEntry) : List Byte :=
  natBytes 8 (e.vpn * (if e.large then 2 ^ 21 else 2 ^ 16)) ++ natBytes 2 e.ctx ++ natBytes 1 e.info ++ natBytes 1 e.sub ++ natBytes 4 0 ++
  natBytes 8 (if entryType e.leaf = 4 then bitsOf e.leaf 47 16 else 0) ++ natBytes 4 (n % 2048 + n / 2048 * 2 ^ 11) ++ natBytes 4 0

/-- A record written to the context's ring if there is room (R292). -/
def writeRecord (ctx : Nat) (c : Context) (r : List Byte) (s : State) : State :=
  let s := pokeBytes (c.fring + 32 * (c.posted % c.frlen)) r s
  let s := pokeNat c.frctl 8 (c.posted + 1) s
  { s with ctxs := amPut ctx { c with posted := c.posted + 1 } s.ctxs, msix := c.frvec :: s.msix }

/-- The context's ring has room for a record. -/
def ringRoom (c : Context) : Bool := decide (c.posted < c.head + c.frlen)

/-- Held records written while they fit. -/
def drainRecords (ctx : Nat) : Nat → State → State
  | 0, s => s
  | n + 1, s => match amGet ctx s.ctxs with
    | none => s
    | some c => match c.heldRecords with
      | [] => s
      | r :: rs => if ringRoom c then drainRecords ctx n (writeRecord ctx { c with heldRecords := rs } r s) else s

/-- The MMP reads HEAD, and posts what it holds and what fits. -/
def readHead (ctx : Nat) (s : State) : State :=
  match amGet ctx s.ctxs with
  | none => s
  | some c =>
    drainRecords ctx c.heldRecords.length { s with ctxs := amPut ctx { c with head := rdNat s (c.frctl + 8) 8 } s.ctxs }

/-- FAULT_RING_HEAD_POLL (R292). -/
def execFaultRingHeadPoll (ctx : Nat) (s : State) : Out := .next (readHead ctx s)

/-- A merge entry is for the host path and has no record yet. -/
def wantsRecord (ctx : Nat) (e : MergeEntry) : Bool :=
  e.ctx == ctx && !e.recorded && e.released.isNone &&
  (entryType e.leaf != 3 && (entryType e.leaf == 0 || !entryBit e.leaf 10) || e.waiters.any (fun w => match w with | .tile _ => true | _ => false))

/-- A host-backed tile that arrives and has no merge entry of its own yet. -/
def wantsArrival (s : State) (ctx : Nat) (t : Nat × Tile) : Bool :=
  t.2.ctx == ctx && decide (t.2.state = .arriving) && entryType t.2.leaf == 4 && t.2.frame.isNone && t.2.failed.isNone && !isMerged s (.tile t.1)

/-- The entry's record is posted, or held by the MMP. -/
def postEntry (n : Nat) (s : State) : State :=
  match amGet n s.merge with
  | none => s
  | some e => match amGet e.ctx s.ctxs with
    | none => s
    | some c =>
      -- an arriving tile's record is of KIND 0, whoever made the entry (R310)
      let e := { e with info := if e.waiters.any (fun w => match w with | .tile _ => true | _ => false) then e.info / 4 * 4 else e.info }
      let r := faultRecord n e
      let s := { s with merge := amPut n { e with recorded := true } s.merge }
      if c.heldRecords.isEmpty && ringRoom c then writeRecord e.ctx c r s
      else { s with ctxs := amPut e.ctx { c with heldRecords := c.heldRecords ++ [r] } s.ctxs }

/-- FAULT_RECORD_POST (R292, R310): the record of one merge entry, or of one arriving tile, of the context. -/
def execFaultRecordPost (ctx : Nat) (s : State) : Out :=
  let es := (s.merge.filter (fun e => wantsRecord ctx e.2)).map Prod.fst
  let ts := (s.tiles.filter (wantsArrival s ctx)).map Prod.fst
  if (es ++ ts).isEmpty then .next s
  else
    let (k, s) := choose (es.length + ts.length) s
    match es[k]?, ts[k - es.length]? with
    | some n, _ => .next (postEntry n s)
    | none, some t => (match amGet t s.tiles with
      | none => .next s
      | some x => match mergeJoin (homeDie x.leaf false x.va.toNat) ctx false x.va.toNat x.leaf 0 (.tile t) s with
        | none => .next s
        | some (n, s) => .next (postEntry n s))
    | none, none => .next s

/-! ### The release of merge entries (R287, R289, R291) -/

/-- A waiter of a released entry goes on: it walks again, or takes the failure's status. -/
def tellWaiter (n st addr size : Nat) (s : State) (w : Waiter) : State :=
  match w with
  | .frag i => (match amGet i s.frags with
    | none => s
    | some f => match f.wait with
      | .merge m va how =>
        if m ≠ n then s
        else
          let s := modFrag i (fun f => { f with wait := .run }) s
          if st = 0 then s else waitFails i f how va st s
      | _ => s)
  | .op k => if st = 0 then s else { s with ops := amMod k (fun o => { o with fault := some (0x12, addr, size) }) s.ops }
  | .carillon c => { s with crls := amMod c (fun x => { x with blocked := false, fault := if st = 0 then x.fault else some 0x12 }) s.crls }
  | .service i => if st = 0 then s else modFrag i (fun f => { f with wait := match f.wait with
      | .svc m a b call ns => .svc m a b call (ns ++ [(addr, 256 + st)])
      | x => x }) s
  | .tile k => if st = 0 then s else { s with tiles := amMod k (fun t => { t with failed := some st }) s.tiles }
  | .agent a => if st = 0 then s else { s with agentFaults := amPut a 0x12 s.agentFaults }

/-- MERGE_REWALK (R287, R289, R291): a released entry's waiters go on and the entry leaves the table. Of one whose leaf is FIRST-TOUCH,
the MMP maps the page if an engine access made it, or if only engines still wait once a handler has ended; else the trap passes to
the earliest team waiter. -/
def execMergeRewalk (entry : Nat) (s : State) : Out :=
  match amGet entry s.merge with
  | none => .next s
  | some e =>
    let size : Nat := if e.large then 2 ^ 21 else 2 ^ 16
    let addr := e.vpn * size
    match e.released with
    | some st => .next (e.waiters.foldl (tellWaiter entry st addr size) { s with merge := amDel entry s.merge })
    | none =>
      if entryType e.leaf ≠ 3 ∨ entryBit e.leaf 10 = true then .next s
      else
        let first := (e.waiters.filter Waiter.isTeam).head?
        if e.byEngine || (e.toucher.isNone && first.isNone && !e.waiters.isEmpty) then
          let (now, _) := leafOf s e.ctx addr
          if entryType now ≠ 3 then .next (releasePage e.ctx addr 0 s)
          else match takeFrame e.ctx (homeDie now false addr) now s with
            | .got f s => .next (mapTouch e.ctx addr now f s)
            | .refused => .next { s with merge := amPut entry { e with released := some 1 } s.merge }
            | .later => .next s
        else if e.toucher.isNone then
          match first with
          | some (.frag i) => .next (modFrag i (fun f => { f with wait := .run })
              { s with merge := amPut entry { e with toucher := some i } s.merge })
          | _ => .next s
        else .next s

/-! ### Services (R295, R296) -/

/-- A service call returns: s16 := v unless a later-issued write has superseded it (R81), and the fragment goes on. -/
def serviceEnds (i : Nat) (f : Frag) (call : Nat) (v : DWord) (s : State) : State :=
  let (go, s) := destGate f.team (.scalar 16) s
  if !go then s
  else
    let live : Bool := match amGet call s.ops with | some o => o.body == .service true | none => false
    let s : State := if live then
        { s with teams := amMod f.team (putDest (.scalar 16) v) s.teams, ops := killEarlier f.team call [.scalar 16] s.ops }
      else s
    finishStop i (modFrag i (moveOn 4 f.key) (endOp call s))

/-- An earlier call on the same die has not taken effect (R296): one that waits only for an arrival or for the host has. -/
def serviceHeld (s : State) (die call : Nat) : Bool :=
  s.frags.any (fun e => match e.2.wait, amGet e.2.team s.teams with
    | .svc n _ _ call' ns, some t => dieOf t.gcore == die && decide (call' < call) && n != 3 && !(n == 1 && !ns.isEmpty)
    | _, _ => false)

/-- A service's address is canonical and global. -/
def serviceAddr (a n : Nat) : Bool := (checkSpan a n).isNone && aperture a == 0

/-- PREFETCH as it takes effect notes the pages of its range that are mapped already: of such a page it gives ALREADY (R295, R296). A
note at address 1, which is no page's, says that this is done. -/
def notePrefetch (i ctx : Nat) (pages : List Nat) (s : State) : State :=
  modFrag i (fun f => { f with wait := match f.wait with
    | .svc n x y call [] =>
      .svc n x y call ((1, 0) :: (pages.filter (fun a => entryType (leafOf s ctx a).1 == 2)).map (fun a => (a / 2 ^ 16 * 2 ^ 16, 258)))
    | w => w }) s

/-- The pages of PREFETCH's range that wait for the host or have failed: started, each joins its merge entry or its tile's
arrival; the state, and whether any is still out. -/
def prefetchPages (i die ctx : Nat) (pages : List Nat) (s : State) : State × Bool :=
  pages.foldl (fun (r : State × Bool) a =>
    let s := r.1
    let (e, large) := leafOf s ctx a
    let page := a / (if large then 2 ^ 21 else 2 ^ 16) * (if large then 2 ^ 21 else 2 ^ 16)
    match amGet i s.frags with
    | some f => (match f.wait with
      | .svc n x y call ns =>
        if entryType e ≠ 4 ∨ ns.any (fun z => z.1 == page && decide (256 ≤ z.2)) = true then r
        else if entryBit e 10 then
          let (k, s) := tileOf ctx a e s
          (startArrival k (modFrag i (fun f => { f with wait := .svc n x y call (ns.filter (fun z => z.1 != page) ++ [(page, 0)]) }) s), true)
        else match mergeJoin die ctx large a e 0 (.service i) s with
          | none => (s, true)
          | some (_, s) => (s, true)
      | _ => r)
    | none => r) (s, false)

/-- PREFETCH's status (R295, R296): of the first page that could not be mapped; else ALREADY if every page of the range was mapped when it
took effect, else OK. -/
def prefetchStatus (pages : List Nat) (notes : List (Nat × Nat)) : Nat :=
  match minBy (fun (x : Nat × Nat) => x.1) (notes.filter (fun x => decide (256 < x.2) && x.2 != 258)) with
  | some x => x.2 - 256
  | none => if pages.all (fun a => notes.any (fun x => x.1 == a / 2 ^ 16 * 2 ^ 16 && x.2 == 258)) then 2 else 0

/-- SVC_RETURN (R295, R296): the service's effect and its return, once it can. -/
def execSvcReturn (frag : Nat) (s : State) : Out :=
  match amGet frag s.frags with
  | none => .next s
  | some f => match f.wait, amGet f.team s.teams with
    | .svc n a b call notes, some t => match amGet t.unit s.units with
      | none => .next s
      | some u =>
        let die := dieOf t.gcore
        let done (st : Nat) (s : State) : Out := .next (serviceEnds frag f call (dw st) s)
        if serviceHeld s die call then .next s
        else match n with
        | 0 => .next (serviceEnds frag f call (s.boot.version.setWidth 64) s)
        | 1 =>
          let va := a.toNat
          if !serviceAddr va 1 then done 7 s
          else
            let (e, _) := leafOf s u.ctx va
            let page := va / 2 ^ 16 * 2 ^ 16
            match notes with
            | (_, st) :: _ => if st < 256 then .next s else done (st - 256) s
            | [] =>
              if entryType e = 2 then done 2 s
              else if entryType e ≠ 3 then done 3 s
              else if entryBit e 10 then
                let (k, s) := tileOf u.ctx va e s
                .next (startArrival k (modFrag frag (fun f => { f with wait := .svc n a b call [(page, 0)] }) s))
              else match takeFrame u.ctx (homeDie e false va) e s with
                | .got p s => done 0 (mapTouch u.ctx va e p s)
                | .refused => done 1 s
                | .later => .next s
        | 2 => done (match amGet u.ctx s.ctxs with | some c => (c.pool die).length | none => 0) s
        | 3 =>
          if b = 0 ∨ serviceAddr a.toNat b.toNat = false then done 7 s
          else
            let pages := (pagePieces (b.toNat / 2 ^ 16 + 2) a.toNat b.toNat).map Prod.fst
            let (s, out) := prefetchPages frag die u.ctx pages (notePrefetch frag u.ctx pages s)
            let notes := match (amGet frag s.frags).map (fun f => f.wait) with | some (.svc _ _ _ _ ns) => ns | _ => notes
            if out then .next s
            else done (prefetchStatus pages notes) s
        | _ => done 255 s
    | _, _ => .next s

end Sys2Proof.Machine
end

