-- ==== Sys2Proof/Machine/Selection.lean ====
section
/-! DEFINITION. The selection engines (R321 to R337): the record, keys, predicates, order, lists, SEL.GO, SEL.MERGE, the partial
lists of the stacks and completion. -/

namespace Sys2Proof.Machine

/-! ### The record (R323) -/

/-- OP. -/
def Selection.op (x : Selection) : Nat := field x.record 0 1
/-- EFMT. -/
def Selection.efmt (x : Selection) : Nat := field x.record 1 1
/-- KEY. -/
def Selection.keyBy (x : Selection) : Nat := field x.record 2 1
/-- PRED. -/
def Selection.pred (x : Selection) : Nat := field x.record 3 1
/-- MODE. -/
def Selection.mode (x : Selection) : Nat := field x.record 4 1
/-- NDIM. -/
def Selection.ndim (x : Selection) : Nat := field x.record 5 1
/-- DEST. -/
def Selection.dest (x : Selection) : Nat := field x.record 6 1
/-- CSCOPE. -/
def Selection.cscope (x : Selection) : Nat := field x.record 7 1
/-- SBASE. -/
def Selection.sbase (x : Selection) : Nat := field x.record 16 8
/-- DBASE. -/
def Selection.dbase (x : Selection) : Nat := field x.record 24 8
/-- CTR. -/
def Selection.ctr (x : Selection) : DWord := dw (field x.record 32 8)
/-- BASEIDX. -/
def Selection.baseidx (x : Selection) : Nat := field x.record 48 8
/-- LAMBDA. -/
def Selection.lambda (x : Selection) : Word := BitVec.ofNat 32 (field x.record 56 4)
/-- PA. -/
def Selection.pa (x : Selection) : Word := BitVec.ofNat 32 (field x.record 64 4)
/-- PB. -/
def Selection.pb (x : Selection) : Word := BitVec.ofNat 32 (field x.record 68 4)
/-- SIZE[d]. -/
def Selection.size (x : Selection) (d : Nat) : Nat := field x.record (80 + 4 * d) 4
/-- STRIDE[d]. -/
def Selection.stride (x : Selection) (d : Nat) : Int := field32 x.record (96 + 4 * d)
/-- The extents of the region. -/
def Selection.sizes (x : Selection) : List Nat := (upFrom 0 x.ndim).map x.size
/-- The list's capacity: K or MAXOUT. -/
def Selection.capacity (x : Selection) : Nat := if x.mode = 1 then field x.record 8 2 else field x.record 12 4

/-- Bytes of an element (R325). -/
def elemBytes (efmt : Nat) : Nat := match efmt with | 1 => 2 | 2 => 2 | 3 => 1 | 8 => 8 | _ => 4
/-- INT8 and INT32 have INT keys (R326). -/
def intFmt (efmt : Nat) : Bool := efmt == 3 || efmt == 4
/-- Every byte of a range of the record is 0. -/
def Selection.zeros (x : Selection) (off n : Nat) : Bool := field x.record off n == 0

/-- The record breaks no entry of R331 for the instruction that issued it. -/
def Selection.wellFormed (x : Selection) : Bool :=
  let total := x.sizes.foldl (fun a n => a * n) 1
  let k := field x.record 8 2
  let maxout := field x.record 12 4
  let ints := intFmt x.efmt
  let nan (w : Word) : Bool := !ints && isNan w
  x.zeros 10 2 && x.zeros 60 4 && x.zeros 72 8 && x.zeros 112 16 && decide (x.cscope ≤ 5) &&
  (match x.mode with
    | 0 => k == 0 && decide (1 ≤ maxout) && decide (maxout ≤ 65536)
    | 1 => decide (1 ≤ k) && decide (k ≤ 256) && maxout == 0
    | _ => false) &&
  (match x.dest with
    | 0 => x.dbase % 16 == 0
    | 1 => decide (x.dbase < 4096) && decide (x.capacity ≤ 256) && (x.merge || !ints)
    | _ => false) &&
  (if x.merge then
    x.op == 1 && x.efmt == 0 && x.keyBy == 0 && x.pred == 0 && x.ndim == 0 && decide (1 ≤ x.size 0) && decide (x.size 0 ≤ 16) &&
    x.zeros 84 12 && x.zeros 96 16 && x.zeros 56 4 && x.zeros 64 8 && x.sbase % 8 == 0
  else
    x.op == 0 && (decide (x.efmt ≤ 4) || x.efmt == 8) &&
    (if x.efmt = 8 then decide (1 ≤ x.keyBy) && decide (x.keyBy ≤ 3) else x.keyBy == 0) &&
    decide (x.pred ≤ 9) && (decide (x.pred < 8) || ints) && decide (1 ≤ x.ndim) && decide (x.ndim ≤ 4) &&
    (upFrom x.ndim (4 - x.ndim)).all (fun d => x.size d == 0 && x.stride d == 0) &&
    decide (total ≤ 2 ^ 40) && decide (x.baseidx + total ≤ 2 ^ 64) &&
    (if 2 ≤ x.keyBy then decide (x.lambda.toNat < 0x7F800000) else x.lambda == 0) &&
    !nan x.pa && !nan x.pb && (x.pred == 7 || x.pb == 0) && x.sbase % elemBytes x.efmt == 0)

/-! ### Keys, predicates and order (R326 to R328) -/

/-- A storage value as binary32, exact. -/
def exact32 (fmt code : Nat) : Word :=
  match fmtValue fmt code with
  | .nan => qnan
  | .inf neg => infOf neg
  | .fin neg m e => if m = 0 then zeroOf neg else (roundMag 24 neg m e false).w

/-- The key of an element, with its VALUE (R326, R329). -/
def Selection.keyOf (x : Selection) (code : Nat) : Word × Word :=
  match x.efmt with
  | 3 => (BitVec.ofInt 32 (signedByte code), BitVec.ofNat 32 code)
  | 4 => (BitVec.ofNat 32 code, BitVec.ofNat 32 code)
  | 8 =>
    let mu : Word := BitVec.ofNat 32 code
    let v : Word := BitVec.ofNat 32 (code / 2 ^ 32)
    if x.keyBy = 1 ∨ x.lambda = 0 then (mu, v)
    else
      let t := (fMul x.lambda (fnu 2 (intake mu (unsign v)).1).w).w
      ((if x.keyBy = 2 then fAdd mu t else fSub mu t).w, v)
  | 0 => (BitVec.ofNat 32 code, BitVec.ofNat 32 code)
  | f => (exact32 f code, BitVec.ofNat 32 code)

/-- A key is less than another (R327). -/
def keyLt (ints : Bool) (a b : Word) : Bool := if ints then a.slt b else fLt a b
/-- Two keys are equal (R327). -/
def keyEq (ints : Bool) (a b : Word) : Bool := if ints then a == b else fEq a b

/-- The element qualifies (R327). -/
def Selection.qualifies (x : Selection) (key : Word) : Bool :=
  let ints := intFmt x.efmt
  let lt (a b : Word) : Bool := keyLt ints a b
  let eq (a b : Word) : Bool := keyEq ints a b
  (ints || !isNan key) && (match x.pred with
    | 1 => lt x.pa key
    | 2 => lt x.pa key || eq x.pa key
    | 3 => lt key x.pa
    | 4 => lt key x.pa || eq key x.pa
    | 5 => eq key x.pa
    | 6 => !eq key x.pa
    | 7 => (lt x.pa key || eq x.pa key) && (lt key x.pb || eq key x.pb)
    | 8 => key &&& x.pa != 0
    | 9 => key &&& x.pa == x.pa
    | _ => true)

/-- Entry a comes no later than entry b in the order of R328. -/
def rankLe (ints : Bool) (a b : SelEntry) : Bool :=
  keyLt ints b.key a.key || (!keyLt ints a.key b.key && decide (a.index ≤ b.index))

/-! ### Accesses (R333, R334) -/

/-- The selection's accesses: of its team's context, by the walker of its die. -/
def selectEng (op : Nat) (o : Op) : Eng :=
  { who := .op op, agent := agentEngine op, ctx := o.ctx, die := dieOf o.gcore, core := none, ord := op, phase := o.phase }

/-- The offset in a span of its first piece that is no device memory. -/
def notDevice : List (Spot × Nat) → Option Nat
  | [] => none
  | (sp, n) :: ps =>
    if (match sp with | .at pa _ => decide (2 ^ 40 ≤ pa) | .log _ _ => true) then some 0 else (notDevice ps).map (fun k => n + k)

/-- A place of a selection's read in device memory; another place is NOT-DEVICE (R333). -/
def deviceSpots (g : Eng) (ea : Int) (n : Nat) (s : State) : EngRes (List (Spot × Nat)) :=
  match engineSpots g none ea n needLoad s with
  | .error (s, .fault c a) => .error (s, .fault (if c = 0x0B then 0x41 else c) a)
  | .error e => .error e
  | .ok (s, ps) => match notDevice ps with
    | some k => .error (s, .fault 0x41 (BitVec.ofInt 64 (ea + k)))
    | none => .ok (s, ps)

/-- Places of reads, each as it comes out. -/
abbrev Reach := List (Nat × Except EngStop (List (Spot × Nat)))

/-- The parts of a span, each in one page, where pages translate it: each is reached by itself, whatever becomes of the others (R333). -/
def pageParts (x : Nat × Int × Nat) : List (Nat × Int × Nat) :=
  if x.2.2 = 0 ∨ (checkSpan x.2.1 x.2.2).isSome = true ∨ aperture x.2.1.toNat ≠ 0 then [x]
  else (pagePieces (x.2.2 / 2 ^ 16 + 2) x.2.1.toNat x.2.2).map (fun p => (x.1, (p.1 : Int), p.2))

/-- Every span of a list of numbered spans placed. -/
def reachAll (g : Eng) (spans : List (Nat × Int × Nat)) (s : State) : Reach × State :=
  (spans.flatMap pageParts).foldl (fun r x => match deviceSpots g x.2.1 x.2.2 r.2 with
    | .ok (s, ps) => (r.1 ++ [(x.1, .ok ps)], s)
    | .error (s, e) => (r.1 ++ [(x.1, .error e)], s)) ([], s)

/-- The faults among places. -/
def reachFaults (r : Reach) : List (Nat × DWord) :=
  r.filterMap (fun x => match x.2 with | .error (.fault c a) => some (c, a) | _ => none)

/-- Some place is still waited for. -/
def reachWaits (r : Reach) : Bool := r.any (fun x => match x.2 with | .error .wait => true | _ => false)

/-- The physical addresses of a number's place, part after part. -/
def reachPa (r : Reach) (k : Nat) : List Nat :=
  (r.filter (fun x => x.1 == k)).flatMap (fun x => match x.2 with
    | .ok ps => ps.flatMap (fun p => match p.1 with | .at pa _ => upFrom pa p.2 | .log _ _ => [])
    | .error _ => [])

/-- The region's elements, numbered in ravel order, with their spans (R325). -/
def Selection.spans (x : Selection) : List (Nat × Int × Nat) :=
  let vs := vectors x.sizes
  let b := elemBytes x.efmt
  ((upFrom 0 vs.length).zip vs).map (fun v => (v.1, (x.sbase : Int) + dotFrom x.stride 0 v.2 * (b : Int), b))

/-! ### The course of a selection (R332, R334) -/

/-- The selection's data are done or it ends as ERROR: STATUS and the add remain. -/
def endSelection (op : Nat) (x : Selection) (state trunc cause fpage : Nat) (s : State) : State :=
  setBody op (.select { x with stage := 3, parts := [], places := [], entries := [], status := state + trunc * 2 ^ 4 + cause * 2 ^ 8 + fpage / 2 ^ 16 * 2 ^ 16 })
    (leaveMerge (.op op) s)

/-- The record without its counter: no add is made. -/
def Selection.noCounter (x : Selection) : Selection := { x with record := x.record.take 32 ++ natBytes 8 0 ++ x.record.drop 40 }

/-- The check of the destination (R334). -/
def selectDest (g : Eng) (u : UnitSt) (x : Selection) (s : State) : EngRes (List (Spot × Nat)) :=
  if x.dest = 0 then engineSpots g (some u) x.dbase (16 + 16 * x.capacity) needStore s
  else match amGet (g.die * 4096 + x.dbase) s.crls with
    | some c => if c.owner = g.ctx then .ok (s, []) else .error (s, .fault 0x11 0)
    | none => .error (s, .fault 0x11 0)

/-- A selection whose counter fails with a cause ends without an add; a destination that fails as well may be the fault found. -/
def counterFails (op : Nat) (g : Eng) (u : UnitSt) (x : Selection) (c : Nat) (s : State) : State :=
  let a := x.ctr.toNat
  let x := x.noCounter
  if !x.wellFormed then endSelection op x 3 0 0x40 0 s
  else
    let (k, s) := choose 2 s
    match selectDest g u x s with
    | .error (s, .fault c' a') => if k = 0 then endSelection op x 3 0 c a s else endSelection op x 3 0 c' a'.toNat s
    | .error (s, .wait) => endSelection op x 3 0 c a s
    | .ok (s, _) => endSelection op x 3 0 c a s

/-- The checks before anything is read (R331, R334). -/
def checkSelection (op : Nat) (o : Op) (x : Selection) (u : UnitSt) (s : State) : State :=
  let g := selectEng op o
  let ctr : EngRes Nat := if x.ctr = 0 then .ok (s, 0) else engineCounter g x.ctr true s
  match ctr with
  | .error (s, .wait) => s
  | .error (s, .fault c _) => counterFails op g u x c s
  | .ok (s, _) =>
    if !x.wellFormed then endSelection op x 3 0 0x40 0 s
    else match selectDest g u x s with
      | .error (s, .fault c a) => endSelection op x 3 0 c a.toNat s
      | .error (s, .wait) => s
      | .ok (s, _) => setBody op (.select { x with stage := 1 }) s

/-- The region reached: a fault ends the selection, a page still waited for holds it, and then each element has its place. -/
def withRegion (op : Nat) (o : Op) (x : Selection) (k : Selection → State → State) (s : State) : State :=
  if !x.places.isEmpty then k x s
  else
    let (r, s) := reachAll (selectEng op o) x.spans s
    match reachFaults r with
    | f :: fs =>
      let ((c, a), s) := pickOne f (f :: fs) s
      endSelection op x 3 0 c a.toNat s
    | [] =>
      if reachWaits r then s
      else
        let x := { x with places := (upFrom 0 x.spans.length).map (fun n => (n, reachPa r n)) }
        k x (setBody op (.select x) s)

/-- The elements that a stack homes. -/
def onStack (x : Selection) (stack : Nat) : List (Nat × List Nat) :=
  x.places.filter (fun e => match e.2 with | pa :: _ => stackOf pa == stack | [] => false)

/-- The stacks that home elements. -/
def stacksOf (x : Selection) : List Nat := (upFrom 0 16).filter (fun k => !(onStack x k).isEmpty)

/-- A stack engine reads its elements, each sector once, and keeps and ranks those that qualify (R332, R333). -/
def stackList (op : Nat) (x : Selection) (stack : Nat) (s : State) : State :=
  let mine := onStack x stack
  let (bytes, s) := engineBytes (agentEngine op) (mine.flatMap Prod.snd) s
  let all : List SelEntry := mine.filterMap (fun e =>
    let (key, v) := x.keyOf (spanNat bytes e.2)
    if x.qualifies key then some { index := x.baseidx + e.1, key := key, value := v } else none)
  let best := (sortBy (rankLe (intFmt x.efmt)) all).take x.capacity
  setBody op (.select { x with parts := amPut stack (all.length, best) x.parts }) s

/-- SELECTION_PARTIAL_LIST (R332): a stack's list reaches the hub. -/
def execSelectionPartialList (op stack : Nat) (s : State) : Out :=
  match amGet op s.ops with
  | none => .next s
  | some o => match o.body with
    | .select x =>
      if x.stage ≠ 1 || x.merge || (amGet stack x.parts).isSome || isMerged s (.op op) || o.fault.isSome then .next s
      else .next (withRegion op o x (fun x s => if (onStack x stack).isEmpty then s else stackList op x stack s) s)
    | _ => .next s

/-- The places of n bytes, as numbers: physical addresses, and beyond them those of bytes in logs. -/
def spotPlaces (ps : List (Spot × Nat)) (n : Nat) : List Nat :=
  (upFrom 0 n).map (fun k => match spotAt ps k with | .at pa _ => pa | .log l off => 2 ^ 70 + l * 2 ^ 20 + off)

/-- A running selection has a destination in memory (R336): its list is still to be written, or written with its end still to come. -/
def Selection.hasList (z : Selection) : Bool := z.dest == 0 && z.wellFormed && (decide (z.stage < 3) || z.status % 16 == 2)

/-- The places of a running selection's destination in memory, as far as its pages translate now (R336). -/
def selectTarget (op : Nat) (o : Op) (s : State) : List Nat :=
  match o.body, amGet o.unit s.units with
  | .select z, some u =>
    if !z.hasList then []
    else match selectDest (selectEng op o) u z s with
      | .ok (_, ps) => spotPlaces ps (16 + 16 * z.capacity)
      | .error _ => []
  | _, _ => []

/-- The destination of a running selection y overlaps that of x, of operation o, which lies at `mine` (R336): in memory, or by its address
in the same context, where its pages are still waited for. -/
def targetsMeet (o : Op) (x : Selection) (mine : List Nat) (y : Nat × Op) (s : State) : Bool :=
  (selectTarget y.1 y.2 s).any mine.contains || (decide (y.2.ctx = o.ctx) && match y.2.body with
    | .select z => z.hasList && (checkSpan z.dbase 1).isNone && aperture z.dbase == 0 && decide (z.dbase < x.dbase + (16 + 16 * x.capacity)) &&
        decide (x.dbase < z.dbase + (16 + 16 * z.capacity))
    | _ => false)

/-- A selection whose list is written, and whose end is still to come, has run beside one whose destination overlaps its own: the bytes of
its list are free as well (R336). -/
def spoilTarget (s : State) (y : Nat × Op) : State :=
  match y.2.body, amGet y.2.unit s.units with
  | .select z, some u =>
    if z.stage < 3 then s
    else
      let g := selectEng y.1 y.2
      match selectDest g u z s with
      | .ok (s, ps) =>
        let (bs, s) := drawBytes (16 + 16 * z.capacity) s
        writeCells g.agent y.2 y.1 (cellsAt ps bs) s
      | .error _ => s
  | _, _ => s

/-- The result of a selection: its list, or its candidates (R329, R335, R336). -/
def formResult (op : Nat) (o : Op) (u : UnitSt) (x : Selection) (ints : Bool) (total : Nat) (all : List SelEntry) (read : List Nat)
    (s : State) : State :=
  let g := selectEng op o
  let es := (sortBy (rankLe ints) all).take x.capacity
  let trunc := b2n (x.mode == 0 && decide (x.capacity < total))
  if x.dest = 1 then
    match es.find? (fun e => decide (2 ^ 32 ≤ e.index)) with
    | some _ => endSelection op x 3 0 0x42 0 s
    | none => setBody op (.select { x with stage := 2, parts := [], places := [], entries := es, status := 2 + trunc * 2 ^ 4 }) s
  else match selectDest g u x s with
    | .error (s, .fault c a) => endSelection op x 3 0 c a.toNat s
    | .error (s, .wait) => s
    | .ok (s, ps) =>
      let mine := spotPlaces ps (16 + 16 * x.capacity)
      let meets := mine.any read.contains
      let met := s.ops.filter (fun y => y.1 != op && targetsMeet o x mine y s)
      let others := met.map Prod.fst
      let s := met.foldl spoilTarget s
      let s := { s with ops := s.ops.map (fun y => if others.contains y.1 then (y.1, { y.2 with body := match y.2.body with
        | .select z => .select { z with clash := true }
        | b => b }) else y) }
      let list := natBytes 4 es.length ++ natBytes 4 (b2n ints) ++ natBytes 8 (sat64 total) ++
        es.flatMap (fun e => natBytes 8 e.index ++ natBytes 4 e.key.toNat ++ natBytes 4 e.value.toNat)
      let (bs, s) := if meets || x.clash || !others.isEmpty then drawBytes (16 + 16 * x.capacity) s else (list, s)
      endSelection op x 2 trunc 0 0 (writeCells g.agent o op (cellsAt ps bs) s)

/-- The hub merges the stacks' lists once it has one of each (R332). -/
def mergeParts (op : Nat) (o : Op) (u : UnitSt) (x : Selection) (s : State) : State :=
  withRegion op o x (fun x s =>
    if (stacksOf x).all (fun k => (amGet k x.parts).isSome) then
      formResult op o u x (intFmt x.efmt) ((x.parts.map (fun p => p.2.1)).foldl (· + ·) 0) (x.parts.flatMap (fun p => p.2.2))
        (x.places.flatMap Prod.snd) s
    else s) s

/-- The hub's read of several spans, beside what it has read already (each sector once, R333): the bytes of each, their addresses, and
all that has been read. Of several faults, which is found is open; a fault comes before a wait. -/
def hubReads (g : Eng) (spans : List (Int × Nat)) (had : AMap Byte) (s : State) : EngRes (List (List Byte × List Nat) × AMap Byte) :=
  let (r, s) := reachAll g ((upFrom 0 spans.length).zip spans) s
  match reachFaults r with
  | f :: fs =>
    let ((c, a), s) := pickOne f (f :: fs) s
    .error (s, .fault c a)
  | [] =>
    if reachWaits r then .error (s, .wait)
    else
      let pas := (upFrom 0 spans.length).map (reachPa r)
      let (m, s) := engineBytes g.agent (pas.flatten.filter (fun a => (amGet a had).isNone)) s
      let all := m.foldl (fun h x => amPut x.1 x.2 h) had
      .ok (s, (pas.map (fun p => (p.map (fun a => smGet 0 a all), p)), all))

/-- Elements in a free order. -/
def shuffle {α : Type} : Nat → List α → State → List α × State
  | 0, l, s => (l, s)
  | n + 1, l, s =>
    let (k, s) := choose l.length s
    match l.drop k with
    | [] => ([], s)
    | a :: after =>
      let (r, s) := shuffle n (l.take k ++ after) s
      (a :: r, s)

/-- The spans that SEL.MERGE reads, as far as its table and lists can be read now. -/
def mergeSpans (g : Eng) (x : Selection) (s : State) : List (Int × Nat) :=
  let table : Int × Nat := (x.sbase, 8 * x.size 0)
  match hubReads g [table] [] s with
  | .ok (s, ([t], had)) =>
    let heads : List (Int × Nat) := (chunks 8 t.1.length t.1).map (fun a => ((bytesNat a : Nat), 16))
    (table :: heads) ++ (match hubReads g heads had s with
      | .ok (_, (hs, _)) => (heads.zip hs).map (fun h => (h.1.1 + 16, 16 * field h.2.1 0 4))
      | .error _ => [])
  | _ => [table]

/-- SEL.MERGE at the hub (R330). The order of entries with NaN keys, which no engine writes, is open. -/
def mergeLists (op : Nat) (o : Op) (u : UnitSt) (x : Selection) (s : State) : State :=
  let g := selectEng op o
  let r := engThen (hubReads g [(x.sbase, 8 * x.size 0)] [] s) fun s (tables, had) =>
    let (table, tpas) := tables.headD ([], [])
    let addrs := (chunks 8 table.length table).map bytesNat
    engThen (hubReads g (addrs.map (fun (a : Nat) => ((a : Int), 16))) had s) fun s (heads, had) =>
    let bad := addrs.any (fun a => a % 16 != 0) ||
      heads.any (fun h => decide (1 < field h.1 4 1) || field h.1 4 1 != field ((heads.headD ([], [])).1) 4 1 || decide (65536 < field h.1 0 4)) ||
      (x.dest == 1 && field ((heads.headD ([], [])).1) 4 1 == 1)
    if bad then .error (s, .fault 0x43 0)
    else
      engThen (hubReads g ((addrs.zip heads).map (fun h => ((h.1 : Int) + 16, 16 * field h.2.1 0 4))) had s) fun s (lists, _) =>
      .ok (s, (heads, lists, tpas))
  match r with
  | .error (s, .wait) => s
  | .error (s, .fault c a) => endSelection op x 3 0 c (if c = 0x43 then 0 else a.toNat) s
  | .ok (s, (heads, lists, tpas)) =>
    let ints := field ((heads.headD ([], [])).1) 4 1 == 1
    let es : List SelEntry := lists.flatMap (fun l => (chunks 16 l.1.length l.1).map (fun b =>
      { index := field b 0 8, key := BitVec.ofNat 32 (field b 8 4), value := BitVec.ofNat 32 (field b 12 4) }))
    let (es, s) := if !ints && es.any (fun e => isNan e.key) then shuffle es.length es s else (es, s)
    formResult op o u x ints (sat64 ((heads.map (fun h => field h.1 8 8)).foldl (· + ·) 0)) es
      (tpas ++ heads.flatMap Prod.snd ++ lists.flatMap Prod.snd) s

/-- The end of a selection (R334): its writes performed at CSCOPE, STATUS, the counter add. A counter whose page has failed gets no add;
without an add, the list is released at CSCOPE all the same (R38, R42, R333; notes/assumptions/84.md). -/
def finishSelection (op : Nat) (o : Op) (x : Selection) (s : State) : State :=
  let g := selectEng op o
  if appendsOut s g.agent op then s
  else if x.cscope = 5 ∧ x.stage = 3 then startLogs g.agent (setBody op (.select { x with stage := 4 }) s)
  else if x.cscope = 5 && logsOut s g.agent then s
  else
    let add : EngRes Nat := if x.ctr = 0 ∨ o.fault.isSome = true then .error (s, .fault 0 0) else engineCounter g x.ctr true s
    match add with
    | .error (s, .wait) => s
    | r =>
      let s := match r with
        | .ok (s, _) => s
        | .error (s, _) =>
          releaseOwn g.agent { agent := g.agent, pos := .die g.die, scope := x.cscope, full := false, all := true, counter := none } s
      let s := match amGet o.unit s.units with
        | none => s
        | some u => match scratchSpot u (x.va.toNat + 40) 8 with
          | none => s
          | some p => writeRuns g.agent none [(p, natBytes 8 x.status)] s
      let s := match r with
        | .ok (_, pa) => addCounter g.agent (agentSelect g.die) (.die g.die) x.cscope pa 1 o.ctx o.gcore
            (match amGet o.team s.teams with | some t => t.idx | none => 0) x.ctr s
        | .error _ => s
      endOp op (inherit g.agent (agentUnit o.unit) s)

/-- SELECTION_COMPLETE (R331 to R334): the next step of a selection: its checks, its result, or its end. -/
def execSelectionComplete (op : Nat) (s : State) : Out :=
  match amGet op s.ops with
  | none => .next s
  | some o => match o.body, amGet o.unit s.units with
    | .select x, some u =>
      if 3 ≤ x.stage then .next (if isMerged s (.op op) then s else finishSelection op o x s)
      else match o.fault with
        | some (c, page, n) =>
          let g := selectEng op o
          let s := { s with ops := amMod op (fun o => { o with fault := none }) s.ops }
          if x.stage = 0 ∧ x.ctr ≠ 0 ∧ x.ctr.toNat / n = page / n then .next (leaveMerge (.op op) (counterFails op g u x c s))
          else
            let dest : List (Int × Nat) := if x.dest = 0 then [(x.dbase, 16 + 16 * x.capacity)] else []
            let (a, s) := faultAddr (if x.stage = 0 then dest else dest ++ (if x.merge then mergeSpans g x s else x.spans.map Prod.snd)) page n s
            .next (endSelection op x 3 0 c a s)
        | none =>
          if isMerged s (.op op) then
            -- a fault on any page ends a selection that waits on others (R333)
            .next (if x.stage ≠ 1 then s else if x.merge then mergeLists op o u x s else withRegion op o x (fun _ s => s) s)
          else match x.stage with
            | 0 => .next (checkSelection op o x u s)
            | 1 => .next (if x.merge then mergeLists op o u x s else mergeParts op o u x s)
            | _ => .next s
    | _, _ => .next s

/-! ### SEL.GO and SEL.MERGE (R321, R322) -/

/-- A write is performed at DEVICE scope by a release, or happens before what the team does next (R333). -/
def deviceWrite (s : State) (team : Nat) (w : WriteRec) : Bool :=
  w.acq.contains team || w.rel.any (fun n => match amGet n s.rels with | some r => decide (4 ≤ r.scope) | none => false)

/-- A selection is handed over (R321, R322). -/
def selectGo (merge : Bool) (a : BitVec 5) (s : State) : Out :=
  onePass 4 (fun s i f t =>
    let va := sGet t f.handler a.toNat
    match checkSpan va.toNat 128, amGet t.unit s.units with
    | some c, _ => .error (s, .trap c va 0)
    | none, none => .error (s, .stall)
    | none, some u =>
      if aperture va.toNat ≠ 1 then .error (s, .trap 0x0B va 0)
      else match scratchSpot u va.toNat 128 with
        | none => .error (s, .trap 0x0B va 0)
        | some p =>
          if va.toNat % 128 ≠ 0 then .error (s, .trap 0x0D va 0)
          else if accessHeld s f.team then .error (s, .stall)
          else if 2 ≤ (s.ops.filter (fun o => decide (o.2.gcore = t.gcore) && match o.2.body with | .select _ => true | _ => false)).length then
            .error (s, .stall)
          else
            let (bytes, s) := readSpans f.team [(p, 128)] s
            let block := (upFrom p 128).map (fun y => smGet 0 y bytes)
            let s := teamWrite i f t none (placeBytes [(.at (p + 40) 0, 8)] (natBytes 8 1)) s
            let op := s.seq
            let s := issueOp i f t f.setB
              (.select { record := block, va := va, merge := merge, stage := 0, parts := [], entries := [], status := 1, reached := none, places := [], clash := false }) s
            .ok { s with hist := s.hist.map (fun w => if deviceWrite s f.team w then { w with acq := agentEngine op :: w.acq } else w) }) s

/-- SEL.GO (R321). -/
def execSelGo (a : BitVec 5) (s : State) : Out := selectGo false a s
/-- SEL.MERGE (R321). -/
def execSelMerge (a : BitVec 5) (s : State) : Out := selectGo true a s

end Sys2Proof.Machine
end

