-- ==== Sys2Proof/Machine/Carillon.lean ====
section
/-! DEFINITION. The Carillon (R339 to R363): microinstructions, doorbells, output, faults, CRL.POST, deliveries, suspension. -/

namespace Sys2Proof.Machine

/-! ### A context's registers -/

/-- Working register n. -/
def Crl.reg (c : Crl) (n : Nat) : Word := smGet 0 n c.c
/-- The context with working register n written. -/
def Crl.put (n : Nat) (v : Word) (c : Crl) : Crl := { c with c := smPut 0 n v c.c }
/-- VAL of a position. -/
def Crl.value (c : Crl) (e : Nat) : Word := smGet 0 e c.val
/-- IDX of a position. -/
def Crl.index (c : Crl) (e : Nat) : Word := smGet 0 e c.idx
/-- The live positions, ascending. -/
def Crl.live (c : Crl) : List Nat := upFrom 0 c.ccnt
/-- VAL of the live positions. -/
def Crl.values (c : Crl) : List Word := c.live.map c.value
/-- The context with VAL of positions from 0 on replaced. -/
def Crl.withValues (vs : List Word) (c : Crl) : Crl :=
  { c with val := ((upFrom 0 vs.length).zip vs).foldl (fun m e => smPut 0 e.1 e.2 m) c.val }
/-- Stream n draws (R347): the uniform of R210, and POS advanced. -/
def Crl.uniform (c : Crl) (n : Nat) : Word × Crl :=
  (uniformOf (peal (smGet 0 n c.key) (smGet 0 n c.x) (smGet 0 n c.pos)).w0, { c with pos := smPut 0 n (smGet 0 n c.pos + 1) c.pos })
/-- The final running sum of R345, +0 with no candidate. -/
def Crl.total (c : Crl) : Word := (runningSums none c.values).getLastD 0

/-- CSTAT (R341). -/
def cstat (s : State) (n : Nat) : DWord :=
  match amGet n s.crls with
  | none => 0
  | some c => dw (c.state + c.pc % 1024 * 2 ^ 4 + c.prog * 2 ^ 14 + c.fcause * 2 ^ 18 + c.tcause * 2 ^ 26 + c.ccnt * 2 ^ 34 +
      c.hist.length * 2 ^ 43)

/-! ### The course of a context -/

/-- A fault (R353, R354): PC stays, and the context is FAULTED. -/
def crlFault (n fcause tcause : Nat) (s : State) : State :=
  crlRest n 4 (leaveMerge (.carillon n) { s with crls := amMod n (fun c => { c with fcause := fcause, tcause := tcause, fault := none }) s.crls })

/-- The selected context's microinstruction. -/
def micro (body : State → Nat → Crl → State) (s : State) : Out :=
  match s.curCrl with
  | none => .fault .noContext
  | some n => match amGet n s.crls with
    | none => .fault .noContext
    | some c => .next (body s n c)

/-- A microinstruction is over at a boundary, where a job cancel halts its context (R362). -/
def goTo (n pc : Nat) (c : Crl) (s : State) : State :=
  let s := { s with crls := amPut n { c with pc := pc } s.crls }
  if c.halting then crlRest n 3 s else s

/-- A microinstruction that only changes its context and goes on to the next word. -/
def microOn (f : Crl → Crl) (s : State) : Out := micro (fun s n c => goTo n (c.pc + 1) (f c) s) s

/-- ILLEGAL_OP (R344): an undefined word, or one with a field or an X that its operation does not take. -/
def execIllegalOp (_word : Word) (s : State) : Out := micro (fun s n _ => crlFault n 1 0 s) s

/-- PC_RANGE (R350). -/
def execPcRange (s : State) : Out := micro (fun s n _ => crlFault n 2 0 s) s

/-- HALT (R344): PC stays at the HALT. -/
def execHalt (s : State) : Out := micro (fun s n _ => crlRest n 3 s) s

/-- CMOVH (R344). -/
def execCmovh (i : BitVec 16) (d : BitVec 4) (s : State) : Out := microOn (fun c => c.put d.toNat (i.setWidth 32 <<< 16)) s

/-- CORL (R344). -/
def execCorl (i : BitVec 16) (d : BitVec 4) (s : State) : Out := microOn (fun c => c.put d.toNat (c.reg d.toNat ||| i.setWidth 32)) s

/-- A binary32 operation of two registers (R344). -/
def microF (op : Word → Word → FRes) (b a d : BitVec 4) (s : State) : Out :=
  microOn (fun c => c.put d.toNat (op (c.reg a.toNat) (c.reg b.toNat)).w) s

/-- FADD of the Carillon (R344). -/
def execCarillonFadd (b a d : BitVec 4) (s : State) : Out := microF fAdd b a d s
/-- FSUB of the Carillon (R344). -/
def execCarillonFsub (b a d : BitVec 4) (s : State) : Out := microF fSub b a d s
/-- FMUL of the Carillon (R344). -/
def execCarillonFmul (b a d : BitVec 4) (s : State) : Out := microF fMul b a d s
/-- FDIV of the Carillon (R344). -/
def execCarillonFdiv (b a d : BitVec 4) (s : State) : Out := microF fDiv b a d s

/-- CGET (R344): VAL or IDX of a position below 256. -/
def execCget (x : BitVec 1) (a d : BitVec 4) (s : State) : Out :=
  micro (fun s n c =>
    let e := (c.reg a.toNat).toNat
    if 256 ≤ e then crlFault n 3 0 s
    else goTo n (c.pc + 1) (c.put d.toNat (if x = 0 then c.value e else c.index e)) s) s

/-! ### Candidate operations (R345, R346) -/

/-- CSCALE. -/
def execCscale (a : BitVec 4) (s : State) : Out :=
  microOn (fun c => c.withValues (c.values.map (fun v => (fMul v (c.reg a.toNat)).w))) s

/-- CPEN: an X above 64 is out of its range. -/
def execCpen (x : BitVec 10) (a : BitVec 4) (s : State) : Out :=
  micro (fun s n c =>
    if 64 < x.toNat then crlFault n 1 0 s
    else
      let w := if x.toNat = 0 then c.hist.length else min x.toNat c.hist.length
      let last := c.hist.drop (c.hist.length - w)
      goTo n (c.pc + 1) (c.withValues (c.live.map (fun e =>
        if last.contains (c.index e) then (fSub (c.value e) (c.reg a.toNat)).w else c.value e))) s) s

/-- The order of CTOPK: whether candidate p (value, index) comes no later than q, which stands behind it. -/
def candLe (p q : Word × Word) : Bool :=
  if isNan p.1 then isNan q.1 && decide (p.2.toNat ≤ q.2.toNat)
  else if isNan q.1 then true
  else if fLt q.1 p.1 then true
  else if fLt p.1 q.1 then false
  else decide (p.2.toNat ≤ q.2.toNat)

/-- CTOPK. -/
def execCtopk (x : BitVec 10) (s : State) : Out :=
  micro (fun s n c =>
    if x.toNat = 0 ∨ 256 < x.toNat then crlFault n 1 0 s
    else
      let es := sortBy candLe (c.live.map (fun e => (c.value e, c.index e)))
      let c := c.withValues (es.map Prod.fst)
      goTo n (c.pc + 1) { c with
        idx := ((upFrom 0 es.length).zip es).foldl (fun m e => smPut 0 e.1 e.2.2 m) c.idx
        ccnt := min c.ccnt x.toNat } s) s

/-- CTOPP. -/
def execCtopp (a : BitVec 4) (s : State) : Out :=
  microOn (fun c =>
    let p := c.reg a.toNat
    if c.ccnt = 0 ∨ isNan p = true then c
    else
      let cs := runningSums none c.values
      let thr := (fMul p c.total).w
      match ((upFrom 1 cs.length).zip cs).find? (fun e => fLe thr e.2) with
      | some e => { c with ccnt := e.1 }
      | none => c) s

/-- m of CEXP: the greatest non-NaN value, as the word at the lowest position that holds it; −infinity if there is none. -/
def greatest (vs : List Word) : Word :=
  (vs.foldl (fun (m : Option Word) v => if isNan v then m else match m with
    | none => some v
    | some b => if fLt b v then some v else some b) none).getD 0xFF800000

/-- log2 e as L2E of R345. -/
def l2e : Word := 0x3FB8AA3B

/-- CEXP. -/
def execCexp (d : BitVec 4) (s : State) : Out :=
  microOn (fun c =>
    let m := greatest c.values
    (c.withValues (c.values.map (fun v => (fnu 3 (fMul (fSub v m).w l2e).w).w))).put d.toNat m) s

/-- CNORM. -/
def execCnorm (d : BitVec 4) (s : State) : Out :=
  microOn (fun c =>
    let t := c.total
    (c.withValues (c.values.map (fun v => (fDiv v t).w))).put d.toNat t) s

/-- CPSUM. -/
def execCpsum (s : State) : Out := microOn (fun c => c.withValues (runningSums none c.values)) s

/-! ### Streams and draws (R347 to R349) -/

/-- A stream's key with 32-bit word i written. -/
def putKeyWord (i : Nat) (w : Word) (k : PealKey) : PealKey :=
  let m : PealKey := (0xFFFFFFFF : PealKey) <<< (32 * i)
  (k &&& ~~~m) ||| (w.setWidth 128 <<< (32 * i))

/-- A doubleword with its low (0) or high (1) word written. -/
def putHalf (i : Nat) (w : Word) (v : DWord) : DWord := if i = 0 then reg w (spreadOf v) else reg (meanOf v) w

/-- NSET. -/
def execNset (x n : BitVec 3) (a : BitVec 4) (s : State) : Out :=
  microOn (fun c =>
    let w := c.reg a.toNat
    let k := n.toNat
    let i := x.toNat
    if i < 4 then { c with key := smPut 0 k (putKeyWord i w (smGet 0 k c.key)) c.key }
    else if i < 6 then { c with x := smPut 0 k (putHalf (i - 4) w (smGet 0 k c.x)) c.x }
    else { c with pos := smPut 0 k (putHalf (i - 6) w (smGet 0 k c.pos)) c.pos }) s

/-- RNGU. -/
def execRngu (n : BitVec 3) (d : BitVec 4) (s : State) : Out :=
  microOn (fun c => let (u, c) := c.uniform n.toNat; c.put d.toNat u) s

/-- CDRAW (R348): the rule of RNG.C over the live positions. -/
def execCdraw (n : BitVec 3) (d : BitVec 4) (s : State) : Out :=
  microOn (fun c =>
    let (u, c) := c.uniform n.toNat
    c.put d.toNat (match category c.live c.values u with
      | some k => c.index k
      | none => 0xFFFFFFFF)) s

/-- EXACT(u · q) < p of finite operands, p perhaps an infinity; false for a NaN p. -/
def exactBelow (u q p : Word) : Bool :=
  match fval u, fval q, fval p with
  | .fin nu mu eu, .fin nq mq eq, .fin np mp ep => decide ((dyAdd (signed (nu != nq) (mu * mq)) (eu + eq) (-signed np mp) ep).1 < 0)
  | .fin .., .fin .., .inf neg => !neg
  | _, _, _ => false

/-- CACC (R349). -/
def execCacc (n : BitVec 3) (b a d : BitVec 4) (s : State) : Out :=
  microOn (fun c =>
    let e := c.live.find? (fun e => c.index e == c.reg a.toNat)
    let p := match e with | some e => c.value e | none => 0
    let q := c.reg b.toNat
    let (u, c) := c.uniform n.toNat
    let accept := if isNan q || fLe q 0 || q == 0x7F800000 then fLt 0 p else exactBelow u q p
    let c := c.put d.toNat (if accept then 1 else 0)
    match e, accept with
    | some e, false => { c with val := smPut 0 e 0 c.val }
    | _, _ => c) s

/-! ### Control, doorbell and output (R350 to R352) -/

/-- BR: a cond of 3 is ILLEGAL-OP. -/
def execBr (x : BitVec 10) (cond : BitVec 2) (a : BitVec 4) (s : State) : Out :=
  micro (fun s n c =>
    let v := c.reg a.toNat
    match cond.toNat with
    | 0 => goTo n x.toNat c s
    | 1 => goTo n (if v = 0 then x.toNat else c.pc + 1) c s
    | 2 => goTo n (if v = 0 then c.pc + 1 else x.toNat) c s
    | _ => crlFault n 1 0 s) s

/-- The Carillon's accesses for a context: for the work whose weight it holds (R359). -/
def crlEng (n : Nat) (c : Crl) (ord : Nat) : Eng :=
  { who := .carillon n, agent := agentCarillon n, ctx := c.owner, die := n / 4096, core := none, ord := ord, phase := c.weight.head?.map Prod.fst }

/-- The context waits in the fault merge table if it has joined it; with the table full it tries again. -/
def crlWait (n : Nat) (s : State) : State :=
  { s with crls := amMod n (fun c => { c with blocked := isMerged s (.carillon n) }) s.crls }

/-- WAITC (R350): DBELL is checked, then T rises and the context waits, its weight returned (R359). -/
def execWaitc (x : BitVec 10) (s : State) : Out :=
  micro (fun s n c =>
    match c.fault with
    | some k => crlFault n 5 k s
    | none => match engineCounter (crlEng n c 0) c.dbell false s with
      | .error (s, .wait) => crlWait n s
      | .error (s, .fault k _) => crlFault n 5 k s
      | .ok (s, _) =>
        crlRest n (if c.halting then 3 else 2)
          { s with crls := amPut n { c with t := (c.t + x.toNat) % 2 ^ 64, tOld := c.t, pc := c.pc + 1 } s.crls }) s

/-- A delivery has reached the Carillon for the context and is not applied (R358). -/
def deliveryReached (s : State) (n : Nat) (o : Op) : Option Nat :=
  match o.body with
  | .post crl _ _ _ _ _ (some k) => if crl = n then some k else none
  | .select x => if x.stage = 2 ∧ (amGet n s.crls).isSome = true then
      (match x.reached with | some (k, m) => if m = n then some k else none | none => none) else none
  | _ => none

/-- CARILLON_WAKE (R350): a waiting context observes DBELL, an acquire at DEVICE scope. At its target, with every delivery that
has reached it applied, the context runs; a failed check faults it as if the WAITC had. -/
def execCarillonWake (ctx : Nat) (s : State) : Out :=
  match amGet ctx s.crls with
  | none => .next s
  | some c =>
    if c.state ≠ 2 ∨ c.blocked = true then .next s
    else
      let fail (k : Nat) (s : State) : State :=
        crlFault ctx 5 k { s with crls := amMod ctx (fun c => { c with t := c.tOld, pc := c.pc - 1 }) s.crls }
      match c.fault with
      | some k => .next (fail k s)
      | none => match engineCounter (crlEng ctx c 0) c.dbell false s with
        | .error (s, .wait) => .next (crlWait ctx s)
        | .error (s, .fault k _) => .next (fail k s)
        | .ok (s', pa) =>
          let v := rdNat s' pa 8
          if v < c.t ∨ s.ops.any (fun o => (deliveryReached s ctx o.2).isSome) = true then .next s
          else .next (acquireCounter (agentCarillon ctx) (.die (ctx / 4096)) 4 pa v
            { s' with crls := amPut ctx { c with state := 1 } s'.crls })

/-- A share of a context's weight for its EMIT's write (R359). -/
def crlShare (n : Nat) (s : State) : Option (Nat × Nat) × State :=
  match amGet n s.crls with
  | none => (none, s)
  | some c => match c.weight with
    | [] => (none, s)
    | (ph, w) :: ws => match amGet ph s.phases with
      | none => (none, s)
      | some p =>
        let (k, w', r) := splitWeight w p.root
        (some (ph, k), { s with
          crls := amPut n { c with weight := (ph, w') :: ws } s.crls
          phases := amPut ph { p with root := r } s.phases })

/-- EMIT's record is written at its place, or goes into a tile's log (R351). -/
def emitRecord (n : Nat) (c : Crl) (tok : Word) (ps : List (Spot × Nat)) (s : State) : State :=
  let ord := s.seq
  let bs := natBytes 4 tok.toNat ++ natBytes 2 (n % 4096) ++ natBytes 2 0 ++ natBytes 8 c.seq
  let cells := cellsAt ps bs
  let s := writeUnit (agentCarillon n) cells { s with seq := s.seq + 1 }
  match cells.findSome? (fun x => match x.1 with | .log k _ => some k | .at _ _ => none) with
  | none => s
  | some k => match amGet k s.tiles with
    | none => s
    | some t =>
      let m := cells.foldl (fun m x => match x.1 with | .log _ off => amPut off x.2.1 m | .at _ _ => m) ([] : AMap Byte)
      let (share, s) := crlShare n s
      acceptWrite k t (.bytes m) (agentCarillon n) ord (share.map Prod.fst) ((share.map Prod.snd).getD 0) s

/-- EMIT's record is performed at its scope (R351). -/
def emitDone (s : State) (n scope ord : Nat) : Bool :=
  !appendsOut s (agentCarillon n) ord && (decide (scope < 5) || !logsOut s (agentCarillon n))

/-- The end of EMIT (R351, R352): the counter's add, history and SEQ. -/
def emitEnd (n scope : Nat) (clr : Bool) (tok : Word) (pa : Option Nat) (s : State) : State :=
  let s := match pa, amGet n s.crls with
    | some pa, some c => addCounter (agentCarillon n) (agentCarillon n) (.die (n / 4096)) scope pa 1 c.owner 0 0 c.tokCtr s
    | _, _ => s
  match amGet n s.crls with
  | none => s
  | some c => goTo n (c.pc + 1) { c with
      hist := (if c.hist.length < 64 then c.hist else c.hist.drop 1) ++ [tok]
      seq := (c.seq + 1) % 2 ^ 64
      ccnt := if clr then 0 else c.ccnt
      emit := none } s

/-- EMIT (R351): the record and the counter are checked and translated, the record written, and, once it is performed at the
scope, the counter added to. -/
def execEmit (sc : BitVec 3) (l : BitVec 1) (a : BitVec 4) (s : State) : Out :=
  micro (fun s n c =>
    let tok := c.reg a.toNat
    let fin (pa : Option Nat) (s : State) : State := emitEnd n sc.toNat (l == 1) tok pa s
    if sc.toNat < 3 ∨ 5 < sc.toNat then crlFault n 1 0 s
    else match c.emit with
      | some (ord, pa) =>
        if emitDone s n sc.toNat ord then fin pa s else s
      | none => match c.fault with
        | some k => crlFault n 4 k s
        | none =>
          let g := crlEng n c s.seq
          let r : EngRes (List (Spot × Nat) × Option Nat) :=
            engThen (engineSpots g none ((c.outBase.toNat + 16 * (c.seq % c.outLen) : Nat) : Int) 16 needStore s) fun s ps =>
            if c.tokCtr = 0 then .ok (s, (ps, none))
            else engThen (engineCounter g c.tokCtr true s) fun s pa => .ok (s, (ps, some pa))
          match r with
          | .error (s, .wait) => crlWait n s
          | .error (s, .fault k _) => crlFault n 4 k s
          | .ok (s, (ps, pa)) =>
            let ord := s.seq
            let s := emitRecord n c tok ps s
            if emitDone s n sc.toNat ord then fin pa s
            else
              -- at SYSTEM scope the add waits for the logs as a FENCE does (R56, R310)
              let s := if sc.toNat = 5 then startLogs (agentCarillon n) s else s
              { s with crls := amMod n (fun c => { c with emit := some (ord, pa) }) s.crls }) s

/-! ### CRL.POST and deliveries (R355 to R358) -/

/-- CRL.POST (R355 to R357). -/
def execCrlPost (a b c scope : BitVec 5) (s : State) : Out :=
  onePass 4 (fun s i f t =>
    let va := sGet t f.handler a.toNat
    let desc := sGet t f.handler b.toNat
    let ctr := sGet t f.handler c.toNat
    let first := bitsOf desc 19 12
    let n := bitsOf desc 28 20
    let crl := dieOf t.gcore * 4096 + bitsOf desc 11 0
    if n = 0 ∨ 256 < first + n ∨ bitsOf desc 63 29 ≠ 0 then .error (illegal s f)
    else match checkSpan va.toNat (8 * n), amGet t.unit s.units with
      | some k, _ => .error (s, .trap k va 0)
      | none, none => .error (s, .stall)
      | none, some u =>
        if aperture va.toNat ≠ 1 then .error (s, .trap 0x0B va 0)
        else match scratchSpot u va.toNat (8 * n) with
          | none => .error (s, .trap 0x0B va 0)
          | some p =>
            if va.toNat % 8 ≠ 0 then .error (s, .trap 0x0D va 0)
            else if (match amGet crl s.crls with | some x => x.owner != u.ctx | none => true) then .error (s, .trap 0x11 0 0)
            else
              andOk (if c = 0 then .ok (s, none) else andThen (counterAccess i t ctr needCtrAdd s) fun s pa => .ok (s, some pa))
                fun s pa =>
              if accessHeld s f.team ||
                  decide (2 ≤ (s.ops.filter (fun o => decide (o.2.gcore = t.gcore) && match o.2.body with | .post .. => true | _ => false)).length) then
                .error (s, .stall)
              else
                let (bytes, s) := readSpans f.team [(p, 8 * n)] s
                let word (off : Nat) : Word := BitVec.ofNat 32 (spanNat bytes (upFrom (p + off) 4))
                .ok (issueOp i f t f.setB (.post crl first ((upFrom 0 n).map (fun e => (word (8 * e), word (8 * e + 4)))) pa ctr scope.toNat none) s)) s

/-- Candidates written into a context from a position on. -/
def Crl.deliver (first : Nat) (es : List (Word × Word)) (c : Crl) : Crl :=
  { c with
    val := ((upFrom first es.length).zip es).foldl (fun m e => smPut 0 e.1 e.2.1 m) c.val
    idx := ((upFrom first es.length).zip es).foldl (fun m e => smPut 0 e.1 e.2.2 m) c.idx }

/-- The weight of a delivery passes to its context (R359). -/
def passWeight (op : Nat) (o : Op) (n : Nat) (s : State) : State :=
  match o.phase with
  | none => s
  | some ph => if o.weight = 0 then s else { s with
      crls := amMod n (fun c => { c with weight := c.weight ++ [(ph, o.weight)] }) s.crls
      ops := amMod op (fun o => { o with weight := 0 }) s.ops }

/-- The context that a delivery names is no longer bound to its sender's context: the delivery changes nothing. -/
def deliveryLost (s : State) (n ctx : Nat) : Bool := match amGet n s.crls with | some c => c.owner != ctx | none => true

/-- A delivery with arrival number k may be applied: its context is WAITING, HALTED or FAULTED, and no earlier one remains. -/
def deliverable (s : State) (n k : Nat) : Bool :=
  (match amGet n s.crls with | some c => c.state == 2 || c.state == 3 || c.state == 4 | none => false) &&
  !s.ops.any (fun o => match deliveryReached s n o.2 with | some j => decide (j < k) | none => false)

/-- CANDIDATE_DELIVERY (R358): a post or a selection's candidates reach the Carillon, the posts of one team in their order, and
are applied when their context can take them; then the post's counter receives its add. -/
def execCandidateDelivery (op : Nat) (s : State) : Out :=
  match amGet op s.ops with
  | none => .next s
  | some o => match o.body with
    | .post crl first es ctr va scope reached =>
      if reached.isNone && s.ops.any (fun x => decide (x.1 < op) && decide (x.2.team = o.team) && match x.2.body with
          | .post _ _ _ _ _ _ none => true
          | _ => false) then .next s
      else
        let k := reached.getD s.seq
        let s := if reached.isSome then s else setBody op (.post crl first es ctr va scope (some k)) { s with seq := s.seq + 1 }
        let lost := deliveryLost s crl o.ctx
        if !lost && !deliverable s crl k then .next s
        else
          let s : State := if lost then s else passWeight op o crl
            { s with crls := amMod crl (fun c => { c.deliver first es with ccnt := max c.ccnt (first + es.length) }) s.crls }
          let s := match ctr with
            | none => s
            | some pa => addCounter (agentEngine op) (agentEngine op) (.core o.gcore) scope pa 1 o.ctx o.gcore
                (match amGet o.team s.teams with | some t => t.idx | none => 0) va s
          .next (endOp op s)
    | .select x =>
      if x.stage ≠ 2 then .next s
      else
        let (k, n) := x.reached.getD (s.seq, o.gcore / 768 * 4096 + x.dbase)
        let s := if x.reached.isSome then s else setBody op (.select { x with reached := some (k, n) }) { s with seq := s.seq + 1 }
        let lost := deliveryLost s n o.ctx
        if !lost && !deliverable s n k then .next s
        else
          let es := x.entries.map (fun (e : SelEntry) => (e.key, BitVec.ofNat 32 e.index))
          let s : State := if lost then s else passWeight op o n
            { s with crls := amMod n (fun c => { c.deliver 0 es with ccnt := es.length }) s.crls }
          .next (setBody op (.select { x with stage := 3, entries := [], reached := some (k, n) }) s)
    | _ => .next s

/-! ### Suspension (R361) -/

/-- CARILLON_SUSPEND (R361): at a microinstruction boundary, or at once for a waiting context. -/
def execCarillonSuspend (ctx : Nat) (s : State) : Out :=
  match amGet ctx s.crls with
  | none => .next s
  | some c =>
    if c.state = 5 ∨ c.emit.isSome = true then .next s
    else .next (leaveMerge (.carillon ctx)
      { s with crls := amPut ctx { c with state := 5, prior := c.state, blocked := false, fault := none } s.crls })

/-- CARILLON_RESUME (R361): the prior STATE, at the same PC. -/
def execCarillonResume (ctx : Nat) (s : State) : Out :=
  match amGet ctx s.crls with
  | none => .next s
  | some c => if c.state = 5 then .next { s with crls := amPut ctx { c with state := c.prior } s.crls } else .next s

end Sys2Proof.Machine
end

