-- ==== Sys2Proof/Machine/Launch.lean ====
section
/-! DEFINITION. The command processor's work: completion records (R19), queues and completion of commands (R365, R368),
launches and their placement (R370 to R372), the end of units and phases (R19, R375), cancels (R20, R21, R119). -/

namespace Sys2Proof.Machine

/-! ### Accesses of the command processor -/

/-- The accesses of a queue's commands: on die 0, for the queue's context. -/
def queueEng (q ctx : Nat) : Eng := { who := .agent q, agent := agentQueue q, ctx := ctx, die := 0, core := none, ord := 0, phase := none }

/-- The accesses of the command processor for a unit, launch or phase: its number keeps apart who waits. -/
def controlEng (who agent ctx : Nat) : Eng := { who := .agent who, agent := agent, ctx := ctx, die := 0, core := none, ord := 0, phase := none }

/-- Who waits for a unit's end. -/
def waitUnit (unit : Nat) : Nat := 2 ^ 40 + unit
/-- Who waits for a phase's end. -/
def waitPhase (phase : Nat) : Nat := 2 ^ 41 + phase
/-- Who waits for a launch's end. -/
def waitLaunch (l : Nat) : Nat := 2 ^ 42 + l

/-- An access tried again: a failure that the MMP has delivered meanwhile is its result (R287). -/
def retried {α : Type} (who : Nat) (k : State → EngRes α) (s : State) : EngRes α :=
  match amGet who s.agentFaults with
  | some c => .error ({ s with agentFaults := amDel who s.agentFaults }, .fault c 0)
  | none => k s

/-! ### Completion records (R19) -/

/-- A counter of a completion record has an amount added by an agent, a release at SYSTEM scope of what `agents` wrote. A record
at address 0 is none; of one that does not translate, no add is made. -/
def recordAdd (g : Eng) (who : Nat) (agents : List Nat) (va : DWord) (amount : Nat) (s : State) : EngRes Unit :=
  match retried who (engineCounter g va true) s with
  | .error (s, .wait) => .error (s, .wait)
  | .error (s, .fault _ _) => .ok (s, ())
  | .ok (s, pa) =>
    match counterAdd agents g.agent (.die g.die) 5 pa amount s with
    | ((_, true), s) => .ok (s, ())
    | ((_, false), s) => .ok (recordOverflow g.ctx 0 0 va amount s, ())

/-- An add to FIN of a record, or to CAN. -/
def finAdd (g : Eng) (who : Nat) (agents : List Nat) (rec_ : DWord) (can : Bool) (n : Nat) (s : State) : EngRes Unit :=
  if rec_ = 0 then .ok (s, ()) else recordAdd g who agents (if can then rec_ + 8 else rec_) n s

/-! ### The completion of a command (R366, R368) -/

/-- The administrative queue. -/
def adminQueue : Nat := 64 * 4096

/-- A queue's counter, named by a context's address or, on the administrative queue, by a physical one. -/
def queueCounter (qn : Nat) (q : Queue) (va : DWord) (add : Bool) (s : State) : EngRes Nat :=
  if qn = adminQueue then
    (if va.toNat % 8 = 0 ∧ va.toNat < 2 ^ 48 then .ok (s, va.toNat) else .error (s, .fault 0x0E va))
  else engineCounter (queueEng qn q.ctx) va add s

/-- The status record of a queue takes a command's end: ERRIDX and ERRCODE, RESULT, then DONE. -/
def writeStatus (q : Queue) (idx st : Nat) (result : Option Nat) (s : State) : State :=
  let a := q.stat.toNat
  let s := if st = 0 then s else pokeHost (a + 24) (natBytes 4 st) (pokeHost (a + 16) (natBytes 8 idx) s)
  let s := match result with | some r => pokeHost (a + 32) (natBytes 8 r) s | none => s
  pokeHost (a + 8) (natBytes 8 (q.done + 1)) s

/-- A command completes with a status, and its DONECTR receives 1; while DONECTR's page is waited for, the command waits with
its status. -/
def completeCommand (c : Command) (st : Nat) (result : Option Nat) (s : State) : State :=
  match amGet c.queue s.queues with
  | none => s
  | some q =>
    let r : EngRes (Option Nat) := if c.doneCtr = 0 then .ok (s, none)
      else engThen (retried c.queue (queueCounter c.queue q c.doneCtr true) s) fun s pa => .ok (s, some pa)
    match r with
    | .error (s, .wait) => { s with queues := amMod c.queue (fun q => { q with
        running := q.running.filter (fun x => x.1.idx != c.idx) ++ [(c, .status st result)] }) s.queues }
    | r =>
      let s := match r with | .ok (s, _) => s | .error (s, _) => s
      let s := if c.queue < 2 ^ 20 then writeStatus q c.idx st result s else s
      let s : State := { s with queues := amMod c.queue (fun q => { q with
        done := q.done + 1, running := q.running.filter (fun x => x.1.idx != c.idx) }) s.queues }
      match r with
      | .ok (_, some pa) => (match counterAdd [agentQueue c.queue] (agentQueue c.queue) (.die 0) 5 pa 1 s with
        | ((_, true), s) => s
        | ((_, false), s) => recordOverflow q.ctx 0 0 c.doneCtr 1 s)
      | _ => s

/-- The command stays in progress. -/
def runCommand (c : Command) (p : Pending) (s : State) : State :=
  { s with queues := amMod c.queue (fun q => { q with running := q.running.filter (fun x => x.1.idx != c.idx) ++ [(c, p)] }) s.queues }

/-- What a command in progress waits for, if it is one. -/
def pendingOf (s : State) (c : Command) : Option Pending :=
  match amGet c.queue s.queues with
  | none => none
  | some q => (q.running.find? (fun x => x.1 == c)).map Prod.snd

/-- The entry is read (R365, R368): HEAD rises. A command in a replay has no ring. -/
def takeEntry (qn : Nat) (s : State) : State :=
  match amGet qn s.queues with
  | none => s
  | some q =>
    let s : State := { s with queues := amPut qn { q with head := q.head + 1, doomed := false } s.queues }
    if qn < 2 ^ 20 then pokeHost q.stat.toNat (natBytes 8 (q.head + 1)) s else s

/-- The command takes no other effect than a status. -/
def badCommand (c : Command) (st : Nat) (s : State) : State := completeCommand c st none (takeEntry c.queue s)

/-- A command ends with an access that failed: BADOP; one that waits for a page is tried again, its entry unread. -/
def afterAccess {α : Type} (c : Command) (r : EngRes α) (k : State → α → State) : State :=
  match r with
  | .ok (s, a) => k s a
  | .error (s, .wait) => s
  | .error (s, .fault _ _) => badCommand c 1 s

/-! ### Launch records (R370) -/

/-- The bytes of a launch record, its kernel descriptor and its handle list. -/
def readLaunch (g : Eng) (va : DWord) (s : State) : EngRes (List Byte) :=
  engThen (engineRead g none (va.toNat : Int) 128 s) fun s r =>
  engThen (engineRead g none (field r 0 8 : Nat) 32 s) fun s k =>
  let h := field r 72 2
  if h = 0 ∨ 64 < h then .ok (s, r ++ k)
  else engThen (engineRead g none (field r 64 8 : Nat) (4 * h) s) fun s hs => .ok (s, r ++ k ++ hs)

/-- n is a power of two from lo to hi. -/
def isPow2 (n lo hi : Nat) : Bool := decide (lo ≤ n) && decide (n ≤ hi) && n == 2 ^ Nat.log2 n

/-- Binding i of a launch record: target and parameter register, if enabled. -/
def bindOf (b : List Byte) (i : Nat) : Option (Nat × Nat) :=
  let w := field b (80 + 2 * i) 2
  if w / 2 ^ 15 = 1 then some (w / 2 ^ 8 % 16, w % 64) else none

/-- The entries of a handle list: handle, READ, WRITE. -/
def handlesOf (b : List Byte) : List (Nat × Bool × Bool) :=
  (upFrom 0 (field b 72 2)).map (fun i =>
    let w := field b (160 + 4 * i) 4
    (w % 4096, w / 2 ^ 12 % 2 == 1, w / 2 ^ 13 % 2 == 1))

/-- Every field of a kernel descriptor lies in its range, and its res0 field is 0 (R17, R90, R370). -/
def kernelOk (b : List Byte) : Bool :=
  let lanes := field b 136 2
  let regs := field b 138 1
  let teams := field b 139 1
  let scratch := field b 140 4
  lanes % 32 == 0 && decide (32 ≤ lanes) && decide (lanes ≤ 1024) && decide (1 ≤ regs) && decide (regs ≤ 64) &&
  decide (1 ≤ teams) && decide (teams ≤ 16) && scratch % 16 == 0 && decide (scratch ≤ 2 ^ 19) && decide (field b 144 2 ≤ 512) &&
  field b 146 14 == 0

/-- Every field of a launch record lies in its range, and every res0 field is 0 (R370). -/
def launchRecordOk (b : List Byte) : Bool :=
  let slots := field b 112 4
  (upFrom 0 3).all (fun i => decide (1 ≤ field b (24 + 4 * i) 4) && decide (field b (24 + 4 * i) 4 ≤ 65535)) &&
  decide (field b 36 4 ≤ 1) && field b 48 4 % 16 == 0 && field b 52 4 % 16 == 0 && decide (field b 72 2 ≤ 64) &&
  field b 74 6 == 0 && field b 116 12 == 0 &&
  (upFrom 0 (field b 72 2)).all (fun i => decide (field b (160 + 4 * i) 4 < 2 ^ 14)) &&
  (upFrom 0 8).all (fun i => let w := field b (80 + 2 * i) 2; w / 2 ^ 6 % 4 == 0 && w / 2 ^ 12 % 8 == 0 &&
    (decide (w < 2 ^ 15) || decide (w / 2 ^ 8 % 16 ≤ 10))) &&
  field b 96 8 % 64 == 0 && (field b 96 8 == 0) == (field b 104 8 == 0) && (field b 96 8 == 0) == (slots == 0) &&
  (slots == 0 || isPow2 slots 1 (2 ^ 20)) && field b 56 8 % 16 == 0

/-- The status that a launch record or its kernel descriptor ends a LAUNCH with: BADOP for a field of the record, MALFORMED for a
descriptor that is malformed (R366, R368); none where both are well formed. -/
def launchFault (b : List Byte) : Option Nat := if !launchRecordOk b then some 1 else if !kernelOk b then some 8 else none

/-- The launches that a launch naming handles depends on, and the handle table after it (R372). -/
def joinHandles (l : Nat) (names : List (Nat × Bool × Bool)) (hs : AMap Handle) : List Nat × AMap Handle :=
  names.foldl (fun (r : List Nat × AMap Handle) h =>
    let x : Handle := (amGet h.1 r.2).getD { va := 0, bytes := 0, hostvis := false, writer := none, readers := [] }
    let needs := x.writer.toList ++ (if h.2.2 then x.readers else [])
    let x' : Handle := if h.2.2 then { x with writer := some l, readers := [] }
      else if h.2.1 then { x with readers := x.readers ++ [l] } else x
    (r.1 ++ needs.filter (fun d => d != l && !r.1.contains d), amPut h.1 x' r.2)) ([], hs)

/-- A launch or a replay that a queue's command starts takes work weight: what a holder without any borrows from the root, so that no
wait arises below 2^40 holders (R375; DEDUCED, notes/assumptions/88.md). -/
def launchWeight (phase : Option Nat) (s : State) : Option (Nat × State) :=
  match phase with
  | none => some (0, s)
  | some ph => match amGet ph s.phases with
    | none => some (0, s)
    | some p =>
      if p.root < 2 then none
      else some (borrowed p.root, { s with phases := amPut ph { p with root := p.root - borrowed p.root } s.phases })

/-- A launch that a replay starts takes half of the replay's share (R375). -/
def nodeWeight (qn : Nat) (q : Queue) (s : State) : Nat × State :=
  match q.phase.bind (fun ph => (amGet ph s.phases).map (fun p => (ph, p))) with
  | none => (0, s)
  | some (ph, p) =>
    let (c, w, r) := splitWeight q.weight p.root
    (c, { s with
      queues := amMod qn (fun q => { q with weight := w }) s.queues
      phases := amPut ph { p with root := r } s.phases })

/-- The queue's phase, or its replay, or its job is cancelled. -/
def startsCancelled (s : State) (q : Queue) : Bool :=
  q.cancelled || q.doomed || (match amGet q.ctx s.ctxs with | some c => c.cancelled | none => true) ||
  (match q.phase with
    | none => false
    | some ph => match amGet ph s.phases with | some p => p.cancelled | none => false)

/-- A launch starts with a grid, from its record; `bad` when a bound extent is out of range (R374). None where it must wait for
weight (R375). -/
def startLaunch (c : Command) (q : Queue) (b : List Byte) (grid : List Nat) (bad : Bool) (s : State) : Option State :=
  match if c.queue < 2 ^ 20 then launchWeight q.phase s else some (nodeWeight c.queue q s) with
  | none => none
  | some (w, s) =>
    let n := s.seq
    let (deps, hs) := joinHandles n (handlesOf b) (match amGet q.ctx s.ctxs with | some x => x.handles | none => [])
    let l : Launch :=
      { ctx := q.ctx, queue := c.queue, idx := c.idx, graph := q.graph, graphRec := q.graphRec, phase := q.phase,
        entryPc := dw (field b 8 8 + field b 128 8), lanes := field b 136 2, regs := field b 138 1, teams := field b 139 1,
        scratch := field b 140 4, acc := field b 144 2, args := dw (field b 16 8),
        gridX := nth 1 grid 0, gridY := nth 1 grid 1, gridZ := nth 1 grid 2, she := dw (field b 40 8), lstk := field b 48 4,
        ksz := field b 52 4, crec := dw (field b 56 8), coop := field b 36 4 == 1,
        deps := deps ++ (nth [] q.links c.idx).filter (fun d => !deps.contains d), placed := 0, finished := 0,
        cancelled := bad || startsCancelled s q, weight := w, clrBase := dw (field b 96 8), clrCtr := dw (field b 104 8),
        clrLen := field b 112 4, clrSeq := 0, clrPend := [], clrOut := false, stage := 0, canned := 0 }
    let s := modCtx q.ctx (fun x => { x with handles := hs }) { s with seq := s.seq + 1, launches := amPut n l s.launches }
    some (runCommand c (.launch n) (takeEntry c.queue s))

/-! ### Placement (R18, R104, R252, R371) -/

/-- The teams of the core's present context that are resident on a core. -/
def residents (s : State) (ctx g : Nat) : List Team :=
  (s.teams.filter (fun t => decide (t.2.gcore = g) && !t.2.exited && match amGet t.2.unit s.units with
    | some u => u.ctx == ctx
    | none => false)).map Prod.snd

/-- Scratchpad bytes of a core that the context's units hold. -/
def scratchHeld (s : State) (ctx g : Nat) : Nat :=
  s.units.foldl (fun n u => if u.2.ctx = ctx then n + (smGet (0, 0) g u.2.scratch).2 else n) 0

/-- The division of a core that a unit of so many scratchpad bytes finds or chooses (R371). -/
def divisionFor (s : State) (ctx g scratch : Nat) : Nat :=
  if (residents s ctx g).isEmpty then max (2 ^ 16) ((scratch + scratchHeld s ctx g + 2 ^ 16 - 1) / 2 ^ 16 * 2 ^ 16)
  else smGet (2 ^ 16) g s.division

/-- The most tiles that a context's teams hold on a core: 128 are kept free on the cores of every context created pre-emptible, and where
a slice holds an image (R133, R252). -/
def tilesMost (s : State) (g : Nat) : Nat :=
  if (amGet g s.slices).isSome || s.ctxs.any (fun c => c.2.preemptible && c.2.clusters.contains (clusterOf g)) then 384 else 512

/-- How many teams of a unit of the launch a core has room for (R18, R252, R371). -/
def coreRoom (s : State) (l : Launch) (g : Nat) : Nat :=
  let ts := residents s l.ctx g
  let lanes := ts.foldl (fun n t => n + t.lanes) 0
  let regs := ts.foldl (fun n t => n + t.lanes * t.regs) 0
  let frags := (s.frags.filter (fun f => match amGet f.2.team s.teams with
    | some t => decide (t.gcore = g) && (match amGet t.unit s.units with | some u => u.ctx == l.ctx | none => false)
    | none => false)).length
  let accs := s.teams.foldl (fun n t =>
    if decide (t.2.gcore = g) && (match amGet t.2.unit s.units with | some u => u.ctx == l.ctx | none => false) then n + t.2.accCount else n) 0
  let accMost := if (amGet l.ctx s.ctxs).isSome then tilesMost s g else 0
  let div := divisionFor s l.ctx g l.scratch
  if 2 ^ 19 < div ∨ div < scratchHeld s l.ctx g + l.scratch then 0
  else ((upFrom 1 16).filter (fun k => decide (ts.length + k ≤ 16) && decide (lanes + k * l.lanes ≤ 2048) && decide (frags + k ≤ 64) &&
    decide (regs + k * l.lanes * l.regs ≤ 32768) && decide (accs + k * l.acc ≤ accMost))).length

/-- The context of a unit. -/
def unitCtx (s : State) (unit : Nat) : Option Nat := (amGet unit s.units).map (fun u => u.ctx)

/-- The tiles of a context on a core have their room: where other contexts' tiles stand in the way, those are written to memory
first (R133). -/
def tilesRoom (ctx g : Nat) (s : State) : State :=
  let here (t : Team) : Bool := decide (t.gcore = g) && !t.accOut
  let total := s.teams.foldl (fun n t => if here t.2 then n + t.2.accCount else n) 0
  if total ≤ tilesMost s g then s
  else { s with teams := s.teams.map (fun t => if here t.2 && unitCtx s t.2.unit != some ctx then (t.1, { t.2 with accOut := true }) else t) }

/-- The cores of a cluster with their room. -/
def clusterRoom (s : State) (l : Launch) (c : Nat) : List (Nat × Nat) :=
  ((upFrom (16 * c) 16).map (fun g => (g, coreRoom s l g))).filter (fun e => decide (0 < e.2))

/-- The cluster has room for a whole unit. -/
def clusterFits (s : State) (l : Launch) (c : Nat) : Bool :=
  decide (l.teams ≤ (clusterRoom s l c).foldl (fun n e => n + e.2) 0)

/-- A core for each of n teams, by free choice among those with room. -/
def pickCores : Nat → List (Nat × Nat) → State → List Nat × State
  | 0, _, s => ([], s)
  | n + 1, room, s =>
    let ((g, k), s) := pickOne (0, 0) room s
    let room := if k ≤ 1 then room.filter (fun e => e.1 != g) else room.map (fun e => if e.1 = g then (g, k - 1) else e)
    let (gs, s) := pickCores n room s
    (g :: gs, s)

/-- Where a size fits among the used spans of a region: at its start or at the end of a span. -/
def gapStarts (base size need : Nat) (used : List (Nat × Nat)) : List Nat :=
  ((base :: used.map (fun e => e.1 + e.2)).filter (fun a => decide (base ≤ a) && decide (a + need ≤ base + size) &&
    used.all (fun e => decide (a + need ≤ e.1) || decide (e.1 + e.2 ≤ a)))).eraseDups

/-- The stack and spill bytes of a unit. -/
def Launch.stackBytes (l : Launch) : Nat := l.teams * (l.lstk * l.lanes + l.ksz)

/-- The least place from k on, of 2^19 bytes each, that no allocation uses. -/
def scratchPlace (used : List Nat) : Nat → Nat → Nat
  | 0, k => k
  | n + 1, k => if used.contains (2 ^ 48 + 2 ^ 19 * k) then scratchPlace used n (k + 1) else k

/-- An allocation on a core: its bytes are zero and its granules empty (R50). -/
def allocate (unit g size : Nat) (s : State) : State :=
  let used := s.units.flatMap (fun u => u.2.scratch.map (fun e => e.2.1))
  let base := 2 ^ 48 + 2 ^ 19 * scratchPlace used used.length 0
  let s := zeroRange base (2 ^ 19) s
  modUnit unit (fun u => { u with scratch := amPut g (base, size) u.scratch })
    { s with full := s.full.filter (fun e => !(decide (base / 16 ≤ e.1) && decide (e.1 < base / 16 + 2 ^ 15))) }

/-- A team as it is placed (R105). -/
def freshTeam (l : Launch) (unit idx g tslot tsb ksb : Nat) : Team :=
  { unit := unit, idx := idx, lanes := l.lanes, regs := l.regs, gcore := g, tslot := tslot, d := [],
    s := smPut 0 2 l.entryPc (smPut 0 1 l.args []), hb := [], ts := [], lscale := 0x3F800000, ovf := 0, flags := 0, clearAt := [],
    x1 := ⟨0, 0⟩, x2 := ⟨0, 0⟩, x3 := ⟨0, 0⟩, kview := [], kettle := [], ksp := 0, rcvAt := [], ksb := dw ksb, ksz := dw l.ksz, tsb := dw tsb,
    frame := none, hcause := 0, haddr := 0, hpc := 0, hinfo := 0, hdpc := 0, hsel := 0, stop := false, left := 0, exited := false,
    noise := [], tagctr := 1, accCount := l.acc, accOut := false, acc := [], batch := 1, stamps := [], quireTick := 0 }

/-- Team number k of a unit placed on core g, with its one fragment at the entry header (R105); it begins after what the launch's
queue and the launches it depended on had done (R371, R372). Its core slot is one of the free ones (R109). -/
def placeTeam (lid : Nat) (l : Launch) (unit k g base : Nat) (s : State) : State :=
  let used := (residents s l.ctx g).map (fun t => t.tslot)
  let (slot, s) := pickOne 0 ((upFrom 0 16).filter (fun n => !used.contains n)) s
  let per := l.lstk * l.lanes + l.ksz
  let team := s.seq
  let t := freshTeam l unit k g slot (base + k * per) (base + k * per + l.lstk * l.lanes)
  let s := if (amGet g (match amGet unit s.units with | some u => u.scratch | none => [])).isSome then s
    else allocate unit g l.scratch { s with division := amPut g (divisionFor s l.ctx g l.scratch) s.division }
  let s : State := { s with
    teams := amPut team t s.teams
    frags := amPut (s.seq + 1) (newFrag team l.entryPc (fullMask l.lanes) (s.toll + 1) (some 0)) s.frags
    seq := s.seq + 2 }
  let s := tilesRoom l.ctx g (modUnit unit (fun u => { u with teams := u.teams ++ [team] }) s)
  let s := inherit (agentQueue l.queue) team s
  l.deps.foldl (fun s d => acquireFrom team ((s.rels.filter (fun r => decide (r.2.agent = agentLaunch d))).map Prod.fst) s)
    (inherit (agentLaunch lid) team s)

/-- The next unit of a launch placed, if there is room now (R371). -/
def placeUnit (lid : Nat) (s : State) : Option State :=
  match amGet lid s.launches with
  | none => none
  | some l => match amGet l.ctx s.ctxs with
    | none => none
    | some c =>
      let fits := c.clusters.filter (clusterFits s l)
      match fits, gapStarts c.stkBase.toNat c.stkSize l.stackBytes c.stkUsed with
      | [], _ => none
      | _, [] => none
      | f :: fs, b :: bs =>
        let (cl, s) := pickOne f (f :: fs) s
        let (base, s) := pickOne b (b :: bs) s
        let unit := s.seq
        let (root, w) := match l.phase with
          | some ph => (match amGet ph s.phases with | some p => (p.root, some ph) | none => (0, none))
          | none => (0, none)
        let (mine, left, root') := splitWeight l.weight root
        let u : UnitSt :=
          { ctx := l.ctx, launch := lid, cluster := cl, x := l.placed % l.gridX, y := l.placed / l.gridX % l.gridY,
            z := l.placed / (l.gridX * l.gridY), gridX := l.gridX, gridY := l.gridY, gridZ := l.gridZ, teams := [], k := [], kLast := (0, 0),
            bar := [], scratch := [], she := l.she, entryPc := l.entryPc, args := l.args, lstk := l.lstk, cancelled := false,
            weight := mine, mmaqs := [], trees := [], ravel := l.placed, stage := 0 }
        let s : State := { s with
          seq := s.seq + 1
          units := amPut unit u s.units
          launches := amPut lid { l with placed := l.placed + 1, weight := left } s.launches
          phases := match w with | some ph => amMod ph (fun p => { p with root := root' }) s.phases | none => s.phases }
        let s := modCtx l.ctx (fun c => { c with stkUsed := if l.stackBytes = 0 then c.stkUsed else c.stkUsed ++ [(base, l.stackBytes)] }) s
        let s := inherit (agentQueue l.queue) (agentFetch unit) s
        let (gs, s) := pickCores l.teams (clusterRoom s l cl) s
        some (((upFrom 0 l.teams).zip gs).foldl (fun s e => placeTeam lid l unit e.1 e.2 base s) s)

/-- Every unit still to come is placed, or none (R371). -/
def placeAllUnits (lid : Nat) : Nat → State → Option State
  | 0, s => some s
  | n + 1, s => match placeUnit lid s with
    | none => none
    | some s => placeAllUnits lid n s

/-- A dependence of a launch, by number or as a node of the replay on its queue, has not added all its FINs yet (R372, R373). -/
def pendingLaunch (s : State) (qn d : Nat) : Bool :=
  s.launches.any (fun x => (if d < 2 ^ 64 then x.1 == d else x.2.queue == qn && x.2.idx + 2 ^ 64 == d) && !x.2.done)

/-- The launch's dependences have added their FINs, and its context has its cores. -/
def placeReady (s : State) (l : Launch) : Bool :=
  decide (l.placed < l.units) &&
  (l.cancelled || (l.deps.all (fun d => !pendingLaunch s l.queue d) &&
    (match amGet l.ctx s.ctxs with | some c => c.pre == 0 | none => false)))

/-- A member that a cancel keeps from being placed counts as finished by cancel (R19, R20): 1 to CAN, then 1 to FIN. -/
def countUnplaced (lid : Nat) (l : Launch) (s : State) : State :=
  let g := controlEng (waitLaunch lid) (agentLaunch lid) l.ctx
  if l.canned ≤ l.placed then
    match finAdd g (waitLaunch lid) [] l.crec true 1 s with
    | .error (s, _) => s
    | .ok (s, _) => { s with launches := amMod lid (fun l => { l with canned := l.placed + 1 }) s.launches }
  else
    match finAdd g (waitLaunch lid) [agentLaunch lid] l.crec false 1 s with
    | .error (s, _) => s
    | .ok (s, _) => { s with launches := amMod lid (fun l => { l with placed := l.placed + 1, finished := l.finished + 1 }) s.launches }

/-- UNIT_PLACEMENT (R371): the next unit of a launch, or all of a co-resident one, is placed once room exists; of a cancelled
launch, the next member that is not placed is counted. A co-resident launch that does not fit ends with NOCORES, its FIN unchanged;
whether its graph's FIN counts it is open, and here it does not (DESIGN CHOICE, notes/assumptions/36.md). -/
def execUnitPlacement (launch : Nat) (s : State) : Out :=
  match amGet launch s.launches with
  | none => .next s
  | some l =>
    if !placeReady s l then .next s
    else if l.cancelled then .next (countUnplaced launch l s)
    else if l.coop && l.placed == 0 then
      match placeAllUnits launch l.units s with
      | some s => .next s
      | none =>
        let s := match l.phase with | some ph => giveBack ph l.weight s | none => s
        let s : State := { s with launches := amPut launch { l with placed := l.units, finished := l.units, weight := 0 } s.launches }
        .next (match amGet l.queue s.queues with
          | none => s
          | some q => match q.running.find? (fun x => x.1.idx == l.idx) with
            | some (c, _) => runCommand c (.status 2 none) { s with launches := amDel launch s.launches }
            | none => s)
    else match placeUnit launch s with
      | some s => .next s
      | none => .next s

/-! ### The end of units, launches and phases (R19, R375) -/

/-- The agents whose writes a team's operations make. -/
def teamAgents (team : Nat) : List Nat := [team, agentAdds team, agentCopy team, agentMatrix team]

/-- Every team of the unit has exited or been stopped, and every operation it issued has completed (R19). -/
def unitOver (s : State) (unit : Nat) (u : UnitSt) : Bool :=
  u.teams.all (fun t => match amGet t s.teams with | some x => x.exited | none => true) &&
  !s.ops.any (fun o => decide (o.2.unit = unit)) &&
  !s.tiles.any (fun t => t.2.held.any (fun h => u.teams.any (fun x => (teamAgents x).contains h.writer)))

/-- The unit leaves: its teams, stack span and allocations; its weight returns. -/
def removeUnit (unit : Nat) (u : UnitSt) (s : State) : State :=
  let spans := (u.teams.filterMap (fun t => amGet t s.teams)).map (fun t => t.tsb.toNat)
  let s := match phaseOf s unit with | some ph => giveBack ph u.weight s | none => s
  let s := modCtx u.ctx (fun c => { c with stkUsed := c.stkUsed.filter (fun e => !spans.contains e.1) }) s
  { s with
    units := amDel unit s.units
    teams := s.teams.filter (fun t => t.2.unit != unit)
    launches := amMod u.launch (fun l => { l with finished := l.finished + 1 }) s.launches }

/-- UNIT_FINISH (R19): a unit that is over by cancel adds to CAN first; FIN then receives its add, a release at SYSTEM scope of
everything the unit did. -/
def execUnitFinish (unit : Nat) (s : State) : Out :=
  match amGet unit s.units with
  | none => .next s
  | some u => match amGet u.launch s.launches with
    | none => .next s
    | some l =>
      if !unitOver s unit u then .next s
      else
        let g := controlEng (waitUnit unit) (agentLaunch u.launch) u.ctx
        if u.cancelled && u.stage == 0 then
          match finAdd g (waitUnit unit) [] l.crec true 1 s with
          | .error (s, _) => .next s
          | .ok (s, _) => .next (modUnit unit (fun u => { u with stage := 1 }) s)
        else
          let agents := agentUnit unit :: agentLaunch u.launch :: u.teams.flatMap teamAgents
          let n := s.seq
          match finAdd g (waitUnit unit) agents l.crec false 1 (if l.crec = 0 then release agents
              { agent := agentLaunch u.launch, pos := .die 0, scope := 5, full := false, all := false, counter := none } s else s) with
          | .error (s, _) => .next s
          | .ok (s, _) =>
            let s := acquireFrom (agentLaunch u.launch) [n] s
            let s := match l.phase with | some ph => acquireFrom (agentPhase ph) [n] s | none => s
            .next (removeUnit unit u s)

/-- A launch whose members have finished (R19, R365): its graph's record has its adds, then its LAUNCH completes. It stays while
colophons of it are to be written (R396). A launch that was cancelled counts in its graph's CAN even if every unit of it had exited
before and finished normally, which R21 leaves open (DESIGN CHOICE, notes/assumptions/36.md). -/
def launchEnds (c : Command) (lid : Nat) (s : State) : State :=
  match amGet lid s.launches with
  | none => completeCommand c 0 none s
  | some l =>
    if !l.done then s
    else
      let g := controlEng (waitLaunch lid) (agentLaunch lid) l.ctx
      if l.cancelled && l.stage == 0 then
        match finAdd g (waitLaunch lid) [] l.graphRec true 1 s with
        | .error (s, _) => s
        | .ok (s, _) => { s with launches := amPut lid { l with stage := 1 } s.launches }
      else if l.stage < 2 ∧ l.graphRec ≠ 0 then
        match finAdd g (waitLaunch lid) [agentLaunch lid] l.graphRec false 1 s with
        | .error (s, _) => s
        | .ok (s, _) => { s with launches := amPut lid { l with stage := 2 } s.launches }
      else
        let s := match l.phase with | some ph => giveBack ph l.weight s | none => s
        let s := inherit (agentLaunch lid) (agentQueue c.queue) s
        let s : State := { s with launches := if l.clrPend.isEmpty then amDel lid s.launches else amPut lid { l with weight := 0 } s.launches }
        completeCommand c 0 none s

/-- PHASE_END (R19, R375): closed, with every unit of weight home, the phase's FIN receives 1, then its job's. -/
def execPhaseEnd (phase : Nat) (s : State) : Out :=
  match amGet phase s.phases with
  | none => .next s
  | some p =>
    if !p.closed || p.root != 2 ^ 48 then .next s
    else
      let g := controlEng (waitPhase phase) (agentPhase phase) p.ctx
      let job := match amGet p.ctx s.ctxs with | some c => c.crec | none => 0
      let stage := if !p.cancelled && p.stage % 2 == 0 then p.stage + 1 else p.stage
      let (rec_, can) := (if stage < 2 then p.crec else job, stage % 2 == 0)
      if 4 ≤ stage then .next { s with phases := amDel phase s.phases }
      else match finAdd g (waitPhase phase) (if can then [] else [agentPhase phase]) rec_ can 1 s with
        | .error (s, _) => .next s
        | .ok (s, _) => .next { s with phases := (if stage = 3 then amDel phase s.phases else amPut phase { p with stage := stage + 1 } s.phases) }

/-! ### Cancels (R20, R21, R119) -/

/-- A running replay is cancelled: what it has started stops, what is left counts as cancelled. One whose commands have all completed
is over, and a cancel does not reach it (R21). -/
def cancelReplay (p : Nat → Queue → Bool) (s : State) : State :=
  let hit := (s.queues.filter (fun q => decide (2 ^ 20 ≤ q.1) && decide (q.2.done < q.2.tail) && p q.1 q.2)).map Prod.fst
  cancelLaunches (fun l => hit.contains l.queue)
    { s with queues := s.queues.map (fun q => if hit.contains q.1 then (q.1, { q.2 with cancelled := true }) else q) }

/-- A phase is cancelled, with its graphs and launches. -/
def cancelPhase (ph : Nat) (s : State) : State :=
  cancelLaunches (fun l => l.phase == some ph) (cancelReplay (fun _ q => q.phase == some ph)
    { s with phases := amMod ph Phase.cancel s.phases })

/-- SYS.CANCEL (R119): the issuing team's own launch, graph, phase or job; where a level does not exist, the next lower one. -/
def execSysCancel (l : BitVec 5) (s : State) : Out :=
  match current s with
  | none => .fault .noFragment
  | some (i, f, t) => match amGet t.unit s.units with
    | none => .next s
    | some u => match amGet u.launch s.launches with
      | none => .next s
      | some x =>
        if 4 ≤ l.toNat then .next (stopPass i f false s (illegal s f).2)
        else
        let s := advance i 4 s
        let launch := cancelLaunches (fun y => y.queue == x.queue && y.idx == x.idx) s
        let graph := if x.graph.isSome then cancelReplay (fun n _ => n == x.queue) s else launch
        match l.toNat with
        | 0 => .next launch
        | 1 => .next graph
        | 2 => .next (match x.phase with | some ph => cancelPhase ph s | none => graph)
        | _ => .next (cancelJob u.ctx s)

end Sys2Proof.Machine
end

