-- ==== Sys2Proof/Machine/Commands.lean ====
section
/-! DEFINITION. Queues and their doorbells (R365, R367), recording and replay of graphs (R373, R374), and the commands of
launches, graphs, phases, cancels, handles, counters and the Carillon (R366). -/

namespace Sys2Proof.Machine

/-! ### Doorbells (R365, R367) -/

/-- A tail, exposed as a count modulo 2^32. -/
def newTail (q : Queue) (tail : DWord) : Nat := q.head + (tail.toNat + 2 ^ 32 - q.head % 2 ^ 32) % 2 ^ 32

/-- A queue as it is created (R367). -/
def freshQueue (base : DWord) (len : Nat) (stat : DWord) (prio ctx : Nat) : Queue :=
  { base := base, len := len, stat := stat, prio := prio, ctx := ctx, tail := 0, head := 0, done := 0, script := [], running := [],
    recording := none, phase := none, parent := none, status := 0, graph := none, graphRec := 0, params := [], links := [], weight := 0,
    cancelled := false, doomed := false, ownPhase := false }

/-- A queue's status record as it starts: nothing read or done, no error (R368). -/
def clearStatus (stat : Nat) (s : State) : State := pokeHost stat (natBytes 16 0 ++ natBytes 8 (2 ^ 64 - 1) ++ natBytes 40 0) s

/-- A ring of so many entries and a status record lie in device or host memory (R26, R365, R367). -/
def queueMemory (base len stat : Nat) : Bool := decide (base + 64 * len ≤ 2 ^ 48) && decide (stat + 64 ≤ 2 ^ 48)

/-- QUEUE_DOORBELL (R364, R367): a queue's tail is written, and what the host has written before is performed; of a queue that
does not exist, nothing happens. -/
def execQueueDoorbell (queue : Nat) (tail : DWord) (s : State) : Out :=
  if adminQueue ≤ queue then .next s
  else
    let s := inherit agentHost (agentQueue queue) s
    .next { s with queues := amMod queue (fun q => { q with tail := newTail q tail }) s.queues }

/-- ADMDB (R367): the administrative queue, set up from ADMBASE, ADMLEN and ADMSTAT whenever it holds no unread entry. -/
def execAdmdb (tail : DWord) (s : State) : Out :=
  if s.boot.state ≠ 2 then .next s
  else
    let base := smGet 0 0x1F0000 s.bar0
    let len := (smGet 0 0x1F0008 s.bar0).toNat
    let stat := smGet 0 0x1F0010 s.bar0
    if !isPow2 len 2 65536 || base.toNat % 64 != 0 || stat.toNat % 64 != 0 || !queueMemory base.toNat len stat.toNat then .next s
    else
      let s := match amGet adminQueue s.queues with
        | none => clearStatus stat.toNat { s with queues := amPut adminQueue (freshQueue base len stat 3 4096) s.queues }
        | some q => if q.head = q.tail then { s with queues := amPut adminQueue { q with base := base, len := len, stat := stat } s.queues } else s
      let s := inherit agentHost (agentQueue adminQueue) s
      .next { s with queues := amMod adminQueue (fun q => { q with tail := newTail q tail }) s.queues }

/-! ### Starting commands (R365) -/

/-- The entry that a queue reads next: in its ring, or of its replay's script. -/
def nextCommand (s : State) (qn : Nat) (q : Queue) : Option Command :=
  if 2 ^ 20 ≤ qn then (q.script[q.head]?).map (fun c => { c.1 with queue := qn, idx := q.head })
  else if q.tail ≤ q.head then none
  else
    let b := rdBytes s (q.base.toNat + 64 * (q.head % q.len)) 64
    some { queue := qn, idx := q.head, op := BitVec.ofNat 16 (field b 0 2), flags := BitVec.ofNat 16 (field b 2 2),
           res0 := BitVec.ofNat 32 (field b 4 4), waitCtr := dw (field b 8 8), waitVal := dw (field b 16 8), doneCtr := dw (field b 24 8),
           p0 := dw (field b 32 8), p1 := dw (field b 40 8), p2 := dw (field b 48 8), p3 := dw (field b 56 8) }

/-- The previous command has completed, or has started and the command may start before its completion. -/
def inOrder (q : Queue) (c : Command) : Bool := c.flags.getLsbD 0 || !q.running.any (fun x => x.1.idx + 1 == c.idx)

/-- Whether the command's wait is over, as it is for work that starts cancelled (R20); a wait that its counter's checks end is a BADOP. The page of the counter may have to be
waited for. -/
def waitOver (c : Command) (q : Queue) (s : State) : EngRes (Option Nat) :=
  if c.waitCtr = 0 ∨ q.cancelled = true ∨ ((c.op = 0x20 ∨ c.op = 0x23 ∨ c.op = 0x51) ∧ startsCancelled s q = true) then .ok (s, none)
  else engThen (retried c.queue (queueCounter c.queue q c.waitCtr false) s) fun s pa =>
    .ok (s, some pa)

/-- The OPs that a context's queue accepts (R365, R366). -/
def queueOps : List (BitVec 16) :=
  [0x10, 0x11, 0x12, 0x13, 0x14, 0x18, 0x20, 0x21, 0x22, 0x23, 0x30, 0x31, 0x32, 0x40, 0x41, 0x42, 0x43, 0x50, 0x51, 0x7F]

/-- The recording that takes the command: any but the GRAPH.END of its own graph (R373). An OP that is no command's is BADOP inside a
recording as outside one (R366), and the recording goes on (DEDUCED, notes/assumptions/35.md). -/
def recorded (q : Queue) (c : Command) : Option (Nat × Graph) :=
  q.recording.filter (fun x => queueOps.contains c.op && !(c.op == 0x22 && c.p0 == dw x.1))

/-- The wait of the command is not over yet, as far as its counter can be read. A recording does not wait. -/
def stillWaits (s : State) (c : Command) (q : Queue) : Bool :=
  if (recorded q c).isSome then false
  else match waitOver c q s with
  | .ok (s, some pa) => decide (rdNat s pa 8 < c.waitVal.toNat)
  | _ => false

/-- A recording takes a command, a LAUNCH with its record and the dependences of its handles, or ends with BADGRAPH (R373). -/
def recordCommand (c : Command) (q : Queue) (k : Nat) (g : Graph) (s : State) : State :=
  let keep (b : List Byte) (s : State) : State :=
    let held := match amGet q.ctx s.ctxs with | some x => x.handles | none => []
    let names := if c.op = 0x20 then handlesOf b else []
    let (deps, hs) := joinHandles (2 ^ 64 + g.cmds.length) names (g.uses.foldl (fun m e => amPut e.1 e.2 m) held)
    let uses := names.foldl (fun m n => match amGet n.1 hs with | some h => amPut n.1 h m | none => m) g.uses
    let g' : Graph := { g with cmds := g.cmds ++ [(c, b)], deps := g.deps ++ [deps], uses := uses }
    completeCommand { c with doneCtr := 0 } 0 none
      (takeEntry c.queue { s with queues := amMod c.queue (fun q => { q with recording := some (k, g') }) s.queues })
  if g.cmds.length < 4096 ∧ (c.op = 0x20 ∨ c.op = 0x7F ∨ (c.waitCtr ≠ 0 ∧ c.op ≠ 0x22)) then
    (if c.op = 0x20 then afterAccess c (retried c.queue (readLaunch (queueEng c.queue q.ctx) c.p0) s) (fun s b =>
        match launchFault b with | none => keep b s | some st => badCommand c st s)
      else keep [] s)
  else badCommand c 3 { s with queues := amMod c.queue (fun q => { q with recording := none }) s.queues }

/-- A command of a queue (R365, R366): in progress, it goes on by `settle`; as its queue's next entry, it is recorded, or starts
once its wait is over, an acquire at SYSTEM scope. `admin` says on which queues it is accepted. -/
def command (c : Command) (admin : Bool) (start : Queue → State → State) (settle : Pending → State → State) (s : State) : Out :=
  match pendingOf s c, amGet c.queue s.queues with
  | some (.status n result), _ => .next (completeCommand c n result s)
  | some p, _ => .next (settle p s)
  | none, none => .next s
  | none, some q =>
    -- a context that is being destroyed starts no more commands of its queues; a replay's go on, cancelled (R20, R366)
    if c.idx ≠ q.head ∨ inOrder q c = false ∨
        (decide (c.queue < 2 ^ 20) && match amGet q.ctx s.ctxs with | some x => x.dying | none => false) = true then .next s
    else if 1 < c.flags.toNat || c.res0 != 0 || admin != (c.queue == adminQueue) then .next (badCommand c 1 s)
    -- nothing of a cancelled replay starts but to be counted (R20)
    else if 2 ^ 20 ≤ c.queue ∧ q.cancelled = true ∧ c.op ≠ 0x20 ∧ c.op ≠ 0x23 then .next (completeCommand c 0 none (takeEntry c.queue s))
    else match recorded q c with
      | some (k, g) => .next (recordCommand c q k g s)
      | none => match waitOver c q s with
        | .error (s, .wait) => .next s
        | .error (s, .fault _ _) => .next (badCommand c 1 s)
        | .ok (s', none) => .next (start q s')
        | .ok (s', some pa) =>
          let v := rdNat s' pa 8
          if v < c.waitVal.toNat then .next s
          else .next (start q (acquireCounter (agentQueue c.queue) (.die 0) 5 pa v s'))

/-- A command that takes its whole effect when it starts. -/
def atOnce (c : Command) (f : Queue → State → State) (s : State) : Out := command c false f (fun _ s => s) s

/-- A command ends well. -/
def goodCommand (c : Command) (s : State) : State := completeCommand c 0 none (takeEntry c.queue s)

/-- Every other OP (R366). -/
def execUnknownCommand (c : Command) (s : State) : Out :=
  command c (c.queue == adminQueue) (fun _ s => badCommand c 1 s) (fun _ s => s) s

/-- SIGNAL (R366): a counter add by the command processor, a release at its scope placed at its die (R57). -/
def execSignal (c : Command) (s : State) : Out :=
  atOnce c (fun q s =>
    if q.cancelled then goodCommand c s
    else if 5 < c.p2.toNat then badCommand c 1 s
    else afterAccess c (retried c.queue (engineCounter (queueEng c.queue q.ctx) c.p0 true) s) fun s pa =>
      match counterAdd [agentQueue c.queue] (agentQueue c.queue) (.die 0) c.p2.toNat pa c.p1.toNat s with
      | ((_, true), s) => goodCommand c s
      | ((_, false), s) => goodCommand c (recordOverflow q.ctx 0 0 c.p0 c.p1.toNat s)) s

/-- BUF.DECLARE (R366, R372): the handle's range; whom it orders stays. -/
def execBufDeclare (c : Command) (s : State) : Out :=
  atOnce c (fun q s =>
    if 4095 < c.p0.toNat ∨ 1 < c.p3.toNat then badCommand c 1 s
    else goodCommand c (modCtx q.ctx (fun x =>
      let h : Handle := (amGet c.p0.toNat x.handles).getD { va := 0, bytes := 0, hostvis := false, writer := none, readers := [] }
      { x with handles := amPut c.p0.toNat { h with va := c.p1, bytes := c.p2, hostvis := c.p3 == 1 } x.handles }) s)) s

/-! ### Launches and graphs (R370 to R374) -/

/-- LAUNCH (R370, R371); in a replay, its node's copy with the replay's bindings (R374). -/
def execLaunch (c : Command) (s : State) : Out :=
  command c false (fun q s =>
    let grid (b : List Byte) : List Nat := (upFrom 0 3).map (fun i => field b (24 + 4 * i) 4)
    if c.queue < 2 ^ 20 then
      afterAccess c (retried c.queue (readLaunch (queueEng c.queue q.ctx) c.p0) s) fun s b =>
        match launchFault b with
        | some st => badCommand c st s
        | none => (startLaunch c q b (grid b) false s).getD s
    else
      let b := ((q.script[c.idx]?).map Prod.snd).getD []
      let binds := (upFrom 0 8).filterMap (bindOf b)
      let bad := binds.any (fun x => decide (8 ≤ x.1) && let v := (nth 0 q.params x.2).toNat; v == 0 || decide (65535 < v))
      let gs := binds.foldl (fun g x => if x.1 < 8 ∨ bad = true then g else setNth (nth 0 q.params x.2).toNat g (x.1 - 8)) (grid b)
      let g := { queueEng c.queue q.ctx with phase := q.phase }
      let writes := if bad then [] else binds.filter (fun x => decide (x.1 < 8))
      let r : EngRes (List (List (Spot × Nat))) := writes.foldl (fun r x => engThen r fun s ps =>
        engThen (engineSpots g none ((field b 16 8 + 8 * x.1 : Nat) : Int) 8 needStore s) fun s p => .ok (s, ps ++ [p]))
        (retried c.queue (fun s => .ok (s, [])) s)
      afterAccess c r fun s ps =>
        match startLaunch c q b gs bad s with
        | none => s
        | some s =>
          let s := ((writes.zip ps).foldl (fun s x =>
            writeCells g.agent (engineOp g) s.seq (cellsAt x.2 (natBytes 8 (nth 0 q.params x.1.2).toNat)) s) s)
          if bad then { s with queues := amMod c.queue (fun q => { q with status := 11 }) s.queues } else s)
    (fun p s => match p with | .launch l => launchEnds c l s | _ => s) s

/-- GRAPH.BEGIN (R373): P1 names the graph's completion record, 16-byte aligned (R19). -/
def execGraphBegin (c : Command) (s : State) : Out :=
  atOnce c (fun _ s =>
    if 255 < c.p0.toNat ∨ c.p1.toNat % 16 ≠ 0 then badCommand c 1 s
    else goodCommand c { s with queues := amMod c.queue (fun q => { q with recording := some (c.p0.toNat, { cmds := [], crec := c.p1, deps := [], uses := [] }) }) s.queues }) s

/-- GRAPH.END (R373). -/
def execGraphEnd (c : Command) (s : State) : Out :=
  atOnce c (fun q s =>
    match q.recording with
    | none => badCommand c 1 s
    | some (k, g) => goodCommand c (modCtx q.ctx (fun x => { x with graphs := amPut k { g with uses := [] } x.graphs })
        { s with queues := amMod c.queue (fun q => { q with recording := none }) s.queues })) s

/-- A replay of a graph starts on a queue of its own, with its copy of the parameter registers (R374) and its work weight `held`, by
phase (R16); one that a cancel has reached before starts cancelled (R20). -/
def startReplay (c : Command) (q : Queue) (k : Nat) (g : Graph) (params : List DWord) (held : List (Nat × Nat)) (doomed : Bool) (s : State) : State :=
  let pq := amFresh s.queues (2 ^ 20)
  let phase := held.head?.map Prod.fst
  let r : Queue := { freshQueue 0 1 0 q.prio q.ctx with
    tail := g.cmds.length, script := g.cmds, phase := phase, parent := some (c.queue, c.idx), graph := some k, graphRec := g.crec,
    params := params, links := g.deps, weight := (held.head?.map Prod.snd).getD 0,
    cancelled := doomed || startsCancelled s { q with doomed := false, phase := phase } }
  inherit (agentQueue c.queue) (agentQueue pq) (runCommand c (.replay pq) { s with queues := amPut pq r s.queues })

/-- The parameter block, each register read as an acquire at SYSTEM scope (R374). -/
def readParams (g : Eng) (va : DWord) (s : State) : EngRes (List DWord) :=
  engThen (engineRead g none (va.toNat : Int) 512 s) fun s b =>
  .ok (acquireFrom g.agent (syncFence s g.agent (.die g.die) 5 false) s, (chunks 8 512 b).map (fun x => dw (bytesNat x)))

/-- A replay whose commands have all completed ends its command, and its weight returns; a phase still open on it takes no more work
(R375). -/
def replayEnds (c : Command) (pq : Nat) (s : State) : State :=
  match amGet pq s.queues with
  | none => completeCommand c 0 none s
  | some r =>
    if r.done < r.tail then s
    else
      let s := match r.phase with
        | some ph => giveBack ph r.weight (if r.ownPhase then { s with phases := amMod ph (fun p => { p with closed := true }) s.phases } else s)
        | none => s
      completeCommand c r.status none (inherit (agentQueue pq) (agentQueue c.queue) { s with queues := amDel pq s.queues })

/-- A share of a phase's weight, if there is a phase. -/
def phaseShare (phase : Option Nat) (w : Nat) : List (Nat × Nat) := phase.toList.map (fun ph => (ph, w))

/-- GRAPH.REPLAY (R374); it waits while its phase's root has no share for it (R375). -/
def execGraphReplay (c : Command) (s : State) : Out :=
  command c false (fun q s =>
    match (amGet q.ctx s.ctxs).bind (fun x => amGet c.p0.toNat x.graphs) with
    | none => badCommand c 1 s
    | some g =>
      afterAccess c (retried c.queue (readParams (queueEng c.queue q.ctx) c.p1) s) fun s ps =>
        match launchWeight q.phase s with
        | none => s
        | some (w, s) => startReplay c q c.p0.toNat g ps (phaseShare q.phase w) q.doomed (takeEntry c.queue s))
    (fun p s => match p with | .replay pq => replayEnds c pq s | _ => s) s

/-! ### Phases and cancels (R375, R20) -/

/-- PHASE.OPEN (R375): a root of 2^48 units; one phase at a time is open on a queue. A replay that opens one borrows its share of it, as
a holder without weight does, for the launches that it starts (DEDUCED, notes/assumptions/88.md). -/
def execPhaseOpen (c : Command) (s : State) : Out :=
  atOnce c (fun q s =>
    if q.phase.isSome ∨ c.p0.toNat % 16 ≠ 0 then badCommand c 1 s
    else
      let n := s.seq
      let w := if c.queue < 2 ^ 20 then 0 else borrowed (2 ^ 48)
      let p : Phase := { ctx := q.ctx, crec := c.p0, root := 2 ^ 48 - w, closed := false, stage := 0,
                         cancelled := (match amGet q.ctx s.ctxs with | some x => x.cancelled | none => true) }
      let s : State := { s with
        seq := s.seq + 1
        phases := amPut n p s.phases
        queues := amMod c.queue (fun q => { q with phase := some n, weight := w, ownPhase := decide (w ≠ 0) }) s.queues }
      goodCommand c s) s

/-- PHASE.CLOSE (R375): no more work belongs to the phase. -/
def execPhaseClose (c : Command) (s : State) : Out :=
  atOnce c (fun q s =>
    match q.phase with
    | none => badCommand c 1 s
    | some n =>
      let mine := match amGet n s.phases with | some p => p.crec == c.p0 | none => true
      if !mine then badCommand c 1 s
      else goodCommand c (giveBack n q.weight { s with
        phases := amMod n (fun p => { p with closed := true }) s.phases
        queues := amMod c.queue (fun q => { q with phase := none, weight := 0, ownPhase := false }) s.queues })) s

/-- The completion record that a LAUNCH names, if its launch record can be read. -/
def recordAt (s : State) (qn : Nat) (q : Queue) (c : Command) : Option DWord :=
  match engineRead (queueEng qn q.ctx) none (c.p0.toNat + 56 : Nat) 8 s with
  | .ok (_, b) => some (dw (bytesNat b))
  | .error _ => none

/-- Of a context's queues, the next commands that p picks are cancelled before they start (R20). -/
def doomNext (ctx : Nat) (p : Nat → Queue → Command → Bool) (s : State) : State :=
  { s with queues := s.queues.map (fun e => if decide (e.2.ctx = ctx) && (match nextCommand s e.1 e.2 with | some n => p e.1 e.2 n | none => false)
      then (e.1, { e.2 with doomed := true }) else e) }

/-- A BATCH.ITER of a context that has not started its replay yet is reached by a cancel of a graph that p picks: its replay starts
cancelled (R20). -/
def doomIters (ctx : Nat) (p : DWord → Bool) (s : State) : State :=
  { s with queues := s.queues.map (fun e => if e.2.ctx = ctx then (e.1, { e.2 with running := e.2.running.map (fun x => match x.2 with
      | .iter ord asked doomed w => (x.1, .iter ord asked (doomed || p x.1.p2) w)
      | _ => x) }) else e) }

/-- CANCEL (R20, R366): a launch or a replay that waits to start as well as the level in progress; the level of the queue's context whose completion record P1 names. -/
def execCancel (c : Command) (s : State) : Out :=
  atOnce c (fun q s =>
    match c.p0.toNat with
    | 0 => goodCommand c (cancelLaunches (fun l => l.ctx == q.ctx && l.crec == c.p1)
        (doomNext q.ctx (fun qn r n => decide (n.op = 0x20) && recordAt s qn r n == some c.p1) s))
    | 1 =>
      let gs := match amGet q.ctx s.ctxs with | some x => (x.graphs.filter (fun (g : Nat × Graph) => g.2.crec == c.p1)).map Prod.fst | none => []
      let named (n : DWord) : Bool := gs.any (fun k => n == dw k)
      goodCommand c (cancelReplay (fun _ r => r.ctx == q.ctx && r.graph.isSome && r.graphRec == c.p1) (doomIters q.ctx named
        (doomNext q.ctx (fun _ _ n => (decide (n.op = 0x23) && named n.p0) || (decide (n.op = 0x51) && named n.p2)) s)))
    | 2 => goodCommand c ((s.phases.filter (fun p => p.2.ctx == q.ctx && p.2.crec == c.p1)).foldl (fun s p => cancelPhase p.1 s) s)
    | 3 => goodCommand c (if (match amGet q.ctx s.ctxs with | some x => x.crec == c.p1 | none => false) then cancelJob q.ctx s else s)
    | _ => badCommand c 1 s) s

/-! ### Carillon contexts (R339 to R341, R353, R361) -/

/-- A free context in the state that the host sets up, from its initial state block (R340). -/
def crlFrom (owner slot : Nat) (b : List Byte) : Crl :=
  let streams (off n : Nat) : AMap Nat := ((upFrom 0 8).map (fun k => (k, field b (32 + 32 * k + off) n)))
  { owner := owner, state := 1, prior := 1, pc := 0, prog := slot, c := [],
    key := (streams 0 16).foldl (fun m e => smPut 0 e.1 (BitVec.ofNat 128 e.2) m) [],
    x := (streams 16 8).foldl (fun m e => smPut 0 e.1 (dw e.2) m) [],
    pos := (streams 24 8).foldl (fun m e => smPut 0 e.1 (dw e.2) m) [],
    val := [], idx := [], ccnt := 0, hist := (upFrom 0 (field b 20 4)).map (fun k => BitVec.ofNat 32 (field b (288 + 4 * k) 4)),
    dbell := dw (field b 0 8), t := 0, tOld := 0, outBase := dw (field b 8 8), outLen := field b 16 4, tokCtr := dw (field b 24 8),
    seq := 0, fcause := 0, tcause := 0, blocked := false, fault := none, halting := false, emit := none, weight := [] }

/-- CRL.BIND (R339, R340): P0 the context (die·4096 + CTXN), P1 the slot, P3 the initial state block. -/
def execCrlBind (c : Command) (s : State) : Out :=
  atOnce c (fun q s =>
    if 8191 < c.p0.toNat ∨ 15 < c.p1.toNat ∨ (amGet c.p0.toNat s.crls).isSome = true then badCommand c 1 s
    else afterAccess c (retried c.queue (engineRead (queueEng c.queue q.ctx) none (c.p3.toNat : Int) 544) s) fun s b =>
      if !isPow2 (field b 16 4) 1 65536 || field b 8 8 % 16 != 0 || decide (64 < field b 20 4) then badCommand c 1 s
      else goodCommand c { s with crls := amPut c.p0.toNat (crlFrom q.ctx c.p1.toNat b) s.crls }) s

/-- The Carillon context that a command names, if it is bound to the queue's context. -/
def crlNamed (s : State) (q : Queue) (n : Nat) : Option Crl :=
  match amGet n s.crls with
  | some x => if x.owner = q.ctx then some x else none
  | none => none

/-- A context is FREE again; the weight it holds returns. -/
def freeCrl (n : Nat) (s : State) : State :=
  match amGet n s.crls with
  | none => s
  | some x => leaveMerge (.carillon n) (giveBackAll x.weight { s with crls := amDel n s.crls })

/-- CRL.FREE (R361): the context is suspended at a microinstruction boundary and freed. -/
def execCrlFree (c : Command) (s : State) : Out :=
  atOnce c (fun q s =>
    match crlNamed s q c.p0.toNat with
    | none => badCommand c 1 s
    | some x => if x.emit.isSome then s else goodCommand c (freeCrl c.p0.toNat s)) s

/-- CRL.LOAD (R339): P0 the die, P1 the slot, P2 the image, P3 its words. Refused unless every context bound to the slot is FREE,
HALTED or FAULTED. -/
def execCrlLoad (c : Command) (s : State) : Out :=
  atOnce c (fun q s =>
    if 1 < c.p0.toNat ∨ 15 < c.p1.toNat ∨ 1024 < c.p3.toNat then badCommand c 1 s
    else if s.crls.any (fun x => x.1 / 4096 == c.p0.toNat && x.2.prog == c.p1.toNat && x.2.state != 3 && x.2.state != 4) then badCommand c 10 s
    else afterAccess c (retried c.queue (engineRead (queueEng c.queue q.ctx) none (c.p2.toNat : Int) (4 * c.p3.toNat)) s) fun s b =>
      goodCommand c { s with progs := amPut (c.p0.toNat * 16 + c.p1.toNat) ((chunks 4 b.length b).map (fun x => BitVec.ofNat 32 (bytesNat x))) s.progs }) s

/-- CRL.RESTART (R353): a HALTED or FAULTED context runs from word 0 of the slot P1, the rest of its state kept. -/
def execCrlRestart (c : Command) (s : State) : Out :=
  atOnce c (fun q s =>
    match crlNamed s q c.p0.toNat with
    | none => badCommand c 1 s
    | some x =>
      if 15 < c.p1.toNat ∨ (x.state ≠ 3 ∧ x.state ≠ 4) then badCommand c 1 s
      else goodCommand c { s with crls := amPut c.p0.toNat { x with state := 1, pc := 0, prog := c.p1.toNat, fcause := 0, tcause := 0, fault := none } s.crls }) s

/-! ### The batching table (R376, R377) -/

/-- An empty entry. -/
def BatchImage.empty : BatchImage := { version := 0, valid := 0, ctxn := 0, len := 0, kv := 0, user := natBytes 40 0 }

/-- A die's entry (R376). -/
def batchAt (s : State) (die k : Nat) : BatchEntry :=
  (amGet (die * 4096 + k) s.batch).getD { now := .empty, tick := 0, before := .empty }

/-- An entry takes a new image, at this tick. -/
def commitBatch (die k : Nat) (im : BatchImage) (s : State) : State :=
  let e := batchAt s die k
  let x : BatchEntry := BatchEntry.mk im s.toll (if (amGet (die * 4096 + k) s.batch).isSome ∧ e.tick = s.toll then e.before else e.now)
  { s with batch := amPut (die * 4096 + k) x s.batch }

/-- BATCH.UPDATE (R376): the whole entry but VERSION, which rises by 1, commits at one tick; a malformed entry is MALFORMED (R368). -/
def execBatchUpdate (c : Command) (s : State) : Out :=
  atOnce c (fun q s =>
    if 1 < c.p0.toNat ∨ 4095 < c.p1.toNat then badCommand c 1 s
    else afterAccess c (retried c.queue (engineRead (queueEng c.queue q.ctx) none (c.p2.toNat : Int) 64) s) fun s b =>
      if 1 < field b 8 1 ∨ field b 9 1 ≠ 0 ∨ 4095 < field b 10 2 then badCommand c 8 s
      else goodCommand c (commitBatch c.p0.toNat c.p1.toNat
        { version := (batchAt s c.p0.toNat c.p1.toNat).now.version + 1, valid := field b 8 1, ctxn := field b 10 2,
          len := BitVec.ofNat 32 (field b 12 4), kv := dw (field b 16 8), user := b.drop 24 } s)) s

/-- An entry's bytes (R376). -/
def BatchImage.bytes (e : BatchImage) : List Byte :=
  natBytes 8 e.version.toNat ++ natBytes 1 e.valid ++ natBytes 1 0 ++ natBytes 2 e.ctxn ++ natBytes 4 e.len.toNat ++ natBytes 8 e.kv.toNat ++ e.user

/-- The entries of a die's table that a snapshot at this tick takes (R377): as committed by the last update with an earlier tick. -/
def snapshot (s : State) (die : Nat) : List (Nat × BatchImage) :=
  (s.batch.filter (fun e => decide (e.1 / 4096 = die))).map (fun e => (e.1 % 4096, if e.2.tick < s.toll then e.2.now else e.2.before))

/-- Bytes written by the command processor and performed at SYSTEM scope at once; those in logs are appended (R305). -/
def pokeCells (o : Op) (ord : Nat) (cells : List Cell) (s : State) : State :=
  (byUnit cells).foldl (fun s u => appendUnit o ord u (u.foldl (fun s c => match c.1 with
    | .at pa _ => pokeBytes pa [c.2.1] s
    | .log _ _ => s) s)) s

/-- BATCH.ITER goes on: with its snapshot performed at SYSTEM scope, the parameter block is read and the replay starts with the weight
held for it, which returns where no replay can start (R374, R377). -/
def iterGoes (c : Command) (ord : Nat) (asked doomed : Bool) (w : List (Nat × Nat)) (s : State) : State :=
  match amGet c.queue s.queues with
  | none => s
  | some q =>
    let agent := agentQueue c.queue
    if appendsOut s agent ord then s
    else if logsOut s agent then (if asked then s else runCommand c (.iter ord true doomed w) (startLogs agent s))
    else match (amGet q.ctx s.ctxs).bind (fun x => amGet c.p2.toNat x.graphs) with
      | none => completeCommand c 1 none (giveBackAll w s)
      | some g => match retried c.queue (readParams (queueEng c.queue q.ctx) c.p3) s with
        | .error (s, .wait) => s
        | .error (s, .fault _ _) => completeCommand c 1 none (giveBackAll w s)
        | .ok (s, params) => startReplay c q c.p2.toNat g params w doomed s

/-- BATCH.ITER (R377): the snapshot into the buffer P1, performed at SYSTEM scope; the parameter registers that the graph binds,
filled from it; then the replay of P2 with the block P3. Which field a bound register takes is not stated: it keeps its value, or
takes the LEN or KVPAGES of a live entry. -/
def execBatchIter (c : Command) (s : State) : Out :=
  command c false (fun q s =>
    let g := { queueEng c.queue q.ctx with phase := q.phase }
    match (amGet q.ctx s.ctxs).bind (fun x => amGet c.p2.toNat x.graphs) with
    | none => badCommand c 1 s
    | some gr =>
      if 1 < c.p0.toNat then badCommand c 1 s
      else
        let r : EngRes (List (Spot × Nat) × List (Spot × Nat)) := retried c.queue (fun s =>
          engThen (engineSpots g none (c.p1.toNat : Int) (2 ^ 18) needStore s) fun s a =>
          engThen (engineSpots g none (c.p3.toNat : Int) 512 needStore s) fun s b => .ok (s, (a, b))) s
        afterAccess c r fun s (ps, bs) => match launchWeight q.phase s with
        | none => s
        | some (w, s) =>
          let held := phaseShare q.phase w
          let snap := snapshot s c.p0.toNat
          let ord := s.seq
          let s := takeEntry c.queue { s with seq := s.seq + 1 }
          let image := (upFrom 0 4096).flatMap (fun k => (((snap.find? (fun e => e.1 == k)).map Prod.snd).getD .empty).bytes)
          let s := pokeCells { engineOp g with ord := ord } ord (cellsAt ps image) s
          let live := snap.filter (fun e => e.2.valid == 1)
          let fields := live.flatMap (fun e => [e.2.len.setWidth 64, e.2.kv])
          let regs := (gr.cmds.flatMap (fun n => ((upFrom 0 8).filterMap (bindOf n.2)).map Prod.snd)).eraseDups
          let s := regs.foldl (fun s r =>
            let (v, s) := pickOne none (none :: fields.map some) s
            match v with
            | none => s
            | some v => pokeCells { engineOp g with ord := ord } ord
                (((natBytes 8 v.toNat).zip (upFrom (8 * r) 8)).map (fun b => (spotAt bs b.2, b.1, 0xFF))) s) s
          iterGoes c ord false q.doomed held (runCommand c (.iter ord false q.doomed held) s))
    (fun p s => match p with
      | .iter ord asked doomed w => iterGoes c ord asked doomed w s
      | .replay pq => replayEnds c pq s
      | _ => s) s

end Sys2Proof.Machine
end

