-- ==== Sys2Proof/Machine/Mapping.lean ====
section
/-! DEFINITION. Changes of mappings: shootdowns (R298 to R301), MEM.MAP, MEM.UNMAP and MEM.PROTECT (R299), TILE.EVICT (R316),
FAULT.REPLY (R293); and the commands of the administrative queue: contexts (R366, R369) and queues (R367). -/

namespace Sys2Proof.Machine

/-! ### Shootdowns (R298, R300) -/

/-- A doubleword of the context's COUNTER page that no shootdown under way counts in. -/
def freeCounter (ctx : Nat) (s : State) : Nat :=
  let base := match amGet ctx s.ctxs with | some c => c.ctrPage * 2 ^ 16 | none => 0
  (((upFrom 0 8192).map (fun k => base + 8 * k)).find? (fun a => !s.shoots.any (fun d => d.2.ctr == a))).getD base

/-- A shootdown of the 64 KiB pages lo to hi of a context starts, with its counter at 0; `frames` go back at its end. -/
def startShoot (ctx lo hi : Nat) (frames : List Nat) (s : State) : Nat × State :=
  let a := freeCounter ctx s
  (s.seq, { pokeNat a 8 0 s with
    seq := s.seq + 1
    shoots := amPut s.seq { ctx := ctx, lo := lo, hi := hi, ctr := a, reached := [], added := [], waits := [], frames := frames } s.shoots })

/-- The shootdown's counter reads 98 (R298). -/
def Shootdown.complete (s : State) (d : Shootdown) : Bool := decide (98 ≤ rdNat s d.ctr 8)

/-- A page of a size lies in the shootdown's range. -/
def Shootdown.covers (d : Shootdown) (ctx : Nat) (large : Bool) (vpn : Nat) : Bool :=
  let lo := if large then 32 * vpn else vpn
  let hi := if large then 32 * vpn + 31 else vpn
  d.ctx == ctx && decide (lo ≤ d.hi) && decide (d.lo ≤ hi)

/-- A TABLE entry of a walk cache leads to pages of the shootdown's range. -/
def Shootdown.holds (d : Shootdown) (e : WalkEntry) : Bool :=
  let n : Nat := match e.level with | 3 => 2 ^ 29 | 2 => 2 ^ 17 | _ => 2 ^ 5
  d.ctx == e.ctx && decide (e.index * n ≤ d.hi) && decide (d.lo < (e.index + 1) * n)

/-- An agent's caches: of a cluster, its L2 TLB and its cores' L1 TLBs. -/
def agentHolds (agent key : Nat) : Bool := key == 4096 + agent || (decide (key < 1536) && decide (clusterOf key = agent))

/-- Accesses in flight whose addresses have been translated. CTR.WAIT translates anew at each read, and wait-full loads read
scratchpads (R50). -/
def OpBody.translated : OpBody → Bool
  | .taking => true
  | .behind ps _ => ps.any (fun p => decide (p.1 < 2 ^ 48))
  | .adds _ => true
  | .drainAdd _ => true
  | .append _ _ => true
  | .ctrAdd .. => true
  | .ctrLoad .. => true
  | .select x => !x.places.isEmpty && decide (x.stage ≤ 1)
  | .matrix m => m.kind == 4 || m.kind == 5 || m.kind == 8
  | .post _ _ _ (some _) _ _ _ => true
  | _ => false

/-- The operation's addresses are translated by the agent's TLBs or its die's walker. -/
def Op.atAgent (o : Op) (agent : Nat) : Bool :=
  if agent < 96 then decide (clusterOf o.gcore = agent) else decide (o.gcore / 768 = agent - 96)

/-- EMITs of a context's Carillon contexts on a die that hold the address of their TOKCTR, by their record's number (R351). -/
def emitsOut (s : State) (ctx die : Nat) : List Nat :=
  s.crls.filterMap (fun c => if c.1 / 4096 = die ∧ c.2.owner = ctx then
    (match c.2.emit with | some (n, some _) => some n | _ => none) else none)

/-- SHOOTDOWN (R298, R300): the agent invalidates what matches; a die's merge entries of the range are released to walk again.
It waits for the accesses in flight that it had translated. -/
def execShootdown (sd agent : Nat) (s : State) : Out :=
  match amGet sd s.shoots with
  | none => .next s
  | some d =>
    if d.reached.contains agent || decide (98 ≤ agent) then .next s
    else
      let mine := (s.ops.filter (fun o => decide (o.2.ctx = d.ctx) && o.2.body.translated && o.2.atAgent agent)).map (fun o => o.2.ord) ++
        (if agent < 96 then [] else emitsOut s d.ctx (agent - 96))
      .next { s with
        walks := s.walks.map (fun e => if e.1 + 96 = agent then (e.1, e.2.filter (fun t => !d.holds t)) else e)
        tlb := s.tlb.map (fun e => if agentHolds agent e.1 then
          (e.1, e.2.filter (fun t => !d.covers t.ctx t.large t.vpn)) else e)
        merge := s.merge.map (fun e => if decide (e.1 / 2048 + 96 = agent) && d.covers e.2.ctx e.2.large e.2.vpn && e.2.released.isNone then
          (e.1, { e.2 with released := some 0 }) else e)
        shoots := amPut sd { d with reached := agent :: d.reached, waits := amPut agent mine d.waits } s.shoots }

/-- What an agent still waits for: the accesses of the instructions that it names, those that they spawn included. -/
def shootWaits (s : State) (d : Shootdown) (agent : Nat) : Bool :=
  let ns := smGet [] agent d.waits
  s.ops.any (fun o => decide (o.2.ctx = d.ctx) && o.2.body.translated && ns.contains o.2.ord) ||
  -- a write that a full log holds is performed with its tile's arrival (R315)
  s.tiles.any (fun t => decide (t.2.ctx = d.ctx) && t.2.held.any (fun h => ns.contains h.stamp)) ||
  (decide (96 ≤ agent) && (emitsOut s d.ctx (agent - 96)).any ns.contains)

/-- Whose accesses a shootdown's agent reports: those of the quires and selections it has waited for, and of the context's teams on a
cluster, on every path, or of a die's engines for it. -/
def shootAgents (s : State) (d : Shootdown) (agent : Nat) : List Nat :=
  let ctx := d.ctx
  (smGet [] agent d.waits).map agentEngine ++ if agent < 96 then
    (s.teams.filter (fun t => clusterOf t.2.gcore == agent &&
      (match amGet t.2.unit s.units with | some u => u.ctx == ctx | none => false))).flatMap
      (fun t => [t.1, agentAdds t.1, agentCopy t.1, agentMatrix t.1])
  else agentSelect (agent - 96) :: (s.crls.filter (fun c => c.1 / 4096 + 96 == agent && c.2.owner == ctx)).map (fun c => agentCarillon c.1) ++
    (upFrom (6 * (agent - 96)) 6).map agentFabric

/-- A shootdown's agent as the memory model knows it. -/
def agentShoot (agent : Nat) : Nat := 17 * 2 ^ 40 + agent
/-- Where it stands (R57). -/
def shootPos (agent : Nat) : Pos := if agent < 96 then .cluster agent else .die (agent - 96)

/-- One of each of some frames, of pages or of log areas, is no longer named: those that nothing names go back to the free memory (R290),
with every write to them performed (R298, R299). -/
def releaseFrames (ctx : Nat) (frames : List Nat) (s : State) : State :=
  modCtx ctx (fun c =>
    let owned := frames.foldl (fun l f => l.erase f) c.owned
    { c with owned := owned, poolMapped := c.poolMapped.filter owned.contains, tables := frames.foldl (fun l f => l.erase f) c.tables,
             packs := c.packs.filter (fun e => owned.contains e.1) })
    (frames.foldl (fun s f => forgetRange (f * 2 ^ 16) (2 ^ 16) s) s)

/-- All of some shootdowns are complete. -/
def shotDown (s : State) (sds : List Nat) : Bool :=
  sds.all (fun n => match amGet n s.shoots with | some d => d.complete s | none => true)

/-- The MMP has read the counters of completed shootdowns, at DEVICE scope, and is done with them. -/
def dropShoots (sds : List Nat) (s : State) : State :=
  let s := (s.shoots.filter (fun e => sds.contains e.1)).foldl (fun s e => acquireCounter agentControl (.die 0) 4 e.2.ctr (rdNat s e.2.ctr 8) s) s
  { s with shoots := s.shoots.filter (fun e => !sds.contains e.1) }

/-- SHOOTDOWN_AGENT_ADD (R298): the agent's accesses are performed, and it adds 1 to the counter, a release of them at DEVICE scope
(R57). A shootdown that no command waits for ends with its last add. -/
def execShootdownAgentAdd (sd agent : Nat) (s : State) : Out :=
  match amGet sd s.shoots with
  | none => .next s
  | some d =>
    if !d.reached.contains agent || d.added.contains agent || shootWaits s d agent then .next s
    else
      let (_, s) := counterAdd (agentShoot agent :: shootAgents s d agent) (agentShoot agent) (shootPos agent) 4 d.ctr 1 s
      let s : State := { s with shoots := amPut sd { d with added := agent :: d.added } s.shoots }
      .next (if d.frames.isEmpty || !d.complete s then s else releaseFrames d.ctx d.frames (dropShoots [sd] s))

/-- A command of the MMP whose shootdowns are complete gives back its frames and ends. -/
def shootEnds (c : Command) (p : Pending) (s : State) : State :=
  match p with
  | .shoot sds ctx frames => if shotDown s sds then completeCommand c 0 none (releaseFrames ctx frames (dropShoots sds s)) else s
  | _ => s

/-! ### Ranges and leaves -/

/-- A mapping command's range: whole 64 KiB pages of canonical global addresses. -/
def rangeOk (va n : Nat) : Bool :=
  va % 2 ^ 16 == 0 && n % 2 ^ 16 == 0 && n != 0 && (checkSpan va n).isNone && aperture va == 0 && aperture (va + n - 1) == 0

/-- The template is a leaf that R282 allows at L0. -/
def templateOk (e : DWord) : Bool := entryType e != 1 && !malformed 0 e

/-- The frames that a page of a size takes from frame f on. -/
def pageFrames (large : Bool) (f : Nat) : List Nat := upFrom f (if large then 32 else 1)

/-- The die that a frame is homed at; host memory is homed at die 0 (R26). -/
def frameDie (f : Nat) : Nat := if 2 ^ 24 ≤ f then 0 else f / 2 ^ 23

/-- A frame may back a PAGE entry of a context (R283, R400): of the die that HOME names, named by no other context's entries and, in
device memory, in no other use, in the secure range exactly for a secure page, which no frame of host memory backs. -/
def frameOk (s : State) (ctx : Nat) (e : DWord) (large : Bool) (va f : Nat) : Bool :=
  let mine := match amGet ctx s.ctxs with | some c => c.owned | none => []
  (!large || f % 32 == 0) && frameDie f == homeDie e large va && (pageFrames large f).all (fun g =>
    (mine.contains g || !(if 2 ^ 24 ≤ g then s.ctxs.any (fun c => c.2.owned.contains g) else (usedFrames s).contains g)) &&
    (if 2 ^ 24 ≤ g then !entryBit e 6 else secureFrame g == entryBit e 6))

/-- 32 free frames of an area of a die, aligned to 2 MiB, from group k on; an area of m groups begins at group b, counted round the
die. -/
def probeLarge (used : List Nat) (die b m k : Nat) : Nat → Option Nat
  | 0 => none
  | n + 1 =>
    let f := die * 2 ^ 23 + (b + k % m) % 2 ^ 18 * 32
    if (pageFrames true f).any used.contains then probeLarge used die b m (k + 1) n else some f

/-- A free frame of a size on a die, in its secure range or outside it; which one is open. -/
def freeOf (die : Nat) (large secure : Bool) (s : State) : Option (Nat × State) :=
  if !large then freeFrame die secure s
  else
    let (a, n) := frameArea die secure
    let b := (a + 31) / 32
    let m := (a + n) / 32 - b
    let (k, s) := draw s
    if m = 0 then none else (probeLarge (usedFrames s) die b m k ((usedFrames s).length + 1)).map (fun f => (f, s))

/-- A leaf of a template with its ADDR. -/
def withAddr (e : DWord) (f : Nat) : DWord := dw (bitsOf e 15 0 + f % 2 ^ 32 * 2 ^ 16)

/-- Why a page is not mapped: the command's status. -/
abbrev Mapped := Except Nat State

/-- One page of MEM.MAP: `k` is its number in the range, P3 the backing. -/
def mapPage (ctx : Nat) (e : DWord) (p3 : Nat) (large : Bool) (va k : Nat) (s : State) : Mapped :=
  let die := homeDie e large va
  let put (e : DWord) (s : State) : Mapped := match putLeaf ctx va large e s with
    | some s => .ok (releasePage ctx va 0 s)
    | none => .error 9
  let owns (fs : List Nat) (s : State) : State := modCtx ctx (fun c => { c with owned := fs ++ c.owned }) s
  if entryType e = 2 then
    -- a resident tile gets its log area at once (R302, R303)
    let put (e : DWord) (s : State) : Mapped := match put e s with
      | .ok s => if !entryBit e 10 then .ok s else (match tileFor ctx va e s with | some (_, s) => .ok s | none => .error 9)
      | x => x
    if p3 = 0 then match freeOf die large (entryBit e 6) s with
      | none => .error 9
      | some (f, s) => match withPacks ctx e (pageFrames large f) ((pageFrames large f).foldl (fun s g => zeroFrame g s) (owns (pageFrames large f) s)) with
        | some s => put (withAddr e f) s
        | none => .error 9
    else
      let f := p3 / 2 ^ 16 + k
      if frameOk s ctx e large va f then match withPacks ctx e (pageFrames large f) (owns (pageFrames large f) s) with
        | some s => put (withAddr e f) s
        | none => .error 9
      else .error 8
  else if entryType e ≠ 0 ∧ entryBit e 10 then
    match freeFrame die false s with
    | none => .error 9
    -- the log area starts with the tile's header and no entry (R303)
    | some (f, s) => match put (withAddr e f) (zeroFrame f (modCtx ctx (fun c => { c with tables := f :: c.tables }) s)) with
      | .ok s => .ok (tileOf ctx va (withAddr e f) s).2
      | x => x
  else put (if entryType e = 4 then withAddr e (p3 / 2 ^ 16 + k) else withAddr e 0) s

/-- The pages of MEM.MAP in ascending order; a whole free 2 MiB part may become a large page, by the MMP's choice. -/
def mapPages (ctx : Nat) (e : DWord) (p3 : Nat) : Nat → Nat → Nat → Nat → State → Mapped
  | 0, _, _, _, s => .ok s
  | _, _, _, 0, s => .ok s
  | fuel + 1, va, k, n, s =>
    let free := match amGet ctx s.ctxs with
      | none => false
      | some c => match leafAddr s c.root va with
        | some (a, large) => large && entryType (dw (rdNat s a 8)) == 0
        | none => true
    let can := free && va % 2 ^ 21 == 0 && decide (32 ≤ n) && (entryType e == 2 || entryType e == 4) && !entryBit e 10 &&
      (p3 == 0 || entryType e == 4 || (p3 / 2 ^ 16 + k) % 32 == 0)
    let (c, s) := choose (if can then 2 else 1) s
    match mapPage ctx e p3 (c == 1) va k s with
    | .error x => .error x
    | .ok s => mapPages ctx e p3 fuel (va + (if c = 1 then 2 ^ 21 else 2 ^ 16)) (k + (if c = 1 then 32 else 1)) (n - (if c = 1 then 32 else 1)) s

/-- The addresses of the 64 KiB pages of a range. -/
def pagesOf (va n : Nat) : List Nat := (upFrom 0 (n / 2 ^ 16)).map (fun k => va + 2 ^ 16 * k)

/-- MEM.MAP (R299, R366): a page that is PAGE, or a tile, is not mapped anew. -/
def execMemMap (c : Command) (s : State) : Out :=
  atOnce c (fun q s =>
    let va := c.p0.toNat
    let n := c.p1.toNat
    if !templateOk c.p2 then badCommand c 8 s
    else if !rangeOk va n || c.p3.toNat % 2 ^ 16 != 0 || decide (2 ^ 48 ≤ c.p3.toNat) then badCommand c 1 s
    else if (pagesOf va n).any (fun a => let (e, _) := leafOf s q.ctx a; entryType e == 2 || (entryType e != 0 && entryBit e 10)) then
      badCommand c 1 s
    else match mapPages q.ctx c.p2 c.p3.toNat (n / 2 ^ 16) va 0 (n / 2 ^ 16) s with
      | .ok s => goodCommand c s
      | .error st => badCommand c st s) s

/-- The large leaves that a range covers in part: the addresses of their 2 MiB pages. -/
def partLarge (s : State) (ctx va n : Nat) : List Nat :=
  (((pagesOf va n).filter (fun a =>
      let (e, large) := leafOf s ctx a
      large && entryType e != 0 && (decide (a / 2 ^ 21 * 2 ^ 21 < va) || decide (va + n < a / 2 ^ 21 * 2 ^ 21 + 2 ^ 21)))).map
    (fun a => a / 2 ^ 21 * 2 ^ 21)).eraseDups

/-- A large page's entry is marked SPLITTING, so that TLBs stop storing it (R301, step 1). -/
def markSplitting (ctx va : Nat) (s : State) : State :=
  match (amGet ctx s.ctxs).bind (fun c => leafAddr s c.root va) with
  | some (a, true) =>
    let e := dw (rdNat s a 8)
    if entryType e = 2 then setEntry a (e ||| dw (2 ^ 12)) s else s
  | _ => s

/-- The mark taken back, where no memory is left for the table. -/
def unmarkSplitting (ctx va : Nat) (s : State) : State :=
  match (amGet ctx s.ctxs).bind (fun c => leafAddr s c.root va) with
  | some (a, true) =>
    let e := dw (rdNat s a 8)
    if entryType e = 2 then setEntry a (e &&& ~~~dw (2 ^ 12)) s else s
  | _ => s

/-- A large page split (R301), steps 2 and 3: the table of its 64 KiB pages stands in place of its entry. -/
def splitPage (ctx va : Nat) (s : State) : Option State :=
  match amGet ctx s.ctxs with
  | none => none
  | some c => match leafAddr s c.root va with
    | some (a, true) => (childTable ctx true a s).map Prod.snd
    | _ => some s

/-- Several pages split, each with its shootdown (step 4). -/
def splitAll (ctx : Nat) : List Nat → State → Option (List Nat × State)
  | [], s => some ([], s)
  | a :: as, s => match splitPage ctx a s with
    | none => none
    | some s =>
      let (sd, s) := startShoot ctx (a / 2 ^ 16) (a / 2 ^ 16 + 31) [] s
      (splitAll ctx as s).map (fun r => (sd :: r.1, r.2))

/-- A tile and its log leave the engine: the weight its entries carry returns, and what waits for it walks again. The frame of its log
area is free once its page has been shot down (R299). -/
def dropTile (k : Nat) (s : State) : State :=
  match amGet k s.tiles with
  | none => s
  | some t =>
    let s := giveBackAll (t.entries.flatMap (fun e => e.weight) ++ t.held.flatMap (fun h => h.weight)) s
    let s := settleTiles (wakeTile k t 0 s)
    { s with tiles := amDel k s.tiles }

/-- The leaves of a range changed by f, at each of them once; the frames that a PAGE entry no longer names are returned. -/
def changeLeaves (ctx va n : Nat) (f : DWord → DWord) (s : State) : List Nat × State :=
  (pagesOf va n).foldl (fun (r : List Nat × State) a =>
    match (amGet ctx r.2.ctxs).bind (fun c => leafAddr r.2 c.root a) with
    | none => r
    | some (at_, large) =>
      let e := dw (rdNat r.2 at_ 8)
      if entryType e = 0 ∨ (large = true ∧ a % 2 ^ 21 ≠ 0) then r
      else
        let e' := f e
        let gone := if entryType e = 2 ∧ entryType e' ≠ 2 then pageFrames large (bitsOf e 47 16) else []
        (r.1 ++ gone, setEntry at_ e' r.2)) ([], s)

/-- The frames of a range's pages, and of its arriving tiles, that are not of the world their pages are to have, each first one of its
page with the leaf and its size (R400). -/
def wrongWorld (s : State) (ctx va n : Nat) (secure : Bool) : List (Nat × DWord × Bool × Nat) :=
  let wrong (f : Nat) : Bool := if 2 ^ 24 ≤ f then secure else secureFrame f != secure
  (pagesOf va n).filterMap (fun a =>
    let (e, large) := leafOf s ctx a
    if entryType e = 2 then (if (large && a % 2 ^ 21 != 0) || !wrong (bitsOf e 47 16) then none else some (a, e, large, bitsOf e 47 16))
    else match (tileFind s ctx a).bind (fun t => t.2.frame) with
      | some f => if wrong f then some (a, e, false, f) else none
      | none => none)

/-- Those pages move to frames of the right world: the frames they leave. None where there is no memory for them. -/
def moveWorld (ctx : Nat) (secure : Bool) : List (Nat × DWord × Bool × Nat) → State → Option (List Nat × State)
  | [], s => some ([], s)
  | (a, e, large, f) :: ps, s =>
    let e' := if secure then e ||| 0x40 else e &&& ~~~(0x40 : DWord)
    match freeOf (homeDie e large a) large secure s with
    | none => none
    | some (g, s) =>
      let s := modCtx ctx (fun c => { c with owned := pageFrames large g ++ c.owned }) s
      match withPacks ctx e' (pageFrames large g) s with
      | none => none
      | some s =>
        let s := ((pageFrames large f).zip (pageFrames large g)).foldl (fun s x => moveFrame x.1 x.2 s) s
        let s := if entryType e ≠ 2 then s else match (amGet ctx s.ctxs).bind (fun c => leafAddr s c.root a) with
          | some (at_, _) => setEntry at_ (withAddr e g) s
          | none => s
        (moveWorld ctx secure ps s).map (fun r => (pageFrames large f ++ r.1, r.2))

/-- An unmapping or a protection whose splits are complete: the entries are written, then shot down. A page whose world a protection
changes moves to a frame of that world (R400); with no memory for it the command ends NOMEM, without effect. -/
def changeRange (c : Command) (ctx : Nat) (s : State) : State :=
  let va := c.p0.toNat
  let n := c.p1.toNat
  let prot (e : DWord) : DWord := dw (bitsOf e 2 0 + bitsOf c.p2 6 3 * 8 + bitsOf e 63 7 * 2 ^ 7)
  let unmap := c.op = 0x11
  let tiles := if unmap then (s.tiles.filter (fun t => decide (t.2.ctx = ctx) && decide (va ≤ t.2.va.toNat) && decide (t.2.va.toNat < va + n))).map Prod.fst else []
  match if unmap then some ([], s) else moveWorld ctx (entryBit c.p2 6) (wrongWorld s ctx va n (entryBit c.p2 6)) s with
  | none => completeCommand c 9 none s
  | some (left, s) =>
    let s := tiles.foldl (fun s k => dropTile k s) s
    let (frames, s) := changeLeaves ctx va n (if unmap then fun _ => 0 else prot) s
    let (sd, s) := startShoot ctx (va / 2 ^ 16) ((va + n - 1) / 2 ^ 16) [] s
    runCommand c (.shoot [sd] ctx (left ++ frames ++ tiles.map (fun k => k / 2 ^ 16))) s

/-- MEM.UNMAP and MEM.PROTECT (R299, R301). -/
def changeMapping (c : Command) (s : State) : Out :=
  command c false (fun q s =>
    if c.op = 0x12 ∧ templateOk c.p2 = false then badCommand c 8 s
    else if !rangeOk c.p0.toNat c.p1.toNat then badCommand c 1 s
    else match partLarge s q.ctx c.p0.toNat c.p1.toNat with
      | [] => changeRange c q.ctx (takeEntry c.queue s)
      | ps => runCommand c (.splitting ps) (takeEntry c.queue (ps.foldl (fun s a => markSplitting q.ctx a s) s)))
    (fun p s => match p with
      | .splitting ps => (match amGet c.queue s.queues with
        | none => s
        | some q => match splitAll q.ctx ps s with
          | none => completeCommand c 9 none (ps.foldl (fun s a => unmarkSplitting q.ctx a s) s)
          | some (sds, s) => runCommand c (.split sds) s)
      | .split sds => if shotDown s sds then
          (match amGet c.queue s.queues with | some q => changeRange c q.ctx (dropShoots sds s) | none => s) else s
      | p => shootEnds c p s) s

/-- MEM.UNMAP (R299): the pages become INVALID; their frames return once shot down (R290). -/
def execMemUnmap (c : Command) (s : State) : Out := changeMapping { c with op := 0x11 } s

/-- MEM.PROTECT (R299): R, W, X and SECURE of every leaf of the range become the template's. -/
def execMemProtect (c : Command) (s : State) : Out := changeMapping { c with op := 0x12 } s

/-- TILE.EVICT (R316): a pinned tile is not evicted, resident or not. The leaf becomes HOST-BACKED with its log area; after a
shootdown the frame is the host's. -/
def execTileEvict (c : Command) (s : State) : Out :=
  command c false (fun q s =>
    let va := c.p0.toNat
    if (checkSpan va 1).isSome || aperture va != 0 then badCommand c 1 s
    else
      let (e, _) := leafOf s q.ctx va
      if entryType e = 0 ∨ entryBit e 10 = false then badCommand c 1 s
      else if (match tileFind s q.ctx va with | some (_, t) => t.pins != 0 | none => false) then badCommand c 4 s
      else if entryType e ≠ 2 then goodCommand c s
      else match tileFor q.ctx va e s with
        | none => badCommand c 9 s
        | some (k, s) => match amGet k s.tiles with
          | none => s
          | some t =>
            let leaf := dw (bitsOf e 15 3 * 8 + 4 + k)
            match putLeaf q.ctx va false leaf s with
            | none => badCommand c 9 s
            | some s =>
              let t' := { t with state := .absent, leaf := leaf, entries := [], frame := none, failed := none }
              let (sd, s) := startShoot q.ctx (va / 2 ^ 16) (va / 2 ^ 16) [] { s with tiles := amPut k t' s.tiles }
              runCommand c (.shoot [sd] q.ctx [bitsOf e 47 16]) (takeEntry c.queue s))
    (shootEnds c) s

/-! ### FAULT.REPLY (R293) -/

/-- Bytes copied from one range to another, their past forgotten. -/
def copyRange (src dst n : Nat) (s : State) : State :=
  let cells := (s.mem.filter (fun c => decide (src ≤ c.1) && decide (c.1 < src + n))).map (fun c => (c.1 - src + dst, c.2))
  cells.foldl (fun s c => { s with mem := smPut 0 c.1 c.2 s.mem }) (zeroRange dst n s)

/-- FAIL: the status that every waiter has (R293). -/
def failStatus (v : Nat) : Nat := if v = 1 ∨ v = 5 then v else 4

/-- FAIL: every waiter has the status. -/
def replyFails (n : Nat) (st : Nat) (s : State) : State :=
  { s with merge := amMod n (fun e => { e with released := some st }) s.merge }

/-- MAP: the entry is checked, its frame filled, and written (R293); for a tile, its frame is there for its arrival, at whose end the
merge entry is released (R310). A page that is PAGE already stays, with the result ALREADY (R293, R296). -/
def replyMaps (n : Nat) (m : MergeEntry) (e : DWord) (fill : Nat) (s : State) : State × Nat × Option Nat :=
  let addr := m.vpn * (if m.large then 2 ^ 21 else 2 ^ 16)
  -- the page mapped: for an INVALID 2 MiB record, a 64 KiB entry maps the page that SUB names
  let small := !m.large || (entryType m.leaf == 0 && malformed 1 e)
  let small := small || (m.large && entryType m.leaf == 0 && bitsOf e 20 16 != 0)
  let small := small || (m.large && entryType m.leaf == 0 && entryBit e 10)
  let va := if m.large && small then addr + 2 ^ 16 * m.sub else addr
  let f := bitsOf e 47 16
  let tile := m.waiters.findSome? (fun w => match w with | .tile k => some k | _ => none)
  let (now, _) := leafOf s m.ctx va
  -- a tile keeps its leaf's attributes (R310): its frame is checked for them
  let leaf := if tile.isSome then asPage now f else e
  if entryType e ≠ 2 ∨ malformed (if small then 0 else 1) e = true ∨ frameOk s m.ctx leaf (!small) va f = false then (replyFails n 6 s, 8, none)
  else if entryType now = 2 then ({ s with merge := amMod n (fun x => { x with released := some 0 }) s.merge }, 0, some 2)
  else
    let size := if small then 2 ^ 16 else 2 ^ 21
    let s := if fill = 0 then s else copyRange fill (f * 2 ^ 16) size s
    let s := modCtx m.ctx (fun c => { c with owned := pageFrames (!small) f ++ c.owned }) s
    match withPacks m.ctx leaf (pageFrames (!small) f) s with
    | none => (replyFails n 1 s, 9, none)
    | some s => match tile with
    | some k => ({ s with
        tiles := amMod k (fun t => { t with frame := some f }) s.tiles
        merge := amMod n (fun x => { x with recorded := false, waiters := x.waiters.filter (fun w => w != .tile k) }) s.merge }, 0, none)
    | none => match (putLeaf m.ctx va (!small) e s).bind (fun s => if small && entryBit e 10 then (tileFor m.ctx va e s).map Prod.snd else some s) with
      | none => (replyFails n 1 s, 9, none)
      | some s => (releasePage m.ctx va 0 { s with merge := amMod n (fun x => { x with released := some 0 }) s.merge }, 0, none)

/-- FAULT.REPLY (R293): P1 is a MAP entry or a FAIL status; what tells one from the other is open. 1, 4 and 5 are FAIL statuses and
no PAGE entries; a value with TYPE PAGE that no status of R294 reaches is an entry; any other is either, by free choice
(notes/assumptions/34.md). The command ends MALFORMED with a malformed entry, NOMEM without memory for its tables (R368). A TAG that names no outstanding record is ignored; HEAD is read again (R292). -/
def execFaultReply (c : Command) (s : State) : Out :=
  atOnce c (fun q s =>
    let tag := c.p0.toNat
    let n := tag % 2 ^ 11 + tag / 2 ^ 11 * 2048
    let v := c.p1.toNat
    let (s, st, result) : State × Nat × Option Nat := match amGet n s.merge with
      | none => (s, 0, none)
      | some m =>
        if m.ctx ≠ q.ctx ∨ m.recorded = false ∨ m.released.isSome = true ∨ 2 ^ 12 ≤ tag then (s, 0, none)
        else
          let fails := v == 1 || v == 4 || v == 5
          let maps := entryType c.p1 == 2 && decide (256 ≤ v)
          -- no command reaches a page table (R279): a fill source there is out of its range
          if c.p2 ≠ 0 ∧ meetsTables s c.p2.toNat (2 ^ 21) = true then (s, 1, none) else
          let (k, s) := choose (if fails || maps then 1 else 2) s
          if maps || (!fails && k == 1) then replyMaps n m c.p1 c.p2.toNat s else (replyFails n (failStatus v) s, 0, none)
    completeCommand c st result (takeEntry c.queue (readHead q.ctx s))) s

/-! ### Contexts (R366, R369) -/

/-- n of a list's elements, by free choice. -/
def pickN {α : Type} : Nat → List α → State → List α × State
  | 0, _, s => ([], s)
  | n + 1, l, s =>
    let (k, s) := choose l.length s
    match l.drop k with
    | [] => ([], s)
    | a :: after =>
      let (r, s) := pickN n (l.take k ++ after) s
      (a :: r, s)

/-- The clusters of a die that no context holds; a saved context's have been passed on (R134). -/
def freeClusters (s : State) (die : Nat) : List Nat :=
  (upFrom (48 * die) 48).filter (fun c => !s.ctxs.any (fun x => x.2.pre != 3 && x.2.clusters.contains c))

/-- Zeroed frames put into a context's pool (R290). -/
def fillPool (ctx die : Nat) : Nat → State → Option State
  | 0, s => some s
  | n + 1, s => match freeFrame die false s with
    | none => none
    | some (f, s) => fillPool ctx die n (modCtx ctx (fun c => c.withPool die (c.pool die ++ [f]) false) (zeroFrame f s))

/-- The fields of a context descriptor lie in their ranges. -/
def contextOk (b : List Byte) : Bool :=
  decide (field b 0 1 ≤ 48) && decide (field b 1 1 ≤ 48) && decide (field b 2 1 < 8) && decide (field b 3 1 ≤ 3) &&
  field b 8 8 % 2 ^ 16 == 0 && isPow2 (field b 32 4) 1 (2 ^ 31) && field b 48 8 % 16 == 0 && field b 58 2 == 0 &&
  decide (field b 24 8 < 2 ^ 48) && decide (field b 40 8 < 2 ^ 40) && decide (field b 48 8 < 2 ^ 48) &&
  (field b 16 8 == 0 || ((checkSpan (field b 8 8) (field b 16 8)).isNone && aperture (field b 8 8) == 0))

/-- CTX.CREATE (R366, R369): P1 names the job's completion record, 16-byte aligned (R19), 0 for none. A malformed descriptor is MALFORMED (R368), a POOLCAP
below POOL BADOP, and so are records that would reach a page table (R279). -/
def execCtxCreate (c : Command) (s : State) : Out :=
  command c true (fun _ s =>
    let b := rdBytes s c.p0.toNat 64
    let n := amFresh s.ctxs 0
    let reach := meetsTables s (field b 40 8) 64 || meetsTables s (field b 48 8) 16 || meetsTables s (field b 24 8) (32 * field b 32 4)
    if 2 ^ 48 < c.p0.toNat + 64 then badCommand c 1 s
    else if !contextOk b then badCommand c 8 s
    else if (field b 60 4 ≠ 0 ∧ field b 60 4 < field b 4 4) ∨ reach = true ∨ c.p1.toNat % 16 ≠ 0 then badCommand c 1 s
    else if 4096 ≤ n then badCommand c 12 s
    else if (freeClusters s 0).length < field b 0 1 ∨ (freeClusters s 1).length < field b 1 1 then badCommand c 2 s
    else
      let (c0, s1) := pickN (field b 0 1) (freeClusters s 0) s
      let (c1, s1) := pickN (field b 1 1) (freeClusters s 1) s1
      let fl := field b 2 1
      let x : Context :=
        { root := 0, secure := decide (fl / 4 % 2 = 1), debuggable := decide (fl / 2 % 2 = 1), pool0 := [], pool1 := [], refill0 := false,
          refill1 := false, poolMapped := [], owned := [], tables := [], packs := [], ctrPage := 0, poolSize := field b 4 4, poolCap := field b 60 4,
          fring := field b 24 8, frctl := field b 48 8, frlen := field b 32 4, posted := 0, head := 0, heldRecords := [],
          errRec := field b 40 8, frvec := field b 56 2, preemptible := decide (fl % 2 = 1), prio := field b 3 1,
          clusters := c0 ++ c1, pre := 0, preTick := 0, stkBase := dw (field b 8 8), stkSize := field b 16 8, moved := [], stkUsed := [],
          handles := [], graphs := [], crec := c.p1, dying := false, cancelled := false }
      let s1 : State := { s1 with
        ctxs := amPut n x s1.ctxs
        gov := s1.gov.map (fun g => if (c0 ++ c1).contains g.1 then (g.1, { g.2 with stalls := 0 }) else g)
        -- a context that is not debuggable disarms TSTOP (R390)
        tstop := if fl / 2 % 2 = 1 then s1.tstop else dw (bitsOf s1.tstop 62 0) }
      let built := if 2 ^ 23 < field b 4 4 then none else match newTable n s1 with
        | none => none
        | some (root, s1) => match newTable n s1 with
          | none => none
          | some (page, s1) =>
            (fillPool n 0 (field b 4 4) (modCtx n (fun c => { c with root := root, ctrPage := page / 2 ^ 16 }) s1)).bind (fillPool n 1 (field b 4 4))
      match built with
      | none => badCommand c 9 s
      | some s1 => completeCommand c 0 (some n) (takeEntry c.queue (pokeBytes x.errRec (natBytes 64 0) s1)))
    (fun _ s => s) s

/-- A context's work is over: its units, operations, launches, commands, messages and shootdowns. -/
def contextIdle (s : State) (ctx : Nat) : Bool :=
  !s.units.any (fun u => decide (u.2.ctx = ctx)) && !s.ops.any (fun o => decide (o.2.ctx = ctx)) &&
  !s.launches.any (fun l => decide (l.2.ctx = ctx)) && !s.shoots.any (fun d => decide (d.2.ctx = ctx)) &&
  !s.queues.any (fun q => decide (q.2.ctx = ctx) && !q.2.running.isEmpty) &&
  !s.crls.any (fun c => decide (c.2.owner = ctx) && c.2.emit.isSome) && !s.outgoing.any (fun o => decide (ringCtx s o.ring = ctx))

/-- The context is removed: its queues, Carillon contexts, pins and frames (R366), and its translations. -/
def removeContext (ctx : Nat) (s : State) : State :=
  { s with
    ctxs := amDel ctx s.ctxs
    queues := s.queues.filter (fun q => q.2.ctx != ctx)
    merge := s.merge.filter (fun e => e.2.ctx != ctx)
    slices := s.slices.filter (fun e => e.2 != ctx)
    walks := s.walks.map (fun e => (e.1, e.2.filter (fun t => t.ctx != ctx)))
    tlb := s.tlb.map (fun e => (e.1, e.2.filter (fun t => t.ctx != ctx))) }

/-- CTX.DESTROY goes on: with the work over, tiles and Carillon contexts go; with the phases ended, the context. -/
def destroyEnds (c : Command) (ctx : Nat) (s : State) : State :=
  if !contextIdle s ctx then s
  else
    let s := (s.tiles.filter (fun t => decide (t.2.ctx = ctx))).foldl (fun s t => dropTile t.1 s) s
    let s := (s.crls.filter (fun x => decide (x.2.owner = ctx))).foldl (fun s x => freeCrl x.1 s) s
    if s.phases.any (fun p => decide (p.2.ctx = ctx)) then s
    else completeCommand c 0 none (removeContext ctx s)

/-- CTX.DESTROY (R366): cancels the job, and removes the context once its work is over. -/
def execCtxDestroy (c : Command) (s : State) : Out :=
  command c true (fun _ s =>
    if 4095 < c.p0.toNat then badCommand c 1 s
    else match amGet c.p0.toNat s.ctxs with
      | none => badCommand c 6 s
      | some x =>
        if x.dying then badCommand c 6 s
        else 
          -- its queues close the phases still open on them: no more work can belong to them (R375)
          let s := cancelJob c.p0.toNat s
          let s : State := { s with phases := s.phases.map (fun p => if p.2.ctx = c.p0.toNat then (p.1, { p.2 with closed := true }) else p) }
          runCommand c (.context c.p0.toNat) (takeEntry c.queue (modCtx c.p0.toNat (fun x => { x with dying := true }) s)))
    (fun p s => match p with | .context ctx => destroyEnds c ctx s | _ => s) s

/-- QUEUE.CREATE (R367): P0 names the queue descriptor. A malformed one is MALFORMED (R368); a number in use, a priority above the
context's, and a ring or record that is not memory or would reach a page table (R279) are BADOP. -/
def execQueueCreate (c : Command) (s : State) : Out :=
  command c true (fun _ s =>
    let b := rdBytes s c.p0.toNat 64
    let ctx := field b 0 2
    let k := 64 * ctx + field b 2 1
    if 2 ^ 48 < c.p0.toNat + 64 ∨ 4095 < ctx then badCommand c 1 s
    else match amGet ctx s.ctxs with
      | none => badCommand c 6 s
      | some x =>
        if x.dying then badCommand c 6 s
        else if decide (63 < field b 2 1) || decide (3 < field b 3 1) || !isPow2 (field b 4 4) 2 65536 ||
            field b 8 8 % 64 != 0 || field b 16 8 % 64 != 0 || field b 24 40 != 0 then badCommand c 8 s
        else if !queueMemory (field b 8 8) (field b 4 4) (field b 16 8) || (amGet k s.queues).isSome || decide (x.prio < field b 3 1) || meetsTables s (field b 16 8) 64 ||
            meetsTables s (field b 8 8) (64 * field b 4 4) then badCommand c 1 s
        else goodCommand c (clearStatus (field b 16 8)
          { s with queues := amPut k (freshQueue (dw (field b 8 8)) (field b 4 4) (dw (field b 16 8)) (field b 3 1) ctx) s.queues }))
    (fun _ s => s) s

/-- QUEUE.DESTROY (R367): the queue is removed once every command of it has completed. -/
def execQueueDestroy (c : Command) (s : State) : Out :=
  command c true (fun _ s =>
    let k := 64 * c.p0.toNat + c.p1.toNat
    if 4095 < c.p0.toNat ∨ 63 < c.p1.toNat then badCommand c 1 s
    else match amGet c.p0.toNat s.ctxs, amGet k s.queues with
      | none, _ => badCommand c 6 s
      | some x, some _ => if x.dying then badCommand c 6 s else runCommand c (.queue k) (takeEntry c.queue s)
      | some x, none => badCommand c (if x.dying then 6 else 1) s)
    (fun p s => match p with
      | .queue k => (match amGet k s.queues with
        | some q => if q.running.isEmpty && decide (q.tail ≤ q.head) then completeCommand c 0 none { s with
            queues := amDel k s.queues
            -- a phase still open on it takes no more work
            phases := s.phases.map (fun p => if q.phase = some p.1 then (p.1, { p.2 with closed := true }) else p) } else s
        | none => completeCommand c 0 none s)
      | _ => s) s

end Sys2Proof.Machine
end

