-- ==== Sys2Proof/Machine/Preempt.lean ====
section
/-! DEFINITION. Pre-emption of a partition: halt, save, swap and restore (R59, R131 to R134, R248, R278, R288). -/

namespace Sys2Proof.Machine

/-- The context that a team's unit runs in. -/
def ctxOfTeam (s : State) (team : Nat) : Option Nat :=
  match amGet team s.teams with
  | none => none
  | some t => (amGet t.unit s.units).map (fun u => u.ctx)

/-- Where a context stands in its pre-emption: 0 running (R131 to R134). -/
def preOf (s : State) (ctx : Nat) : Nat := match amGet ctx s.ctxs with | some c => c.pre | none => 0

/-- A fragment of the context issues nothing: the halt reaches a fragment at its next pass boundary (R131). -/
def haltedFrag (s : State) (f : Frag) : Bool :=
  match ctxOfTeam s f.team with
  | none => true
  | some ctx => preOf s ctx != 0

/-- A wait saved as pending is evaluated again at restore (R132): until then it does not return. -/
def savedCtx (s : State) (ctx : Nat) : Bool := decide (2 ≤ preOf s ctx)

/-- A CTR.ADD that waits for what a halted team cannot bring about: an earlier wait, or a log that it waits for itself at SYSTEM scope
or that an earlier add at that scope waits for. It is saved as pending. -/
def addWaits (s : State) (o : Op) (scope : Nat) : Bool :=
  s.ops.any (fun x => decide (x.2.team = o.team) && decide (x.2.ord < o.ord) &&
    (ctrWaits s x || match x.2.body with
      | .waitFull ls _ => !ls.isEmpty
      | .behind _ _ => true
      | .ctrAdd _ _ _ 5 _ _ _ _ => s.tiles.any (fun t => t.2.pendingOf o.team x.2.ord)
      | _ => false)) ||
  (scope == 5 && s.tiles.any (fun t => t.2.pendingOf o.team o.ord))

/-- An operation that a core waits for before it saves (R132). -/
def OpBody.drains (s : State) (o : Op) : Bool :=
  match o.body with
  | .waitFull _ es => !es.isEmpty
  | .results _ => true
  | .noise _ _ => true
  | .taking => true
  | .adds _ => true
  | .append _ _ => appendAgent s o == o.team
  | .ctrAdd _ _ _ scope _ _ _ _ => !addWaits s o scope
  | .ctrLoad .. => true
  | .drainAdd _ => true
  | .matrix _ => true
  | .mfen => true
  | .commit _ _ => true
  | .mwait _ => true
  | _ => false

/-- Every core of the context meets R132: its results are written, its matrix operations complete, and its writes
performed at DEVICE scope (R59). -/
def preQuiet (s : State) (ctx : Nat) : Bool :=
  !s.ops.any (fun o => decide (o.2.ctx = ctx) && OpBody.drains s o.2) &&
  !s.tiles.any (fun t => t.2.held.any (fun h => ctxOfTeam s h.writer == some ctx))

/-- The live fragments of a context changed, and those that its teams' trap frames hold. -/
def modCtxFrags (ctx : Nat) (g : Frag → Frag) (s : State) : State :=
  { s with
    frags := s.frags.map (fun e => if ctxOfTeam s e.2.team = some ctx then (e.1, g e.2) else e)
    teams := s.teams.map (fun e => if ctxOfTeam s e.1 = some ctx then
      (e.1, { e.2 with frame := e.2.frame.map (fun r => { r with saved := g r.saved }) }) else e) }

/-- A fragment stops waiting in the merge tables (R288); one whose FIRST-TOUCH trap is raised, pending or in its handler, keeps its part
in that page's entry (R289). -/
def stopWaiting (i : Nat) (s : State) : State :=
  { s with merge := s.merge.map (fun e => if e.2.toucher = some i then e else
      (e.1, { e.2 with waiters := e.2.waiters.filter (fun x => x != .frag i) })) }

/-- PREEMPT_HALT (R131, R288): a context created pre-emptible is halted; its fragments waiting in the merge tables leave them,
saved as waiting. -/
def execPreemptHalt (ctx : Nat) (s : State) : Out :=
  match amGet ctx s.ctxs with
  | none => .next s
  | some c =>
    if !c.preemptible || c.pre != 0 || c.dying then .next s
    else
      let mine := s.frags.filter (fun e => ctxOfTeam s e.2.team == some ctx)
      .next (modCtx ctx (fun c => { c with pre := 1, preTick := s.toll }) (mine.foldl (fun s e => stopWaiting e.1 s) s))

/-- What a context's teams have written is performed at DEVICE scope (R59). -/
def performAll (ctx : Nat) (s : State) : State :=
  (s.teams.filter (fun t => ctxOfTeam s t.1 == some ctx)).foldl (fun s t =>
    release [t.1, agentAdds t.1, agentMatrix t.1]
      { agent := t.1, pos := .core t.2.gcore, scope := 4, full := false, all := true, counter := none } s) s

/-- The shadow slices of a context's cores take its images; the older image of another context moves to memory (R133). -/
def fillSlices (ctx : Nat) (c : Context) (s : State) : State :=
  (c.clusters.flatMap (fun k => upFrom (16 * k) 16)).foldl (fun s g =>
    let s := match amGet g s.slices with
      | some x => if x = ctx then s else modCtx x (fun c => { c with moved := c.moved ++ [g] }) s
      | none => s
    { s with slices := amPut g ctx s.slices }) s

/-- PREEMPT_SAVE (R59, R132, R133): with R132 met on every core, the images are written. What they hold stays in the state, under
its context. -/
def execPreemptSave (ctx : Nat) (s : State) : Out :=
  match amGet ctx s.ctxs with
  | none => .next s
  | some c =>
    if c.pre != 1 || !preQuiet s ctx then .next s
    else .next (fillSlices ctx c (performAll ctx (modCtx ctx (fun c => { c with pre := 2, preTick := s.toll }) s)))

/-- PREEMPT_SWAP_DONE (R134): 4,000 ticks after the save began the cores can pass to another context. -/
def execPreemptSwapDone (ctx : Nat) (s : State) : Out :=
  match amGet ctx s.ctxs with
  | none => .next s
  | some c =>
    if c.pre != 2 || decide (s.toll < c.preTick + 4000) then .next s
    else .next (modCtx ctx (fun c => { c with pre := 3 }) s)

/-- Clusters of a context that another context has now. -/
def clustersHeld (s : State) (ctx : Nat) (c : Context) : Bool :=
  s.ctxs.any (fun x => decide (x.1 ≠ ctx) && x.2.pre != 3 && x.2.clusters.any c.clusters.contains)

/-- RESTORE (R134): the restore of a saved partition begins, once its cores are free. -/
def execRestore (ctx : Nat) (s : State) : Out :=
  match amGet ctx s.ctxs with
  | none => .next s
  | some c =>
    if c.pre != 3 || clustersHeld s ctx c then .next s
    else .next (modCtx ctx (fun c => { c with pre := 4, preTick := s.toll }) s)

/-- The divisions of a context's cores, from the allocations its units hold (R371). -/
def restoreDivisions (ctx : Nat) (c : Context) (s : State) : State :=
  let cores := c.clusters.flatMap (fun k => upFrom (16 * k) 16)
  { s with division := cores.foldl (fun m g =>
      amPut g (max (2 ^ 16) ((scratchHeld s ctx g + 2 ^ 16 - 1) / 2 ^ 16 * 2 ^ 16)) m) s.division }

/-- A fragment as a restore leaves it: its key is the restore tick (R134), and it walks again for a page it waited for
(R288). -/
def restoreFrag (tick : Nat) (f : Frag) : Frag :=
  { f with key := tick, wait := match f.wait with | .merge .. => .run | w => w }

/-- A context's images and tiles are back in its cores (R133). -/
def takeBack (ctx : Nat) (c : Context) (s : State) : State :=
  (c.clusters.flatMap (fun k => upFrom (16 * k) 16)).foldl (fun s g => tilesRoom ctx g s)
    (modCtx ctx (fun c => { c with moved := [] })
      { s with
        slices := s.slices.filter (fun e => e.2 != ctx)
        teams := s.teams.map (fun t => if ctxOfTeam s t.1 = some ctx then (t.1, { t.2 with accOut := false }) else t) })

/-- RESTORE_DONE (R134): 4,000 ticks after the restore began the context's fragments can issue. -/
def execRestoreDone (ctx : Nat) (s : State) : Out :=
  match amGet ctx s.ctxs with
  | none => .next s
  | some c =>
    if c.pre != 4 || decide (s.toll < c.preTick + 4000) then .next s
    else .next (modCtx ctx (fun c => { c with pre := 0 })
      (modCtxFrags ctx (restoreFrag s.toll) (restoreDivisions ctx c (takeBack ctx c s))))

end Sys2Proof.Machine
end

