-- ==== Sys2Proof/Machine/Fabric.lean ====
section
/-! DEFINITION. The fabric ports (R379 to R387), and sequences stolen between dies (R378) and between chips (R388). -/

namespace Sys2Proof.Machine

/-! ### The register page of a port (R380) -/

/-- RLEN. -/
def ringLen (s : State) (ring : Nat) : Nat := bitsOf (ringReg s ring 8) 28 16
/-- This chip's endpoint, as the port's page gives it. -/
def ownEndpoint (s : State) (port : Nat) : Nat := bitsOf (smGet 0 (portPage port + 0x800) s.bar0) 31 0
/-- An entry of the peer table: endpoint and port. -/
def peerEntry (s : State) (port k : Nat) : DWord := smGet 0 (portPage port + 0x1000 + 8 * k) s.bar0

/-- The inbound entry that a source endpoint and ring match: its number, port·1024 + entry, and its receiving context. -/
def inboundEntry (s : State) (port endpoint ring : Nat) : Option (Nat × Nat) :=
  let base := portPage port + 0x4000
  (s.bar0.find? (fun e => decide (base ≤ e.1) && decide (e.1 < base + 0x2000) && bitsOf e.2 31 0 == endpoint &&
    bitsOf e.2 37 32 == ring && bitsOf e.2 54 54 == 1)).map (fun e => (port * 1024 + (e.1 - base) / 8, bitsOf e.2 53 38))

/-! ### Agents -/

/-- A descriptor of a ring, as an agent and as a waiter. -/
def agentDescr (ring i : Nat) : Nat := 2 ^ 80 * (ring + 1) + i
/-- An arriving operation of an inbound entry, as an agent and as a waiter. -/
def agentArrival (src id : Nat) : Nat := 2 ^ 64 * (src + 1) + id
/-- A context's current phase: the one it has opened last (R387). -/
def currentPhase (s : State) (ctx : Nat) : Option (Nat × Phase) := (s.phases.filter (fun p => decide (p.2.ctx = ctx))).getLast?

/-- The phase that descriptor i of a ring holds weight of, or will hold it of once it is taken (R387). -/
def descrPhase (s : State) (ring i : Nat) : Option Nat :=
  match amGet ring s.rings with
  | none => none
  | some r => if i < r.taken then (r.held.find? (fun h => h.1 == i)).map (fun h => h.2.1) else (currentPhase s (ringCtx s ring)).map Prod.fst

/-- The accesses of a ring's port for descriptor i. -/
def ringEng (s : State) (ring i : Nat) : Eng :=
  { who := .agent (agentDescr ring i), agent := agentDescr ring i, ctx := ringCtx s ring, die := ring / 64 / 6, core := none,
    ord := agentDescr ring i, phase := descrPhase s ring i }

/-- An access of an agent; where it would wait for a page whose failure has been delivered, that failure is its result (R287). -/
def tryAccess {α : Type} (who : Nat) (r : EngRes α) (s : State) : EngRes α :=
  match r, amGet who s.agentFaults with
  | .error (_, .wait), some c => .error ({ s with agentFaults := amDel who s.agentFaults }, .fault c 0)
  | r, _ => r

/-! ### Sending (R381 to R383, R386, R387) -/

/-- The fields of a descriptor that R382 restricts are as it has them. -/
def descrOk (b : List Byte) : Bool :=
  let op := field b 0 1
  let aop := field b 1 1
  let flags := field b 2 1
  let pair := flags / 2 % 2 == 1
  let acct := flags / 4 % 2 == 1
  let size := if pair then 8 else 4
  let len := field b 8 4
  decide (1 ≤ op) && decide (op ≤ 3) && (if op = 2 then decide (aop ≤ 7) else aop == 0) && decide (flags < 8) &&
  (!pair || (op == 2 && (aop == 1 || aop == 2 || aop == 5 || aop == 6))) && (!acct || (pair && (aop == 1 || aop == 2))) &&
  decide (3 ≤ field b 3 1) && decide (field b 3 1 ≤ 5) && decide (field b 4 2 ≤ 1023) && field b 6 2 == 0 && field b 12 4 == 0 &&
  field b 48 8 == 0 && field b 56 8 == 0 &&
  (match op with
   | 1 => decide (1 ≤ len) && decide (len ≤ 2 ^ 20)
   | 2 => len % size == 0 && decide (size ≤ len) && decide (len ≤ 2 ^ 20) && field b 16 8 % size == 0 && field b 24 8 % size == 0
   | _ => len == 0 && field b 24 8 % 8 == 0)

/-- A descriptor is taken: the ring counts it, it holds weight of the context's current phase, and an add to the doorbell whose
descriptors are all taken is outstanding no more (R387). -/
def countTaken (ring : Nat) (r : Ring) (s : State) : State :=
  let (held, s) : List (Nat × Nat × Nat) × State := match currentPhase s (ringCtx s ring) with
    | none => ([], s)
    | some (ph, p) => ([(r.taken, ph, borrowed p.root)],
        { s with phases := amPut ph { p with root := p.root - borrowed p.root } s.phases })
  let s : State := { s with rings := amPut ring { taken := r.taken + 1, held := r.held ++ held } s.rings }
  (s.ops.filter (fun o => match o.2.body with
    | .doorbell k n => k == ring && decide (n ≤ r.taken + 1)
    | _ => false)).foldl (fun s o => endOp o.1 s) s

/-- The descriptors of a ring to a peer that have not ended. -/
def openDescrs (s : State) (ring : Nat) (peer : DWord) : List Nat :=
  (s.outgoing.filter (fun o => o.ring == ring && o.peer == peer)).map (fun o => o.i)

/-- The descriptor's message, with the data read for it. -/
def messageOf (s : State) (ring i : Nat) (peer : DWord) (b data : List Byte) : FabricMsg :=
  let flags := field b 2 1
  { port := bitsOf peer 39 32, srcEndpoint := ownEndpoint s (ring / 64), srcRing := ring % 64, id := i,
    aop := BitVec.ofNat 3 (field b 1 1), fence := flags % 2 == 1, pair := flags / 2 % 2 == 1, acct := flags / 4 % 2 == 1,
    scope := BitVec.ofNat 3 (field b 3 1), dst := dw (field b 24 8), amount := dw (field b 16 8), data := data }

/-- The weight that descriptor i of a ring holds returns (R383, R387). -/
def returnHeld (ring i : Nat) (s : State) : State :=
  let mine : List (Nat × Nat × Nat) := match amGet ring s.rings with | some r => r.held.filter (fun h => h.1 == i) | none => []
  mine.foldl (fun s h => giveBack h.2.1 h.2.2 s)
    { s with rings := amMod ring (fun r => { r with held := r.held.filter (fun h => h.1 != i) }) s.rings }

/-- A descriptor enters the port's list: to be sent, or to end with a cause found here. -/
def enterDescr (ring : Nat) (r : Ring) (b data : List Byte) (stat : DWord) (finish : Option (Nat × Bool)) (s : State) : State :=
  let peer := peerEntry s (ring / 64) (field b 4 2)
  let op := field b 0 1
  let after := if op = 3 ∨ field b 2 1 % 2 = 1 then openDescrs s ring peer else []
  let o : Outgoing :=
    { ring := ring, i := r.taken, op := op, peer := peer, msg := messageOf s ring r.taken peer b data, after := after,
      stat := stat, lctr := dw (field b 32 8), finish := finish, raw := b.take 40, stage := 0 }
  countTaken ring r { s with
    outgoing := s.outgoing ++ [o]
    agentFaults := amDel (agentDescr ring r.taken) s.agentFaults }

/-- The work of a taken descriptor: STATUS becomes RUNNING, and the source is read (R383). A descriptor that cannot be read ends
with nothing to write, and its weight returns. -/
def takeDescr (ring : Nat) (r : Ring) (g : Eng) (a : Nat) (s : State) : State :=
  match tryAccess g.agent (engineRead g none (a : Int) 64 s) s with
  | .error (s, .wait) => s
  | .error (s, .fault _ _) => returnHeld ring r.taken (countTaken ring r s)
  | .ok (s, b) =>
    let stat := dw (a + 40)
    match tryAccess g.agent (engineWrite g none ((a + 40 : Nat) : Int) (natBytes 8 1) s) s with
    | .error (s, .wait) => s
    | w =>
      let s := match w with | .ok (s, _) => s | .error (s, _) => s
      if !descrOk b then enterDescr ring r b [] stat (some (0x40, false)) s
      else if field b 0 1 = 3 then enterDescr ring r b [] stat none s
      else match tryAccess g.agent (engineRead g none (field b 16 8 : Int) (field b 8 4) s) s with
        | .error (s, .wait) => s
        | .error (s, .fault c _) => enterDescr ring r b [] stat (some (c, false)) s
        | .ok (s, data) => enterDescr ring r b data stat none s

/-- DESCRIPTOR_TAKE (R381): the port observes DB past the next descriptor, an acquire at DEVICE scope, and takes it. Without
weight to borrow it waits (R375). -/
def execDescriptorTake (ring : Nat) (s : State) : Out :=
  match amGet ring s.rings with
  | none => .next s
  | some r =>
    let g := ringEng s ring r.taken
    let db := ringReg s ring 16
    match tryAccess g.agent (engineCounter g db false s) s with
    | .error (s, _) => .next s
    | .ok (s, pa) =>
      let short := match currentPhase s g.ctx with | some (_, p) => decide (p.root < 2) | none => false
      if rdNat s pa 8 ≤ r.taken ∨ ringLen s ring = 0 ∨ short = true then .next s
      else
        let s := acquireCounter g.agent (.die g.die) 4 pa (rdNat s pa 8) s
        .next (takeDescr ring r g ((ringReg s ring 0).toNat + 64 * (r.taken % ringLen s ring)) s)

/-- The final STATUS (R383). -/
def descrStatus (cause : Nat) (remote : Bool) : Nat :=
  (if cause = 0 then 2 else 3) + cause * 2 ^ 8 + b2n remote * 2 ^ 16

/-- A descriptor ends: its weight returns, and descriptors that waited for it go on. -/
def dropDescr (o : Outgoing) (s : State) : State :=
  let s := returnHeld o.ring o.i s
  { s with
    outgoing := (s.outgoing.filter (fun x => !(x.ring == o.ring && x.i == o.i))).map (fun x =>
      if x.ring = o.ring then { x with after := x.after.filter (fun i => i != o.i) } else x)
    agentFaults := amDel (agentDescr o.ring o.i) s.agentFaults }

/-- The program has written over the descriptor since the port read it, before its LCTR add (R381), as far as memory shows. -/
def rewritten (g : Eng) (o : Outgoing) (s : State) : Bool :=
  match engineSpots g none ((o.stat.toNat : Int) - 40) 40 needLoad s with
  | .ok (s, ps) => ((upFrom 0 40).map (fun i => rdByte s (paAt ps i))) != o.raw
  | .error _ => false

/-- The bytes of the final STATUS: free where the descriptor has been rewritten, whose operation is unpredictable (R381; what was sent
shows in this machine in STATUS alone, notes/assumptions/64.md). -/
def finalStatus (g : Eng) (o : Outgoing) (cause : Nat) (remote : Bool) (s : State) : List Byte × State :=
  if rewritten g o s then drawBytes 8 s else (natBytes 8 (descrStatus cause remote), s)

/-- The end of a descriptor goes on once its final STATUS is written (R383): with that performed at SCOPE, its appends in their logs and at
SYSTEM scope applied (R56, R57), LCTR receives 1. -/
def endDescr (o : Outgoing) (s : State) : State :=
  let g := ringEng s o.ring o.i
  if appendsOut s g.agent g.ord then s
  else if o.msg.scope.toNat = 5 ∧ logsOut s g.agent = true then
    (if o.stage = 2 then s else startLogs g.agent { s with outgoing := s.outgoing.map (fun x =>
      if x.ring = o.ring ∧ x.i = o.i then { x with stage := 2 } else x) })
  else if o.lctr = 0 then dropDescr o s
  else match tryAccess g.agent (engineCounter g o.lctr true s) s with
    | .error (s, .wait) => s
    | .error (s, .fault _ _) => dropDescr o s
    | .ok (s, pa) => dropDescr o (addCounter g.agent g.agent (.die g.die) o.msg.scope.toNat pa 1 g.ctx 0 0 o.lctr s)

/-- DESCRIPTOR_ACK (R383): the acknowledgement of a descriptor that has been sent, or an end found here: the final STATUS, then
LCTR receives 1, a release at SCOPE; a page of either that must be waited for holds the end up. -/
def execDescriptorAck (ring : Nat) (i : Nat) (cause : Byte) (remote : Bool) (s : State) : Out :=
  match s.outgoing.find? (fun o => o.ring == ring && o.i == i) with
  | none => .next s
  | some o =>
    if o.finish = none ∧ !o.after.isEmpty then .next s
    else if 1 ≤ o.stage then .next (endDescr o s)
    else
      let (cause, remote) := o.finish.getD (cause.toNat, remote)
      let g := ringEng s ring i
      let keep (stage : Nat) (s : State) : State := { s with outgoing := s.outgoing.map (fun x =>
        if x.ring = ring ∧ x.i = i then { x with finish := some (cause, remote), stage := stage } else x) }
      let goOn (s : State) : Out := .next (endDescr { o with finish := some (cause, remote), stage := 1 } (keep 1 s))
      match tryAccess g.agent (engineSpots g none (o.stat.toNat : Int) 8 needStore s) s with
      | .error (s, .wait) => .next (keep 0 s)
      | .error (s, .fault _ _) => goOn s
      | .ok (s, ps) =>
        let (bs, s) := finalStatus g o cause remote s
        goOn (writeCells g.agent (engineOp g) g.ord (cellsAt ps bs) s)

/-! ### Receiving (R384 to R386) -/

/-- An operation is over at the receiver, which acknowledges it (R383). -/
def replied (op : Nat) (m : FabricMsg) (cause : Nat) (s : State) : State :=
  { s with
    inbound := s.inbound.filter (fun x => !(x.op == op && x.msg == m))
    replies := { port := m.port, endpoint := m.srcEndpoint, ring := m.srcRing, id := m.id, cause := cause } :: s.replies }

/-- The operation stays at the port. -/
def holdInbound (x : Inbound) (s : State) : State :=
  { s with inbound := s.inbound.filter (fun y => !(y.op == x.op && y.msg == x.msg)) ++ [x] }

/-- The agents of the operations that have arrived from a ring, up to number id, and have written. -/
def arrivals (s : State) (src id : Nat) : List Nat :=
  ((s.hist.map (fun w => w.writer)).filter (fun a => decide (agentArrival src 0 ≤ a) && decide (a ≤ agentArrival src id))).eraseDups

/-- The operation is applied; once no log has yet to take a part of it (R56) it is performed at DEVICE scope (R383), and with a fenced one
are those of its ring before it (R386): a release of them, which an acquire that has read its data synchronises with (R42). -/
def settleInbound (x : Inbound) (s : State) : State :=
  let who := agentArrival x.src x.msg.id
  if appendsOut s who who then holdInbound { x with applied := true } s
  else replied x.op x.msg 0 (release (if x.msg.fence then arrivals s x.src x.msg.id else [who])
    { agent := who, pos := .die (x.msg.port / 6), scope := 4, full := false, all := true, counter := none } s)

/-- The pages of a span that translate, where others do not. -/
def reachable (g : Eng) (need : Need) (a n : Nat) (s : State) : List (Spot × Nat) :=
  if (checkSpan a n).isSome ∨ aperture a ≠ 0 then []
  else (pagePieces (n / 2 ^ 16 + 2) a n).filterMap (fun p => match enginePage g p.1 need s with
    | .ok (_, sp) => if sp.counter then none else some (sp, p.2)
    | .error _ => none)

/-- An operation that fails at a page: of its other destination bytes, some are written, with values that the spec leaves open
(R384). -/
def partWritten (g : Eng) (need : Need) (a n : Nat) (s : State) : State :=
  let ps := reachable g need a n s
  let total := ps.foldl (fun k p => k + p.2) 0
  let (bs, s) := drawBytes total s
  let (cells, s) := pickSome (cellsAt ps bs) s
  writeCells g.agent (engineOp g) g.ord cells s

/-- The destination of an operation is placed, and the operation takes effect there. -/
def intoSpan (x : Inbound) (g : Eng) (need : Need) (n : Nat) (k : List (Spot × Nat) → State → State) (s : State) : State :=
  match tryAccess g.agent (engineSpots g none (x.msg.dst.toNat : Int) n need s) s with
  | .error (s, .wait) => holdInbound x s
  | .error (s, .fault c _) => replied x.op x.msg c (partWritten g need x.msg.dst.toNat n s)
  | .ok (s, ps) => settleInbound x (k ps s)

/-- The elements of an ASTO's data (R382, R385). -/
def messageElems (m : FabricMsg) (ps : List (Spot × Nat)) : List (Spot × AddElem) :=
  let size := if m.pair then 8 else 4
  (upFrom 0 (m.data.length / size)).map (fun j =>
    let sp := spotAt ps (j * size)
    (sp, { pa := (match sp with | .at pa _ => pa | .log _ off => off), mean := BitVec.ofNat 32 (field m.data (size * j) 4),
           spread := BitVec.ofNat 32 (if m.pair then field m.data (size * j + 4) 4 else 0), q3 := m.aop.toNat, pair := m.pair, acct := m.acct }))

/-- ASTO at the receiver (R385): its elements are on their way to their ports, each applied there indivisibly, and FADD.R with the latitude
of R198; those of a tile's log are appended to it. -/
def applyElems (g : Eng) (m : FabricMsg) (ps : List (Spot × Nat)) (s : State) : State :=
  let es := messageElems m ps
  let here := es.filterMap (fun e => match e.1 with | .at _ _ => some e.2 | .log _ _ => none)
  let s : State := if here.isEmpty then s else { s with
    ops := amPut s.seq { engineOp g with body := .adds here } s.ops
    seq := s.seq + 1 }
  let logs := (es.filterMap (fun e => match e.1 with | .log k _ => some k | .at _ _ => none)).eraseDups
  logs.foldl (fun s k =>
    let mine := es.filterMap (fun e => match e.1 with | .log k' _ => if k' = k then some e.2 else none | .at _ _ => none)
    { s with
      ops := amPut s.seq { engineOp g with body := .append k (.adds [mine]) } s.ops
      seq := s.seq + 1 }) s

/-- The tiles whose logs hold entries of a ring's operations up to number id (R56). -/
def arrivalLogs (s : State) (src id : Nat) : List Nat :=
  (s.tiles.filter (fun t => t.2.entries.any (fun e => (e.stamps ++ e.past).any (fun y =>
    decide (agentArrival src 0 ≤ y.1) && decide (y.1 ≤ agentArrival src id))))).map Prod.fst

/-- CTRADD at the receiver (R385, R386): a release of what its ring's earlier operations wrote, at SYSTEM scope once their log entries
are applied (R44, R56). -/
def applyCtradd (x : Inbound) (g : Eng) (s : State) : State :=
  match tryAccess g.agent (engineCounter g x.msg.dst true s) s with
  | .error (s, .wait) => holdInbound x s
  | .error (s, .fault c _) => replied x.op x.msg c s
  | .ok (s, pa) =>
    let logs := if x.msg.scope.toNat = 5 then arrivalLogs s x.src x.msg.id else []
    if !logs.isEmpty then (if x.asked then holdInbound x s else logs.foldl (fun s k => startArrival k s) (holdInbound { x with asked := true } s))
    else match counterAdd (arrivals s x.src x.msg.id) g.agent (.die g.die) x.msg.scope.toNat pa x.msg.amount.toNat s with
    | ((_, true), s) => replied x.op x.msg 0 s
    | ((_, false), s) => replied x.op x.msg 0x18 s

/-- An operation at a receiving port: 1 STORE, 2 ASTO, 3 CTRADD. One that matches no inbound entry is refused (R380); a fenced
one, and every CTRADD, waits for the earlier ones of its ring that the port still holds (R386). -/
def arrive (op : Nat) (m : FabricMsg) (s : State) : Out :=
  let found := s.inbound.find? (fun x => x.op == op && x.msg == m)
  match inboundEntry s m.port m.srcEndpoint m.srcRing with
  | none => .next (replied op m 0x50 s)
  | some (src, ctx) =>
    if (amGet ctx s.ctxs).isNone then .next (replied op m 0x50 s)
    else
      let x := found.getD { op := op, msg := m, src := src, applied := false, asked := false }
      let who := agentArrival src m.id
      let g : Eng := { who := .agent who, agent := who, ctx := ctx, die := m.port / 6, core := none, ord := who, phase := none }
      if x.applied then .next (settleInbound x s)
      else if (m.fence || op == 3) && s.inbound.any (fun y => decide (y.src = src) && decide (y.msg.id < m.id)) then .next (holdInbound x s)
      else match op with
        | 1 => .next (intoSpan x g needStore m.data.length (fun ps s =>
            writeCells g.agent (engineOp g) g.ord (cellsAt ps m.data) s) s)
        | 2 => .next (intoSpan x g needAdd m.data.length (applyElems g m) s)
        | _ => .next (applyCtradd x g s)

/-- FABRIC_STORE (R384, R385). -/
def execFabricStore (m : FabricMsg) (s : State) : Out := arrive 1 m s
/-- FABRIC_ASTO (R384, R385). -/
def execFabricAsto (m : FabricMsg) (s : State) : Out := arrive 2 m s
/-- FABRIC_CTRADD (R384 to R386). -/
def execFabricCtradd (m : FabricMsg) (s : State) : Out := arrive 3 m s

/-! ### Sequences stolen between dies (R378) -/

/-- A die is idle and its table holds no live entry. -/
def dieIdle (s : State) (die : Nat) : Bool :=
  !s.units.any (fun u => decide (u.2.cluster / 48 = die)) && !s.batch.any (fun e => decide (e.1 / 4096 = die) && e.2.now.valid == 1)

/-- The FREE Carillon contexts of a die. -/
def freeCrls (s : State) (die : Nat) : List Nat := (upFrom (die * 4096) 4096).filter (fun n => (amGet n s.crls).isNone)

/-- A Carillon context can be suspended now: it is at a microinstruction boundary (R361). -/
def suspendable (s : State) (n : Nat) : Bool := match amGet n s.crls with | some x => x.emit.isNone | none => true

/-- The entry leaves its table (R378, R388). -/
def removeEntry (die k : Nat) (s : State) : State := commitBatch die k { BatchImage.empty with version := (batchAt s die k).now.version } s

/-- What the memory model and the logs keep of one agent goes over to another. -/
def renameAgent (a b : Nat) (s : State) : State :=
  let r (n : Nat) : Nat := if n = a then b else n
  { s with
    hist := s.hist.map (fun w => { w with writer := r w.writer, also := w.also.map r, acq := w.acq.map r, readBy := w.readBy.map r })
    rels := s.rels.map (fun e => (e.1, { e.2 with agent := r e.2.agent }))
    seen := s.seen.foldl (fun m e => amPut (r (e.1 / 2 ^ 52) * 2 ^ 52 + e.1 % 2 ^ 52) e.2 m) []
    tiles := s.tiles.map (fun t => (t.1, { t.2 with
      entries := t.2.entries.map (fun e => { e with stamps := e.stamps.map (fun x => (r x.1, x.2)), past := e.past.map (fun x => (r x.1, x.2)) })
      held := t.2.held.map (fun h => { h with writer := r h.writer }) })) }

/-- Deliveries that have reached a Carillon context and wait there go with it (R361). -/
def moveDeliveries (a b : Nat) (s : State) : State :=
  { s with ops := s.ops.map (fun o => match o.2.body with
      | .post n first es ctr va scope (some k) => if n = a then (o.1, { o.2 with body := .post b first es ctr va scope (some k) }) else o
      | .select x => (match x.reached with
        | some (k, n) => if n = a then (o.1, { o.2 with body := .select { x with reached := some (k, b) } }) else o
        | none => o)
      | _ => o) }

/-- The leaf of a page that a steal may take from a die: a plain page there, neither LOGGABLE nor of counters, nor in a split. Where the
entry lies, whether the page is large, and the entry. -/
def stolenLeaf (s : State) (ctx die va : Nat) : Option (Nat × Bool × DWord) :=
  match (amGet ctx s.ctxs).bind (fun c => leafAddr s c.root va) with
  | none => none
  | some (a, large) =>
    let e := dw (rdNat s a 8)
    if entryType e ≠ 2 ∨ malformed (if large then 1 else 0) e = true ∨ bitsOf e 47 39 ≠ die ∨ bitsOf e 10 9 ≠ 0 ∨ entryBit e 12 = true then none
    else some (a, large, e)

/-- The page of an address leaves its old frames, which are free once a shootdown is complete (R299). -/
def shootPage (ctx va : Nat) (large : Bool) (old : Nat) (s : State) : State :=
  let n : Nat := if large then 2 ^ 21 else 2 ^ 16
  (startShoot ctx (va / n * n / 2 ^ 16) ((va / n * n + n - 1) / 2 ^ 16) (pageFrames large old) s).2

/-- A page of a context that lies on the other die is rehomed on a die (R299, R378): in one act its contents go to new frames, with every
access in flight (notes/assumptions/95.md), and its entry names them and that die. A page that is no plain page of the other die stays. -/
def rehomePage (ctx dst va : Nat) (s : State) : State :=
  match stolenLeaf s ctx (1 - dst) va with
  | none => s
  | some (a, large, e) =>
    match (freeOf dst large (entryBit e 6) s).bind (fun x => (withPacks ctx e (pageFrames large x.1)
        (modCtx ctx (fun c => { c with owned := pageFrames large x.1 ++ c.owned }) x.2)).map (fun s => (x.1, s))) with
    | none => s
    | some (f, s) =>
      let old := bitsOf e 47 16
      let s := ((pageFrames large old).zip (pageFrames large f)).foldl (fun s x => moveFrame x.1 x.2 s) s
      shootPage ctx va large old (setEntry a (dw (bitsOf e 6 0 + dst * 2 ^ 7 + bitsOf e 15 9 * 2 ^ 9 + f * 2 ^ 16)) s)

/-- A page of a context on a die is unmapped, and its frames are freed. -/
def dropPage (ctx die va : Nat) (s : State) : State :=
  match stolenLeaf s ctx die va with
  | none => s
  | some (a, large, e) => shootPage ctx va large (bitsOf e 47 16) (setEntry a 0 s)

/-- Something done to several pages. Which pages are a sequence's is open, as the form of its page list is (notes/assumptions/63.md). -/
def drawnPages (f : Nat → State → State) : Nat → State → State
  | 0, s => s
  | k + 1, s =>
    let (va, s) := draw s
    drawnPages f k (f va s)

/-- SEQUENCE_STEAL (R378): in one act the entry leaves the other die's table for the thief's, with the same VERSION; its pages are
rehomed, and its Carillon context moves with what has reached it (R361), onto a slot with the same program (R363;
notes/assumptions/63.md). -/
def execSequenceSteal (thief : Nat) (entry : Nat) (s : State) : Out :=
  if 1 < thief ∨ 4095 < entry then .next s
  else
    let victim := 1 - thief
    let im := (batchAt s victim entry).now
    let from_ := victim * 4096 + im.ctxn
    if !dieIdle s thief || im.valid != 1 || !suspendable s from_ then .next s
    else
      match amGet from_ s.crls, freeCrls s thief with
      | none, _ => .next (commitBatch thief entry im (removeEntry victim entry s))
      | some _, [] => .next s
      | some x, free =>
        if smGet [] (thief * 16 + x.prog) s.progs ≠ smGet [] (victim * 16 + x.prog) s.progs then .next s
        else
        let (to_, s) := pickOne 0 free s
        let s := leaveMerge (.carillon from_) (renameAgent (agentCarillon from_) (agentCarillon to_) s)
        let s := moveDeliveries from_ to_ { s with crls := amPut to_ { x with blocked := false } (amDel from_ s.crls) }
        let (k, s) := draw s
        let s := drawnPages (rehomePage x.owner thief) k s
        .next (commitBatch thief entry { im with ctxn := to_ % 4096 } (removeEntry victim entry s))

/-! ### Sequences stolen between chips (R388) -/

/-- A register of a die's pairing with a partner chip: 0 the port, the context and, in bit 63, that it is paired; 8 OUTBASE, 16
OUTLEN, 24 TOKCTR, 32 DBELL (DESIGN CHOICE, notes/assumptions/40.md). -/
def pairReg (s : State) (die k : Nat) : DWord := smGet 0 (0x500000 + die * 0x100 + k) s.bar0

/-- CHIP_STEAL (R388, steps 1 and 3): the entry leaves the table, and the sequence's Carillon context is suspended, its state
and pages sent. -/
def execChipSteal (die : Nat) (entry : Nat) (s : State) : Out :=
  let im := (batchAt s die entry).now
  let n := die * 4096 + im.ctxn
  if bitsOf (pairReg s die 0) 63 63 = 0 ∨ im.valid ≠ 1 ∨ suspendable s n = false then .next s
  else
    let s := leaveMerge (.carillon n) (removeEntry die entry s)
    .next { s with
      seq := s.seq + 1
      steals := amPut s.seq { die := die, entry := entry, image := im } s.steals
      crls := amMod n (fun c => if c.state = 5 then c else { c with state := 5, prior := c.state, blocked := false, fault := none }) s.crls }

/-- A page of the global aperture for which a context has no leaf; which one is open (R22, R23; notes/assumptions/63.md). -/
def freePage (ctx : Nat) (s : State) : Option (Nat × State) :=
  let (k, s) := draw s
  let va := (k % (2 ^ 40 - 1) + 1) * 2 ^ 16
  if serviceAddr va 1 && entryType (leafOf s ctx va).1 == 0 then some (va, s) else none

/-- Bytes take a frame of a context's pool on a die, mapped with R and W at a page that was free: its address (R388, step 2). -/
def landPage (ctx die : Nat) (bs : List Byte) (s : State) : Option (Nat × State) :=
  match freePage ctx s with
  | none => none
  | some (va, s) => match takePool ctx die false s with
    | .got f s => (putLeaf ctx va false (dw (2 + 8 + 16 + die * 2 ^ 7 + f * 2 ^ 16)) (pokeBytes (f * 2 ^ 16) (bs.take (2 ^ 16)) s)).map (fun s => (va, s))
    | _ => none

/-- Frames of a context's pool take the pages received (step 2); none while the pool has too few. -/
def landPages (ctx die : Nat) : List (List Byte) → State → Option State
  | [], s => some s
  | p :: ps, s => match landPage ctx die p s with
    | some (_, s) => landPages ctx die ps s
    | none => none

/-- The new page list, of n pages: a page of its own, whose form is open: eight free bytes for each page (R388, step 5; DESIGN CHOICE,
notes/assumptions/63.md). -/
def landList (ctx die n : Nat) (s : State) : Option (Nat × State) :=
  let (bs, s) := drawBytes (8 * n) s
  landPage ctx die bs s

/-- STEAL_STATE_INSTALL (R388, steps 4 to 6): a free Carillon context of an idle die takes the received state, with OUTBASE, OUTLEN, TOKCTR
and DBELL of the pairing and T 0; the entry is placed and the steal acknowledged. A die that no pairing names takes nothing; one that
is not idle lets the sequence wait (R378; DESIGN CHOICE, notes/assumptions/63.md). -/
def execStealStateInstall (m : StealMsg) (s : State) : Out :=
  let ctx := bitsOf (pairReg s m.die 0) 47 32
  let hold (s : State) : State := { s with received := s.received.filter (fun x => x != m) ++ [m] }
  if bitsOf (pairReg s m.die 0) 63 63 = 0 then .next { s with received := s.received.filter (fun x => x != m) }
  else if !dieIdle s m.die then .next (hold s)
  else match (landPages ctx m.die m.pages s).bind (landList ctx m.die m.pages.length) with
  | none => .next (hold s)
  | some (kv, s') =>
    match freeCrls s' m.die with
    | [] => .next (hold s)
    | free =>
      let (n, s) := pickOne 0 free s'
      let x : Crl :=
        { owner := ctx, state := m.state, prior := m.state, pc := m.pc, prog := m.prog, c := m.c, key := m.key, x := m.x, pos := m.pos,
          val := m.val, idx := m.idx, ccnt := m.ccnt, hist := m.hist, dbell := pairReg s m.die 32, t := 0, tOld := 0,
          outBase := pairReg s m.die 8, outLen := (pairReg s m.die 16).toNat, tokCtr := pairReg s m.die 24, seq := m.seq.toNat,
          fcause := m.fcause.toNat, tcause := m.tcause.toNat, blocked := false, fault := none, halting := false, emit := none,
          weight := [] }
      let s := commitBatch m.die m.entry { version := m.version, valid := 1, ctxn := n % 4096, len := m.len, kv := dw kv, user := m.user }
        { s with crls := amPut n x s.crls }
      .next { s with
        received := s.received.filter (fun x => x != m)
        replies := { port := bitsOf (pairReg s m.die 0) 3 0, endpoint := 0, ring := 64, id := m.id, cause := 0 } :: s.replies }

/-- STEAL_ACK (R388, step 6): the victim frees its Carillon context and the frames of the sequence's pages. -/
def execStealAck (id : Nat) (s : State) : Out :=
  match amGet id s.steals with
  | none => .next s
  | some x =>
    let n := x.die * 4096 + x.image.ctxn
    match amGet n s.crls with
    | none => .next { s with steals := amDel id s.steals }
    | some c =>
      let (k, s) := draw s
      .next (drawnPages (dropPage c.owner x.die) k (freeCrl n { s with steals := amDel id s.steals }))

/-- A steal that cannot be delivered is undone: the entry returns with the same VERSION, and its context resumes (R388). -/
def undoSteal (id : Nat) (x : Steal) (s : State) : State :=
  let n := x.die * 4096 + x.image.ctxn
  commitBatch x.die x.entry x.image { s with
    steals := amDel id s.steals
    crls := amMod n (fun c => if c.state = 5 then { c with state := c.prior } else c) s.crls }

/-- LINK_RETRY_EXPIRY (R379, R388): the port's descriptors that have not ended end with LINK, and its steals are undone. -/
def execLinkRetryExpiry (port : Nat) (s : State) : Out :=
  let s : State := { s with outgoing := s.outgoing.map (fun o =>
    if o.ring / 64 = port ∧ o.finish = none then { o with finish := some (0x51, false) } else o) }
  .next ((s.steals.filter (fun e => decide (bitsOf (pairReg s e.2.die 0) 3 0 = port))).foldl (fun s e => undoSteal e.1 e.2 s) s)

end Sys2Proof.Machine
end

