-- ==== Sys2Proof/Machine/Debug.lean ====
section
/-! DEFINITION. The debug and trace unit (R389 to R396): BKPT, the stop at a named tick, cluster stops, STEP and RESUME, and the
writing of colophons. Watchpoints and control-transfer records are made where passes are (Xlat, Ops). -/

namespace Sys2Proof.Machine

/-- A register of a die's debug page written by the unit. -/
def setDbg (die off v : Nat) (s : State) : State := { s with bar0 := smPut 0 (0x600000 + die * 0x10000 + off) (dw v) s.bar0 }

/-- The host's debug commands come by the secure bank of a die's page: its register 0x138 says so (DESIGN CHOICE,
notes/assumptions/40.md). -/
def dbgSecure (s : State) (die : Nat) : Bool := bitsOf (dbgReg s die 0x138) 0 0 == 1

/-- The status that a debug command leaves in the bank of its die's page that it came by. -/
def dbgStatus (die st : Nat) (s : State) : State := setDbg die ((dbgBank die (dbgSecure s die)).2 + 0x128) st s

/-! ### BKPT (R112) -/

/-- BKPT (R112, R389, R393): of a debuggable context, a cluster stop; else the trap BREAKPOINT. Either comes after it. -/
def execBkpt (s : State) : Out :=
  onePassTo (fun s i f t =>
    if debuggable s t then
      .ok (advance i 4 (triggerStop (clusterOf t.gcore) 1 (modFrag i (fun f => { f with stopFor := some 1 }) s)))
    else .error (s, .trapAt 0x21 (f.pc + 4) 0 0)) s

/-! ### Stop at a named tick (R390) -/

/-- Every existing context is debuggable. -/
def allDebuggable (s : State) : Bool := s.ctxs.all (fun c => c.2.debuggable)

/-- The device is gated, and TSTOP disarmed. -/
def gateAll (s : State) : State := { s with gated := true, tstop := dw (bitsOf s.tstop 62 0) }

/-- TSTOP is armed and the toll has reached its tick. -/
def tstopDue (s : State) : Bool := bitsOf s.tstop 63 63 == 1 && decide (bitsOf s.tstop 62 0 ≤ s.toll)

/-- TSTOP (R390): accepted while every context is debuggable; a tick already passed takes the stop at once. -/
def execTstop (value : DWord) (s : State) : Out :=
  if !allDebuggable s then .next (dbgStatus 0 5 s)
  else
    let s : State := { s with tstop := value }
    .next (dbgStatus 0 0 (if tstopDue s then gateAll s else s))

/-- TSTOP_EXPIRY (R390): at toll TICK every clock domain is gated. -/
def execTstopExpiry (s : State) : Out := .next (if tstopDue s then gateAll s else s)

/-- DEBUG_RELEASE (R390): every domain restarts. -/
def execDebugRelease (s : State) : Out := .next { s with gated := false }

/-! ### Cluster stops (R393, R394) -/

/-- The contexts whose partition holds a cluster, and that are not saved away from it, are debuggable; and the command's bank reaches
each of them (R389). -/
def clusterDebuggable (s : State) (c : Nat) : Bool :=
  s.ctxs.all (fun x => x.2.debuggable && (!x.2.secure || dbgSecure s (c / 48)) || decide (2 ≤ x.2.pre) || !x.2.clusters.contains c)

/-- STOPCL (R389, R393). -/
def execStopcl (cluster : Nat) (s : State) : Out :=
  if 95 < cluster then .next s
  else if !clusterDebuggable s cluster then .next (dbgStatus (cluster / 48) 5 s)
  else .next (dbgStatus (cluster / 48) 0 (triggerStop cluster 0 s))

/-- The fragments resident on a core that the debug unit may act on: not those of a saved context, nor of one that is not debuggable
(R389, R393). -/
def coreFrags (s : State) (core : Nat) : List Nat :=
  (s.frags.filter (fun e => match amGet e.2.team s.teams with
    | some t => decide (t.gcore = core) && debuggable s t && (match ctxOfTeam s e.2.team with | some c => !savedCtx s c | none => false)
    | none => false)).map Prod.fst

/-- CLUSTER_STOP_ARRIVAL (R393): the broadcast has reached a core, by the trigger tick and 16 at the latest, and its fragments stop at
their pass boundary, each with its record. -/
def execClusterStopArrival (core : Nat) (s : State) : Out :=
  match amGet (clusterOf core) s.stops with
  | none => .next s
  | some st =>
    if st.cores.contains core then .next s
    else
      let tick := max (min s.toll (st.tick + 16)) ((amGet core s.issued).getD 0)
      let s : State := { s with stops := amPut (clusterOf core) { st with cores := core :: st.cores } s.stops }
      .next ((coreFrags s core).foldl (fun s i => match amGet i s.frags with
        | some f => if f.frozen then s else freezeFrag i tick st.cause s
        | none => s) s)

/-- The debug unit keeps a fragment from issuing (R393, R394): it is stopped, or its core is and no STEP is made of it; after 16
ticks no core issues. -/
def debugHeld (s : State) (f : Frag) (t : Team) : Bool :=
  match amGet (clusterOf t.gcore) s.stops with
  | none => f.frozen
  | some st => debuggable s t && (f.frozen || (if st.cores.contains t.gcore then f.stepping.isNone else decide (st.tick + 16 ≤ s.toll)))

/-- The fragment that a STEP names: by core, TSLOT and lowest active lane. -/
def steppable (s : State) (core tslot lane : Nat) : Option (Nat × Frag × Team) :=
  s.frags.findSome? (fun e => match amGet e.2.team s.teams with
    | some t => if t.gcore = core ∧ t.tslot = tslot ∧ lowestLane e.2.mask = lane ∧ debugHeld s e.2 t = true then some (e.1, e.2, t) else none
    | none => none)

/-- STEP (R394): a stopped fragment is to issue the passes of one instruction. -/
def execStep (core : Nat) (tslot : Nat) (lane : Nat) (s : State) : Out :=
  let die := dieOf core
  match steppable s core tslot lane with
  | none => .next (dbgStatus die 1 s)
  | some (i, f, t) =>
    if !debuggable s t || (secureTeam s t && !dbgSecure s die) then .next (dbgStatus die 5 s)
    else .next (dbgStatus die 0 (setFrag i { f with frozen := false, stepping := some s.toll, stepSeq := s.seq, skid := 0, stopFor := none } s))

/-- STEP_BLOCKED (R394): a wait has not returned for 65,536 ticks, and the step ends BLOCKED. -/
def execStepBlocked (core : Nat) (tslot : Nat) (lane : Nat) (s : State) : Out :=
  let found := s.frags.find? (fun e => match amGet e.2.team s.teams with
    | some t => decide (t.gcore = core) && decide (t.tslot = tslot) && decide (lowestLane e.2.mask = lane) && e.2.stepping.isSome
    | none => false)
  match found with
  | none => .next s
  | some (i, f) =>
    if (f.wait = .run ∧ f.frozen = false) ∨ s.toll < f.stepping.getD s.toll + 65536 then .next s
    else .next (dbgStatus (dieOf core) 13 (setFrag i { f with frozen := true, stepping := none } s))

/-- RESUME (R394): the cluster is released; each fragment's key is this tick. -/
def execResume (cluster : Nat) (s : State) : Out :=
  if 95 < cluster then .next s
  else if !clusterDebuggable s cluster then .next (dbgStatus (cluster / 48) 5 s)
  else
    let free (f : Frag) : Frag := { f with frozen := false, stopFor := none, stepping := none, key := s.toll }
    let mine := clusterFrags s cluster
    .next (dbgStatus (cluster / 48) 0 { s with
      stops := amDel cluster s.stops
      frags := s.frags.map (fun e => if mine.contains e.1 then (e.1, free e.2) else e)
      teams := s.teams.map (fun e => if clusterOf e.2.gcore = cluster then
        (e.1, { e.2 with frame := e.2.frame.map (fun r => { r with saved := { r.saved with frozen := false, stopFor := none, stepping := none } }) }) else e) })

/-! ### Colophons (R396) -/

/-- The launch is finished with: no LAUNCH command waits for it. -/
def launchGone (s : State) (lid : Nat) (l : Launch) : Bool :=
  l.done && !s.queues.any (fun q => q.2.running.any (fun x => match x.2 with | .launch k => k == lid | _ => false))

/-- COLOPHON_COUNTER_ADD (R396, R57): the next record of a launch is written to its slot, and CLRCTR receives 1 once what a log takes of
the record has reached it (R56). Where the slot cannot be written the launch writes no more of them. -/
def execColophonCounterAdd (launch : Nat) (s : State) : Out :=
  match amGet launch s.launches with
  | none => .next s
  | some l => match l.clrPend with
    | [] => .next s
    | r :: rest =>
      let die := field r 42 2 % 2 ^ 11 / 768
      let who := 2 ^ 43 + launch
      let g : Eng := { who := .agent who, agent := agentTrace die, ctx := l.ctx, die := die, core := none, ord := who, phase := l.phase }
      let place := engThen (if l.clrOut then .ok (s, []) else
          tryAccess who (engineSpots g none ((l.clrBase.toNat + 64 * (field r 48 8 % l.clrLen) : Nat) : Int) 64 needStore s) s) fun s ps =>
        engThen (tryAccess who (engineCounter g l.clrCtr true s) s) fun s pa => .ok (s, (ps, pa))
      let drop (s : State) (l : Launch) : State :=
        { s with launches := if l.clrPend.isEmpty && launchGone s launch l then amDel launch s.launches else amPut launch l s.launches }
      match place with
      | .error (s, .wait) => .next s
      | .error (s, .fault _ _) => .next (drop s { l with clrPend := [], clrBase := 0 })
      | .ok (s, ps, pa) =>
        let s := if l.clrOut then s else writeCells g.agent (engineOp g) who (cellsAt ps r) s
        .next (if appendsOut s g.agent who then { s with launches := amPut launch { l with clrOut := true } s.launches }
          else drop (addCounter g.agent g.agent (.die die) 4 pa 1 l.ctx 0 0 l.clrCtr s) { l with clrPend := rest, clrOut := false })

end Sys2Proof.Machine
end

