-- ==== Sys2Proof/Machine/Xmss.lean ====
section
/-! DEFINITION. SHAKE256 and the signature scheme XMSS-SHAKE256_20_256 (R397, R398, R401). The spec names both by their standards: FIPS 202,
RFC 8391 and SP 800-208 give them (PRESUMED, notes/assumptions/98.md). -/

namespace Sys2Proof.Machine

/-! ### SHAKE256 with 256-bit output (R397, R401) -/

/-- Lane (x, y) of the permutation's state: 25 doublewords, (x, y) at 5·y + x. -/
def lane (a : List DWord) (x y : Nat) : DWord := nth 0 a (5 * (y % 5) + x % 5)

/-- The step θ: each lane takes the parities of two neighbouring columns. -/
def keccakTheta (a : List DWord) : List DWord :=
  let column (x : Nat) : DWord := lane a x 0 ^^^ lane a x 1 ^^^ lane a x 2 ^^^ lane a x 3 ^^^ lane a x 4
  let d := (upFrom 0 5).map (fun x => column (x + 4) ^^^ (column (x + 1)).rotateLeft 1)
  (upFrom 0 25).map (fun i => nth 0 a i ^^^ nth 0 d (i % 5))

/-- By how many bits ρ rotates each lane. -/
def keccakOffsets : List Nat :=
  [0, 1, 62, 28, 27, 36, 44, 6, 55, 20, 3, 10, 43, 25, 39, 41, 45, 15, 21, 8, 18, 2, 61, 56, 14]

/-- The steps ρ and π: lane (x, y), rotated, goes to (y, 2·x + 3·y). -/
def keccakRhoPi (a : List DWord) : List DWord :=
  (upFrom 0 25).map (fun i =>
    let from_ := 5 * (i % 5) + (i % 5 + 3 * (i / 5)) % 5
    (nth 0 a from_).rotateLeft (nth 0 keccakOffsets from_))

/-- The step χ, on each row. -/
def keccakChi (a : List DWord) : List DWord :=
  (upFrom 0 25).map (fun i => nth 0 a i ^^^ (~~~lane a (i % 5 + 1) (i / 5) &&& lane a (i % 5 + 2) (i / 5)))

/-- The round constants of ι. -/
def keccakConstants : List DWord :=
  [0x0000000000000001, 0x0000000000008082, 0x800000000000808A, 0x8000000080008000, 0x000000000000808B, 0x0000000080000001,
   0x8000000080008081, 0x8000000000008009, 0x000000000000008A, 0x0000000000000088, 0x0000000080008009, 0x000000008000000A,
   0x000000008000808B, 0x800000000000008B, 0x8000000000008089, 0x8000000000008003, 0x8000000000008002, 0x8000000000000080,
   0x000000000000800A, 0x800000008000000A, 0x8000000080008081, 0x8000000000008080, 0x0000000080000001, 0x8000000080008008]

/-- The permutation: 24 rounds. -/
def keccak (a : List DWord) : List DWord :=
  keccakConstants.foldl (fun a rc => match keccakChi (keccakRhoPi (keccakTheta a)) with
    | l :: ls => (l ^^^ rc) :: ls
    | [] => []) a

/-- One block of 136 bytes absorbed. -/
def absorb (a : List DWord) (block : List Byte) : List DWord :=
  keccak ((upFrom 0 25).map (fun i => nth 0 a i ^^^ dw (bytesNat ((block.drop (8 * i)).take 8))))

/-- A message with the padding of SHAKE256. -/
def shakePad (m : List Byte) : List Byte :=
  let q := 136 - m.length % 136
  m ++ (if q = 1 then [0x9F] else 0x1F :: (List.replicate (q - 2) 0 ++ [0x80]))

/-- SHAKE256 of a message: 32 bytes. -/
def shake256 (m : List Byte) : List Byte :=
  let p := shakePad m
  (((chunks 136 p.length p).foldl absorb (List.replicate 25 0)).take 4).flatMap (fun l => natBytes 8 l.toNat)

/-! ### The functions of the scheme -/

/-- A number as n bytes, most significant first. -/
def beBytes (n v : Nat) : List Byte := (natBytes n v).reverse

/-- Bytes as a number, most significant first. -/
def beNat (bs : List Byte) : Nat := bytesNat bs.reverse

/-- Two byte strings, bit by bit. -/
def xorBytes (a b : List Byte) : List Byte := (a.zip b).map (fun x => x.1 ^^^ x.2)

/-- A keyed hash: F is number 0, H 1, H_msg 2 and PRF 3. -/
def xmssHash (number : Nat) (key m : List Byte) : List Byte := shake256 (beBytes 32 number ++ key ++ m)

/-- A hash address: layer and tree 0, then a type and its four words. -/
def xmssAdrs (type a b c mask : Nat) : List Byte :=
  beBytes 12 0 ++ beBytes 4 type ++ beBytes 4 a ++ beBytes 4 b ++ beBytes 4 c ++ beBytes 4 mask

/-- PRF of the public seed and an address. -/
def xmssPrf (seed : List Byte) (type a b c mask : Nat) : List Byte := xmssHash 3 seed (xmssAdrs type a b c mask)

/-- The randomised hash of two nodes at an address. -/
def randHash (seed l r : List Byte) (type a b c : Nat) : List Byte :=
  xmssHash 1 (xmssPrf seed type a b c 0) (xorBytes l (xmssPrf seed type a b c 1) ++ xorBytes r (xmssPrf seed type a b c 2))

/-- Chain i of one-time key `ots`, from step `at_` on by so many steps. -/
def wotsChain (seed : List Byte) (ots i at_ : Nat) : Nat → List Byte → List Byte
  | 0, x => x
  | n + 1, x =>
    wotsChain seed ots i (at_ + 1) n
      (xmssHash 0 (xmssPrf seed 0 ots i at_ 0) (xorBytes x (xmssPrf seed 0 ots i at_ 1)))

/-- The 67 digits of a hash value to be signed: 64 of its own, high nibble first, and three of their checksum. -/
def wotsDigits (m : List Byte) : List Nat :=
  let d := m.flatMap (fun b => [b.toNat / 16, b.toNat % 16])
  let sum := d.foldl (fun n x => n + (15 - x)) 0
  d ++ [sum / 256 % 16, sum / 16 % 16, sum % 16]

/-- One level of an L-tree: pairs are hashed, a node left over rises as it is. -/
def ltreeLevel (seed : List Byte) (leaf height : Nat) : Nat → List (List Byte) → List (List Byte)
  | i, l :: r :: ns => randHash seed l r 1 leaf height i :: ltreeLevel seed leaf height (i + 1) ns
  | _, ns => ns

/-- The root of an L-tree over at most 2^n nodes, from a height on. -/
def ltree (seed : List Byte) (leaf height : Nat) : Nat → List (List Byte) → List Byte
  | 0, ns => ns.headD []
  | n + 1, ns => if ns.length ≤ 1 then ns.headD [] else ltree seed leaf (height + 1) n (ltreeLevel seed leaf height 0 ns)

/-- The leaf that a one-time public key gives: the root of its L-tree over 67 values. -/
def xmssLeaf (seed : List Byte) (leaf : Nat) (pk : List (List Byte)) : List Byte := ltree seed leaf 0 7 pk

/-- The hash value of a message that a signature of an index signs, with its randomiser and the key's root. -/
def xmssMessage (r root : List Byte) (index : Nat) (m : List Byte) : List Byte := xmssHash 2 (r ++ root ++ beBytes 32 index) m

/-! ### Verifying (R397, R398) -/

/-- Up an authentication path from a node at a height, to the root. -/
def climb (seed : List Byte) (index : Nat) : Nat → List (List Byte) → List Byte → List Byte
  | _, [], n => n
  | k, a :: auth, n =>
    climb seed index (k + 1) auth
      (if index / 2 ^ k % 2 = 0 then randHash seed n a 2 0 k (index / 2 ^ (k + 1)) else randHash seed a n 2 0 k (index / 2 ^ (k + 1)))

/-- n values of 32 bytes each from an offset on. -/
def hashValues (bs : List Byte) (off n : Nat) : List (List Byte) := (upFrom 0 n).map (fun i => (bs.drop (off + 32 * i)).take 32)

/-- A signature of 2,820 bytes: its index, randomiser, 67 chain values and 20 path nodes (R398). -/
def sigIndex (sig : List Byte) : Nat := beNat (sig.take 4)
/-- Its randomiser. -/
def sigRandom (sig : List Byte) : List Byte := (sig.drop 4).take 32
/-- Its chain values. -/
def sigChains (sig : List Byte) : List (List Byte) := hashValues sig 36 67
/-- Its authentication path. -/
def sigPath (sig : List Byte) : List (List Byte) := hashValues sig 2180 20

/-- The root that a signature of a message leads to. -/
def xmssRoot (root seed m sig : List Byte) : List Byte :=
  let index := sigIndex sig
  let digits := wotsDigits (xmssMessage (sigRandom sig) root index m)
  let pk := ((upFrom 0 67).zip (digits.zip (sigChains sig))).map (fun x => wotsChain seed index x.1 x.2.1 (15 - x.2.1) x.2.2)
  climb seed index 0 (sigPath sig) (xmssLeaf seed index pk)

/-- The signature of a boot image verifies against the fused key: a root, then a public seed (R397). -/
def imageVerifies (image sig : List Byte) : Bool :=
  let root := beBytes 32 Config.vendorRoot.toNat
  xmssRoot root (beBytes 32 Config.vendorSeed.toNat) image sig == root

/-! ### Signing with the device identity key (R401) -/

/-- The device identity key's public seed. -/
def deviceSeed : List Byte := beBytes 32 Config.deviceSeed.toNat

/-- The secret value of a chain of a one-time key. -/
def deviceSecret (leaf i : Nat) : List Byte := beBytes 32 (Config.deviceSecret leaf i).toNat

/-- Node i of a height of the device key's tree. -/
def deviceNode : Nat → Nat → List Byte
  | 0, i => xmssLeaf deviceSeed i ((upFrom 0 67).map (fun c => wotsChain deviceSeed i c 0 15 (deviceSecret i c)))
  | h + 1, i => randHash deviceSeed (deviceNode h (2 * i)) (deviceNode h (2 * i + 1)) 2 0 h i

/-- The device key's root. -/
def deviceRoot : List Byte := deviceNode 20 0

/-- A signature as R398 lays it out: the leaf index, big-endian, the randomiser, the chain values and the authentication path. -/
def signature (index : Nat) (body : List Byte) : List Byte :=
  let r := xmssHash 3 (beBytes 32 Config.devicePrf.toNat) (beBytes 32 index)
  let digits := wotsDigits (xmssMessage r deviceRoot index body)
  beBytes 4 index ++ r ++
    ((upFrom 0 67).zip digits).flatMap (fun x => wotsChain deviceSeed index x.1 0 x.2 (deviceSecret index x.1)) ++
    (upFrom 0 20).flatMap (fun k => deviceNode k (if index / 2 ^ k % 2 = 0 then index / 2 ^ k + 1 else index / 2 ^ k - 1))

end Sys2Proof.Machine
end

