-- ==== Sys2Proof/Machine/Boot.lean ====
section
/-! DEFINITION. Boot and reset (R397 to R399), attestation (R401, R402), power and temperature (R402, R403), and the host's
accesses to BAR0, BAR2 and BAR4 (R5, R364). -/

namespace Sys2Proof.Machine

/-! ### The windows of the host link (R364) -/

/-- A host access outside the machine's queues: BAR2's base register (DESIGN CHOICE, notes/assumptions/40.md). -/
def bar2Base (s : State) : Nat := (smGet 0 0x1F0020 s.bar0).toNat

/-- The offsets of BAR0 that a write of its own event, or no write, changes: the doorbells; and the mailbox and BOOTSTAT, which
have events. Any other doubleword of the pages that the spec names holds what is written to it. -/
def plainRegister (offset : Nat) : Bool :=
  decide (offset % 8 = 0) &&
  (decide (0x1F0000 ≤ offset) && decide (offset < 0x1F0018) || offset == 0x1F0020 ||
   decide (0x400000 ≤ offset) && decide (offset < 0x400000 + 12 * 0x10000) ||
   decide (0x500000 ≤ offset) && decide (offset < 0x500200) ||
   decide (0x600000 ≤ offset) && decide (offset < 0x620000))

/-- A WPCTL or WPADDR register of a debug page keeps no reserved bit (R5, R391); RLEN is a power of two (R380). -/
def fieldsOf (offset : Nat) (v : DWord) : DWord :=
  if 0x600000 ≤ offset ∧ offset % 0x8000 < 0x100 then
    (if offset % 16 = 0 then dw (bitsOf v 63 3 * 8) else dw (bitsOf v 20 0))
  else v

/-- A ring that is bound anew or freed leaves what it was bound to: its descriptors end with nothing written, the weight that they hold
returns (R16), and no add to its old doorbell waits for it (DESIGN CHOICE, notes/assumptions/64.md). -/
def leaveRing (ring : Nat) (s : State) : State :=
  let s := (s.outgoing.filter (fun o => o.ring == ring)).foldl (fun s o => dropDescr o s) s
  let s := (s.ops.filter (fun o => match o.2.body with | .doorbell k _ => k == ring | _ => false)).foldl (fun s o => endOp o.1 s) s
  match amGet ring s.rings with
  | none => s
  | some r => r.held.foldl (fun s h => giveBack h.2.1 h.2.2 s) s

/-- A ring's second register binds it to a context, in bit 63, or frees it (R380, R381): a ring bound takes descriptors from 0. -/
def bindRing (offset : Nat) (v : DWord) (s : State) : State :=
  let port := (offset - 0x400000) / 0x10000
  let off := offset % 0x10000
  if offset < 0x400000 ∨ 12 ≤ port ∨ 0x800 ≤ off ∨ off % 0x20 ≠ 8 then s
  else
    let ring := port * 64 + off / 0x20
    let s := leaveRing ring s
    { s with rings := if bitsOf v 63 63 = 1 then amPut ring { taken := 0, held := [] } s.rings else amDel ring s.rings }

/-- REGISTER_WRITE (R5, R364). -/
def execRegisterWrite (offset : Nat) (value : DWord) (s : State) : Out :=
  if !plainRegister offset then .next s
  else .next (bindRing offset value { s with bar0 := smPut 0 offset (fieldsOf offset value) s.bar0 })

/-- HOST_BAR2_ACCESS (R364): the host's write to device memory; a read changes nothing. -/
def execHostBar2Access (offset : Nat) (data : Option (List Byte)) (s : State) : Out :=
  match data with
  | none => .next s
  | some bs =>
    if 2 ^ 36 < offset + bs.length ∨ 2 ^ 40 < bar2Base s + offset + bs.length then .next s
    else .next (writeRuns agentHost none (runsOf ((upFrom (bar2Base s + offset) bs.length).zip bs)) s)

/-- BOOT_IMAGE_WRITE (R364, R397): ignored unless the boot logic is IDLE. -/
def execBootImageWrite (offset : Nat) (data : List Byte) (s : State) : Out :=
  if s.boot.state ≠ 0 ∨ 2 ^ 26 < offset + data.length then .next s
  else .next { s with boot := { s.boot with
    window := ((upFrom offset data.length).zip data).foldl (fun m x => smPut 0 x.1 x.2 m) s.boot.window } }

/-! ### Boot (R397 to R399) -/

/-- n bytes of the image window. -/
def imageBytes (s : State) (off n : Nat) : List Byte := (upFrom off n).map (fun a => smGet 0 a s.boot.window)

/-- CAUSE of BOOTSTAT for the image in the window, 0 for one that passes: header, length, signature, version. -/
def imageCause (s : State) : Nat :=
  let h := imageBytes s 0 64
  let len := field h 8 8
  if field h 0 4 ≠ 0x5A4F4C44 ∨ (h.drop 16).any (fun b => b != 0) = true then 1
  else if len % 64 ≠ 0 ∨ len < 64 ∨ 2 ^ 26 - 2820 < len then 4
  else if imageVerifies (imageBytes s 0 len) (imageBytes s len 2820) = false then 2
  else if field h 6 2 < Config.fusedMinver.toNat % 2 ^ 16 then 3
  else 0

/-- BOOTSTAT (R399), as the host reads it. -/
def bootstat (s : State) : DWord :=
  dw (s.boot.state * 2 + s.boot.cause * 2 ^ 4 + s.boot.version.toNat * 2 ^ 8 + Config.fusedMinver.toNat % 2 ^ 16 * 2 ^ 40)

/-- BOOTSTAT_GO (R397): an IDLE boot logic checks the image; a good one is copied into the control-complex memory of both dies, signature
and all, and runs, and the toll starts at 0. -/
def execBootstatGo (s : State) : Out :=
  if s.boot.state ≠ 0 then .next s
  else
    let cause := imageCause s
    if cause ≠ 0 then .next { s with boot := { s.boot with state := 3, cause := cause } }
    else .next { s with
      toll := 0
      boot := { s.boot with
        state := 2, version := BitVec.ofNat 32 (field (imageBytes s 4 4) 0 4),
        digest := shake256 (imageBytes s 0 (field (imageBytes s 8 8) 0 8))
        control0 := imageBytes s 0 (field (imageBytes s 8 8) 0 8 + 2820), control1 := imageBytes s 0 (field (imageBytes s 8 8) 0 8 + 2820) } }

/-! ### Reset, power and temperature (R397, R402, R403) -/

/-- The machine as reset leaves it, over memory cells that outlast it: the signing index, the messages sent and what is outside
the machine stay. -/
def restarted (mem : List Host.Cell) (s : State) : State :=
  { State.reset with free := s.free, seq := s.seq, mem := mem, boot := Boot.idle s.boot.index, msix := s.msix, replies := s.replies, inputs := s.inputs }

/-- RESET (R397): the boot logic is IDLE and its window open. Memory keeps its bytes (notes/assumptions/67.md). -/
def execReset (s : State) : Out := .next (restarted (s.mem.filter (fun c => decide (c.1 < 2 ^ 48))) s)

/-- POWER_LOSS (R402): everything but the signing index is lost; an index whose signature was not released is skipped. The host's
memory is not the device's. -/
def execPowerLoss (skip : Nat) (s : State) : Out :=
  let r := restarted (s.mem.filter (fun c => decide (2 ^ 40 ≤ c.1) && decide (c.1 < 2 ^ 48))) s
  .next { r with boot := Boot.idle (min (s.boot.index + min skip 1) (2 ^ 20)) }

/-- THERMAL_TRIP (R403): every clock domain is gated until reset, and all contexts are lost. -/
def execThermalTrip (s : State) : Out :=
  let r := restarted (s.mem.filter (fun c => decide (c.1 < 2 ^ 48))) s
  .next { r with toll := s.toll, bar0 := s.bar0, boot := { s.boot with state := 4 } }

/-- GOVERNOR_BUDGET_UPDATE (R275, R403): firmware sets a cluster's BUDGET, never below 1,024. -/
def execGovernorBudgetUpdate (cluster : Nat) (budget : Half) (s : State) : Out :=
  if 95 < cluster ∨ budget.toNat < 1024 then .next s
  else .next { s with gov := amPut cluster { (amGet cluster s.gov).getD Gov.idle with budget := budget.toNat } s.gov }

/-! ### Attestation (R401, R402) -/

/-- Bytes 0 to 87 of a report. -/
def reportBody (s : State) (ctx : Nat) (x : Context) (nonce : List Byte) : List Byte :=
  natBytes 2 ctx ++ natBytes 1 (b2n x.debuggable + 2 * b2n x.secure + 4 * b2n x.preemptible) ++ natBytes 5 0 ++
    natBytes 4 s.boot.version.toNat ++ natBytes 4 0 ++ (s.boot.digest ++ List.replicate 32 0).take 32 ++
    (nonce ++ List.replicate 32 0).take 32 ++ natBytes 8 s.toll

/-- ATTESTATION_REQUEST (R401, R402): a report of a live context, signed with the next index. -/
def execAttestationRequest (ctx : Nat) (nonce : List Byte) (s : State) : Out :=
  let answer (b : Boot) (st : Nat) : Out := .next { s with boot := { b with mailStatus := st } }
  if s.boot.state ≠ 2 then .next s
  else if 2 ^ 20 ≤ s.boot.index then answer s.boot 7
  else match amGet ctx s.ctxs with
    | none => answer s.boot 6
    | some x =>
      if x.dying then answer s.boot 6
      else
        let body := reportBody s ctx x nonce
        answer { s.boot with index := s.boot.index + 1, report := body ++ signature s.boot.index body } 0

end Sys2Proof.Machine
end

