-- ==== Sys2Proof/Machine/Dispatch.lean ====
section
/-! DEFINITION. What each instruction does: one arm for each constructor, each a call of its meaning. -/

namespace Sys2Proof.Machine

/-- The outcome of one instruction, microinstruction or event. -/
def exec (ins : Instr) (st : State) : Host.Outcome State Fault Refusal :=
  match ins with
  | .mov d b => Sys2Proof.Machine.execMov d b st
  | .iadd16 d b => Sys2Proof.Machine.execIadd16 d b st
  | .isub16 d b => Sys2Proof.Machine.execIsub16 d b st
  | .imul16 d b => Sys2Proof.Machine.execImul16 d b st
  | .iand16 d b => Sys2Proof.Machine.execIand16 d b st
  | .ior16 d b => Sys2Proof.Machine.execIor16 d b st
  | .ixor16 d b => Sys2Proof.Machine.execIxor16 d b st
  | .ishl16 d b => Sys2Proof.Machine.execIshl16 d b st
  | .ishr16 d b => Sys2Proof.Machine.execIshr16 d b st
  | .fadd16 d b => Sys2Proof.Machine.execFadd16 d b st
  | .fsub16 d b => Sys2Proof.Machine.execFsub16 d b st
  | .fmul16 d b => Sys2Proof.Machine.execFmul16 d b st
  | .fmax16 d b => Sys2Proof.Machine.execFmax16 d b st
  | .fmin16 d b => Sys2Proof.Machine.execFmin16 d b st
  | .imax16 d b => Sys2Proof.Machine.execImax16 d b st
  | .imin16 d b => Sys2Proof.Machine.execImin16 d b st
  | .iadd w d a p b q => Sys2Proof.Machine.execIadd w d a p b q st
  | .isub w d a p b q => Sys2Proof.Machine.execIsub w d a p b q st
  | .imul w d a p b q => Sys2Proof.Machine.execImul w d a p b q st
  | .imulh w d a p b q => Sys2Proof.Machine.execImulh w d a p b q st
  | .imulhu w d a p b q => Sys2Proof.Machine.execImulhu w d a p b q st
  | .imad w d a p b q => Sys2Proof.Machine.execImad w d a p b q st
  | .iand w d a p b q => Sys2Proof.Machine.execIand w d a p b q st
  | .ior w d a p b q => Sys2Proof.Machine.execIor w d a p b q st
  | .ixor w d a p b q => Sys2Proof.Machine.execIxor w d a p b q st
  | .iandn w d a p b q => Sys2Proof.Machine.execIandn w d a p b q st
  | .ishl w d a p b q => Sys2Proof.Machine.execIshl w d a p b q st
  | .ishr w d a p b q => Sys2Proof.Machine.execIshr w d a p b q st
  | .isra w d a p b q => Sys2Proof.Machine.execIsra w d a p b q st
  | .imin w d a p b q => Sys2Proof.Machine.execImin w d a p b q st
  | .imax w d a p b q => Sys2Proof.Machine.execImax w d a p b q st
  | .umin w d a p b q => Sys2Proof.Machine.execUmin w d a p b q st
  | .umax w d a p b q => Sys2Proof.Machine.execUmax w d a p b q st
  | .iseq w d a p b q => Sys2Proof.Machine.execIseq w d a p b q st
  | .islt w d a p b q => Sys2Proof.Machine.execIslt w d a p b q st
  | .isltu w d a p b q => Sys2Proof.Machine.execIsltu w d a p b q st
  | .iadd64 w d a p b q => Sys2Proof.Machine.execIadd64 w d a p b q st
  | .isub64 w d a p b q => Sys2Proof.Machine.execIsub64 w d a p b q st
  | .addi w d a p i => Sys2Proof.Machine.execAddi w d a p i st
  | .shli w d a p i => Sys2Proof.Machine.execShli w d a p i st
  | .shri w d a p i => Sys2Proof.Machine.execShri w d a p i st
  | .srai w d a p i => Sys2Proof.Machine.execSrai w d a p i st
  | .andi w d a p i => Sys2Proof.Machine.execAndi w d a p i st
  | .fadd w d a p b q => Sys2Proof.Machine.execFadd w d a p b q st
  | .fsub w d a p b q => Sys2Proof.Machine.execFsub w d a p b q st
  | .fmul w d a p b q => Sys2Proof.Machine.execFmul w d a p b q st
  | .fma w d a p b q => Sys2Proof.Machine.execFma w d a p b q st
  | .fmin w d a p b q => Sys2Proof.Machine.execFmin w d a p b q st
  | .fmax w d a p b q => Sys2Proof.Machine.execFmax w d a p b q st
  | .fseq w d a p b q => Sys2Proof.Machine.execFseq w d a p b q st
  | .fslt w d a p b q => Sys2Proof.Machine.execFslt w d a p b q st
  | .fsle w d a p b q => Sys2Proof.Machine.execFsle w d a p b q st
  | .sel w d a p b q => Sys2Proof.Machine.execSel w d a p b q st
  | .rcp w d a p => Sys2Proof.Machine.execRcp w d a p st
  | .rsq w d a p => Sys2Proof.Machine.execRsq w d a p st
  | .sqrt w d a p => Sys2Proof.Machine.execSqrt w d a p st
  | .exp2 w d a p => Sys2Proof.Machine.execExp2 w d a p st
  | .log2 w d a p => Sys2Proof.Machine.execLog2 w d a p st
  | .sin2pi w d a p => Sys2Proof.Machine.execSin2pi w d a p st
  | .cos2pi w d a p => Sys2Proof.Machine.execCos2pi w d a p st
  | .tanh w d a p => Sys2Proof.Machine.execTanh w d a p st
  | .fabs w d a p => Sys2Proof.Machine.execFabs w d a p st
  | .fneg w d a p => Sys2Proof.Machine.execFneg w d a p st
  | .cvtif w d a p => Sys2Proof.Machine.execCvtif w d a p st
  | .cvtuf w d a p => Sys2Proof.Machine.execCvtuf w d a p st
  | .cvtfi w d a p => Sys2Proof.Machine.execCvtfi w d a p st
  | .cvtfu w d a p => Sys2Proof.Machine.execCvtfu w d a p st
  | .cvtfir w d a p => Sys2Proof.Machine.execCvtfir w d a p st
  | .frint w d a p => Sys2Proof.Machine.execFrint w d a p st
  | .ffloor w d a p => Sys2Proof.Machine.execFfloor w d a p st
  | .ftrunc w d a p => Sys2Proof.Machine.execFtrunc w d a p st
  | .clz w d a p => Sys2Proof.Machine.execClz w d a p st
  | .popc w d a p => Sys2Proof.Machine.execPopc w d a p st
  | .brev w d a p => Sys2Proof.Machine.execBrev w d a p st
  | .rnd w d a p i => Sys2Proof.Machine.execRnd w d a p i st
  | .perm w d a p b q => Sys2Proof.Machine.execPerm w d a p b q st
  | .xredIadd d a p => Sys2Proof.Machine.execXredIadd d a p st
  | .xredImin d a p => Sys2Proof.Machine.execXredImin d a p st
  | .xredImax d a p => Sys2Proof.Machine.execXredImax d a p st
  | .xredUmin d a p => Sys2Proof.Machine.execXredUmin d a p st
  | .xredUmax d a p => Sys2Proof.Machine.execXredUmax d a p st
  | .xredIand d a p => Sys2Proof.Machine.execXredIand d a p st
  | .xredIor d a p => Sys2Proof.Machine.execXredIor d a p st
  | .xredIxor d a p => Sys2Proof.Machine.execXredIxor d a p st
  | .xredFadd d a p => Sys2Proof.Machine.execXredFadd d a p st
  | .xredFmin d a p => Sys2Proof.Machine.execXredFmin d a p st
  | .xredFmax d a p => Sys2Proof.Machine.execXredFmax d a p st
  | .xredIscan d a p => Sys2Proof.Machine.execXredIscan d a p st
  | .xredIscanx d a p => Sys2Proof.Machine.execXredIscanx d a p st
  | .xredFscan d a p => Sys2Proof.Machine.execXredFscan d a p st
  | .xredFscanx d a p => Sys2Proof.Machine.execXredFscanx d a p st
  | .laneIndex d => Sys2Proof.Machine.execLaneIndex d st
  | .laneDie d => Sys2Proof.Machine.execLaneDie d st
  | .laneGcore d => Sys2Proof.Machine.execLaneGcore d st
  | .laneHome d a p => Sys2Proof.Machine.execLaneHome d a p st
  | .movi d i => Sys2Proof.Machine.execMovi d i st
  | .movhi d i => Sys2Proof.Machine.execMovhi d i st
  | .dset w d a p b q => Sys2Proof.Machine.execDset w d a p b q st
  | .dmean w d a p => Sys2Proof.Machine.execDmean w d a p st
  | .dvar w d a p => Sys2Proof.Machine.execDvar w d a p st
  | .dvarU w d a p => Sys2Proof.Machine.execDvarU w d a p st
  | .dstd w d a p => Sys2Proof.Machine.execDstd w d a p st
  | .dstdU w d a p => Sys2Proof.Machine.execDstdU w d a p st
  | .dscale w d a p b q => Sys2Proof.Machine.execDscale w d a p b q st
  | .dtagNew w d a p => Sys2Proof.Machine.execDtagNew w d a p st
  | .dtagRead d => Sys2Proof.Machine.execDtagRead d st
  | .dtagReset => Sys2Proof.Machine.execDtagReset st
  | .dfoldT w d a p => Sys2Proof.Machine.execDfoldT w d a p st
  | .dfoldM w d a p => Sys2Proof.Machine.execDfoldM w d a p st
  | .dfoldL w d a p => Sys2Proof.Machine.execDfoldL w d a p st
  | .dcov w d a p b q => Sys2Proof.Machine.execDcov w d a p b q st
  | .dtos w d a p => Sys2Proof.Machine.execDtos w d a p st
  | .dtosL w d a p => Sys2Proof.Machine.execDtosL w d a p st
  | .stod w d a p b q => Sys2Proof.Machine.execStod w d a p b q st
  | .dclamp w d a p b q => Sys2Proof.Machine.execDclamp w d a p b q st
  | .dfuse w d a p b q => Sys2Proof.Machine.execDfuse w d a p b q st
  | .ldb w d a q o => Sys2Proof.Machine.execLdb w d a q o st
  | .ldh w d a q o => Sys2Proof.Machine.execLdh w d a q o st
  | .ldw w d a q o => Sys2Proof.Machine.execLdw w d a q o st
  | .ldd w d a q o => Sys2Proof.Machine.execLdd w d a q o st
  | .stb w d a q o => Sys2Proof.Machine.execStb w d a q o st
  | .sth w d a q o => Sys2Proof.Machine.execSth w d a q o st
  | .stw w d a q o => Sys2Proof.Machine.execStw w d a q o st
  | .std w d a q o => Sys2Proof.Machine.execStd w d a q o st
  | .astoIadd w d a o => Sys2Proof.Machine.execAstoIadd w d a o st
  | .astoFadd w d a o => Sys2Proof.Machine.execAstoFadd w d a o st
  | .astoFaddR w d a o => Sys2Proof.Machine.execAstoFaddR w d a o st
  | .astoImin w d a o => Sys2Proof.Machine.execAstoImin w d a o st
  | .astoImax w d a o => Sys2Proof.Machine.execAstoImax w d a o st
  | .astoFmin w d a o => Sys2Proof.Machine.execAstoFmin w d a o st
  | .astoFmax w d a o => Sys2Proof.Machine.execAstoFmax w d a o st
  | .astoIor w d a o => Sys2Proof.Machine.execAstoIor w d a o st
  | .fence s0 k => Sys2Proof.Machine.execFence s0 k st
  | .pref a l o => Sys2Proof.Machine.execPref a l o st
  | .spill w d a o => Sys2Proof.Machine.execSpill w d a o st
  | .fill w d a o => Sys2Proof.Machine.execFill w d a o st
  | .spillp w d a o => Sys2Proof.Machine.execSpillp w d a o st
  | .fillp w d a o => Sys2Proof.Machine.execFillp w d a o st
  | .rngKey n a b => Sys2Proof.Machine.execRngKey n a b st
  | .rngKeyLo d n => Sys2Proof.Machine.execRngKeyLo d n st
  | .rngKeyHi d n => Sys2Proof.Machine.execRngKeyHi d n st
  | .rngU w d a p n o => Sys2Proof.Machine.execRngU w d a p n o st
  | .rngG w d a p n o => Sys2Proof.Machine.execRngG w d a p n o st
  | .rngB w d a p n o => Sys2Proof.Machine.execRngB w d a p n o st
  | .rngD w d a p n o => Sys2Proof.Machine.execRngD w d a p n o st
  | .rngC d a p n o => Sys2Proof.Machine.execRngC d a p n o st
  | .srnd w d a p n c => Sys2Proof.Machine.execSrnd w d a p n c st
  | .rngPos n a => Sys2Proof.Machine.execRngPos n a st
  | .rngPosAdd n a => Sys2Proof.Machine.execRngPosAdd n a st
  | .rngPosRd d n => Sys2Proof.Machine.execRngPosRd d n st
  | .cpyGo a => Sys2Proof.Machine.execCpyGo a st
  | .cpyFence => Sys2Proof.Machine.execCpyFence st
  | .cpyCancel a => Sys2Proof.Machine.execCpyCancel a st
  | .selGo a => Sys2Proof.Machine.execSelGo a st
  | .selMerge a => Sys2Proof.Machine.execSelMerge a st
  | .tilePin a c n => Sys2Proof.Machine.execTilePin a c n st
  | .tileQuery a c => Sys2Proof.Machine.execTileQuery a c st
  | .tilePrefetch a c => Sys2Proof.Machine.execTilePrefetch a c st
  | .tileDrainlog a c => Sys2Proof.Machine.execTileDrainlog a c st
  | .crlPost a b c s0 => Sys2Proof.Machine.execCrlPost a b c s0 st
  | .mma n t x y => Sys2Proof.Machine.execMma n t x y st
  | .dmma n t x y => Sys2Proof.Machine.execDmma n t x y st
  | .mmaqM n t x y => Sys2Proof.Machine.execMmaqM n t x y st
  | .mmaqD n t x y => Sys2Proof.Machine.execMmaqD n t x y st
  | .mfen => Sys2Proof.Machine.execMfen st
  | .mcommit c => Sys2Proof.Machine.execMcommit c st
  | .mwait a => Sys2Proof.Machine.execMwait a st
  | .mdrainRows n t x y => Sys2Proof.Machine.execMdrainRows n t x y st
  | .mdrainAdd n t x y => Sys2Proof.Machine.execMdrainAdd n t x y st
  | .mdrainFolio n t x => Sys2Proof.Machine.execMdrainFolio n t x st
  | .maccZero n t => Sys2Proof.Machine.execMaccZero n t st
  | .maccLoad n t x y => Sys2Proof.Machine.execMaccLoad n t x y st
  | .maccTree n t x => Sys2Proof.Machine.execMaccTree n t x st
  | .maccGov s0 => Sys2Proof.Machine.execMaccGov s0 st
  | .bra o => Sys2Proof.Machine.execBra o st
  | .brz s0 o => Sys2Proof.Machine.execBrz s0 o st
  | .brnz s0 o => Sys2Proof.Machine.execBrnz s0 o st
  | .split d o => Sys2Proof.Machine.execSplit d o st
  | .rcv => Sys2Proof.Machine.execRcv st
  | .kpush o => Sys2Proof.Machine.execKpush o st
  | .call d a => Sys2Proof.Machine.execCall d a st
  | .ret a => Sys2Proof.Machine.execRet a st
  | .jmpr a => Sys2Proof.Machine.execJmpr a st
  | .exit => Sys2Proof.Machine.execExit st
  | .yield => Sys2Proof.Machine.execYield st
  | .nop => Sys2Proof.Machine.execNop st
  | .bkpt => Sys2Proof.Machine.execBkpt st
  | .saluAdd d a b => Sys2Proof.Machine.execSaluAdd d a b st
  | .saluSub d a b => Sys2Proof.Machine.execSaluSub d a b st
  | .saluMul d a b => Sys2Proof.Machine.execSaluMul d a b st
  | .saluMulhu d a b => Sys2Proof.Machine.execSaluMulhu d a b st
  | .saluAnd d a b => Sys2Proof.Machine.execSaluAnd d a b st
  | .saluOr d a b => Sys2Proof.Machine.execSaluOr d a b st
  | .saluXor d a b => Sys2Proof.Machine.execSaluXor d a b st
  | .saluShl d a b => Sys2Proof.Machine.execSaluShl d a b st
  | .saluShr d a b => Sys2Proof.Machine.execSaluShr d a b st
  | .saluSra d a b => Sys2Proof.Machine.execSaluSra d a b st
  | .saluSlt d a b => Sys2Proof.Machine.execSaluSlt d a b st
  | .saluSltu d a b => Sys2Proof.Machine.execSaluSltu d a b st
  | .saluMin d a b => Sys2Proof.Machine.execSaluMin d a b st
  | .saluMax d a b => Sys2Proof.Machine.execSaluMax d a b st
  | .saluMinu d a b => Sys2Proof.Machine.execSaluMinu d a b st
  | .saluMaxu d a b => Sys2Proof.Machine.execSaluMaxu d a b st
  | .saluiAdd d a i => Sys2Proof.Machine.execSaluiAdd d a i st
  | .saluiAnd d a i => Sys2Proof.Machine.execSaluiAnd d a i st
  | .saluiOr d a i => Sys2Proof.Machine.execSaluiOr d a i st
  | .saluiXor d a i => Sys2Proof.Machine.execSaluiXor d a i st
  | .saluiShl d a i => Sys2Proof.Machine.execSaluiShl d a i st
  | .saluiShr d a i => Sys2Proof.Machine.execSaluiShr d a i st
  | .saluiSra d a i => Sys2Proof.Machine.execSaluiSra d a i st
  | .saluiSlt d a i => Sys2Proof.Machine.execSaluiSlt d a i st
  | .saluiSltu d a i => Sys2Proof.Machine.execSaluiSltu d a i st
  | .saluiShor d a i => Sys2Proof.Machine.execSaluiShor d a i st
  | .sfpuAdd d a b => Sys2Proof.Machine.execSfpuAdd d a b st
  | .sfpuSub d a b => Sys2Proof.Machine.execSfpuSub d a b st
  | .sfpuMul d a b => Sys2Proof.Machine.execSfpuMul d a b st
  | .sfpuDiv d a b => Sys2Proof.Machine.execSfpuDiv d a b st
  | .sfpuMin d a b => Sys2Proof.Machine.execSfpuMin d a b st
  | .sfpuMax d a b => Sys2Proof.Machine.execSfpuMax d a b st
  | .sfpuSeq d a b => Sys2Proof.Machine.execSfpuSeq d a b st
  | .sfpuSlt d a b => Sys2Proof.Machine.execSfpuSlt d a b st
  | .sfpuSle d a b => Sys2Proof.Machine.execSfpuSle d a b st
  | .sfpuCvtif d a => Sys2Proof.Machine.execSfpuCvtif d a st
  | .sfpuCvtfi d a => Sys2Proof.Machine.execSfpuCvtfi d a st
  | .sldD d a i => Sys2Proof.Machine.execSldD d a i st
  | .sldW d a i => Sys2Proof.Machine.execSldW d a i st
  | .sldWs d a i => Sys2Proof.Machine.execSldWs d a i st
  | .sstD d a i => Sys2Proof.Machine.execSstD d a i st
  | .sstW d a i => Sys2Proof.Machine.execSstW d a i st
  | .tsrSet n a => Sys2Proof.Machine.execTsrSet n a st
  | .tsrGet d n => Sys2Proof.Machine.execTsrGet d n st
  | .tsrLsw a => Sys2Proof.Machine.execTsrLsw a st
  | .tsrLsr d => Sys2Proof.Machine.execTsrLsr d st
  | .tsrOvr d => Sys2Proof.Machine.execTsrOvr d st
  | .tsrOvc d a => Sys2Proof.Machine.execTsrOvc d a st
  | .tsrFlr d => Sys2Proof.Machine.execTsrFlr d st
  | .tsrFlc d a => Sys2Proof.Machine.execTsrFlc d a st
  | .xps c n k => Sys2Proof.Machine.execXps c n k st
  | .voteAny s0 a p => Sys2Proof.Machine.execVoteAny s0 a p st
  | .voteAll s0 a p => Sys2Proof.Machine.execVoteAll s0 a p st
  | .voteCount s0 a p => Sys2Proof.Machine.execVoteCount s0 a p st
  | .voteFirst s0 a p => Sys2Proof.Machine.execVoteFirst s0 a p st
  | .voteBallot s0 a p k => Sys2Proof.Machine.execVoteBallot s0 a p k st
  | .sbcastD d s0 => Sys2Proof.Machine.execSbcastD d s0 st
  | .sbcastM d s0 => Sys2Proof.Machine.execSbcastM d s0 st
  | .ctrAdd a b c i => Sys2Proof.Machine.execCtrAdd a b c i st
  | .ctrWait a b c i => Sys2Proof.Machine.execCtrWait a b c i st
  | .ctrLoad a c i => Sys2Proof.Machine.execCtrLoad a c i st
  | .bar a n => Sys2Proof.Machine.execBar a n st
  | .sysRd d n => Sys2Proof.Machine.execSysRd d n st
  | .sysWr n a => Sys2Proof.Machine.execSysWr n a st
  | .sysHrd d n => Sys2Proof.Machine.execSysHrd d n st
  | .sysHwr n a => Sys2Proof.Machine.execSysHwr n a st
  | .sysCancel l => Sys2Proof.Machine.execSysCancel l st
  | .trap i => Sys2Proof.Machine.execTrap i st
  | .svcVersion => Sys2Proof.Machine.execSvcVersion st
  | .svcPoolmap => Sys2Proof.Machine.execSvcPoolmap st
  | .svcPoolcount => Sys2Proof.Machine.execSvcPoolcount st
  | .svcPrefetch => Sys2Proof.Machine.execSvcPrefetch st
  | .svcUnknown n => Sys2Proof.Machine.execSvcUnknown n st
  | .rte => Sys2Proof.Machine.execRte st
  | .kregRd d n => Sys2Proof.Machine.execKregRd d n st
  | .kregWr n a => Sys2Proof.Machine.execKregWr n a st
  | .kregAdd d n b => Sys2Proof.Machine.execKregAdd d n b st
  | .clause w a b m c => Sys2Proof.Machine.execClause w a b m c st
  | .halt => Sys2Proof.Machine.execHalt st
  | .cmovh i d => Sys2Proof.Machine.execCmovh i d st
  | .corl i d => Sys2Proof.Machine.execCorl i d st
  | .carillonFadd b a d => Sys2Proof.Machine.execCarillonFadd b a d st
  | .carillonFsub b a d => Sys2Proof.Machine.execCarillonFsub b a d st
  | .carillonFmul b a d => Sys2Proof.Machine.execCarillonFmul b a d st
  | .carillonFdiv b a d => Sys2Proof.Machine.execCarillonFdiv b a d st
  | .cget x a d => Sys2Proof.Machine.execCget x a d st
  | .cscale a => Sys2Proof.Machine.execCscale a st
  | .cpen x a => Sys2Proof.Machine.execCpen x a st
  | .ctopk x => Sys2Proof.Machine.execCtopk x st
  | .ctopp a => Sys2Proof.Machine.execCtopp a st
  | .cexp d => Sys2Proof.Machine.execCexp d st
  | .cnorm d => Sys2Proof.Machine.execCnorm d st
  | .cpsum => Sys2Proof.Machine.execCpsum st
  | .nset x n a => Sys2Proof.Machine.execNset x n a st
  | .rngu n d => Sys2Proof.Machine.execRngu n d st
  | .cdraw n d => Sys2Proof.Machine.execCdraw n d st
  | .cacc n b a d => Sys2Proof.Machine.execCacc n b a d st
  | .br x c a => Sys2Proof.Machine.execBr x c a st
  | .waitc x => Sys2Proof.Machine.execWaitc x st
  | .emit s0 l a => Sys2Proof.Machine.execEmit s0 l a st
  | .clauseWaitRelease frag => Sys2Proof.Machine.execClauseWaitRelease frag st
  | .loadDataReturn op => Sys2Proof.Machine.execLoadDataReturn op st
  | .waitFullRead op => Sys2Proof.Machine.execWaitFullRead op st
  | .storeTaken op => Sys2Proof.Machine.execStoreTaken op st
  | .noiseResult op => Sys2Proof.Machine.execNoiseResult op st
  | .ctrAddResult op => Sys2Proof.Machine.execCtrAddResult op st
  | .ctrWaitReturn op => Sys2Proof.Machine.execCtrWaitReturn op st
  | .ctrLoadResult op => Sys2Proof.Machine.execCtrLoadResult op st
  | .barRelease frag => Sys2Proof.Machine.execBarRelease frag st
  | .fenceComplete op => Sys2Proof.Machine.execFenceComplete op st
  | .svcReturn frag => Sys2Proof.Machine.execSvcReturn frag st
  | .astoApply op => Sys2Proof.Machine.execAstoApply op st
  | .drainAddApply op => Sys2Proof.Machine.execDrainAddApply op st
  | .matrixOpComplete op => Sys2Proof.Machine.execMatrixOpComplete op st
  | .mmaqJoin unit quad => Sys2Proof.Machine.execMmaqJoin unit quad st
  | .maccTreeJoin unit => Sys2Proof.Machine.execMaccTreeJoin unit st
  | .governorWindow cluster => Sys2Proof.Machine.execGovernorWindow cluster st
  | .quireComplete op => Sys2Proof.Machine.execQuireComplete op st
  | .cpyFenceComplete op => Sys2Proof.Machine.execCpyFenceComplete op st
  | .selectionPartialList op stack => Sys2Proof.Machine.execSelectionPartialList op stack st
  | .selectionComplete op => Sys2Proof.Machine.execSelectionComplete op st
  | .candidateDelivery op => Sys2Proof.Machine.execCandidateDelivery op st
  | .carillonWake ctx => Sys2Proof.Machine.execCarillonWake ctx st
  | .carillonSuspend ctx => Sys2Proof.Machine.execCarillonSuspend ctx st
  | .carillonResume ctx => Sys2Proof.Machine.execCarillonResume ctx st
  | .logAppend op => Sys2Proof.Machine.execLogAppend op st
  | .tileFrameObtained tile => Sys2Proof.Machine.execTileFrameObtained tile st
  | .tileArrivalFailed tile status => Sys2Proof.Machine.execTileArrivalFailed tile status st
  | .phaseLogArrival phase => Sys2Proof.Machine.execPhaseLogArrival phase st
  | .faultRecordPost ctx => Sys2Proof.Machine.execFaultRecordPost ctx st
  | .faultRingHeadPoll ctx => Sys2Proof.Machine.execFaultRingHeadPoll ctx st
  | .poolRefill ctx die => Sys2Proof.Machine.execPoolRefill ctx die st
  | .mergeRewalk entry => Sys2Proof.Machine.execMergeRewalk entry st
  | .shootdown sd agent => Sys2Proof.Machine.execShootdown sd agent st
  | .shootdownAgentAdd sd agent => Sys2Proof.Machine.execShootdownAgentAdd sd agent st
  | .unitPlacement launch => Sys2Proof.Machine.execUnitPlacement launch st
  | .unitFinish unit => Sys2Proof.Machine.execUnitFinish unit st
  | .phaseEnd phase => Sys2Proof.Machine.execPhaseEnd phase st
  | .preemptHalt ctx => Sys2Proof.Machine.execPreemptHalt ctx st
  | .preemptSave ctx => Sys2Proof.Machine.execPreemptSave ctx st
  | .preemptSwapDone ctx => Sys2Proof.Machine.execPreemptSwapDone ctx st
  | .restore ctx => Sys2Proof.Machine.execRestore ctx st
  | .restoreDone ctx => Sys2Proof.Machine.execRestoreDone ctx st
  | .descriptorTake ring => Sys2Proof.Machine.execDescriptorTake ring st
  | .fabricStore m => Sys2Proof.Machine.execFabricStore m st
  | .fabricAsto m => Sys2Proof.Machine.execFabricAsto m st
  | .fabricCtradd m => Sys2Proof.Machine.execFabricCtradd m st
  | .descriptorAck ring i cause remote => Sys2Proof.Machine.execDescriptorAck ring i cause remote st
  | .linkRetryExpiry port => Sys2Proof.Machine.execLinkRetryExpiry port st
  | .sequenceSteal thief entry => Sys2Proof.Machine.execSequenceSteal thief entry st
  | .chipSteal die entry => Sys2Proof.Machine.execChipSteal die entry st
  | .stealStateInstall m => Sys2Proof.Machine.execStealStateInstall m st
  | .stealAck id => Sys2Proof.Machine.execStealAck id st
  | .queueDoorbell queue tail => Sys2Proof.Machine.execQueueDoorbell queue tail st
  | .admdb tail => Sys2Proof.Machine.execAdmdb tail st
  | .registerWrite offset value => Sys2Proof.Machine.execRegisterWrite offset value st
  | .ctxCreate c => Sys2Proof.Machine.execCtxCreate c st
  | .ctxDestroy c => Sys2Proof.Machine.execCtxDestroy c st
  | .queueCreate c => Sys2Proof.Machine.execQueueCreate c st
  | .queueDestroy c => Sys2Proof.Machine.execQueueDestroy c st
  | .memMap c => Sys2Proof.Machine.execMemMap c st
  | .memUnmap c => Sys2Proof.Machine.execMemUnmap c st
  | .memProtect c => Sys2Proof.Machine.execMemProtect c st
  | .tileEvict c => Sys2Proof.Machine.execTileEvict c st
  | .faultReply c => Sys2Proof.Machine.execFaultReply c st
  | .bufDeclare c => Sys2Proof.Machine.execBufDeclare c st
  | .launch c => Sys2Proof.Machine.execLaunch c st
  | .graphBegin c => Sys2Proof.Machine.execGraphBegin c st
  | .graphEnd c => Sys2Proof.Machine.execGraphEnd c st
  | .graphReplay c => Sys2Proof.Machine.execGraphReplay c st
  | .phaseOpen c => Sys2Proof.Machine.execPhaseOpen c st
  | .phaseClose c => Sys2Proof.Machine.execPhaseClose c st
  | .cancel c => Sys2Proof.Machine.execCancel c st
  | .crlBind c => Sys2Proof.Machine.execCrlBind c st
  | .crlFree c => Sys2Proof.Machine.execCrlFree c st
  | .crlLoad c => Sys2Proof.Machine.execCrlLoad c st
  | .crlRestart c => Sys2Proof.Machine.execCrlRestart c st
  | .batchUpdate c => Sys2Proof.Machine.execBatchUpdate c st
  | .batchIter c => Sys2Proof.Machine.execBatchIter c st
  | .signal c => Sys2Proof.Machine.execSignal c st
  | .unknownCommand c => Sys2Proof.Machine.execUnknownCommand c st
  | .hostBar2Access offset data => Sys2Proof.Machine.execHostBar2Access offset data st
  | .bootImageWrite offset data => Sys2Proof.Machine.execBootImageWrite offset data st
  | .bootstatGo => Sys2Proof.Machine.execBootstatGo st
  | .reset => Sys2Proof.Machine.execReset st
  | .thermalTrip => Sys2Proof.Machine.execThermalTrip st
  | .governorBudgetUpdate cluster budget => Sys2Proof.Machine.execGovernorBudgetUpdate cluster budget st
  | .attestationRequest ctx nonce => Sys2Proof.Machine.execAttestationRequest ctx nonce st
  | .tstop value => Sys2Proof.Machine.execTstop value st
  | .tstopExpiry => Sys2Proof.Machine.execTstopExpiry st
  | .debugRelease => Sys2Proof.Machine.execDebugRelease st
  | .stopcl cluster => Sys2Proof.Machine.execStopcl cluster st
  | .clusterStopArrival core => Sys2Proof.Machine.execClusterStopArrival core st
  | .step core tslot lane => Sys2Proof.Machine.execStep core tslot lane st
  | .stepBlocked core tslot lane => Sys2Proof.Machine.execStepBlocked core tslot lane st
  | .resume cluster => Sys2Proof.Machine.execResume cluster st
  | .colophonCounterAdd launch => Sys2Proof.Machine.execColophonCounterAdd launch st
  | .illegalInstruction word => Sys2Proof.Machine.execIllegalInstruction word st
  | .fetchFault f => Sys2Proof.Machine.execFetchFault f st
  | .illegalOp word => Sys2Proof.Machine.execIllegalOp word st
  | .pcRange => Sys2Proof.Machine.execPcRange st
  | .powerLoss skip => Sys2Proof.Machine.execPowerLoss skip st

end Sys2Proof.Machine
end

