-- ==== Sys2Proof/Machine/Schedule.lean ====
section
/-! DEFINITION. What the machine can do next: the pass a core issues (R62, R74, R75, R101, R102), the microinstruction a Carillon
context runs, the command a queue starts, the events that are due, and what comes from outside. -/

noncomputable section

namespace Sys2Proof.Machine

/-! ### Fetching an instruction (R60 to R63, R74, R75, R83) -/

/-- The halfwords of the instruction at a fragment's PC as one word, or why they could not be fetched (R61 to R63): of a 32-bit
instruction whose second halfword lies past 2^64 − 1, the offending address is its own (DESIGN CHOICE, notes/assumptions/82.md). -/
def fetchWord (t : Team) (u : UnitSt) (pc : DWord) (s : State) : Except FetchFault Nat × State :=
  let (x, s) := fetchHalf t u pc s
  match x with
  | .fault e => (.error e, s)
  | .half h =>
    if h % 2 = 0 then (.ok h, s)
    else if 2 ^ 64 ≤ pc.toNat + 2 then (.error (.target pc), s)
    else
      let (y, s) := fetchHalf t u (pc + 2) s
      match y with
      | .fault e => (.error e, s)
      | .half k => (.ok (h + 2 ^ 16 * k), s)

/-- The instruction that a word stands for, if any. -/
def wordInstr (w : Nat) : Option Instr := (if w % 2 = 0 then decode16 w else decode32 w).toOption

/-- The instruction is a clause header. -/
def isHeader : Instr → Bool
  | .clause _ _ _ _ _ => true
  | _ => false

/-- The last halfword of an instruction lies within 128 halfwords of its clause's header (R74). -/
def inClause (f : Frag) (len : Nat) : Bool := decide (((f.pc - f.clause.hdr).toNat + len) ≤ 256)

/-- What a fragment whose PC holds a word executes: the instruction; ILLEGAL-TARGET where a transfer has reached another
instruction than a header (R75); ILLEGAL-INSTRUCTION for a word that is none (R83), a header with a bad field among them (R73), or
that lies outside its clause (R74). -/
def instrOf (f : Frag) (w : Nat) : Instr :=
  match wordInstr w with
  | none => .illegalInstruction (BitVec.ofNat 32 w)
  | some i =>
    if isHeader i then i
    else if f.xfer.isSome then .fetchFault (.noHeader f.pc)
    else if inClause f (lengthOf w) then i
    else .illegalInstruction (BitVec.ofNat 32 w)

/-- The instruction of fragment i, latched: between its passes it is not fetched again (R93). An address outside 0 to 2^64 − 1 is no
fetchable one (R63, R68). -/
def fetchInstr (i : Nat) (f : Frag) (t : Team) (u : UnitSt) (s : State) : Instr × State :=
  if f.mid then (instrOf f f.iword.toNat, s)
  else if f.beyond then (.fetchFault (.target f.pc), s)
  else match fetchWord t u f.pc s with
    | (.error e, s) => (.fetchFault e, s)
    | (.ok w, s) => (instrOf f w, modFrag i (fun f => { f with iword := BitVec.ofNat 32 w }) s)

/-- Fragment i issues: its next instruction, or the next pass of it. -/
def issue (i : Nat) (s : State) : Out :=
  match amGet i s.frags with
  | none => .next s
  | some f => match amGet f.team s.teams with
    | none => .next s
    | some t => match amGet t.unit s.units with
      | none => .next s
      | some u =>
        let (ins, s) := fetchInstr i f t u s
        exec ins { s with cur := some i }

/-! ### The choice of a fragment (R101, R102) -/

/-- The fragment goes on, as far as its core and its engine are not concerned (R41, R101, R122, R124, R130, R131, R393). -/
def goesOn (s : State) (f : Frag) (t : Team) : Bool :=
  f.wait == .run && f.deferred.isEmpty && !t.stop && decide (f.key ≤ s.toll) && !haltedFrag s f && !debugHeld s f t && !teamFenced s f.team

/-- The fragment can issue, as far as its engine is not concerned (R101). -/
def issuable (s : State) (f : Frag) : Bool :=
  match amGet f.team s.teams with
  | none => false
  | some t => goesOn s f t && decide ((amGet t.gcore s.issued).getD 0 ≤ s.toll)

/-- The fragment stands at a clause header, which it evaluates when it reaches it, with no issue cycle (R76). -/
def atHeader (s : State) (i : Nat) (f : Frag) : Bool :=
  match amGet f.team s.teams with
  | none => false
  | some t => match amGet t.unit s.units with
    | none => false
    | some u => goesOn s f t && !f.mid && isHeader (fetchInstr i f t u s).1

/-- A fragment that has reached a clause header. -/
def headerFrag (s : State) : Option Nat := (s.frags.find? (fun e => atHeader s e.1 e.2)).map Prod.fst

/-- The first fragment goes before the second (R102): passes outstanding, then handlers, then the earlier key, then the lower
TSLOT, then the lower first lane. -/
def goesBefore (s : State) (a b : Nat × Frag) : Bool :=
  let slot (f : Frag) : Nat := match amGet f.team s.teams with | some t => t.tslot | none => 0
  let rank (f : Frag) : List Nat := [b2n !f.mid, b2n !f.handler, f.key, slot f, lowestLane f.mask]
  decide (rank a.2 ≤ rank b.2)

/-- The issuable fragments of a core, in the order of R102; one with passes outstanding shuts the others out (R93). -/
def coreQueue (s : State) (core : Nat) : List (Nat × Frag) :=
  let all := s.frags.filter (fun e => (match amGet e.2.team s.teams with | some t => decide (t.gcore = core) | none => false) && issuable s e.2)
  match all.filter (fun e => e.2.mid) with
  | [] => sortBy (goesBefore s) all
  | m :: _ => [m]

/-! ### Work weight (R16, R375) -/

/-- A phase that has not ended. -/
def openPhase (s : State) (ph : Option Nat) : Bool := match ph with | some n => (amGet n s.phases).isSome | none => false

/-- An operation that holds work has given its weight away for good: a delivery to its context (R359). -/
def OpBody.handedOn : OpBody → Bool
  | .select x => decide (2 ≤ x.stage)
  | .post _ _ _ _ _ _ reached => reached.isSome
  | _ => false

/-- How many holders of outstanding work of a phase hold no share of its weight. -/
def unpaid (s : State) : Nat :=
  (s.ops.filter (fun o => o.2.weight == 0 && !o.2.body.weightless && !o.2.body.handedOn && openPhase s o.2.phase)).length +
  (s.units.filter (fun u => u.2.weight == 0 && openPhase s (phaseOf s u.1))).length +
  (s.launches.filter (fun l => l.2.weight == 0 && !l.2.done && openPhase s l.2.phase)).length +
  (s.queues.filter (fun q => q.2.weight == 0 && q.2.graph.isSome && openPhase s q.2.phase)).length +
  ((s.crls.flatMap (fun c => c.2.weight)).filter (fun w => w.2 == 0)).length +
  ((s.rings.flatMap (fun r => r.2.held)).filter (fun h => h.2.2 == 0)).length +
  ((s.tiles.flatMap (fun t => t.2.entries.flatMap (fun e => e.weight) ++ t.2.held.flatMap (fun h => h.weight))).filter (fun w => w.2 == 0)).length

/-- What a step would do spawns work that its phase's root has no share for: it waits until weight returns (R375). A root that holds
2^40 units can pay whatever one step spawns. -/
def unpaidBy (s : State) : Out → Bool
  | .next s' => s.phases.any (fun p => decide (p.2.root < 2 ^ 40)) && decide (unpaid s < unpaid s')
  | _ => false

/-- The engine that takes the fragment's instruction cannot accept it now (R101), and the fragment would stay as it is; or the work that
it spawns has no weight yet (R375). -/
def stalled (s : State) (i : Nat) : Bool :=
  let view (s : State) : Option Frag := (amGet i s.frags).map (fun f => { f with iword := 0 })
  let core (s : State) : List Nat := match (amGet i s.frags).bind (fun f => amGet f.team s.teams) with
    | some t => [t.gcore, (amGet t.gcore s.issued).getD 0]
    | none => []
  match issue i s with
  | .next s' => view s' == view s && core s' == core s || unpaidBy s (.next s')
  | _ => false

/-- The cores that hold fragments. -/
def busyCores (s : State) : List Nat := ((s.frags.filterMap (fun e => (amGet e.2.team s.teams).map (fun t => t.gcore))).eraseDups)

/-- The fragment's KREG write would follow, at one tick, that of a team with a higher index (R106, R118): it has landed before it. -/
def kregLate (s : State) (i : Nat) (f : Frag) : Bool :=
  match amGet f.team s.teams with
  | none => false
  | some t => match amGet t.unit s.units with
    | none => false
    | some u => decide (u.kLast.1 = s.toll) && decide (t.idx < u.kLast.2) && match (fetchInstr i f t u s).1 with
      | .kregWr _ _ => true
      | .kregAdd _ _ _ => true
      | _ => false

/-- The fragment whose pass a core issues next. -/
def coreChoice (s : State) (core : Nat) : Option Nat :=
  match (coreQueue s core).find? (fun e => !stalled s e.1) with
  | none => none
  | some e => if kregLate s e.1 e.2 then none else some e.1

/-! ### The Carillon's contexts (R346, R354) -/

/-- The microinstruction that a running context fetches; past its program's end, PC-RANGE. -/
def microInstr (s : State) (n : Nat) (c : Crl) : Instr :=
  match (smGet [] (n / 4096 * 16 + c.prog) s.progs)[c.pc]? with
  | none => .pcRange
  | some w => match decodeCarillon w.toNat with
    | .ok i => i
    | .error _ => .illegalOp w

/-- Context n runs one microinstruction. -/
def runMicro (n : Nat) (s : State) : Out :=
  match amGet n s.crls with
  | none => .next s
  | some c => exec (microInstr s n c) { s with curCrl := some n }

/-! ### Commands (R365, R366) -/

/-- The command that an entry holds. -/
def commandInstr (c : Command) : Instr :=
  match c.op.toNat with
  | 0x01 => .ctxCreate c
  | 0x02 => .ctxDestroy c
  | 0x03 => .queueCreate c
  | 0x04 => .queueDestroy c
  | 0x10 => .memMap c
  | 0x11 => .memUnmap c
  | 0x12 => .memProtect c
  | 0x13 => .tileEvict c
  | 0x14 => .faultReply c
  | 0x18 => .bufDeclare c
  | 0x20 => .launch c
  | 0x21 => .graphBegin c
  | 0x22 => .graphEnd c
  | 0x23 => .graphReplay c
  | 0x30 => .phaseOpen c
  | 0x31 => .phaseClose c
  | 0x32 => .cancel c
  | 0x40 => .crlBind c
  | 0x41 => .crlFree c
  | 0x42 => .crlLoad c
  | 0x43 => .crlRestart c
  | 0x50 => .batchUpdate c
  | 0x51 => .batchIter c
  | 0x7F => .signal c
  | _ => .unknownCommand c

/-- A command in progress may go on, as far as what it waits for tells. -/
def pendingDue (s : State) : Pending → Bool
  | .launch l => (match amGet l s.launches with | some x => x.done | none => true)
  | .shoot sds _ _ => shotDown s sds
  | .split sds => shotDown s sds
  | .replay _ => true
  | .iter _ _ _ _ => true
  | .queue _ => true
  | .context _ => true
  | .splitting _ => true
  | .status _ _ => true

/-- The commands of a queue that can go on or start. -/
def queueEvents (s : State) (qn : Nat) (q : Queue) : List Instr :=
  if isMerged s (.agent qn) then []
  else
    ((q.running.filter (fun x => pendingDue s x.2)).map (fun x => commandInstr x.1)) ++
    (match nextCommand s qn q with
     | some c => if inOrder q c && !stillWaits s c q then [commandInstr c] else []
     | none => [])

/-! ### Events that are due -/

/-- What can happen to an operation in flight. -/
def opEvents (s : State) (n : Nat) (o : Op) : List Instr :=
  let saved := savedCtx s o.ctx
  match o.body with
  | .select x =>
    if x.stage = 2 then [.candidateDelivery n]
    else .selectionComplete n :: (if x.stage = 1 && !x.merge then
      ((upFrom 0 16).filter (fun k => (amGet k x.parts).isNone)).map (fun k => Instr.selectionPartialList n k) else [])
  | b =>
    if isMerged s (.op n) then []
    else match b with
    | .results _ => [.loadDataReturn n]
    | .noise _ _ => [.noiseResult n]
    | .waitFull ls es => (if ls.isEmpty || saved then [] else [.waitFullRead n]) ++ (if es.isEmpty && !ls.isEmpty then [] else [.loadDataReturn n])
    | .behind _ _ => if saved then [] else [.waitFullRead n]
    | .taking => [.storeTaken n]
    | .adds [] => [.astoApply n]
    | .adds (e :: _) => if addReady s o.team n e then [.astoApply n] else []
    | .ctrAdd .. => if saved then [] else [.ctrAddResult n]
    | .overflow _ _ _ m h => if saved || overflowPlace s o m h == 0 then [] else [.ctrAddResult n]
    | .service _ => []
    | .ctrWait .. => if saved then [] else [.ctrWaitReturn n]
    | .ctrLoad .. => [.ctrLoadResult n]
    | .append _ _ => [.logAppend n]
    | .fence _ _ => if saved then [] else [.fenceComplete n]
    | .matrix _ => [.matrixOpComplete n]
    | .partner m _ => if saved then [] else if m.kind = 9 then [.maccTreeJoin o.unit] else [.mmaqJoin o.unit (o.gcore % 16 / 4)]
    | .drainAdd _ => [.drainAddApply n]
    | .mfen => [.matrixOpComplete n]
    | .commit _ es => if es.isEmpty then [.matrixOpComplete n] else [.loadDataReturn n]
    | .mwait _ => [.matrixOpComplete n]
    | .quire _ => [.quireComplete n]
    | .cpyFence => [.cpyFenceComplete n]
    | .cpyCancel _ => []
    | .post .. => [.candidateDelivery n]
    | .tile k _ _ _ es => (if k < 8 then [.logAppend n] else []) ++ (if es.isEmpty then [] else [.loadDataReturn n])
    | .doorbell _ _ => []
    | .select _ => []

/-- What can happen to a fragment that waits. -/
def fragEvents (s : State) (i : Nat) (f : Frag) : List Instr :=
  match amGet f.team s.teams with
  | none => []
  | some t =>
    let saved := match ctxOfTeam s f.team with | some c => savedCtx s c | none => false
    (match f.wait with
     | .header w (some k) => if headerClear s f.team w && decide (k < s.toll) && !saved then [.clauseWaitRelease i] else []
     | .bar .. => if saved then [] else [.barRelease i]
     | .svc .. => if saved then [] else [.svcReturn i]
     | _ => []) ++
    (match f.stepping with
     | some k => if (f.wait != .run || f.frozen) && decide (k + 65536 ≤ s.toll) then [.stepBlocked t.gcore t.tslot (lowestLane f.mask)] else []
     | none => [])

/-- The events of a list whose conditions hold. -/
def dueOf (l : List (Bool × Instr)) : List Instr := (l.filter (fun x => x.1)).map Prod.snd

/-- What can happen to a context: its pre-emption, its pools and its fault records. -/
def contextEvents (s : State) (n : Nat) (c : Context) : List Instr :=
  dueOf
    [(c.pre == 1 && preQuiet s n, .preemptSave n),
     (c.pre == 2 && decide (c.preTick + 4000 ≤ s.toll), .preemptSwapDone n),
     (c.pre == 4 && decide (c.preTick + 4000 ≤ s.toll), .restoreDone n),
     (!c.heldRecords.isEmpty, .faultRingHeadPoll n),
     (c.refill0 && !poolRefused s c 0, .poolRefill n 0),
     (c.refill1 && !poolRefused s c 1, .poolRefill n 1),
     (s.merge.any (fun e => wantsRecord n e.2) || s.tiles.any (wantsArrival s n), .faultRecordPost n)]

/-- What can happen to a merge entry. -/
def mergeEvents (n : Nat) (e : MergeEntry) : List Instr :=
  if e.released.isSome || (entryType e.leaf == 3 && !entryBit e.leaf 10 && (e.byEngine || (e.toucher.isNone && !e.waiters.isEmpty)))
  then [.mergeRewalk n] else []

/-- What can happen to a tile that arrives. -/
def tileEvents (s : State) (n : Nat) (t : Tile) : List Instr :=
  if t.state ≠ .arriving then []
  else match t.failed, t.frame with
    | some st, _ => [.tileArrivalFailed n (BitVec.ofNat 8 st)]
    | none, some _ => [.tileFrameObtained n]
    | none, none => if entryType t.leaf = 3 then
        (match takeFrame t.ctx (homeDie t.leaf false t.va.toNat) (t.now s) s with
         | .got .. => [.tileFrameObtained n]
         | .refused => [.tileArrivalFailed n 1]
         | .later => []) else []

/-- The arrival of a tile may be started for a phase's end (R317): after a failed one again (R313), but for a tile that the pool would
refuse a frame as before. -/
def mayArrive (s : State) (t : Tile) : Bool :=
  t.state == .absent && (!t.missed || entryType t.leaf != 3 || (match takeFrame t.ctx (homeDie t.leaf false t.va.toNat) (t.now s) s with
    | .refused => false
    | _ => true))

/-- What can happen to a phase. -/
def phaseEvents (s : State) (n : Nat) (p : Phase) : List Instr :=
  if p.root = 2 ^ 48 then (if !p.closed || isMerged s (.agent (waitPhase n)) then [] else [.phaseEnd n])
  else if s.tiles.any (fun t => mayArrive s t.2 && t.2.entries.any (fun e => e.weight.any (fun w => w.1 == n))) then [.phaseLogArrival n]
  else []

/-- What can happen to a shootdown. -/
def shootEvents (s : State) (n : Nat) (d : Shootdown) : List Instr :=
  ((upFrom 0 98).filter (fun a => !d.reached.contains a)).map (fun a => Instr.shootdown n a) ++
  ((d.reached.filter (fun a => !d.added.contains a && !shootWaits s d a)).map (fun a => Instr.shootdownAgentAdd n a))

/-- The priority of the queue a launch came from. -/
def launchPrio (s : State) (l : Launch) : Nat := match amGet l.queue s.queues with | some q => q.prio | none => 0

/-- What can happen to a launch: of a context's launches that are ready, those of the highest priority are placed first (R365). -/
def launchEvents (s : State) (n : Nat) (l : Launch) : List Instr :=
  (if placeReady s l && !s.launches.any (fun x => decide (x.2.ctx = l.ctx) && placeReady s x.2 && decide (launchPrio s l < launchPrio s x.2))
   then [.unitPlacement n] else []) ++
  (if l.clrPend.isEmpty || isMerged s (.agent (2 ^ 43 + n)) then [] else [.colophonCounterAdd n])

/-- What can happen to a Carillon context that waits. -/
def crlEvents (n : Nat) (c : Crl) : List Instr := if c.state = 2 ∧ c.blocked = false then [.carillonWake n] else []

/-- What can happen at the fabric ports and to steals. -/
def fabricEvents (s : State) : List Instr :=
  (s.rings.filter (fun r => !isMerged s (.agent (agentDescr r.1 r.2.taken)))).map (fun r => Instr.descriptorTake r.1) ++
  ((s.outgoing.filter (fun o => o.finish.isSome && !isMerged s (.agent (agentDescr o.ring o.i)))).map (fun o => Instr.descriptorAck o.ring o.i 0 false)) ++
  ((s.inbound.filter (fun x => !isMerged s (.agent (agentArrival x.src x.msg.id)))).map (fun x =>
    match x.op with | 1 => Instr.fabricStore x.msg | 2 => Instr.fabricAsto x.msg | _ => Instr.fabricCtradd x.msg)) ++
  (s.received.map Instr.stealStateInstall)

/-- The cores that a cluster stop has yet to reach. -/
def stopEvents (c : Nat) (st : ClStop) : List Instr :=
  ((upFrom (16 * c) 16).filter (fun g => !st.cores.contains g)).map Instr.clusterStopArrival

/-- Every event that is due. -/
def dueEvents (s : State) : List Instr :=
  s.ops.flatMap (fun e => opEvents s e.1 e.2) ++ s.frags.flatMap (fun e => fragEvents s e.1 e.2) ++
  s.ctxs.flatMap (fun e => contextEvents s e.1 e.2) ++ s.merge.flatMap (fun e => mergeEvents e.1 e.2) ++
  s.tiles.flatMap (fun e => tileEvents s e.1 e.2) ++ s.phases.flatMap (fun e => phaseEvents s e.1 e.2) ++
  s.shoots.flatMap (fun e => shootEvents s e.1 e.2) ++ s.launches.flatMap (fun e => launchEvents s e.1 e.2) ++
  ((s.units.filter (fun u => unitOver s u.1 u.2 && !isMerged s (.agent (waitUnit u.1)))).map (fun u => Instr.unitFinish u.1)) ++
  ((s.gov.filter (fun g => decide (g.2.window < s.toll / 1024))).map (fun g => Instr.governorWindow g.1)) ++
  s.crls.flatMap (fun e => crlEvents e.1 e.2) ++ s.queues.flatMap (fun e => queueEvents s e.1 e.2) ++ fabricEvents s ++
  s.stops.flatMap (fun e => stopEvents e.1 e.2)

/-! ### From outside (R364, R390) -/

/-- What the host, peer chips, firmware and the supply can do. -/
def isInput : Instr → Bool
  | .queueDoorbell _ _ => true
  | .admdb _ => true
  | .registerWrite _ _ => true
  | .hostBar2Access _ _ => true
  | .bootImageWrite _ _ => true
  | .bootstatGo => true
  | .reset => true
  | .thermalTrip => true
  | .powerLoss _ => true
  | .governorBudgetUpdate _ _ => true
  | .attestationRequest _ _ => true
  | .tstop _ => true
  | .debugRelease => true
  | .stopcl _ => true
  | .step _ _ _ => true
  | .resume _ => true
  | .preemptHalt _ => true
  | .restore _ => true
  | .carillonSuspend _ => true
  | .carillonResume _ => true
  | .fabricStore _ => true
  | .fabricAsto _ => true
  | .fabricCtradd _ => true
  | .descriptorAck _ _ _ _ => true
  | .linkRetryExpiry _ => true
  | .sequenceSteal _ _ => true
  | .chipSteal _ _ => true
  | .stealStateInstall _ => true
  | .stealAck _ => true
  | _ => false

/-- What reaches a device that a debug stop gates or that is not booted: the host's registers and windows, the boot logic, power and
temperature (R390, R397). -/
def reachesStopped (s : State) : Instr → Bool
  | .registerWrite _ _ => true
  | .hostBar2Access _ _ => !s.gated
  | .bootImageWrite _ _ => true
  | .bootstatGo => true
  | .thermalTrip => true
  | .tstop _ => true
  | .debugRelease => true
  | _ => false

/-- What reaches a device that does not run: a reset and the loss of power, and, unless a trip holds the device until reset (R403),
what reaches a stopped one. -/
def reachesGated (s : State) : Instr → Bool
  | .reset => true
  | .powerLoss _ => true
  | i => s.boot.state != 4 && reachesStopped s i

/-- The device runs: it is booted, and no stop gates it. -/
def running (s : State) : Bool := s.boot.state == 2 && !s.gated

/-- The input that comes next, with those that stay: a device that does not run takes the first that reaches it. What is no input
is dropped. -/
def nextInput (s : State) : List Instr → Option (Instr × List Instr)
  | [] => none
  | i :: rest =>
    if !isInput i then nextInput s rest
    else if running s || reachesGated s i then some (i, rest)
    else (nextInput s rest).map (fun r => (r.1, i :: r.2))

/-! ### One step -/

/-- The outcome of a choice. -/
def runChoice (s : State) : Choice → Out
  | .event i => exec i s
  | .input i rest => exec i { s with inputs := rest }
  | .frag i => issue i s
  | .micro n => runMicro n s

/-- What the machine can do in a state. -/
def choices (s : State) : List Choice :=
  let inputs := match nextInput s s.inputs with | some (i, rest) => [Choice.input i rest] | none => []
  if running s && tstopDue s then [.event .tstopExpiry]
  else if !running s then inputs
  else inputs ++
    ((dueEvents s).map Choice.event ++
      ((s.crls.filter (fun e => e.2.state == 1 && !e.2.blocked)).map (fun e => Choice.micro e.1))).filter (fun c => !unpaidBy s (runChoice s c)) ++
    ((busyCores s).filterMap (coreChoice s)).map Choice.frag

/-- Time goes on between two steps by a number of ticks that no rule fixes; not while the device does not run, and not past an
armed TSTOP (R31, R390). -/
def passTime (s : State) : State :=
  if !running s then s
  else
    let (n, s) := draw s
    let t := s.toll + n
    { s with toll := if bitsOf s.tstop 63 63 = 1 ∧ s.toll ≤ bitsOf s.tstop 62 0 then min t (bitsOf s.tstop 62 0) else t }

/-- The log areas of the tiles that a step has changed, as memory shows them (R303). -/
def showLogs (s : State) : Out → Out
  | .next s' => .next (s'.tiles.foldl (fun x t => if amGet t.1 s.tiles = some t.2 then x else pokeBytes t.1 t.2.area x) s')
  | o => o

/-- What a step that began in a state leaves for header waits (R76): the flags that it has cleared count from the next tick on, and the
headers that fragments wait at have the tick at which their flags became clear. -/
def noteClear (old s : State) : State :=
  let teams := s.teams.map (fun e => (e.1, { e.2 with clearAt := (upFrom 0 12).foldl (fun m i =>
    if flagSet old e.1 i && !flagSet s e.1 i then smPut 0 i (s.toll + 1) m else m) e.2.clearAt }))
  { s with
    teams := teams
    frags := s.frags.map (fun e => match e.2.wait with
      | .header w _ => (e.1, { e.2 with wait := .header w (if headerClear s e.2.team w then
          some ((match amGet e.2.team teams with | some t => clearedAt t w | none => 0) - 1) else none) })
      | _ => e) }

/-- The end of a step that began in a state: nothing is selected, and time goes on. -/
def afterStep (old : State) : Out → Out
  | .next s => .next (passTime (noteClear old { s with cur := none, curCrl := none }))
  | .fault f => .fault f
  | .refused r => .refused r

/-- Since which turn a thing has been possible: the turn of its entry, or this one. -/
def sinceTurn (s : State) (c : Choice) : Nat := ((s.waiting.find? (fun w => w.1 == c)).map Prod.snd).getD s.turn

/-- Of the things that can be done, those the machine chooses among: all of them, unless some must not wait longer (R58): then those
of them that have waited longest. -/
def pressing (s : State) (cs : List Choice) : List Choice :=
  match minBy id ((cs.map (sinceTurn s)).filter (fun n => decide (n + Config.delay n ≤ s.turn))) with
  | none => cs
  | some n => cs.filter (fun c => sinceTurn s c == n)

/-- The machine takes a turn: it does one of several things, and notes since when the others have been possible. -/
def takeTurn (s : State) (cs : List Choice) : Choice × State :=
  let now := pressing s cs
  let (k, s') := choose now.length s
  let c := nth (.frag 0) now k
  (c, { s' with turn := s.turn + 1, waiting := (cs.filter (fun x => x != c)).map (fun x => (x, sinceTurn s x)) })

/-- A fragment that reaches a header goes before everything else (R76), unless TSTOP stops the device. -/
def headerNext (s : State) : Option Nat := if running s && !tstopDue s then headerFrag s else none

/-- The machine does one of the things it can do; with none, time goes on. -/
def stepChoice (s : State) : Out :=
  match headerNext s with
  | some i => afterStep s (showLogs s (issue i s))
  | none => match choices s with
    | [] => .next (passTime s)
    | [c] => afterStep s (showLogs s (runChoice { s with waiting := [] } c))
    | cs => afterStep s (showLogs s (runChoice (takeTurn s cs).2 (takeTurn s cs).1))

/-! ### A machine that fetches a given instruction -/

/-- The page that `fetchSetup` maps for code, and its frame. -/
def codeVa : Nat := 0x10000
/-- The frame of that page. -/
def codeFrame : Nat := 16

/-- A context for `fetchSetup`: its four tables lie in the frames 1 to 4, its COUNTER page of shootdowns in frame 6. -/
def setupContext : Context :=
  { root := 0x10000, secure := false, debuggable := false, pool0 := [], pool1 := [], refill0 := false, refill1 := false,
    poolMapped := [], owned := [codeFrame], tables := [1, 2, 3, 4, 6], packs := [], ctrPage := 6, poolSize := 0, poolCap := 0, fring := 0, frctl := 0, frlen := 2,
    posted := 0, head := 0, heldRecords := [], errRec := 0x50000, frvec := 0, preemptible := false, prio := 0, clusters := [0],
    pre := 0, preTick := 0, stkBase := 0, stkSize := 0, moved := [], stkUsed := [], handles := [], graphs := [], crec := 0, dying := false,
    cancelled := false }

/-- Its launch: one unit, placed. -/
def setupLaunch : Launch :=
  { ctx := 0, queue := 0, idx := 0, graph := none, graphRec := 0, phase := none, entryPc := dw codeVa, lanes := 32, regs := 64, teams := 1, scratch := 0,
    acc := 0, args := 0, gridX := 1, gridY := 1, gridZ := 1, she := 0, lstk := 0, ksz := 0, crec := 0, coop := false, deps := [],
    placed := 1, finished := 0, cancelled := false, weight := 0, clrBase := 0, clrCtr := 0, clrLen := 0, clrSeq := 0, clrPend := [], clrOut := false,
    stage := 0, canned := 0 }

/-- Its unit. -/
def setupUnit : UnitSt :=
  { ctx := 0, launch := 0, cluster := 0, x := 0, y := 0, z := 0, gridX := 1, gridY := 1, gridZ := 1, teams := [0], k := [], kLast := (0, 0), bar := [],
    scratch := [], she := 0, entryPc := dw codeVa, args := 0, lstk := 0, cancelled := false, weight := 0, mmaqs := [], trees := [],
    ravel := 0, stage := 0 }

/-- The cells of the code page's tables, and of the bytes at PC. -/
def setupCells (bs : List Byte) : List Host.Cell :=
  let entry (a : Nat) (e : Nat) (m : List Host.Cell) : List Host.Cell := putBytes m a (natBytes 8 e)
  -- a leaf of TYPE PAGE with R, W and X
  putBytes (entry 0x10000 0x20001 (entry 0x20000 0x30001 (entry 0x30000 0x40001
    (entry (0x40000 + 8 * (codeVa / 2 ^ 16)) (2 + 0x38 + codeFrame * 2 ^ 16) [])))) (codeFrame * 2 ^ 16 + 4) bs

/-- The machine of `s`, booted, with one context and, for a word of the sequencer, one team of 32 lanes in the clause whose header
stands before the word; for a word of the Carillon, one running context with that word as its program. -/
def fetchSetup (s : State) (carillon : Bool) (bs : List Byte) (w : Nat) : State :=
  let base : State :=
    { State.reset with
      free := s.free, turn := s.turn, seq := s.seq + 1, toll := s.toll, boot := { s.boot with state := 2 }, ctxs := [(0, setupContext)] }
  if carillon then
    { base with
      crls := [(0, { owner := 0, state := 1, prior := 1, pc := 0, prog := 0, c := [], key := [], x := [], pos := [], val := [], idx := [],
                     ccnt := 0, hist := [], dbell := 0, t := 0, tOld := 0, outBase := 0, outLen := 1, tokCtr := 0, seq := 0, fcause := 0,
                     tcause := 0, blocked := false, fault := none, halting := false, emit := none, weight := [] })]
      progs := [(0, [BitVec.ofNat 32 w])] }
  else
    { base with
      mem := setupCells bs
      launches := [(0, setupLaunch)]
      units := [(0, setupUnit)]
      teams := [(0, freshTeam setupLaunch 0 0 0 0 0 0)]
      frags := [(s.seq, { newFrag 0 (dw (codeVa + 4)) (fullMask 32) 0 none with clause := { hdr := dw codeVa, word := 0x0FF000FF } })] }

end Sys2Proof.Machine

end
end

