-- ==== Sys2Proof/Machine/Step.lean ====
section
/-! DEFINITION. One step of the machine, and a machine that fetches a given instruction next. -/

noncomputable section

namespace Sys2Proof.Machine

/-- One step: the machine does one of the things it can do (`choices`), and time goes on. -/
def step (s : State) : Host.Outcome State Fault Refusal := stepChoice s

/-- A booted machine of s whose next step runs the instruction whose bits are w: a team of 32 lanes at that word, or for a word of
the Carillon a running context with it. It stands for the host's loading of a program (notes/assumptions/2.md). -/
def State.withFetchWord (s : State) (nbits w : Nat) : State :=
  if 16 < nbits && w % 2 == 0 then fetchSetup s true [] w
  else fetchSetup s false (toBytes (if w % 2 = 0 then 2 else 4) w) w

end Sys2Proof.Machine

end
end

