-- ==== Sys2Proof/Safety.lean ====
section
/-! DEFINITION. The words of the claims: memory's canonical form, what an instruction leaves as it is, when its conditions hold,
and for families of one shape the tables of their operands and results as the rules give them. -/

noncomputable section

namespace Sys2Proof.Machine

/-! ### Memory -/

/-- The canonical form of memory: addresses strictly rise, and no listed byte is 0, what an unlisted address reads as. -/
def Memory.wf (m : List Host.Cell) : Bool := amSorted m && m.all (fun c => c.2 != 0)

/-- No byte of memory differs. -/
def SameMemory (s s' : State) : Prop := ∀ a, rdByte s' a = rdByte s a

/-- No byte of memory outside [a, a + n) differs. -/
def SameMemoryBut (a n : Nat) (s s' : State) : Prop := ∀ x, (x < a ∨ a + n ≤ x) → rdByte s' x = rdByte s x

/-! ### Fragments between passes -/

/-- Fragment i of team t is selected, and no watchpoint or debug stop is due when its pass ends (R392 to R394). -/
abbrev Ready (s : State) (i : Nat) (f : Frag) (t : Team) : Prop :=
  current s = some (i, f, t) ∧ f.hit = none ∧ f.stopFor = none ∧ f.stepping = none

/-- The lanes of the fragment's next pass (R93). -/
def passLanes (f : Frag) : List Nat := wordLanes f.mask (passWord f)

/-- f' is fragment f after a pass of an instruction of `len` bytes, issued at tick `toll`: at its next mask word, or, after the
last one or when the instruction takes all its passes in one step, past the instruction with the next tick as its key (R93,
R101). -/
def MovedOn (whole : Bool) (len toll : Nat) (f f' : Frag) : Prop :=
  match whole, wordsFrom f.mask (passWord f + 1) with
  | false, j :: _ => f' = { f with pass := j, mid := true, skid := f'.skid }
  | _, _ => f' = { moveOn len (toll + 1) f with skid := f'.skid }

/-- The frame of an instruction of the lanes or of scalar arithmetic: only the fragment's place, its core's issue tick, its team
and the results in flight may differ; every other fragment and team, every byte of memory and the rest of the machine are as
before. -/
def OnlyTeam (whole : Bool) (len : Nat) (s s' : State) (i : Nat) (f : Frag) (t : Team) : Prop :=
  s' = { s with frags := s'.frags, issued := s'.issued, teams := s'.teams, ops := s'.ops } ∧
  (∀ k, k ≠ i → amGet k s'.frags = amGet k s.frags) ∧
  (∃ f', amGet i s'.frags = some f' ∧ MovedOn whole len s.toll f f') ∧
  s'.issued = amPut t.gcore (s.toll + 1) s.issued ∧
  (∀ k, k ≠ f.team → amGet k s'.teams = amGet k s.teams)

/-- The registers d to d + n − 1 of some lanes, as destinations. -/
def laneDests (lanes : List Nat) (d n : Nat) : List Dest := lanes.flatMap (fun l => (upFrom d n).map (Dest.lane l))

/-- The team with FLAGS bits set by OR; INV or OF also sets OVF.LANE (R139). -/
def withFlags (fl : Nat) (t : Team) : Team :=
  { t with flags := t.flags ||| dw fl, ovf := if fl &&& (fINV + fOF) = 0 then t.ovf else t.ovf ||| 4 }

/-- The effect of writing registers d to d + n − 1 in the lanes given, register d + x of lane l with val l x: no other register
differs, FLAGS and OVF take the bits of fl, earlier results on their way to those registers are superseded (R81), and nothing
else of the machine differs. -/
def LanesWritten (whole : Bool) (len : Nat) (s s' : State) (i : Nat) (f : Frag) (t : Team) (lanes : List Nat) (d n : Nat)
    (val : Nat → Nat → DWord) (fl : Nat) : Prop :=
  OnlyTeam whole len s s' i f t ∧
  s'.ops = killEarlier f.team s.seq (laneDests lanes d n) s.ops ∧
  ∃ t', amGet f.team s'.teams = some t' ∧ t' = { withFlags fl t with d := t'.d } ∧
    ∀ l r, r < 64 → dGet t' l r = if l ∈ lanes ∧ d ≤ r ∧ r < d + n then val l (r - d) else dGet t l r

/-- The effect of an instruction whose passes are issued together, on register d of the lanes given: that of a whole instruction at the
tick of its last pass (R93, R101). -/
def PassesWritten (s s' : State) (i : Nat) (f : Frag) (t : Team) (lanes : List Nat) (d : Nat) (val : Nat → DWord) (fl : Nat) : Prop :=
  let last := s.toll + ((wordsFrom f.mask (passWord f)).length - 1)
  s'.toll = s.toll ∧ LanesWritten true 4 { s with toll := last } { s' with toll := last } i f t lanes d 1 (fun l _ => val l) fl

/-- The effect of writing one scalar register (a handler's s24 to s31 are its bank, R127): nothing else of the machine differs. -/
def ScalarWritten (len : Nat) (s s' : State) (i : Nat) (f : Frag) (t : Team) (n : Nat) (v : DWord) : Prop :=
  OnlyTeam true len s s' i f t ∧
  s'.ops = killEarlier f.team s.seq [sDest f.handler n] s.ops ∧
  amGet f.team s'.teams = some (putDest (sDest f.handler n) v t)

/-- No matrix operation of the team has scalar register n locked (R258). -/
abbrev ScalarFree (s : State) (f : Frag) (n : Nat) : Prop :=
  lockedWaiting s f.team (scalarLock n) = false ∧ locked s f.team (scalarLock n) = false

/-! ### The instructions of one result per lane -/

/-- A lane instruction of one shape: length, width code, modes it is defined in, destination with its group size by mode, sources,
and its result from the mode, acct and the source groups. -/
structure LaneForm where
  len : Nat
  w : BitVec 2
  modes : Nat → Bool
  d : Nat
  hd : Nat → Nat
  srcs : List Src
  fn : LaneFn

/-- The operation count W. -/
def LaneForm.ops (k : LaneForm) : Nat := 2 ^ k.w.toNat

/-- A register group of h registers for each of n operations fits the register file and the team's declared count (R70, R71). -/
abbrev groupFits (t : Team) (n r h : Nat) : Prop := r % (n * h) = 0 ∧ r + n * h ≤ 64 ∧ r + n * h ≤ t.regs

/-- Every operand of the instruction fits (R70, R71, R173). -/
abbrev LaneForm.fits (k : LaneForm) (t : Team) (mode : Nat) : Prop :=
  groupFits t k.ops k.d (k.hd mode) ∧ ∀ a ∈ k.srcs, groupFits t k.ops a.r (a.h mode)

/-- What operation j of the instruction gives in lane l: it reads each source through its pattern slot, and the old destination
(R141, R142). -/
def LaneForm.result (k : LaneForm) (t : Team) (f : Frag) (l j : Nat) : List DWord × Nat :=
  k.fn f.mode f.acct (k.srcs.map (fun a => groupAt t (srcLane t a.x l) (a.r + j * a.h f.mode) (a.h f.mode)) ++
    [groupAt t l (k.d + j * k.hd f.mode) (k.hd f.mode)])

/-- The FLAGS bits of a pass: those of every lane and operation. -/
def LaneForm.flags (k : LaneForm) (t : Team) (f : Frag) : Nat :=
  ((passLanes f).flatMap (fun l => (upFrom 0 k.ops).map (fun j => (k.result t f l j).2))).foldl (fun m x => m ||| x) 0

/-- Three-register instructions, all of whose operands take the clause's group size. -/
def threeReg (w : BitVec 2) (d a : BitVec 6) (p : BitVec 2) (b : BitVec 6) (q : BitVec 2) (modes : Nat → Bool) (fn : LaneFn) :
    LaneForm :=
  ⟨4, w, modes, d.toNat, groupOf, [⟨a.toNat, p.toNat, groupOf⟩, ⟨b.toNat, q.toNat, groupOf⟩], fn⟩

/-- Two-register instructions. -/
def twoReg (w : BitVec 2) (d a : BitVec 6) (p : BitVec 2) (fn : LaneFn) : LaneForm :=
  ⟨4, w, anyMode, d.toNat, groupOf, [⟨a.toNat, p.toNat, groupOf⟩], fn⟩

/-- 16-bit forms: d is the first source, no patterns, width 1 (R65). -/
def shortForm (d b : BitVec 5) (fn : LaneFn) : LaneForm :=
  ⟨2, 0, anyMode, d.toNat, groupOf, [⟨d.toNat, 0, groupOf⟩, ⟨b.toNat, 0, groupOf⟩], fn⟩

/-- DFOLD.T's result (R180). -/
def foldTotal : LaneFn := fun _ _ gs =>
  let x := linOf (grp gs 0)
  (packLin (finishLin ⟨x.mu, (linVar x).w, 0, 0⟩).1, (finishLin ⟨x.mu, (linVar x).w, 0, 0⟩).2)
/-- DFOLD.M's result (R180). -/
def foldMom : LaneFn := fun _ _ gs =>
  let x := linOf (grp gs 0)
  ([reg x.mu (finishMom x.mu (linVar x).w).1], (finishMom x.mu (linVar x).w).2)
/-- DFOLD.L's result (R180). -/
def foldLin : LaneFn := fun _ _ gs =>
  let x := momOf ((grp gs 0).headD 0)
  let v := intake x.m x.v
  (packLin (finishLin ⟨x.m, v.1, 0, 0⟩).1, v.2 ||| (finishLin ⟨x.m, v.1, 0, 0⟩).2)
/-- DTOS's result (R182). -/
def spreadMom : LaneFn := fun _ _ gs =>
  let x := momOf ((grp gs 0).headD 0)
  let v := intake x.m x.v
  ((ensemble x.m v.1).1, v.2 ||| (ensemble x.m v.1).2)
/-- DTOS.L's result (R182). -/
def spreadLin : LaneFn := fun _ _ gs => ensemble (linOf (grp gs 0)).mu (linVar (linOf (grp gs 0))).w
/-- DFUSE's result (R185). -/
def fuseMom : LaneFn := fun _ acct gs =>
  let x := fuse (momOf ((grp gs 0).headD 0)) (momOf ((grp gs 1).headD 0))
  let v := finishMom x.1 (account (acct && x.2.2.2) x.1 x.2.1)
  ([reg x.1 v.1], x.2.2.1 ||| v.2)

/-- The integer instructions of this shape (R143, R144, R151's counts and reversal), with their results by the rules' formulas:
x and y the value words of a and b, `old` of the old d. -/
inductive IntegerLane : Instr → LaneForm → Prop where
  | iadd w d a p b q : IntegerLane (.iadd w d a p b q) (threeReg w d a p b q anyMode (intFn2 (fun x y _ => x + y)))
  | isub w d a p b q : IntegerLane (.isub w d a p b q) (threeReg w d a p b q anyMode (intFn2 (fun x y _ => x - y)))
  | imul w d a p b q : IntegerLane (.imul w d a p b q) (threeReg w d a p b q anyMode (intFn2 (fun x y _ => x * y)))
  | imulh w d a p b q : IntegerLane (.imulh w d a p b q) (threeReg w d a p b q anyMode (intFn2 (fun x y _ => (x.signExtend 64 * y.signExtend 64).extractLsb' 32 32)))
  | imulhu w d a p b q : IntegerLane (.imulhu w d a p b q) (threeReg w d a p b q anyMode (intFn2 (fun x y _ => (x.zeroExtend 64 * y.zeroExtend 64).extractLsb' 32 32)))
  | imad w d a p b q : IntegerLane (.imad w d a p b q) (threeReg w d a p b q anyMode (intFn2 (fun x y old => x * y + old)))
  | iand w d a p b q : IntegerLane (.iand w d a p b q) (threeReg w d a p b q anyMode (intFn2 (fun x y _ => x &&& y)))
  | ior w d a p b q : IntegerLane (.ior w d a p b q) (threeReg w d a p b q anyMode (intFn2 (fun x y _ => x ||| y)))
  | ixor w d a p b q : IntegerLane (.ixor w d a p b q) (threeReg w d a p b q anyMode (intFn2 (fun x y _ => x ^^^ y)))
  | iandn w d a p b q : IntegerLane (.iandn w d a p b q) (threeReg w d a p b q anyMode (intFn2 (fun x y _ => x &&& ~~~y)))
  | ishl w d a p b q : IntegerLane (.ishl w d a p b q) (threeReg w d a p b q anyMode (intFn2 (fun x y _ => x <<< (y &&& 31))))
  | ishr w d a p b q : IntegerLane (.ishr w d a p b q) (threeReg w d a p b q anyMode (intFn2 (fun x y _ => x >>> (y &&& 31))))
  | isra w d a p b q : IntegerLane (.isra w d a p b q) (threeReg w d a p b q anyMode (intFn2 (fun x y _ => x.sshiftRight' (y &&& 31))))
  | imin w d a p b q : IntegerLane (.imin w d a p b q) (threeReg w d a p b q anyMode (intFn2 (fun x y _ => if x.toInt ≤ y.toInt then x else y)))
  | imax w d a p b q : IntegerLane (.imax w d a p b q) (threeReg w d a p b q anyMode (intFn2 (fun x y _ => if y.toInt ≤ x.toInt then x else y)))
  | umin w d a p b q : IntegerLane (.umin w d a p b q) (threeReg w d a p b q anyMode (intFn2 (fun x y _ => if x.toNat ≤ y.toNat then x else y)))
  | umax w d a p b q : IntegerLane (.umax w d a p b q) (threeReg w d a p b q anyMode (intFn2 (fun x y _ => if y.toNat ≤ x.toNat then x else y)))
  | iseq w d a p b q : IntegerLane (.iseq w d a p b q) (threeReg w d a p b q anyMode (intFn2 (fun x y _ => if x = y then 1 else 0)))
  | islt w d a p b q : IntegerLane (.islt w d a p b q) (threeReg w d a p b q anyMode (intFn2 (fun x y _ => if x.toInt < y.toInt then 1 else 0)))
  | isltu w d a p b q : IntegerLane (.isltu w d a p b q) (threeReg w d a p b q anyMode (intFn2 (fun x y _ => if x.toNat < y.toNat then 1 else 0)))
  | iadd16 d b : IntegerLane (.iadd16 d b) (shortForm d b (intFn2 (fun x y _ => x + y)))
  | isub16 d b : IntegerLane (.isub16 d b) (shortForm d b (intFn2 (fun x y _ => x - y)))
  | imul16 d b : IntegerLane (.imul16 d b) (shortForm d b (intFn2 (fun x y _ => x * y)))
  | iand16 d b : IntegerLane (.iand16 d b) (shortForm d b (intFn2 (fun x y _ => x &&& y)))
  | ior16 d b : IntegerLane (.ior16 d b) (shortForm d b (intFn2 (fun x y _ => x ||| y)))
  | ixor16 d b : IntegerLane (.ixor16 d b) (shortForm d b (intFn2 (fun x y _ => x ^^^ y)))
  | ishl16 d b : IntegerLane (.ishl16 d b) (shortForm d b (intFn2 (fun x y _ => x <<< (y &&& 31))))
  | ishr16 d b : IntegerLane (.ishr16 d b) (shortForm d b (intFn2 (fun x y _ => x >>> (y &&& 31))))
  | imax16 d b : IntegerLane (.imax16 d b) (shortForm d b (intFn2 (fun x y _ => if y.toInt ≤ x.toInt then x else y)))
  | imin16 d b : IntegerLane (.imin16 d b) (shortForm d b (intFn2 (fun x y _ => if x.toInt ≤ y.toInt then x else y)))
  | iadd64 w d a p b q : IntegerLane (.iadd64 w d a p b q) (threeReg w d a p b q plainOnly (fn64 (fun x y => x + y)))
  | isub64 w d a p b q : IntegerLane (.isub64 w d a p b q) (threeReg w d a p b q plainOnly (fn64 (fun x y => x - y)))
  | addi w d a p i : IntegerLane (.addi w d a p i) (twoReg w d a p (intFn1 (fun x => (x + i.signExtend 32, 0))))
  | shli w d a p i : IntegerLane (.shli w d a p i) (twoReg w d a p (intFn1 (fun x => (x <<< i, 0))))
  | shri w d a p i : IntegerLane (.shri w d a p i) (twoReg w d a p (intFn1 (fun x => (x >>> i, 0))))
  | srai w d a p i : IntegerLane (.srai w d a p i) (twoReg w d a p (intFn1 (fun x => (x.sshiftRight' i, 0))))
  | andi w d a p i : IntegerLane (.andi w d a p i) (twoReg w d a p (intFn1 (fun x => (x &&& i.signExtend 32, 0))))
  | clz w d a p : IntegerLane (.clz w d a p) (twoReg w d a p (intFn1 (fun x => (x.clz, 0))))
  | popc w d a p : IntegerLane (.popc w d a p) (twoReg w d a p (intFn1 (fun x => (BitVec.ofNat 32 ((List.range 32).filter x.getLsbD).length, 0))))
  | brev w d a p : IntegerLane (.brev w d a p) (twoReg w d a p (intFn1 (fun x => (x.reverse, 0))))

/-- The binary32 instructions of this shape (R146 to R149, R151 to R153). -/
inductive FloatLane : Instr → LaneForm → Prop where
  | fadd w d a p b q : FloatLane (.fadd w d a p b q) (threeReg w d a p b q anyMode (fpFn opAdd))
  | fsub w d a p b q : FloatLane (.fsub w d a p b q) (threeReg w d a p b q anyMode (fpFn opSub))
  | fmul w d a p b q : FloatLane (.fmul w d a p b q) (threeReg w d a p b q anyMode (fpFn opMul))
  | fma w d a p b q : FloatLane (.fma w d a p b q) (threeReg w d a p b q anyMode (fpFn opFma))
  | fadd16 d b : FloatLane (.fadd16 d b) (shortForm d b (fpFn opAdd))
  | fsub16 d b : FloatLane (.fsub16 d b) (shortForm d b (fpFn opSub))
  | fmul16 d b : FloatLane (.fmul16 d b) (shortForm d b (fpFn opMul))
  | fmin w d a p b q : FloatLane (.fmin w d a p b q) (threeReg w d a p b q anyMode (minMaxFn true))
  | fmax w d a p b q : FloatLane (.fmax w d a p b q) (threeReg w d a p b q anyMode (minMaxFn false))
  | fmax16 d b : FloatLane (.fmax16 d b) (shortForm d b (minMaxFn false))
  | fmin16 d b : FloatLane (.fmin16 d b) (shortForm d b (minMaxFn true))
  | fseq w d a p b q : FloatLane (.fseq w d a p b q) (threeReg w d a p b q anyMode (intFn2 (fun x y _ => if fEq x y then 1 else 0)))
  | fslt w d a p b q : FloatLane (.fslt w d a p b q) (threeReg w d a p b q anyMode (intFn2 (fun x y _ => if fLt x y then 1 else 0)))
  | fsle w d a p b q : FloatLane (.fsle w d a p b q) (threeReg w d a p b q anyMode (intFn2 (fun x y _ => if fLe x y then 1 else 0)))
  | sel w d a p b q : FloatLane (.sel w d a p b q) (threeReg w d a p b q anyMode (fun _ _ gs => (if meanOf ((grp gs 2).headD 0) = 0 then grp gs 1 else grp gs 0, 0)))
  | rcp w d a p : FloatLane (.rcp w d a p) (twoReg w d a p (fpFn (opFnu 0)))
  | rsq w d a p : FloatLane (.rsq w d a p) (twoReg w d a p (fpFn (opFnu 1)))
  | sqrt w d a p : FloatLane (.sqrt w d a p) (twoReg w d a p (fpFn (opFnu 2)))
  | exp2 w d a p : FloatLane (.exp2 w d a p) (twoReg w d a p (fpFn (opFnu 3)))
  | log2 w d a p : FloatLane (.log2 w d a p) (twoReg w d a p (fpFn (opFnu 4)))
  | sin2pi w d a p : FloatLane (.sin2pi w d a p) (twoReg w d a p (fpFn (opFnu 5)))
  | cos2pi w d a p : FloatLane (.cos2pi w d a p) (twoReg w d a p (fpFn (opFnu 6)))
  | tanh w d a p : FloatLane (.tanh w d a p) (twoReg w d a p (fpFn (opFnu 7)))
  | fabs w d a p : FloatLane (.fabs w d a p) (twoReg w d a p (fpFn (opSign unsign signOf)))
  | fneg w d a p : FloatLane (.fneg w d a p) (twoReg w d a p (fpFn (opSign fNeg (fun _ => true))))
  | cvtif w d a p : FloatLane (.cvtif w d a p) (twoReg w d a p (fpFn (opFresh (fun x => fOfInt x.toInt))))
  | cvtuf w d a p : FloatLane (.cvtuf w d a p) (twoReg w d a p (fpFn (opFresh (fun x => fOfInt x.toNat))))
  | cvtfi w d a p : FloatLane (.cvtfi w d a p) (twoReg w d a p (intFn1 (cvtWord 0 (-(2 ^ 31)) (2 ^ 31 - 1))))
  | cvtfu w d a p : FloatLane (.cvtfu w d a p) (twoReg w d a p (intFn1 (cvtWord 0 0 (2 ^ 32 - 1))))
  | cvtfir w d a p : FloatLane (.cvtfir w d a p) (twoReg w d a p (intFn1 (cvtWord 1 (-(2 ^ 31)) (2 ^ 31 - 1))))
  | frint w d a p : FloatLane (.frint w d a p) (twoReg w d a p (fpFn (opFresh (fIntegral 1))))
  | ffloor w d a p : FloatLane (.ffloor w d a p) (twoReg w d a p (fpFn (opFresh (fIntegral 2))))
  | ftrunc w d a p : FloatLane (.ftrunc w d a p) (twoReg w d a p (fpFn (opFresh (fIntegral 0))))
  | rnd w d a p i : FloatLane (.rnd w d a p i) (twoReg w d a p (fpFn (opRnd i.toNat)))

/-- The spread instructions of this shape (R175 to R177, R180 to R185). -/
inductive SpreadLane : Instr → LaneForm → Prop where
  | dset w d a p b q : SpreadLane (.dset w d a p b q) ⟨4, w, (fun m => m != 3), d.toNat, groupOf, [⟨a.toNat, p.toNat, single⟩, ⟨b.toNat, q.toNat, single⟩], dsetFn⟩
  | dmean w d a p : SpreadLane (.dmean w d a p) ⟨4, w, anyMode, d.toNat, single, [⟨a.toNat, p.toNat, groupOf⟩], fun mode _ gs => ([reg (meanFn mode (grp gs 0)).w 0], (meanFn mode (grp gs 0)).fl)⟩
  | dvar w d a p : SpreadLane (.dvar w d a p) ⟨4, w, anyMode, d.toNat, single, [⟨a.toNat, p.toNat, groupOf⟩], varFn false false⟩
  | dvarU w d a p : SpreadLane (.dvarU w d a p) ⟨4, w, smpOnly, d.toNat, single, [⟨a.toNat, p.toNat, four⟩], varFn true false⟩
  | dstd w d a p : SpreadLane (.dstd w d a p) ⟨4, w, anyMode, d.toNat, single, [⟨a.toNat, p.toNat, groupOf⟩], varFn false true⟩
  | dstdU w d a p : SpreadLane (.dstdU w d a p) ⟨4, w, smpOnly, d.toNat, single, [⟨a.toNat, p.toNat, four⟩], varFn true true⟩
  | dscale w d a p b q : SpreadLane (.dscale w d a p b q) ⟨4, w, notPlain, d.toNat, groupOf, [⟨a.toNat, p.toNat, groupOf⟩, ⟨b.toNat, q.toNat, single⟩], dscaleFn⟩
  | dfoldT w d a p : SpreadLane (.dfoldT w d a p) ⟨4, w, linOnly, d.toNat, two, [⟨a.toNat, p.toNat, two⟩], foldTotal⟩
  | dfoldM w d a p : SpreadLane (.dfoldM w d a p) ⟨4, w, linOnly, d.toNat, single, [⟨a.toNat, p.toNat, two⟩], foldMom⟩
  | dfoldL w d a p : SpreadLane (.dfoldL w d a p) ⟨4, w, linOnly, d.toNat, two, [⟨a.toNat, p.toNat, single⟩], foldLin⟩
  | dcov w d a p b q : SpreadLane (.dcov w d a p b q) ⟨4, w, notPlain, d.toNat, single, [⟨a.toNat, p.toNat, groupOf⟩, ⟨b.toNat, q.toNat, groupOf⟩], covFn⟩
  | dtos w d a p : SpreadLane (.dtos w d a p) ⟨4, w, smpOnly, d.toNat, four, [⟨a.toNat, p.toNat, single⟩], spreadMom⟩
  | dtosL w d a p : SpreadLane (.dtosL w d a p) ⟨4, w, smpOnly, d.toNat, four, [⟨a.toNat, p.toNat, two⟩], spreadLin⟩
  | stod w d a p b q : SpreadLane (.stod w d a p b q) ⟨4, w, momOnly, d.toNat, single, [⟨a.toNat, p.toNat, four⟩, ⟨b.toNat, q.toNat, single⟩], stodFn⟩
  | dclamp w d a p b q : SpreadLane (.dclamp w d a p b q) ⟨4, w, anyMode, d.toNat, groupOf, [⟨a.toNat, p.toNat, groupOf⟩, ⟨b.toNat, q.toNat, single⟩], clampFn⟩
  | dfuse w d a p b q : SpreadLane (.dfuse w d a p b q) ⟨4, w, momOnly, d.toNat, single, [⟨a.toNat, p.toNat, single⟩, ⟨b.toNat, q.toNat, single⟩], fuseMom⟩

/-! ### The instructions that write one register per lane -/

/-- The instructions that write one whole register, d, in the lanes of a pass, in every mode: length, d, other registers read, and the
value by team and lane (R66, R145, R156). -/
inductive MoveLane : Instr → Nat → Nat → List Nat → (Team → Nat → DWord) → Prop where
  | mov d b : MoveLane (.mov d b) 2 d.toNat [b.toNat] (fun t l => dGet t l b.toNat)
  | movi d i : MoveLane (.movi d i) 4 d.toNat [] (fun _ _ => i.zeroExtend 64)
  | movhi d i : MoveLane (.movhi d i) 4 d.toNat [] (fun t l => spreadOf (dGet t l d.toNat) ++ (i ++ (dGet t l d.toNat).setWidth 16))
  | laneIndex d : MoveLane (.laneIndex d) 4 d.toNat [] (fun _ l => dw l)
  | laneDie d : MoveLane (.laneDie d) 4 d.toNat [] (fun t _ => dw (t.gcore / 768))
  | laneGcore d : MoveLane (.laneGcore d) 4 d.toNat [] (fun t _ => dw t.gcore)

/-- The instructions that write into register d, in the lanes of a pass, a value that their first pass has read (R79, R121, R178): what
it reads, and what is written of it. -/
inductive HeldLane : Instr → BitVec 6 → (Frag → Team → DWord) → (DWord → DWord) → Prop where
  | sbcastD d n : HeldLane (.sbcastD d n) d (fun f t => sGet t f.handler n.toNat) (fun v => v)
  | sbcastM d n : HeldLane (.sbcastM d n) d (fun f t => sGet t f.handler n.toNat) (fun v => (v.setWidth 32).zeroExtend 64)
  | dtagRead d : HeldLane (.dtagRead d) d (fun _ t => dw t.tagctr) (fun v => v)

/-- The active lanes of a fragment in its team, ascending. -/
def activeLanes (t : Team) (f : Frag) : List Nat := (upFrom 0 t.lanes).filter (laneOn f.mask)

/-- The mean words that a reduction combines: register a of the active lanes, through pattern slot x. -/
def activeMeans (t : Team) (f : Frag) (x a : Nat) : List Word :=
  (activeLanes t f).map (fun l => meanOf (dGet t (srcLane t x l) a))

/-- A list combined from its first element on. -/
def reduce (op : Word → Word → Word) : List Word → Word
  | [] => 0
  | x :: l => l.foldl op x

/-- The integer reductions (R154), each with its combination. -/
inductive IntegerReduction : Instr → BitVec 6 → BitVec 6 → BitVec 2 → (Word → Word → Word) → Prop where
  | add d a p : IntegerReduction (.xredIadd d a p) d a p (fun x y => x + y)
  | imin d a p : IntegerReduction (.xredImin d a p) d a p (fun x y => if x.toInt ≤ y.toInt then x else y)
  | imax d a p : IntegerReduction (.xredImax d a p) d a p (fun x y => if y.toInt ≤ x.toInt then x else y)
  | umin d a p : IntegerReduction (.xredUmin d a p) d a p (fun x y => if x.toNat ≤ y.toNat then x else y)
  | umax d a p : IntegerReduction (.xredUmax d a p) d a p (fun x y => if y.toNat ≤ x.toNat then x else y)
  | iand d a p : IntegerReduction (.xredIand d a p) d a p (fun x y => x &&& y)
  | ior d a p : IntegerReduction (.xredIor d a p) d a p (fun x y => x ||| y)
  | ixor d a p : IntegerReduction (.xredIxor d a p) d a p (fun x y => x ^^^ y)

/-- The operand of a floating-point reduction in lane l: in PLAIN without its spread word (R140). -/
def reductionOperand (t : Team) (f : Frag) (x a l : Nat) : DWord :=
  if f.mode = 1 then dGet t (srcLane t x l) a else reg (meanOf (dGet t (srcLane t x l) a)) 0

/-- The floating-point tree reductions (R154, R155), each with the instruction that combines two operands. -/
inductive FloatReduction : Instr → BitVec 6 → BitVec 6 → BitVec 2 → LaneFn → Prop where
  | add d a p : FloatReduction (.xredFadd d a p) d a p (fpFn opAdd)
  | fmin d a p : FloatReduction (.xredFmin d a p) d a p (minMaxFn true)
  | fmax d a p : FloatReduction (.xredFmax d a p) d a p (minMaxFn false)

/-- XRED's conditions: PLAIN or MOM, its registers declared (R71, R154), and a team of the lanes the machine has. -/
abbrev reductionFits (f : Frag) (t : Team) (d a : BitVec 6) : Prop :=
  f.mode ≤ 1 ∧ d.toNat < t.regs ∧ a.toNat < t.regs ∧ t.lanes ≤ 1024

/-- The fragment after a pass of an instruction that reads a condition of every active lane: the lanes found true so far, and what the
first pass has read (R93, R95, R120). -/
def gathered (f : Frag) (cond : Nat → Bool) (first : DWord) : Frag :=
  { f with
    taken := (if firstPass f then 0 else f.taken) ||| maskOf ((passLanes f).filter cond)
    latch := if firstPass f then first else f.latch }

/-! ### Arrivals (R97, R98) -/

/-- Entry k, of a stack with nothing spilled, is freed: it may be reclaimed already, and every entry still there below or above it is
as it was. -/
def EntryFreed (team : Nat) (t : Team) (k : Nat) (s' : State) : Prop :=
  ∃ t', amGet team s'.teams = some t' ∧ t'.ksp = 0 ∧ (∀ x, t'.kettle[k]? = some x → x.freed = true) ∧
    ∀ j x, j ≠ k → t'.kettle[j]? = some x → t.kettle[j]? = some x

/-- Fragment i, which is f, and those of `ws` that wait on entry k, which is e, have become one fragment in i's place, past the RCV: it
has all their lanes and those that a serial entry holds, the entry's parent, the latest of their keys and of `least`, a PENDING of one
of them and the deferred traps of all; the others are gone, and the entry is freed (R97). -/
def Fused (ws : AMap Frag) (s s' : State) (i : Nat) (f : Frag) (t : Team) (k : Nat) (e : Entry) (least : Nat) : Prop :=
  EntryFreed f.team t k s' ∧
  (∀ w ∈ ws, amGet w.1 s'.frags = none) ∧
  (∀ j, j ≠ i → (∀ w ∈ ws, w.1 ≠ j) → amGet j s'.frags = amGet j s.frags) ∧
  ∃ g, amGet i s'.frags = some g ∧
    g = { moveOn 4 g.key f with
      mask := g.mask, entry := e.parent, pending := g.pending, deferred := f.deferred ++ ws.flatMap (fun w => w.2.deferred), skid := g.skid } ∧
    (∀ l, g.mask.getLsbD l = (f.mask.getLsbD l || ws.any (fun w => w.2.mask.getLsbD l) || (e.serial && e.dmask.getLsbD l))) ∧
    least ≤ g.key ∧ (∀ w ∈ ws, w.2.key ≤ g.key) ∧ (g.key = least ∨ ∃ w ∈ ws, g.key = w.2.key) ∧
    (g.pending = f.pending ∨ ∃ w ∈ ws, g.pending = w.2.pending)

/-- What a vote's pass reads: the lanes of the pass whose mean word is not 0, and at first the register of the lowest active lane. -/
def voted (t : Team) (f : Frag) (x a : Nat) : Frag :=
  gathered f (fun l => meanOf (dGet t (srcLane t x l) a) != 0) (dGet t (srcLane t x (lowestLane f.mask)) a)

/-- The votes (R120): the register voted on, its slot, and what the result says of the lanes that the passes have found true, of the
active lanes, and of what the first pass has read. -/
inductive Vote : Instr → BitVec 5 → BitVec 6 → BitVec 2 → (Frag → DWord → Prop) → Prop where
  | any n a p : Vote (.voteAny n a p) n a p (fun g v => v = if g.taken ≠ 0 then 1 else 0)
  | all n a p : Vote (.voteAll n a p) n a p (fun g v => v = if g.taken = g.mask then 1 else 0)
  | count n a p : Vote (.voteCount n a p) n a p (fun g v => v.toNat = ((upFrom 0 1024).filter (fun l => g.taken.getLsbD l)).length)
  | first n a p : Vote (.voteFirst n a p) n a p (fun g v => v = g.latch)
  | ballot n a p k : Vote (.voteBallot n a p k) n a p (fun g v => ∀ b, b < 64 → v.getLsbD b = g.taken.getLsbD (64 * k.toNat + b))

/-! ### Scalar instructions -/

/-- The scalar arithmetic (R113): destination and result, from the scalars as the fragment reads them. -/
inductive ScalarArith : Instr → BitVec 5 → ((BitVec 5 → DWord) → DWord) → Prop where
  | add d a b : ScalarArith (.saluAdd d a b) d (fun r => r a + r b)
  | sub d a b : ScalarArith (.saluSub d a b) d (fun r => r a - r b)
  | mul d a b : ScalarArith (.saluMul d a b) d (fun r => r a * r b)
  | mulhu d a b : ScalarArith (.saluMulhu d a b) d (fun r => ((r a).zeroExtend 128 * (r b).zeroExtend 128).extractLsb' 64 64)
  | and d a b : ScalarArith (.saluAnd d a b) d (fun r => r a &&& r b)
  | or d a b : ScalarArith (.saluOr d a b) d (fun r => r a ||| r b)
  | xor d a b : ScalarArith (.saluXor d a b) d (fun r => r a ^^^ r b)
  | shl d a b : ScalarArith (.saluShl d a b) d (fun r => r a <<< (r b &&& 63))
  | shr d a b : ScalarArith (.saluShr d a b) d (fun r => r a >>> (r b &&& 63))
  | sra d a b : ScalarArith (.saluSra d a b) d (fun r => (r a).sshiftRight' (r b &&& 63))
  | slt d a b : ScalarArith (.saluSlt d a b) d (fun r => if (r a).toInt < (r b).toInt then 1 else 0)
  | sltu d a b : ScalarArith (.saluSltu d a b) d (fun r => if (r a).toNat < (r b).toNat then 1 else 0)
  | min d a b : ScalarArith (.saluMin d a b) d (fun r => if (r a).toInt ≤ (r b).toInt then r a else r b)
  | max d a b : ScalarArith (.saluMax d a b) d (fun r => if (r b).toInt ≤ (r a).toInt then r a else r b)
  | minu d a b : ScalarArith (.saluMinu d a b) d (fun r => if (r a).toNat ≤ (r b).toNat then r a else r b)
  | maxu d a b : ScalarArith (.saluMaxu d a b) d (fun r => if (r b).toNat ≤ (r a).toNat then r a else r b)
  | addi d a i : ScalarArith (.saluiAdd d a i) d (fun r => r a + i.signExtend 64)
  | andi d a i : ScalarArith (.saluiAnd d a i) d (fun r => r a &&& i.signExtend 64)
  | ori d a i : ScalarArith (.saluiOr d a i) d (fun r => r a ||| i.signExtend 64)
  | xori d a i : ScalarArith (.saluiXor d a i) d (fun r => r a ^^^ i.signExtend 64)
  | shli d a i : ScalarArith (.saluiShl d a i) d (fun r => r a <<< i)
  | shri d a i : ScalarArith (.saluiShr d a i) d (fun r => r a >>> i)
  | srai d a i : ScalarArith (.saluiSra d a i) d (fun r => (r a).sshiftRight' i)
  | slti d a i : ScalarArith (.saluiSlt d a i) d (fun r => if (r a).toInt < i.toInt then 1 else 0)
  | sltui d a i : ScalarArith (.saluiSltu d a i) d (fun r => if (r a).toNat < (i.signExtend 64).toNat then 1 else 0)
  | shor d a i : ScalarArith (.saluiShor d a i) d (fun r => r a <<< 10 ||| i.zeroExtend 64)

/-- The scalar binary32 instructions (R114): destination, result, and the exceptions met. -/
inductive ScalarFloat : Instr → BitVec 5 → ((BitVec 5 → DWord) → DWord × Nat) → Prop where
  | add d a b : ScalarFloat (.sfpuAdd d a b) d (fun r => lowWords fAdd (r a) (r b))
  | sub d a b : ScalarFloat (.sfpuSub d a b) d (fun r => lowWords fSub (r a) (r b))
  | mul d a b : ScalarFloat (.sfpuMul d a b) d (fun r => lowWords fMul (r a) (r b))
  | div d a b : ScalarFloat (.sfpuDiv d a b) d (fun r => lowWords fDiv (r a) (r b))
  | min d a b : ScalarFloat (.sfpuMin d a b) d (fun r => ((fPick true ((r a).setWidth 32) ((r b).setWidth 32)).zeroExtend 64, 0))
  | max d a b : ScalarFloat (.sfpuMax d a b) d (fun r => ((fPick false ((r a).setWidth 32) ((r b).setWidth 32)).zeroExtend 64, 0))
  | seq d a b : ScalarFloat (.sfpuSeq d a b) d (fun r => (if fEq ((r a).setWidth 32) ((r b).setWidth 32) then 1 else 0, 0))
  | slt d a b : ScalarFloat (.sfpuSlt d a b) d (fun r => (if fLt ((r a).setWidth 32) ((r b).setWidth 32) then 1 else 0, 0))
  | sle d a b : ScalarFloat (.sfpuSle d a b) d (fun r => (if fLe ((r a).setWidth 32) ((r b).setWidth 32) then 1 else 0, 0))
  | cvtif d a : ScalarFloat (.sfpuCvtif d a) d (fun r => ((fOfInt (r a).toInt).w.zeroExtend 64, 0))
  | cvtfi d a : ScalarFloat (.sfpuCvtfi d a) d (fun r =>
      (BitVec.ofInt 64 (fToInt 0 (-(2 ^ 63)) (2 ^ 63 - 1) ((r a).setWidth 32)).1, (fToInt 0 (-(2 ^ 63)) (2 ^ 63 - 1) ((r a).setWidth 32)).2))

/-- The instructions that read a register of the team into a scalar (R116, R118). -/
inductive TeamRead : Instr → BitVec 5 → (Team → DWord) → Prop where
  | tsrGet d n : TeamRead (.tsrGet d n) d (fun t => dw (bitsOf (smGet 0 n.toNat t.ts) 51 0))
  | tsrLsr d : TeamRead (.tsrLsr d) d (fun t => t.lscale.zeroExtend 64)
  | tsrOvr d : TeamRead (.tsrOvr d) d (fun t => t.ovf)
  | tsrFlr d : TeamRead (.tsrFlr d) d (fun t => t.flags)
  | kregRd d n : TeamRead (.kregRd d n) d (fun t => smGet 0 n.toNat t.kview)

/-- The instructions that change only registers of the issuing team, with the change (R112, R116, R117). -/
inductive TeamWrite : Instr → (Frag → Team → Team) → Prop where
  | lsw a : TeamWrite (.tsrLsw a) (fun f t => { t with lscale := (sGet t f.handler a.toNat).setWidth 32 })
  | xps1 n k : TeamWrite (.xps 1 n k) (fun _ t => { t with x1 := ⟨k, n⟩ })
  | xps2 n k : TeamWrite (.xps 2 n k) (fun _ t => { t with x2 := ⟨k, n⟩ })
  | xps3 n k : TeamWrite (.xps 3 n k) (fun _ t => { t with x3 := ⟨k, n⟩ })
  | nop : TeamWrite .nop (fun _ t => t)
  | yield : TeamWrite .yield (fun _ t => t)

/-- The effect of an instruction of one pass that changes only its team. -/
def TeamChanged (s s' : State) (i : Nat) (f : Frag) (t t' : Team) : Prop :=
  OnlyTeam true 4 s s' i f t ∧ s'.ops = s.ops ∧ amGet f.team s'.teams = some t'



/-! ### Accesses of a pass -/

/-- No agent but the team has a write on record to a byte of the spans: its reads find what stands there (R36). -/
abbrev NoForeign (s : State) (team : Nat) (spans : List (Nat × Nat)) : Prop :=
  ∀ w ∈ s.hist, w.writer = team ∨ ∀ p ∈ spans, w.meets p.1 p.2 = false

/-- No earlier load of the team has still to read bytes of the spans (R36). -/
abbrev NoneBehind (s : State) (team : Nat) (spans : List (Nat × Nat)) : Prop := ∀ p ∈ spans, readsBehind s team s.seq p = false

/-- The number that n bytes of a span hold in memory, from byte `off` of the span on, given the span's pieces. -/
def memNat (s : State) (ps : List (Spot × Nat)) (off n : Nat) : Nat :=
  bytesNat ((upFrom off n).map (fun k => rdByte s (paAt ps k)))

/-- What bytes placed in order leave at an address: the last one placed there. -/
def storedAt (cells : List (Spot × Byte)) (a : Nat) : Option Byte :=
  cells.foldl (fun r c => match c.1 with | .at pa _ => if pa = a then some c.2 else r | .log _ _ => r) none

/-- No watchpoint is hit by the accesses (lane, address, length) of a kind (R391). -/
abbrev Unwatched (s : State) (t : Team) (kind : Nat) (spans : List (Nat × Int × Nat)) : Prop :=
  ∀ u, amGet t.unit s.units = some u → watchHit s (dieOf t.gcore) u.ctx (secureTeam s t) kind spans = none

/-- An access of n bytes at an exact address, checked in the order of R189 or R115: the trap of the first check that fails, with the
address named as HADDR and the lane as HINFO; and where its bytes lie: at the offset of its unit's scratchpad allocation (R24), or on the
page that its address, or the address a stack access is converted to (R25), translates to, when it lies on one page. `stack` is 0 where the stack aperture
is out of range altogether (R115, R202), 1 where an access there lies in one 16-byte unit (R190), 2 where it is converted by parts (R204). -/
def AccessChecked (acc : Res (List (Spot × Nat))) (i : Nat) (t : Team) (u : UnitSt) (s : State) (lane : Nat) (ea : Int) (n align : Nat)
    (need : Need) (scalar scratchOnly : Bool) (stack : Nat) : Prop :=
  let h : DWord := BitVec.ofInt 64 ea
  let a := ea.toNat
  let raises := fun (c : Nat) => acc = .error (s, .trap c h (dw lane))
  let first := 0xFF80000000000000
  let inScratch := first ≤ a ∧ a + n ≤ first + 2 ^ 24
  let core := (a - first) / 2 ^ 19
  let off := (a - first) % 2 ^ 19
  let o := a - 0xFFC0000000000000
  let inStack := 0xFFC0000000000000 ≤ a ∧ a + n ≤ 0xFFC0000400000000
  let far := t.tsb.toNat + o / 16 * 16 * t.lanes + 16 * lane + o % 16
  let global := fun (g : Nat) => (g + n ≤ 2 ^ 56 ∨ 2 ^ 64 - 2 ^ 56 ≤ g ∧ g + n ≤ 2 ^ 64) ∧ aperture g = 0 ∧ aperture (g + n - 1) = 0
  let info := fun (world : Bool) => dw (need.kind + b2n scalar * 4 + b2n world * 16 + lane * 2 ^ 8)
  let onPage := fun (g : Nat) => g % 2 ^ 16 + n ≤ 2 ^ 16 → ∀ x v, translate u.ctx t.gcore g need s = (x, v) →
    (∀ pa e, x = .page pa e → behindAppend v i pa n (need.kind == 0) = false →
      acc = if need.w = true ∧ e.getLsbD 9 = true then .error (v, .trap 0x0E h (dw lane)) else .ok (v, [(.at pa e, n)])) ∧
    (∀ world, x = .denied world → acc = .error (v, .trap 0x11 h (info world))) ∧
    (x = .malformed → acc = .error (v, .trap 0x12 h 6)) ∧
    (∀ e, x = .loggable e → need.w = true → need.r = false →
      acc = .ok ((tileOf u.ctx g e v).2, [(.log (tileOf u.ctx g e v).1 (g % 2 ^ 16), n)])) ∧
    (∀ e, x = .touch e → mergeFind v (dieOf t.gcore) u.ctx false (g / 2 ^ 16) = none →
      (v.merge.filter (fun m => decide (m.1 / 2048 = dieOf t.gcore))).length < 2048 →
      ∃ w, acc = .error (w, .trap 0x10 h (info false)))
  let placed := fun (g : Nat) => if scratchOnly = true then raises 0x0B else if a % align ≠ 0 then raises 0x0D else onPage g
  if ea < 0 ∨ (2 : Int) ^ 64 < ea + n then raises 0x09
  else if 2 ^ 56 ≤ a ∧ a < 2 ^ 64 - 2 ^ 56 then raises 0x08
  else if a < 2 ^ 56 ∧ 2 ^ 56 < a + n then raises 0x09
  else if inScratch then
    (∀ base size, core < 16 → amGet (u.cluster * 16 + core) u.scratch = some (base, size) → off + n ≤ size →
      if a % align ≠ 0 then raises 0x0D else acc = .ok (s, [(.at (base + off) 0, n)])) ∧
    ((∀ base size, core < 16 → amGet (u.cluster * 16 + core) u.scratch = some (base, size) → size < off + n) → raises 0x0B)
  else if inStack then
    if stack = 0 ∨ u.lstk < o + n ∨ (stack = 1 ∧ (16 < o % 16 + n ∨ ¬ global far)) then raises 0x0C
    else stack = 1 → placed far
  else if global a then placed a
  else raises 0x0A

/-- What the leaf that a walk ends at gives an access (R282, R285): nothing is judged of a malformed entry; then come the world, the
permission, and the page's type, a PAGE entry's address being its frame's bits over the address's low 16 or 21 bits (R281). -/
def LeafJudged (secure : Bool) (need : Need) (va : Nat) (w : Walked) (x : Xlat) : Prop :=
  let e := w.entry
  let kind := e.toNat % 8
  if w.bad = true then x = .malformed
  else if kind = 0 then x = .host 0 w.large
  else if secure = false ∧ e.getLsbD 6 = true then x = .denied true
  else if (need.r = true ∧ e.getLsbD 3 = false) ∨ (need.w = true ∧ e.getLsbD 4 = false) then x = .denied false
  else if need.x = true ∧ e.getLsbD 5 = false then x = .noexec
  else if kind = 2 then x = .page (e.toNat / 2 ^ 16 % 2 ^ 32 * 2 ^ 16 + va % (if w.large = true then 2 ^ 21 else 2 ^ 16)) e
  else if e.getLsbD 10 = true then x = .loggable e
  else if kind = 3 then x = .touch e
  else x = .host e w.large

/-- The value of a full binary tree of additions of e's kind over leaves, each at one place (R198). -/
inductive CombinedAdds (e : AddElem) : List (Word × Word) → Word × Word → Prop where
  | leaf x : CombinedAdds e [x] x
  | node l r x y : CombinedAdds e l x → CombinedAdds e r y →
      CombinedAdds e (l ++ r) (addApplied { e with mean := y.1, spread := y.2 } x.1 x.2)
  | arrange l r x : l.Perm r → CombinedAdds e l x → CombinedAdds e r x

/-- No add-on-store of the team is on its way. -/
abbrev NoAdds (s : State) (team : Nat) : Prop := ∀ o ∈ s.ops, o.2.team = team → ∀ es, o.2.body ≠ .adds es

/-- The frame of an instruction of the access unit: its passes tag its fragment with the clause's set-A flag (R77); of the architecture, only the fragment's place, its core's issue tick, memory
with its past and its full-empty bits, what is in flight, translation caches and logs, and work weights may differ. No
register of any team differs. -/
def AccessFrame (whole : Bool) (s s' : State) (i : Nat) (f : Frag) (t : Team) : Prop :=
  s' = { s with
    frags := s'.frags, issued := s'.issued, ops := s'.ops, seq := s'.seq, mem := s'.mem, hist := s'.hist, seen := s'.seen,
    rels := s'.rels, full := s'.full, tlb := s'.tlb, walks := s'.walks, free := s'.free, tiles := s'.tiles, units := s'.units,
    phases := s'.phases } ∧
  (∀ k, k ≠ i → amGet k s'.frags = amGet k s.frags) ∧
  (∃ f', amGet i s'.frags = some f' ∧ MovedOn whole 4 s.toll { f with tagging := f.setA.or f.tagging } f') ∧
  s'.issued = amPut t.gcore (s.toll + 1) s.issued ∧
  (∀ k, (amGet k s'.units).map (fun u => { u with weight := 0 }) = (amGet k s.units).map (fun u => { u with weight := 0 })) ∧
  (∀ k, (amGet k s'.phases).map (fun p => { p with root := 0 }) = (amGet k s.phases).map (fun p => { p with root := 0 }))

/-- An operation of the team has entered flight with a tag and a body. -/
def Issued (s s' : State) (team : Nat) (tag : Option Nat) (body : OpBody) : Prop :=
  ∃ n o, s.seq ≤ n ∧ amGet n s'.ops = some o ∧ o.team = team ∧ o.tag = tag ∧ o.body = body

/-- An operation of the team has left flight, or stands at another body; nothing else of the machine but the team's registers and
the results in flight differs. -/
def OnlyResults (s s' : State) (team : Nat) : Prop :=
  s' = { s with teams := s'.teams, ops := s'.ops, phases := s'.phases, free := s'.free } ∧
  (∀ k, k ≠ team → amGet k s'.teams = amGet k s.teams) ∧
  (∀ k, (amGet k s'.phases).map (fun p => { p with root := 0 }) = (amGet k s.phases).map (fun p => { p with root := 0 }))


/-- No fragment is stepped or about to stop for the debug unit (R393, R394). -/
abbrev Undebugged (s : State) : Prop := ∀ e ∈ s.frags, e.2.hit = none ∧ e.2.stopFor = none ∧ e.2.stepping = none

/-! ### The matrix engine and other engines -/

/-- Every write on record happens before the agent's reads: they find what stands in memory (R48). -/
abbrev AllSeenBy (s : State) (agent : Nat) : Prop := ∀ w ∈ s.hist, w.forces agent = true

/-- The core's governor lets an operation of so many array cycles issue (R275). -/
abbrev GovernorOpen (s : State) (t : Team) (cycles : Nat) : Prop :=
  cycles = 0 ∨ (govNow s (clusterOf t.gcore)).budget = 0xFFFF ∨
    (govNow s (clusterOf t.gcore)).used < (govNow s (clusterOf t.gcore)).budget

/-- The state with an operation's array cycles charged to its cluster's window (R275). -/
def charged (t : Team) (cycles : Nat) (s : State) : State :=
  if cycles = 0 then s
  else
    let g := govNow s (clusterOf t.gcore)
    { s with gov := amPut (clusterOf t.gcore) { g with used := min (g.used + cycles) 0xFFFF } s.gov }

/-- A matrix instruction of a kind on tile n + TOFF with shape register ts may issue: every lane, a legal record, a declared
tile, room in the queue and the governor open (R259, R260, R275). -/
abbrev MatrixReady (s : State) (i : Nat) (f : Frag) (t : Team) (u : UnitSt) (kind n ts : Nat) : Prop :=
  current s = some (i, f, t) ∧ amGet t.unit s.units = some u ∧ f.mask = fullMask t.lanes ∧
  recordOk kind (smGet 0 ts t.ts) = true ∧ n + recToff (smGet 0 ts t.ts) < t.accCount ∧ queueLen s t.gcore < 32 ∧
  GovernorOpen s t (chargeOf kind (smGet 0 ts t.ts))

/-- The operation that it enters. -/
def matEntry (s : State) (f : Frag) (t : Team) (kind n ts x y : Nat) : MatOp :=
  { matOp s f t kind 0 ts x y with tile := n + recToff (smGet 0 ts t.ts) }

/-- The tiles of 2^k parts from c on, combined in pairs (R274). -/
def treeOf (tile : Nat → List DWord) (acct : Nat → Bool) : Nat → Nat → List DWord
  | 0, c => tile c
  | k + 1, c => List.zipWith (treeElem (acct c)) (treeOf tile acct k c) (treeOf tile acct k (c + 2 ^ k))

/-- A folio of a core's scratchpad as memory holds it. -/
def folioAt (s : State) (o : Op) (off size : Nat) : Nat :=
  rdNat s ((match amGet o.unit s.units with
    | some u => (match amGet o.gcore u.scratch with | some (b, _) => b | none => 0)
    | none => 0) + off) size

/-- The places of a selection's region are known: y is it with them, and v the state once they are (R332). -/
def RegionKnown (op : Nat) (o : Op) (x : Selection) (s : State) (y : Selection) (v : State) : Prop :=
  (x.places ≠ [] ∧ y = x ∧ v = s) ∨
  (x.places = [] ∧ ∃ r s1, reachAll (selectEng op o) x.spans s = (r, s1) ∧ reachFaults r = [] ∧ reachWaits r = false ∧
    y = { x with places := (upFrom 0 x.spans.length).map (fun n => (n, reachPa r n)) } ∧ v = setBody op (.select y) s1)

/-! ### Commands (R365, R366) -/

/-- A command starts now: it is its queue's next entry and not begun, the commands before it allow it, its context is not being
destroyed, its reserved fields are 0, its queue takes it (`admin`) and records as `rec_` says, it has no wait, no failed access of its
queue is to be reported, and it is no part of a cancelled replay. -/
abbrev CommandStarts (s : State) (c : Command) (q : Queue) (admin : Bool) (rec_ : Option (Nat × Graph)) : Prop :=
  pendingOf s c = none ∧ amGet c.queue s.queues = some q ∧ c.idx = q.head ∧ inOrder q c = true ∧
  (∀ x, amGet q.ctx s.ctxs = some x → x.dying = false) ∧ c.flags.toNat ≤ 1 ∧ c.res0 = 0 ∧ (c.queue == adminQueue) = admin ∧
  q.recording = rec_ ∧ c.waitCtr = 0 ∧ amGet c.queue s.agentFaults = none ∧ (c.queue < 2 ^ 20 ∨ q.cancelled = false)

/-- Every command, with whether the administrative queue takes it (the two changes of a mapping by their OP). -/
def allCommands (c : Command) : List (Instr × Bool) :=
  [Instr.ctxCreate c, .ctxDestroy c, .queueCreate c, .queueDestroy c].map (fun i => (i, true)) ++
  [Instr.memMap c, .tileEvict c, .faultReply c, .bufDeclare c, .launch c, .graphBegin c, .graphEnd c, .graphReplay c, .phaseOpen c,
   .phaseClose c, .cancel c, .crlBind c, .crlFree c, .crlLoad c, .crlRestart c, .batchUpdate c, .batchIter c,
   .signal c].map (fun i => (i, false)) ++
  (if c.op = 0x11 then [(Instr.memUnmap c, false)] else []) ++ (if c.op = 0x12 then [(Instr.memProtect c, false)] else [])

/-! ### The Carillon -/

/-- Context n, holding c, is selected for its next microinstruction. -/
abbrev CrlCurrent (s : State) (n : Nat) (c : Crl) : Prop := s.curCrl = some n ∧ amGet n s.crls = some c

/-- A context enters WAITING, HALTED or FAULTED as c' says: it is not blocked, and the weight it held is back in its phases
(R359). Nothing else of the machine but its place in the merge tables differs. -/
def CrlRested (s s' : State) (n : Nat) (c c' : Crl) : Prop :=
  s' = { s with crls := s'.crls, merge := s'.merge, phases := s'.phases } ∧
  amGet n s'.crls = some { c' with weight := [], blocked := false, halting := false, fault := none } ∧
  (∀ k, k ≠ n → amGet k s'.crls = amGet k s.crls) ∧
  (∀ k p, amGet k s.phases = some p →
    amGet k s'.phases = some { p with root := p.root + ((c.weight.filter (fun w => w.1 == k)).map Prod.snd).sum })

/-- The microinstructions that compute one register (R344): destination, and result from the registers. -/
inductive CarillonArith : Instr → BitVec 4 → ((BitVec 4 → Word) → Word) → Prop where
  | cmovh i d : CarillonArith (.cmovh i d) d (fun _ => i.setWidth 32 <<< 16)
  | corl i d : CarillonArith (.corl i d) d (fun r => r d ||| i.setWidth 32)
  | fadd b a d : CarillonArith (.carillonFadd b a d) d (fun r => (fAdd (r a) (r b)).w)
  | fsub b a d : CarillonArith (.carillonFsub b a d) d (fun r => (fSub (r a) (r b)).w)
  | fmul b a d : CarillonArith (.carillonFmul b a d) d (fun r => (fMul (r a) (r b)).w)
  | fdiv b a d : CarillonArith (.carillonFdiv b a d) d (fun r => (fDiv (r a) (r b)).w)

/-- A microinstruction that faults its context whatever the context's accesses find, with FCAUSE (R344, R350, R354). -/
inductive MicroFault (c : Crl) : Instr → Nat → Prop where
  | illegal w : MicroFault c (.illegalOp w) 1
  | range : MicroFault c .pcRange 2
  | cond x a : MicroFault c (.br x 3 a) 1
  | window x a : 64 < x.toNat → MicroFault c (.cpen x a) 1
  | none_ : MicroFault c (.ctopk 0) 1
  | many x : 256 < x.toNat → MicroFault c (.ctopk x) 1
  | scope sc l a : sc.toNat < 3 ∨ 5 < sc.toNat → MicroFault c (.emit sc l a) 1
  | position x a d : 256 ≤ (c.reg a.toNat).toNat → MicroFault c (.cget x a d) 3

/-- The instruction's effect on context n is to make it c', and nothing else of the machine differs. -/
def MakesCrl (ins : Instr) (s : State) (n : Nat) (c' : Crl) : Prop := exec ins s = .next { s with crls := amPut n c' s.crls }

/-- The running sum of R345 up to and including a position. -/
def Crl.sumAt (c : Crl) (e : Nat) : Word := nth 0 (runningSums none c.values) e

/-- A live candidate's value is none that a draw can weigh: NaN, infinite or below −0, or so is their sum, or it is 0 (R348). -/
abbrev Crl.undrawable (c : Crl) : Prop :=
  c.ccnt = 0 ∨ (∃ e, e < c.ccnt ∧ (isNan (c.value e) = true ∨ isInf (c.value e) = true ∨ fLt (c.value e) 0x80000000 = true)) ∨
  isNan c.total = true ∨ isInf c.total = true ∨ isZero c.total = true

/-! ### Launches, halts and the host -/

/-- Teams and units have numbers that are given out, and launches and fragments stand in the order of theirs: what every step
keeps. -/
abbrev InOrder (s : State) : Prop :=
  amSorted s.launches = true ∧ amSorted s.frags = true ∧ (∀ e ∈ s.units, e.1 < s.seq) ∧ ∀ e ∈ s.teams, e.1 < s.seq ∧ e.2.unit < s.seq

/-- The launches of a level that are not finished are cancelled (R20, R21): each is marked, and no other is; the teams of their resident
units that still run have exited, with no fragment left; no byte of memory differs. -/
def LaunchesStopped (hit : Launch → Prop) (s s' : State) : Prop :=
  SameMemory s s' ∧
  (∀ k l, amGet k s.launches = some l → ∃ l', amGet k s'.launches = some l' ∧ (hit l → l.done = false → l'.cancelled = true) ∧
    (¬ hit l ∨ l.done = true → l'.cancelled = l.cancelled) ∧ l'.placed = l.placed ∧ l'.finished = l.finished) ∧
  (∀ k u l m t, amGet k s.units = some u → amGet u.launch s.launches = some l → hit l → l.done = false → m ∈ u.teams →
    amGet m s.teams = some t → t.unit = k → t.exited = false → t.left ≠ fullMask t.lanes →
    (∃ t', amGet m s'.teams = some t' ∧ t'.exited = true) ∧ (∀ e ∈ s'.frags, e.2.team ≠ m) ∧
    ∃ u', amGet k s'.units = some u' ∧ u'.cancelled = true)

/-- Team k of a unit of launch l is placed: on a core of the cluster, with the declared lanes, registers and tiles, its stack and
spill spans after those of the teams before it, every register 0 but s1 (ARGS) and s2 (the entry), and one fragment of every
lane at the entry (R17, R18, R105, R371). -/
def TeamPlaced (s s' : State) (l : Launch) (unit cl base k m : Nat) : Prop :=
  ∃ t i f, amGet m s'.teams = some t ∧ t.unit = unit ∧ t.idx = k ∧ t.gcore / 16 = cl ∧ t.lanes = l.lanes ∧ t.regs = l.regs ∧
    t.accCount = l.acc ∧ t.exited = false ∧ t.tagctr = 1 ∧ t.lscale = 0x3F800000 ∧
    t.tsb = dw (base + k * (l.lstk * l.lanes + l.ksz)) ∧ t.ksb = dw (base + k * (l.lstk * l.lanes + l.ksz) + l.lstk * l.lanes) ∧
    t.ksz = dw l.ksz ∧ (∀ n, smGet 0 n t.s = if n = 1 then l.args else if n = 2 then l.entryPc else 0) ∧
    (∀ lane r, dGet t lane r = 0) ∧
    amGet i s'.frags = some f ∧ f.team = m ∧ f.pc = l.entryPc ∧ f.mask = fullMask l.lanes ∧ f.key = s.toll + 1 ∧ f.handler = false
end Sys2Proof.Machine

end
end

