-- ==== Sys2Proof/Certificates/Slice0/Obligations.lean ====
section
/-! DEFINITION. What is claimed of the machine, for the provers. -/

open Sys2Proof Sys2Proof.Machine Host

/-- Each integer instruction writes the result of its formula in every lane of its pass and changes nothing else. For IADD to ISLTU,
IADD64, ISUB64, ADDI to ANDI, CLZ, POPC, BREV and the 16-bit integer forms (the table IntegerLane, which gives each one its
formula on 32-bit value words): in a mode it is defined in, with operands that fit the width, the group size and the declared
register count, exec answers a next state in which the destination groups of the lanes of this pass hold the results, with
spread words as R140 gives them for the mode; no flag is set; no other register, team, fragment, special register or byte of
memory differs; and the fragment is at its next pass or at the next instruction. The words of the three-register integer
instructions hold their major in bits [7:1] and the fields of the L format. -/
def Obligations.IntegerLanesGetTheirResults : Prop :=
  (∀ (ins : Instr) (k : LaneForm), IntegerLane ins k → ∀ (s : State) (i : Nat) (f : Frag) (t : Team),
    Ready s i f t → k.modes f.mode = true → k.fits t f.mode →
    ∃ s', exec ins s = .next s' ∧
      LanesWritten false k.len s s' i f t (passLanes f) k.d (k.ops * k.hd f.mode)
        (fun l x => nth 0 (k.result t f l (x / k.hd f.mode)).1 (x % k.hd f.mode)) 0) ∧
  (∀ (w : BitVec 2) (d a : BitVec 6) (p : BitVec 2) (b : BitVec 6) (q : BitVec 2),
    ([.iadd w d a p b q, .isub w d a p b q, .imul w d a p b q, .imulh w d a p b q, .imulhu w d a p b q, .imad w d a p b q, .iand
     w d a p b q, .ior w d a p b q, .ixor w d a p b q, .iandn w d a p b q, .ishl w d a p b q, .ishr w d a p b q, .isra w d a p b
     q, .imin w d a p b q, .imax w d a p b q, .umin w d a p b q, .umax w d a p b q, .iseq w d a p b q, .islt w d a p b q, .isltu
     w d a p b q, .iadd64 w d a p b q, .isub64 w d a p b q] : List Instr).map encode =
      (upFrom 0 22).map (fun major => 1 + 2 * major + 2 ^ 8 * w.toNat + 2 ^ 10 * d.toNat + 2 ^ 16 * a.toNat + 2 ^ 22 * p.toNat +
        2 ^ 24 * b.toNat + 2 ^ 30 * q.toNat))

/-- Each binary32 lane instruction writes its result in every lane of its pass and sets only the flags it meets. For FADD, FSUB,
FMUL, FMA, FMIN, FMAX, the comparisons, SEL, the function unit, the conversions, RND and the 16-bit forms (the table FloatLane,
which gives each one the function of its rule): in a mode it is defined in, with operands that fit, exec answers a next state in
which the destination groups of the lanes of this pass hold the results; FLAGS gains the bits that some lane met and no other,
OVF.LANE is set only with INV or OF; no other register, team, fragment or byte of memory differs. -/
def Obligations.FloatLanesGetTheirResults : Prop :=
  ∀ (ins : Instr) (k : LaneForm), FloatLane ins k → ∀ (s : State) (i : Nat) (f : Frag) (t : Team),
    Ready s i f t → k.modes f.mode = true → k.fits t f.mode →
    ∃ s', exec ins s = .next s' ∧
      LanesWritten false k.len s s' i f t (passLanes f) k.d (k.ops * k.hd f.mode)
        (fun l x => nth 0 (k.result t f l (x / k.hd f.mode)).1 (x % k.hd f.mode)) (k.flags t f)

/-- Each spread instruction writes its result in every lane of its pass and sets only the flags it meets. For DSET, DMEAN, DVAR,
DVAR.U, DSTD, DSTD.U, DSCALE, DFOLD.T, DFOLD.M, DFOLD.L, DCOV, DTOS, DTOS.L, STOD, DCLAMP and DFUSE (the table SpreadLane, with
the function of each rule and the modes it is defined in): exec answers a next state in which the destination groups of the
lanes of this pass hold the results; FLAGS gains the bits that some lane met; nothing else differs. -/
def Obligations.SpreadLanesGetTheirResults : Prop :=
  ∀ (ins : Instr) (k : LaneForm), SpreadLane ins k → ∀ (s : State) (i : Nat) (f : Frag) (t : Team),
    Ready s i f t → k.modes f.mode = true → k.fits t f.mode →
    ∃ s', exec ins s = .next s' ∧
      LanesWritten false k.len s s' i f t (passLanes f) k.d (k.ops * k.hd f.mode)
        (fun l x => nth 0 (k.result t f l (x / k.hd f.mode)).1 (x % k.hd f.mode)) (k.flags t f)

/-- A lane instruction that reaches a register at or beyond the declared count traps before any effect. For every instruction of the
tables IntegerLane, FloatLane and SpreadLane: when a register that an operand reaches within d0 to d63 is at or beyond the
team's declared register count, exec takes the illegal-instruction trap (cause 0x01, HINFO the instruction word) at this pass
and nothing else; when all are declared but the mode is not one of the instruction's or an operand is not a multiple of W·g or
passes d63, it takes ILLEGAL-MODE (cause 0x02). -/
def Obligations.LaneOperandsOutOfRangeTrap : Prop :=
  ∀ (ins : Instr) (k : LaneForm), (IntegerLane ins k ∨ FloatLane ins k ∨ SpreadLane ins k) →
    ∀ (s : State) (i : Nat) (f : Frag) (t : Team), current s = some (i, f, t) →
    let operands := (k.d, k.hd f.mode) :: k.srcs.map (fun a => (a.r, a.h f.mode))
    ((∃ r ∈ operands, t.regs ≤ min (r.1 + k.ops * r.2 - 1) 63) →
      exec ins s = .next (stopPass i f true s (.trap 0x01 0 (dw f.iword.toNat)))) ∧
    ((∀ r ∈ operands, min (r.1 + k.ops * r.2 - 1) 63 < t.regs) →
      (k.modes f.mode = false ∨ ∃ r ∈ operands, r.1 % (k.ops * r.2) ≠ 0 ∨ 64 < r.1 + k.ops * r.2) →
      exec ins s = .next (stopPass i f true s (.trap 0x02 0 (dw f.iword.toNat))))

/-- MOV, MOVI, MOVHI, LANE.INDEX, LANE.DIE, LANE.GCORE, DTAG.READ and SBCAST write exactly one whole register per lane. In every
mode, with the registers they name declared, exec answers a next state in which register d of each lane of the pass holds the
value of the table MoveLane (a copy, the zero-extended immediate, the immediate above the low half of the old mean word, the
lane number, die or core number). SBCAST.D, SBCAST.M and DTAG.READ write, in the lanes of each pass, the scalar, its low word
with a zero spread word, or the tag counter, as the instruction's first pass read it. No other register, flag, team, fragment or
byte of memory differs. -/
def Obligations.MovesWriteOneRegisterPerLane : Prop :=
  (∀ (ins : Instr) (len d : Nat) (others : List Nat) (val : Team → Nat → DWord), MoveLane ins len d others val →
    ∀ (s : State) (i : Nat) (f : Frag) (t : Team), Ready s i f t → d < t.regs → (∀ r ∈ others, r < t.regs) →
    ∃ s', exec ins s = .next s' ∧ LanesWritten false len s s' i f t (passLanes f) d 1 (fun l _ => val t l) 0) ∧
  (∀ (ins : Instr) (d : BitVec 6) (read : Frag → Team → DWord) (val : DWord → DWord), HeldLane ins d read val →
    ∀ (s : State) (i : Nat) (f : Frag) (t : Team), Ready s i f t → d.toNat < t.regs →
    let v := if firstPass f then read f t else f.latch
    let g := { f with latch := v }
    ∃ s', exec ins s = .next s' ∧
      LanesWritten false 4 (modFrag i (fun _ => g) s) s' i g t (passLanes f) d.toNat 1 (fun _ _ => val v) 0)

/-- PERM gives each lane the whole a-group of the lane of its pass that its index names. PERM: for operands that fit, lane l of the
pass receives, for operation j and register x of the group, the register of the lane 32·(l/32) + k read through slot p, where k
is the index word of b in l (through slot q) modulo 32; no flag and nothing else changes. Its word holds major 0x27 and the
fields of the L format. -/
def Obligations.PermuteMovesWholeGroups : Prop :=
  ∀ (w : BitVec 2) (d a : BitVec 6) (p : BitVec 2) (b : BitVec 6) (q : BitVec 2),
    encode (.perm w d a p b q) = 1 + 2 * 0x27 + 2 ^ 8 * w.toNat + 2 ^ 10 * d.toNat + 2 ^ 16 * a.toNat + 2 ^ 22 * p.toNat +
      2 ^ 24 * b.toNat + 2 ^ 30 * q.toNat ∧
    ∀ (s : State) (i : Nat) (f : Frag) (t : Team), Ready s i f t → (∀ r ∈ [d.toNat, a.toNat, b.toNat], groupFits t (2 ^ w.toNat) r (groupOf f.mode)) →
    ∃ s', exec (.perm w d a p b q) s = .next s' ∧
      LanesWritten false 4 s s' i f t (passLanes f) d.toNat (2 ^ w.toNat * groupOf f.mode)
        (fun l x =>
          let k := (meanOf (dGet t (srcLane t q.toNat l) (b.toNat + x / groupOf f.mode * groupOf f.mode))).toNat % 32
          dGet t (srcLane t p.toNat (32 * (l / 32) + k)) (a.toNat + x)) 0

/-- LANE.HOME writes the home of each lane's address, and says SCRATCH, NOTDEV, NONRES or UNMAPPED. When no address of the pass
traps (homeLanes answers), exec writes each lane's word into register d and goes on. The word is bit 30 and the issuing die for
an address within the team's scratchpad allocation; and for a global address by its translation: bit 31 for a physical address
of the host, the slice and die of device memory, bit 29 for a tile that is not resident, bit 28 for a page not mapped. -/
def Obligations.HomeOfAnAddressIsReported : Prop :=
  (∀ (d a : BitVec 6) (p : BitVec 2) (s u : State) (i : Nat) (f : Frag) (t : Team) (hs : List (Nat × Nat)),
    current s = some (i, f, t) → d.toNat < t.regs → a.toNat < t.regs →
    homeLanes t p.toNat a.toNat (passLanes f) s = .ok (u, hs) →
    exec (.laneHome d a p) s = .next (passDone i 4 (writeLanes f.team (hs.map (fun x => (x.1, d.toNat, dw x.2))) u))) ∧
  (∀ (t : Team) (u : UnitSt) (l : Nat) (a : DWord) (s : State), unitOf s t = some u → checkSpan a.toNat 1 = none →
    (aperture a.toNat = 1 → (scratchSpot u a.toNat 1).isSome → homeLane t l a s = .ok (s, 2 ^ 30 + dieOf t.gcore * 2 ^ 8)) ∧
    (aperture a.toNat ≠ 1 → aperture a.toNat ≠ 2 →
      (∀ pa e v, translate u.ctx t.gcore a.toNat needLoad s = (.page pa e, v) →
        homeLane t l a s = .ok (v, if 2 ^ 40 ≤ pa then 2 ^ 31 else homeSlice pa + pa / 2 ^ 39 % 2 * 2 ^ 8)) ∧
      (∀ e v, translate u.ctx t.gcore a.toNat needLoad s = (.loggable e, v) →
        homeLane t l a s = .ok (v, 2 ^ 29 + homeDie e false a.toNat * 2 ^ 8)) ∧
      (∀ e v, translate u.ctx t.gcore a.toNat needLoad s = (.touch e, v) →
        homeLane t l a s = .ok (v, 2 ^ 28 + homeDie e false a.toNat * 2 ^ 8))))

/-- An integer reduction gives every active lane the combination of all active lanes; an integer scan, that of the lanes up to its
own. For XRED.IADD, IMIN, IMAX, UMIN, UMAX, IAND, IOR, IXOR: in PLAIN or MOM, with declared registers, register d of every
active lane becomes the combination of the mean words of register a over the active lanes (read through the pattern slot), with
a zero spread word, whatever the tree of the combinations. XRED.ISCAN gives each active lane the sum modulo 2^32 over the active
lanes up to it, XRED.ISCANX that over those before it. All passes take effect together; no flag and nothing else changes. -/
def Obligations.IntegerReductionsCombineActiveLanes : Prop :=
  (∀ (ins : Instr) (d a : BitVec 6) (p : BitVec 2) (op : Word → Word → Word), IntegerReduction ins d a p op →
    ∀ (s : State) (i : Nat) (f : Frag) (t : Team), Ready s i f t → reductionFits f t d a →
    ∃ s', exec ins s = .next s' ∧
      PassesWritten s s' i f t (activeLanes t f) d.toNat
        (fun _ => reg (reduce op (activeMeans t f p.toNat a.toNat)) 0) 0) ∧
  (∀ (d a : BitVec 6) (p : BitVec 2) (s : State) (i : Nat) (f : Frag) (t : Team), Ready s i f t → reductionFits f t d a →
    (∃ s', exec (.xredIscan d a p) s = .next s' ∧
      PassesWritten s s' i f t (activeLanes t f) d.toNat
        (fun l => reg ((((activeLanes t f).filter (fun m => decide (m ≤ l))).map
          (fun m => meanOf (dGet t (srcLane t p.toNat m) a.toNat))).foldl (fun x y => x + y) 0) 0) 0) ∧
    (∃ s', exec (.xredIscanx d a p) s = .next s' ∧
      PassesWritten s s' i f t (activeLanes t f) d.toNat
        (fun l => reg ((((activeLanes t f).filter (fun m => decide (m < l))).map
          (fun m => meanOf (dGet t (srcLane t p.toNat m) a.toNat))).foldl (fun x y => x + y) 0) 0) 0))

/-- A floating-point reduction combines the active lanes in tree order, a scan in lane order, and sets the flags its combinations
meet. XRED.FADD, FMIN and FMAX give every active lane the result of the tree of R155 over the lanes of the team, an inactive
lane being an empty position; XRED.FSCAN and FSCANX give each active lane the running sum in lane order, inclusive or exclusive.
Each combination is the instruction of the same name in the clause's mode, and FLAGS gains what the combinations meet. -/
def Obligations.FloatReductionsFollowTheTree : Prop :=
  (∀ (ins : Instr) (d a : BitVec 6) (p : BitVec 2) (fn : LaneFn), FloatReduction ins d a p fn →
    ∀ (s : State) (i : Nat) (f : Frag) (t : Team), Ready s i f t → reductionFits f t d a →
    let r := treeAll (combFp f.mode f.acct fn) 11
      ((upFrom 0 t.lanes).map (fun l => if laneOn f.mask l then some (reductionOperand t f p.toNat a.toNat l) else none))
    ∃ s', exec ins s = .next s' ∧ PassesWritten s s' i f t (activeLanes t f) d.toNat (fun _ => r.1.getD 0) r.2) ∧
  (∀ (d a : BitVec 6) (p : BitVec 2) (s : State) (i : Nat) (f : Frag) (t : Team), Ready s i f t → reductionFits f t d a →
    let runs := fun excl => scanFrom (combFp f.mode f.acct (fpFn opAdd)) excl 0 none
      ((activeLanes t f).map (fun l => (l, reductionOperand t f p.toNat a.toNat l)))
    (∃ s', exec (.xredFscan d a p) s = .next s' ∧
      PassesWritten s s' i f t (activeLanes t f) d.toNat (fun l => (amGet l (runs false).1).getD 0) (runs false).2) ∧
    (∃ s', exec (.xredFscanx d a p) s = .next s' ∧
      PassesWritten s s' i f t (activeLanes t f) d.toNat (fun l => (amGet l (runs true).1).getD 0) (runs true).2))

/-- Each VOTE writes what its table says of the active lanes into a scalar register, and changes nothing else. VOTE.ANY, ALL, COUNT,
FIRST and BALLOT over register a of every active lane through slot p, with a declared. Every pass finds of its lanes those whose
mean word is not 0, keeps those of the passes before, and the first also reads the lowest lane's whole register (voted). A pass
that is not the last leaves the fragment at its next pass with what it found; the last, when the matrix engine holds no lock on
the destination, answers a next state in which the scalar destination holds 1 or 0, the count, the lowest lane's register, or
the ballot word of 64 lanes; only that register and the fragment's place differ. An undeclared a raises ILLEGAL-INSTRUCTION. -/
def Obligations.VotesCountActiveLanes : Prop :=
  (∀ (ins : Instr) (n : BitVec 5) (a : BitVec 6) (p : BitVec 2) (told : Frag → DWord → Prop), Vote ins n a p told →
    ∀ (s : State) (i : Nat) (f : Frag) (t : Team), Ready s i f t →
    let g := voted t f p.toNat a.toNat
    (t.regs ≤ a.toNat → exec ins s = .next (stopPass i f true s (.trap 0x01 0 (dw f.iword.toNat)))) ∧
    (a.toNat < t.regs →
      (lastPass f = false → exec ins s = .next (passDone i 4 (setFrag i g s))) ∧
      (lastPass f = true → ScalarFree s f n.toNat → ∃ s' v, exec ins s = .next s' ∧ told g v ∧ ScalarWritten 4 s s' i f t n.toNat v))) ∧
  (∀ (t : Team) (f : Frag) (x a l : Nat), l < 1024 → (voted t f x a).taken.getLsbD l =
    ((decide (l ∈ passLanes f) && meanOf (dGet t (srcLane t x l) a) != 0) || (!firstPass f && f.taken.getLsbD l)))

/-- Each SALU and SALUI instruction writes its 64-bit result into its scalar register and changes nothing else. For the sixteen SALU
and ten SALUI instructions (the table ScalarArith, with the formula of each): when no matrix operation has the destination
locked, exec answers a next state in which the destination holds the result (a write to s0 is discarded, a handler's s24 to s31
are its bank); no flag, no other register, nothing else of the machine differs, but that earlier results still on their way to
that register are superseded. Scalar 0 reads as 0 always; a write to scalar n is read back from n, unless n is 0, and from no
other; and a handler's s24 to s31 and the main ones do not reach each other. -/
def Obligations.ScalarArithmeticWritesItsResult : Prop :=
  (∀ (ins : Instr) (n : BitVec 5) (val : (BitVec 5 → DWord) → DWord), ScalarArith ins n val →
    ∀ (s : State) (i : Nat) (f : Frag) (t : Team), Ready s i f t → ScalarFree s f n.toNat →
    ∃ s', exec ins s = .next s' ∧ ScalarWritten 4 s s' i f t n.toNat (val (fun r => sGet t f.handler r.toNat))) ∧
  (∀ (t : Team) (h : Bool) (n m : Nat) (v : DWord), n < 32 → m < 32 →
    sGet t h 0 = 0 ∧
    sGet (putDest (sDest h n) v t) h m = (if m = n ∧ n ≠ 0 then v else sGet t h m) ∧
    (24 ≤ n → sGet (putDest (sDest true n) v t) false m = sGet t false m ∧ sGet (putDest (sDest false n) v t) true n = sGet t true n))

/-- Each SFPU instruction writes its result and sets OVF.SCALAR only for overflow, invalid operations and division by zero. For the
eleven SFPU instructions (the table ScalarFloat): when the destination is not locked, exec answers a next state in which the
destination holds the result with a zero upper word (all 64 bits for CVTFI), OVF bit 3 is set if an overflow, invalid operation
or division by zero was met and is otherwise as before; FLAGS and everything else are unchanged. -/
def Obligations.ScalarFloatWritesItsResult : Prop :=
  ∀ (ins : Instr) (n : BitVec 5) (val : (BitVec 5 → DWord) → DWord × Nat), ScalarFloat ins n val →
    ∀ (s : State) (i : Nat) (f : Frag) (t : Team), Ready s i f t → ScalarFree s f n.toNat →
    let r := val (fun r => sGet t f.handler r.toNat)
    ∃ s', exec ins s = .next s' ∧ OnlyTeam true 4 s s' i f t ∧ s'.ops = killEarlier f.team s.seq [sDest f.handler n.toNat] s.ops ∧
      amGet f.team s'.teams = some (if r.2 &&& (fINV + fOF + fDZ) = 0 then putDest (sDest f.handler n.toNat) r.1 t
        else { putDest (sDest f.handler n.toNat) r.1 t with ovf := t.ovf ||| 8 })

/-- TSR, XPS, KREG.RD, DTAG.RESET, NOP and YIELD read or write the team register they name and nothing else. TSR.GET, LSR, OVR, FLR
and KREG.RD write the team register into the scalar destination; TSR.OVC and FLC write the old OVF or FLAGS into the destination
and clear the bits named, both in one step; TSR.GET reads the reserved bits [63:52] of a shape as 0; TSR.SET writes the whole
scalar into ts[N] when no queued matrix operation has it locked; TSR.LSW and XPS (slots 1 to 3) write their register; DTAG.RESET
issues its passes and sets the tag counter to 1 with the first of them; NOP and YIELD change nothing but the fragment's place.
Nothing else of the machine differs. -/
def Obligations.TeamRegistersAreReadAndWritten : Prop :=
  (∀ (ins : Instr) (n : BitVec 5) (val : Team → DWord), TeamRead ins n val →
    ∀ (s : State) (i : Nat) (f : Frag) (t : Team), Ready s i f t → ScalarFree s f n.toNat →
    ∃ s', exec ins s = .next s' ∧ ScalarWritten 4 s s' i f t n.toNat (val t)) ∧
  (∀ (ins : Instr) (g : Frag → Team → Team), TeamWrite ins g → ∀ (s : State) (i : Nat) (f : Frag) (t : Team), Ready s i f t →
    ∃ s', exec ins s = .next s' ∧ TeamChanged s s' i f t (g f t)) ∧
  (∀ (n a : BitVec 5) (s : State) (i : Nat) (f : Frag) (t : Team), Ready s i f t → ScalarFree s f n.toNat →
    (∃ s', exec (.tsrOvc n a) s = .next s' ∧ OnlyTeam true 4 s s' i f t ∧
      s'.ops = killEarlier f.team s.seq [sDest f.handler n.toNat] s.ops ∧ amGet f.team s'.teams =
        some { putDest (sDest f.handler n.toNat) t.ovf t with ovf := t.ovf &&& ~~~(sGet t f.handler a.toNat) }) ∧
    (∃ s', exec (.tsrFlc n a) s = .next s' ∧ OnlyTeam true 4 s s' i f t ∧
      s'.ops = killEarlier f.team s.seq [sDest f.handler n.toNat] s.ops ∧ amGet f.team s'.teams =
        some { putDest (sDest f.handler n.toNat) t.flags t with flags := t.flags &&& ~~~(sGet t f.handler a.toNat) })) ∧
  (∀ (n : BitVec 3) (a : BitVec 5) (s : State) (i : Nat) (f : Frag) (t : Team), Ready s i f t →
    locked s f.team (fun l => l.1 == n.toNat) = false → lockedWaiting s f.team (fun l => l.1 == n.toNat) = false →
    ∃ s', exec (.tsrSet n a) s = .next s' ∧
      TeamChanged s s' i f t { t with ts := smPut 0 n.toNat (sGet t f.handler a.toNat) t.ts }) ∧
  (∀ (s : State) (i : Nat) (f : Frag) (t : Team), Ready s i f t →
    ∃ s', exec .dtagReset s = .next s' ∧ OnlyTeam false 4 s s' i f t ∧ s'.ops = s.ops ∧
      amGet f.team s'.teams = some (if firstPass f then { t with tagctr := 1 } else t))

/-- KREG.WR writes the unit's register and the writer's view, and KREG.ADD returns the current value and adds in the same step.
KREG.WR sets register kN of the unit and the issuing team's view of it to the scalar; KREG.ADD writes the unit's current kN (not
the team's view) into the destination, when it is not locked, and sets kN and the team's view to that value plus the scalar
modulo 2^64. The fragment goes on to its next instruction; no other team's view changes. -/
def Obligations.UnitRegistersAddIndivisibly : Prop :=
  ∀ (n : BitVec 4) (d a : BitVec 5) (s : State) (i : Nat) (f : Frag) (t : Team) (u : UnitSt),
    current s = some (i, f, t) → amGet t.unit s.units = some u →
    let put := fun (v : DWord) (s : State) => { s with
      units := amMod t.unit (fun u => { u with k := smPut 0 n.toNat v u.k, kLast := (s.toll, t.idx) }) s.units,
      teams := amMod f.team (fun x => { x with kview := smPut 0 n.toNat v x.kview }) s.teams }
    exec (.kregWr n a) s = .next (advance i 4 (put (sGet t f.handler a.toNat) s)) ∧
    (ScalarFree s f d.toNat →
      exec (.kregAdd d n a) s =
        .next (advance i 4 (put (smGet 0 n.toNat u.k + sGet t f.handler a.toNat) (writeScalar f d.toNat (smGet 0 n.toNat u.k) s))))

/-- SYS.RD gives any fragment the registers of R108 marked Any, gives a handler the others, and traps otherwise. When no matrix
operation has the destination locked: for each register number 0 to 14, in a handler or not, exec answers a next state in which
the scalar destination holds the value of the map (IDPART, IDCORE, TOLL, TEAMID, UNITID, GRID, ARGS, TSB, LSTK, KSB, KSZ,
GOVSTAT, CTXID, SHE, KSP, each given field by field), and nothing else differs; numbers 16 to 20 and 22 give a handler HCAUSE,
HADDR, HPC, HINFO, HSEL and HDPC likewise, and 21 HCTL: STOP of team HSEL, and a STATE that describes it (5 for no team, 4 for
one that has exited, else one of stopped, in a handler, holding a trap pending, or 0 for none of them). In any other fragment
numbers 16 to 22 raise PRIVILEGED (cause 0x05); 15 and those from 23 on raise ILLEGAL-INSTRUCTION in every fragment. -/
def Obligations.SystemRegistersAreReadByPrivilege : Prop :=
  ∀ (d n : BitVec 5) (s : State) (i : Nat) (f : Frag) (t : Team) (u : UnitSt),
    Ready s i f t → amGet t.unit s.units = some u →
    (ScalarFree s f d.toNat →
      let reads := fun (v : DWord) => ∃ s', exec (.sysRd d n) s = .next s' ∧ ScalarWritten 4 s s' i f t d.toNat v
      let g := govOf s (t.gcore / 16)
      let used := if g.window = s.toll / 1024 then g.used else 0
      (n = 0 → reads (dw (0x9100 + Config.stepping.toNat * 2 ^ 16 + 2 ^ 20 + 0x0D2F * 2 ^ 24 + 2 * 2 ^ 40))) ∧
      (n = 1 → reads (dw (t.gcore % 4 + t.gcore / 4 % 4 * 2 ^ 2 + t.gcore / 16 % 48 * 2 ^ 4 + t.gcore / 768 * 2 ^ 10 + t.gcore * 2 ^ 11))) ∧
      (n = 2 → reads (dw s.toll)) ∧
      (n = 3 → reads (dw (t.idx + (u.teams.length - 1) * 2 ^ 4 + t.lanes * 2 ^ 8 + t.gcore % 16 * 2 ^ 19 + t.tslot * 2 ^ 23 +
        t.regs * 2 ^ 27))) ∧
      (n = 4 → reads (dw (u.x + u.y * 2 ^ 16 + u.z * 2 ^ 32))) ∧
      (n = 5 → reads (dw (u.gridX + u.gridY * 2 ^ 16 + u.gridZ * 2 ^ 32))) ∧
      (n = 6 → reads u.args) ∧ (n = 7 → reads t.tsb) ∧ (n = 8 → reads (dw u.lstk)) ∧ (n = 9 → reads t.ksb) ∧ (n = 10 → reads t.ksz) ∧
      (n = 11 → reads (dw (min g.budget 0xFFFF + min used 0xFFFF * 2 ^ 16 + min g.stalls (2 ^ 32 - 1) * 2 ^ 32))) ∧
      (n = 12 → reads (dw (u.ctx + (if ∃ c, amGet u.ctx s.ctxs = some c ∧ c.debuggable = true then 1 else 0) * 2 ^ 16))) ∧
      (n = 13 → reads u.she) ∧ (n = 14 → reads (dw t.ksp)) ∧
      (f.handler = true →
        (n = 16 → reads t.hcause) ∧ (n = 17 → reads t.haddr) ∧ (n = 18 → reads t.hpc) ∧ (n = 19 → reads t.hinfo) ∧
        (n = 20 → reads (dw t.hsel)) ∧ (n = 22 → reads t.hdpc) ∧
        (n = 21 → ∃ drawn state,
          exec (.sysRd d n) s = .next (advance i 4 (writeScalar f d.toNat
            (dw ((match teamAt s u t.hsel with | some (_, x) => if x.stop then 1 else 0 | none => 0) + 2 * state)) { s with free := drawn })) ∧
          (teamAt s u t.hsel = none → state = 5) ∧
          ∀ k x, teamAt s u t.hsel = some (k, x) → (x.exited = true → state = 4) ∧
            (x.exited = false → (state = 1 → x.stop = true) ∧ (state = 2 → x.frame.isSome = true) ∧
              (state = 3 → ∃ e ∈ s.frags, e.2.team = k ∧ (e.2.held.isSome = true ∨ e.2.deferred ≠ [])) ∧ state ≤ 3 ∧
              (state = 0 → x.stop = false ∧ x.frame = none ∧ ∀ e ∈ s.frags, e.2.team = k → e.2.held = none ∧ e.2.deferred = []))))) ∧
    (f.handler = false → 16 ≤ n.toNat → n.toNat ≤ 22 → exec (.sysRd d n) s = .next (stopPass i f false s (.trap 0x05 0 (dw f.iword.toNat)))) ∧
    (n.toNat = 15 ∨ 22 < n.toNat → exec (.sysRd d n) s = .next (stopPass i f false s (.trap 0x01 0 (dw f.iword.toNat))))

/-- SYS.WR, SYS.HRD and SYS.HWR act in a handler alone; HPC, HSEL and HCTL.STOP take the written value. In a handler, SYS.WR writes
HPC, HSEL (four bits) and the STOP bit of team HSEL (ignored for its own team's STOP = 1, for an exited team and for no team);
SYS.HRD writes the main scalar register of team HSEL, or 0 when that team has exited or is none; SYS.HWR writes it, when no
matrix operation has it locked, and has no effect on an exited team or none. In any other fragment SYS.HRD, SYS.HWR and a write
of HPC, HSEL or HCTL raise PRIVILEGED. -/
def Obligations.HandlersWriteSystemRegisters : Prop :=
  ∀ (n a : BitVec 5) (s : State) (i : Nat) (f : Frag) (t : Team) (u : UnitSt),
    current s = some (i, f, t) → amGet t.unit s.units = some u →
    let v := sGet t f.handler a.toNat
    (f.handler = true →
      exec (.sysWr 18 a) s = .next (advance i 4 (modTeam f.team (fun t => { t with hpc := v }) s)) ∧
      exec (.sysWr 20 a) s = .next (advance i 4 (modTeam f.team (fun t => { t with hsel := v.toNat % 16 }) s)) ∧
      (∀ k x, teamAt s u t.hsel = some (k, x) → exec (.sysWr 21 a) s = .next (advance i 4
        (if x.exited ∨ (v.getLsbD 0 = true ∧ k = f.team) then s
         else modTeam k (fun y => { y with stop := v.getLsbD 0 }) s))) ∧
      (teamAt s u t.hsel = none → exec (.sysWr 21 a) s = .next (advance i 4 s)) ∧
      (ScalarFree s f n.toNat → ∀ m : BitVec 5,
        (∀ k x, teamAt s u t.hsel = some (k, x) → x.exited = false →
          exec (.sysHrd n m) s = .next (advance i 4 (writeScalar f n.toNat (sGet x false m.toNat) s))) ∧
        ((∀ k x, teamAt s u t.hsel = some (k, x) → x.exited = true) →
          exec (.sysHrd n m) s = .next (advance i 4 (writeScalar f n.toNat 0 s)))) ∧
      (∀ k x, teamAt s u t.hsel = some (k, x) → x.exited = false →
        lockedWaiting s k (scalarLock n.toNat) = false → locked s k (scalarLock n.toNat) = false →
        exec (.sysHwr n a) s = .next (advance i 4 (writeDests k [(.scalar n.toNat, v)] s))) ∧
      ((∀ k x, teamAt s u t.hsel = some (k, x) → x.exited = true) → exec (.sysHwr n a) s = .next (advance i 4 s))) ∧
    (f.handler = false → ∀ ins ∈ [Instr.sysWr 18 a, .sysWr 20 a, .sysWr 21 a, .sysHrd n a, .sysHwr n a],
      exec ins s = .next (stopPass i f false s (.trap 0x05 0 (dw f.iword.toNat))))

/-- BRA, BRZ, BRNZ, CALL, RET and JMPR transfer control to the address their rule gives, CALL after writing its link. BRA goes to
its own address plus twice its signed offset, computed exactly, without wrap; BRZ and BRNZ go there when the scalar is zero, or
not zero, and otherwise on to the next instruction; JMPR and RET go to the scalar's value; CALL goes to the scalar's value as it
was before the link, its own address plus 4, is written into its destination (when no matrix operation has that register
locked). Each transfer is noted for the header check of R75 (transfer) and offered to the trace unit with its kind. -/
def Obligations.TransfersGoToTheirTargets : Prop :=
  ∀ (s : State) (i : Nat) (f : Frag) (t : Team), current s = some (i, f, t) →
    let far := fun (o : Int) => (f.pc.toNat : Int) + 2 * o
    let at_ := fun (a : BitVec 5) => ((sGet t f.handler a.toNat).toNat : Int)
    (∀ o : BitVec 24, exec (.bra o) s = .next (transfer i (far o.toInt) (traceRec t 0 f.pc s))) ∧
    (∀ (n : BitVec 5) (o : BitVec 18),
      exec (.brz n o) s = .next (if sGet t f.handler n.toNat = 0
        then transfer i (far o.toInt) (traceRec t 0 f.pc s) else advance i 4 s) ∧
      exec (.brnz n o) s = .next (if sGet t f.handler n.toNat = 0 then advance i 4 s
        else transfer i (far o.toInt) (traceRec t 0 f.pc s))) ∧
    (∀ a : BitVec 5, exec (.ret a) s = .next (transfer i (at_ a) (traceRec t 3 f.pc s)) ∧
      exec (.jmpr a) s = .next (transfer i (at_ a) (traceRec t 4 f.pc s))) ∧
    (∀ d a : BitVec 5, ScalarFree s f d.toNat →
      exec (.call d a) s =
        .next (transfer i (at_ a) (traceRec t 2 f.pc (writeScalar f d.toNat (f.pc + 4) s))))

/-- After its last pass a fragment is past its instruction with the next tick as its key; a transfer puts it at its target. For a
fragment with no debug stop due: advance sets the PC past the instruction, pass 0 and the tick after this one as the issue key;
transfer sets the PC to the target and keeps the address it came from for the header check; either notes an address that is none
of 0 to 2^64 - 1, at which nothing can be fetched (for what follows an instruction that ends at 2^64 this is the model's choice,
notes/assumptions/82.md). beginWait leaves the fragment at its instruction in the wait given, with the next tick as its key.
Each lets its core issue again from the next tick, and changes no other fragment and nothing else of the machine. With tracing
off for the core in its team's bank of debug registers (bank offset and register places are the model's choice,
notes/assumptions/40.md), a transfer writes no record. -/
def Obligations.InstructionsEndAtTheNextAddress : Prop :=
  ∀ (s : State) (i len : Nat) (f : Frag) (t : Team) (target : Int) (w : Wait),
    amGet i s.frags = some f → amGet f.team s.teams = some t → f.hit = none → f.stopFor = none → f.stepping = none →
    (∀ (g : State → State), g = advance i len ∨ g = transfer i target ∨ g = beginWait i w →
      g s = { s with frags := (g s).frags, issued := amPut t.gcore (s.toll + 1) s.issued } ∧
      ∀ k, k ≠ i → amGet k (g s).frags = amGet k s.frags) ∧
    (∃ n, amGet i (advance i len s).frags = some { f with
      pc := f.pc + dw len, beyond := decide (2 ^ 64 ≤ f.pc.toNat + len), pass := 0, mid := false, wait := .run, xfer := none,
      key := s.toll + 1, arrived := false, delayed := false, tagging := none, skid := n }) ∧
    (∃ n, amGet i (transfer i target s).frags = some { f with
      pc := BitVec.ofInt 64 target, beyond := decide (target < 0 ∨ 2 ^ 64 ≤ target), pass := 0, mid := false, xfer := some f.pc,
      key := s.toll + 1, tagging := none, skid := n }) ∧
    (∃ n, amGet i (beginWait i w s).frags = some { f with wait := w, mid := false, key := s.toll + 1, skid := n }) ∧
    (∀ k, bitsOf (dbgReg s (dieOf t.gcore) ((dbgBank (dieOf t.gcore) (secureTeam s t)).2 + 0x200 + 8 * (t.gcore % 768 / 64)))
      (t.gcore % 768 % 64) (t.gcore % 768 % 64) = 0 →
      traceRec t k f.pc s = s)

/-- A fragment at a header enters its clause when the flags it names are clear, and else waits there until they are. Flag k of a
team is set exactly while an operation of the team holds it, or an instruction tagged with it has passes outstanding, live or
saved in the trap frame. CLAUSE, with every flag its wait field names clear, and none cleared by this tick or an instruction
that ends later: the fragment's clause is the header's address and word, its PC is past the header, its key is its own or, if
later, the first tick from which the latest clearing counts, and the team's view of the k-registers is refreshed. With a named
flag set, or cleared too late, it waits at the header and nothing else changes. The end of each step notes that a flag it has
cleared counts from the next tick on, and for a fragment that waits the tick at which its flags became clear; it forgets that
when one is set. CLAUSE_WAIT_RELEASE lets a waiting fragment in once the flags have been clear since an earlier tick, with this
tick as its key, or its own if that is later; otherwise it changes nothing. -/
def Obligations.HeadersOpenTheirClause : Prop :=
  (∀ (s : State) (team k : Nat), flagSet s team k = true ↔
    ((∃ e ∈ s.ops, e.2.team = team ∧ e.2.tag = some k) ∨ (∃ e ∈ s.frags, e.2.team = team ∧ e.2.tagging = some k) ∨
      ∃ t fr, amGet team s.teams = some t ∧ t.frame = some fr ∧ fr.saved.tagging = some k)) ∧
  (∀ (w : BitVec 12) (a b : BitVec 4) (m : BitVec 2) (c : BitVec 1) (s : State) (i : Nat) (f : Frag) (t : Team) (u : UnitSt),
    current s = some (i, f, t) → amGet t.unit s.units = some u →
    let word := c.zeroExtend 2 ++ m ++ b ++ a ++ w ++ (0xFF : BitVec 8)
    (∀ n, clearedAt t word ≤ n ↔ ∀ k, k < 12 → w.getLsbD k = true → smGet 0 k t.clearAt ≤ n) ∧
    ((∀ k, k < 12 → w.getLsbD k = true → flagSet s f.team k = false) → clearedAt t word ≤ s.toll →
      exec (.clause w a b m c) s = .next (modTeam f.team (fun t => { t with kview := u.k })
        (setFrag i { f with
          clause := ⟨f.pc, word⟩, pc := f.pc + 4, beyond := decide (2 ^ 64 ≤ f.pc.toNat + 4), xfer := none, wait := .run, pass := 0,
          key := max f.key (clearedAt t word), mid := false, arrived := false, tagging := none } s))) ∧
    (((∃ k, k < 12 ∧ w.getLsbD k = true ∧ flagSet s f.team k = true) ∨ s.toll < clearedAt t word) →
      exec (.clause w a b m c) s = .next (modFrag i (fun f => { f with wait := .header word none, mid := false }) s))) ∧
  (∀ (s : State) (i : Nat) (f : Frag) (t : Team) (u : UnitSt) (word : Word) (clear : Option Nat),
    amGet i s.frags = some f → amGet f.team s.teams = some t → amGet t.unit s.units = some u → f.wait = .header word clear →
    let free := ∀ k, k < 12 → word.getLsbD (8 + k) = true → flagSet s f.team k = false
    (∀ n, clear = some n → n < s.toll → free →
      exec (.clauseWaitRelease i) s = .next (modTeam f.team (fun t => { t with kview := u.k })
        (setFrag i { f with
          clause := ⟨f.pc, word⟩, pc := f.pc + 4, beyond := decide (2 ^ 64 ≤ f.pc.toNat + 4), xfer := none, wait := .run,
          key := max s.toll f.key, pass := 0, mid := false, arrived := false, tagging := none } s))) ∧
    ((∀ n, clear = some n → s.toll ≤ n ∨ ¬ free) → exec (.clauseWaitRelease i) s = .next s) ∧
    (∀ old, ∃ t', amGet f.team (noteClear old s).teams = some t' ∧
      (∀ k, k < 12 → smGet 0 k t'.clearAt =
        if flagSet old f.team k = true ∧ flagSet s f.team k = false then s.toll + 1 else smGet 0 k t.clearAt) ∧
      (free → amGet i (noteClear old s).frags = some { f with wait := .header word (some (clearedAt t' word - 1)) })) ∧
    (∀ old, ¬ free → amGet i (noteClear old s).frags = some { f with wait := .header word none }))

/-- SPLIT sends the lanes with a true condition to its target and keeps the others, recording where they meet. An undeclared
register raises ILLEGAL-INSTRUCTION, and no PENDING address ILLEGAL-CONVERGENCE. A pass that is not the last keeps which of its
lanes have a true condition, with those of the passes before (gathered), and goes to the next pass. After the last: when every
active lane's condition is true the whole fragment goes to the target; when none is, it goes on; either way PENDING is cleared.
Otherwise, with room in the hardware kettle, an entry is pushed with RADDR = PENDING, PARENT = ENTRY and OUT = 2; the fragment
goes on at the target with the true lanes; and the others become a new fragment at the next instruction in the same clause, or,
when the core's gathering table holds 64 fragments, the entry is serial and holds their mask, address and clause. With 32
entries in the hardware kettle and room in the spill area, the lowest is first written as its record (16 bytes, or 176 for a
serial one) at KSB + KSP, KSP rises by 176, and the rest is as before; an entry is what its record holds (RADDR at byte 0,
PARENT at 8, OUT at 10, the deferred address at 16, the mask at 48). With no room in the spill area it raises KETTLE-OVERFLOW
before any effect. KPUSH sets PENDING when its target's halfword is a clause header, and raises ILLEGAL-TARGET at one that is
none or at an address beyond 2^64 - 1 or below 0. -/
def Obligations.SplitDividesTheFragment : Prop :=
  ∀ (d : BitVec 6) (o : BitVec 18) (s : State) (i : Nat) (f : Frag) (t : Team), current s = some (i, f, t) →
    let target := (f.pc.toNat : Int) + 2 * o.toInt
    let g := gathered f (fun l => meanOf (dGet t l d.toNat) != 0) 0
    let rest := f.mask &&& ~~~g.taken
    let s0 := traceRec t 1 f.pc s
    let ctx := fun (unit : Nat) => (amGet unit s.units).map (fun u => u.ctx)
    let full := decide (64 ≤ (s.frags.filter (fun e => match amGet e.2.team s.teams with
      | some u => decide (u.gcore = t.gcore ∧ ctx u.unit = ctx t.unit)
      | none => false)).length)
    let clear := fun (g : Frag) => { g with pending := none }
    (t.regs ≤ d.toNat → exec (.split d o) s = .next (stopPass i f true s (.trap 0x01 0 (dw f.iword.toNat)))) ∧
    (d.toNat < t.regs → f.pending = none → exec (.split d o) s = .next (stopPass i f true s (.trap 0x04 0 (dw f.iword.toNat)))) ∧
    (∀ p, d.toNat < t.regs → f.pending = some p → lastPass f = false → exec (.split d o) s = .next (passDone i 4 (setFrag i g s))) ∧
    (∀ p, d.toNat < t.regs → f.pending = some p → lastPass f = true →
      (rest = 0 → exec (.split d o) s = .next (transfer i target (modFrag i clear s0))) ∧
      (rest ≠ 0 → g.taken = 0 → exec (.split d o) s = .next (advance i 4 (modFrag i clear s0))) ∧
      (rest ≠ 0 → g.taken ≠ 0 → t.kettle.length = 32 → t.ksz.toNat < t.ksp + 176 →
        exec (.split d o) s = .next (stopPass i f true s (.trap 0x1A (t.ksb + dw t.ksp) (dw (t.ksp / 176 + 32))))) ∧
      (rest ≠ 0 → g.taken ≠ 0 → f.stepping = none →
        let e : Entry :=
          { raddr := p, parent := f.entry, out := 2, serial := full, freed := false, dstarted := false,
            dpc := if full then f.pc + 4 else 0, dclause := if full then f.clause else ⟨0, 0⟩, dmask := if full then rest else 0 }
        let k := t.ksp / 176 + t.kettle.length
        let pushed := fun (change : Team → Team) (v : State) =>
          let s1 := modFrag i (fun x => { x with mask := g.taken, entry := some k, pending := none })
            (traceRec t 1 f.pc (modTeam f.team change v))
          let b : Frag :=
            { moveOn 4 (s1.toll + 1) g with
              mask := rest, entry := some k, pending := none, deferred := [], skid := 0, stepping := none, stopFor := none, frozen := false }
          transfer i target (if full then s1 else setFrag s1.seq b { s1 with seq := s1.seq + 1 })
        (t.kettle.length < 32 → exec (.split d o) s =
          .next (pushed (fun t => { t with kettle := t.kettle ++ [e], rcvAt := amDel k t.rcvAt }) s)) ∧
        (∀ low more v ps, t.kettle = low :: more → more.length = 31 → t.ksp + 176 ≤ t.ksz.toNat →
          laneAccess i t 0 (t.ksb.toNat + t.ksp : Nat) (if low.serial then 176 else 16) 1 needStore false 0 s = .ok (v, ps) →
          exec (.split d o) s =
            .next (pushed (fun t => { t with kettle := more ++ [e], ksp := t.ksp + 176, rcvAt := amDel k t.rcvAt })
              (teamWrite i g t none (placeBytes ps (entryBytes low)) v))))) ∧
    (∀ e : Entry, (∀ p, e.parent = some p → p < 0xFFFF) → e.out < 256 →
      (e.serial = false → e.dpc = 0 ∧ e.dclause = ⟨0, 0⟩ ∧ e.dmask = 0) →
      entryOf (entryBytes e) = e ∧ (entryBytes e).length = (if e.serial then 176 else 16) ∧
        bytesNat ((entryBytes e).take 8) = e.raddr.toNat ∧ bytesNat (((entryBytes e).drop 8).take 2) = e.parent.getD 0xFFFF ∧
        bytesNat (((entryBytes e).drop 10).take 1) = e.out ∧ bytesNat (((entryBytes e).drop 16).take 8) = e.dpc.toNat ∧
        bytesNat (((entryBytes e).drop 48).take 128) = e.dmask.toNat) ∧
    (∀ (q : BitVec 24) (u : UnitSt), amGet t.unit s.units = some u →
      let far := (f.pc.toNat : Int) + 2 * q.toInt
      let low : DWord := BitVec.ofInt 64 far
      (far < 0 ∨ 2 ^ 64 ≤ far → exec (.kpush q) s = .next (stopPass i f false s (.trapAt 0x03 low f.pc 0))) ∧
      (∀ h v, 0 ≤ far → far < 2 ^ 64 → fetchHalf t u low s = (.half h, v) →
        exec (.kpush q) s = .next (if h % 256 = 0xFF then advance i 4 (modFrag i (fun g => { g with pending := some low }) v)
          else stopPass i f false v (.trapAt 0x03 low f.pc 0))))

/-- RCV waits for the other fragments of its entry and the last one fuses them; EXIT removes its lanes and ends an empty team. RCV
without an entry, or under another header than the entry's RADDR, only goes on, whether the entry is in the hardware kettle or
is read from its record at KSB + 176 k, where its count is also written back while others are out. With its entry in the
hardware kettle and no debug stop due: the deferred side of a serial entry that has not started starts in the fragment, with its
mask, address and clause, and the entry holds the arrived lanes; while others are out, the entry counts one fewer and the
fragment waits; the last (with nothing spilled) answers a state with one fragment past the RCV in place of all that wait and of
the serial entry's arrived lanes, with their lanes, the entry's parent, the latest of their keys and a PENDING of one of them,
the entry freed (Fused); when that leaves 31 hardware entries under a spilled one, the highest record is read back below them
and KSP falls by 176. Which PENDING a joined fragment and a deferred side have, after which RCV fused fragments go on
(notes/assumptions/47.md), and that the address where a serial entry's taken side goes on is kept beside it, not in its record
(notes/assumptions/48.md), are the model's choices. EXIT in a handler is illegal. Otherwise its fragment goes and its lanes have
left; without an entry the team has exited once no fragment of it and no matrix operation is left. With an entry: its deferred
side starts; or it counts one fewer; or, the last one, the waiting fragments fuse, or the arrived lanes of a serial entry go on
alone, or the entry is freed and its parent counts one fewer. -/
def Obligations.ArrivalsReconverge : Prop :=
  (∀ (s : State) (i : Nat) (f : Frag) (t : Team), Ready s i f t →
    (f.entry = none → exec .rcv s = .next (advance i 4 s)) ∧
    (∀ k e, f.entry = some k → t.ksp / 176 ≤ k → t.kettle[k - t.ksp / 176]? = some e →
      let put := fun (e : Entry) => modTeam f.team (fun t => { t with kettle := setNth e t.kettle (k - t.ksp / 176) })
      let out := if f.arrived then e.out else e.out - 1
      (e.raddr ≠ f.clause.hdr → exec .rcv s = .next (advance i 4 s)) ∧
      (e.raddr = f.clause.hdr →
        (e.serial = true → e.dstarted = false →
          exec .rcv s = .next (advance i 0 (modFrag i (fun g => { g with mask := e.dmask, pc := e.dpc, clause := e.dclause })
            (modTeam f.team (fun t => { t with rcvAt := amPut k (f.pc + 4, f.clause) t.rcvAt })
              (put { e with out := out, dstarted := true, dmask := f.mask } s))))) ∧
        ((e.serial = false ∨ e.dstarted = true) → (0 < out ∨ savedWaiter s f.team k = true) →
          exec .rcv s = .next (finishStop i (beginWait i .rcv (modFrag i (fun g => { g with arrived := true })
            (put { e with out := out } s))))) ∧
        ((e.serial = false ∨ e.dstarted = true) → out = 0 → savedWaiter s f.team k = false → t.ksp = 0 →
          ∃ s', exec .rcv s = .next s' ∧
            Fused ((waitersOf s f.team k).filter (fun w => w.1 != i)) s s' i f t k e (s.toll + 1)) ∧
        (∀ low v, e.serial = false → out = 0 → savedWaiter s f.team k = false → t.kettle.length = 32 → k = t.ksp / 176 + 31 →
          t.ksp ≠ 0 → (waitersOf s f.team k).filter (fun w => w.1 != i) = [] → (∀ x, t.kettle[30]? = some x → x.freed = false) →
          let x := modTeam f.team (fun u => { u with kettle := t.kettle.take 31, rcvAt := amDel k u.rcvAt })
            (setFrag i { moveOn 4 (s.toll + 1) f with entry := e.parent } s)
          readSlot i f { t with kettle := t.kettle.take 31, rcvAt := amDel k t.rcvAt } (t.ksp / 176 - 1) x = .ok (v, low) →
          amGet f.team v.teams = amGet f.team x.teams →
          exec .rcv s = .next (finishStop i (spend i
            (modTeam f.team (fun t => { t with kettle := low :: t.kettle, ksp := t.ksp - 176 }) v)))))) ∧
    (∀ k e v, f.entry = some k → k < t.ksp / 176 → readSlot i f t k s = .ok (v, e) → amGet f.team v.teams = some t →
      let out := if f.arrived then e.out else e.out - 1
      (e.raddr ≠ f.clause.hdr → exec .rcv s = .next (advance i 4 v)) ∧
      (∀ w, e.raddr = f.clause.hdr → (e.serial = false ∨ e.dstarted = true) → (0 < out ∨ savedWaiter v f.team k = true) →
        seqWrite i f t (t.ksb.toNat + 176 * k) (entryBytes { e with out := out }) v = .ok (w, ()) →
        exec .rcv s = .next (finishStop i (beginWait i .rcv (modFrag i (fun g => { g with arrived := true }) w)))))) ∧
  (∀ (i : Nat) (f : Frag) (t : Team) (k : Nat) (s v : State) (ps : List (Spot × Nat)) (e : Entry),
    laneAccess i t 0 (t.ksb.toNat + 176 * k : Nat) 16 1 needLoad false 0 s = .ok (v, ps) →
    entryOf ((upFrom 0 16).map (fun o => smGet 0 (paAt ps o) (readSpans f.team (pieceSpans ps) v).1)) = e → e.serial = false →
    readSlot i f t k s = .ok ((readSpans f.team (pieceSpans ps) v).2, e)) ∧
  (∀ (s : State) (i : Nat) (f : Frag) (t : Team), current s = some (i, f, t) →
    let gone := modTeam f.team (fun t => { t with left := t.left ||| f.mask }) (delFrag i (traceRec t 7 f.pc (spend i s)))
    let settle := fun (x : State) =>
      if x.frags.any (fun e => e.2.team == f.team) || matrixBusy x f.team then x
      else discardTiles f.team (modTeam f.team (fun t => { t with exited := true }) x)
    (f.handler = true → exec .exit s = .next (stopPass i f false s (.trap 0x01 0 (dw f.iword.toNat)))) ∧
    (f.handler = false → f.entry = none → exec .exit s = .next (settle gone)) ∧
    (∀ k e, f.handler = false → f.entry = some k → t.ksp / 176 ≤ k → t.kettle[k - t.ksp / 176]? = some e →
      let put := fun (e : Entry) => modTeam f.team (fun t => { t with kettle := setNth e t.kettle (k - t.ksp / 176) })
      let waiting := waitersOf gone f.team k
      (e.serial = true → e.dstarted = false →
        exec .exit s = .next (setFrag i { newFrag f.team e.dpc e.dmask (s.toll + 1) none with entry := some k, clause := e.dclause }
          (put { e with out := e.out - 1, dstarted := true, dmask := 0 } gone))) ∧
      ((e.serial = false ∨ e.dstarted = true) →
        (1 < e.out → exec .exit s = .next (settle (put { e with out := e.out - 1 } gone))) ∧
        (∀ j w, e.out ≤ 1 → t.ksp = 0 → minBy (fun w => lowestLane w.2.mask) waiting = some (j, w) →
          ∃ s', exec .exit s = .next s' ∧ (j ≠ i → amGet i s'.frags = none) ∧
            Fused (waiting.filter (fun w => w.1 != j)) gone s' j w t k e w.key) ∧
        (e.out ≤ 1 → waiting = [] → savedWaiter gone f.team k = true →
          exec .exit s = .next (settle (put { e with out := 0 } gone))) ∧
        (e.out ≤ 1 → t.ksp = 0 → waiting = [] → savedWaiter gone f.team k = false → e.serial = true → e.dmask ≠ 0 →
          ∃ s', exec .exit s = .next s' ∧ EntryFreed f.team t k s' ∧
            amGet i s'.frags = some { newFrag f.team (smGet (e.dpc, e.dclause) k t.rcvAt).1 e.dmask (s.toll + 1) none with
              entry := e.parent, clause := (smGet (e.dpc, e.dclause) k t.rcvAt).2 }) ∧
        (e.out ≤ 1 → t.ksp = 0 → waiting = [] → savedWaiter gone f.team k = false → (e.serial = false ∨ e.dmask = 0) →
          (e.parent = none → ∃ x, EntryFreed f.team t k x ∧ x.frags = gone.frags ∧ x.ops = gone.ops ∧ exec .exit s = .next (settle x)) ∧
          (∀ p e', e.parent = some p → p < k → t.kettle[p]? = some e' → e'.freed = false → (e'.serial = false ∨ e'.dstarted = true) →
            1 < e'.out → ∃ x t', exec .exit s = .next (settle x) ∧ x.frags = gone.frags ∧ amGet f.team x.teams = some t' ∧
              t'.kettle[p]? = some { e' with out := e'.out - 1 })))))

/-- A trap saves the fragment, writes the trap registers and enters the handler; in a handler, or with no handler, it stops the
unit. raiseTrap, for a fragment outside handler mode of a team without a trap frame, in a unit with a handler address: the
team's frame holds the fragment, HCAUSE, HADDR, HPC, HINFO and HDPC hold the record, and the fragment's place holds a handler
fragment with the same mask at SHE, with the tick of the trap as its key, that must find a clause header there. While the team
has a frame, the trap is held pending. In handler mode or with SHE 0 every team of the unit stops and the error is recorded.
TRAP n raises SOFTWARE with HPC at the next instruction and HINFO n, and its core issues again at the next tick. -/
def Obligations.TrapsSaveAndEnterTheHandler : Prop :=
  (∀ (s : State) (i : Nat) (f : Frag) (t : Team) (u : UnitSt) (r : TrapRec),
    amGet i s.frags = some f → amGet f.team s.teams = some t → amGet t.unit s.units = some u →
    (f.handler = false → u.she ≠ 0 → t.frame = none → f.stepping = none → (traceRec t 5 f.pc s) = s →
      (∀ k va h, f.wait ≠ .merge k va h) →
      let s' := raiseTrap i r s
      s' = { s with frags := s'.frags, teams := s'.teams } ∧
      amGet i s'.frags = some { newFrag f.team u.she f.mask r.tick (some 0) with handler := true, frozen := f.frozen, skid := 0 } ∧
      (∃ sv, amGet f.team s'.teams = some
        { t with
          frame := some { saved := sv, hmask := f.mask, hpc0 := r.hpc },
          hcause := r.hcause, haddr := r.haddr, hpc := r.hpc, hinfo := r.hinfo, hdpc := r.hdpc } ∧
        sv = { f with held := none, mid := false, stepping := none, wait := sv.wait }) ∧
      (∀ k, k ≠ i → amGet k s'.frags = amGet k s.frags) ∧ (∀ k, k ≠ f.team → amGet k s'.teams = amGet k s.teams)) ∧
    (f.handler = false → u.she ≠ 0 → t.frame ≠ none →
      raiseTrap i r s = setFrag i { f with wait := .trapped, held := some r, mid := false } s) ∧
    (f.handler = true ∨ u.she = 0 → raiseTrap i r s = stopUnit t.unit (recordError u.ctx t.gcore t.idx r s))) ∧
  (∀ (n : BitVec 9) (s : State) (i : Nat) (f : Frag) (t : Team), current s = some (i, f, t) →
    exec (.trap n) s = .next (raiseTrap i
      { hcause := 0x20, haddr := 0, hpc := f.pc + 4, hinfo := n.zeroExtend 64, hdpc := 0, tick := s.toll } (passTick i s)))

/-- RTE puts the saved fragment back in the handler's place, at its saved pass or at HPC. In a handler that has its entry mask, with
no trap of the team pending: after RTE the team has no frame and the fragment's place holds the saved fragment: with HPC as the
trap wrote it, after a deferred trap at pass 0 of what it was saved with (for a trap between two passes this reading of R129 is
the model's, notes/assumptions/49.md), after a cause whose HPC is the trapped instruction's exactly as it was saved, and after
another at HPC with pass 0; with HPC rewritten, at HPC with pass 0 and no watchpoint hit of the old instruction. Outside a
handler RTE raises PRIVILEGED; with another mask, ILLEGAL-CONVERGENCE. -/
def Obligations.ReturnsRestoreTheFragment : Prop :=
  ∀ (s : State) (i : Nat) (f : Frag) (t : Team), Ready s i f t →
    (f.handler = false → exec .rte s = .next (stopPass i f false s (.trap 0x05 0 (dw f.iword.toNat)))) ∧
    (∀ fr, f.handler = true → t.frame = some fr → f.mask ≠ fr.hmask →
      exec .rte s = .next (stopPass i f false s (.trap 0x04 0 (dw f.iword.toNat)))) ∧
    (∀ fr, f.handler = true → t.frame = some fr → f.mask = fr.hmask → fr.saved.held = none → fr.saved.deferred = [] →
      (∀ e ∈ s.frags, e.1 ≠ i → e.2.team = f.team → e.2.held = none ∧ e.2.deferred = []) → traceRec t 6 f.pc s = s →
      ∃ s', exec .rte s = .next s' ∧ amGet f.team s'.teams = some { t with frame := none } ∧
        (let anew := { fr.saved with
            pc := t.hpc, beyond := false, pass := 0, wait := .run, xfer := none, arrived := false, tagging := none }
        amGet i s'.frags = some (if t.hpc ≠ fr.hpc0 then { anew with hit := none }
          else if bitsOf t.hcause 15 15 = 1 then { fr.saved with pass := 0, xfer := none }
          else if resumesThis (bitsOf t.hcause 7 0) = true then { fr.saved with xfer := none } else anew)) ∧
        (∀ k, k ≠ i → amGet k s'.frags = amGet k s.frags) ∧ SameMemory s s')

/-- A load issues results for its registers from the bytes memory holds at each lane's address, and changes no register yet. LDB,
LDH, LDW and LDD (plain or sign-extending) and FILLP, with the registers in range, the team's accesses not held (R44), every
lane's access checked and translated (laneAccesses, from the address A + 16·imm7), no other agent's write to the bytes on
record, no earlier load of the team still to read there and no watchpoint hit: the pass completes; an operation with the
clause's set-A tag carries one element per lane and destination register (loadDests), whose value is made (loadVal) from the
bytes memory holds at the lane's spot; memory and every register are as before. Scalar loads SLD do the same for one scalar from
a base plus a scaled immediate, zero- or sign-extended. That the bytes are read when the pass issues, not later, is the model's
choice (notes/assumptions/13.md, notes/assumptions/14.md). Where a lane's access, or the scalar one, fails a check, the lowest
lane that fails traps and the pass has no effect: ADDRESS-RANGE, NON-CANONICAL, APERTURE-SPAN, SCRATCHPAD-RANGE, STACK-RANGE,
MISALIGNED, PERMISSION, TRANSLATION-FAILED or FIRST-TOUCH, in the order of AccessChecked, which also says where the bytes lie;
LeafJudged says what the leaf that a walk ends at gives, with no translation cached. -/
def Obligations.LoadsReturnMemory : Prop :=
  (∀ (w : BitVec 2) (d a : BitVec 6) (q : BitVec 3) (o : BitVec 7) (s s1 : State) (i : Nat) (f : Frag) (t : Team)
      (ls : List (Nat × List (Spot × Nat))), Ready s i f t → accessHeld s f.team = false → a.toNat < t.regs → groupFits t (2 ^ w.toNat) d.toNat (groupOf f.mode) →
    ∀ p ∈ [(Instr.ldb w d a q o, 1), (.ldh w d a q o, 2), (.ldw w d a q o, 4), (.ldd w d a q o, 8)],
      let span := 2 ^ w.toNat * (if p.2 = 8 then 8 * groupOf f.mode else p.2)
      q.toNat ≠ 1 → q.toNat ≠ 3 →
      laneAccesses i t span (min span 16) needLoad false 0 (fun l => effAddr t l a.toNat o) (passLanes f) s = .ok (s1, ls) →
      NoForeign s f.team (ls.flatMap (fun x => pieceSpans x.2)) → NoneBehind s1 f.team (ls.flatMap (fun x => pieceSpans x.2)) →
      Unwatched s t 1 (ls.map (fun x => (x.1, effAddr t x.1 a.toNat o, span))) →
      ∃ s', exec p.1 s = .next s' ∧ AccessFrame false s s' i f t ∧ SameMemory s s' ∧ s'.full = s.full ∧
        Issued s s' f.team f.setA (.results (ls.flatMap (fun x => (loadDests f.mode p.2 (q.toNat == 4) d.toNat (2 ^ w.toNat)).map
          (fun r => { dest := .lane x.1 r.1, live := true, val := loadVal r.2.2 (memNat s x.2 r.2.1 (r.2.2 / 4 % 16)) }))))) ∧
  (∀ (w : BitVec 2) (d a : BitVec 6) (o : BitVec 7) (s s1 : State) (i : Nat) (f : Frag) (t : Team)
      (ls : List (Nat × List (Spot × Nat))), Ready s i f t → accessHeld s f.team = false → a.toNat < t.regs → groupFits t (2 ^ w.toNat) d.toNat 1 →
      laneAccesses i t (8 * 2 ^ w.toNat) 8 needLoad false 8 (fun l => effAddr t l a.toNat o) (passLanes f) s = .ok (s1, ls) →
      NoForeign s f.team (ls.flatMap (fun x => pieceSpans x.2)) → NoneBehind s1 f.team (ls.flatMap (fun x => pieceSpans x.2)) →
      Unwatched s t 1 (ls.map (fun x => (x.1, effAddr t x.1 a.toNat o, 8 * 2 ^ w.toNat))) →
      ∃ s', exec (.fillp w d a o) s = .next s' ∧ AccessFrame false s s' i f t ∧ SameMemory s s' ∧ s'.full = s.full ∧
        Issued s s' f.team f.setA (.results (ls.flatMap (fun x => (upFrom 0 (2 ^ w.toNat)).map (fun k =>
          { dest := .lane x.1 (d.toNat + k), live := true, val := dw (memNat s x.2 (8 * k) 8) }))))) ∧
  (∀ (d a : BitVec 5) (o : BitVec 10) (s s1 : State) (i : Nat) (f : Frag) (t : Team) (ps : List (Spot × Nat)),
    Ready s i f t → accessHeld s f.team = false →
    ∀ p ∈ ([(.sldD d a o, 8, dw), (.sldW d a o, 4, dw), (.sldWs d a o, 4, fun v => (BitVec.ofNat 32 v).signExtend 64)] :
        List (Instr × Nat × (Nat → DWord))),
      let ea : Int := ((sGet t f.handler a.toNat).toNat : Int) + (p.2.1 : Int) * o.toInt
      scalarAccess i t ea p.2.1 needLoad s = .ok (s1, ps) →
      NoForeign s f.team (pieceSpans ps) → NoneBehind s1 f.team (pieceSpans ps) → Unwatched s t 1 [(0, ea, p.2.1)] →
      ∃ s', exec p.1 s = .next s' ∧ AccessFrame true s s' i f t ∧ SameMemory s s' ∧ s'.full = s.full ∧
        Issued s s' f.team f.setA (.results
          [{ dest := sDest f.handler d.toNat, live := true, val := p.2.2 (memNat s ps 0 p.2.1) }])) ∧
  (∀ (w : BitVec 2) (d a : BitVec 6) (q : BitVec 3) (o : BitVec 7) (s s1 : State) (i : Nat) (f : Frag) (t : Team) (e : Stop), Ready s i f t → accessHeld s f.team = false → a.toNat < t.regs →
    (groupFits t (2 ^ w.toNat) d.toNat (groupOf f.mode) → q.toNat ≠ 1 → q.toNat ≠ 3 →
      ∀ p ∈ [(Instr.ldb w d a q o, 1), (.ldh w d a q o, 2), (.ldw w d a q o, 4), (.ldd w d a q o, 8)],
        let span := 2 ^ w.toNat * (if p.2 = 8 then 8 * groupOf f.mode else p.2)
        laneAccesses i t span (min span 16) needLoad false 0 (fun l => effAddr t l a.toNat o) (passLanes f) s = .error (s1, e) →
        exec p.1 s = .next (stopPass i f true s1 e)) ∧
    (groupFits t (2 ^ w.toNat) d.toNat 1 →
      laneAccesses i t (8 * 2 ^ w.toNat) 8 needLoad false 8 (fun l => effAddr t l a.toNat o) (passLanes f) s = .error (s1, e) →
      exec (.fillp w d a o) s = .next (stopPass i f true s1 e))) ∧
  (∀ (d a : BitVec 5) (o : BitVec 10) (s s1 : State) (i : Nat) (f : Frag) (t : Team) (e : Stop),
    Ready s i f t → accessHeld s f.team = false →
    ∀ p ∈ ([(.sldD d a o, 8), (.sldW d a o, 4), (.sldWs d a o, 4)] : List (Instr × Nat)),
      scalarAccess i t (((sGet t f.handler a.toNat).toNat : Int) + (p.2 : Int) * o.toInt) p.2 needLoad s = .error (s1, e) →
      exec p.1 s = .next (stopPass i f false s1 e)) ∧
  (∀ (i : Nat) (t : Team) (n align : Nat) (need : Need) (only : Bool) (parts : Nat) (ea : Nat → Int) (before after : List Nat) (lane : Nat)
      (s s1 : State) (ls : List (Nat × List (Spot × Nat))) (e : State × Stop),
    laneAccesses i t n align need only parts ea before s = .ok (s1, ls) → laneAccess i t lane (ea lane) n align need only parts s1 = .error e →
    laneAccesses i t n align need only parts ea (before ++ lane :: after) s = .error e) ∧
  (∀ (i : Nat) (t : Team) (u : UnitSt) (s : State) (lane n align : Nat) (ea : Int), unitOf s t = some u → 0 < n →
    AccessChecked (laneAccess i t lane ea n align needLoad false 0 s) i t u s lane ea n align needLoad false false 1 ∧
    AccessChecked (laneAccess i t lane ea n align needLoad false 8 s) i t u s lane ea n align needLoad false false 2 ∧
    AccessChecked (scalarAccess i t ea n needLoad s) i t u s 0 ea n n needLoad true false 0) ∧
  (∀ (ctx gcore va : Nat) (need : Need) (s : State) (c : Context), amGet ctx s.ctxs = some c → tlbHits s ctx gcore va = [] →
    smGet [] (dieOf gcore) s.walks = [] →
    LeafJudged c.secure need va (walk s c.root va) (translate ctx gcore va need s).1)

/-- A wait-full load waits for its granules to be full; a read returns their bytes, and an empty-on-read empties them with the read.
LDB to LDD with q3 1 or 3: a span above 16 bytes is ILLEGAL-MODE; otherwise the pass completes and its operation holds one
waiting lane per active lane. A lane whose access fails a check traps, outside the scratchpad with SCRATCHPAD-RANGE.
WAIT_FULL_READ of an operation none of whose granules can be read changes nothing; a granule can when it is full and no earlier
load of the team has still to read there; then all the lanes of one such granule leave the waiting lanes and become results with
the bytes that memory holds, and the granule is then empty exactly if the load empties it and was full otherwise as before; no
byte of memory differs, and nothing but the operation and what the read fixes for later reads and orders (R36, R51) does. That
the read returns the newest bytes (notes/assumptions/14.md) and that the lanes of one granule read together
(notes/assumptions/72.md) are the model's choices. A plain load of bytes that an earlier load of its team has still to read is
held, and WAIT_FULL_READ of it reads its bytes once that has. -/
def Obligations.WaitFullLoadsWaitForTheirGranules : Prop :=
  (∀ (w : BitVec 2) (d a : BitVec 6) (q : BitVec 3) (o : BitVec 7) (s s1 : State) (i : Nat) (f : Frag) (t : Team)
      (ls : List (Nat × List (Spot × Nat))), Ready s i f t → accessHeld s f.team = false → a.toNat < t.regs → groupFits t (2 ^ w.toNat) d.toNat (groupOf f.mode) →
    q.toNat = 1 ∨ q.toNat = 3 →
    ∀ p ∈ [(Instr.ldb w d a q o, 1), (.ldh w d a q o, 2), (.ldw w d a q o, 4), (.ldd w d a q o, 8)],
      let span := 2 ^ w.toNat * (if p.2 = 8 then 8 * groupOf f.mode else p.2)
      (16 < span → exec p.1 s = .next (stopPass i f true s (.trap 0x02 0 (dw f.iword.toNat)))) ∧
      (span ≤ 16 →
        laneAccesses i t span span needLoad true 0 (fun l => effAddr t l a.toNat o) (passLanes f) s = .ok (s1, ls) →
        Unwatched s t 1 (ls.map (fun x => (x.1, effAddr t x.1 a.toNat o, span))) →
        ∃ s', exec p.1 s = .next s' ∧ AccessFrame false s s' i f t ∧ SameMemory s s' ∧ s'.full = s.full ∧
          Issued s s' f.team f.setA (.waitFull (ls.map (fun x =>
            { lane := x.1, pa := paAt x.2 0, span := span, empties := q.toNat == 3,
               dests := loadDests f.mode p.2 (q.toNat == 4) d.toNat (2 ^ w.toNat) })) []))) ∧
  (∀ (op : Nat) (s : State) (o : Op) (ls : List WaitLane) (es : List Elem), amGet op s.ops = some o → o.body = .waitFull ls es →
    (∀ f, amGet o.frag s.frags = some f → f.stepping = none) →
    let ready := fun (l : WaitLane) => ∀ x ∈ ls, x.pa / 16 = l.pa / 16 →
      smGet false (x.pa / 16) s.full = true ∧ readsBehind s o.team op (x.pa, x.span) = false
    ((∀ l ∈ ls, ¬ ready l) → exec (.waitFullRead op) s = .next s) ∧
    ((∃ l ∈ ls, ready l) →
      ∃ l0 s', l0 ∈ ls ∧ ready l0 ∧ exec (.waitFullRead op) s = .next s' ∧
        s' = { s with ops := s'.ops, hist := s'.hist, seen := s'.seen, full := s'.full } ∧ SameMemory s s' ∧
        (∀ g, smGet false g s'.full = (smGet false g s.full && !(l0.empties && decide (g = l0.pa / 16)))) ∧
        amGet op s'.ops = some { o with body := .waitFull (ls.filter (fun l => l.pa / 16 != l0.pa / 16)) (es ++
          (ls.filter (fun l => l.pa / 16 == l0.pa / 16)).flatMap (fun l => l.dests.map (fun r =>
            { dest := .lane l.lane r.1, live := true, val := loadVal r.2.2 (rdNat s (l.pa + r.2.1) (r.2.2 / 4 % 16)) }))) } ∧
        (∀ k, k ≠ op → amGet k s'.ops = amGet k s.ops))) ∧
  (∀ (op : Nat) (s : State) (o : Op) (spans : List (Nat × Nat)) (ds : List ReadDest), amGet op s.ops = some o → o.body = .behind spans ds →
    ((∃ p ∈ spans, readsBehind s o.team op p = true) → exec (.waitFullRead op) s = .next s) ∧
    ((∀ p ∈ spans, readsBehind s o.team op p = false) → NoForeign s o.team spans →
      (∀ r ∈ ds, ∀ a ∈ r.pas, ∃ p ∈ spans, p.1 ≤ a ∧ a < p.1 + p.2) →
      ∃ s', exec (.waitFullRead op) s = .next s' ∧ s' = { s with ops := s'.ops, hist := s'.hist, seen := s'.seen, free := s'.free } ∧
        amGet op s'.ops = some { o with body := .results (ds.map (fun r =>
          { dest := r.dest, live := true, val := r.form.val (bytesNat (r.pas.map (rdByte s))) })) } ∧
        (∀ k, k ≠ op → amGet k s'.ops = amGet k s.ops))) ∧
  (∀ (w : BitVec 2) (d a : BitVec 6) (q : BitVec 3) (o : BitVec 7) (s s1 : State) (i : Nat) (f : Frag) (t : Team)
      (ls : List (Nat × List (Spot × Nat))) (e : Stop), Ready s i f t → accessHeld s f.team = false → a.toNat < t.regs → groupFits t (2 ^ w.toNat) d.toNat (groupOf f.mode) →
    ∀ p ∈ [(Instr.ldb w d a q o, 1), (.ldh w d a q o, 2), (.ldw w d a q o, 4), (.ldd w d a q o, 8)],
      let span := 2 ^ w.toNat * (if p.2 = 8 then 8 * groupOf f.mode else p.2)
      (q.toNat = 1 ∨ q.toNat = 3 → span ≤ 16 →
        laneAccesses i t span span needLoad true 0 (fun l => effAddr t l a.toNat o) (passLanes f) s = .error (s1, e) →
        exec p.1 s = .next (stopPass i f true s1 e)) ∧
      (q.toNat ≠ 1 → q.toNat ≠ 3 →
        laneAccesses i t span (min span 16) needLoad false 0 (fun l => effAddr t l a.toNat o) (passLanes f) s = .ok (s1, ls) →
        (∃ p ∈ ls.flatMap (fun x => pieceSpans x.2), readsBehind s1 f.team s1.seq p = true) →
        Unwatched s t 1 (ls.map (fun x => (x.1, effAddr t x.1 a.toNat o, span))) →
        ∃ s', exec p.1 s = .next s' ∧ AccessFrame false s s' i f t ∧ SameMemory s s' ∧ s'.full = s.full ∧
          Issued s s' f.team f.setA (.behind (ls.flatMap (fun x => pieceSpans x.2))
            (ls.flatMap (fun x => (loadDests f.mode p.2 (q.toNat == 4) d.toNat (2 ^ w.toNat)).map (fun r =>
              { dest := .lane x.1 r.1, form := .load r.2.2, pas := (upFrom r.2.1 (r.2.2 / 4 % 16)).map (paAt x.2) })))))) ∧
  (∀ (i : Nat) (t : Team) (u : UnitSt) (s : State) (lane n align : Nat) (ea : Int), unitOf s t = some u → 0 < n →
    AccessChecked (laneAccess i t lane ea n align needLoad true 0 s) i t u s lane ea n align needLoad false true 1)

/-- A result arrives: its register takes its value unless a later write superseded it, and the flag clears with the last one.
LOAD_DATA_RETURN and NOISE_RESULT, for an operation with results outstanding and no scalar destination locked by the matrix
engine: one of the elements leaves; if no later write has superseded it, its register takes its value and earlier operations'
results for that register are superseded; with the last element the operation leaves flight. A superseded element changes no
register. STORE_TAKEN ends a store's operation, and so clears its flag. -/
def Obligations.ResultsArriveOneByOne : Prop :=
  (∀ (op : Nat) (s : State) (o : Op) (es : List Elem) (fl : Nat) (ins : Instr), amGet op s.ops = some o → es ≠ [] →
    (ins = .loadDataReturn op ∧ o.body = .results es) ∨ (ins = .noiseResult op ∧ o.body = .noise es fl) →
    (∀ e ∈ es, ∀ n, e.dest = .scalar n →
      lockedWaiting s o.team (scalarLock n) = false ∧ locked s o.team (scalarLock n) = false) →
    ∃ s' e rest, exec ins s = .next s' ∧ List.Perm (e :: rest) es ∧ OnlyResults s s' o.team ∧
      (e.live = false → ins = .loadDataReturn op → s'.teams = s.teams) ∧
      (e.live = true → ∀ t, amGet o.team s.teams = some t → ∃ t', amGet o.team s'.teams = some t' ∧
        (∀ l r, dGet t' l r = dGet (putDest e.dest e.val t) l r) ∧ t'.s = (putDest e.dest e.val t).s ∧
        t'.hb = (putDest e.dest e.val t).hb) ∧
      (rest = [] → amGet op s'.ops = none) ∧
      (rest ≠ [] → ∃ o', amGet op s'.ops = some o' ∧ o' = { o with body := o'.body } ∧
        o'.body = (match ins with | .loadDataReturn _ => .results rest | _ => .noise rest fl)) ∧
      (∀ k, k ≠ op → amGet k s'.ops = (amGet k s.ops).map (fun x => if e.live = true ∧ x.team = o.team ∧ k < op
        then { x with body := killBody [e.dest] x.body } else x))) ∧
  (∀ (op : Nat) (s : State) (o : Op), amGet op s.ops = some o → o.body = .taking →
    exec (.storeTaken op) s = .next (endOp op s) ∧ amGet op (endOp op s).ops = none ∧ SameMemory s (endOp op s) ∧
    (endOp op s).teams = s.teams)

/-- A store puts its bytes at each lane's translated address, the highest lane last, and changes no other byte and no register. STB,
STH, STW and STD (plain, or set-full with at most 16 bytes and earlier accesses performed at CLUSTER scope) and SPILLP, with the
registers in range, the team's accesses not held (R44) and no add-on-store of it outstanding, every lane's access checked and
translated, and no watchpoint hit: the pass completes; its bytes (placeBytes at the spots laneAccesses gives, in lane order, so
that the highest lane's stay) stand in memory, and every other byte reads as before; bytes of a page whose tile is absent leave
memory as it was. A set-full store makes its granules full. The operation keeps the set-A flag until its data is taken; no
register changes. SST.D and SST.W store the low 8 or 4 bytes of a scalar. That memory holds the bytes when the pass issues is
the model's choice (notes/assumptions/15.md). Where an access fails a check (AccessChecked, a COUNTER page among them), the pass
traps with no effect. -/
def Obligations.StoresWriteTheirBytes : Prop :=
  (∀ (w : BitVec 2) (d a : BitVec 6) (q : BitVec 3) (o : BitVec 7) (s s1 : State) (i : Nat) (f : Frag) (t : Team)
      (ls : List (Nat × List (Spot × Nat))), Ready s i f t → accessHeld s f.team = false → NoAdds s f.team → a.toNat < t.regs →
    groupFits t (2 ^ w.toNat) d.toNat (groupOf f.mode) →
    ∀ p ∈ [(Instr.stb w d a q o, 1), (.sth w d a q o, 2), (.stw w d a q o, 4), (.std w d a q o, 8)],
      let g := groupOf f.mode
      let span := 2 ^ w.toNat * (if p.2 = 8 then 8 * g else p.2)
      let sf := q.toNat == 1
      (sf = true → 16 < span → exec p.1 s = .next (stopPass i f true s (.trap 0x02 0 (dw f.iword.toNat)))) ∧
      ((sf = true → span ≤ 16 ∧ performedBefore s1 f.team s1.seq 2 = true) →
        laneAccesses i t span (min span 16) needStore sf 0 (fun l => effAddr t l a.toNat o) (passLanes f) s = .ok (s1, ls) →
        Unwatched s t 2 (ls.map (fun x => (x.1, effAddr t x.1 a.toNat o, span))) →
        let cells := ls.flatMap (fun x => placeBytes x.2 ((upFrom 0 (2 ^ w.toNat)).flatMap (fun j =>
          if p.2 = 8 then (upFrom 0 g).flatMap (fun y => natBytes 8 (dGet t x.1 (d.toNat + j * g + y)).toNat)
          else natBytes p.2 (dGet t x.1 (d.toNat + j * g)).toNat)))
        ∃ s', exec p.1 s = .next s' ∧ AccessFrame false s s' i f t ∧ Issued s s' f.team f.setA .taking ∧
          (∀ b, rdByte s' b = (storedAt cells b).getD (rdByte s b)) ∧
          (∀ k, smGet false k s'.full = (smGet false k s.full || (sf && ls.any (fun x => paAt x.2 0 / 16 == k)))))) ∧
  (∀ (w : BitVec 2) (d a : BitVec 6) (o : BitVec 7) (s s1 : State) (i : Nat) (f : Frag) (t : Team)
      (ls : List (Nat × List (Spot × Nat))), Ready s i f t → accessHeld s f.team = false → NoAdds s f.team → a.toNat < t.regs → groupFits t (2 ^ w.toNat) d.toNat 1 →
      laneAccesses i t (8 * 2 ^ w.toNat) 8 needStore false 8 (fun l => effAddr t l a.toNat o) (passLanes f) s = .ok (s1, ls) →
      Unwatched s t 2 (ls.map (fun x => (x.1, effAddr t x.1 a.toNat o, 8 * 2 ^ w.toNat))) →
      let cells := ls.flatMap (fun x =>
        placeBytes x.2 ((upFrom 0 (2 ^ w.toNat)).flatMap (fun k => natBytes 8 (dGet t x.1 (d.toNat + k)).toNat)))
      ∃ s', exec (.spillp w d a o) s = .next s' ∧ AccessFrame false s s' i f t ∧ Issued s s' f.team f.setA .taking ∧
        s'.full = s.full ∧ (∀ b, rdByte s' b = (storedAt cells b).getD (rdByte s b))) ∧
  (∀ (d a : BitVec 5) (o : BitVec 10) (s s1 : State) (i : Nat) (f : Frag) (t : Team) (ps : List (Spot × Nat)),
    Ready s i f t → accessHeld s f.team = false → NoAdds s f.team →
    ∀ p ∈ ([(.sstD d a o, 8), (.sstW d a o, 4)] : List (Instr × Nat)),
      let ea : Int := ((sGet t f.handler a.toNat).toNat : Int) + (p.2 : Int) * o.toInt
      scalarAccess i t ea p.2 needStore s = .ok (s1, ps) → Unwatched s t 2 [(0, ea, p.2)] →
      let cells := placeBytes ps (natBytes p.2 (sGet t f.handler d.toNat).toNat)
      ∃ s', exec p.1 s = .next s' ∧ AccessFrame true s s' i f t ∧ Issued s s' f.team f.setA .taking ∧
        s'.full = s.full ∧ (∀ b, rdByte s' b = (storedAt cells b).getD (rdByte s b))) ∧
  (∀ (w : BitVec 2) (d a : BitVec 6) (q : BitVec 3) (o : BitVec 7) (s s1 : State) (i : Nat) (f : Frag) (t : Team) (e : Stop), Ready s i f t → accessHeld s f.team = false → a.toNat < t.regs →
    (groupFits t (2 ^ w.toNat) d.toNat (groupOf f.mode) →
      ∀ p ∈ [(Instr.stb w d a q o, 1), (.sth w d a q o, 2), (.stw w d a q o, 4), (.std w d a q o, 8)],
        let span := 2 ^ w.toNat * (if p.2 = 8 then 8 * groupOf f.mode else p.2)
        let sf := q.toNat == 1
        (sf = true → span ≤ 16) →
        laneAccesses i t span (min span 16) needStore sf 0 (fun l => effAddr t l a.toNat o) (passLanes f) s = .error (s1, e) →
        exec p.1 s = .next (stopPass i f true s1 e)) ∧
    (groupFits t (2 ^ w.toNat) d.toNat 1 →
      laneAccesses i t (8 * 2 ^ w.toNat) 8 needStore false 8 (fun l => effAddr t l a.toNat o) (passLanes f) s = .error (s1, e) →
      exec (.spillp w d a o) s = .next (stopPass i f true s1 e))) ∧
  (∀ (d a : BitVec 5) (o : BitVec 10) (s s1 : State) (i : Nat) (f : Frag) (t : Team) (e : Stop),
    Ready s i f t → accessHeld s f.team = false →
    ∀ p ∈ ([(.sstD d a o, 8), (.sstW d a o, 4)] : List (Instr × Nat)),
      scalarAccess i t (((sGet t f.handler a.toNat).toNat : Int) + (p.2 : Int) * o.toInt) p.2 needStore s = .error (s1, e) →
      exec p.1 s = .next (stopPass i f false s1 e)) ∧
  (∀ (i : Nat) (t : Team) (u : UnitSt) (s : State) (lane n align : Nat) (ea : Int), unitOf s t = some u → 0 < n →
    (∀ only, AccessChecked (laneAccess i t lane ea n align needStore only 0 s) i t u s lane ea n align needStore false only 1) ∧
    AccessChecked (laneAccess i t lane ea n align needStore false 8 s) i t u s lane ea n align needStore false false 2 ∧
    AccessChecked (scalarAccess i t ea n needStore s) i t u s 0 ea n n needStore true false 0)

/-- SPILL writes a pass's records, with their masks and kinds, at the lowest active lane's address; FILL reads them back into
registers. SPILL: record k of W holds, from its offset 272·k, the pass's mask word, the KIND (0 when all values are 0, 1 when
all spreads are, else 2), two zero words, the active lanes' mean words from offset 16 for KIND 1 and 2, and their spread words
from offset 144 for KIND 2; no other byte of memory differs and no register does. FILL issues, for every active lane and record,
0 for KIND 0, the mean word with spread 0 for KIND 1, and both words for KIND 2, as memory holds them, and changes no memory.
Both need the registers in range, the team's accesses not held (R44) and the span (from the address of the pass's lowest active
lane) translated; where it fails a check, a stack address and one that is no multiple of 16 among them, the pass traps with no
effect (AccessChecked). SPILL writes and FILL reads memory when the pass issues, the model's choice (notes/assumptions/14.md,
notes/assumptions/15.md). -/
def Obligations.RecordsKeepWhatAPassHolds : Prop :=
  ∀ (w : BitVec 2) (d a : BitVec 6) (o : BitVec 7) (s s1 : State) (i : Nat) (f : Frag) (t : Team) (ps : List (Spot × Nat)),
    Ready s i f t → accessHeld s f.team = false → a.toNat < t.regs → groupFits t (2 ^ w.toNat) d.toNat 1 →
    let lanes := passLanes f
    let ea := effAddr t (lanes.headD 0) a.toNat o
    let kindOf := fun (vs : List DWord) => if ∀ v ∈ vs, v = 0 then 0 else if ∀ v ∈ vs, spreadOf v = 0 then 1 else 2
    (∀ need e, (need = needStore ∨ need = needLoad) → recordSpan i t w a.toNat o need lanes s = .error (s1, e) →
      exec (if need.w then .spill w d a o else .fill w d a o) s = .next (stopPass i f true s1 e)) ∧
    (∀ need u, unitOf s t = some u → AccessChecked (recordSpan i t w a.toNat o need lanes s) i t u s (lanes.headD 0) ea (272 * 2 ^ w.toNat) 16
      need false false 0) ∧
    (recordSpan i t w a.toNat o needStore lanes s = .ok (s1, ps) → NoAdds s f.team →
      Unwatched s t 2 (recordBytes ea lanes ((upFrom 0 (2 ^ w.toNat)).map (fun k => kindOf (lanes.map (fun l => dGet t l (d.toNat + k)))))) →
      let word := fun (off v : Nat) => (upFrom 0 4).map (fun b => (spotAt ps (off + b), BitVec.ofNat 8 (v / 256 ^ b)))
      let cells := (upFrom 0 (2 ^ w.toNat)).flatMap (fun k =>
        let vs := lanes.map (fun l => dGet t l (d.toNat + k))
        let kind := kindOf vs
        word (272 * k) (maskWord f.mask (passWord f)) ++ word (272 * k + 4) kind ++ word (272 * k + 8) 0 ++ word (272 * k + 12) 0 ++
        (if kind = 0 then [] else
          lanes.flatMap (fun l => word (272 * k + 16 + 4 * (l % 32)) (meanOf (dGet t l (d.toNat + k))).toNat)) ++
        (if kind = 2 then
          lanes.flatMap (fun l => word (272 * k + 144 + 4 * (l % 32)) (spreadOf (dGet t l (d.toNat + k))).toNat) else []))
      ∃ s', exec (.spill w d a o) s = .next s' ∧ AccessFrame false s s' i f t ∧ Issued s s' f.team f.setA .taking ∧
        s'.full = s.full ∧ (∀ b, rdByte s' b = (storedAt cells b).getD (rdByte s b))) ∧
    (recordSpan i t w a.toNat o needLoad lanes s = .ok (s1, ps) → NoForeign s f.team (pieceSpans ps) →
      NoneBehind s1 f.team (pieceSpans ps) →
      Unwatched s t 1 (recordBytes ea lanes ((upFrom 0 (2 ^ w.toNat)).map (fun k => (rdByte s (paAt ps (272 * k + 4))).toNat % 4))) →
      ∃ s', exec (.fill w d a o) s = .next s' ∧ AccessFrame false s s' i f t ∧ SameMemory s s' ∧ s'.full = s.full ∧
        Issued s s' f.team f.setA (.results ((upFrom 0 (2 ^ w.toNat)).flatMap (fun k => lanes.map (fun l =>
          let kind := memNat s ps (272 * k + 4) 4 % 4
          { dest := .lane l (d.toNat + k), live := true,
             val := if kind = 0 then 0
               else reg (BitVec.ofNat 32 (memNat s ps (272 * k + 16 + 4 * (l % 32)) 4))
                 (if kind = 1 then 0 else BitVec.ofNat 32 (memNat s ps (272 * k + 144 + 4 * (l % 32)) 4)) })))))

/-- An add-on-store sends its elements on their way and changes no memory; each is applied to memory at its port, one at a time. The
eight ASTO operations, in MOM or PLAIN mode with the registers in range, the team's accesses not held (R44), every lane's
address translated to memory and no watchpoint hit: the pass completes, an operation keeps the set-A flag until its data is
taken and another, untagged, holds the elements lane by lane and j by j; memory and every register are as before. ASTO_APPLY
does nothing while an earlier add-on-store of the team to that location is in flight. Otherwise it takes its first element: the
4 bytes (8 for a pair) at its address become the operation's result (addApplied) on what they held, and no other byte differs;
with the last element the operation is over. FADD.R may be combined with other FADD.R elements in flight to the same location,
of any team: memory becomes the value of some full binary tree of additions over what it held and the elements taken, each once
(CombinedAdds), and those leave their operations. In LIN and SMP mode ASTO raises ILLEGAL-MODE; where an access fails a check
the pass traps with no effect. That elements are applied one by one (notes/assumptions/15.md) and that FADD.R joins elements of
other teams in flight, of equal acct alone (notes/assumptions/72.md), are the model's choices. -/
def Obligations.AddOnStoresAreAppliedAtTheirPort : Prop :=
  (∀ (w : BitVec 2) (d a : BitVec 6) (o : BitVec 7) (s s1 : State) (i : Nat) (f : Frag) (t : Team)
      (ls : List (Nat × List (Spot × Nat))), Ready s i f t → accessHeld s f.team = false → a.toNat < t.regs →
    groupFits t (2 ^ w.toNat) d.toNat (groupOf f.mode) →
    ∀ p ∈ [(Instr.astoIadd w d a o, 0), (.astoFadd w d a o, 1), (.astoFaddR w d a o, 2), (.astoImin w d a o, 3),
        (.astoImax w d a o, 4), (.astoFmin w d a o, 5), (.astoFmax w d a o, 6), (.astoIor w d a o, 7)],
      let pair := f.mode == 1 && (p.2 == 1 || p.2 == 2 || p.2 == 5 || p.2 == 6)
      let size := if pair then 8 else 4
      let n := 2 ^ w.toNat
      (2 ≤ f.mode → exec p.1 s = .next (stopPass i f true s (.trap 0x02 0 (dw f.iword.toNat)))) ∧
      (f.mode < 2 →
        laneAccesses i t (n * size) (min (n * size) 16) needAdd false 0 (fun l => effAddr t l a.toNat o) (passLanes f) s = .ok (s1, ls) →
        (∀ x ∈ ls, ∀ y ∈ x.2, ∀ k b, y.1 ≠ .log k b) → ls ≠ [] →
        Unwatched s t 3 (ls.map (fun x => (x.1, effAddr t x.1 a.toNat o, n * size))) →
        ∃ s', exec p.1 s = .next s' ∧ AccessFrame false s s' i f t ∧ SameMemory s s' ∧ s'.full = s.full ∧
          Issued s s' f.team f.setA .taking ∧
          Issued s s' f.team none (.adds (ls.flatMap (fun x => (upFrom 0 n).map (fun j =>
            { pa := paAt x.2 (j * size), mean := meanOf (dGet t x.1 (d.toNat + j)), spread := spreadOf (dGet t x.1 (d.toNat + j)),
               q3 := p.2, pair := pair, acct := f.acct && pair && (p.2 == 1 || p.2 == 2) })))))) ∧
  (∀ (op : Nat) (s : State) (o : Op) (e : AddElem) (es : List AddElem), amGet op s.ops = some o → o.body = .adds (e :: es) →
    amSorted s.ops = true →
    let m : Word := BitVec.ofNat 32 (rdNat s e.pa 4)
    let v : Word := BitVec.ofNat 32 (if e.pair then rdNat s (e.pa + 4) 4 else 0)
    (addReady s o.team op e = false → exec (.astoApply op) s = .next s) ∧
    (addReady s o.team op e = true → ∃ s' r, exec (.astoApply op) s = .next s' ∧ s'.teams = s.teams ∧ s'.frags = s.frags ∧
      rdNat s' e.pa 4 = r.1.toNat ∧ (e.pair = true → rdNat s' (e.pa + 4) 4 = r.2.toNat) ∧
      SameMemoryBut e.pa (if e.pair then 8 else 4) s s' ∧
      (e.q3 ≠ 2 → r = addApplied e m v ∧
        (if es = [] then amGet op s'.ops = none
         else ∃ o', amGet op s'.ops = some o' ∧ o' = { o with body := .adds es })) ∧
      (e.q3 = 2 → ∃ xs : List (Nat × Nat × AddElem), (op, 0, e) ∈ xs ∧
        (∀ x ∈ xs, ∃ o' es', amGet x.1 s.ops = some o' ∧ o'.body = .adds es' ∧ es'[x.2.1]? = some x.2.2 ∧ x.2.2.pa = e.pa ∧
          x.2.2.q3 = 2 ∧ x.2.2.pair = e.pair ∧ x.2.2.acct = e.acct) ∧
        CombinedAdds e ((m, v) :: xs.map (fun x => (x.2.2.mean, x.2.2.spread))) r ∧
        (∀ n o' es', amGet n s.ops = some o' → o'.body = .adds es' →
          let left := ((upFrom 0 es'.length).zip es').filter (fun y => !xs.any (fun x => x.1 == n && x.2.1 == y.1))
          amGet n s'.ops = if left.length = es'.length then some o' else if left = [] then none
            else some { o' with body := .adds (left.map Prod.snd) })))) ∧
  (∀ (w : BitVec 2) (d a : BitVec 6) (o : BitVec 7) (s s1 : State) (i : Nat) (f : Frag) (t : Team) (e : Stop),
    Ready s i f t → accessHeld s f.team = false → a.toNat < t.regs → groupFits t (2 ^ w.toNat) d.toNat (groupOf f.mode) → f.mode < 2 →
    ∀ p ∈ [(Instr.astoIadd w d a o, 0), (.astoFadd w d a o, 1), (.astoFaddR w d a o, 2), (.astoImin w d a o, 3),
        (.astoImax w d a o, 4), (.astoFmin w d a o, 5), (.astoFmax w d a o, 6), (.astoIor w d a o, 7)],
      let n := 2 ^ w.toNat * (if f.mode = 1 ∧ (p.2 = 1 ∨ p.2 = 2 ∨ p.2 = 5 ∨ p.2 = 6) then 8 else 4)
      laneAccesses i t n (min n 16) needAdd false 0 (fun l => effAddr t l a.toNat o) (passLanes f) s = .error (s1, e) →
      exec p.1 s = .next (stopPass i f true s1 e)) ∧
  (∀ (i : Nat) (t : Team) (u : UnitSt) (s : State) (lane n align : Nat) (ea : Int), unitOf s t = some u → 0 < n →
    AccessChecked (laneAccess i t lane ea n align needAdd false 0 s) i t u s lane ea n align needAdd false false 1)

/-- FENCE holds its team until every earlier access is performed at its scope, and then orders them; CPY.FENCE, MFEN and PREF are
tagged. FENCE enters flight untagged and its fragment waits at it. FENCE_COMPLETE changes nothing while an earlier access of the
team is not performed at the scope; then the fragment goes on, the team's add-on-stores, also those combined into another team's
write, happen before what it does next, and for REL and FULL a release at the scope marks every write of the team; no byte of
memory changes. CPY.FENCE and MFEN (of a whole team, with room in its core's matrix queue) make the team's writes happen before
what its copy engine, or its matrix operands' reads, do next, and keep the set-B flag until no earlier write is pending. PREF
keeps the set-A flag until its addresses are taken, and changes neither registers nor memory. -/
def Obligations.FencesWaitForEarlierAccesses : Prop :=
  (∀ (a : BitVec 6) (l : BitVec 1) (o : BitVec 7) (s : State) (i : Nat) (f : Frag) (t : Team), Ready s i f t → a.toNat < t.regs →
    ∃ s', exec (.pref a l o) s = .next s' ∧ AccessFrame false s s' i f t ∧ SameMemory s s' ∧ s'.full = s.full ∧
      Issued s s' f.team f.setA .taking) ∧
  (∀ (sc : BitVec 3) (k : BitVec 2) (s : State) (i : Nat) (f : Frag) (t : Team), current s = some (i, f, t) →
    exec (.fence sc k) s = .next (beginWait i (.fence s.seq) (let u := issueOp i f t none (.fence sc.toNat k.toNat) s
      if sc.toNat = 5 then startPending f.team s.seq u else u))) ∧
  (∀ (op : Nat) (s : State) (o : Op) (sc k : Nat), amGet op s.ops = some o → o.body = .fence sc k →
    (performedBefore s o.team op sc = false → exec (.fenceComplete op) s = .next s) ∧
    (performedBefore s o.team op sc = true → Undebugged s →
      ∃ s', exec (.fenceComplete op) s = .next s' ∧ SameMemory s s' ∧ amGet op s'.ops = none ∧
        (∀ i f, amGet i s.frags = some f →
          amGet i s'.frags = some (if f.wait = .fence op then moveOn 4 f.key f else f)) ∧
        (∀ w ∈ s'.hist, w.writer = agentAdds o.team ∨ w.writer = agentMatrix o.team ∨ agentAdds o.team ∈ w.also → o.team ∈ w.acq) ∧
        (k ≠ 2 → ∃ n r, amGet n s'.rels = some r ∧ r.agent = o.team ∧ r.scope = sc ∧ r.counter = none ∧
          r.full = decide (k = 3) ∧ ∀ w ∈ s'.hist, w.writer = o.team ∨ o.team ∈ w.also ∨ o.team ∈ w.acq ∨ o.team ∈ w.readBy → n ∈ w.rel))) ∧
  (∀ (s : State) (i : Nat) (f : Frag) (t : Team), current s = some (i, f, t) → f.team < 2 ^ 40 →
    (∃ h, exec .cpyFence s = .next (advance i 4 (issueOp i f t f.setB .cpyFence { s with hist := h })) ∧
      h.map (fun w => { w with acq := [] }) = s.hist.map (fun w => { w with acq := [] }) ∧
      ∀ w ∈ h, w.writer = f.team ∨ w.writer = agentAdds f.team ∨ w.writer = agentMatrix f.team ∨ f.team ∈ w.acq →
        agentCopy f.team ∈ w.acq) ∧
    (f.mask ≠ fullMask t.lanes → exec .mfen s = .next (stopPass i f false s (.trap 0x04 0 (dw f.iword.toNat)))) ∧
    (f.mask = fullMask t.lanes → 32 ≤ queueLen s t.gcore → exec .mfen s = .next s) ∧
    (f.mask = fullMask t.lanes → queueLen s t.gcore < 32 → ∃ h, exec .mfen s = .next (advance i 4 (issueOp i f t f.setB .mfen { s with hist := h })) ∧
      h.map (fun w => { w with acq := [] }) = s.hist.map (fun w => { w with acq := [] }) ∧
      ∀ w ∈ h, w.writer = f.team ∨ w.writer = agentAdds f.team ∨ w.writer = agentMatrix f.team → agentOperand f.team ∈ w.acq)) ∧
  (∀ (op : Nat) (s : State) (o : Op), amGet op s.ops = some o →
    (o.body = .cpyFence →
      exec (.cpyFenceComplete op) s = .next (if writesPending s o.team op = true then s else endOp op s)) ∧
    (o.body = .mfen → exec (.matrixOpComplete op) s =
      .next (if writesPending s o.team op = true then s else settleTeam o.team (endOp op s))))

/-- CTR.ADD adds indivisibly or traps without effect; CTR.WAIT waits for its threshold; CTR.LOAD returns the value and holds
accesses. While a CTR.LOAD of the team is outstanding, or a fragment of it is in CTR.WAIT, the three change nothing; else the
address is checked (counterAccess): its span, the global aperture, 8-byte alignment and a COUNTER page, each with its trap. Then
each enters flight with the set-B tag; CTR.WAIT also waits, CTR.ADD marks the writes that its team has made, acquired or read
before it, and CTR.ADD SYSTEM starts the arrivals it must wait for (notes/assumptions/84.md). CTR_ADD_RESULT changes nothing
until every earlier access is performed at the scope; then the counter's 8 bytes become their sum with the amount, no other byte
differs, the add is the release, at its scope, of the writes marked, and the old value becomes the result on its way; an add to
a ring's doorbell that exposes descriptors keeps an operation for them. A sum of 2^64 or more leaves the counter, and the
register, as they are, ends the operation's tag, and is a deferred COUNTER-OVERFLOW of the fragment that now holds the lowest of
the lanes, of the saved one, of none yet, or, when every lane has exited or a handler issued it that has ended, stops the unit
(which of these, where R122 leaves it open, is the model's choice: notes/assumptions/49.md). CTR_WAIT_RETURN changes nothing
below the threshold; at it, the register takes the value and the fragment goes on; where the address no longer leads to the
counter, the instruction is made again. CTR_LOAD_RESULT writes the value and ends the operation. Neither changes memory; the
value is the newest one, the model's choice (notes/assumptions/11.md, notes/assumptions/14.md). -/
def Obligations.CountersAddOnceAndNeverWrap : Prop :=
  (∀ (s : State) (team : Nat), accessHeld s team = true ↔ ∃ e ∈ s.ops, e.2.team = team ∧
    ((∃ pa sc d, e.2.body = .ctrLoad pa sc d) ∨
      ((∃ va pa n sc d, e.2.body = .ctrWait va pa n sc d) ∧ ∃ g ∈ s.frags, g.2.wait = .ctr e.1))) ∧
  (∀ (i : Nat) (t : Team) (u : UnitSt) (va : DWord) (need : Need) (s : State), amGet t.unit s.units = some u →
    (∀ c, checkSpan va.toNat 8 = some c → counterAccess i t va need s = .error (s, .trap c va 0)) ∧
    (checkSpan va.toNat 8 = none →
      (aperture va.toNat ≠ 0 → counterAccess i t va need s = .error (s, .trap 0x0E va 0)) ∧
      (aperture va.toNat = 0 → va.toNat % 8 ≠ 0 → counterAccess i t va need s = .error (s, .trap 0x0D va 0)) ∧
      (aperture va.toNat = 0 → va.toNat % 8 = 0 →
        (∀ v sp, teamPage i t u.ctx va.toNat need va true false 0 s = .ok (v, sp) → counterAccess i t va need s =
          (match sp with
           | .at pa e => if entryBit e 9 then .ok (v, pa) else .error (v, .trap 0x0E va 0)
           | .log _ _ => .error (v, .trap 0x0E va 0))) ∧
        (∀ x, teamPage i t u.ctx va.toNat need va true false 0 s = .error x → counterAccess i t va need s = .error x)))) ∧
  (∀ (a b c sc : BitVec 5) (s : State) (i : Nat) (f : Frag) (t : Team), current s = some (i, f, t) →
    let va := sGet t f.handler a.toNat
    (accessHeld s f.team = true →
      exec (.ctrAdd a b c sc) s = .next s ∧ exec (.ctrWait a b c sc) s = .next s ∧ exec (.ctrLoad a c sc) s = .next s) ∧
    (accessHeld s f.team = false →
      (∀ s1 pa, counterAccess i t va needCtrAdd s = .ok (s1, pa) → exec (.ctrAdd a b c sc) s = .next (advance i 4
        (let u := issueOp i f t f.setB
          (.ctrAdd va pa (sGet t f.handler b.toNat) sc.toNat (sDest f.handler c.toNat) f.pc f.mask f.handler)
          (markRelease s1.seq [f.team, agentAdds f.team, agentMatrix f.team] s1)
         if sc.toNat = 5 then startPending f.team s1.seq u else u))) ∧
      (∀ s1 e, counterAccess i t va needCtrAdd s = .error (s1, e) → exec (.ctrAdd a b c sc) s = .next (stopPass i f false s1 e)) ∧
      (∀ s1 pa, counterAccess i t va needLoad s = .ok (s1, pa) →
        exec (.ctrWait a b c sc) s = .next (beginWait i (.ctr s1.seq)
          (issueOp i f t f.setB (.ctrWait va pa (sGet t f.handler b.toNat) sc.toNat (sDest f.handler c.toNat)) s1)) ∧
        exec (.ctrLoad a c sc) s = .next (advance i 4
          (issueOp i f t f.setB (.ctrLoad pa sc.toNat (sDest f.handler c.toNat)) s1))) ∧
      (∀ s1 e, counterAccess i t va needLoad s = .error (s1, e) →
        exec (.ctrWait a b c sc) s = .next (stopPass i f false s1 e) ∧
        exec (.ctrLoad a c sc) s = .next (stopPass i f false s1 e)))) ∧
  (∀ (op : Nat) (s : State) (o : Op) (va amount pc : DWord) (pa sc : Nat) (d : Dest) (mask : LaneMask) (h : Bool),
    amGet op s.ops = some o →
    let ends := fun (u : State) =>
      let r : TrapRec := { hcause := 0x8018, haddr := va, hpc := 0, hinfo := amount, hdpc := pc, tick := s.toll }
      let mine := u.frags.filter (fun e => e.2.team == o.team && e.2.handler == h && (e.2.mask &&& mask) != 0)
      (overflowPlace u o mask h = 0 → exec (.ctrAddResult op) s = .next u) ∧
      (∀ j g, overflowPlace u o mask h = 1 → minBy (fun e => lowestLane (e.2.mask &&& mask)) mine = some (j, g) →
        exec (.ctrAddResult op) s = .next (raiseDeferred j r (endOp op u))) ∧
      (overflowPlace u o mask h = 2 → exec (.ctrAddResult op) s = .next (modTeam o.team (fun t => { t with
        frame := t.frame.map (fun fr => { fr with saved := { fr.saved with deferred := fr.saved.deferred ++ [r] } }) }) (endOp op u))) ∧
      (∀ t, amGet o.team s.teams = some t → overflowPlace u o mask h = 3 →
        exec (.ctrAddResult op) s = .next (stopUnit o.unit (recordError o.ctx o.gcore t.idx r (endOp op u))))
    (o.body = .overflow va amount pc mask h → ends s) ∧
    (o.body = .ctrAdd va pa amount sc d pc mask h →
      (performedBefore s o.team op sc = false → exec (.ctrAddResult op) s = .next s) ∧
      (performedBefore s o.team op sc = true → 2 ^ 64 ≤ rdNat s pa 8 + amount.toNat →
        ends { s with ops := amMod op (fun o => { o with tag := none, body := .overflow va amount pc mask h }) s.ops }) ∧
      (performedBefore s o.team op sc = true → rdNat s pa 8 + amount.toNat < 2 ^ 64 → op < s.seq →
        ∃ s', exec (.ctrAddResult op) s = .next s' ∧ rdNat s' pa 8 = rdNat s pa 8 + amount.toNat ∧ SameMemoryBut pa 8 s s' ∧
          s'.teams = s.teams ∧ s'.frags = s.frags ∧
          amGet op s'.ops = some { o with body := .results [{ dest := d, val := dw (rdNat s pa 8), live := true }] } ∧
          amGet op s'.rels = some ⟨o.team, .core o.gcore, sc, false, true, some (pa, rdNat s pa 8 + amount.toNat)⟩ ∧
          ((∀ k r, doorbellRing s o.ctx va = some (k, r) → amount = 0 ∨ rdNat s pa 8 + amount.toNat ≤ r.taken) →
            ∀ k, k ≠ op → amGet k s'.ops = amGet k s.ops) ∧
          (∀ k r, doorbellRing s o.ctx va = some (k, r) → amount ≠ 0 → r.taken < rdNat s pa 8 + amount.toNat →
            ∃ n, s.seq ≤ n ∧ amGet n s'.ops = some
              { o with tag := none, weight := 0, body := .doorbell k (rdNat s pa 8 + amount.toNat) })))) ∧
  (∀ (n : Nat) (as : List Nat) (s : State) (w : WriteRec), w ∈ s.hist → ∃ w' ∈ (markRelease n as s).hist, w' = { w with rel := w'.rel } ∧
    (n ∈ w'.rel ↔ n ∈ w.rel ∨ ∃ a ∈ as, w.writer = a ∨ a ∈ w.also ∨ a ∈ w.acq ∨ a ∈ w.readBy)) ∧
  (∀ (op : Nat) (s s1 : State) (o : Op) (x : Xlat) (va threshold : DWord) (pa sc : Nat) (d : Dest), amGet op s.ops = some o →
    (∀ n, d = .scalar n → lockedWaiting s o.team (scalarLock n) = false ∧ locked s o.team (scalarLock n) = false) →
    let v := rdNat s pa 8
    (o.body = .ctrWait va pa threshold sc d → translate o.ctx o.gcore va.toNat needLoad s = (x, s1) →
      ((∀ e ∈ s.frags, e.2.wait ≠ .ctr op) → exec (.ctrWaitReturn op) s = .next s1) ∧
      ((∃ e ∈ s.frags, e.2.wait = .ctr op) →
        ((∀ e, x = .page pa e → entryBit e 9 = false) → exec (.ctrWaitReturn op) s = .next (endOp op { s1 with
          frags := s1.frags.map (fun e => if e.2.wait = .ctr op then (e.1, { e.2 with wait := .run }) else e) })) ∧
        (∀ e, x = .page pa e → entryBit e 9 = true →
          (v < threshold.toNat → exec (.ctrWaitReturn op) s = .next s1) ∧
          (threshold.toNat ≤ v → Undebugged s →
            ∃ s', exec (.ctrWaitReturn op) s = .next s' ∧ SameMemory s s' ∧ amGet op s'.ops = none ∧
              (∀ i f, amGet i s.frags = some f → amGet i s'.frags = some (if f.wait = .ctr op then moveOn 4 f.key f else f)) ∧
              (∀ t, amGet o.team s.teams = some t → ∃ t', amGet o.team s'.teams = some t' ∧
                { t' with frame := none } = { putDest d (dw v) t with frame := none }))))) ∧
    (o.body = .ctrLoad pa sc d → ∃ s', exec (.ctrLoadResult op) s = .next s' ∧ SameMemory s s' ∧ amGet op s'.ops = none ∧
      s'.frags = s.frags ∧ ∀ t, amGet o.team s.teams = some t → amGet o.team s'.teams = some (putDest d (dw v) t)))

/-- BAR adds 1 to its barrier and waits for its count; SVC takes its arguments and waits; BKPT traps in a context not debuggable.
BAR: a count of 0 and a sum past 2^64 − 1 trap with no effect; otherwise, once the team's earlier accesses are performed at
CLUSTER scope, the unit's barrier is one more and the fragment waits for the next multiple of the count; no other unit's
barrier, no register and no byte of memory changes. BAR_RELEASE changes nothing below the target and lets the fragment on at it.
SVC n of every number takes s16 and s17, enters flight untagged and waits for the MMP, each call with its own number. BKPT
raises BREAKPOINT, HPC the next instruction, unless the context is debuggable; then it stops the cluster and goes on. -/
def Obligations.BarriersMeetAndServicesBegin : Prop :=
  (∀ (a : BitVec 5) (n : BitVec 4) (s : State) (i : Nat) (f : Frag) (t : Team) (u : UnitSt), current s = some (i, f, t) →
    amGet t.unit s.units = some u →
    let count := (sGet t f.handler a.toNat).toNat
    let v := smGet 0 n.toNat u.bar + 1
    (count = 0 → exec (.bar a n) s = .next (stopPass i f false s (.trap 0x19 0 (dw n.toNat)))) ∧
    (count ≠ 0 → 2 ^ 64 ≤ v → exec (.bar a n) s = .next (stopPass i f false s (.trap 0x18 0 1))) ∧
    (count ≠ 0 → v < 2 ^ 64 → performedBefore s f.team s.seq 2 = true →
      ∃ s', exec (.bar a n) s = .next s' ∧ SameMemory s s' ∧ s'.teams = s.teams ∧ s'.ops = s.ops ∧
        (∃ f', amGet i s'.frags = some f' ∧ f' = { f with
          wait := .bar n.toNat ((v + count - 1) / count * count), mid := false, key := s.toll + 1, skid := f'.skid }) ∧
        (∃ u', amGet t.unit s'.units = some u' ∧ u' = { u with bar := u'.bar } ∧
          ∀ k, smGet 0 k u'.bar = if k = n.toNat then v else smGet 0 k u.bar) ∧
        (∀ k, k ≠ i → amGet k s'.frags = amGet k s.frags) ∧ (∀ k, k ≠ t.unit → amGet k s'.units = amGet k s.units))) ∧
  (∀ (i : Nat) (s : State) (f : Frag) (t : Team) (u : UnitSt) (n target : Nat), amGet i s.frags = some f →
    amGet f.team s.teams = some t → amGet t.unit s.units = some u → f.wait = .bar n target → f.stopFor = none → f.stepping = none →
    (smGet 0 n u.bar < target → exec (.barRelease i) s = .next s) ∧
    (target ≤ smGet 0 n u.bar → ∃ s', exec (.barRelease i) s = .next s' ∧ s' = { s with hist := s'.hist, frags := s'.frags } ∧
      amGet i s'.frags = some (moveOn 4 f.key f) ∧ ∀ k, k ≠ i → amGet k s'.frags = amGet k s.frags)) ∧
  (∀ (s : State) (i : Nat) (f : Frag) (t : Team), current s = some (i, f, t) →
    (∀ p ∈ ([(.svcVersion, 0), (.svcPoolmap, 1), (.svcPoolcount, 2), (.svcPrefetch, 3)] : List (Instr × Nat)) ++
        (upFrom 0 512).map (fun n => (Instr.svcUnknown (BitVec.ofNat 9 n), n)),
      exec p.1 s = .next (beginWait i (.svc p.2 (sGet t f.handler 16) (sGet t f.handler 17) s.seq [])
        (issueOp i f t none (.service true) s))) ∧
    (debuggable s t = false → exec .bkpt s = .next (stopPass i f false s (.trapAt 0x21 (f.pc + 4) 0 0))) ∧
    (debuggable s t = true → exec .bkpt s = .next (advance i 4
      (triggerStop (clusterOf t.gcore) 1 (modFrag i (fun g => { g with stopFor := some 1 }) s)))))

/-- A draw gives each lane and operation its stream's value for its element index; DTAG.NEW takes the next tags, never past 256.
RNG.U, RNG.G, RNG.B, SRND (every mode) and RNG.D (MOM and LIN), with their groups in range: the pass completes with one
operation, tagged by set-A, whose elements are the draw function's results on the Peal block of key, element index (the index
register, through its pattern) and position plus 8·offset plus the sample's number, with the FLAGS bits of all. RNG.C, in PLAIN
and MOM, draws one category for all active lanes, and issues on the tick after its last pass. RNG.KEY, RNG.POS and RNG.POS.ADD
change only their slot; RNG.KEY.LO, RNG.KEY.HI and RNG.POS.RD return it. Nothing of memory or registers changes at issue.
DTAG.NEW in LIN mode with its groups in range: in the first pass TAGCTR advances by W, never past 256, its old value kept for
the later passes; in every lane operation j writes the spread of its source group under tag base + j, or, above 255, without a
tag and setting TAG; no other register differs. In another mode it raises ILLEGAL-MODE. DTAG.RESET sets TAGCTR to 1 with the
first of its passes. -/
def Obligations.NoiseIsDrawnByIndexAndTagsAreFresh : Prop :=
  (∀ (w : BitVec 2) (d a : BitVec 6) (p : BitVec 2) (n : BitVec 3) (o : BitVec 5) (s : State) (i : Nat) (f : Frag) (t : Team),
    current s = some (i, f, t) →
    ∀ x ∈ ([(.rngU w d a p n o, drawU, o.toNat), (.rngG w d a p n o, drawG, o.toNat), (.rngB w d a p n o, drawB, o.toNat),
        (.rngD w d a p n o, drawD, o.toNat), (.srnd w d a p n o, srndFn (o.toNat + 1), 0)] : List (Instr × DrawFn × Nat)),
      let g := groupOf f.mode
      groupFits t (2 ^ w.toNat) d.toNat g → groupFits t (2 ^ w.toNat) a.toNat g →
      (x.1 = .rngD w d a p n o → f.mode = 1 ∨ f.mode = 2) →
      let st := streamOf t n.toNat
      let result := fun (l j : Nat) => x.2.1 f.mode
        (fun k => peal st.key (dGet t (srcLane t p.toNat l) (a.toNat + j * g)) (st.pos + dw (8 * x.2.2 + k)))
        (fun k => peal st.key (0xFFFFFFFFFFFFFF00 + dw k) (st.pos + dw (8 * x.2.2))) (groupAt t l (d.toNat + j * g) g)
      let elems := (passLanes f).flatMap (fun l => (upFrom 0 (2 ^ w.toNat)).flatMap (fun j =>
        ((result l j).1.zip (upFrom (d.toNat + j * g) (result l j).1.length)).map (fun v =>
          { dest := .lane l v.2, val := v.1, live := true })))
      ∃ fl, exec x.1 s = .next (passDone i 4 (issueOp i f t f.setA (.noise elems fl) s)) ∧
        fl = ((passLanes f).flatMap (fun l => (upFrom 0 (2 ^ w.toNat)).map (fun j => (result l j).2))).foldl (fun m y => m ||| y) 0) ∧
  (∀ (d a : BitVec 6) (p : BitVec 2) (n : BitVec 3) (o : BitVec 5) (s : State) (i : Nat) (f : Frag) (t : Team),
    Ready s i f t → f.mode ≤ 1 → groupFits t 1 d.toNat 1 → groupFits t 1 a.toNat 1 →
    let st := streamOf t n.toNat
    let lanes := (upFrom 0 1024).filter (laneOn f.mask)
    let x := dGet t (srcLane t p.toNat (lanes.headD 0)) a.toNat
    let drawn := category lanes (lanes.map (fun l => meanOf (dGet t l d.toNat)))
      (uniformOf (peal st.key x (st.pos + dw (8 * o.toNat))).w0)
    let body : OpBody := .noise (lanes.map (fun l =>
        { dest := .lane l d.toNat, val := (match drawn with | some c => dw c | none => 0xFFFFFFFF), live := true }))
      (match drawn with | some _ => 0 | none => fINV)
    let last := s.toll + ((wordsFrom f.mask (passWord f)).length - 1)
    ∃ s', exec (.rngC d a p n o) s = .next s' ∧ s' = { s with frags := s'.frags, issued := s'.issued, ops := s'.ops, seq := s.seq + 1 } ∧
      Issued s s' f.team f.setA body ∧ (∀ k, k ≠ s.seq → amGet k s'.ops = amGet k s.ops) ∧
      s'.issued = amPut t.gcore (last + 1) s.issued ∧ (∀ k, k ≠ i → amGet k s'.frags = amGet k s.frags) ∧
      ∃ f', amGet i s'.frags = some f' ∧ f' = { moveOn 4 (last + 1) f with skid := f'.skid }) ∧
  (∀ (n : BitVec 3) (a b d : BitVec 5) (s : State) (i : Nat) (f : Frag) (t : Team), current s = some (i, f, t) →
    let st := streamOf t n.toNat
    let put := fun (x : Stream) => advance i 4 (issueOp i f t f.setA (.noise [] 0)
      (modTeam f.team (fun u => { u with noise := smPut ⟨0, 0⟩ n.toNat x u.noise }) s))
    let get := fun (v : DWord) => advance i 4 (issueOp i f t f.setA
      (.noise [{ dest := sDest f.handler d.toNat, val := v, live := true }] 0)
      (modTeam f.team (fun u => { u with noise := smPut ⟨0, 0⟩ n.toNat st u.noise }) s))
    exec (.rngKey n a b) s = .next (put ⟨sGet t f.handler b.toNat ++ sGet t f.handler a.toNat, 0⟩) ∧
    exec (.rngPos n a) s = .next (put { st with pos := sGet t f.handler a.toNat }) ∧
    exec (.rngPosAdd n a) s = .next (put { st with pos := st.pos + sGet t f.handler a.toNat }) ∧
    exec (.rngKeyLo d n) s = .next (get (st.key.setWidth 64)) ∧
    exec (.rngKeyHi d n) s = .next (get ((st.key >>> 64).setWidth 64)) ∧
    exec (.rngPosRd d n) s = .next (get st.pos)) ∧
  (∀ (w : BitVec 2) (d a : BitVec 6) (p : BitVec 2) (s : State) (i : Nat) (f : Frag) (t : Team), Ready s i f t →
    groupFits t (2 ^ w.toNat) d.toNat 2 → groupFits t (2 ^ w.toNat) a.toNat 2 →
    (f.mode ≠ 2 → exec (.dtagNew w d a p) s = .next (stopPass i f true s (.trap 0x02 0 (dw f.iword.toNat)))) ∧
    (f.mode = 2 →
      let n := 2 ^ w.toNat
      let first := firstPass f
      let base := if first then t.tagctr else f.latch.toNat
      let result := fun (l j : Nat) => tagFn (if base + j ≤ 255 then some (base + j) else none)
        (groupAt t (srcLane t p.toNat l) (a.toNat + 2 * j) 2)
      let fl := ((passLanes f).flatMap (fun l => (upFrom 0 n).map (fun j => (result l j).2))).foldl (fun m x => m ||| x) 0
      ∃ s' t' f', exec (.dtagNew w d a p) s = .next s' ∧ amGet f.team s'.teams = some t' ∧ amGet i s'.frags = some f' ∧
        s' = { s with frags := s'.frags, issued := s'.issued, teams := s'.teams, ops := s'.ops } ∧
        MovedOn false 4 s.toll { f with latch := if first then dw base else f.latch } f' ∧
        t' = { withFlags fl t with d := t'.d, tagctr := if first then min 256 (base + n) else t.tagctr } ∧
        (∀ l r, r < 64 → dGet t' l r = if l ∈ passLanes f ∧ d.toNat ≤ r ∧ r < d.toNat + 2 * n
          then nth 0 (result l ((r - d.toNat) / 2)).1 ((r - d.toNat) % 2) else dGet t l r) ∧
        (∀ k, k ≠ f.team → amGet k s'.teams = amGet k s.teams) ∧ (∀ k, k ≠ i → amGet k s'.frags = amGet k s.frags))) ∧
  (∀ (s : State) (i : Nat) (f : Frag) (t : Team), current s = some (i, f, t) →
    exec .dtagReset s = .next (passDone i 4 (if firstPass f then modTeam f.team (fun t => { t with tagctr := 1 }) s else s)))

/-- A matrix instruction of a whole team with a legal record and tile enters its core's queue with the set-B tag; a part of one
traps. Every matrix instruction issued with a lane missing raises ILLEGAL-CONVERGENCE with no effect. Otherwise, with a legal
record, a declared tile, room in the queue, the governor open and its operands within the scratchpad or its rows translated:
MMA, DMMA, MDRAIN.ROWS, MDRAIN.ADD, MDRAIN.FOLIO, MACC.ZERO and MACC.LOAD enter the queue with the record, operands, tile and
batch read now, their array cycles charged, and the fragment goes on; MMAQ and MACC.TREE, with a team of the unit on each
partner core, wait for their partners; MACC.GOV enters with no lock; MCOMMIT takes the open batch's number and opens the next;
MWAIT keeps the number it waits for. -/
def Obligations.MatrixInstructionsEnterTheirQueue : Prop :=
  (∀ (s : State) (i : Nat) (f : Frag) (t : Team) (n : BitVec 9) (ts : BitVec 3) (x y d : BitVec 5), current s = some (i, f, t) →
    (∃ u, amGet t.unit s.units = some u) → f.mask ≠ fullMask t.lanes →
    ∀ ins ∈ [Instr.mma n ts x y, .dmma n ts x y, .mmaqM n ts x y, .mmaqD n ts x y, .mdrainRows n ts x y, .mdrainAdd n ts x y,
        .mdrainFolio n ts x, .maccZero n ts, .maccLoad n ts x y, .maccTree n ts x, .maccGov d, .mcommit d, .mwait x],
      exec ins s = .next (stopPass i f false s (.trap 0x04 0 (dw f.iword.toNat)))) ∧
  (∀ (s s1 : State) (i : Nat) (f : Frag) (t : Team) (u : UnitSt) (n : BitVec 9) (ts : BitVec 3) (x y : BitVec 5)
      (rows : List (List (Spot × Nat))),
    let enter := fun (m : MatOp) (s : State) => advance i 4 (issueOp i f t f.setB (.matrix m) s)
    let entry := fun kind (y : Nat) => matEntry s f t kind n.toNat ts.toNat x.toNat y
    (∀ p ∈ [(Instr.mma n ts x y, 0), (.dmma n ts x y, 1)],
      let m := entry p.2 y.toNat
      MatrixReady s i f t u p.2 n.toNat ts.toNat → operandCheck u t (operandSpans m) = none →
      exec p.1 s = .next (enter m (charged t m.cycles s))) ∧
    (∀ p ∈ [(Instr.mmaqM n ts x y, 2), (.mmaqD n ts x y, 3)],
      let m := entry p.2 y.toNat
      let k := smGet 0 t.gcore u.mmaqs
      let v := modUnit t.unit (fun u => { u with mmaqs := smPut 0 t.gcore (k + 1) u.mmaqs }) (charged t m.cycles s)
      MatrixReady s i f t u p.2 n.toNat ts.toNat → teamsOn s t.unit (quadCores t.gcore) = true →
      operandCheck u t (operandSpans m) = none →
      exec p.1 s = .next (beginWait i (.matrix s.seq) (issueOp i f t f.setB (.partner m k) v))) ∧
    (∀ p ∈ [(Instr.mdrainRows n ts x y, 4), (.mdrainAdd n ts x y, 5)],
      let m := entry p.2 y.toNat
      let pair := recPair m.record
      MatrixReady s i f t u p.2 n.toNat ts.toNat → accessHeld s f.team = false →
      tileRows i t u needAdd pair m.a m.b s = .ok (s1, rows) → queueLen s1 t.gcore < 32 →
      exec p.1 s = .next (enter { m with rows := rows } (watch i f t 3
        ((upFrom 0 32).map (fun (r : Nat) => (0, (m.a.toNat : Int) + (r : Int) * m.b.toInt, if pair then 256 else 128))) s1))) ∧
    (∀ pa : Nat,
      let m := entry 6 0
      let size := folioSize (recPa m.record) (recPv m.record)
      MatrixReady s i f t u 6 n.toNat ts.toNat → accessHeld s f.team = false → checkSpan m.a.toNat size = none →
      aperture m.a.toNat = 1 → scratchSpot u m.a.toNat size = some pa → m.a.toNat % 128 = 0 →
      exec (.mdrainFolio n ts x) s = .next (enter { m with rows := [[(.at pa 0, size)]] }
        (watch i f t 3 [(0, (m.a.toNat : Int), size)] s))) ∧
    (
      let m := matEntry s f t 7 n.toNat ts.toNat 0 0
      MatrixReady s i f t u 7 n.toNat ts.toNat → exec (.maccZero n ts) s = .next (enter m s)) ∧
    (
      let m := entry 8 y.toNat
      MatrixReady s i f t u 8 n.toNat ts.toNat → accessHeld s f.team = false →
      tileRows i t u needLoad (recPair m.record) m.a m.b s = .ok (s1, rows) → queueLen s1 t.gcore < 32 →
      exec (.maccLoad n ts x y) s = .next (enter { m with rows := rows } s1)) ∧
    (
      let m := entry 9 0
      let k := smGet 0 t.gcore u.trees
      MatrixReady s i f t u 9 n.toNat ts.toNat → teamsOn s t.unit (clusterCores t.gcore) = true →
      operandCheck u t [(m.a.toNat, 8192)] = none →
      exec (.maccTree n ts x) s = .next (beginWait i (.matrix s.seq) (issueOp i f t f.setB (.partner m k)
        (modUnit t.unit (fun u => { u with trees := smPut 0 t.gcore (k + 1) u.trees }) s))))) ∧
  (∀ (s : State) (i : Nat) (f : Frag) (t : Team) (d x : BitVec 5), current s = some (i, f, t) → f.mask = fullMask t.lanes →
    (32 ≤ queueLen s t.gcore →
      exec (.maccGov d) s = .next s ∧ exec (.mcommit d) s = .next s ∧ exec (.mwait x) s = .next s) ∧
    (queueLen s t.gcore < 32 →
    exec (.maccGov d) s = .next (advance i 4 (issueOp i f t f.setB (.matrix
      { matOp s f t 10 0 0 0 0 with dest := sDest f.handler d.toNat, locked := none, cycles := 0 }) s)) ∧
    exec (.mcommit d) s = .next (advance i 4 (issueOp i f t f.setB
      (.commit t.batch [{ dest := sDest f.handler d.toNat, val := dw t.batch, live := true }])
      (modTeam f.team (fun t => { t with batch := t.batch + 1 }) s))) ∧
    exec (.mwait x) s = .next (advance i 4 (issueOp i f t f.setB (.mwait (sGet t f.handler x.toNat).toNat) s))))

/-- A queued operation, once no earlier one holds its tile, makes its tile the steps' sum, zero, the loaded rows, or the tree's sum.
MATRIX_OP_COMPLETE, for a team with a fragment left, no earlier operation on the tile and no MFEN outstanding, every write on
record being seen by the team's operand reads: MMA and DMMA make the tile the result of their KCNT + 1 steps on the folios in
the scratchpad; a part of MMAQ does so with the two folios of each joint step that its quad position names; MACC.ZERO makes it
zero, and MACC.LOAD the rows in memory; MACC.TREE gives its first part the sum by pairs of its sixteen tiles. MACC.GOV writes
the governor's status to its scalar. MCOMMIT and MWAIT end exactly when no operation of their batches is left. Joins enter all
parts at once, and change nothing while a part or room is missing. GOVERNOR_WINDOW starts the window of the present tick. -/
def Obligations.MatrixOperationsChangeTheirTile : Prop :=
  (∀ (op : Nat) (s : State) (o : Op) (m : MatOp) (t : Team), amGet op s.ops = some o → amGet o.team s.teams = some t →
    o.body = .matrix m → (∃ e ∈ s.frags, e.2.team = o.team) → tileBusy s op o m = false →
    let pv := if m.dist then recPv m.record else 0
    let folioA := fun (x : Op × MatOp) k => folioAt s x.1 (x.2.a.toNat + 128 * recAstr x.2.record * k) (folioSize (recPa x.2.record) pv)
    let folioB := fun (x : Op × MatOp) k => folioAt s x.1 (x.2.b.toNat + 128 * recBstr x.2.record * k) (folioSize (recPb x.2.record) pv)
    let old := smGet zeroTile m.tile t.acc
    let gives := fun (tile : List DWord) => ∃ s' t', exec (.matrixOpComplete op) s = .next s' ∧ amGet o.team s'.teams = some t' ∧
      SameMemory s s' ∧ t'.d = t.d ∧ t'.s = t.s ∧ ∀ k, smGet zeroTile k t'.acc = if k = m.tile then tile else smGet zeroTile k t.acc
    (m.kind = 0 ∨ m.kind = 1 → fencedReads s o = false → AllSeenBy s (agentOperand o.team) →
      gives ((upFrom 0 (recKcnt m.record + 1)).foldl (fun x k => matStep m.params (folioA (o, m) k) (folioB (o, m) k) x) old)) ∧
    (m.kind = 2 ∨ m.kind = 3 →
      let ms := memberOps s m
      (∀ x ∈ ms, fencedReads s x.1 = false ∧ AllSeenBy s (agentOperand x.1.team) ∧ recPa x.2.record = recPa m.record ∧
        recPb x.2.record = recPb m.record ∧ recPv x.2.record = recPv m.record ∧ recKcnt x.2.record = recKcnt m.record ∧
        x.2.kind % 16 = m.kind) → ms.length = 4 →
      (∀ n ∈ m.members, ∀ x, amGet n s.ops = some x → ∃ e ∈ s.frags, e.2.team = x.team) →
      let q := o.gcore % 4
      gives ((upFrom 0 (2 * (recKcnt m.record + 1))).foldl (fun x j =>
        matStep m.params (folioA (nth (o, m) ms (2 * (q / 2) + j % 2)) (j / 2))
          (folioB (nth (o, m) ms (2 * (q % 2) + j % 2)) (j / 2)) x) old)) ∧
    (m.kind = 7 → gives zeroTile) ∧
    (m.kind = 8 → fencedReads s o = false → AllSeenBy s (agentOperand o.team) →
      (∀ ps ∈ m.rows, ∀ y ∈ ps, ∀ k b, y.1 ≠ .log k b) →
      gives (m.rows.flatMap (fun ps => (upFrom 0 32).map (fun c =>
        if recPair m.record then
          let x : Word := BitVec.ofNat 32 (memNat s ps (8 * c) 4)
          let mu := if isNan x then qnan else x
          reg mu (intake mu (unsign (BitVec.ofNat 32 (memNat s ps (8 * c + 4) 4)))).1
        else
          let x : Word := BitVec.ofNat 32 (memNat s ps (4 * c) 4)
          reg (if isNan x then qnan else x) 0)))) ∧
    (m.kind = 9 →
      let ms := memberOps s m
      ms.length = 16 → m.members.length = 16 → ms.head? = some (o, m) →
      (∀ n ∈ m.members, ∀ x y, amGet n s.ops = some x → x.body = .matrix y → tileBusy s n x y = false) →
      ms.Pairwise (fun x y => x.1.team ≠ y.1.team) → (∀ x ∈ ms, (amGet x.1.team s.teams).isSome = true ∧ ∃ e ∈ s.frags, e.2.team = x.1.team) →
      (∀ x ∈ ms, ∀ w ∈ s.hist, w.meets (stagingAt s x.1 x.2) 8192 = false) →
      ∃ s' t', exec (.matrixOpComplete op) s = .next s' ∧ amGet o.team s'.teams = some t' ∧
        smGet zeroTile m.tile t'.acc = treeOf (fun c => (ms[c]?).elim [] (fun x => tileGet s x.1.team x.2.tile))
          (fun c => (ms[c]?).elim false (fun x => recAcct x.2.record)) 4 0)) ∧
  (∀ (op : Nat) (s : State) (o : Op) (m : MatOp) (t : Team), amGet op s.ops = some o → amGet o.team s.teams = some t →
    (∃ e ∈ s.frags, e.2.team = o.team) → o.body = .matrix m → m.kind = 10 →
    (∀ n, m.dest = .scalar n → lockedWaiting s o.team (scalarLock n) = false ∧ locked s o.team (scalarLock n) = false) →
    ∃ s', exec (.matrixOpComplete op) s = .next s' ∧ SameMemory s s' ∧ amGet op s'.ops = none ∧
      amGet o.team s'.teams = some (putDest m.dest (govStat s (clusterOf o.gcore)) t)) ∧
  (∀ (op : Nat) (s : State) (o : Op), amGet op s.ops = some o →
    (∀ b es, o.body = .commit b es → exec (.matrixOpComplete op) s =
      .next (if es ≠ [] ∨ batchBusy s o.team op (fun k => k == b) = true then s else settleTeam o.team (endOp op s))) ∧
    (∀ n, o.body = .mwait n → exec (.matrixOpComplete op) s =
      .next (if batchBusy s o.team op (fun k => decide (k ≤ n)) = true then s else settleTeam o.team (endOp op s)))) ∧
  (∀ (unit quad : Nat) (s : State) (u : UnitSt), amGet unit s.units = some u →
    ∀ p ∈ [(Instr.mmaqJoin unit quad, upFrom (u.cluster * 16 + quad % 4 * 4) 4, false),
        (.maccTreeJoin unit, upFrom (u.cluster * 16) 16, true)],
      (partners s unit p.2.1 p.2.2 = none → exec p.1 s = .next s) ∧
      ((∃ g ∈ p.2.1, 32 ≤ queueLen s g) → exec p.1 s = .next s) ∧
      (∀ ps, partners s unit p.2.1 p.2.2 = some ps → (∀ g ∈ p.2.1, queueLen s g < 32) → (∀ x ∈ ps, x.1 < s.seq) →
        exec p.1 s = .next (joinParts ps s) ∧ ∀ k x, ps[k]? = some x →
          amGet (s.seq + k) (joinParts ps s).ops = some { x.2.1 with
            body := .matrix { x.2.2 with members := upFrom s.seq ps.length, accepted := s.toll } })) ∧
  (∀ (c : Nat) (s : State), ∃ s', exec (.governorWindow c) s = .next s' ∧ s' = { s with gov := s'.gov } ∧
    ∀ k, govOf s' k = if k = c ∧ (govOf s c).window ≠ s.toll / 1024
      then { govOf s c with window := s.toll / 1024, used := 0 } else govOf s k)

/-- A drain writes its tile's rows, or its folio, to memory and retires the tile; MDRAIN.ADD's elements are added as one update. The
part of an update that one log has no room for is held whole (R315), the choice of log entry 87. For a queued drain of a team
with a fragment left, that no earlier operation's tile holds up, with every row in memory (none in a log): MDRAIN.ROWS leaves at
each row's spots the mean words (and variance words, as pairs) of the tile's row, MDRAIN.FOLIO the folio of the tile at PA and
PV; no other byte changes, the tile stays as it is, its stamps go, and the operation is over. MDRAIN.ADD sends one indivisible
update on its way, row by row. DRAIN_ADD_APPLY, with no element in a log, makes each element at its address (none overlapping
another) what addApplied gives on what stood there, and changes no other byte. An update that lies in one tile that is not
resident waits for the team's earlier appends there; then it enters the log whole, or, while writes are held there or the log
has no room, is held whole as the tile arrives, with FORCED one more if it is the first to be held. -/
def Obligations.DrainsWriteTheirTile : Prop :=
  (∀ (op : Nat) (s : State) (o : Op) (m : MatOp) (t : Team), amGet op s.ops = some o → amGet o.team s.teams = some t →
    o.body = .matrix m → op < s.seq → (∃ e ∈ s.frags, e.2.team = o.team) → tileBusy s op o m = false → appendsOut s o.team op = false →
    (∀ ps ∈ m.rows, ∀ y ∈ ps, ∀ k b, y.1 ≠ .log k b) → (∀ x ∈ s.ops, x.2.ord = op → ∀ k b, x.2.body ≠ .append k b) →
    let tile := smGet zeroTile m.tile t.acc
    let row := fun r => (tile.drop (32 * r)).take 32
    let ends := fun s' => amGet op s'.ops = none ∧ ∃ t', amGet o.team s'.teams = some t' ∧ t'.acc = t.acc ∧ t'.d = t.d ∧ t'.s = t.s ∧
      amGet m.tile t'.stamps = none
    tile.length = 1024 → m.rows.length ≤ 32 →
    (m.kind = 4 →
      let cells := (upFrom 0 m.rows.length).flatMap (fun r =>
        placeBytes (nth [] m.rows r) (rowBytes (recPair m.record) (row r)))
      ∃ s', exec (.matrixOpComplete op) s = .next s' ∧ ends s' ∧ ∀ b, rdByte s' b = (storedAt cells b).getD (rdByte s b)) ∧
    (m.kind = 6 →
      let pa := recPa m.record
      let pv := recPv m.record
      let elem := fun k =>
        (expandElem (fval (meanOf (nth 0 tile k))) (fval (spreadOf (nth 0 tile k))).abs pa pv (recAcct m.record) (recZabs m.record)).1
      ∃ s', exec (.matrixOpComplete op) s = .next s' ∧ ends s' ∧
        ∀ b, rdByte s' b = (storedAt (placeBytes (m.rows.headD []) (folioBytes pa pv elem)) b).getD (rdByte s b)) ∧
    (m.kind = 5 → m.rows ≠ [] →
      let pair := recPair m.record
      ∃ s', exec (.matrixOpComplete op) s = .next s' ∧ ends s' ∧ SameMemory s s' ∧ ∃ n x, s.seq ≤ n ∧ amGet n s'.ops = some x ∧
        x.team = o.team ∧ x.tag = none ∧ x.body = .drainAdd ((upFrom 0 m.rows.length).map (fun r => (upFrom 0 32).map (fun c =>
          (none,
           { pa := paAt (nth [] m.rows r) ((if pair then 8 else 4) * c), mean := meanOf (nth 0 (row r) c),
             spread := spreadOf (nth 0 (row r) c), q3 := 1, pair := pair, acct := pair && recAcct m.record })))))) ∧
  (∀ (op : Nat) (s : State) (o : Op) (rows : List (List (Option Nat × AddElem))) (k : Nat) (t : Tile),
    amGet op s.ops = some o → o.body = .drainAdd rows → rows.flatten ≠ [] → (∀ x ∈ rows.flatten, x.1 = some k) →
    amGet k s.tiles = some t → t.state ≠ .resident →
    let part := WriteBody.adds (rowsIn k rows)
    let ends := fun s' => exec (.drainAddApply op) s = .next s' ∧ amGet op s'.ops = none ∧ SameMemory s s' ∧ s'.frags = s.frags
    (appendHeld s op o k = true → exec (.drainAddApply op) s = .next s) ∧
    (appendHeld s op o k = false → o.phase = none →
      (t.held ≠ [] ∨ placeAll (writeEntries part (o.team, o.ord, s.seq)) t.entries [] = none →
        ∃ s', ends s' ∧ amGet k s'.tiles = some { t with
          state := .arriving, missed := if t.state = .absent then false else t.missed, forced := t.forced + (if t.held = [] then 1 else 0),
          held := t.held ++ [{ body := part, weight := [], stamp := o.ord, writer := o.team }] }) ∧
      (∀ live gone, t.held = [] → placeAll (writeEntries part (o.team, o.ord, s.seq)) t.entries [] = some (live, gone) →
        ∃ s' t', ends s' ∧ amGet k s'.tiles = some t' ∧ t'.entries = live ∧ t'.held = [] ∧ t'.forced = t.forced))) ∧
  (∀ (op : Nat) (s : State) (o : Op) (rows : List (List (Option Nat × AddElem))) (es : List AddElem), amGet op s.ops = some o →
    o.body = .drainAdd rows → rows.flatten = es.map (fun e => (none, e)) →
    es.Pairwise (fun x y => x.pa + x.size ≤ y.pa ∨ y.pa + y.size ≤ x.pa) →
    ∃ s', exec (.drainAddApply op) s = .next s' ∧ amGet op s'.ops = none ∧ s'.teams = s.teams ∧ s'.frags = s.frags ∧
      (∀ e ∈ es,
        let r := addApplied e (BitVec.ofNat 32 (rdNat s e.pa 4)) (BitVec.ofNat 32 (if e.pair then rdNat s (e.pa + 4) 4 else 0))
        rdNat s' e.pa 4 = r.1.toNat ∧ (e.pair = true → rdNat s' (e.pa + 4) 4 = r.2.toNat)) ∧
      (∀ a, (∀ e ∈ es, a < e.pa ∨ e.pa + e.size ≤ a) → rdByte s' a = rdByte s a))

/-- CPY.GO hands over the block as memory holds it; QUIRE_COMPLETE moves a RAW quire's elements, writes STATUS, adds the count and
ends it. CPY.GO, with its block within the core's scratchpad, aligned, and a slot free (with none it changes nothing): the quire
carries the 256 bytes memory holds and the stream its block names, and the set-B tag; STATUS becomes RUNNING and no other byte
changes. CPY.CANCEL marks exactly the quires of the unit on the core with that block, takes them out of the merge tables, and is
tagged until they are gone; with none it only goes on. QUIRE_COMPLETE ends a quire that a check refuses as an error with its
cause and one of the addresses found; one that has ended, with no write left and its appends (at SYSTEM scope, its log entries)
gone: its status goes to STATUS, its counter, unless its page has failed, gets the count, no other byte changes, and the
operation is over; with an append on its way nothing changes. A RAW quire of whole-byte elements whose every element has its
place (both sides in memory, source and destination apart, no other quire running) leaves at each destination element the bytes
of the source element of the same index vector, and no other byte changes. Choices of the model: log entry 57 (which of the
addresses found FPAGE gives) and log entry 84 (without an add the release at CSCOPE is made all the same). -/
def Obligations.QuiresAreHandedOverAndReport : Prop :=
  (∀ (a : BitVec 5) (s : State) (i : Nat) (f : Frag) (t : Team) (u : UnitSt) (p : Nat), Ready s i f t →
    amGet t.unit s.units = some u →
    let va := sGet t f.handler a.toNat
    checkSpan va.toNat 256 = none → aperture va.toNat = 1 → scratchSpot u va.toNat 256 = some p → va.toNat % 256 = 0 →
    accessHeld s f.team = false → NoForeign s f.team [(p, 256)] → NoAdds s f.team →
    let used := (s.ops.filter (fun o => decide (o.2.gcore = t.gcore) && match o.2.body with | .quire _ => true | _ => false)).length
    let block := rdBytes s p 256
    let st := streamOf t (field block 11 1 % 8)
    (4 ≤ used → exec (.cpyGo a) s = .next s) ∧
    (used < 4 → ∃ s', exec (.cpyGo a) s = .next s' ∧ AccessFrame true s s' i f t ∧ SameMemoryBut (p + 56) 8 s s' ∧ rdNat s' (p + 56) 8 = 1 ∧
      Issued s s' f.team f.setB (.quire
        { block := block, va := va, key := st.key, pos := st.pos, stage := 0, cancelled := false, status := 1, count := 0,
          gathers := [], rest := [] }))) ∧
  (∀ (a : BitVec 5) (s : State) (i : Nat) (f : Frag) (t : Team), Ready s i f t →
    let va := sGet t f.handler a.toNat
    let hit := fun (o : Op) => o.gcore = t.gcore ∧ o.unit = t.unit ∧ ∃ q, o.body = .quire q ∧ q.va = va
    ((∀ o ∈ s.ops, ¬ hit o.2) → exec (.cpyCancel a) s = .next (advance i 4 s)) ∧
    ((∃ o ∈ s.ops, hit o.2) → ∃ s' ids, exec (.cpyCancel a) s = .next s' ∧
      AccessFrame true { s with merge := s'.merge } s' i f t ∧ SameMemory s s' ∧
      (∀ n, n ∈ ids ↔ ∃ o ∈ s.ops, o.1 = n ∧ hit o.2) ∧ Issued s s' f.team f.setB (.cpyCancel ids) ∧
      (∀ n o q, n < s.seq → amGet n s.ops = some o → o.body = .quire q → amGet n s'.ops =
        some (if n ∈ ids then { o with body := .quire { q with cancelled := true } } else o) ∧
        (n ∈ ids → isMerged s' (.op n) = false)))) ∧
  (∀ (op : Nat) (s : State) (o : Op) (q : Quire) (u : UnitSt), amGet op s.ops = some o → amGet o.unit s.units = some u →
    o.body = .quire q → isMerged s (.op op) = false →
    (∀ cause at_ s1, q.stage = 0 → quireFenced s op o = false → o.fault = none → q.cancelled = false →
      (q.ctr = 0 ∧ s1 = s ∨ q.ctr ≠ 0 ∧ ∃ pa, engineCounter (quireEng op o) q.ctr true s = .ok (s1, pa)) →
      q.early u = some (cause, at_) →
      ∃ s' a, exec (.quireComplete op) s = .next s' ∧ (a ∈ at_ ∨ at_ = [] ∧ a = 0) ∧ s' = { s1 with ops := s'.ops, free := s'.free } ∧
        amGet op s'.ops = some { o with body := .quire { q with
          stage := 1, count := q.nominal, status := 3 + cause * 2 ^ 8 + a / 2 ^ 16 * 2 ^ 16 } }) ∧
    (q.stage ≠ 0 → q.rest = [] → (q.cancelled = false ∨ q.status % 16 ≠ 2) →
      (appendsOut s (agentEngine op) op = true → exec (.quireComplete op) s = .next s) ∧
      (∀ p t, appendsOut s (agentEngine op) op = false → (q.cscope ≠ 5 ∨ q.stage = 2 ∧ logsOut s (agentEngine op) = false) →
        scratchSpot u (q.va.toNat + 56) 8 = some p → amGet o.team s.teams = some t →
        let ended := fun (s' : State) => exec (.quireComplete op) s = .next s' ∧ amGet op s'.ops = none ∧
          rdNat s' p 8 = q.status % 2 ^ 64 ∧ amGet o.team s'.teams = some { t with
            quireTick := s.toll, ovf := if q.status / 2 ^ 4 % 4 ≠ 0 ∧ t.exited = false then t.ovf ||| 2 else t.ovf,
            stamps := t.stamps.map (fun x => if op < x.2.ord then (x.1, { x.2 with cin := s.toll }) else x) }
        ((q.ctr = 0 ∨ o.fault.isSome = true) → ∃ s', ended s' ∧ SameMemoryBut p 8 s s') ∧
        (∀ s1 pa, engineCounter (quireEng op o) q.ctr true s = .ok (s1, pa) → q.ctr ≠ 0 → o.fault = none → p + 8 ≤ pa ∨ pa + 8 ≤ p →
          rdNat s pa 8 + q.count < 2 ^ 64 →
          ∃ s', ended s' ∧ rdNat s' pa 8 = rdNat s pa 8 + q.count ∧
            (∀ b, b < p ∨ p + 8 ≤ b → b < pa ∨ pa + 8 ≤ b → rdByte s' b = rdByte s b))))) ∧
  (∀ (op : Nat) (s s1 s2 : State) (o : Op) (q : Quire) (u : UnitSt) (src dst : List Nat → Nat) (se de : List Nat → DWord),
    amGet op s.ops = some o → amGet o.unit s.units = some u → o.body = .quire q → isMerged s (.op op) = false →
    q.stage = 0 → quireFenced s op o = false → o.fault = none → q.cancelled = false → q.ctr = 0 → q.early u = none →
    q.dir = 0 → q.sfmt ≠ 6 → q.mcast = 0 → q.opt 1 = false → AllSeenBy s (agentEngine op) →
    (∀ x ∈ s.ops, x.1 ≠ op → ∀ y, x.2.body ≠ .quire y) →
    let n := fmtBits q.sfmt / 8
    let vs := vectors q.sizes
    let places := fun (base : Nat) (stride : Nat → Int) (at_ : List Nat → Nat) (e : List Nat → DWord) =>
      vs.map (fun v => (((base : Int) + dotFrom stride 0 v * (n : Int), n), (Except.ok [(Spot.at (at_ v) (e v), n)] : Except EngStop _)))
    placeSpans (quireEng op o) u needLoad q.allSpans.1 s = (places q.sbase q.sstride src se, s1) →
    placeSpans (quireEng op o) u needStore q.allSpans.2 s1 = (places q.dbase q.dstride dst de, s2) →
    (∀ v ∈ vs, ∀ w ∈ vs, src v + n ≤ dst w ∨ dst w + n ≤ src v) →
    vs.Pairwise (fun v w => dst v + n ≤ dst w ∨ dst w + n ≤ dst v) →
    ∃ s', exec (.quireComplete op) s = .next s' ∧
      amGet op s'.ops = some { o with body := .quire { q with gathers := [], rest := [], stage := 1, count := q.nominal, status := 2 } } ∧
      (∀ v ∈ vs, ∀ k < n, rdByte s' (dst v + k) = rdByte s (src v + k)) ∧
      (∀ a, (∀ v ∈ vs, a < dst v ∨ dst v + n ≤ a) → rdByte s' a = rdByte s a))

/-- A selection is handed over from its record, ranks each stack's qualifying elements, writes the best as its list and reports.
Choices of the model: log entry 60 (the order of checks and the report) and log entry 84 (a counter whose page has failed gets
no add). SEL.GO and SEL.MERGE, with the record within the core's scratchpad, aligned, and a slot free: the selection carries the
128 bytes memory holds and the set-B tag, and STATUS becomes RUNNING. SELECTION_PARTIAL_LIST, its region's places known
(RegionKnown; they are found once) and its writes seen: the stack's part becomes the number of its elements that qualify with
the best CAPACITY of them in rank order, memory unchanged. SELECTION_COMPLETE: an accepted record waits for its lists; with
every list there, the list (count, format, total, then index, key and value of the best) is written at the destination; at the
end, its appends (at SYSTEM scope, its log entries) gone, STATUS is written, the counter, unless its page has failed, gets 1 and
the operation is over. -/
def Obligations.SelectionsRankWhatQualifies : Prop :=
  (∀ (a : BitVec 5) (s : State) (i : Nat) (f : Frag) (t : Team) (u : UnitSt) (p : Nat), Ready s i f t →
    amGet t.unit s.units = some u →
    let va := sGet t f.handler a.toNat
    checkSpan va.toNat 128 = none → aperture va.toNat = 1 → scratchSpot u va.toNat 128 = some p → va.toNat % 128 = 0 →
    accessHeld s f.team = false → NoForeign s f.team [(p, 128)] → NoAdds s f.team →
    (s.ops.filter (fun o => decide (o.2.gcore = t.gcore) && match o.2.body with | .select _ => true | _ => false)).length < 2 →
    ∀ x ∈ [(Instr.selGo a, false), (.selMerge a, true)],
      ∃ s', exec x.1 s = .next s' ∧ AccessFrame true s s' i f t ∧ SameMemoryBut (p + 40) 8 s s' ∧ rdNat s' (p + 40) 8 = 1 ∧
        Issued s s' f.team f.setB (.select { record := rdBytes s p 128, va := va, merge := x.2, stage := 0, parts := [],
                                             entries := [], status := 1, reached := none, places := [],
                                             clash := false })) ∧
  (∀ (op : Nat) (s s1 : State) (o : Op) (x : Selection) (u : UnitSt), amGet op s.ops = some o →
    amGet o.unit s.units = some u → o.body = .select x → isMerged s (.op op) = false →
    let g := selectEng op o
    (x.stage = 0 → o.fault = none → x.ctr = 0 → x.wellFormed = true → ∀ ps, selectDest g u x s = .ok (s1, ps) →
      exec (.selectionComplete op) s = .next (setBody op (.select { x with stage := 1 }) s1)) ∧
    (∀ y v, x.stage = 1 → x.merge = false → o.fault = none → RegionKnown op o x s y v →
      (∀ stack, amGet stack x.parts = none →
        (onStack y stack = [] → exec (.selectionPartialList op stack) s = .next v) ∧
        (onStack y stack ≠ [] → AllSeenBy s (agentEngine op) →
          let all := (onStack y stack).filterMap (fun e =>
            let k := x.keyOf (bytesNat (e.2.map (rdByte s)))
            if x.qualifies k.1 then some ({ index := x.baseidx + e.1, key := k.1, value := k.2 } : SelEntry) else none)
          ∃ s', exec (.selectionPartialList op stack) s = .next s' ∧ SameMemory s s' ∧ amGet op s'.ops = some { o with
            body := .select { y with
              parts := amPut stack (all.length, (sortBy (rankLe (intFmt x.efmt)) all).take x.capacity) x.parts } })) ∧
      ((∃ k ∈ stacksOf y, amGet k x.parts = none) → exec (.selectionComplete op) s = .next v) ∧
      (∀ s2 ps, (∀ k ∈ stacksOf y, (amGet k x.parts).isSome = true) → x.dest = 0 → selectDest g u y v = .ok (s2, ps) →
        (∀ z ∈ ps, ∀ k b, z.1 ≠ .log k b) → (∀ z ∈ s.ops, z.1 ≠ op → ∀ w, z.2.body ≠ .select w) → x.clash = false →
        (∀ k pa e, k < 16 + 16 * x.capacity → spotAt ps k = .at pa e → pa ∉ y.places.flatMap Prod.snd) →
        let total := (x.parts.map (fun p => p.2.1)).foldl (· + ·) 0
        let es := (sortBy (rankLe (intFmt x.efmt)) (x.parts.flatMap (fun p => p.2.2))).take x.capacity
        let list := natBytes 4 es.length ++ natBytes 4 (b2n (intFmt x.efmt)) ++ natBytes 8 (sat64 total) ++
          es.flatMap (fun e => natBytes 8 e.index ++ natBytes 4 e.key.toNat ++ natBytes 4 e.value.toNat)
        ∃ s' o', exec (.selectionComplete op) s = .next s' ∧ amGet op s'.ops = some o' ∧
          o'.body = .select { x with stage := 3, parts := [], places := [], entries := [],
                                     status := 2 + b2n (x.mode == 0 && decide (x.capacity < total)) * 2 ^ 4 } ∧
          ∀ b, rdByte s' b = (storedAt (placeBytes ps list) b).getD (rdByte s b))) ∧
    (3 ≤ x.stage →
      (appendsOut s (agentEngine op) op = true → exec (.selectionComplete op) s = .next s) ∧
      (∀ p, appendsOut s (agentEngine op) op = false → (x.cscope ≠ 5 ∨ x.stage = 4 ∧ logsOut s (agentEngine op) = false) →
        scratchSpot u (x.va.toNat + 40) 8 = some p →
        let ended := fun (s' : State) => exec (.selectionComplete op) s = .next s' ∧ amGet op s'.ops = none ∧
          rdNat s' p 8 = x.status % 2 ^ 64
        ((x.ctr = 0 ∨ o.fault.isSome = true) → ∃ s', ended s' ∧ SameMemoryBut p 8 s s') ∧
        (∀ pa, engineCounter g x.ctr true s = .ok (s1, pa) → x.ctr ≠ 0 → o.fault = none → p + 8 ≤ pa ∨ pa + 8 ≤ p →
          rdNat s pa 8 + 1 < 2 ^ 64 →
          ∃ s', ended s' ∧ rdNat s' pa 8 = rdNat s pa 8 + 1 ∧
            (∀ b, b < p ∨ p + 8 ≤ b → b < pa ∨ pa + 8 ≤ b → rdByte s' b = rdByte s b)))))

/-- Writes to an absent tile go to its log, to a resident one to its frame; an arriving tile's frame gets what its log holds.
Choices of the model: log entry 71 (how FORCED counts) and log entry 72 (how elements group). TILE.PIN, QUERY, PREFETCH and
DRAINLOG, at a canonical global address whose page allows them, are handed over with the set-B tag; a page that does not allow
them raises PERMISSION. LOG_APPEND: a QUERY, or any TILE of a page that is not LOGGABLE, results in QSTAT; a write of bytes to a
resident tile changes exactly its bytes in the tile's frame; one to an absent tile with room joins the log and changes no
memory; one without room is held and starts the arrival, as does one that a SYSTEM-scope wait of its agent waits for.
TILE_FRAME_OBTAINED makes an arriving tile resident in its frame with an empty log and its leaf PAGE with that frame; with a log
of bytes and fills each byte of the frame is that of the latest entry that holds it, one of a single add-on-store entry is what
the element gives, and every other byte is as it was; TILE_ARRIVAL_FAILED makes it absent again with its log kept; neither
changes a tile that does not arrive. PHASE_LOG_ARRIVAL starts the arrival of every tile whose log carries weight of a phase
whose other weight is home. -/
def Obligations.TilesLogAndArrive : Prop :=
  (∀ (a c : BitVec 5) (n : BitVec 1) (s : State) (i : Nat) (f : Frag) (t : Team) (u : UnitSt), current s = some (i, f, t) →
    amGet t.unit s.units = some u →
    let va := sGet t f.handler a.toNat
    checkSpan va.toNat 1 = none → aperture va.toNat = 0 →
    ∀ p ∈ ([(.tilePin a c n, n.toNat, true), (.tileQuery a c, 2, false), (.tilePrefetch a c, 3, true), (.tileDrainlog a c, 4, true)] :
        List (Instr × Nat × Bool)),
      (tileCheck s u.ctx va.toNat p.2.2 = none → exec p.1 s = .next (advance i 4
        (issueOp i f t f.setB (.tile p.2.1 0 va (sDest f.handler c.toNat) []) s))) ∧
      (∀ info, tileCheck s u.ctx va.toNat p.2.2 = some info → exec p.1 s = .next (stopPass i f false s (.trap 0x11 va info)))) ∧
  (∀ (op : Nat) (s : State) (o : Op), amGet op s.ops = some o →
    (∀ kind l va d es, o.body = .tile kind l va d es → kind < 8 →
      let e := (leafOf s o.ctx va.toNat).1
      kind = 2 ∨ entryType e = 0 ∨ entryBit e 10 = false →
      exec (.logAppend op) s =
        .next (setBody op (.tile (kind + 16) 0 va d [{ dest := d, val := qstat s o.ctx va.toNat o.team op, live := true }]) s)) ∧
    (∀ k t body, o.body = .append k body → amGet k s.tiles = some t →
      (appendHeld s op o k = true → exec (.logAppend op) s = .next s) ∧
      (appendHeld s op o k = false →
        (∀ fr cells, t.state = .resident → t.frame = some fr → body = .bytes cells → amSorted cells = true →
          ∃ s', exec (.logAppend op) s = .next s' ∧ amGet op s'.ops = none ∧ s'.tiles = s.tiles ∧ s'.teams = s.teams ∧
            ∀ b, rdByte s' b = if fr * 2 ^ 16 ≤ b then (amGet (b - fr * 2 ^ 16) cells).getD (rdByte s b) else rdByte s b) ∧
        (t.state ≠ .resident → t.held = [] → o.phase = none → systemWaits s (appendAgent s o) o.ord = false →
          let ns := writeEntries body (appendAgent s o, o.ord, s.seq)
          (∀ live gone, placeAll ns t.entries [] = some (live, gone) →
            ∃ s', exec (.logAppend op) s = .next s' ∧ amGet op s'.ops = none ∧ SameMemory s s' ∧
              amGet k s'.tiles = some { t with entries := live, appends := t.appends + ns.length, missed := false } ∧
              ∀ j, j ≠ k → amGet j s'.tiles = amGet j s.tiles) ∧
          (placeAll ns t.entries [] = none →
            ∃ s', exec (.logAppend op) s = .next s' ∧ amGet op s'.ops = none ∧ SameMemory s s' ∧
              amGet k s'.tiles = some { t with
                state := .arriving, forced := t.forced + 1, missed := t.missed && t.state == .arriving,
                held := [{ body := body, weight := [], stamp := o.ord, writer := appendAgent s o }] } ∧
              ∀ j, j ≠ k → amGet j s'.tiles = amGet j s.tiles)) ∧
        (systemWaits s (appendAgent s o) o.ord = true → ∃ s' t', exec (.logAppend op) s = .next s' ∧ amGet k s'.tiles = some t' ∧
          t'.state ≠ .absent)))) ∧
  (∀ (k : Nat) (s : State) (t : Tile) (st : Byte), amGet k s.tiles = some t →
    (t.state ≠ .arriving → exec (.tileFrameObtained k) s = .next s ∧ exec (.tileArrivalFailed k st) s = .next s) ∧
    (t.state = .arriving →
      (∀ fr, t.frame = some fr → ∃ s', exec (.tileFrameObtained k) s = .next s' ∧
        amGet k s'.tiles = some { t with entries := [], held := [], state := .resident, frame := some fr, failed := none }) ∧
      (∀ fr s1, t.frame = none → entryType t.leaf = 3 → takeFrame t.ctx (homeDie t.leaf false t.va.toNat) (t.now s) s = .got fr s1 →
        ∃ s', exec (.tileFrameObtained k) s = .next s' ∧
          amGet k s'.tiles = some { t with entries := [], held := [], state := .resident, frame := some fr, failed := none }) ∧
      (∀ fr c, t.frame = some fr → t.held = [] → amGet t.ctx s.ctxs = some c → (∀ e ∈ t.entries, e.off + max e.len 16 ≤ 2 ^ 16) →
        let va := t.va.toNat
        let rd := fun a => dw (rdNat s a 8)
        let a3 := c.root + 8 * (va / 2 ^ 45 % 4096)
        let a2 := nextTable (rd a3) + 8 * (va / 2 ^ 33 % 4096)
        let a1 := nextTable (rd a2) + 8 * (va / 2 ^ 21 % 4096)
        let a0 := nextTable (rd a1) + 8 * (va / 2 ^ 16 % 32)
        let base := fr * 2 ^ 16
        entryType (rd a3) = 1 → entryType (rd a2) = 1 → entryType (rd a1) = 1 → (∀ a ∈ [a3, a2, a1, a0], a + 8 ≤ base ∨ base + 2 ^ 16 ≤ a) →
        ∃ s', exec (.tileFrameObtained k) s = .next s' ∧ rdNat s' a0 8 = (asPage (t.now s) fr).toNat ∧
          (∀ b, b < base ∨ base + 2 ^ 16 ≤ b → b < a0 ∨ a0 + 8 ≤ b → rdByte s' b = rdByte s b) ∧
          ((∀ e ∈ t.entries, e.kind ≤ 2) → ∀ off, off < 2 ^ 16 → rdByte s' (base + off) =
            (match t.entries.reverse.find? (fun e => e.has off) with
             | some e => nth 0 e.data ((off - e.off) % 16)
             | none => rdByte s (base + off))) ∧
          (∀ e, t.entries = [e] → 2 < e.kind →
            (∀ x ∈ e.elems base,
              let v := addApplied x (BitVec.ofNat 32 (rdNat s x.pa 4)) (BitVec.ofNat 32 (if x.pair then rdNat s (x.pa + 4) 4 else 0))
              rdNat s' x.pa 4 = v.1.toNat ∧ (x.pair = true → rdNat s' (x.pa + 4) 4 = v.2.toNat)) ∧
            (∀ off, off < 2 ^ 16 → (∀ x ∈ e.elems base, base + off < x.pa ∨ x.pa + x.size ≤ base + off) →
              rdByte s' (base + off) = rdByte s (base + off)))) ∧
      (entryType t.leaf ≠ 3 → t.failed = some st.toNat → ∃ s', exec (.tileArrivalFailed k st) s = .next s' ∧
        amGet k s'.tiles = some { t with state := .absent, failed := none, missed := true, held := [] }))) ∧
  (∀ (ph : Nat) (s : State) (p : Phase), amGet ph s.phases = some p →
    let mine := fun (w : List (Nat × Nat)) => (w.filter (fun x => decide (x.1 = ph))).foldl (fun n x => n + x.2) 0
    let total := s.tiles.foldl (fun n t => n + (t.2.entries.foldl (fun n e => n + mine e.weight) 0) +
      (t.2.held.foldl (fun n h => n + mine h.weight) 0)) 0
    (p.root + total ≠ 2 ^ 48 → exec (.phaseLogArrival ph) s = .next s) ∧
    (p.root + total = 2 ^ 48 → ∃ s', exec (.phaseLogArrival ph) s = .next s' ∧ s' = { s with tiles := s'.tiles } ∧
      ∀ k t, amGet k s.tiles = some t → ∃ t', amGet k s'.tiles = some t' ∧
        { t' with state := .absent, missed := false } = { t with state := TileState.absent, missed := false } ∧
        ((∃ e ∈ t.entries, mine e.weight ≠ 0) → t'.state ≠ .absent)))

/-- The memory manager posts fault records, reads heads, refills pools with zeroed frames, releases waiters and answers services.
FAULT_RECORD_POST, for a context whose one waiting merge entry fits its ring: the record (KIND 0 if a tile arrives by it) stands
at its slot, the posted count is one more, an interrupt is raised and no other byte changes. FAULT_RING_HEAD_POLL reads HEAD.
POOL_REFILL adds a frame that reads zero throughout. MERGE_REWALK removes a released entry and lets its waiting fragments walk
again; of a FIRST-TOUCH entry that an engine made, or where only engines still wait, it maps the page from the pool, else it
passes the trap to the earliest fragment. SVC_RETURN writes the service's answer to s16, unless a later-issued write to it has
come first (R81), and lets the fragment on: the version, POOLMAP's status of an address it cannot map (7, 2 or 3), the pool's
count, PREFETCH's 7 for a bad range, and 255 for a number without a service. Where the condition fails nothing changes. -/
def Obligations.TheMemoryManagerAnswers : Prop :=
  (∀ (ctx : Nat) (s : State) (c : Context), amGet ctx s.ctxs = some c →
    (c.heldRecords = [] → exec (.faultRingHeadPoll ctx) s =
      .next { s with ctxs := amPut ctx { c with head := rdNat s (c.frctl + 8) 8 } s.ctxs }) ∧
    ((∀ e ∈ s.merge, wantsRecord ctx e.2 = false) → (∀ t ∈ s.tiles, wantsArrival s ctx t = false) →
      exec (.faultRecordPost ctx) s = .next s) ∧
    (∀ n e, amGet n s.merge = some e → e.ctx = ctx → (s.merge.filter (fun e => wantsRecord ctx e.2)).map Prod.fst = [n] →
      (∀ t ∈ s.tiles, wantsArrival s ctx t = false) → c.heldRecords = [] → c.posted < c.head + c.frlen → c.posted + 1 < 2 ^ 64 →
      let slot := c.fring + 32 * (c.posted % c.frlen)
      let e := { e with info := if e.waiters.any (fun w => match w with | .tile _ => true | _ => false) then e.info / 4 * 4 else e.info }
      slot + 32 ≤ c.frctl ∨ c.frctl + 8 ≤ slot →
      ∃ s', exec (.faultRecordPost ctx) s = .next s' ∧ rdBytes s' slot 32 = faultRecord n e ∧ rdNat s' c.frctl 8 = c.posted + 1 ∧
        (∀ b, b < slot ∨ slot + 32 ≤ b → b < c.frctl ∨ c.frctl + 8 ≤ b → rdByte s' b = rdByte s b) ∧
        amGet n s'.merge = some { e with recorded := true } ∧ amGet ctx s'.ctxs = some { c with posted := c.posted + 1 } ∧
        s'.msix = c.frvec :: s.msix)) ∧
  (∀ (ctx die : Nat) (s s1 : State) (c : Context) (fr : Nat), amGet ctx s.ctxs = some c →
    (c.refill die = false ∨ poolRefused s c die = true → exec (.poolRefill ctx die) s = .next s) ∧
    (c.refill die = true → poolRefused s c die = false → freeFrame die false s = some (fr, s1) →
      ∃ s', exec (.poolRefill ctx die) s = .next s' ∧ SameMemoryBut (fr * 2 ^ 16) (2 ^ 16) s s' ∧
        (∀ x, x < 2 ^ 16 → rdByte s' (fr * 2 ^ 16 + x) = 0) ∧
        amGet ctx s'.ctxs =
          some (c.withPool die (c.pool die ++ [fr]) (decide ((c.pool die ++ [fr]).length < c.poolSize))))) ∧
  (∀ (n : Nat) (s : State) (e : MergeEntry), amGet n s.merge = some e →
    let addr := e.vpn * (if e.large then 2 ^ 21 else 2 ^ 16)
    (∀ st, e.released = some st → ∃ s', exec (.mergeRewalk n) s = .next s' ∧ amGet n s'.merge = none ∧
      (st = 0 → SameMemory s s' ∧ ∀ i f va how, Waiter.frag i ∈ e.waiters → amGet i s.frags = some f → f.wait = .merge n va how →
        amGet i s'.frags = some { f with wait := .run })) ∧
    (e.released = none → entryType e.leaf ≠ 3 ∨ entryBit e.leaf 10 = true → exec (.mergeRewalk n) s = .next s) ∧
    (e.released = none → entryType e.leaf = 3 → entryBit e.leaf 10 = false →
      let first := (e.waiters.filter Waiter.isTeam).head?
      let now := (leafOf s e.ctx addr).1
      (∀ i, e.byEngine = false → e.toucher = none → first = some (.frag i) →
        exec (.mergeRewalk n) s = .next (modFrag i (fun f => { f with wait := .run })
          { s with merge := amPut n { e with toucher := some i } s.merge })) ∧
      (e.byEngine = false → e.toucher ≠ none → exec (.mergeRewalk n) s = .next s) ∧
      (e.byEngine = true ∨ e.toucher = none ∧ first = none ∧ e.waiters ≠ [] →
        (∀ fr s1, entryType now = 3 → takeFrame e.ctx (homeDie now false addr) now s = .got fr s1 →
          exec (.mergeRewalk n) s = .next (mapTouch e.ctx addr now fr s1)) ∧
        (entryType now ≠ 3 → exec (.mergeRewalk n) s = .next (releasePage e.ctx addr 0 s)) ∧
        (entryType now = 3 → takeFrame e.ctx (homeDie now false addr) now s = .refused →
          exec (.mergeRewalk n) s = .next { s with merge := amPut n { e with released := some 1 } s.merge })))) ∧
  (∀ (i n call : Nat) (a b : DWord) (s : State) (f : Frag) (t : Team) (u : UnitSt) (oc : Op) (live : Bool), amGet i s.frags = some f →
    amGet f.team s.teams = some t → amGet t.unit s.units = some u → f.wait = .svc n a b call [] → f.stopFor = none → f.stepping = none →
    amGet call s.ops = some oc → oc.body = .service live →
    (serviceHeld s (dieOf t.gcore) call = true → exec (.svcReturn i) s = .next s) ∧
    (serviceHeld s (dieOf t.gcore) call = false → ScalarFree s f 16 →
      let answers := fun (v : DWord) => ∃ s', exec (.svcReturn i) s = .next s' ∧
        s' = { s with frags := s'.frags, teams := s'.teams, ops := s'.ops, phases := s'.phases } ∧ amGet call s'.ops = none ∧
        amGet i s'.frags = some (moveOn 4 f.key f) ∧ amGet f.team s'.teams = some (if live then putDest (.scalar 16) v t else t) ∧
        (∀ k, k ≠ i → amGet k s'.frags = amGet k s.frags) ∧ (∀ k, k ≠ f.team → amGet k s'.teams = amGet k s.teams)
      let e := (leafOf s u.ctx a.toNat).1
      (n = 0 → answers (s.boot.version.setWidth 64)) ∧
      (n = 1 → serviceAddr a.toNat 1 = false → answers 7) ∧
      (n = 1 → serviceAddr a.toNat 1 = true → entryType e = 2 → answers 2) ∧
      (n = 1 → serviceAddr a.toNat 1 = true → entryType e ≠ 2 → entryType e ≠ 3 → answers 3) ∧
      (∀ fr s1, n = 1 → serviceAddr a.toNat 1 = true → entryType e = 3 → entryBit e 10 = false →
        takeFrame u.ctx (homeDie e false a.toNat) e s = .got fr s1 →
        exec (.svcReturn i) s = .next (serviceEnds i f call (dw 0) (mapTouch u.ctx a.toNat e fr s1))) ∧
      (n = 2 → answers (match amGet u.ctx s.ctxs with | some c => dw (c.pool (dieOf t.gcore)).length | none => 0)) ∧
      (n = 3 → b = 0 ∨ serviceAddr a.toNat b.toNat = false → answers 7) ∧
      (3 < n → answers 255)))

/-- A command acts only as its queue's next entry, in order and after its wait; its end is counted and reported in the status
record. Every command: out of its turn, while an earlier one it may not pass is in progress, or while its wait's counter is
below its value, nothing changes; with a reserved field set, or on a queue that does not take it, its entry is read and it ends
with BADOP. A cancelled replay only counts what is not a LAUNCH or GRAPH.REPLAY. OPs of no meaning end with BADOP, in a
recording too (log entry 35). The end of a command of a ring with no DONECTR, whose status record meets no page table and does
not wrap: HEAD is one more, DONE is one more, ERRIDX and ERRCODE name it when its status is not 0, no byte outside the record
changes, and it is no longer in progress. -/
def Obligations.CommandsTakeTheirTurnAndReport : Prop :=
  (∀ (c : Command) (s : State) (q : Queue), pendingOf s c = none → amGet c.queue s.queues = some q →
    ∀ p ∈ allCommands c,
      (c.idx ≠ q.head ∨ inOrder q c = false → exec p.1 s = .next s) ∧
      (c.idx = q.head → inOrder q c = true → (∀ x, amGet q.ctx s.ctxs = some x → x.dying = false) →
        (1 < c.flags.toNat ∨ c.res0 ≠ 0 ∨ (c.queue == adminQueue) ≠ p.2 → exec p.1 s = .next (badCommand c 1 s)) ∧
        (∀ s1 pa, c.flags.toNat ≤ 1 → c.res0 = 0 → (c.queue == adminQueue) = p.2 → q.recording = none →
          waitOver c q s = .ok (s1, some pa) → rdNat s1 pa 8 < c.waitVal.toNat → exec p.1 s = .next s) ∧
        (c.flags.toNat ≤ 1 → c.res0 = 0 → (c.queue == adminQueue) = p.2 → 2 ^ 20 ≤ c.queue → q.cancelled = true → c.op ≠ 0x20 →
          c.op ≠ 0x23 → exec p.1 s = .next (goodCommand c s)))) ∧
  (∀ (c : Command) (s : State) (q : Queue) (admin : Bool) (rec_ : Option (Nat × Graph)), CommandStarts s c q admin rec_ →
    rec_ = none ∨ c.op ∉ queueOps → exec (.unknownCommand c) s = .next (badCommand c 1 s)) ∧
  (∀ (c : Command) (s : State) (q : Queue) (st : Nat), amGet c.queue s.queues = some q → c.queue < 2 ^ 20 → c.doneCtr = 0 →
    q.head + 1 < 2 ^ 64 → q.done + 1 < 2 ^ 64 → c.idx < 2 ^ 64 → st < 2 ^ 32 → meetsTables s q.stat.toNat 64 = false →
    ∀ f, f = goodCommand c ∧ st = 0 ∨ f = badCommand c st ∧ st ≠ 0 →
      let a := q.stat.toNat
      let s' := f s
      rdNat s' a 8 = q.head + 1 ∧ rdNat s' (a + 8) 8 = q.done + 1 ∧
      (st ≠ 0 → rdNat s' (a + 16) 8 = c.idx ∧ rdNat s' (a + 24) 4 = st) ∧ SameMemoryBut a 64 s s' ∧
      (st = 0 → SameMemoryBut a 16 s s') ∧ s' = { s with mem := s'.mem, hist := s'.hist, queues := s'.queues } ∧
      amGet c.queue s'.queues = some { q with
        head := q.head + 1, doomed := false, done := q.done + 1, running := q.running.filter (fun x => x.1.idx != c.idx) })

/-- Each command of a context's queue that starts has the effect its rule gives it, or ends with the status its rule names. Layouts
and orders that the spec leaves open are as log entries 20, 23, 27, 29, 30, 35, 44 and 88 choose. GRAPH.BEGIN, with its record
16-byte aligned, starts a recording and GRAPH.END outside one is BADOP; PHASE.OPEN makes a phase with a root of 2^48 units and
PHASE.CLOSE closes it; BUF.DECLARE sets its handle's range; SIGNAL adds its amount to its counter, recording an overflow; CANCEL
stops the launches, replay, phase or job it names; CRL.BIND, CRL.FREE, CRL.LOAD and CRL.RESTART bind, free, load and restart;
BATCH.UPDATE commits its entry with the next version; LAUNCH with a legal record and descriptor starts its launch, with another
record is BADOP, with another descriptor MALFORMED, and in a recording is kept with its record; GRAPH.REPLAY and BATCH.ITER of a
graph that does not exist are BADOP, and a replay starts on a queue of its own with the graph's commands, the weight held for it
and any cancel that has reached it. -/
def Obligations.QueueCommandsTakeEffect : Prop :=
  (∀ (c : Command) (s s1 : State) (q : Queue) (b : List Byte), CommandStarts s c q false none →
    let read := fun (va : Int) (n : Nat) => engineRead (queueEng c.queue q.ctx) none va n s
    exec (.graphBegin c) s = .next (if 255 < c.p0.toNat ∨ c.p1.toNat % 16 ≠ 0 then badCommand c 1 s else goodCommand c { s with
      queues := amMod c.queue (fun q => { q with recording := some (c.p0.toNat, { cmds := [], crec := c.p1, deps := [], uses := [] }) }) s.queues }) ∧
    exec (.graphEnd c) s = .next (badCommand c 1 s) ∧
    (let w := if c.queue < 2 ^ 20 then 0 else borrowed (2 ^ 48)
     q.phase = none → c.p0.toNat % 16 = 0 → exec (.phaseOpen c) s = .next (goodCommand c { s with
      seq := s.seq + 1
      phases := amPut s.seq
        { ctx := q.ctx, crec := c.p0, root := 2 ^ 48 - w, closed := false, stage := 0,
          cancelled := (match amGet q.ctx s.ctxs with | some x => x.cancelled | none => true) } s.phases
      queues := amMod c.queue (fun q => { q with phase := some s.seq, weight := w, ownPhase := decide (w ≠ 0) }) s.queues })) ∧
    (q.phase ≠ none ∨ c.p0.toNat % 16 ≠ 0 → exec (.phaseOpen c) s = .next (badCommand c 1 s)) ∧
    (q.phase = none → exec (.phaseClose c) s = .next (badCommand c 1 s)) ∧
    (∀ n p, q.phase = some n → amGet n s.phases = some p → exec (.phaseClose c) s = .next (if p.crec = c.p0 then
      goodCommand c (giveBack n q.weight { s with
        phases := amMod n (fun p => { p with closed := true }) s.phases
        queues := amMod c.queue (fun q => { q with phase := none, weight := 0, ownPhase := false }) s.queues })
      else badCommand c 1 s)) ∧
    (4095 < c.p0.toNat ∨ 1 < c.p3.toNat → exec (.bufDeclare c) s = .next (badCommand c 1 s)) ∧
    (∀ x, c.p0.toNat ≤ 4095 → c.p3.toNat ≤ 1 → amGet q.ctx s.ctxs = some x → ∃ u h, exec (.bufDeclare c) s = .next (goodCommand c u) ∧
      u = { s with ctxs := u.ctxs } ∧ amGet q.ctx u.ctxs = some { x with handles := amPut c.p0.toNat h x.handles } ∧
      h.va = c.p1 ∧ h.bytes = c.p2 ∧ h.hostvis = (c.p3 == 1)) ∧
    (∀ pa, q.cancelled = false → c.p2.toNat ≤ 5 → engineCounter (queueEng c.queue q.ctx) c.p0 true s = .ok (s1, pa) →
      exec (.signal c) s = .next (goodCommand c
        (let r := counterAdd [agentQueue c.queue] (agentQueue c.queue) (.die 0) c.p2.toNat pa c.p1.toNat s1
         if r.1.2 then r.2 else recordOverflow q.ctx 0 0 c.p0 c.p1.toNat r.2))) ∧
    (q.cancelled = true → exec (.signal c) s = .next (goodCommand c s)) ∧
    (c.p0.toNat = 0 → exec (.cancel c) s = .next (goodCommand c
      (cancelLaunches (fun l => l.ctx == q.ctx && l.crec == c.p1)
        (doomNext q.ctx (fun qn r n => decide (n.op = 0x20) && recordAt s qn r n == some c.p1) s)))) ∧
    (∀ x, c.p0.toNat = 1 → amGet q.ctx s.ctxs = some x →
      let gs := (x.graphs.filter (fun (g : Nat × Graph) => g.2.crec == c.p1)).map Prod.fst
      exec (.cancel c) s = .next (goodCommand c
        (cancelReplay (fun _ r => r.ctx == q.ctx && r.graph.isSome && r.graphRec == c.p1) (doomIters q.ctx (fun n => gs.any (fun k => n == dw k))
          (doomNext q.ctx (fun _ _ n => (decide (n.op = 0x23) && gs.any (fun k => n.p0 == dw k)) ||
            (decide (n.op = 0x51) && gs.any (fun k => n.p2 == dw k))) s))))) ∧
    (c.p0.toNat = 2 → exec (.cancel c) s = .next (goodCommand c
      ((s.phases.filter (fun p => p.2.ctx == q.ctx && p.2.crec == c.p1)).foldl (fun s p => cancelPhase p.1 s) s))) ∧
    (∀ x, c.p0.toNat = 3 → amGet q.ctx s.ctxs = some x →
      exec (.cancel c) s = .next (goodCommand c (if x.crec = c.p1 then cancelJob q.ctx s else s))) ∧
    (3 < c.p0.toNat → exec (.cancel c) s = .next (badCommand c 1 s)) ∧
    (c.p0.toNat ≤ 8191 → c.p1.toNat ≤ 15 → amGet c.p0.toNat s.crls = none → read c.p3.toNat 544 = .ok (s1, b) →
      exec (.crlBind c) s = .next (if isPow2 (field b 16 4) 1 65536 = true ∧ field b 8 8 % 16 = 0 ∧ field b 20 4 ≤ 64
        then goodCommand c { s1 with crls := amPut c.p0.toNat (crlFrom q.ctx c.p1.toNat b) s1.crls } else badCommand c 1 s1)) ∧
    (∀ x, amGet c.p0.toNat s.crls = some x →
      (x.owner ≠ q.ctx → exec (.crlFree c) s = .next (badCommand c 1 s) ∧ exec (.crlRestart c) s = .next (badCommand c 1 s)) ∧
      (x.owner = q.ctx →
        exec (.crlFree c) s = .next (if x.emit = none then goodCommand c (freeCrl c.p0.toNat s) else s) ∧
        exec (.crlRestart c) s = .next (if c.p1.toNat ≤ 15 ∧ (x.state = 3 ∨ x.state = 4) then
          goodCommand c { s with
            crls := amPut c.p0.toNat { x with state := 1, pc := 0, prog := c.p1.toNat, fcause := 0, tcause := 0, fault := none } s.crls }
          else badCommand c 1 s))) ∧
    (c.p0.toNat ≤ 1 → c.p1.toNat ≤ 15 → c.p3.toNat ≤ 1024 →
      ((∃ x ∈ s.crls, x.1 / 4096 = c.p0.toNat ∧ x.2.prog = c.p1.toNat ∧ x.2.state ≠ 3 ∧ x.2.state ≠ 4) →
        exec (.crlLoad c) s = .next (badCommand c 10 s)) ∧
      ((∀ x ∈ s.crls, x.1 / 4096 = c.p0.toNat → x.2.prog = c.p1.toNat → x.2.state = 3 ∨ x.2.state = 4) →
        read c.p2.toNat (4 * c.p3.toNat) = .ok (s1, b) → exec (.crlLoad c) s = .next (goodCommand c { s1 with
          progs := amPut (c.p0.toNat * 16 + c.p1.toNat) ((chunks 4 b.length b).map (fun x => BitVec.ofNat 32 (bytesNat x))) s1.progs }))) ∧
    (c.p0.toNat ≤ 1 → c.p1.toNat ≤ 4095 → read c.p2.toNat 64 = .ok (s1, b) → exec (.batchUpdate c) s = .next
      (if field b 8 1 ≤ 1 ∧ field b 9 1 = 0 ∧ field b 10 2 ≤ 4095 then goodCommand c (commitBatch c.p0.toNat c.p1.toNat
        { version := (batchAt s1 c.p0.toNat c.p1.toNat).now.version + 1, valid := field b 8 1, ctxn := field b 10 2,
          len := BitVec.ofNat 32 (field b 12 4), kv := dw (field b 16 8), user := b.drop 24 } s1)
       else badCommand c 8 s1)) ∧
    (c.queue < 2 ^ 20 → readLaunch (queueEng c.queue q.ctx) c.p0 s = .ok (s1, b) →
      (launchRecordOk b = false → exec (.launch c) s = .next (badCommand c 1 s1)) ∧
      (launchRecordOk b = true → kernelOk b = false → exec (.launch c) s = .next (badCommand c 8 s1)) ∧
      (launchRecordOk b = true → kernelOk b = true → q.phase = none → ∃ s' l, exec (.launch c) s = .next s' ∧ amGet s1.seq s'.launches = some l ∧
        l.ctx = q.ctx ∧ l.queue = c.queue ∧ l.idx = c.idx ∧ l.lanes = field b 136 2 ∧ l.regs = field b 138 1 ∧ l.teams = field b 139 1 ∧
        l.gridX = field b 24 4 ∧ l.gridY = field b 28 4 ∧ l.gridZ = field b 32 4 ∧ l.args = dw (field b 16 8) ∧
        l.entryPc = dw (field b 8 8 + field b 128 8) ∧ l.placed = 0 ∧ l.finished = 0 ∧ pendingOf s' c = some (.launch s1.seq))) ∧
    ((amGet q.ctx s.ctxs).bind (fun x => amGet c.p0.toNat x.graphs) = none → exec (.graphReplay c) s = .next (badCommand c 1 s)) ∧
    (∀ g ps, c.queue < 2 ^ 20 → (amGet q.ctx s.ctxs).bind (fun x => amGet c.p0.toNat x.graphs) = some g →
      readParams (queueEng c.queue q.ctx) c.p1 s = .ok (s1, ps) →
      (launchWeight q.phase s1 = none → exec (.graphReplay c) s = .next s1) ∧
      (∀ w s2, launchWeight q.phase s1 = some (w, s2) → ∃ s' r, exec (.graphReplay c) s = .next s' ∧
        amGet (amFresh s1.queues (2 ^ 20)) s'.queues = some r ∧ r.script = g.cmds ∧ r.params = ps ∧ r.head = 0 ∧
        r.tail = g.cmds.length ∧ r.parent = some (c.queue, c.idx) ∧ r.links = g.deps ∧ r.weight = w ∧ r.phase = q.phase ∧ r.graphRec = g.crec ∧ r.cancelled = startsCancelled s2 q)) ∧
    ((amGet q.ctx s.ctxs).bind (fun x => amGet c.p2.toNat x.graphs) = none → exec (.batchIter c) s = .next (badCommand c 1 s)) ∧
    (∀ g, (amGet q.ctx s.ctxs).bind (fun x => amGet c.p2.toNat x.graphs) = some g → 1 < c.p0.toNat →
      exec (.batchIter c) s = .next (badCommand c 1 s)) ∧
    (∀ g s2 ps bs, (amGet q.ctx s.ctxs).bind (fun x => amGet c.p2.toNat x.graphs) = some g → c.p0.toNat ≤ 1 →
      (∀ n ∈ g.cmds, ∀ k < 8, bindOf n.2 k = none) →
      let eng := { queueEng c.queue q.ctx with phase := q.phase }
      engineSpots eng none (c.p1.toNat : Int) (2 ^ 18) needStore s = .ok (s1, ps) →
      engineSpots eng none (c.p3.toNat : Int) 512 needStore s1 = .ok (s2, bs) →
      (launchWeight q.phase s2 = none → exec (.batchIter c) s = .next s2) ∧
      ∀ w s3, launchWeight q.phase s2 = some (w, s3) →
      let held := phaseShare q.phase w
      let snap := snapshot s3 c.p0.toNat
      let image := (upFrom 0 4096).flatMap (fun k => (((snap.find? (fun e => e.1 == k)).map Prod.snd).getD .empty).bytes)
      let u := pokeCells { engineOp eng with ord := s3.seq } s3.seq (cellsAt ps image)
        (takeEntry c.queue { s3 with seq := s3.seq + 1 })
      exec (.batchIter c) s =
        .next (iterGoes c s3.seq false q.doomed held (runCommand c (.iter s3.seq false q.doomed held) u)))) ∧
  (∀ (c : Command) (s : State) (q : Queue) (ord : Nat) (asked doomed : Bool) (w : List (Nat × Nat)), pendingOf s c = some (.iter ord asked doomed w) →
    amGet c.queue s.queues = some q →
    (appendsOut s (agentQueue c.queue) ord = true → exec (.batchIter c) s = .next s) ∧
    (appendsOut s (agentQueue c.queue) ord = false → logsOut s (agentQueue c.queue) = true →
      exec (.batchIter c) s = .next (if asked then s else runCommand c (.iter ord true doomed w) (startLogs (agentQueue c.queue) s))) ∧
    (∀ g ps v, appendsOut s (agentQueue c.queue) ord = false → logsOut s (agentQueue c.queue) = false → amGet c.queue s.agentFaults = none →
      (amGet q.ctx s.ctxs).bind (fun x => amGet c.p2.toNat x.graphs) = some g →
      readParams (queueEng c.queue q.ctx) c.p3 s = .ok (v, ps) →
      exec (.batchIter c) s = .next (startReplay c q c.p2.toNat g ps w doomed v)) ∧
    (appendsOut s (agentQueue c.queue) ord = false → logsOut s (agentQueue c.queue) = false →
      (amGet q.ctx s.ctxs).bind (fun x => amGet c.p2.toNat x.graphs) = none →
      exec (.batchIter c) s = .next (completeCommand c 1 none (giveBackAll w s)))) ∧
  (∀ (c : Command) (s : State) (q : Queue) (k : Nat) (g : Graph), CommandStarts s c q false (some (k, g)) →
    (c.op = 0x22 → c.p0 = dw k → exec (.graphEnd c) s = .next (goodCommand c
      (modCtx q.ctx (fun x => { x with graphs := amPut k { g with uses := [] } x.graphs })
        { s with queues := amMod c.queue (fun q => { q with recording := none }) s.queues }))) ∧
    (c.op = 0x7F → g.cmds.length < 4096 → exec (.signal c) s = .next (completeCommand { c with doneCtr := 0 } 0 none
      (takeEntry c.queue { s with
        queues := amMod c.queue (fun q => { q with recording := some (k, { g with cmds := g.cmds ++ [(c, [])], deps := g.deps ++ [[]] }) }) s.queues }))) ∧
    (∀ s1 b, c.op = 0x20 → g.cmds.length < 4096 → readLaunch (queueEng c.queue q.ctx) c.p0 s = .ok (s1, b) → launchFault b = none →
      (∃ r, amGet c.queue s1.queues = some r) →
      ∃ s' r g', exec (.launch c) s = .next s' ∧ amGet c.queue s'.queues = some r ∧ r.recording = some (k, g') ∧
        g'.cmds = g.cmds ++ [(c, b)] ∧ g'.crec = g.crec ∧ s'.launches = s1.launches) ∧
    (c.op ∈ queueOps → c.op ≠ 0x20 → c.op ≠ 0x7F → (c.op = 0x22 → c.p0 ≠ dw k) → ∀ p ∈ allCommands c, p.2 = false → exec p.1 s = .next (badCommand c 3
      { s with queues := amMod c.queue (fun q => { q with recording := none }) s.queues })))

/-- Mapping commands check, write their leaves and wait for their shootdown, which every agent answers once before it is complete.
MEM.MAP ends with BADPERM for a malformed template, BADOP for a bad range, and else maps its pages or ends with the failing
page's status. MEM.UNMAP and MEM.PROTECT, covering no large page in part, read their entry and change the range: of a 64 KiB
page's leaf without a tile the entry becomes 0, or keeps all but R, W, X and SECURE; where large pages are covered in part they
are marked SPLITTING first; a shootdown of the range starts, its counter 0, which the command waits for, then returns the frames
and ends. TILE.EVICT refuses a page that is not LOGGABLE, and ends with PINNED of a pinned tile. FAULT.REPLY acts only on an
outstanding record of its own context. SHOOTDOWN removes what an agent's caches hold of the range, once; SHOOTDOWN_AGENT_ADD
adds 1 to the shootdown's counter for an agent once, when its earlier accesses are made; what a move of pages gives back goes
with the last add. A protection that changes a page's world moves it to a frame of that world, its bytes with it (log entries 42
and 95), or ends NOMEM with no effect. FAULT.REPLY's coding (log entry 34) and log entries 31, 33 and 61 are the model's
choices. -/
def Obligations.MappingsChangeAndAreShotDown : Prop :=
  (∀ (c : Command) (s : State) (q : Queue), CommandStarts s c q false none →
    let va := c.p0.toNat
    let n := c.p1.toNat
    let plain := c.p3.toNat % 2 ^ 16 = 0 ∧ c.p3.toNat < 2 ^ 48
    (templateOk c.p2 = false → exec (.memMap c) s = .next (badCommand c 8 s)) ∧
    (templateOk c.p2 = true → rangeOk va n = false ∨ ¬ plain → exec (.memMap c) s = .next (badCommand c 1 s)) ∧
    (templateOk c.p2 = true → rangeOk va n = true → plain →
      ((∃ a ∈ pagesOf va n, entryType (leafOf s q.ctx a).1 = 2 ∨
          (entryType (leafOf s q.ctx a).1 ≠ 0 ∧ entryBit (leafOf s q.ctx a).1 10 = true)) →
        exec (.memMap c) s = .next (badCommand c 1 s)) ∧
      ((∀ a ∈ pagesOf va n, entryType (leafOf s q.ctx a).1 ≠ 2 ∧
          (entryType (leafOf s q.ctx a).1 = 0 ∨ entryBit (leafOf s q.ctx a).1 10 = false)) →
        exec (.memMap c) s = .next (match mapPages q.ctx c.p2 c.p3.toNat (n / 2 ^ 16) va 0 (n / 2 ^ 16) s with
          | .ok u => goodCommand c u
          | .error st => badCommand c st s))) ∧
    (∀ ins, ins = .memUnmap c ∧ c.op = 0x11 ∨ ins = .memProtect c ∧ c.op = 0x12 ∧ templateOk c.p2 = true →
      (rangeOk va n = false → exec ins s = .next (badCommand c 1 s)) ∧
      (rangeOk va n = true → partLarge s q.ctx va n = [] → exec ins s = .next (changeRange c q.ctx (takeEntry c.queue s)))) ∧
    (∀ ins p ps, ins = .memUnmap c ∧ c.op = 0x11 ∨ ins = .memProtect c ∧ c.op = 0x12 ∧ templateOk c.p2 = true → rangeOk va n = true →
      partLarge s q.ctx va n = p :: ps → exec ins s = .next (runCommand c (.splitting (p :: ps))
        (takeEntry c.queue ((p :: ps).foldl (fun s a => markSplitting q.ctx a s) s)))) ∧
    (let e := (leafOf s q.ctx va).1
     let tile := checkSpan va 1 = none ∧ aperture va = 0 ∧ entryType e ≠ 0 ∧ entryBit e 10 = true
     let pinned := ∃ k t, tileFind s q.ctx va = some (k, t) ∧ t.pins ≠ 0
     (¬ tile → exec (.tileEvict c) s = .next (badCommand c 1 s)) ∧
     (tile → pinned → exec (.tileEvict c) s = .next (badCommand c 4 s)) ∧
     (tile → ¬ pinned → entryType e ≠ 2 → exec (.tileEvict c) s = .next (goodCommand c s)) ∧
     (∀ k s1 s2 t, tile → ¬ pinned → entryType e = 2 → tileFor q.ctx va e s = some (k, s1) → amGet k s1.tiles = some t →
       let leaf := dw (bitsOf e 15 3 * 8 + 4 + k)
       putLeaf q.ctx va false leaf s1 = some s2 → (∃ r, amGet c.queue s2.queues = some r) → ∃ s', exec (.tileEvict c) s = .next s' ∧
         amGet k s'.tiles = some { t with state := .absent, leaf := leaf, entries := [], frame := none, failed := none } ∧
         pendingOf s' c = some (.shoot [s2.seq] q.ctx [bitsOf e 47 16]))) ∧
    (let m := c.p0.toNat % 2 ^ 11 + c.p0.toNat / 2 ^ 11 * 2048
     (amGet m s.merge = none ∨ 2 ^ 12 ≤ c.p0.toNat ∨ (∃ e, amGet m s.merge = some e ∧ (e.ctx ≠ q.ctx ∨ e.recorded = false ∨ e.released ≠ none)) →
        exec (.faultReply c) s = .next (goodCommand c (readHead q.ctx s))) ∧
     (∀ e, amGet m s.merge = some e → c.p0.toNat < 2 ^ 12 → e.ctx = q.ctx → e.recorded = true → e.released = none →
        (c.p2 ≠ 0 → meetsTables s c.p2.toNat (2 ^ 21) = true → exec (.faultReply c) s = .next (badCommand c 1 (readHead q.ctx s))) ∧
        (c.p2 = 0 ∨ meetsTables s c.p2.toNat (2 ^ 21) = false →
        let fails := c.p1.toNat = 1 ∨ c.p1.toNat = 4 ∨ c.p1.toNat = 5
        let maps := entryType c.p1 = 2 ∧ 256 ≤ c.p1.toNat
        let failed := fun u => goodCommand c (readHead q.ctx (replyFails m (if c.p1.toNat = 1 ∨ c.p1.toNat = 5 then c.p1.toNat else 4) u))
        let mapped := fun u => completeCommand c (replyMaps m e c.p1 c.p2.toNat u).2.1 (replyMaps m e c.p1 c.p2.toNat u).2.2
          (takeEntry c.queue (readHead q.ctx (replyMaps m e c.p1 c.p2.toNat u).1))
        (fails → exec (.faultReply c) s = .next (failed s)) ∧
        (maps → exec (.faultReply c) s = .next (mapped s)) ∧
        ∃ u, u = { s with free := u.free } ∧
          (exec (.faultReply c) s = .next (failed u) ∨ exec (.faultReply c) s = .next (mapped u)))))) ∧
  (∀ (c : Command) (ctx a : Nat) (x : Context) (u : State), c.op = 0x11 ∨ c.op = 0x12 → c.p1.toNat = 2 ^ 16 →
    amGet ctx u.ctxs = some x → leafAddr u x.root c.p0.toNat = some (a, false) →
    a + 8 ≤ x.ctrPage * 2 ^ 16 ∨ (x.ctrPage + 1) * 2 ^ 16 ≤ a →
    (∀ t ∈ u.tiles, t.2.ctx ≠ ctx) → entryType (dw (rdNat u a 8)) ≠ 0 → (∃ q, amGet c.queue u.queues = some q) →
    (c.op = 0x12 → wrongWorld u ctx c.p0.toNat (2 ^ 16) (entryBit c.p2 6) = []) →
    let v := changeRange c ctx u
    let e := dw (rdNat u a 8)
    rdNat v a 8 = (if c.op = 0x11 then 0 else bitsOf e 2 0 + bitsOf c.p2 6 3 * 8 + bitsOf e 63 7 * 2 ^ 7) ∧
    (∃ ctr, rdNat v ctr 8 = 0 ∧ x.ctrPage * 2 ^ 16 ≤ ctr ∧ ctr + 8 ≤ (x.ctrPage + 1) * 2 ^ 16 ∧
      (∀ b, (b < a ∨ a + 8 ≤ b) → (b < ctr ∨ ctr + 8 ≤ b) → rdByte v b = rdByte u b) ∧
      amGet u.seq v.shoots = some { ctx := ctx, lo := c.p0.toNat / 2 ^ 16, hi := (c.p0.toNat + 2 ^ 16 - 1) / 2 ^ 16, ctr := ctr,
                                    reached := [], added := [], waits := [], frames := [] }) ∧
    ∃ frames, pendingOf v c = some (.shoot [u.seq] ctx frames)) ∧
  (∀ (c : Command) (ctx : Nat) (u : State), c.op = 0x12 →
    moveWorld ctx (entryBit c.p2 6) (wrongWorld u ctx c.p0.toNat c.p1.toNat (entryBit c.p2 6)) u = none →
    changeRange c ctx u = completeCommand c 9 none u) ∧
  (∀ (a b : Nat) (s : State), amSorted s.mem = true → a ≠ b →
    (∀ x, x < 2 ^ 16 → rdByte (moveFrame a b s) (b * 2 ^ 16 + x) = rdByte s (a * 2 ^ 16 + x)) ∧
    (∀ x, x / 2 ^ 16 ≠ a → x / 2 ^ 16 ≠ b → rdByte (moveFrame a b s) x = rdByte s x)) ∧
  (∀ (c : Command) (s : State) (sds frames : List Nat) (ctx : Nat), pendingOf s c = some (.shoot sds ctx frames) →
    ∀ ins, ins = .memUnmap c ∧ c.op = 0x11 ∨ ins = .memProtect c ∧ c.op = 0x12 ∨ ins = .tileEvict c →
      exec ins s = .next (if shotDown s sds then completeCommand c 0 none (releaseFrames ctx frames (dropShoots sds s)) else s)) ∧
  (∀ (sd agent : Nat) (s : State) (d : Shootdown), amGet sd s.shoots = some d →
    (agent ∈ d.reached ∨ 98 ≤ agent → exec (.shootdown sd agent) s = .next s) ∧
    (agent ∉ d.reached → agent < 98 → ∃ s' w, exec (.shootdown sd agent) s = .next s' ∧
      s' = { s with tlb := s'.tlb, walks := s'.walks, merge := s'.merge, shoots := s'.shoots } ∧
      amGet sd s'.shoots = some { d with reached := agent :: d.reached, waits := w } ∧
      (∀ key es, amGet key s'.tlb = some es → agentHolds agent key = true → ∀ e ∈ es, d.covers e.ctx e.large e.vpn = false) ∧
      (∀ key, agentHolds agent key = false → amGet key s'.tlb = amGet key s.tlb) ∧
      (∀ die es, amGet die s'.walks = some es → die + 96 = agent → ∀ e ∈ es, d.holds e = false) ∧
      (∀ die, die + 96 ≠ agent → amGet die s'.walks = amGet die s.walks)) ∧
    (agent ∉ d.reached ∨ agent ∈ d.added ∨ shootWaits s d agent = true → exec (.shootdownAgentAdd sd agent) s = .next s) ∧
    (agent ∈ d.reached → agent ∉ d.added → shootWaits s d agent = false → rdNat s d.ctr 8 + 1 < 2 ^ 64 →
      ∃ s', exec (.shootdownAgentAdd sd agent) s = .next s' ∧ rdNat s' d.ctr 8 = rdNat s d.ctr 8 + 1 ∧ SameMemoryBut d.ctr 8 s s' ∧
        (d.frames = [] ∨ rdNat s d.ctr 8 + 1 < 98 → amGet sd s'.shoots = some { d with added := agent :: d.added } ∧ s'.ctxs = s.ctxs) ∧
        (d.frames ≠ [] → 98 ≤ rdNat s d.ctr 8 + 1 → amGet sd s'.shoots = none)))

/-- CTX.CREATE and QUEUE.CREATE make what their descriptors say or name what is wrong; the destroys end once the work is over. Where
P1 stands (log entry 20) and which of several failures is reported (log entry 21) are the model's choices. CTX.CREATE: a
malformed descriptor is MALFORMED, a POOLCAP below POOL, a misaligned completion record or a record that would reach a page
table BADOP, a 4,097th context NOFREECTX, too few free clusters NOCORES; otherwise, with memory free, the lowest free number is
a context with the descriptor's flags, ring, records, its pool on each die and as many clusters as it asks for, none of them
another context's. QUEUE.CREATE of a free index of an existing context, with a well-formed descriptor, a priority no higher than
the context's and a ring and record in memory and clear of page tables, makes the empty queue; else it is MALFORMED or BADOP.
CTX.DESTROY marks its context and waits; QUEUE.DESTROY waits; each ends when its condition holds, the context and what is its
own being gone, or the queue; until then nothing changes. An absent context, or one being destroyed, is NOCTX. -/
def Obligations.ContextsAndQueuesComeAndGo : Prop :=
  (∀ (c : Command) (s : State) (q : Queue), CommandStarts s c q true none →
    let b := rdBytes s c.p0.toNat 64
    let n := amFresh s.ctxs 0
    let reach := meetsTables s (field b 40 8) 64 || meetsTables s (field b 48 8) 16 || meetsTables s (field b 24 8) (32 * field b 32 4)
    (2 ^ 48 < c.p0.toNat + 64 → exec (.ctxCreate c) s = .next (badCommand c 1 s)) ∧
    (c.p0.toNat + 64 ≤ 2 ^ 48 → contextOk b = false → exec (.ctxCreate c) s = .next (badCommand c 8 s)) ∧
    (c.p0.toNat + 64 ≤ 2 ^ 48 → contextOk b = true → (field b 60 4 ≠ 0 ∧ field b 60 4 < field b 4 4) ∨ reach = true ∨ c.p1.toNat % 16 ≠ 0 →
      exec (.ctxCreate c) s = .next (badCommand c 1 s)) ∧
    (c.p0.toNat + 64 ≤ 2 ^ 48 → contextOk b = true → field b 60 4 = 0 ∨ field b 4 4 ≤ field b 60 4 → reach = false → c.p1.toNat % 16 = 0 →
      (4096 ≤ n → exec (.ctxCreate c) s = .next (badCommand c 12 s)) ∧
      (n < 4096 → (freeClusters s 0).length < field b 0 1 ∨ (freeClusters s 1).length < field b 1 1 →
        exec (.ctxCreate c) s = .next (badCommand c 2 s)) ∧
      (n < 4096 → field b 0 1 ≤ (freeClusters s 0).length → field b 1 1 ≤ (freeClusters s 1).length →
        (usedFrames s).length + 2 * field b 4 4 + 2 ^ 21 < 2 ^ 22 →
        ∃ s' x, exec (.ctxCreate c) s = .next s' ∧ amGet n s'.ctxs = some x ∧ x.preemptible = decide (field b 2 1 % 2 = 1) ∧
          x.debuggable = decide (field b 2 1 / 2 % 2 = 1) ∧ x.secure = decide (field b 2 1 / 4 % 2 = 1) ∧ x.prio = field b 3 1 ∧
          x.stkBase = dw (field b 8 8) ∧ x.stkSize = field b 16 8 ∧ x.fring = field b 24 8 ∧ x.frlen = field b 32 4 ∧
          x.errRec = field b 40 8 ∧ x.frctl = field b 48 8 ∧ x.frvec = field b 56 2 ∧ x.crec = c.p1 ∧ x.dying = false ∧
          x.poolSize = field b 4 4 ∧ x.pool0.length = field b 4 4 ∧ x.pool1.length = field b 4 4 ∧
          (∀ fr ∈ x.pool0, fr / 2 ^ 23 = 0) ∧ (∀ fr ∈ x.pool1, fr / 2 ^ 23 = 1) ∧
          x.clusters.length = field b 0 1 + field b 1 1 ∧ (∀ k ∈ x.clusters, k ∈ freeClusters s 0 ∨ k ∈ freeClusters s 1))) ∧
    (4095 < c.p0.toNat → exec (.ctxDestroy c) s = .next (badCommand c 1 s)) ∧
    (c.p0.toNat ≤ 4095 → amGet c.p0.toNat s.ctxs = none → exec (.ctxDestroy c) s = .next (badCommand c 6 s)) ∧
    (∀ x, c.p0.toNat ≤ 4095 → amGet c.p0.toNat s.ctxs = some x → x.dying = true → exec (.ctxDestroy c) s = .next (badCommand c 6 s)) ∧
    (∀ x, c.p0.toNat ≤ 4095 → amGet c.p0.toNat s.ctxs = some x → x.dying = false → exec (.ctxDestroy c) s = .next
      (let u := cancelJob c.p0.toNat s
       runCommand c (.context c.p0.toNat) (takeEntry c.queue (modCtx c.p0.toNat (fun x => { x with dying := true })
        { u with phases := u.phases.map (fun p => if p.2.ctx = c.p0.toNat then (p.1, { p.2 with closed := true }) else p) })))) ∧
    (let ctx := field b 0 2
     c.p0.toNat + 64 ≤ 2 ^ 48 → ctx ≤ 4095 →
      (amGet ctx s.ctxs = none → exec (.queueCreate c) s = .next (badCommand c 6 s)) ∧
      (∀ x, amGet ctx s.ctxs = some x → x.dying = true → exec (.queueCreate c) s = .next (badCommand c 6 s)) ∧
      (∀ x, amGet ctx s.ctxs = some x → x.dying = false →
        let fine := field b 2 1 ≤ 63 ∧ field b 3 1 ≤ 3 ∧ isPow2 (field b 4 4) 2 65536 = true ∧ field b 8 8 % 64 = 0 ∧
          field b 16 8 % 64 = 0 ∧ field b 24 40 = 0
        let free := queueMemory (field b 8 8) (field b 4 4) (field b 16 8) = true ∧ amGet (64 * ctx + field b 2 1) s.queues = none ∧ field b 3 1 ≤ x.prio ∧ meetsTables s (field b 16 8) 64 = false ∧
          meetsTables s (field b 8 8) (64 * field b 4 4) = false
        (¬ fine → exec (.queueCreate c) s = .next (badCommand c 8 s)) ∧
        (fine → ¬ free → exec (.queueCreate c) s = .next (badCommand c 1 s)) ∧
        (fine → free → exec (.queueCreate c) s = .next (goodCommand c (clearStatus (field b 16 8) { s with
          queues := amPut (64 * ctx + field b 2 1) (freshQueue (dw (field b 8 8)) (field b 4 4) (dw (field b 16 8)) (field b 3 1) ctx)
            s.queues }))))) ∧
    (c.p0.toNat ≤ 4095 → c.p1.toNat ≤ 63 →
      (amGet c.p0.toNat s.ctxs = none → exec (.queueDestroy c) s = .next (badCommand c 6 s)) ∧
      (∀ x, amGet c.p0.toNat s.ctxs = some x → x.dying = true → exec (.queueDestroy c) s = .next (badCommand c 6 s)) ∧
      (∀ x, amGet c.p0.toNat s.ctxs = some x → x.dying = false → amGet (64 * c.p0.toNat + c.p1.toNat) s.queues = none →
        exec (.queueDestroy c) s = .next (badCommand c 1 s)) ∧
      (∀ x r, amGet c.p0.toNat s.ctxs = some x → x.dying = false → amGet (64 * c.p0.toNat + c.p1.toNat) s.queues = some r →
        exec (.queueDestroy c) s = .next (runCommand c (.queue (64 * c.p0.toNat + c.p1.toNat)) (takeEntry c.queue s))))) ∧
  (∀ (c : Command) (s : State) (n : Nat),
    (pendingOf s c = some (.context n) →
      (contextIdle s n = false → exec (.ctxDestroy c) s = .next s) ∧
      (contextIdle s n = true → (∀ t ∈ s.tiles, t.2.ctx ≠ n) → (∀ x ∈ s.crls, x.2.owner ≠ n) → (∀ p ∈ s.phases, p.2.ctx ≠ n) →
        exec (.ctxDestroy c) s = .next (completeCommand c 0 none (removeContext n s)))) ∧
    (∀ q, pendingOf s c = some (.queue n) → amGet n s.queues = some q → exec (.queueDestroy c) s = .next
      (if q.running = [] ∧ q.tail ≤ q.head then completeCommand c 0 none { s with
        queues := amDel n s.queues
        phases := s.phases.map (fun p => if q.phase = some p.1 then (p.1, { p.2 with closed := true }) else p) } else s))) ∧
  (∀ (n : Nat) (s : State), amGet n (removeContext n s).ctxs = none ∧ (∀ q ∈ (removeContext n s).queues, q.2.ctx ≠ n) ∧
    (∀ e ∈ (removeContext n s).merge, e.2.ctx ≠ n) ∧ (∀ e ∈ (removeContext n s).tlb, ∀ x ∈ e.2, x.ctx ≠ n) ∧
    (∀ e ∈ (removeContext n s).walks, ∀ x ∈ e.2, x.ctx ≠ n) ∧ (∀ e ∈ (removeContext n s).slices, e.2 ≠ n) ∧ SameMemory s (removeContext n s))

/-- Each microinstruction changes only what its rule names of its context, and goes on; HALT, a fault and a cancel rest the context.
CMOVH, CORL, FADD, FSUB, FMUL, FDIV and CGET write one register and change no other. CSCALE, CPEN, CEXP, CNORM and CPSUM change
the live VALs, position by position, as the rule's formulas say (CEXP's m is no less than any live value that is no NaN and the
first such); CTOPK puts the live candidates into the order of R346 and CTOPP keeps the shortest prefix whose sum reaches the
fraction; other positions, IDX and registers stay. BR goes where its condition says. Each then goes on at the next word, nothing
else of the machine changing; a context to be halted by a cancel HALTs there. HALT halts at its PC; ILLEGAL-OP, PC-RANGE and
POSITION-RANGE fault the context at its PC without other effect, its weight returned. -/
def Obligations.MicroinstructionsComputeRegistersAndCandidates : Prop :=
  (∀ (s : State) (n : Nat) (c : Crl), CrlCurrent s n c → c.halting = false →
    let on := fun (ins : Instr) (c' : Crl) => MakesCrl ins s n c'
    let nan := fun (e : Nat) => isNan (c.value e)
    (∀ ins d f, CarillonArith ins d f → ∃ c', on ins c' ∧ c' = { c with pc := c.pc + 1, c := c'.c } ∧
      ∀ r : BitVec 4, c'.reg r.toNat = if r = d then f (fun k => c.reg k.toNat) else c.reg r.toNat) ∧
    (∀ (x : BitVec 1) (a d : BitVec 4), (c.reg a.toNat).toNat < 256 → ∃ c', on (.cget x a d) c' ∧
      c' = { c with pc := c.pc + 1, c := c'.c } ∧ ∀ r, c'.reg r = if r = d.toNat then
        (if x = 0 then c.value (c.reg a.toNat).toNat else c.index (c.reg a.toNat).toNat) else c.reg r) ∧
    (∀ (x : BitVec 10) (a : BitVec 4), on (.br x 0 a) { c with pc := x.toNat } ∧
      on (.br x 1 a) { c with pc := if c.reg a.toNat = 0 then x.toNat else c.pc + 1 } ∧
      on (.br x 2 a) { c with pc := if c.reg a.toNat ≠ 0 then x.toNat else c.pc + 1 }) ∧
    (∀ (a : BitVec 4), ∃ c', on (.cscale a) c' ∧ c' = { c with pc := c.pc + 1, val := c'.val } ∧
      ∀ e, c'.value e = if e < c.ccnt then (fMul (c.value e) (c.reg a.toNat)).w else c.value e) ∧
    (∀ (x : BitVec 10) (a : BitVec 4), x.toNat ≤ 64 → ∃ c', on (.cpen x a) c' ∧ c' = { c with pc := c.pc + 1, val := c'.val } ∧
      let w := if x.toNat = 0 then c.hist.length else min x.toNat c.hist.length
      ∀ e, c'.value e = if e < c.ccnt ∧ c.index e ∈ c.hist.drop (c.hist.length - w)
        then (fSub (c.value e) (c.reg a.toNat)).w else c.value e) ∧
    (∀ (d : BitVec 4), ∃ c' m, on (.cexp d) c' ∧ c' = { c with pc := c.pc + 1, val := c'.val, c := c'.c } ∧
      (∀ r, c'.reg r = if r = d.toNat then m else c.reg r) ∧
      (∀ e, c'.value e = if e < c.ccnt then (fnu 3 (fMul (fSub (c.value e) m).w 0x3FB8AA3B).w).w else c.value e) ∧
      ((∀ e, e < c.ccnt → nan e = true) → m = 0xFF800000) ∧
      (∀ e, e < c.ccnt → nan e = false → fLt m (c.value e) = false ∧
        ∃ k, k < c.ccnt ∧ c.value k = m ∧ nan k = false ∧ ∀ j, j < k → nan j = false → fLt (c.value j) m = true)) ∧
    (∀ (d : BitVec 4), ∃ c', on (.cnorm d) c' ∧ c' = { c with pc := c.pc + 1, val := c'.val, c := c'.c } ∧
      (∀ r, c'.reg r = if r = d.toNat then (if c.ccnt = 0 then 0 else c.sumAt (c.ccnt - 1)) else c.reg r) ∧
      ∀ e, c'.value e = if e < c.ccnt then (fDiv (c.value e) (c.sumAt (c.ccnt - 1))).w else c.value e) ∧
    (∃ c', on .cpsum c' ∧ c' = { c with pc := c.pc + 1, val := c'.val } ∧ (0 < c.ccnt → c'.value 0 = c.value 0) ∧
      (∀ e, e + 1 < c.ccnt → c'.value (e + 1) = (fAdd (c'.value e) (c.value (e + 1))).w) ∧
      ∀ e, c.ccnt ≤ e → c'.value e = c.value e) ∧
    (∀ (x : BitVec 10), 1 ≤ x.toNat → x.toNat ≤ 256 → ∃ c', on (.ctopk x) c' ∧
      c' = { c with pc := c.pc + 1, val := c'.val, idx := c'.idx, ccnt := min c.ccnt x.toNat } ∧
      let old := (upFrom 0 c.ccnt).map (fun e => (c.value e, c.index e))
      let new := (upFrom 0 c.ccnt).map (fun e => (c'.value e, c'.index e))
      new.Perm old ∧ new.Pairwise (fun p q => candLe p q = true) ∧
      ∀ e, c.ccnt ≤ e → c'.value e = c.value e ∧ c'.index e = c.index e) ∧
    (∀ (a : BitVec 4), ∃ k, on (.ctopp a) { c with pc := c.pc + 1, ccnt := k } ∧
      let p := c.reg a.toNat
      let reaches := fun (m : Nat) => fLe (fMul p (c.sumAt (c.ccnt - 1))).w (c.sumAt (m - 1)) = true
      (c.ccnt = 0 ∨ isNan p = true → k = c.ccnt) ∧
      (c.ccnt ≠ 0 → isNan p = false → 1 ≤ k ∧ k ≤ c.ccnt ∧ (reaches k ∨ k = c.ccnt) ∧ ∀ m, 1 ≤ m → m < k → ¬ reaches m))) ∧
  (∀ (s : State) (n : Nat) (c : Crl), CrlCurrent s n c → c.halting = true → ∀ ins d f, CarillonArith ins d f →
    ∃ s', ∃ c' : Crl, exec ins s = .next s' ∧ CrlRested s s' n c { c' with state := 3 } ∧ c' = { c with pc := c.pc + 1, c := c'.c }) ∧
  (∀ (s : State) (n : Nat) (c : Crl), CrlCurrent s n c →
    (∃ s', exec .halt s = .next s' ∧ CrlRested s s' n c { c with state := 3 } ∧ s'.merge = s.merge) ∧
    (∀ ins k, MicroFault c ins k → ∃ s', exec ins s = .next s' ∧
      CrlRested s s' n c { c with state := 4, fcause := k, tcause := 0, fault := none }))

/-- NSET writes one word of a stream; RNGU, CDRAW and CACC take one draw each, and choose and accept as their rules say. NSET writes
the part of its stream that X names from its register and no other part of any stream. RNGU writes the uniform of R210 from the
block at its stream's key, index and POS; each of RNGU, CDRAW and CACC advances POS of its stream by 1 and no other. CDRAW
writes 0xFFFFFFFF where the candidates cannot be weighed, else the index at the lowest position whose running sum exceeds the
uniform times the total, or, if none, at the highest position of positive value. CACC accepts by R349's comparison with the
value p of the lowest position that holds the token, writes 1 or 0, and on a rejection makes that value +0. No other register or
candidate changes. -/
def Obligations.CarillonStreamsDraw : Prop :=
  ∀ (s : State) (n : Nat) (c : Crl), CrlCurrent s n c → c.halting = false →
    let on := fun (ins : Instr) (c' : Crl) => MakesCrl ins s n c'
    let key := fun (c : Crl) (k : Nat) => smGet 0 k c.key
    let ind := fun (c : Crl) (k : Nat) => smGet 0 k c.x
    let pos := fun (c : Crl) (k : Nat) => smGet 0 k c.pos
    let uniform := fun (k : Nat) => uniformOf (peal (key c k) (ind c k) (pos c k)).w0
    let drew := fun (c' : Crl) (k : Nat) => ∀ j, pos c' j = if j = k then pos c j + 1 else pos c j
    (∀ (x k : BitVec 3) (a : BitVec 4), ∃ c', on (.nset x k a) c' ∧
      c' = { c with pc := c.pc + 1, key := c'.key, x := c'.x, pos := c'.pos } ∧
      (∀ j, j ≠ k.toNat → key c' j = key c j ∧ ind c' j = ind c j ∧ pos c' j = pos c j) ∧
      (∀ part, part < 4 → (key c' k.toNat).extractLsb' (32 * part) 32 =
        if part = x.toNat then c.reg a.toNat else (key c k.toNat).extractLsb' (32 * part) 32) ∧
      (∀ part, part < 2 → (ind c' k.toNat).extractLsb' (32 * part) 32 =
        if part + 4 = x.toNat then c.reg a.toNat else (ind c k.toNat).extractLsb' (32 * part) 32) ∧
      (∀ part, part < 2 → (pos c' k.toNat).extractLsb' (32 * part) 32 =
        if part + 6 = x.toNat then c.reg a.toNat else (pos c k.toNat).extractLsb' (32 * part) 32)) ∧
    (∀ (k : BitVec 3) (d : BitVec 4), ∃ c', on (.rngu k d) c' ∧ c' = { c with pc := c.pc + 1, c := c'.c, pos := c'.pos } ∧
      drew c' k.toNat ∧ ∀ r, c'.reg r = if r = d.toNat then uniform k.toNat else c.reg r) ∧
    (∀ (k : BitVec 3) (d : BitVec 4), ∃ c', on (.cdraw k d) c' ∧ c' = { c with pc := c.pc + 1, c := c'.c, pos := c'.pos } ∧
      drew c' k.toNat ∧ (∀ r, r ≠ d.toNat → c'.reg r = c.reg r) ∧
      (c.undrawable → c'.reg d.toNat = 0xFFFFFFFF) ∧
      (¬ c.undrawable →
        let under := fun (e : Nat) => fLt (fMul (uniform k.toNat) c.total).w (c.sumAt e)
        (∀ e, e < c.ccnt → under e = true → (∀ j, j < e → under j = false) → c'.reg d.toNat = c.index e) ∧
        ((∀ e, e < c.ccnt → under e = false) → ∀ e, e < c.ccnt → fLt 0 (c.value e) = true →
          (∀ j, e < j → j < c.ccnt → fLt 0 (c.value j) = false) → c'.reg d.toNat = c.index e))) ∧
    (∀ (k : BitVec 3) (b a d : BitVec 4), ∃ c', on (.cacc k b a d) c' ∧
      c' = { c with pc := c.pc + 1, c := c'.c, pos := c'.pos, val := c'.val } ∧ drew c' k.toNat ∧
      (∀ r, r ≠ d.toNat → c'.reg r = c.reg r) ∧
      let q := c.reg b.toNat
      let accepts := fun (p : Word) => if isNan q = true ∨ fLe q 0 = true ∨ q = 0x7F800000 then fLt 0 p
        else exactBelow (uniform k.toNat) q p
      ((∀ e, e < c.ccnt → c.index e ≠ c.reg a.toNat) →
        c'.reg d.toNat = (if accepts 0 = true then 1 else 0) ∧ ∀ e, c'.value e = c.value e) ∧
      (∀ e, e < c.ccnt → c.index e = c.reg a.toNat → (∀ j, j < e → c.index j ≠ c.reg a.toNat) →
        c'.reg d.toNat = (if accepts (c.value e) = true then 1 else 0) ∧
        ∀ j, c'.value j = if j = e ∧ accepts (c.value e) = false then 0 else c.value j))

/-- WAITC and CARILLON_WAKE wait for the doorbell, EMIT writes its record and counts it, posts reach their context, and contexts
suspend. CRL.POST's PERMISSION with HADDR and HINFO 0 is the model's choice (log entry 38). WAITC with its doorbell translated:
T rises by X and the context waits past the WAITC; a failure faults it without effect. CARILLON_WAKE wakes a waiting context
only at its target with every delivery applied. EMIT with its record in one piece of memory writes token, CTXN, 0 and SEQ there
and no other byte but the counter, which rises by 1; HIST, SEQ and CCNT change as R351 says. CRL.POST with a legal descriptor
and block carries the candidates memory holds and the set-B tag; CANDIDATE_DELIVERY changes nothing while the context cannot
take it, then writes them, CCNT, and the counter's add; a selection's likewise from position 0. CARILLON_SUSPEND and
CARILLON_RESUME change only STATE and what a wait leaves. -/
def Obligations.CarillonContextsWaitEmitAndTakeCandidates : Prop :=
  (∀ (x : BitVec 10) (s s1 : State) (n : Nat) (c : Crl), CrlCurrent s n c →
    (∀ k, c.fault = some k → ∃ s', exec (.waitc x) s = .next s' ∧
      CrlRested s s' n c { c with state := 4, fcause := 5, tcause := k, fault := none }) ∧
    (∀ k a, c.fault = none → engineCounter (crlEng n c 0) c.dbell false s = .error (s1, .fault k a) →
      amGet n s1.crls = some c → ∃ s', exec (.waitc x) s = .next s' ∧
      CrlRested s1 s' n c { c with state := 4, fcause := 5, tcause := k, fault := none }) ∧
    (∀ pa, c.fault = none → c.halting = false → engineCounter (crlEng n c 0) c.dbell false s = .ok (s1, pa) →
      ∃ s', exec (.waitc x) s = .next s' ∧ SameMemory s1 s' ∧
        CrlRested s1 s' n c { c with state := 2, t := (c.t + x.toNat) % 2 ^ 64, tOld := c.t, pc := c.pc + 1 })) ∧
  (∀ (s s1 : State) (n : Nat) (c : Crl), amGet n s.crls = some c →
    (c.state ≠ 2 ∨ c.blocked = true → exec (.carillonWake n) s = .next s) ∧
    (∀ pa, c.state = 2 → c.blocked = false → c.fault = none → engineCounter (crlEng n c 0) c.dbell false s = .ok (s1, pa) →
      let waits := rdNat s1 pa 8 < c.t ∨ ∃ o ∈ s.ops, (deliveryReached s n o.2).isSome = true
      (waits → exec (.carillonWake n) s = .next s) ∧
      (¬ waits → ∃ s', exec (.carillonWake n) s = .next s' ∧ SameMemory s1 s' ∧ s'.ops = s1.ops ∧
        amGet n s'.crls = some { c with state := 1 } ∧ ∀ k, k ≠ n → amGet k s'.crls = amGet k s1.crls))) ∧
  (∀ (sc : BitVec 3) (l : BitVec 1) (a : BitVec 4) (s s1 s2 : State) (n p q : Nat) (leaf : DWord) (c : Crl), CrlCurrent s n c →
    c.halting = false → 3 ≤ sc.toNat → sc.toNat ≤ 5 → c.emit = none → c.fault = none → c.seq < 2 ^ 64 → s1.tiles = [] →
    (∀ o ∈ s1.ops, (∀ k b, o.2.body ≠ .append k b) ∧ (∀ es, o.2.body ≠ .adds es) ∧ ∀ rows, o.2.body ≠ .drainAdd rows) →
    engineSpots (crlEng n c s.seq) none ((c.outBase.toNat + 16 * (c.seq % c.outLen) : Nat) : Int) 16 needStore s =
      .ok (s1, [(.at p leaf, 16)]) →
    let done := { c with pc := c.pc + 1, hist := (if c.hist.length < 64 then c.hist else c.hist.drop 1) ++ [c.reg a.toNat],
                         seq := (c.seq + 1) % 2 ^ 64, ccnt := if l = 1 then 0 else c.ccnt }
    let record := fun (s' : State) => rdNat s' p 4 = (c.reg a.toNat).toNat ∧ rdNat s' (p + 4) 2 = n % 4096 ∧
      rdNat s' (p + 6) 2 = 0 ∧ rdNat s' (p + 8) 8 = c.seq
    (c.tokCtr = 0 → amGet n s1.crls = some c → ∃ s', exec (.emit sc l a) s = .next s' ∧ record s' ∧ SameMemoryBut p 16 s1 s' ∧
      amGet n s'.crls = some done) ∧
    (c.tokCtr ≠ 0 → engineCounter (crlEng n c s.seq) c.tokCtr true s1 = .ok (s2, q) → amGet n s2.crls = some c → s2.tiles = [] →
      (∀ o ∈ s2.ops, (∀ k b, o.2.body ≠ .append k b) ∧ (∀ es, o.2.body ≠ .adds es) ∧ ∀ rows, o.2.body ≠ .drainAdd rows) → p + 16 ≤ q ∨ q + 8 ≤ p → rdNat s2 q 8 + 1 < 2 ^ 64 →
      ∃ s', exec (.emit sc l a) s = .next s' ∧ record s' ∧ rdNat s' q 8 = rdNat s2 q 8 + 1 ∧
        (∀ x, x < p ∨ p + 16 ≤ x → x < q ∨ q + 8 ≤ x → rdByte s' x = rdByte s2 x) ∧ amGet n s'.crls = some done)) ∧
  (∀ (a b c scope : BitVec 5) (s : State) (i p : Nat) (f : Frag) (t : Team) (u : UnitSt) (x : Crl), Ready s i f t →
    amGet t.unit s.units = some u →
    let va := sGet t f.handler a.toNat
    let desc := sGet t f.handler b.toNat
    let n := bitsOf desc 28 20
    let legal := n ≠ 0 ∧ bitsOf desc 19 12 + n ≤ 256 ∧ bitsOf desc 63 29 = 0
    let crl := dieOf t.gcore * 4096 + bitsOf desc 11 0
    (¬ legal → exec (.crlPost a b c scope) s = .next (stopPass i f false s (.trap 0x01 0 (dw f.iword.toNat)))) ∧
    (legal → checkSpan va.toNat (8 * n) = none → aperture va.toNat = 1 → scratchSpot u va.toNat (8 * n) = some p →
      (va.toNat % 8 ≠ 0 → exec (.crlPost a b c scope) s = .next (stopPass i f false s (.trap 0x0D va 0))) ∧
      (va.toNat % 8 = 0 → (∀ x, amGet crl s.crls = some x → x.owner ≠ u.ctx) →
        exec (.crlPost a b c scope) s = .next (stopPass i f false s (.trap 0x11 0 0))) ∧
      (va.toNat % 8 = 0 → amGet crl s.crls = some x → x.owner = u.ctx → accessHeld s f.team = false →
        (s.ops.filter (fun o => decide (o.2.gcore = t.gcore) && match o.2.body with | .post .. => true | _ => false)).length < 2 →
        NoForeign s f.team [(p, 8 * n)] → ∀ s1 pa, (c = 0 ∧ s1 = s ∧ pa = none ∨
          c ≠ 0 ∧ NoForeign s1 f.team [(p, 8 * n)] ∧ current s1 = some (i, f, t) ∧ accessHeld s1 f.team = false ∧ s1.ops = s.ops ∧
            ∃ k, counterAccess i t (sGet t f.handler c.toNat) needCtrAdd s = .ok (s1, k) ∧ pa = some k) →
        ∃ s', exec (.crlPost a b c scope) s = .next s' ∧ SameMemory s1 s' ∧
          Issued s1 s' f.team f.setB (.post crl (bitsOf desc 19 12) ((upFrom 0 n).map (fun e =>
            (BitVec.ofNat 32 (rdNat s1 (p + 8 * e) 4), BitVec.ofNat 32 (rdNat s1 (p + 8 * e + 4) 4)))) pa
            (sGet t f.handler c.toNat) scope.toNat none)))) ∧
  (∀ (op : Nat) (s : State) (o : Op) (n first k scope : Nat) (es : List (Word × Word)) (ctr : Option Nat) (va : DWord) (c : Crl),
    amGet op s.ops = some o → o.body = .post n first es ctr va scope (some k) → amGet n s.crls = some c → c.owner = o.ctx →
    (deliverable s n k = false → exec (.candidateDelivery op) s = .next s) ∧
    (deliverable s n k = true → ∃ s' c', exec (.candidateDelivery op) s = .next s' ∧ amGet op s'.ops = none ∧
      amGet n s'.crls = some c' ∧ c' = { c with val := c'.val, idx := c'.idx, ccnt := max c.ccnt (first + es.length),
                                                weight := c'.weight } ∧
      (∀ e, c'.value e = if first ≤ e ∧ e < first + es.length then (nth (0, 0) es (e - first)).1 else c.value e) ∧
      (∀ e, c'.index e = if first ≤ e ∧ e < first + es.length then (nth (0, 0) es (e - first)).2 else c.index e) ∧
      (∀ j, j ≠ n → amGet j s'.crls = amGet j s.crls) ∧
      (ctr = none → SameMemory s s') ∧
      (∀ pa, ctr = some pa → rdNat s pa 8 + 1 < 2 ^ 64 → rdNat s' pa 8 = rdNat s pa 8 + 1 ∧ SameMemoryBut pa 8 s s'))) ∧
  (∀ (op : Nat) (s : State) (o : Op) (x : Selection) (k : Nat) (c : Crl), amGet op s.ops = some o → o.body = .select x →
    (x.stage ≠ 2 → exec (.candidateDelivery op) s = .next s) ∧
    (∀ n, x.stage = 2 → x.reached = some (k, n) → amGet n s.crls = some c → c.owner = o.ctx → deliverable s n k = true →
      ∃ s' c' o', exec (.candidateDelivery op) s = .next s' ∧ SameMemory s s' ∧ amGet op s'.ops = some o' ∧
        o'.body = .select { x with stage := 3, entries := [] } ∧ amGet n s'.crls = some c' ∧
        c' = { c with val := c'.val, idx := c'.idx, ccnt := x.entries.length, weight := c'.weight } ∧
        (∀ e, c'.value e = if e < x.entries.length then (nth 0 (x.entries.map SelEntry.key) e) else c.value e) ∧
        (∀ e, c'.index e = if e < x.entries.length then BitVec.ofNat 32 (nth 0 (x.entries.map SelEntry.index) e) else c.index e))) ∧
  (∀ (n : Nat) (s : State) (c : Crl), amGet n s.crls = some c →
    (c.state = 5 ∨ c.emit ≠ none → exec (.carillonSuspend n) s = .next s) ∧
    (c.state ≠ 5 → c.emit = none → ∃ s', exec (.carillonSuspend n) s = .next s' ∧
      s' = { s with crls := amPut n { c with state := 5, prior := c.state, blocked := false, fault := none } s.crls,
                    merge := s'.merge } ∧ ∀ e ∈ s'.merge, Waiter.carillon n ∉ e.2.waiters) ∧
    exec (.carillonResume n) s = .next
      (if c.state = 5 then { s with crls := amPut n { c with state := c.prior } s.crls } else s))

/-- Units are placed whole where there is room, and the ends of units, phases and cancelled levels are counted in their records.
Registers that placement gives no value are 0 (log entry 3); log entries 19, 24, 36, 59 and 74 are the model's choices too. An
add to FIN or CAN of a record raises that counter and changes no other byte. UNIT_PLACEMENT changes nothing while the launch is
not ready or nothing fits; else the next unit in ravel order is placed on a cluster with room, each team as R105 and R371 say,
and no byte below the scratchpads changes; of a cancelled launch it counts the next member not placed, 1 to CAN and then 1 to
FIN; a co-resident launch that does not fit places nothing and ends as NOCORES. UNIT_FINISH waits until the unit is over, counts
it, and removes it. PHASE_END makes the record's and the job's adds in turn once it is closed and all weight is home.
COLOPHON_COUNTER_ADD writes the next record whole, then, once no log has still to take a part of it, counts it. SYS.CANCEL stops
the launches of its level, or of the next lower one that exists; what is finished stays so. -/
def Obligations.UnitsArePlacedAndLevelsEnd : Prop :=
  (∀ (g : Eng) (who n pa : Nat) (agents : List Nat) (rec_ : DWord) (can : Bool) (s s1 : State), rec_ ≠ 0 →
    amGet who s.agentFaults = none → engineCounter g (if can then rec_ + 8 else rec_) true s = .ok (s1, pa) →
    rdNat s1 pa 8 + n < 2 ^ 64 → ∃ s', finAdd g who agents rec_ can n s = .ok (s', ()) ∧ rdNat s' pa 8 = rdNat s1 pa 8 + n ∧
      SameMemoryBut pa 8 s1 s' ∧ ∃ k r, amGet k s'.rels = some r ∧ r.scope = 5 ∧ r.counter = some (pa, rdNat s1 pa 8 + n) ∧
        ∀ w ∈ s'.hist, w.writer ∈ agents → k ∈ w.rel) ∧
  (∀ (k : Nat) (s : State) (l : Launch) (x : Context), amGet k s.launches = some l → amGet l.ctx s.ctxs = some x →
    (placeReady s l = false → exec (.unitPlacement k) s = .next s) ∧
    (∀ s1, placeReady s l = true → l.cancelled = true →
      let g := controlEng (waitLaunch k) (agentLaunch k) l.ctx
      (l.canned ≤ l.placed → finAdd g (waitLaunch k) [] l.crec true 1 s = .ok (s1, ()) →
        exec (.unitPlacement k) s = .next { s1 with launches := amMod k (fun l => { l with canned := l.placed + 1 }) s1.launches }) ∧
      (l.placed < l.canned → finAdd g (waitLaunch k) [agentLaunch k] l.crec false 1 s = .ok (s1, ()) →
        exec (.unitPlacement k) s = .next { s1 with
          launches := amMod k (fun l => { l with placed := l.placed + 1, finished := l.finished + 1 }) s1.launches })) ∧
    (placeReady s l = true → l.cancelled = false → l.coop = true → l.placed = 0 →
      (∀ s1, placeAllUnits k l.units s = some s1 → exec (.unitPlacement k) s = .next s1) ∧
      (placeAllUnits k l.units s = none → ∃ s', exec (.unitPlacement k) s = .next s' ∧ SameMemory s s' ∧ s'.units = s.units ∧
        s'.teams = s.teams ∧ s'.frags = s.frags ∧
        ∀ q c y, amGet l.queue s.queues = some q → q.running = [(c, y)] → c.idx = l.idx → c.queue = l.queue →
          pendingOf s' c = some (.status 2 none) ∧ amGet k s'.launches = none)) ∧
    (placeReady s l = true → l.cancelled = false → l.coop = false → InOrder s →
      let gaps := gapStarts x.stkBase.toNat x.stkSize l.stackBytes x.stkUsed
      ((∀ cl ∈ x.clusters, clusterFits s l cl = false) ∨ gaps = [] → exec (.unitPlacement k) s = .next s) ∧
      (∀ cl0, cl0 ∈ x.clusters → clusterFits s l cl0 = true → gaps ≠ [] →
        ∃ s' base cl unit u, exec (.unitPlacement k) s = .next s' ∧ base ∈ gaps ∧ cl ∈ x.clusters ∧ clusterFits s l cl = true ∧
          amGet unit s'.units = some u ∧ s.seq ≤ unit ∧ u.ctx = l.ctx ∧ u.launch = k ∧ u.cluster = cl ∧ u.ravel = l.placed ∧
          u.x + l.gridX * (u.y + l.gridY * u.z) = l.placed ∧ (0 < l.gridX → u.x < l.gridX) ∧ (0 < l.gridY → u.y < l.gridY) ∧
          u.she = l.she ∧ u.args = l.args ∧ u.cancelled = false ∧ u.teams.length = l.teams ∧
          (∀ n, n < l.teams → TeamPlaced s s' l unit cl base n (nth 0 u.teams n)) ∧
          (∃ l', amGet k s'.launches = some l' ∧ l' = { l with placed := l.placed + 1, weight := l'.weight }) ∧
          (∀ a, a < 2 ^ 48 → rdByte s' a = rdByte s a)))) ∧
  (∀ (unit : Nat) (s s1 : State) (u : UnitSt) (l : Launch), amGet unit s.units = some u → amGet u.launch s.launches = some l →
    let g := controlEng (waitUnit unit) (agentLaunch u.launch) u.ctx
    (unitOver s unit u = false → exec (.unitFinish unit) s = .next s) ∧
    (unitOver s unit u = true → u.cancelled = true → u.stage = 0 → finAdd g (waitUnit unit) [] l.crec true 1 s = .ok (s1, ()) →
      exec (.unitFinish unit) s = .next (modUnit unit (fun u => { u with stage := 1 }) s1)) ∧
    (unitOver s unit u = true → u.cancelled = false ∨ u.stage ≠ 0 → l.crec ≠ 0 → amGet u.launch s1.launches = some l →
      finAdd g (waitUnit unit) (agentUnit unit :: agentLaunch u.launch :: u.teams.flatMap teamAgents) l.crec false 1 s = .ok (s1, ()) →
      ∃ s', exec (.unitFinish unit) s = .next s' ∧ SameMemory s1 s' ∧ amGet unit s'.units = none ∧
        (∀ k, k ≠ unit → amGet k s'.units = amGet k s1.units) ∧ (∀ e ∈ s'.teams, e.2.unit ≠ unit) ∧
        amGet u.launch s'.launches = some { l with finished := l.finished + 1 }) ∧
    (unitOver s unit u = true → u.cancelled = false ∨ u.stage ≠ 0 → l.crec = 0 →
      ∃ s', exec (.unitFinish unit) s = .next s' ∧ SameMemory s s' ∧ amGet unit s'.units = none ∧
        (∀ k, k ≠ unit → amGet k s'.units = amGet k s.units) ∧ (∀ e ∈ s'.teams, e.2.unit ≠ unit) ∧
        amGet u.launch s'.launches = some { l with finished := l.finished + 1 })) ∧
  (∀ (ph : Nat) (s s1 : State) (p : Phase), amGet ph s.phases = some p →
    let g := controlEng (waitPhase ph) (agentPhase ph) p.ctx
    let job := match amGet p.ctx s.ctxs with | some x => x.crec | none => 0
    (p.closed = false ∨ p.root ≠ 2 ^ 48 → exec (.phaseEnd ph) s = .next s) ∧
    (p.root = 2 ^ 48 → p.closed = true → p.stage < 4 →
      let stage := if p.cancelled = false ∧ p.stage % 2 = 0 then p.stage + 1 else p.stage
      finAdd g (waitPhase ph) (if stage % 2 = 0 then [] else [agentPhase ph]) (if stage < 2 then p.crec else job)
          (decide (stage % 2 = 0)) 1 s = .ok (s1, ()) →
        exec (.phaseEnd ph) s = .next { s1 with
          phases := if stage = 3 then amDel ph s1.phases else amPut ph { p with stage := stage + 1 } s1.phases })) ∧
  (∀ (k pa ca : Nat) (leaf : DWord) (s s1 s2 : State) (l : Launch) (r : List Byte) (rest : List (List Byte)),
    amGet k s.launches = some l →
    (l.clrPend = [] → exec (.colophonCounterAdd k) s = .next s) ∧
    (let die := field r 42 2 % 2 ^ 11 / 768
     let who := 2 ^ 43 + k
     let g : Eng := { who := .agent who, agent := agentTrace die, ctx := l.ctx, die := die, core := none, ord := who, phase := l.phase }
     l.clrPend = r :: rest → r.length = 64 →
      let gone := fun (s' : State) => amGet k s'.launches =
        (if rest = [] ∧ launchGone s2 k l = true then none else some { l with clrPend := rest, clrOut := false })
      (l.clrOut = false →
        engineSpots g none ((l.clrBase.toNat + 64 * (field r 48 8 % l.clrLen) : Nat) : Int) 64 needStore s = .ok (s1, [(.at pa leaf, 64)]) →
        engineCounter g l.clrCtr true s1 = .ok (s2, ca) → appendsOut s2 g.agent who = false → pa + 64 ≤ ca ∨ ca + 8 ≤ pa →
        rdNat s2 ca 8 + 1 < 2 ^ 64 →
        ∃ s', exec (.colophonCounterAdd k) s = .next s' ∧ rdBytes s' pa 64 = r ∧ rdNat s' ca 8 = rdNat s2 ca 8 + 1 ∧
          (∀ x, x < pa ∨ pa + 64 ≤ x → x < ca ∨ ca + 8 ≤ x → rdByte s' x = rdByte s2 x) ∧ gone s') ∧
      (l.clrOut = true → engineCounter g l.clrCtr true s = .ok (s2, ca) →
        (appendsOut s2 g.agent who = true → exec (.colophonCounterAdd k) s = .next { s2 with launches := amPut k l s2.launches }) ∧
        (appendsOut s2 g.agent who = false → rdNat s2 ca 8 + 1 < 2 ^ 64 →
          ∃ s', exec (.colophonCounterAdd k) s = .next s' ∧ rdNat s' ca 8 = rdNat s2 ca 8 + 1 ∧ SameMemoryBut ca 8 s2 s' ∧ gone s')))) ∧
  (∀ (s : State) (i : Nat) (f : Frag) (t : Team) (u : UnitSt) (x : Launch), current s = some (i, f, t) →
    amGet t.unit s.units = some u → amGet u.launch s.launches = some x → InOrder s →
    (∀ l : BitVec 5, 4 ≤ l.toNat → exec (.sysCancel l) s = .next (stopPass i f false s (.trap 0x01 0 (dw f.iword.toNat)))) ∧
    (∃ s', exec (.sysCancel 0) s = .next s' ∧ LaunchesStopped (fun y => y.queue = x.queue ∧ y.idx = x.idx) s s') ∧
    (x.graph = none → exec (.sysCancel 1) s = exec (.sysCancel 0) s) ∧
    (∀ q, x.graph ≠ none → 2 ^ 20 ≤ x.queue → amGet x.queue s.queues = some q → q.done < q.tail → ∃ s', exec (.sysCancel 1) s = .next s' ∧
      LaunchesStopped (fun y => y.queue = x.queue) s s' ∧ amGet x.queue s'.queues = some { q with cancelled := true }) ∧
    (x.phase = none → exec (.sysCancel 2) s = exec (.sysCancel 1) s) ∧
    (∀ ph, x.phase = some ph → (∀ q ∈ s.queues, q.2.phase ≠ some ph) → ∃ s', exec (.sysCancel 2) s = .next s' ∧
      LaunchesStopped (fun y => y.phase = some ph) s s') ∧
    (∃ s', exec (.sysCancel 3) s = .next s' ∧ LaunchesStopped (fun y => y.ctx = u.ctx) s s' ∧
      (∀ c, amGet u.ctx s.ctxs = some c → ∃ c', amGet u.ctx s'.ctxs = some c' ∧ c'.cancelled = true) ∧
      (∀ n c, amGet n s.crls = some c → c.owner = u.ctx → c.state = 2 → ∃ c', amGet n s'.crls = some c' ∧ c'.state = 3)))

/-- A partition halts, saves once it is quiet, swaps and restores 4,000 ticks apart, and resumes with every fragment's key the
restore tick. PREEMPT_HALT, PREEMPT_SAVE, PREEMPT_SWAP_DONE, RESTORE and RESTORE_DONE change nothing for a context that is not
at their point (not pre-emptible or dying; writes or operations R132 names outstanding; before 4,000 ticks; clusters another
context holds). At it, each moves its context on at the current tick and changes no register, no byte of memory and of another
context only where its images lie; a save fills the shadow slices of its cores and releases its teams' writes at DEVICE scope; a
halt takes its fragments out of the merge tables, but for one whose first-touch trap is raised; the end of a restore gives each
of its fragments the current tick as its key, one that waited for a page going on, and leaves others alone. No fragment of a
context that is not running can issue. -/
def Obligations.PartitionsHaltSaveAndRestore : Prop :=
  (∀ (ctx : Nat) (s : State), amGet ctx s.ctxs = none →
    ∀ ins ∈ [Instr.preemptHalt ctx, .preemptSave ctx, .preemptSwapDone ctx, .restore ctx, .restoreDone ctx], exec ins s = .next s) ∧
  (∀ (ctx : Nat) (s : State) (c : Context), amGet ctx s.ctxs = some c →
    let goes := fun (ins : Instr) (c' : Context) => ∃ s', exec ins s = .next s' ∧
      s' = { s with ctxs := s'.ctxs, merge := s'.merge, frags := s'.frags, teams := s'.teams, division := s'.division,
                    slices := s'.slices, hist := s'.hist, rels := s'.rels, seq := s'.seq } ∧
      amGet ctx s'.ctxs = some c' ∧
      (∀ k x, k ≠ ctx → amGet k s.ctxs = some x → ∃ x', amGet k s'.ctxs = some x' ∧ x' = { x with moved := x'.moved }) ∧
      (∀ m t, amGet m s.teams = some t → ∃ t', amGet m s'.teams = some t' ∧ t' = { t with frame := t'.frame, accOut := t'.accOut }) ∧
      ∀ i f, amGet i s.frags = some f → amGet i s'.frags = some (if ins = .restoreDone ctx ∧ ctxOfTeam s f.team = some ctx then
        { f with key := s.toll, wait := match f.wait with | .merge .. => .run | w => w } else f)
    (c.preemptible = false ∨ c.pre ≠ 0 ∨ c.dying = true → exec (.preemptHalt ctx) s = .next s) ∧
    (c.preemptible = true → c.pre = 0 → c.dying = false → goes (.preemptHalt ctx) { c with pre := 1, preTick := s.toll } ∧
      ∀ s', exec (.preemptHalt ctx) s = .next s' → ∀ e ∈ s'.merge, ∀ i f, amGet i s.frags = some f →
        ctxOfTeam s f.team = some ctx → e.2.toucher = some i ∨ Waiter.frag i ∉ e.2.waiters) ∧
    (c.pre ≠ 1 ∨ preQuiet s ctx = false → exec (.preemptSave ctx) s = .next s) ∧
    (c.pre = 1 → preQuiet s ctx = true → goes (.preemptSave ctx) { c with pre := 2, preTick := s.toll } ∧
      ∀ s', exec (.preemptSave ctx) s = .next s' →
        (∀ g, g / 16 ∈ c.clusters → amGet g s'.slices = some ctx) ∧
        (∀ w ∈ s'.hist, ctxOfTeam s w.writer = some ctx → ∃ n r, n ∈ w.rel ∧ amGet n s'.rels = some r ∧ r.scope = 4)) ∧
    (c.pre ≠ 2 ∨ s.toll < c.preTick + 4000 → exec (.preemptSwapDone ctx) s = .next s) ∧
    (c.pre = 2 → c.preTick + 4000 ≤ s.toll → goes (.preemptSwapDone ctx) { c with pre := 3 }) ∧
    (let taken := ∃ x ∈ s.ctxs, x.1 ≠ ctx ∧ x.2.pre ≠ 3 ∧ ∃ k, k ∈ x.2.clusters ∧ k ∈ c.clusters
     (c.pre ≠ 3 ∨ taken → exec (.restore ctx) s = .next s) ∧
     (c.pre = 3 → ¬ taken → goes (.restore ctx) { c with pre := 4, preTick := s.toll })) ∧
    (c.pre ≠ 4 ∨ s.toll < c.preTick + 4000 → exec (.restoreDone ctx) s = .next s) ∧
    (c.pre = 4 → c.preTick + 4000 ≤ s.toll → goes (.restoreDone ctx) { c with pre := 0, moved := [] }) ∧
    (c.pre ≠ 0 → ∀ f, ctxOfTeam s f.team = some ctx → issuable s f = false))

/-- The debug unit stops the device or a cluster, steps one fragment and resumes, and refuses what is not debuggable. The page's
layout with its secure bank (log entry 40) and the status codes 1, 5 and 13 (log entry 62) are the model's choices. TSTOP with a
context that is not debuggable, STOPCL and RESUME of a cluster of such a context, or of a secure one by the non-secure bank, and
STEP of a fragment of one only report DENIED. TSTOP arms; its tick past, it or TSTOP_EXPIRY gates the device and disarms, and
DEBUG_RELEASE ungates it; a gated device takes only inputs that reach it and its toll does not move. STOPCL marks its cluster;
CLUSTER_STOP_ARRIVAL freezes every resident fragment of the core, writing for each the 32-byte record of R393 and no other byte.
STEP frees the named stopped fragment for one instruction; STEP_BLOCKED freezes it again as BLOCKED once it has waited 65,536
ticks, not before. RESUME releases the cluster's fragments with this tick as their key, and no others. -/
def Obligations.DebugStopsFreezeAndStep : Prop :=
  (∀ (v : DWord) (s : State),
    let told := fun (die st : Nat) (s : State) =>
      { s with bar0 := smPut 0 (0x600000 + die * 0x10000 + ((if dbgSecure s die = true then 0x8000 else 0) + 0x128)) (dw st) s.bar0 }
    let tick := bitsOf v 62 0
    ((∃ c ∈ s.ctxs, c.2.debuggable = false) → exec (.tstop v) s = .next (told 0 5 s)) ∧
    ((∀ c ∈ s.ctxs, c.2.debuggable = true) → exec (.tstop v) s = .next (told 0 0
      (if bitsOf v 63 63 = 1 ∧ tick ≤ s.toll then { s with tstop := dw tick, gated := true } else { s with tstop := v }))) ∧
    exec .tstopExpiry s = .next (if bitsOf s.tstop 63 63 = 1 ∧ bitsOf s.tstop 62 0 ≤ s.toll
      then { s with gated := true, tstop := dw (bitsOf s.tstop 62 0) } else s) ∧
    exec .debugRelease s = .next { s with gated := false } ∧
    (s.gated = true → (∀ c ∈ choices s, ∃ i rest, c = .input i rest ∧ reachesGated s i = true) ∧ passTime s = s)) ∧
  (∀ (cluster : Nat) (s : State), InOrder s →
    let die := cluster / 48
    let told := fun (st : Nat) (s : State) =>
      { s with bar0 := smPut 0 (0x600000 + die * 0x10000 + ((if dbgSecure s die = true then 0x8000 else 0) + 0x128)) (dw st) s.bar0 }
    let denied := ∃ x ∈ s.ctxs, (x.2.debuggable = false ∨ x.2.secure = true ∧ dbgSecure s die = false) ∧ x.2.pre < 2 ∧ cluster ∈ x.2.clusters
    (95 < cluster → exec (.stopcl cluster) s = .next s ∧ exec (.resume cluster) s = .next s) ∧
    (cluster ≤ 95 → denied → exec (.stopcl cluster) s = .next (told 5 s) ∧ exec (.resume cluster) s = .next (told 5 s)) ∧
    (cluster ≤ 95 → ¬ denied →
      (∃ s', exec (.stopcl cluster) s = .next (told 0 s') ∧ s' = { s with frags := s'.frags, stops := s'.stops, teams := s'.teams } ∧
        (∀ m t, amGet m s.teams = some t → ∃ t', amGet m s'.teams = some t' ∧ t' = { t with frame := t'.frame }) ∧
        amGet cluster s'.stops = some ((amGet cluster s.stops).getD { tick := s.toll, cause := 0, cores := [] }) ∧
        ∀ i f, amGet i s.frags = some f → ∃ k, amGet i s'.frags = some { f with skid := k }) ∧
      (∃ s', exec (.resume cluster) s = .next (told 0 s') ∧ s' = { s with frags := s'.frags, stops := s'.stops, teams := s'.teams } ∧
        amGet cluster s'.stops = none ∧ (∀ k, k ≠ cluster → amGet k s'.stops = amGet k s.stops) ∧
        (∀ m t, amGet m s.teams = some t → ∃ t', amGet m s'.teams = some t' ∧ t' = { t with frame := t'.frame }) ∧
        ∀ i f t, amGet i s.frags = some f → amGet f.team s.teams = some t → amGet i s'.frags = some
          (if clusterOf t.gcore = cluster then { f with frozen := false, stopFor := none, stepping := none, key := s.toll } else f)))) ∧
  (∀ (core : Nat) (s : State) (st : ClStop), InOrder s →
    (amGet (clusterOf core) s.stops = none → exec (.clusterStopArrival core) s = .next s) ∧
    (amGet (clusterOf core) s.stops = some st →
      (core ∈ st.cores → exec (.clusterStopArrival core) s = .next s) ∧
      (core ∉ st.cores → ∃ s', exec (.clusterStopArrival core) s = .next s' ∧ s'.teams = s.teams ∧
        amGet (clusterOf core) s'.stops = some { st with cores := core :: st.cores } ∧
        ∀ i f t, amGet i s.frags = some f → amGet f.team s.teams = some t → amGet i s'.frags = some
          (if t.gcore = core ∧ f.frozen = false ∧ debuggable s t = true ∧ (ctxOfTeam s f.team).any (fun c => !savedCtx s c) = true then { f with frozen := true, stopFor := none, stepping := none } else f)))) ∧
  (∀ (i tick cause : Nat) (f : Frag) (t : Team) (s : State), amGet i s.frags = some f → amGet f.team s.teams = some t →
    tick < 2 ^ 64 → cause < 2 ^ 32 →
    let die := dieOf t.gcore
    let bank := dbgBank die (secureTeam s t)
    let a := (dbgReg s die (bank.2 + 0x100)).toNat + 32 * smGet 0 bank.1 s.skids
    let reached := meetsTables s a 32 = false ∧
      (secureTeam s t = true ∨ 2 ^ 40 ≤ a ∨ secureFrame (a / 2 ^ 16) = false ∧ secureFrame ((a + 31) / 2 ^ 16) = false)
    let s' := freezeFrag i tick cause s
    (reached → rdNat s' a 8 = tick ∧ rdNat s' (a + 8) 8 = f.pc.toNat ∧
      rdNat s' (a + 16) 2 = (t.gcore % 16 + t.tslot * 16 + f.pass * 256) % 2 ^ 16 ∧ rdNat s' (a + 18) 2 = min f.skid 65535 ∧
      rdNat s' (a + 20) 4 = cause ∧ rdNat s' (a + 24) 8 = 0 ∧ SameMemoryBut a 32 s s') ∧
    (¬ reached → SameMemory s s') ∧
    smGet 0 bank.1 s'.skids = smGet 0 bank.1 s.skids + 1 ∧
    amGet i s'.frags = some { f with frozen := true, stopFor := none, stepping := none }) ∧
  (∀ (core tslot lane i : Nat) (f : Frag) (t : Team) (s : State),
    let die := dieOf core
    let told := fun (st : Nat) (s : State) =>
      { s with bar0 := smPut 0 (0x600000 + die * 0x10000 + ((if dbgSecure s die = true then 0x8000 else 0) + 0x128)) (dw st) s.bar0 }
    (steppable s core tslot lane = none → exec (.step core tslot lane) s = .next (told 1 s)) ∧
    (steppable s core tslot lane = some (i, f, t) → exec (.step core tslot lane) s = .next
      (if debuggable s t = true ∧ (secureTeam s t = false ∨ dbgSecure s die = true)
        then told 0 { s with
          frags := amPut i { f with frozen := false, stepping := some s.toll, stepSeq := s.seq, skid := 0, stopFor := none } s.frags }
        else told 5 s)) ∧
    (InOrder s → amGet i s.frags = some f → amGet f.team s.teams = some t → t.gcore = core → t.tslot = tslot → lowestLane f.mask = lane →
      (∀ j g u, amGet j s.frags = some g → amGet g.team s.teams = some u → u.gcore = core → u.tslot = tslot → lowestLane g.mask = lane →
        g.stepping ≠ none → j = i) →
      (f.stepping = none → exec (.stepBlocked core tslot lane) s = .next s) ∧
      (∀ k, f.stepping = some k → exec (.stepBlocked core tslot lane) s = .next
        (if (f.wait ≠ .run ∨ f.frozen = true) ∧ k + 65536 ≤ s.toll
          then told 13 { s with frags := amPut i { f with frozen := true, stepping := none } s.frags } else s))))

/-- A port takes the descriptor its doorbell exposes, applies what arrives under its inbound entry, and ends each with STATUS and
LCTR. The ring page's offsets (log entry 40) and what a rewritten descriptor comes to (log entry 64) are the model's choices.
DESCRIPTOR_TAKE takes nothing while the doorbell is no higher than the descriptors taken. Else it counts one more, and the
descriptor, read from its slot with its source data, enters the port's list: MALFORMED if a field is out of range, ended by its
source's failure, or to be sent; one that cannot be read holds no weight. An arrival that no entry matches, or whose context is
gone, is answered NOBIND without effect; one that must wait for earlier ones is held. FABRIC_STORE leaves its bytes at its
destination, FABRIC_ASTO sends its elements to their ports, FABRIC_CTRADD, at SYSTEM scope after its ring's log entries, adds
its amount or reports an overflow; each is answered once it is performed. DESCRIPTOR_ACK changes nothing while the descriptor
waits for others; else it writes STATUS, and once no log holds that up adds 1 to LCTR and removes it. LINK_RETRY_EXPIRY ends the
port's unfinished descriptors with LINK. -/
def Obligations.DescriptorsAreSentAppliedAndEnd : Prop :=
  (∀ (ring : Nat) (s : State), amGet ring s.rings = none → exec (.descriptorTake ring) s = .next s) ∧
  (∀ (ring pa : Nat) (s s1 : State) (r : Ring), amGet ring s.rings = some r →
    let g := ringEng s ring r.taken
    engineCounter g (ringReg s ring 16) false s = .ok (s1, pa) →
    let a := (ringReg s1 ring 0).toNat + 64 * (r.taken % ringLen s1 ring)
    (rdNat s1 pa 8 ≤ r.taken ∨ ringLen s1 ring = 0 → exec (.descriptorTake ring) s = .next s1) ∧
    (∀ s2 s3 b, r.taken < rdNat s1 pa 8 → ringLen s1 ring ≠ 0 → currentPhase s1 g.ctx = none →
      engineRead g none (a : Int) 64 (acquireCounter g.agent (.die g.die) 4 pa (rdNat s1 pa 8) s1) = .ok (s2, b) →
      engineWrite g none ((a + 40 : Nat) : Int) (natBytes 8 1) s2 = .ok (s3, ()) →
      let taken := fun (u : State) (data : List Byte) (finish : Option (Nat × Bool)) =>
        ∃ s' o r', exec (.descriptorTake ring) s = .next s' ∧ SameMemory u s' ∧ s'.outgoing = u.outgoing ++ [o] ∧
          amGet ring s'.rings = some r' ∧ r'.taken = r.taken + 1 ∧ o.ring = ring ∧ o.i = r.taken ∧ o.op = field b 0 1 ∧
          o.peer = peerEntry u (ring / 64) (field b 4 2) ∧ o.stat = dw (a + 40) ∧ o.lctr = dw (field b 32 8) ∧ o.finish = finish ∧
          o.msg.data = data ∧ o.msg.dst = dw (field b 24 8) ∧ o.msg.amount = dw (field b 16 8) ∧ o.msg.id = r.taken ∧ o.raw = b.take 40 ∧ o.stage = 0 ∧
          o.after = if field b 0 1 = 3 ∨ field b 2 1 % 2 = 1 then openDescrs u ring (peerEntry u (ring / 64) (field b 4 2)) else []
      (descrOk b = false → taken s3 [] (some (0x40, false))) ∧
      (descrOk b = true → field b 0 1 = 3 → taken s3 [] none) ∧
      (∀ s4 data, descrOk b = true → field b 0 1 ≠ 3 →
        engineRead g none (field b 16 8 : Int) (field b 8 4) s3 = .ok (s4, data) → taken s4 data none) ∧
      (∀ s4 c v, descrOk b = true → field b 0 1 ≠ 3 →
        engineRead g none (field b 16 8 : Int) (field b 8 4) s3 = .error (s4, .fault c v) → taken s4 [] (some (c, false)))) ∧
    (∀ s2 c v, r.taken < rdNat s1 pa 8 → ringLen s1 ring ≠ 0 → currentPhase s1 g.ctx = none →
      engineRead g none (a : Int) 64 (acquireCounter g.agent (.die g.die) 4 pa (rdNat s1 pa 8) s1) = .error (s2, .fault c v) →
      ∃ s' r', exec (.descriptorTake ring) s = .next s' ∧ SameMemory s2 s' ∧ s'.outgoing = s2.outgoing ∧ amGet ring s'.rings = some r' ∧
        r'.taken = r.taken + 1 ∧ ∀ h ∈ r'.held, h.1 ≠ r.taken)) ∧
  (∀ (m : FabricMsg) (s s1 : State) (src ctx : Nat) (ps : List (Spot × Nat)),
    let answered := fun (u s' : State) (cause : Nat) =>
      s'.replies = { port := m.port, endpoint := m.srcEndpoint, ring := m.srcRing, id := m.id, cause := cause } :: u.replies
    let who := agentArrival src m.id
    let g : Eng := { who := .agent who, agent := who, ctx := ctx, die := m.port / 6, core := none, ord := who, phase := none }
    (∀ p ∈ [(1, Instr.fabricStore m), (2, .fabricAsto m), (3, .fabricCtradd m)],
      (inboundEntry s m.port m.srcEndpoint m.srcRing = none ∨
        (inboundEntry s m.port m.srcEndpoint m.srcRing = some (src, ctx) ∧ amGet ctx s.ctxs = none) →
        ∃ s', exec p.2 s = .next s' ∧ answered s s' 0x50 ∧ s' = { s with inbound := s'.inbound, replies := s'.replies }) ∧
      (inboundEntry s m.port m.srcEndpoint m.srcRing = some (src, ctx) → amGet ctx s.ctxs ≠ none → m.fence = true ∨ p.1 = 3 →
        (∀ x ∈ s.inbound, ¬ (x.op = p.1 ∧ x.msg = m)) → (∃ y ∈ s.inbound, y.src = src ∧ y.msg.id < m.id) →
        exec p.2 s = .next { s with inbound := s.inbound ++ [{ op := p.1, msg := m, src := src, applied := false, asked := false }] }) ∧
      (∀ y, inboundEntry s m.port m.srcEndpoint m.srcRing = some (src, ctx) → amGet ctx s.ctxs ≠ none →
        s.inbound.find? (fun x => x.op == p.1 && x.msg == m) = some y → y.applied = true → y.src = src →
        (appendsOut s who who = true → ∃ s', exec p.2 s = .next s' ∧ s' = { s with inbound := s'.inbound } ∧ y ∈ s'.inbound) ∧
        (appendsOut s who who = false → ∃ s', exec p.2 s = .next s' ∧ answered s s' 0 ∧ SameMemory s s' ∧
          ∀ x ∈ s'.inbound, ¬ (x.op = p.1 ∧ x.msg = m)))) ∧
    (inboundEntry s m.port m.srcEndpoint m.srcRing = some (src, ctx) → amGet ctx s.ctxs ≠ none →
      (∀ x ∈ s.inbound, x.msg ≠ m ∧ (x.src = src → m.id ≤ x.msg.id)) →
      (engineSpots g none (m.dst.toNat : Int) m.data.length needStore s = .ok (s1, ps) →
        (∀ y ∈ ps, ∀ k b, y.1 ≠ .log k b) → appendsOut s1 who who = false →
        ∃ s', exec (.fabricStore m) s = .next s' ∧ answered s1 s' 0 ∧
          ∀ b, rdByte s' b = (storedAt (placeBytes ps m.data) b).getD (rdByte s1 b)) ∧
      (engineSpots g none (m.dst.toNat : Int) m.data.length needAdd s = .ok (s1, ps) →
        (∀ y ∈ ps, ∀ k b, y.1 ≠ .log k b) →
        let es := (messageElems m ps).map Prod.snd
        es ≠ [] → amGet who s1.ops = none → ∃ s' x, exec (.fabricAsto m) s = .next s' ∧ SameMemory s1 s' ∧ s'.replies = s1.replies ∧ amGet s1.seq s'.ops = some x ∧
          x.body = .adds es ∧ x.team = who ∧ x.ord = who ∧
          { op := 2, msg := m, src := src, applied := true, asked := false } ∈ s'.inbound) ∧
      (∀ pa, engineCounter g m.dst true s = .ok (s1, pa) → m.scope.toNat = 5 → arrivalLogs s1 src m.id ≠ [] →
        ∃ s', exec (.fabricCtradd m) s = .next s' ∧ SameMemory s1 s' ∧ s'.replies = s1.replies ∧
          { op := 3, msg := m, src := src, applied := false, asked := true } ∈ s'.inbound ∧
          ∀ k ∈ arrivalLogs s1 src m.id, ∀ t, amGet k s'.tiles = some t → t.state ≠ .absent) ∧
      (∀ pa, engineCounter g m.dst true s = .ok (s1, pa) → m.scope.toNat ≠ 5 ∨ arrivalLogs s1 src m.id = [] →
        (rdNat s1 pa 8 + m.amount.toNat < 2 ^ 64 → ∃ s', exec (.fabricCtradd m) s = .next s' ∧ answered s1 s' 0 ∧
          rdNat s' pa 8 = rdNat s1 pa 8 + m.amount.toNat ∧ SameMemoryBut pa 8 s1 s') ∧
        (2 ^ 64 ≤ rdNat s1 pa 8 + m.amount.toNat → ∃ s', exec (.fabricCtradd m) s = .next s' ∧ answered s1 s' 0x18 ∧
          SameMemory s1 s')))) ∧
  (∀ (ring i : Nat) (cause : Byte) (remote : Bool) (s s1 s2 : State) (o : Outgoing) (p q : Nat) (leaf : DWord),
    ((∀ x ∈ s.outgoing, ¬ (x.ring = ring ∧ x.i = i)) → exec (.descriptorAck ring i cause remote) s = .next s) ∧
    (s.outgoing.find? (fun x => x.ring == ring && x.i == i) = some o →
      (o.finish = none → o.after ≠ [] → exec (.descriptorAck ring i cause remote) s = .next s) ∧
      (o.finish ≠ none ∨ o.after = [] →
        let g := ringEng s ring i
        let waits := fun (s : State) => appendsOut s g.agent g.ord = true ∨ o.msg.scope.toNat = 5 ∧ logsOut s g.agent = true
        let gone := fun (s' : State) => ∀ x ∈ s'.outgoing, ¬ (x.ring = ring ∧ x.i = i) ∧ (x.ring = ring → i ∉ x.after)
        (1 ≤ o.stage →
          (appendsOut s g.agent g.ord = true ∨ o.stage = 2 ∧ waits s → exec (.descriptorAck ring i cause remote) s = .next s) ∧
          (¬ waits s → o.lctr = 0 → ∃ s', exec (.descriptorAck ring i cause remote) s = .next s' ∧ SameMemory s s' ∧ gone s') ∧
          (¬ waits s → o.lctr ≠ 0 → engineCounter g o.lctr true s = .ok (s2, q) → rdNat s2 q 8 + 1 < 2 ^ 64 →
            ∃ s', exec (.descriptorAck ring i cause remote) s = .next s' ∧ rdNat s' q 8 = rdNat s2 q 8 + 1 ∧ SameMemoryBut q 8 s2 s' ∧
              gone s')) ∧
        (let e := o.finish.getD (cause.toNat, remote)
         let status := (if e.1 = 0 then 2 else 3) + e.1 * 2 ^ 8 + (if e.2 = true then 2 ^ 16 else 0)
         o.stage = 0 → engineSpots g none (o.stat.toNat : Int) 8 needStore s = .ok (s1, [(.at p leaf, 8)]) → rewritten g o s1 = false →
          let v := writeCells g.agent (engineOp g) g.ord (cellsAt [(.at p leaf, 8)] (natBytes 8 status)) s1
          let u := { v with outgoing := v.outgoing.map (fun x =>
            if x.ring = ring ∧ x.i = i then { x with finish := some e, stage := 1 } else x) }
          rdNat u p 8 = status % 2 ^ 64 ∧ SameMemoryBut p 8 s1 u ∧
          (appendsOut u g.agent g.ord = true → exec (.descriptorAck ring i cause remote) s = .next u) ∧
          (¬ waits u → o.lctr = 0 → ∃ s', exec (.descriptorAck ring i cause remote) s = .next s' ∧ SameMemory u s' ∧ gone s') ∧
          (¬ waits u → o.lctr ≠ 0 → engineCounter g o.lctr true u = .ok (s2, q) → rdNat s2 q 8 + 1 < 2 ^ 64 →
            ∃ s', exec (.descriptorAck ring i cause remote) s = .next s' ∧ rdNat s' q 8 = rdNat s2 q 8 + 1 ∧ SameMemoryBut q 8 s2 s' ∧
              gone s'))))) ∧
  (∀ (port : Nat) (s : State), (∀ e ∈ s.steals, bitsOf (pairReg s e.2.die 0) 3 0 ≠ port) → exec (.linkRetryExpiry port) s = .next
    { s with outgoing := s.outgoing.map (fun o =>
        if o.ring / 64 = port ∧ o.finish = none then { o with finish := some (0x51, false) } else o) })

/-- A steal moves a batching entry with its VERSION and its Carillon context whole, or changes nothing; a failed link undoes it. The
pairing registers' layout (log entry 40) and which pages a sequence has (log entry 63) are the model's choices. SEQUENCE_STEAL
by a die that is not idle, or of an entry that holds no sequence, changes nothing; else the entry leaves the other die's table
and stands in the thief's with the same VERSION, and its context, unchanged, is a free one of the thief's, whose slot holds the
same program, both named by the entry; what had reached it goes with it, and a page is rehomed with its bytes (in one act: log
entry 95) and a shootdown. CHIP_STEAL removes its entry, suspends the context and keeps the steal; STEAL_STATE_INSTALL on a
paired, idle die, with frames for the pages and their list and a free context, binds it with the received state, the pairing's
OUTBASE, OUTLEN, TOKCTR and DBELL, and T 0, places the entry and acknowledges; STEAL_ACK frees the victim's context and drops
pages with a shootdown. LINK_RETRY_EXPIRY of the pairing's port restores every entry and context. Every other entry of the
tables stays. -/
def Obligations.SequencesAreStolenWhole : Prop :=
  (∀ (thief entry : Nat) (s : State),
    (1 < thief ∨ 4095 < entry → exec (.sequenceSteal thief entry) s = .next s) ∧
    (thief ≤ 1 → entry ≤ 4095 →
      let victim := 1 - thief
      let im := (batchAt s victim entry).now
      let old := victim * 4096 + im.ctxn
      let moved := fun (s' : State) (ctxn : Nat) => (batchAt s' thief entry).now = { im with ctxn := ctxn } ∧
        (batchAt s' victim entry).now.valid = 0 ∧
        ∀ d k, (d = 0 ∨ d = 1) → k ≤ 4095 → k ≠ entry → batchAt s' d k = batchAt s d k
      (dieIdle s thief = false ∨ im.valid ≠ 1 ∨ suspendable s old = false → exec (.sequenceSteal thief entry) s = .next s) ∧
      (dieIdle s thief = true → im.valid = 1 → suspendable s old = true →
        (amGet old s.crls = none → ∃ s', exec (.sequenceSteal thief entry) s = .next s' ∧ moved s' im.ctxn ∧
          s'.crls = s.crls ∧ SameMemory s s') ∧
        (∀ x, amGet old s.crls = some x → freeCrls s thief = [] → exec (.sequenceSteal thief entry) s = .next s) ∧
        (∀ x, amGet old s.crls = some x → smGet [] (thief * 16 + x.prog) s.progs ≠ smGet [] (victim * 16 + x.prog) s.progs →
          exec (.sequenceSteal thief entry) s = .next s) ∧
        (∀ x n, amGet old s.crls = some x → n ∈ freeCrls s thief → im.ctxn ≤ 4095 →
          smGet [] (thief * 16 + x.prog) s.progs = smGet [] (victim * 16 + x.prog) s.progs →
          ∃ s' new, exec (.sequenceSteal thief entry) s = .next s' ∧ new ∈ freeCrls s thief ∧ moved s' (new % 4096) ∧
            amGet new s'.crls = some { x with blocked := false } ∧ amGet old s'.crls = none ∧
            (∀ k, k ≠ new → k ≠ old →
              (amGet k s'.crls).map (fun c => { c with emit := none }) = (amGet k s.crls).map (fun c => { c with emit := none })) ∧
            (∀ o ∈ s'.ops, deliveryReached s' old o.2 = none) ∧
            (amGet x.owner s.ctxs = none → SameMemory s s'))))) ∧
  (∀ (ctx dst va a f : Nat) (s s1 : State) (x : Context), amGet ctx s.ctxs = some x → leafAddr s x.root va = some (a, false) →
    let e := dw (rdNat s a 8)
    let old := bitsOf e 47 16
    amSorted s.mem = true → entryType e = 2 → malformed 0 e = false → old / 2 ^ 23 + dst = 1 → bitsOf e 12 9 = 0 →
    freeFrame dst (entryBit e 6) s = some (f, s1) → a % 8 = 0 → a / 2 ^ 16 ≠ f → x.ctrPage ≠ f → a / 2 ^ 16 ≠ x.ctrPage →
    ∃ d, (rehomePage ctx dst va s).shoots = amPut s1.seq d s.shoots ∧ d.ctx = ctx ∧ d.lo = va / 2 ^ 16 ∧ d.hi = va / 2 ^ 16 ∧ d.frames = [old] ∧
      rdNat (rehomePage ctx dst va s) a 8 = (bitsOf e 6 0 + dst * 2 ^ 7 + bitsOf e 15 9 * 2 ^ 9 + f * 2 ^ 16) % 2 ^ 64 ∧
      ∀ b, b < 2 ^ 16 → rdByte (rehomePage ctx dst va s) (f * 2 ^ 16 + b) = rdByte s (old * 2 ^ 16 + b)) ∧
  (∀ (die entry : Nat) (s : State),
    let im := (batchAt s die entry).now
    let n := die * 4096 + im.ctxn
    (bitsOf (pairReg s die 0) 63 63 = 0 ∨ im.valid ≠ 1 ∨ suspendable s n = false → exec (.chipSteal die entry) s = .next s) ∧
    (bitsOf (pairReg s die 0) 63 63 = 1 → im.valid = 1 → suspendable s n = true →
      ∃ s', exec (.chipSteal die entry) s = .next s' ∧ SameMemory s s' ∧ (batchAt s' die entry).now.valid = 0 ∧
        amGet s.seq s'.steals = some { die := die, entry := entry, image := im } ∧
        (∀ x, amGet n s.crls = some x → x.state ≠ 5 →
          amGet n s'.crls = some { x with state := 5, prior := x.state, blocked := false, fault := none }) ∧
        ∀ k, k ≠ n → amGet k s'.crls = amGet k s.crls)) ∧
  (∀ (m : StealMsg) (s s1 : State),
    let ctx := bitsOf (pairReg s m.die 0) 47 32
    let others := s.received.filter (fun x => x != m)
    let landed := (landPages ctx m.die m.pages s).bind (landList ctx m.die m.pages.length)
    (bitsOf (pairReg s m.die 0) 63 63 = 0 → exec (.stealStateInstall m) s = .next { s with received := others }) ∧
    (bitsOf (pairReg s m.die 0) 63 63 = 1 → dieIdle s m.die = false ∨ landed = none →
      exec (.stealStateInstall m) s = .next { s with received := others ++ [m] }) ∧
    (∀ k kv, bitsOf (pairReg s m.die 0) 63 63 = 1 → dieIdle s m.die = true → landed = some (kv, s1) → k ∈ freeCrls s1 m.die →
      ∃ s' n x, exec (.stealStateInstall m) s = .next s' ∧
      n ∈ freeCrls s1 m.die ∧ SameMemory s1 s' ∧ m ∉ s'.received ∧ amGet n s'.crls = some x ∧ x.owner = ctx ∧ x.state = m.state ∧
      x.pc = m.pc ∧ x.prog = m.prog ∧ x.c = m.c ∧ x.key = m.key ∧ x.x = m.x ∧ x.pos = m.pos ∧ x.val = m.val ∧ x.idx = m.idx ∧
      x.ccnt = m.ccnt ∧ x.hist = m.hist ∧ x.seq = m.seq.toNat ∧ x.t = 0 ∧ x.outBase = pairReg s m.die 8 ∧
      x.outLen = (pairReg s m.die 16).toNat ∧ x.tokCtr = pairReg s m.die 24 ∧ x.dbell = pairReg s m.die 32 ∧
      (batchAt s' m.die m.entry).now = { version := m.version, valid := 1, ctxn := n % 4096, len := m.len, kv := dw kv, user := m.user } ∧
      (∃ r rest, s'.replies = r :: rest ∧ rest = s1.replies ∧ r.id = m.id ∧ r.cause = 0) ∧
      ∀ j, j ≠ n → amGet j s'.crls = amGet j s1.crls)) ∧
  (∀ (id : Nat) (s : State),
    (amGet id s.steals = none → exec (.stealAck id) s = .next s) ∧
    (∀ x, amGet id s.steals = some x →
      let n := x.die * 4096 + x.image.ctxn
      ∃ s', exec (.stealAck id) s = .next s' ∧ amGet id s'.steals = none ∧ amGet n s'.crls = none ∧
        (∀ k, k ≠ n → amGet k s'.crls = amGet k s.crls) ∧
        ((∀ c, amGet n s.crls = some c → amGet c.owner s.ctxs = none) → SameMemory s s'))) ∧
  (∀ (ctx die va a : Nat) (large : Bool) (e : DWord) (s : State) (x : Context), amGet ctx s.ctxs = some x →
    (stolenLeaf s ctx die va = none → dropPage ctx die va s = s) ∧
    (stolenLeaf s ctx die va = some (a, large, e) → a + 8 ≤ x.ctrPage * 2 ^ 16 ∨ (x.ctrPage + 1) * 2 ^ 16 ≤ a →
      rdNat (dropPage ctx die va s) a 8 = 0 ∧ ∃ d, (dropPage ctx die va s).shoots = amPut s.seq d s.shoots ∧ d.ctx = ctx ∧
        d.frames = pageFrames large (bitsOf e 47 16) ∧ d.lo ≤ va / 2 ^ 16 ∧ va / 2 ^ 16 ≤ d.hi)) ∧
  (∀ (port : Nat) (s : State),
    let mine := fun (x : Steal) => bitsOf (pairReg s x.die 0) 3 0 = port
    let place := fun (x : Steal) => x.die * 4096 + x.entry
    let bound := fun (x : Steal) => x.die * 4096 + x.image.ctxn
    amSorted s.steals = true → s.steals.Pairwise (fun e f => place e.2 ≠ place f.2 ∧ bound e.2 ≠ bound f.2) →
    ∃ s', exec (.linkRetryExpiry port) s = .next s' ∧ SameMemory s s' ∧ (∀ e, e ∈ s'.steals ↔ e ∈ s.steals ∧ ¬ mine e.2) ∧
      (∀ e ∈ s.steals, mine e.2 → (batchAt s' e.2.die e.2.entry).now = e.2.image ∧
        ∀ c, amGet (bound e.2) s.crls = some c → amGet (bound e.2) s'.crls = some (if c.state = 5 then { c with state := c.prior } else c)) ∧
      ∀ k, (∀ e ∈ s.steals, mine e.2 → k ≠ bound e.2) → amGet k s'.crls = amGet k s.crls)

/-- Doorbells, register and window writes, boot, attestation, budgets, reset, power loss and a thermal trip do what their rules say.
Register places (log entry 40), LEN under 64 as LENGTH and the order of checks (log entry 66), what a reset keeps and a power
loss clears (log entry 67) and what a ring bound anew leaves (log entry 64) are the model's choices; the signature scheme is
presumed (log entry 98). QUEUE_DOORBELL moves its queue's tail to the count written and nothing else; ADMDB sets up the
administrative queue from legal registers while nothing is unread. REGISTER_WRITE changes one register the host may write;
HOST_BAR2_ACCESS leaves its bytes at the window's base; BOOT_IMAGE_WRITE changes the window only while IDLE. BOOTSTAT_GO of an
IDLE boot logic fails with the first cause of header, length, signature and version, memory untouched, or is copied into both
dies' control-complex memory and runs with the toll at 0. ATTESTATION_REQUEST signs a report of a live context with the next
index, or reports NOCTX or EXHAUSTED, no report changing. GOVERNOR_BUDGET_UPDATE sets a legal budget. RESET, THERMAL_TRIP and
POWER_LOSS leave no context, team, queue or operation; the index never falls, and POWER_LOSS leaves no byte of the device's
memory. -/
def Obligations.TheHostBootsWritesAndResets : Prop :=
  (∀ (n : Nat) (tail : DWord) (s : State) (q : Queue), amGet n s.queues = some q → n < 64 * 4096 →
    ∃ s' q', exec (.queueDoorbell n tail) s = .next s' ∧ s' = { s with queues := s'.queues, hist := s'.hist } ∧
      amGet n s'.queues = some q' ∧ q' = { q with tail := q'.tail } ∧ q'.head ≤ q'.tail ∧ q'.tail < q.head + 2 ^ 32 ∧
      q'.tail % 2 ^ 32 = tail.toNat % 2 ^ 32 ∧ ∀ k, k ≠ n → amGet k s'.queues = amGet k s.queues) ∧
  (∀ (n : Nat) (tail : DWord) (s : State), amGet n s.queues = none → ∃ s', exec (.queueDoorbell n tail) s = .next s' ∧
    ∀ k, amGet k s'.queues = amGet k s.queues) ∧
  (∀ (tail : DWord) (s : State),
    let base := smGet 0 0x1F0000 s.bar0
    let len := (smGet 0 0x1F0008 s.bar0).toNat
    let stat := smGet 0 0x1F0010 s.bar0
    let legal := s.boot.state = 2 ∧ isPow2 len 2 65536 = true ∧ base.toNat % 64 = 0 ∧ stat.toNat % 64 = 0 ∧
      queueMemory base.toNat len stat.toNat = true
    (¬ legal → exec (.admdb tail) s = .next s) ∧
    (legal → ∃ s' q', exec (.admdb tail) s = .next s' ∧ amGet (64 * 4096) s'.queues = some q' ∧
      (amGet (64 * 4096) s.queues = none → q' = { freshQueue base len stat 3 4096 with tail := tail.toNat % 2 ^ 32 } ∧
        SameMemoryBut stat.toNat 64 s s' ∧
        (meetsTables s stat.toNat 64 = false → rdNat s' stat.toNat 8 = 0 ∧ rdNat s' (stat.toNat + 8) 8 = 0)) ∧
      (∀ q, amGet (64 * 4096) s.queues = some q → SameMemory s s' ∧
        q' = (if q.head = q.tail then { q with base := base, len := len, stat := stat, tail := q'.tail } else { q with tail := q'.tail }) ∧
        q'.tail % 2 ^ 32 = tail.toNat % 2 ^ 32 ∧ q.head ≤ q'.tail))) ∧
  (∀ (offset : Nat) (v : DWord) (s : State),
    (plainRegister offset = false → exec (.registerWrite offset v) s = .next s) ∧
    (plainRegister offset = true → ∃ s', exec (.registerWrite offset v) s = .next s' ∧
      s' = { s with bar0 := s'.bar0, rings := s'.rings, outgoing := s'.outgoing, agentFaults := s'.agentFaults, ops := s'.ops,
                    phases := s'.phases } ∧
      (∀ k, smGet 0 k s'.bar0 = if k = offset then fieldsOf offset v else smGet 0 k s.bar0) ∧
      (offset < 0x400000 ∨ 0x4C0000 ≤ offset ∨ offset % 0x20 ≠ 8 ∨ 0x800 ≤ offset % 0x10000 → s' = { s with bar0 := s'.bar0 }) ∧
      (∀ port n, port < 12 → n < 64 → offset = 0x400000 + port * 0x10000 + 0x20 * n + 8 → amGet (port * 64 + n) s'.rings =
        (if bitsOf v 63 63 = 1 then some { taken := 0, held := [] } else none) ∧
        (∀ o, o ∈ s'.outgoing → o.ring ≠ port * 64 + n) ∧ (∀ o ∈ s.outgoing, o.ring ≠ port * 64 + n → o ∈ s'.outgoing) ∧
        ∀ k x, amGet k s'.ops = some x → ∀ m, x.body ≠ .doorbell (port * 64 + n) m))) ∧
  (∀ (offset : Nat) (bs : List Byte) (s : State), exec (.hostBar2Access offset none) s = .next s ∧
    (offset + bs.length ≤ 2 ^ 36 → bar2Base s + offset + bs.length ≤ 2 ^ 40 →
      ∃ s', exec (.hostBar2Access offset (some bs)) s = .next s' ∧ rdBytes s' (bar2Base s + offset) bs.length = bs ∧
        SameMemoryBut (bar2Base s + offset) bs.length s s') ∧
    (2 ^ 36 < offset + bs.length ∨ 2 ^ 40 < bar2Base s + offset + bs.length →
      exec (.hostBar2Access offset (some bs)) s = .next s) ∧
    (s.boot.state ≠ 0 → exec (.bootImageWrite offset bs) s = .next s) ∧
    (s.boot.state = 0 → offset + bs.length ≤ 2 ^ 26 → ∃ s', exec (.bootImageWrite offset bs) s = .next s' ∧
      s' = { s with boot := { s.boot with window := s'.boot.window } } ∧
      ∀ k, smGet 0 k s'.boot.window =
        if offset ≤ k ∧ k < offset + bs.length then nth 0 bs (k - offset) else smGet 0 k s.boot.window)) ∧
  (∀ (s : State),
    let h := imageBytes s 0 64
    let len := field h 8 8
    let header := field h 0 4 = 0x5A4F4C44 ∧ ∀ k, 16 ≤ k → k < 64 → smGet 0 k s.boot.window = 0
    let length := len % 64 = 0 ∧ 64 ≤ len ∧ len ≤ 2 ^ 26 - 2820
    let signed := imageVerifies (imageBytes s 0 len) (imageBytes s len 2820) = true
    let newer := Config.fusedMinver.toNat % 2 ^ 16 ≤ field h 6 2
    let fails := fun (c : Nat) => exec .bootstatGo s = .next { s with boot := { s.boot with state := 3, cause := c } }
    (s.boot.state ≠ 0 → exec .bootstatGo s = .next s) ∧
    (s.boot.state = 0 → (¬ header → fails 1) ∧ (header → ¬ length → fails 4) ∧ (header → length → ¬ signed → fails 2) ∧
      (header → length → signed → ¬ newer → fails 3) ∧
      (header → length → signed → newer → ∃ b, exec .bootstatGo s = .next { s with toll := 0, boot := b } ∧
        b = { s.boot with state := 2, version := b.version, digest := shake256 (imageBytes s 0 len),
                           control0 := imageBytes s 0 (len + 2820), control1 := imageBytes s 0 (len + 2820) } ∧
        b.version.toNat = field h 4 4))) ∧
  (∀ (ctx : Nat) (nonce : List Byte) (s : State),
    let ends := fun (st : Nat) => exec (.attestationRequest ctx nonce) s = .next { s with boot := { s.boot with mailStatus := st } }
    (s.boot.state ≠ 2 → exec (.attestationRequest ctx nonce) s = .next s) ∧
    (s.boot.state = 2 → 2 ^ 20 ≤ s.boot.index → ends 7) ∧
    (s.boot.state = 2 → s.boot.index < 2 ^ 20 → (∀ x, amGet ctx s.ctxs = some x → x.dying = true) → ends 6) ∧
    (∀ x, s.boot.state = 2 → s.boot.index < 2 ^ 20 → amGet ctx s.ctxs = some x → x.dying = false → ctx < 2 ^ 16 →
      ∃ b, exec (.attestationRequest ctx nonce) s = .next { s with boot := b } ∧
        b = { s.boot with mailStatus := 0, index := s.boot.index + 1, report := b.report } ∧ b.report.length = 88 + 2820 ∧
        field b.report 0 2 = ctx ∧ field b.report 2 1 = b2n x.debuggable + 2 * b2n x.secure + 4 * b2n x.preemptible ∧
        field b.report 8 4 = s.boot.version.toNat ∧ (nonce.length = 32 → (b.report.drop 48).take 32 = nonce) ∧
        field b.report 80 8 = s.toll % 2 ^ 64 ∧ (b.report.drop 88).take 4 = (natBytes 4 s.boot.index).reverse ∧
        b.report.drop 88 = signature s.boot.index (b.report.take 88) ∧
        (s.boot.digest.length = 32 → (b.report.drop 16).take 32 = s.boot.digest))) ∧
  (∀ (cluster : Nat) (budget : Half) (s : State), exec (.governorBudgetUpdate cluster budget) s = .next
    (if 95 < cluster ∨ budget.toNat < 1024 then s
     else { s with gov := amPut cluster { (amGet cluster s.gov).getD Gov.idle with budget := budget.toNat } s.gov })) ∧
  (∀ (skip : Nat) (s : State), s.boot.index ≤ 2 ^ 20 →
    ∀ ins ∈ [Instr.reset, .thermalTrip, .powerLoss skip], ∃ s', exec ins s = .next s' ∧
      s'.ctxs = [] ∧ s'.units = [] ∧ s'.teams = [] ∧ s'.frags = [] ∧ s'.queues = [] ∧ s'.ops = [] ∧ s'.crls = [] ∧ s'.tlb = [] ∧
      s.boot.index ≤ s'.boot.index ∧ s'.boot.index ≤ s.boot.index + 1 ∧ s'.inputs = s.inputs ∧
      s'.boot.state = (if ins = .thermalTrip then 4 else 0) ∧ (ins = .reset → s'.boot = Boot.idle s.boot.index) ∧
      (ins ≠ .powerLoss skip → ∀ a, a < 2 ^ 48 → rdByte s' a = rdByte s a) ∧
      (ins = .powerLoss skip → (∀ a, a < 2 ^ 40 → rdByte s' a = 0) ∧ ∀ a, 2 ^ 40 ≤ a → a < 2 ^ 48 → rdByte s' a = rdByte s a))

/-- A step runs one of the machine's choices; a fragment's pass is exec of the instruction that the halfwords at its PC decode to.
Which choice is taken, how time passes and what a word that cannot run comes to are as log entries 1, 6, 45, 46, 82, 90 and 91
choose, and so are FETCH_FAULT's HPC and HADDR where R125 leaves them open. A step runs a fragment that has reached a header, if
there is one; else one of the choices, of those that press if some have waited too long, with nothing selected after it and the
toll no smaller, nor past an armed TSTOP; with none only time passes. A fragment chosen is the first in R102's order of its
core's that can issue. Its pass is exec of the latched instruction if passes are outstanding; else of the instruction decoded
from its halfwords, little-endian, as memory holds them, if a header or within its clause; of FETCH_FAULT ILLEGAL-TARGET where a
transfer reaches another instruction, or its target lies outside the addresses; else of ILLEGAL_INSTRUCTION. A
microinstruction's choice is exec of its decoded word, ILLEGAL_OP or PC_RANGE; an event, of the event. ILLEGAL_INSTRUCTION and
FETCH_FAULT raise the traps of R63, R75 and R83, or wait for the page, HADDR 0 for sequential fetch. -/
def Obligations.AStepRunsTheDecodedInstruction : Prop :=
  (∀ s, headerNext s = none → choices s = [] → step s = .next (passTime s)) ∧
  (∀ s,
    let ran := fun (u : State) (o : Host.Outcome State Fault Refusal) => match showLogs u o with
      | .next v => Host.Outcome.next (passTime (noteClear s { v with cur := none, curCrl := none }))
      | .fault x => .fault x
      | .refused x => .refused x
    (∀ i, headerNext s = some i → step s = ran s (runChoice s (.frag i)) ∧ ∃ f, (i, f) ∈ s.frags ∧ atHeader s i f = true) ∧
    (∀ c cs, headerNext s = none → choices s = c :: cs → ∃ d n k w, d ∈ pressing s (c :: cs) ∧ d ∈ c :: cs ∧
      let u : State := { s with free := n, turn := k, waiting := w }
      step s = ran u (runChoice u d))) ∧
  (∀ s, s.toll ≤ (passTime s).toll ∧ (∃ t n, passTime s = { s with toll := t, free := n }) ∧
    (bitsOf s.tstop 63 63 = 1 → s.toll ≤ bitsOf s.tstop 62 0 → (passTime s).toll ≤ bitsOf s.tstop 62 0)) ∧
  (∀ (s : State) (ins : Instr) (rest : List Instr), runChoice s (.event ins) = exec ins s ∧
    runChoice s (.input ins rest) = exec ins { s with inputs := rest }) ∧
  (∀ (s : State) (core i : Nat), amSorted s.frags = true → coreChoice s core = some i →
    ∃ f t, amGet i s.frags = some f ∧ amGet f.team s.teams = some t ∧ t.gcore = core ∧ issuable s f = true ∧ stalled s i = false ∧
      kregLate s i f = false ∧ ∀ j g u, amGet j s.frags = some g → amGet g.team s.teams = some u → u.gcore = core → issuable s g = true → stalled s j = false →
        f.mid = true ∨ goesBefore s (i, f) (j, g) = true) ∧
  (∀ (s s1 s2 : State) (i w h k : Nat) (f : Frag) (t : Team) (u : UnitSt) (e : FetchFault), amGet i s.frags = some f →
    amGet f.team s.teams = some t → amGet t.unit s.units = some u →
    let latch := fun (s : State) => { s with frags := amMod i (fun f => { f with iword := BitVec.ofNat 32 w }) s.frags, cur := some i }
    let one := if w % 2 = 0 then decode16 w else decode32 w
    (fetchHalf t u f.pc s = (.half h, s1) → h % 2 = 0 → fetchWord t u f.pc s = (.ok h, s1)) ∧
    (fetchHalf t u f.pc s = (.half h, s1) → h % 2 = 1 → f.pc.toNat + 2 < 2 ^ 64 → fetchHalf t u (f.pc + 2) s1 = (.half k, s2) →
      fetchWord t u f.pc s = (.ok (h + 2 ^ 16 * k), s2)) ∧
    (fetchHalf t u f.pc s = (.half h, s1) → h % 2 = 1 → 2 ^ 64 ≤ f.pc.toNat + 2 → fetchWord t u f.pc s = (.error (.target f.pc), s1)) ∧
    (f.mid = false → f.beyond = true → runChoice s (.frag i) = exec (.fetchFault (.target f.pc)) { s with cur := some i }) ∧
    (f.mid = false → f.beyond = false → fetchWord t u f.pc s = (.error e, s1) →
      runChoice s (.frag i) = exec (.fetchFault e) { s1 with cur := some i }) ∧
    (f.mid = false → f.beyond = false → fetchWord t u f.pc s = (.ok w, s1) →
      (∀ ins, one = .ok ins →
        (isHeader ins = true ∨ f.xfer = none ∧ (f.pc - f.clause.hdr).toNat + (if w % 2 = 0 then 2 else 4) ≤ 256 →
          runChoice s (.frag i) = exec ins (latch s1)) ∧
        (isHeader ins = false → f.xfer ≠ none → runChoice s (.frag i) = exec (.fetchFault (.noHeader f.pc)) (latch s1)) ∧
        (isHeader ins = false → f.xfer = none → 256 < (f.pc - f.clause.hdr).toNat + (if w % 2 = 0 then 2 else 4) →
          runChoice s (.frag i) = exec (.illegalInstruction (BitVec.ofNat 32 w)) (latch s1))) ∧
      (∀ x, one = .error x → runChoice s (.frag i) = exec (.illegalInstruction (BitVec.ofNat 32 w)) (latch s1))) ∧
    (f.mid = true → ∀ ins, f.iword.toNat % 2 = 1 → decode32 f.iword.toNat = .ok ins → isHeader ins = false → f.xfer = none →
      (f.pc - f.clause.hdr).toNat + 4 ≤ 256 → runChoice s (.frag i) = exec ins { s with cur := some i })) ∧
  (∀ (s s1 : State) (t : Team) (u : UnitSt) (a e : DWord) (pa : Nat), canonical a.toNat = true → a.toNat % 2 = 0 → aperture a.toNat = 0 →
    translate u.ctx t.gcore a.toNat needFetch s = (.page pa e, s1) → (∀ w ∈ s1.hist, w.meets pa 2 = false) →
    ∃ s2, fetchHalf t u a s = (.half (rdNat s1 pa 2), s2) ∧ s2.mem = s1.mem ∧ s2.frags = s1.frags ∧ s2.teams = s1.teams) ∧
  (∀ (s : State) (n : Nat) (c : Crl), amGet n s.crls = some c →
    let prog := smGet [] (n / 4096 * 16 + c.prog) s.progs
    runChoice s (.micro n) = exec (if prog.length ≤ c.pc then .pcRange else match decodeCarillon (nth 0 prog c.pc).toNat with
      | .ok ins => ins
      | .error _ => .illegalOp (nth 0 prog c.pc)) { s with curCrl := some n }) ∧
  (∀ (s : State) (i : Nat) (f : Frag) (t : Team) (u : UnitSt) (w : Word) (a : DWord) (st : Byte), current s = some (i, f, t) →
    amGet t.unit s.units = some u →
    let from_ := if a = f.pc then f.xfer.getD 0 else 0
    exec (.illegalInstruction w) s = .next (trapHere i f false 0x01 f.pc 0 (dw w.toNat) false s) ∧
    exec (.fetchFault (.target a)) s = .next (trapHere i f false 0x03 a from_ 0 true s) ∧
    exec (.fetchFault (.noHeader a)) s = .next (trapHere i f false 0x03 a (f.xfer.getD 0) 0 false s) ∧
    exec (.fetchFault (.fetch a st)) s = .next (trapHere i f false 0x13 a a (dw st.toNat) true s) ∧
    exec (.fetchFault (.world a)) s = .next (trapHere i f false 0x11 f.pc a (accessInfo 3 false false true 0) true s) ∧
    ∃ s', exec (.fetchFault (.await a)) s = .next s' ∧ SameMemory s s' ∧ ∃ f', amGet i s'.frags = some f' ∧ f'.pc = f.pc ∧
      f'.mask = f.mask)

/-- The words that the spec writes out decode to the instructions it writes them for. The spec's own example words, of every kind of
format: FADD d3, d3, d7 (16 bits), FMA.2, FMUL, SQRT, RND, DSET, DFOLD.L, BRA, CLAUSE, EXIT, RCV, XPS, RNG.KEY, RNG.POS.ADD,
MMA, DMMA, MMAQ.D, MFEN, MCOMMIT, MWAIT, MDRAIN.ROWS, MACC.ZERO, SVC 1, TILE.QUERY, TILE.PIN and CRL.POST, and the Carillon's
CDRAW c3, n0, WAITC 2 and HALT; and the FMA.2 word with d = 9, not a multiple of its width, is refused by name. -/
def Obligations.SpecWordsDecode : Prop :=
  decode16 0x1C72 = .ok (.fadd16 3 7) ∧
  decode32 0x1442213D = .ok (.fma 1 8 2 1 20 0) ∧ decode32 0x1442253D = .error .fieldRange ∧
  decode32 0x0605143B = .ok (.fmul 0 5 5 0 6 0) ∧ decode32 0x0202184B = .ok (.sqrt 0 6 2 0) ∧
  decode32 0x08030C4D = .ok (.rnd 0 3 3 0 8) ∧ decode32 0x01001061 = .ok (.dset 0 4 0 0 1 0) ∧
  decode32 0x0202286D = .ok (.dfoldL 0 10 2 0) ∧ decode32 0x000003D1 = .ok (.bra 3) ∧ decode32 0x000000DD = .ok .exit ∧
  decode32 0x000000D7 = .ok .rcv ∧ decode32 0x108010EB = .ok (.xps 1 2 2) ∧ decode32 0x000000A1 = .ok (.rngKey 0 0 0) ∧
  decode32 0x000C31AF = .ok (.rngPosAdd 3 6) ∧ decode32 0xDE8000C1 = .ok (.mma 0 0 26 27) ∧ decode32 0x20D014C3 = .ok (.dmma 5 2 3 4) ∧
  decode32 0x398801C5 = .ok (.mmaqD 0 1 6 7) ∧ decode32 0x000000C7 = .ok .mfen ∧ decode32 0x000000C9 = .ok (.mcommit 0) ∧
  decode32 0x000130CB = .ok (.mwait 19) ∧ decode32 0x3E8000CD = .ok (.mdrainRows 0 0 26 7) ∧ decode32 0x000014CF = .ok (.maccZero 5 0) ∧
  decode32 0x004001F7 = .ok .svcPoolmap ∧ decode32 0x0300D1BB = .ok (.tileQuery 13 12) ∧ decode32 0x090090BB = .ok (.tilePin 9 4 1) ∧
  decode32 0x21EB40BD = .ok (.crlPost 20 21 7 4) ∧
  decodeCarillon 0x44C00000 = .ok (.cdraw 0 3) ∧ decodeCarillon 0x50000002 = .ok (.waitc 2) ∧ decodeCarillon 0 = .ok .halt

/-- Every well-formed instruction decodes from its encoding, and every word that decodes is the encoding of what it decodes to. For
every well-formed instruction with a 16-bit or 32-bit word, with every operand at every value its field admits: its bytes, with
any bytes after them, decode to it and leave those bytes; for every well-formed microinstruction, its word decodes to it. And
each word, of the sequencer's two lengths or the Carillon's, that decodes at all is the encoding of the instruction it decodes
to, which is well formed and of that length: no bit is dropped, and no reserved encoding falls through to a neighbour. -/
def Obligations.DecodeAndEncodeAgree : Prop :=
  (∀ (i : Instr) (rest : List Byte), i.wf = true → i.form = .half ∨ i.form = .word →
    decode (encodeBytes i ++ rest) = .ok (i, rest)) ∧
  (∀ (i : Instr), i.wf = true → i.form = .micro → decodeCarillon (encode i) = .ok i) ∧
  (∀ (w : Nat) (i : Instr), w < 2 ^ 16 → w % 2 = 0 → decode16 w = .ok i → encode i = w ∧ i.form = .half ∧ i.wf = true) ∧
  (∀ (w : Nat) (i : Instr), w < 2 ^ 32 → decode32 w = .ok i → encode i = w ∧ i.form = .word ∧ i.wf = true) ∧
  (∀ (w : Nat) (i : Instr), w < 2 ^ 32 → decodeCarillon w = .ok i → encode i = w ∧ i.form = .micro ∧ i.wf = true)

/-- Every step of the machine keeps memory in its one canonical form. In any state whose memory is in canonical form (addresses
strictly rise, and no listed byte equals 0, what an unlisted address reads as), whatever the machine does next, a step that
answers a next state leaves memory in canonical form: equal memories stay equal data. So does every instruction, event and
command by itself, in any such state. -/
def Obligations.MemoryKeepsItsForm : Prop :=
  (∀ (i : Instr) (s s' : State), Memory.wf s.mem = true → exec i s = .next s' → Memory.wf s'.mem = true) ∧
  (∀ (s s' : State), Memory.wf s.mem = true → step s = .next s' → Memory.wf s'.mem = true)

/-- Every step keeps teams and units under numbers already given out, and launches and fragments in the order of theirs. In any
state in which every unit and every team has a number below the next to be given out, every team names a unit so numbered, and
launches and fragments are listed in rising order of their numbers, a step that answers a next state leaves a state with the
same. The premise InOrder of the statements on placement, cancels and debug stops therefore holds in every state that a run from
reset reaches. -/
def Obligations.NumbersStayInOrder : Prop :=
  ∀ (s s' : State), InOrder s → step s = .next s' → InOrder s'

/-- After reset there is no context, work or listed memory, the boot logic is IDLE, the toll is 0, and nothing runs until it boots.
State.reset holds no context, queue, launch, unit, team, fragment, operation, Carillon context, translation, merge entry, tile
or ring; memory lists nothing and is in canonical form; the toll is 0, TSTOP is 0 and nothing is gated; BOOTSTAT reads IDLE
without cause or version, its MINVER the fused one; every register of the host's pages reads 0; the numbers are in order. It
does nothing by itself: with no input its only steps let nothing change. Memory listing nothing, and the registers of the pages
for which the spec states no reset value reading 0, are the model's choice (notes/assumptions 4 and 40). -/
def Obligations.ResetLeavesNoWork : Prop :=
  Memory.wf State.reset.mem = true ∧ (∀ a, rdByte State.reset a = 0) ∧ InOrder State.reset ∧
  State.reset.ctxs = [] ∧ State.reset.queues = [] ∧ State.reset.launches = [] ∧ State.reset.units = [] ∧ State.reset.teams = [] ∧
  State.reset.frags = [] ∧ State.reset.ops = [] ∧ State.reset.crls = [] ∧ State.reset.tlb = [] ∧ State.reset.merge = [] ∧
  State.reset.tiles = [] ∧ State.reset.rings = [] ∧ State.reset.phases = [] ∧ State.reset.toll = 0 ∧ State.reset.tstop = 0 ∧
  State.reset.gated = false ∧ (∀ k, smGet 0 k State.reset.bar0 = 0) ∧
  State.reset.boot.state = 0 ∧ State.reset.boot.cause = 0 ∧ State.reset.boot.version = 0 ∧
  bootstat State.reset = dw (Config.fusedMinver.toNat % 2 ^ 16 * 2 ^ 40) ∧
  choices State.reset = [] ∧ step State.reset = .next State.reset

/-- The signing index never falls or passes 2^20, each report takes the next one, and none is left for an exhausted device. With the
index at most 2^20, whatever instruction, event or command runs, the index does not fall and stays at most 2^20; a report that
is new after it carries the index as it was and leaves it one higher, so no index signs twice; POWER_LOSS keeps the index or
skips one. A request with no index left only reports EXHAUSTED; one for a live context with an index left is answered. A step
never lets the index fall. -/
def Obligations.SigningIndicesAreUsedOnce : Prop :=
  (∀ (i : Instr) (s s' : State), s.boot.index ≤ 2 ^ 20 → exec i s = .next s' →
    s.boot.index ≤ s'.boot.index ∧ s'.boot.index ≤ 2 ^ 20 ∧
    (s'.boot.report ≠ s.boot.report → s'.boot.report ≠ [] → s.boot.index < 2 ^ 20 ∧ s'.boot.index = s.boot.index + 1 ∧
      (s'.boot.report.drop 88).take 4 = (natBytes 4 s.boot.index).reverse)) ∧
  (∀ (s s' : State), s.boot.index ≤ 2 ^ 20 → step s = .next s' → s.boot.index ≤ s'.boot.index ∧ s'.boot.index ≤ 2 ^ 20) ∧
  (∀ (skip : Nat) (s s' : State), s.boot.index < 2 ^ 20 → exec (.powerLoss skip) s = .next s' →
    s'.boot.index = s.boot.index ∨ s'.boot.index = s.boot.index + 1) ∧
  (∀ (ctx : Nat) (nonce : List Byte) (s : State), s.boot.state = 2 →
    (2 ^ 20 ≤ s.boot.index → exec (.attestationRequest ctx nonce) s = .next { s with boot := { s.boot with mailStatus := 7 } }) ∧
    (∀ x, s.boot.index < 2 ^ 20 → amGet ctx s.ctxs = some x → x.dying = false →
      ∃ b, exec (.attestationRequest ctx nonce) s = .next { s with boot := b } ∧ b.mailStatus = 0 ∧ b.index = s.boot.index + 1 ∧
        (b.report.drop 88).take 4 = (natBytes 4 s.boot.index).reverse))
end

