-- ==== Sys2Proof/Laws/Frames.lean ====
section
/-! SUPPORT. Free frames: which one the memory manager draws is open, but one is found wherever the area holds more than are in use. -/

namespace Sys2Proof.Machine

open Sys2Proof

/-- A list without repeats is no longer than one that holds all of it. -/
theorem length_le_of_nodup {l m : List Nat} (hd : l.Nodup) (h : ∀ x ∈ l, x ∈ m) : l.length ≤ m.length := by
  induction l generalizing m with
  | nil => exact Nat.zero_le _
  | cons x l ih =>
    have hx := List.nodup_cons.mp hd
    have hm : x ∈ m := h x (.head _)
    have := ih (m := m.erase x) hx.2 (fun y hy => (List.mem_erase_of_ne (fun e => by rw [e] at hy; exact hx.1 hy)).mpr (h y (.tail _ hy)))
    rw [List.length_erase_of_mem hm] at this
    have := List.length_pos_of_mem hm
    simp only [List.length_cons]
    omega

/-- Taking repeats out makes no list longer. -/
theorem length_eraseDups (n : Nat) : ∀ l : List Nat, l.length ≤ n → l.eraseDups.length ≤ l.length := by
  induction n with
  | zero => intro l h; rw [List.length_eq_zero_iff.mp (Nat.le_zero.mp h)]; exact Nat.le_refl _
  | succ n ih =>
    intro l h
    match l with
    | [] => exact Nat.le_refl _
    | a :: as =>
      rw [List.eraseDups_cons]
      have hf := List.length_filter_le (fun b => !b == a) as
      have := ih (as.filter (fun b => !b == a)) (by simp only [List.length_cons] at h; omega)
      simp only [List.length_cons]
      omega

/-- Where probing finds nothing, all that it has looked at is in use. -/
theorem probeFrame_none {used : List Nat} {die : Nat} {area : Nat × Nat} : ∀ {n start : Nat}, probeFrame used die area start n = none →
    ∀ k, k < n → die * 2 ^ 23 + (area.1 + (start + k) % area.2) % 2 ^ 23 ∈ used
  | 0, _, _, _, hk => absurd hk (Nat.not_lt_zero _)
  | n + 1, start, h, k, hk => by
    simp only [probeFrame] at h
    split at h
    · rename_i hu
      cases k with
      | zero => exact List.contains_iff_mem.mp hu
      | succ k =>
        rw [show start + (k + 1) = start + 1 + k by omega]
        exact probeFrame_none h k (by omega)
    · cases h

theorem frameArea_le (die : Nat) (secure : Bool) : (frameArea die secure).2 ≤ 2 ^ 23 := by
  cases secure <;> simp only [frameArea, if_true, Bool.false_eq_true, if_false] <;> omega

/-- A frame is found wherever fewer frames are in use than the area has; the machine only draws. -/
theorem freeFrame_some {die : Nat} {secure : Bool} {s : State} (h : (usedFrames s).length < (frameArea die secure).2) :
    ∃ f, freeFrame die secure s = some (f, (draw s).2) := by
  have hn : noFrame s die secure = false := by
    rw [noFrame, decide_eq_false_iff_not]
    have := List.length_filter_le (fun f => decide (f / 2 ^ 23 = die) && secureFrame f == secure) (usedFrames s).eraseDups
    have := length_eraseDups _ (usedFrames s) (Nat.le_refl _)
    omega
  have hu : usedFrames (draw s).2 = usedFrames s := rfl
  simp only [freeFrame, hn, hu]
  cases hp : probeFrame (usedFrames s) die (frameArea die secure) (draw s).1 ((usedFrames s).length + 1) with
  | some f => exact ⟨f, by simp⟩
  | none =>
    exfalso
    have hm := frameArea_le die secure
    have := length_le_of_nodup (m := usedFrames s)
      (l := (List.range ((usedFrames s).length + 1)).map (fun k => die * 2 ^ 23 + ((frameArea die secure).1 + ((draw s).1 + k) % (frameArea die secure).2) % 2 ^ 23))
      (List.pairwise_map.mpr ((List.Pairwise.and_mem.mp List.nodup_range).imp (fun {x y} hxy he => by
        have hx := List.mem_range.mp hxy.1
        have hy := List.mem_range.mp hxy.2.1
        have hlx := Nat.mod_lt ((draw s).1 + x) (show 0 < (frameArea die secure).2 by omega)
        have hly := Nat.mod_lt ((draw s).1 + y) (show 0 < (frameArea die secure).2 by omega)
        have hmod : ((draw s).1 + x) % (frameArea die secure).2 = ((draw s).1 + y) % (frameArea die secure).2 := by omega
        have h1 := Nat.sub_mod_eq_zero_of_mod_eq hmod
        have h2 := Nat.sub_mod_eq_zero_of_mod_eq hmod.symm
        rw [Nat.add_sub_add_left, Nat.mod_eq_of_lt (by omega)] at h1 h2
        exact hxy.2.2 (by omega)))) (by
      intro f hf
      obtain ⟨k, hk, rfl⟩ := List.mem_map.mp hf
      exact probeFrame_none hp k (List.mem_range.mp hk))
    rw [List.length_map, List.length_range] at this
    omega

end Sys2Proof.Machine
end

