-- ==== Sys2Proof/Laws/Maps.lean ====
section
/-! SUPPORT. What the finite maps and small lists answer: reads after writes, and the canonical form kept. -/

namespace Sys2Proof.Machine

variable {α : Type}

theorem amGet_amPut (k j : Nat) (v : α) (m : AMap α) : amGet k (amPut j v m) = if k = j then some v else amGet k m := by
  induction m with
  | nil => grind [amPut, amGet]
  | cons e m ih => grind [amPut, amGet]

theorem amGet_amPut_self (k : Nat) (v : α) (m : AMap α) : amGet k (amPut k v m) = some v := by simp [amGet_amPut]

theorem amGet_amPut_ne {k j : Nat} (h : k ≠ j) (v : α) (m : AMap α) : amGet k (amPut j v m) = amGet k m := by
  simp [amGet_amPut, h]

theorem amGet_amDel (k j : Nat) (m : AMap α) : amGet k (amDel j m) = if k = j then none else amGet k m := by
  induction m with
  | nil => grind [amDel, amGet]
  | cons e m ih => grind [amDel, amGet]

theorem amGet_amMod (k j : Nat) (f : α → α) (m : AMap α) :
    amGet k (amMod j f m) = if k = j then (amGet k m).map f else amGet k m := by
  induction m with
  | nil => grind [amMod, amGet]
  | cons e m ih => grind [amMod, amGet]

theorem amGet_amMod_self {k : Nat} {f : α → α} {m : AMap α} {v : α} (h : amGet k m = some v) : amGet k (amMod k f m) = some (f v) := by
  simp [amGet_amMod, h]

theorem amGet_amMod_ne {k j : Nat} (h : k ≠ j) (f : α → α) (m : AMap α) : amGet k (amMod j f m) = amGet k m := by
  simp [amGet_amMod, h]

/-- Putting back what an entry holds, changed, is changing the entry. -/
theorem smGet_smPut [DecidableEq α] (z : α) (k j : Nat) (v : α) (m : AMap α) :
    smGet z k (smPut z j v m) = if k = j then v else smGet z k m := by
  unfold smGet smPut
  split
  · by_cases h : k = j <;> simp_all [amGet_amDel]
  · by_cases h : k = j <;> simp_all [amGet_amPut]

theorem smGet_nil (z : α) (k : Nat) : smGet z k [] = z := rfl

/-- Every key of the map is above n. -/
def above (n : Nat) (m : AMap α) : Prop := ∀ e ∈ m, n < e.1

theorem amSorted_cons {i : Nat} {v : α} {m : AMap α} : amSorted ((i, v) :: m) = true ↔ above i m ∧ amSorted m = true := by
  induction m generalizing i v with
  | nil => simp [amSorted, above]
  | cons e m ih =>
    obtain ⟨j, w⟩ := e
    simp only [amSorted, Bool.and_eq_true, decide_eq_true_eq, ih (i := j) (v := w)]
    constructor
    · rintro ⟨h, ha, hs⟩
      refine ⟨?_, ha, hs⟩
      intro x hx
      rcases List.mem_cons.1 hx with rfl | hx
      · exact h
      · exact Nat.lt_trans h (ha x hx)
    · rintro ⟨h, ha, hs⟩
      exact ⟨h (j, w) (by simp), ha, hs⟩

theorem mem_amPut {k : Nat} {v : α} {m : AMap α} {e : Nat × α} (h : e ∈ amPut k v m) : e = (k, v) ∨ e ∈ m := by
  induction m with
  | nil => exact .inl (List.mem_singleton.1 h)
  | cons x m ih => grind [amPut]

theorem amSorted_amPut (k : Nat) (v : α) {m : AMap α} (h : amSorted m = true) : amSorted (amPut k v m) = true := by
  induction m with
  | nil => rfl
  | cons e m ih =>
    obtain ⟨i, w⟩ := e
    obtain ⟨ha, hs⟩ := amSorted_cons.1 h
    by_cases hk : k < i
    · rw [show amPut k v ((i, w) :: m) = (k, v) :: (i, w) :: m from if_pos hk]
      exact amSorted_cons.2 ⟨fun x hx => (List.mem_cons.1 hx).elim (fun q => q ▸ hk) (fun q => Nat.lt_trans hk (ha x q)), h⟩
    · by_cases hq : i = k
      · rw [show amPut k v ((i, w) :: m) = (k, v) :: m by simp [amPut, hq]]
        exact amSorted_cons.2 ⟨hq ▸ ha, hs⟩
      · rw [show amPut k v ((i, w) :: m) = (i, w) :: amPut k v m by simp [amPut, hk, hq]]
        exact amSorted_cons.2 ⟨fun x hx => (mem_amPut hx).elim (fun q => q ▸ (by show i < k; omega)) (ha x), ih hs⟩

theorem amSorted_filter (p : Nat × α → Bool) {m : AMap α} (h : amSorted m = true) : amSorted (m.filter p) = true := by
  induction m with
  | nil => rfl
  | cons e m ih =>
    obtain ⟨i, w⟩ := e
    obtain ⟨ha, hs⟩ := amSorted_cons.1 h
    by_cases hp : p (i, w) = true
    · simp only [List.filter, hp]
      exact amSorted_cons.2 ⟨fun x hx => ha x (List.mem_filter.1 hx).1, ih hs⟩
    · simp only [List.filter, hp]
      exact ih hs

theorem amSorted_amDel (k : Nat) {m : AMap α} (h : amSorted m = true) : amSorted (amDel k m) = true := amSorted_filter _ h

theorem amSorted_smPut [DecidableEq α] (z : α) (k : Nat) (v : α) {m : AMap α} (h : amSorted m = true) :
    amSorted (smPut z k v m) = true := by
  unfold smPut
  split
  · exact amSorted_amDel k h
  · exact amSorted_amPut k v h

/-- A written map lists nothing that equals what an unlisted entry reads as. -/
theorem mem_smPut [DecidableEq α] {z : α} {k : Nat} {v : α} {m : AMap α} {e : Nat × α} (h : e ∈ smPut z k v m) :
    e.2 ≠ z ∨ e ∈ m := by
  unfold smPut at h
  split at h
  · exact .inr (List.mem_filter.1 h).1
  · rename_i hv
    rcases mem_amPut h with rfl | h
    · exact .inl hv
    · exact .inr h

theorem mem_upFrom {x lo n : Nat} : x ∈ upFrom lo n ↔ lo ≤ x ∧ x < lo + n := by
  induction n generalizing lo with
  | zero => simp [upFrom]
  | succ n ih => simp only [upFrom, List.mem_cons, ih]; omega

theorem length_upFrom (lo n : Nat) : (upFrom lo n).length = n := by
  induction n generalizing lo with
  | zero => rfl
  | succ n ih => simp [upFrom, ih]

end Sys2Proof.Machine
end

