-- ==== Sys2Proof/Laws/Memory.lean ====
section
/-! SUPPORT. Memory's operations: what is read after them, and that they keep its canonical form. -/

namespace Sys2Proof.Machine

theorem Memory.wf_nil : Memory.wf [] = true := rfl

theorem Memory.wf_iff {m : List Host.Cell} : Memory.wf m = true ↔ amSorted m = true ∧ ∀ c ∈ m, c.2 ≠ 0 := by
  simp [Memory.wf]

theorem Memory.wf_smPut (a : Nat) (b : Byte) {m : List Host.Cell} (h : Memory.wf m = true) :
    Memory.wf (smPut 0 a b m) = true := by
  obtain ⟨hs, hz⟩ := Memory.wf_iff.1 h
  refine Memory.wf_iff.2 ⟨amSorted_smPut 0 a b hs, fun c hc => ?_⟩
  rcases mem_smPut hc with hc | hc
  · exact hc
  · exact hz c hc

theorem Memory.wf_filter (p : Host.Cell → Bool) {m : List Host.Cell} (h : Memory.wf m = true) : Memory.wf (m.filter p) = true := by
  obtain ⟨hs, hz⟩ := Memory.wf_iff.1 h
  exact Memory.wf_iff.2 ⟨amSorted_filter p hs, fun c hc => hz c (List.mem_filter.1 hc).1⟩

theorem Memory.wf_putBytes (a : Nat) (bs : List Byte) {m : List Host.Cell} (h : Memory.wf m = true) :
    Memory.wf (putBytes m a bs) = true := by
  induction bs generalizing m a with
  | nil => exact h
  | cons b bs ih => exact ih (a + 1) (Memory.wf_smPut a b h)

/-- A byte read after bytes are stored: one of those stored, or what was there. -/
theorem smGet_putBytes (x a : Nat) (bs : List Byte) (m : List Host.Cell) :
    smGet 0 x (putBytes m a bs) = if a ≤ x ∧ x < a + bs.length then nth 0 bs (x - a) else smGet 0 x m := by
  induction bs generalizing m a with
  | nil =>
    simp only [putBytes, List.length_nil, Nat.add_zero]
    rw [if_neg]; omega
  | cons b bs ih =>
    simp only [putBytes, ih, List.length_cons, smGet_smPut]
    by_cases h : a + 1 ≤ x
    · have hx : x - a = (x - (a + 1)) + 1 := by omega
      have hne : x ≠ a := by omega
      rw [hx]
      by_cases h2 : x < a + 1 + bs.length
      · rw [if_pos ⟨h, h2⟩, if_pos ⟨by omega, by omega⟩]; rfl
      · rw [if_neg (by omega)]
        simp only [hne, if_false]
        rw [if_neg (by omega)]
    · by_cases h2 : x = a
      · subst h2
        rw [if_neg (by omega), if_pos rfl, if_pos ⟨Nat.le_refl _, by omega⟩]
        simp [nth]
      · rw [if_neg (by omega), if_neg h2, if_neg (by omega)]

theorem rdByte_putBytes (s : State) (x a : Nat) (bs : List Byte) :
    rdByte { s with mem := putBytes s.mem a bs } x = if a ≤ x ∧ x < a + bs.length then nth 0 bs (x - a) else rdByte s x :=
  smGet_putBytes x a bs s.mem

theorem rdByte_writeMem (s : State) (agent x a : Nat) (bs : List Byte) :
    rdByte (writeMem agent a bs s) x = if a ≤ x ∧ x < a + bs.length then nth 0 bs (x - a) else rdByte s x :=
  smGet_putBytes x a bs s.mem

theorem rdByte_pokeBytes (s : State) (x a : Nat) (bs : List Byte) :
    rdByte (pokeBytes a bs s) x = if a ≤ x ∧ x < a + bs.length then nth 0 bs (x - a) else rdByte s x :=
  smGet_putBytes x a bs s.mem

theorem wf_writeMem (agent a : Nat) (bs : List Byte) {s : State} (h : Memory.wf s.mem = true) :
    Memory.wf (writeMem agent a bs s).mem = true := Memory.wf_putBytes a bs h

theorem wf_pokeBytes (a : Nat) (bs : List Byte) {s : State} (h : Memory.wf s.mem = true) :
    Memory.wf (pokeBytes a bs s).mem = true := Memory.wf_putBytes a bs h

theorem wf_pokeNat (a n v : Nat) {s : State} (h : Memory.wf s.mem = true) : Memory.wf (pokeNat a n v s).mem = true :=
  wf_pokeBytes a (natBytes n v) h

theorem wf_forgetRange (a n : Nat) {s : State} (h : Memory.wf s.mem = true) : Memory.wf (forgetRange a n s).mem = true := h

theorem wf_pokeAs (writer : Nat) (also rel : List Nat) (a : Nat) (bs : List Byte) {s : State} (h : Memory.wf s.mem = true) :
    Memory.wf (pokeAs writer also rel a bs s).mem = true := Memory.wf_putBytes a bs h

theorem wf_pokeHost (a : Nat) (bs : List Byte) {s : State} (h : Memory.wf s.mem = true) : Memory.wf (pokeHost a bs s).mem = true := by
  unfold pokeHost
  split
  · exact h
  · exact wf_pokeBytes a bs h

theorem wf_dbgWrite (secure : Bool) (a : Nat) (bs : List Byte) {s : State} (h : Memory.wf s.mem = true) :
    Memory.wf (dbgWrite secure a bs s).mem = true := by
  unfold dbgWrite
  split
  · exact h
  · exact wf_pokeBytes a bs h

theorem wf_writeRunsAs (agent : Nat) (sf : Option Nat) (whole : Bool) (runs : List (Nat × List Byte)) {s : State}
    (h : Memory.wf s.mem = true) : Memory.wf (writeRunsAs agent sf whole runs s).mem = true := by
  suffices ∀ t : State, Memory.wf t.mem = true → Memory.wf (runs.foldl (fun s r => { s with
      mem := putBytes s.mem r.1 r.2
      hist := { newWrite s.seq r.1 (rdBytes s r.1 r.2.length) agent with rel := sf.toList, sf := sf, whole := whole } :: s.hist }) t).mem = true from this s h
  induction runs with
  | nil => exact fun t ht => ht
  | cons r rs ih => exact fun t ht => ih _ (Memory.wf_putBytes r.1 r.2 ht)

theorem wf_writeRuns (agent : Nat) (sf : Option Nat) (runs : List (Nat × List Byte)) {s : State} (h : Memory.wf s.mem = true) :
    Memory.wf (writeRuns agent sf runs s).mem = true := wf_writeRunsAs agent sf false runs h

theorem wf_zeroRange (a n : Nat) {s : State} (h : Memory.wf s.mem = true) : Memory.wf (zeroRange a n s).mem = true :=
  Memory.wf_filter _ h

/-- Cells stored one by one, each at the place that g gives. -/
theorem Memory.wf_foldl_smPut (g : Host.Cell → Nat) (cs : List Host.Cell) {m : List Host.Cell} (h : Memory.wf m = true) :
    Memory.wf (cs.foldl (fun x c => smPut 0 (g c) c.2 x) m) = true := by
  induction cs generalizing m with
  | nil => exact h
  | cons c cs ih => exact ih (Memory.wf_smPut _ _ h)

theorem wf_copyRange (src dst n : Nat) {s : State} (h : Memory.wf s.mem = true) : Memory.wf (copyRange src dst n s).mem = true := by
  unfold copyRange
  generalize List.map _ _ = cs
  have : ∀ t : State, Memory.wf t.mem = true →
      Memory.wf (cs.foldl (fun s c => { s with mem := smPut 0 c.1 c.2 s.mem }) t).mem = true := by
    induction cs with
    | nil => exact fun _ ht => ht
    | cons c cs ih => exact fun t ht => ih _ (Memory.wf_smPut c.1 c.2 ht)
  exact this _ (wf_zeroRange dst n h)

theorem wf_moveFrame (a b : Nat) {s : State} (h : Memory.wf s.mem = true) : Memory.wf (moveFrame a b s).mem = true :=
  Memory.wf_foldl_smPut _ _ (Memory.wf_filter _ (wf_zeroRange (b * 2 ^ 16) (2 ^ 16) h))

end Sys2Proof.Machine
end

