-- ==== Sys2Proof/Laws/State.lean ====
section
/-! SUPPORT. What each field of the state is after each named update: one lemma a field, so that no proof unfolds an update. -/

namespace Sys2Proof.Machine

/-! ### setFrag -/

@[simp] theorem setFrag_cur (i : Nat) (f : Frag) (s : State) : (setFrag i f s).cur = s.cur := rfl
@[simp] theorem setFrag_curCrl (i : Nat) (f : Frag) (s : State) : (setFrag i f s).curCrl = s.curCrl := rfl
@[simp] theorem setFrag_free (i : Nat) (f : Frag) (s : State) : (setFrag i f s).free = s.free := rfl
@[simp] theorem setFrag_turn (i : Nat) (f : Frag) (s : State) : (setFrag i f s).turn = s.turn := rfl
@[simp] theorem setFrag_waiting (i : Nat) (f : Frag) (s : State) : (setFrag i f s).waiting = s.waiting := rfl
@[simp] theorem setFrag_seq (i : Nat) (f : Frag) (s : State) : (setFrag i f s).seq = s.seq := rfl
@[simp] theorem setFrag_toll (i : Nat) (f : Frag) (s : State) : (setFrag i f s).toll = s.toll := rfl
@[simp] theorem setFrag_mem (i : Nat) (f : Frag) (s : State) : (setFrag i f s).mem = s.mem := rfl
@[simp] theorem setFrag_full (i : Nat) (f : Frag) (s : State) : (setFrag i f s).full = s.full := rfl
@[simp] theorem setFrag_hist (i : Nat) (f : Frag) (s : State) : (setFrag i f s).hist = s.hist := rfl
@[simp] theorem setFrag_rels (i : Nat) (f : Frag) (s : State) : (setFrag i f s).rels = s.rels := rfl
@[simp] theorem setFrag_seen (i : Nat) (f : Frag) (s : State) : (setFrag i f s).seen = s.seen := rfl
@[simp] theorem setFrag_frags (i : Nat) (f : Frag) (s : State) : (setFrag i f s).frags = amPut i f s.frags := rfl
@[simp] theorem setFrag_teams (i : Nat) (f : Frag) (s : State) : (setFrag i f s).teams = s.teams := rfl
@[simp] theorem setFrag_units (i : Nat) (f : Frag) (s : State) : (setFrag i f s).units = s.units := rfl
@[simp] theorem setFrag_ctxs (i : Nat) (f : Frag) (s : State) : (setFrag i f s).ctxs = s.ctxs := rfl
@[simp] theorem setFrag_ops (i : Nat) (f : Frag) (s : State) : (setFrag i f s).ops = s.ops := rfl
@[simp] theorem setFrag_tlb (i : Nat) (f : Frag) (s : State) : (setFrag i f s).tlb = s.tlb := rfl
@[simp] theorem setFrag_walks (i : Nat) (f : Frag) (s : State) : (setFrag i f s).walks = s.walks := rfl
@[simp] theorem setFrag_merge (i : Nat) (f : Frag) (s : State) : (setFrag i f s).merge = s.merge := rfl
@[simp] theorem setFrag_tiles (i : Nat) (f : Frag) (s : State) : (setFrag i f s).tiles = s.tiles := rfl
@[simp] theorem setFrag_shoots (i : Nat) (f : Frag) (s : State) : (setFrag i f s).shoots = s.shoots := rfl
@[simp] theorem setFrag_issued (i : Nat) (f : Frag) (s : State) : (setFrag i f s).issued = s.issued := rfl
@[simp] theorem setFrag_division (i : Nat) (f : Frag) (s : State) : (setFrag i f s).division = s.division := rfl
@[simp] theorem setFrag_slices (i : Nat) (f : Frag) (s : State) : (setFrag i f s).slices = s.slices := rfl
@[simp] theorem setFrag_gov (i : Nat) (f : Frag) (s : State) : (setFrag i f s).gov = s.gov := rfl
@[simp] theorem setFrag_crls (i : Nat) (f : Frag) (s : State) : (setFrag i f s).crls = s.crls := rfl
@[simp] theorem setFrag_progs (i : Nat) (f : Frag) (s : State) : (setFrag i f s).progs = s.progs := rfl
@[simp] theorem setFrag_queues (i : Nat) (f : Frag) (s : State) : (setFrag i f s).queues = s.queues := rfl
@[simp] theorem setFrag_launches (i : Nat) (f : Frag) (s : State) : (setFrag i f s).launches = s.launches := rfl
@[simp] theorem setFrag_phases (i : Nat) (f : Frag) (s : State) : (setFrag i f s).phases = s.phases := rfl
@[simp] theorem setFrag_batch (i : Nat) (f : Frag) (s : State) : (setFrag i f s).batch = s.batch := rfl
@[simp] theorem setFrag_bar0 (i : Nat) (f : Frag) (s : State) : (setFrag i f s).bar0 = s.bar0 := rfl
@[simp] theorem setFrag_rings (i : Nat) (f : Frag) (s : State) : (setFrag i f s).rings = s.rings := rfl
@[simp] theorem setFrag_outgoing (i : Nat) (f : Frag) (s : State) : (setFrag i f s).outgoing = s.outgoing := rfl
@[simp] theorem setFrag_inbound (i : Nat) (f : Frag) (s : State) : (setFrag i f s).inbound = s.inbound := rfl
@[simp] theorem setFrag_replies (i : Nat) (f : Frag) (s : State) : (setFrag i f s).replies = s.replies := rfl
@[simp] theorem setFrag_received (i : Nat) (f : Frag) (s : State) : (setFrag i f s).received = s.received := rfl
@[simp] theorem setFrag_steals (i : Nat) (f : Frag) (s : State) : (setFrag i f s).steals = s.steals := rfl
@[simp] theorem setFrag_agentFaults (i : Nat) (f : Frag) (s : State) : (setFrag i f s).agentFaults = s.agentFaults := rfl
@[simp] theorem setFrag_msix (i : Nat) (f : Frag) (s : State) : (setFrag i f s).msix = s.msix := rfl
@[simp] theorem setFrag_tstop (i : Nat) (f : Frag) (s : State) : (setFrag i f s).tstop = s.tstop := rfl
@[simp] theorem setFrag_gated (i : Nat) (f : Frag) (s : State) : (setFrag i f s).gated = s.gated := rfl
@[simp] theorem setFrag_stops (i : Nat) (f : Frag) (s : State) : (setFrag i f s).stops = s.stops := rfl
@[simp] theorem setFrag_skids (i : Nat) (f : Frag) (s : State) : (setFrag i f s).skids = s.skids := rfl
@[simp] theorem setFrag_traced (i : Nat) (f : Frag) (s : State) : (setFrag i f s).traced = s.traced := rfl
@[simp] theorem setFrag_dropped (i : Nat) (f : Frag) (s : State) : (setFrag i f s).dropped = s.dropped := rfl
@[simp] theorem setFrag_boot (i : Nat) (f : Frag) (s : State) : (setFrag i f s).boot = s.boot := rfl
@[simp] theorem setFrag_inputs (i : Nat) (f : Frag) (s : State) : (setFrag i f s).inputs = s.inputs := rfl

/-! ### modFrag -/

@[simp] theorem modFrag_cur (i : Nat) (g : Frag → Frag) (s : State) : (modFrag i g s).cur = s.cur := rfl
@[simp] theorem modFrag_curCrl (i : Nat) (g : Frag → Frag) (s : State) : (modFrag i g s).curCrl = s.curCrl := rfl
@[simp] theorem modFrag_free (i : Nat) (g : Frag → Frag) (s : State) : (modFrag i g s).free = s.free := rfl
@[simp] theorem modFrag_turn (i : Nat) (g : Frag → Frag) (s : State) : (modFrag i g s).turn = s.turn := rfl
@[simp] theorem modFrag_waiting (i : Nat) (g : Frag → Frag) (s : State) : (modFrag i g s).waiting = s.waiting := rfl
@[simp] theorem modFrag_seq (i : Nat) (g : Frag → Frag) (s : State) : (modFrag i g s).seq = s.seq := rfl
@[simp] theorem modFrag_toll (i : Nat) (g : Frag → Frag) (s : State) : (modFrag i g s).toll = s.toll := rfl
@[simp] theorem modFrag_mem (i : Nat) (g : Frag → Frag) (s : State) : (modFrag i g s).mem = s.mem := rfl
@[simp] theorem modFrag_full (i : Nat) (g : Frag → Frag) (s : State) : (modFrag i g s).full = s.full := rfl
@[simp] theorem modFrag_hist (i : Nat) (g : Frag → Frag) (s : State) : (modFrag i g s).hist = s.hist := rfl
@[simp] theorem modFrag_rels (i : Nat) (g : Frag → Frag) (s : State) : (modFrag i g s).rels = s.rels := rfl
@[simp] theorem modFrag_seen (i : Nat) (g : Frag → Frag) (s : State) : (modFrag i g s).seen = s.seen := rfl
@[simp] theorem modFrag_frags (i : Nat) (g : Frag → Frag) (s : State) : (modFrag i g s).frags = amMod i g s.frags := rfl
@[simp] theorem modFrag_teams (i : Nat) (g : Frag → Frag) (s : State) : (modFrag i g s).teams = s.teams := rfl
@[simp] theorem modFrag_units (i : Nat) (g : Frag → Frag) (s : State) : (modFrag i g s).units = s.units := rfl
@[simp] theorem modFrag_ctxs (i : Nat) (g : Frag → Frag) (s : State) : (modFrag i g s).ctxs = s.ctxs := rfl
@[simp] theorem modFrag_ops (i : Nat) (g : Frag → Frag) (s : State) : (modFrag i g s).ops = s.ops := rfl
@[simp] theorem modFrag_tlb (i : Nat) (g : Frag → Frag) (s : State) : (modFrag i g s).tlb = s.tlb := rfl
@[simp] theorem modFrag_walks (i : Nat) (g : Frag → Frag) (s : State) : (modFrag i g s).walks = s.walks := rfl
@[simp] theorem modFrag_merge (i : Nat) (g : Frag → Frag) (s : State) : (modFrag i g s).merge = s.merge := rfl
@[simp] theorem modFrag_tiles (i : Nat) (g : Frag → Frag) (s : State) : (modFrag i g s).tiles = s.tiles := rfl
@[simp] theorem modFrag_shoots (i : Nat) (g : Frag → Frag) (s : State) : (modFrag i g s).shoots = s.shoots := rfl
@[simp] theorem modFrag_issued (i : Nat) (g : Frag → Frag) (s : State) : (modFrag i g s).issued = s.issued := rfl
@[simp] theorem modFrag_division (i : Nat) (g : Frag → Frag) (s : State) : (modFrag i g s).division = s.division := rfl
@[simp] theorem modFrag_slices (i : Nat) (g : Frag → Frag) (s : State) : (modFrag i g s).slices = s.slices := rfl
@[simp] theorem modFrag_gov (i : Nat) (g : Frag → Frag) (s : State) : (modFrag i g s).gov = s.gov := rfl
@[simp] theorem modFrag_crls (i : Nat) (g : Frag → Frag) (s : State) : (modFrag i g s).crls = s.crls := rfl
@[simp] theorem modFrag_progs (i : Nat) (g : Frag → Frag) (s : State) : (modFrag i g s).progs = s.progs := rfl
@[simp] theorem modFrag_queues (i : Nat) (g : Frag → Frag) (s : State) : (modFrag i g s).queues = s.queues := rfl
@[simp] theorem modFrag_launches (i : Nat) (g : Frag → Frag) (s : State) : (modFrag i g s).launches = s.launches := rfl
@[simp] theorem modFrag_phases (i : Nat) (g : Frag → Frag) (s : State) : (modFrag i g s).phases = s.phases := rfl
@[simp] theorem modFrag_batch (i : Nat) (g : Frag → Frag) (s : State) : (modFrag i g s).batch = s.batch := rfl
@[simp] theorem modFrag_bar0 (i : Nat) (g : Frag → Frag) (s : State) : (modFrag i g s).bar0 = s.bar0 := rfl
@[simp] theorem modFrag_rings (i : Nat) (g : Frag → Frag) (s : State) : (modFrag i g s).rings = s.rings := rfl
@[simp] theorem modFrag_outgoing (i : Nat) (g : Frag → Frag) (s : State) : (modFrag i g s).outgoing = s.outgoing := rfl
@[simp] theorem modFrag_inbound (i : Nat) (g : Frag → Frag) (s : State) : (modFrag i g s).inbound = s.inbound := rfl
@[simp] theorem modFrag_replies (i : Nat) (g : Frag → Frag) (s : State) : (modFrag i g s).replies = s.replies := rfl
@[simp] theorem modFrag_received (i : Nat) (g : Frag → Frag) (s : State) : (modFrag i g s).received = s.received := rfl
@[simp] theorem modFrag_steals (i : Nat) (g : Frag → Frag) (s : State) : (modFrag i g s).steals = s.steals := rfl
@[simp] theorem modFrag_agentFaults (i : Nat) (g : Frag → Frag) (s : State) : (modFrag i g s).agentFaults = s.agentFaults := rfl
@[simp] theorem modFrag_msix (i : Nat) (g : Frag → Frag) (s : State) : (modFrag i g s).msix = s.msix := rfl
@[simp] theorem modFrag_tstop (i : Nat) (g : Frag → Frag) (s : State) : (modFrag i g s).tstop = s.tstop := rfl
@[simp] theorem modFrag_gated (i : Nat) (g : Frag → Frag) (s : State) : (modFrag i g s).gated = s.gated := rfl
@[simp] theorem modFrag_stops (i : Nat) (g : Frag → Frag) (s : State) : (modFrag i g s).stops = s.stops := rfl
@[simp] theorem modFrag_skids (i : Nat) (g : Frag → Frag) (s : State) : (modFrag i g s).skids = s.skids := rfl
@[simp] theorem modFrag_traced (i : Nat) (g : Frag → Frag) (s : State) : (modFrag i g s).traced = s.traced := rfl
@[simp] theorem modFrag_dropped (i : Nat) (g : Frag → Frag) (s : State) : (modFrag i g s).dropped = s.dropped := rfl
@[simp] theorem modFrag_boot (i : Nat) (g : Frag → Frag) (s : State) : (modFrag i g s).boot = s.boot := rfl
@[simp] theorem modFrag_inputs (i : Nat) (g : Frag → Frag) (s : State) : (modFrag i g s).inputs = s.inputs := rfl

/-! ### delFrag -/

@[simp] theorem delFrag_cur (i : Nat) (s : State) : (delFrag i s).cur = s.cur := rfl
@[simp] theorem delFrag_curCrl (i : Nat) (s : State) : (delFrag i s).curCrl = s.curCrl := rfl
@[simp] theorem delFrag_free (i : Nat) (s : State) : (delFrag i s).free = s.free := rfl
@[simp] theorem delFrag_turn (i : Nat) (s : State) : (delFrag i s).turn = s.turn := rfl
@[simp] theorem delFrag_waiting (i : Nat) (s : State) : (delFrag i s).waiting = s.waiting := rfl
@[simp] theorem delFrag_seq (i : Nat) (s : State) : (delFrag i s).seq = s.seq := rfl
@[simp] theorem delFrag_toll (i : Nat) (s : State) : (delFrag i s).toll = s.toll := rfl
@[simp] theorem delFrag_mem (i : Nat) (s : State) : (delFrag i s).mem = s.mem := rfl
@[simp] theorem delFrag_full (i : Nat) (s : State) : (delFrag i s).full = s.full := rfl
@[simp] theorem delFrag_hist (i : Nat) (s : State) : (delFrag i s).hist = s.hist := rfl
@[simp] theorem delFrag_rels (i : Nat) (s : State) : (delFrag i s).rels = s.rels := rfl
@[simp] theorem delFrag_seen (i : Nat) (s : State) : (delFrag i s).seen = s.seen := rfl
@[simp] theorem delFrag_frags (i : Nat) (s : State) : (delFrag i s).frags = amDel i s.frags := rfl
@[simp] theorem delFrag_teams (i : Nat) (s : State) : (delFrag i s).teams = s.teams := rfl
@[simp] theorem delFrag_units (i : Nat) (s : State) : (delFrag i s).units = s.units := rfl
@[simp] theorem delFrag_ctxs (i : Nat) (s : State) : (delFrag i s).ctxs = s.ctxs := rfl
@[simp] theorem delFrag_ops (i : Nat) (s : State) : (delFrag i s).ops = s.ops := rfl
@[simp] theorem delFrag_tlb (i : Nat) (s : State) : (delFrag i s).tlb = s.tlb := rfl
@[simp] theorem delFrag_walks (i : Nat) (s : State) : (delFrag i s).walks = s.walks := rfl
@[simp] theorem delFrag_merge (i : Nat) (s : State) : (delFrag i s).merge = s.merge := rfl
@[simp] theorem delFrag_tiles (i : Nat) (s : State) : (delFrag i s).tiles = s.tiles := rfl
@[simp] theorem delFrag_shoots (i : Nat) (s : State) : (delFrag i s).shoots = s.shoots := rfl
@[simp] theorem delFrag_issued (i : Nat) (s : State) : (delFrag i s).issued = s.issued := rfl
@[simp] theorem delFrag_division (i : Nat) (s : State) : (delFrag i s).division = s.division := rfl
@[simp] theorem delFrag_slices (i : Nat) (s : State) : (delFrag i s).slices = s.slices := rfl
@[simp] theorem delFrag_gov (i : Nat) (s : State) : (delFrag i s).gov = s.gov := rfl
@[simp] theorem delFrag_crls (i : Nat) (s : State) : (delFrag i s).crls = s.crls := rfl
@[simp] theorem delFrag_progs (i : Nat) (s : State) : (delFrag i s).progs = s.progs := rfl
@[simp] theorem delFrag_queues (i : Nat) (s : State) : (delFrag i s).queues = s.queues := rfl
@[simp] theorem delFrag_launches (i : Nat) (s : State) : (delFrag i s).launches = s.launches := rfl
@[simp] theorem delFrag_phases (i : Nat) (s : State) : (delFrag i s).phases = s.phases := rfl
@[simp] theorem delFrag_batch (i : Nat) (s : State) : (delFrag i s).batch = s.batch := rfl
@[simp] theorem delFrag_bar0 (i : Nat) (s : State) : (delFrag i s).bar0 = s.bar0 := rfl
@[simp] theorem delFrag_rings (i : Nat) (s : State) : (delFrag i s).rings = s.rings := rfl
@[simp] theorem delFrag_outgoing (i : Nat) (s : State) : (delFrag i s).outgoing = s.outgoing := rfl
@[simp] theorem delFrag_inbound (i : Nat) (s : State) : (delFrag i s).inbound = s.inbound := rfl
@[simp] theorem delFrag_replies (i : Nat) (s : State) : (delFrag i s).replies = s.replies := rfl
@[simp] theorem delFrag_received (i : Nat) (s : State) : (delFrag i s).received = s.received := rfl
@[simp] theorem delFrag_steals (i : Nat) (s : State) : (delFrag i s).steals = s.steals := rfl
@[simp] theorem delFrag_agentFaults (i : Nat) (s : State) : (delFrag i s).agentFaults = s.agentFaults := rfl
@[simp] theorem delFrag_msix (i : Nat) (s : State) : (delFrag i s).msix = s.msix := rfl
@[simp] theorem delFrag_tstop (i : Nat) (s : State) : (delFrag i s).tstop = s.tstop := rfl
@[simp] theorem delFrag_gated (i : Nat) (s : State) : (delFrag i s).gated = s.gated := rfl
@[simp] theorem delFrag_stops (i : Nat) (s : State) : (delFrag i s).stops = s.stops := rfl
@[simp] theorem delFrag_skids (i : Nat) (s : State) : (delFrag i s).skids = s.skids := rfl
@[simp] theorem delFrag_traced (i : Nat) (s : State) : (delFrag i s).traced = s.traced := rfl
@[simp] theorem delFrag_dropped (i : Nat) (s : State) : (delFrag i s).dropped = s.dropped := rfl
@[simp] theorem delFrag_boot (i : Nat) (s : State) : (delFrag i s).boot = s.boot := rfl
@[simp] theorem delFrag_inputs (i : Nat) (s : State) : (delFrag i s).inputs = s.inputs := rfl

/-! ### modTeam -/

@[simp] theorem modTeam_cur (i : Nat) (g : Team → Team) (s : State) : (modTeam i g s).cur = s.cur := rfl
@[simp] theorem modTeam_curCrl (i : Nat) (g : Team → Team) (s : State) : (modTeam i g s).curCrl = s.curCrl := rfl
@[simp] theorem modTeam_free (i : Nat) (g : Team → Team) (s : State) : (modTeam i g s).free = s.free := rfl
@[simp] theorem modTeam_turn (i : Nat) (g : Team → Team) (s : State) : (modTeam i g s).turn = s.turn := rfl
@[simp] theorem modTeam_waiting (i : Nat) (g : Team → Team) (s : State) : (modTeam i g s).waiting = s.waiting := rfl
@[simp] theorem modTeam_seq (i : Nat) (g : Team → Team) (s : State) : (modTeam i g s).seq = s.seq := rfl
@[simp] theorem modTeam_toll (i : Nat) (g : Team → Team) (s : State) : (modTeam i g s).toll = s.toll := rfl
@[simp] theorem modTeam_mem (i : Nat) (g : Team → Team) (s : State) : (modTeam i g s).mem = s.mem := rfl
@[simp] theorem modTeam_full (i : Nat) (g : Team → Team) (s : State) : (modTeam i g s).full = s.full := rfl
@[simp] theorem modTeam_hist (i : Nat) (g : Team → Team) (s : State) : (modTeam i g s).hist = s.hist := rfl
@[simp] theorem modTeam_rels (i : Nat) (g : Team → Team) (s : State) : (modTeam i g s).rels = s.rels := rfl
@[simp] theorem modTeam_seen (i : Nat) (g : Team → Team) (s : State) : (modTeam i g s).seen = s.seen := rfl
@[simp] theorem modTeam_frags (i : Nat) (g : Team → Team) (s : State) : (modTeam i g s).frags = s.frags := rfl
@[simp] theorem modTeam_teams (i : Nat) (g : Team → Team) (s : State) : (modTeam i g s).teams = amMod i g s.teams := rfl
@[simp] theorem modTeam_units (i : Nat) (g : Team → Team) (s : State) : (modTeam i g s).units = s.units := rfl
@[simp] theorem modTeam_ctxs (i : Nat) (g : Team → Team) (s : State) : (modTeam i g s).ctxs = s.ctxs := rfl
@[simp] theorem modTeam_ops (i : Nat) (g : Team → Team) (s : State) : (modTeam i g s).ops = s.ops := rfl
@[simp] theorem modTeam_tlb (i : Nat) (g : Team → Team) (s : State) : (modTeam i g s).tlb = s.tlb := rfl
@[simp] theorem modTeam_walks (i : Nat) (g : Team → Team) (s : State) : (modTeam i g s).walks = s.walks := rfl
@[simp] theorem modTeam_merge (i : Nat) (g : Team → Team) (s : State) : (modTeam i g s).merge = s.merge := rfl
@[simp] theorem modTeam_tiles (i : Nat) (g : Team → Team) (s : State) : (modTeam i g s).tiles = s.tiles := rfl
@[simp] theorem modTeam_shoots (i : Nat) (g : Team → Team) (s : State) : (modTeam i g s).shoots = s.shoots := rfl
@[simp] theorem modTeam_issued (i : Nat) (g : Team → Team) (s : State) : (modTeam i g s).issued = s.issued := rfl
@[simp] theorem modTeam_division (i : Nat) (g : Team → Team) (s : State) : (modTeam i g s).division = s.division := rfl
@[simp] theorem modTeam_slices (i : Nat) (g : Team → Team) (s : State) : (modTeam i g s).slices = s.slices := rfl
@[simp] theorem modTeam_gov (i : Nat) (g : Team → Team) (s : State) : (modTeam i g s).gov = s.gov := rfl
@[simp] theorem modTeam_crls (i : Nat) (g : Team → Team) (s : State) : (modTeam i g s).crls = s.crls := rfl
@[simp] theorem modTeam_progs (i : Nat) (g : Team → Team) (s : State) : (modTeam i g s).progs = s.progs := rfl
@[simp] theorem modTeam_queues (i : Nat) (g : Team → Team) (s : State) : (modTeam i g s).queues = s.queues := rfl
@[simp] theorem modTeam_launches (i : Nat) (g : Team → Team) (s : State) : (modTeam i g s).launches = s.launches := rfl
@[simp] theorem modTeam_phases (i : Nat) (g : Team → Team) (s : State) : (modTeam i g s).phases = s.phases := rfl
@[simp] theorem modTeam_batch (i : Nat) (g : Team → Team) (s : State) : (modTeam i g s).batch = s.batch := rfl
@[simp] theorem modTeam_bar0 (i : Nat) (g : Team → Team) (s : State) : (modTeam i g s).bar0 = s.bar0 := rfl
@[simp] theorem modTeam_rings (i : Nat) (g : Team → Team) (s : State) : (modTeam i g s).rings = s.rings := rfl
@[simp] theorem modTeam_outgoing (i : Nat) (g : Team → Team) (s : State) : (modTeam i g s).outgoing = s.outgoing := rfl
@[simp] theorem modTeam_inbound (i : Nat) (g : Team → Team) (s : State) : (modTeam i g s).inbound = s.inbound := rfl
@[simp] theorem modTeam_replies (i : Nat) (g : Team → Team) (s : State) : (modTeam i g s).replies = s.replies := rfl
@[simp] theorem modTeam_received (i : Nat) (g : Team → Team) (s : State) : (modTeam i g s).received = s.received := rfl
@[simp] theorem modTeam_steals (i : Nat) (g : Team → Team) (s : State) : (modTeam i g s).steals = s.steals := rfl
@[simp] theorem modTeam_agentFaults (i : Nat) (g : Team → Team) (s : State) : (modTeam i g s).agentFaults = s.agentFaults := rfl
@[simp] theorem modTeam_msix (i : Nat) (g : Team → Team) (s : State) : (modTeam i g s).msix = s.msix := rfl
@[simp] theorem modTeam_tstop (i : Nat) (g : Team → Team) (s : State) : (modTeam i g s).tstop = s.tstop := rfl
@[simp] theorem modTeam_gated (i : Nat) (g : Team → Team) (s : State) : (modTeam i g s).gated = s.gated := rfl
@[simp] theorem modTeam_stops (i : Nat) (g : Team → Team) (s : State) : (modTeam i g s).stops = s.stops := rfl
@[simp] theorem modTeam_skids (i : Nat) (g : Team → Team) (s : State) : (modTeam i g s).skids = s.skids := rfl
@[simp] theorem modTeam_traced (i : Nat) (g : Team → Team) (s : State) : (modTeam i g s).traced = s.traced := rfl
@[simp] theorem modTeam_dropped (i : Nat) (g : Team → Team) (s : State) : (modTeam i g s).dropped = s.dropped := rfl
@[simp] theorem modTeam_boot (i : Nat) (g : Team → Team) (s : State) : (modTeam i g s).boot = s.boot := rfl
@[simp] theorem modTeam_inputs (i : Nat) (g : Team → Team) (s : State) : (modTeam i g s).inputs = s.inputs := rfl

/-! ### modUnit -/

@[simp] theorem modUnit_cur (i : Nat) (g : UnitSt → UnitSt) (s : State) : (modUnit i g s).cur = s.cur := rfl
@[simp] theorem modUnit_curCrl (i : Nat) (g : UnitSt → UnitSt) (s : State) : (modUnit i g s).curCrl = s.curCrl := rfl
@[simp] theorem modUnit_free (i : Nat) (g : UnitSt → UnitSt) (s : State) : (modUnit i g s).free = s.free := rfl
@[simp] theorem modUnit_turn (i : Nat) (g : UnitSt → UnitSt) (s : State) : (modUnit i g s).turn = s.turn := rfl
@[simp] theorem modUnit_waiting (i : Nat) (g : UnitSt → UnitSt) (s : State) : (modUnit i g s).waiting = s.waiting := rfl
@[simp] theorem modUnit_seq (i : Nat) (g : UnitSt → UnitSt) (s : State) : (modUnit i g s).seq = s.seq := rfl
@[simp] theorem modUnit_toll (i : Nat) (g : UnitSt → UnitSt) (s : State) : (modUnit i g s).toll = s.toll := rfl
@[simp] theorem modUnit_mem (i : Nat) (g : UnitSt → UnitSt) (s : State) : (modUnit i g s).mem = s.mem := rfl
@[simp] theorem modUnit_full (i : Nat) (g : UnitSt → UnitSt) (s : State) : (modUnit i g s).full = s.full := rfl
@[simp] theorem modUnit_hist (i : Nat) (g : UnitSt → UnitSt) (s : State) : (modUnit i g s).hist = s.hist := rfl
@[simp] theorem modUnit_rels (i : Nat) (g : UnitSt → UnitSt) (s : State) : (modUnit i g s).rels = s.rels := rfl
@[simp] theorem modUnit_seen (i : Nat) (g : UnitSt → UnitSt) (s : State) : (modUnit i g s).seen = s.seen := rfl
@[simp] theorem modUnit_frags (i : Nat) (g : UnitSt → UnitSt) (s : State) : (modUnit i g s).frags = s.frags := rfl
@[simp] theorem modUnit_teams (i : Nat) (g : UnitSt → UnitSt) (s : State) : (modUnit i g s).teams = s.teams := rfl
@[simp] theorem modUnit_units (i : Nat) (g : UnitSt → UnitSt) (s : State) : (modUnit i g s).units = amMod i g s.units := rfl
@[simp] theorem modUnit_ctxs (i : Nat) (g : UnitSt → UnitSt) (s : State) : (modUnit i g s).ctxs = s.ctxs := rfl
@[simp] theorem modUnit_ops (i : Nat) (g : UnitSt → UnitSt) (s : State) : (modUnit i g s).ops = s.ops := rfl
@[simp] theorem modUnit_tlb (i : Nat) (g : UnitSt → UnitSt) (s : State) : (modUnit i g s).tlb = s.tlb := rfl
@[simp] theorem modUnit_walks (i : Nat) (g : UnitSt → UnitSt) (s : State) : (modUnit i g s).walks = s.walks := rfl
@[simp] theorem modUnit_merge (i : Nat) (g : UnitSt → UnitSt) (s : State) : (modUnit i g s).merge = s.merge := rfl
@[simp] theorem modUnit_tiles (i : Nat) (g : UnitSt → UnitSt) (s : State) : (modUnit i g s).tiles = s.tiles := rfl
@[simp] theorem modUnit_shoots (i : Nat) (g : UnitSt → UnitSt) (s : State) : (modUnit i g s).shoots = s.shoots := rfl
@[simp] theorem modUnit_issued (i : Nat) (g : UnitSt → UnitSt) (s : State) : (modUnit i g s).issued = s.issued := rfl
@[simp] theorem modUnit_division (i : Nat) (g : UnitSt → UnitSt) (s : State) : (modUnit i g s).division = s.division := rfl
@[simp] theorem modUnit_slices (i : Nat) (g : UnitSt → UnitSt) (s : State) : (modUnit i g s).slices = s.slices := rfl
@[simp] theorem modUnit_gov (i : Nat) (g : UnitSt → UnitSt) (s : State) : (modUnit i g s).gov = s.gov := rfl
@[simp] theorem modUnit_crls (i : Nat) (g : UnitSt → UnitSt) (s : State) : (modUnit i g s).crls = s.crls := rfl
@[simp] theorem modUnit_progs (i : Nat) (g : UnitSt → UnitSt) (s : State) : (modUnit i g s).progs = s.progs := rfl
@[simp] theorem modUnit_queues (i : Nat) (g : UnitSt → UnitSt) (s : State) : (modUnit i g s).queues = s.queues := rfl
@[simp] theorem modUnit_launches (i : Nat) (g : UnitSt → UnitSt) (s : State) : (modUnit i g s).launches = s.launches := rfl
@[simp] theorem modUnit_phases (i : Nat) (g : UnitSt → UnitSt) (s : State) : (modUnit i g s).phases = s.phases := rfl
@[simp] theorem modUnit_batch (i : Nat) (g : UnitSt → UnitSt) (s : State) : (modUnit i g s).batch = s.batch := rfl
@[simp] theorem modUnit_bar0 (i : Nat) (g : UnitSt → UnitSt) (s : State) : (modUnit i g s).bar0 = s.bar0 := rfl
@[simp] theorem modUnit_rings (i : Nat) (g : UnitSt → UnitSt) (s : State) : (modUnit i g s).rings = s.rings := rfl
@[simp] theorem modUnit_outgoing (i : Nat) (g : UnitSt → UnitSt) (s : State) : (modUnit i g s).outgoing = s.outgoing := rfl
@[simp] theorem modUnit_inbound (i : Nat) (g : UnitSt → UnitSt) (s : State) : (modUnit i g s).inbound = s.inbound := rfl
@[simp] theorem modUnit_replies (i : Nat) (g : UnitSt → UnitSt) (s : State) : (modUnit i g s).replies = s.replies := rfl
@[simp] theorem modUnit_received (i : Nat) (g : UnitSt → UnitSt) (s : State) : (modUnit i g s).received = s.received := rfl
@[simp] theorem modUnit_steals (i : Nat) (g : UnitSt → UnitSt) (s : State) : (modUnit i g s).steals = s.steals := rfl
@[simp] theorem modUnit_agentFaults (i : Nat) (g : UnitSt → UnitSt) (s : State) : (modUnit i g s).agentFaults = s.agentFaults := rfl
@[simp] theorem modUnit_msix (i : Nat) (g : UnitSt → UnitSt) (s : State) : (modUnit i g s).msix = s.msix := rfl
@[simp] theorem modUnit_tstop (i : Nat) (g : UnitSt → UnitSt) (s : State) : (modUnit i g s).tstop = s.tstop := rfl
@[simp] theorem modUnit_gated (i : Nat) (g : UnitSt → UnitSt) (s : State) : (modUnit i g s).gated = s.gated := rfl
@[simp] theorem modUnit_stops (i : Nat) (g : UnitSt → UnitSt) (s : State) : (modUnit i g s).stops = s.stops := rfl
@[simp] theorem modUnit_skids (i : Nat) (g : UnitSt → UnitSt) (s : State) : (modUnit i g s).skids = s.skids := rfl
@[simp] theorem modUnit_traced (i : Nat) (g : UnitSt → UnitSt) (s : State) : (modUnit i g s).traced = s.traced := rfl
@[simp] theorem modUnit_dropped (i : Nat) (g : UnitSt → UnitSt) (s : State) : (modUnit i g s).dropped = s.dropped := rfl
@[simp] theorem modUnit_boot (i : Nat) (g : UnitSt → UnitSt) (s : State) : (modUnit i g s).boot = s.boot := rfl
@[simp] theorem modUnit_inputs (i : Nat) (g : UnitSt → UnitSt) (s : State) : (modUnit i g s).inputs = s.inputs := rfl

/-! ### modCtx -/

@[simp] theorem modCtx_cur (i : Nat) (g : Context → Context) (s : State) : (modCtx i g s).cur = s.cur := rfl
@[simp] theorem modCtx_curCrl (i : Nat) (g : Context → Context) (s : State) : (modCtx i g s).curCrl = s.curCrl := rfl
@[simp] theorem modCtx_free (i : Nat) (g : Context → Context) (s : State) : (modCtx i g s).free = s.free := rfl
@[simp] theorem modCtx_turn (i : Nat) (g : Context → Context) (s : State) : (modCtx i g s).turn = s.turn := rfl
@[simp] theorem modCtx_waiting (i : Nat) (g : Context → Context) (s : State) : (modCtx i g s).waiting = s.waiting := rfl
@[simp] theorem modCtx_seq (i : Nat) (g : Context → Context) (s : State) : (modCtx i g s).seq = s.seq := rfl
@[simp] theorem modCtx_toll (i : Nat) (g : Context → Context) (s : State) : (modCtx i g s).toll = s.toll := rfl
@[simp] theorem modCtx_mem (i : Nat) (g : Context → Context) (s : State) : (modCtx i g s).mem = s.mem := rfl
@[simp] theorem modCtx_full (i : Nat) (g : Context → Context) (s : State) : (modCtx i g s).full = s.full := rfl
@[simp] theorem modCtx_hist (i : Nat) (g : Context → Context) (s : State) : (modCtx i g s).hist = s.hist := rfl
@[simp] theorem modCtx_rels (i : Nat) (g : Context → Context) (s : State) : (modCtx i g s).rels = s.rels := rfl
@[simp] theorem modCtx_seen (i : Nat) (g : Context → Context) (s : State) : (modCtx i g s).seen = s.seen := rfl
@[simp] theorem modCtx_frags (i : Nat) (g : Context → Context) (s : State) : (modCtx i g s).frags = s.frags := rfl
@[simp] theorem modCtx_teams (i : Nat) (g : Context → Context) (s : State) : (modCtx i g s).teams = s.teams := rfl
@[simp] theorem modCtx_units (i : Nat) (g : Context → Context) (s : State) : (modCtx i g s).units = s.units := rfl
@[simp] theorem modCtx_ctxs (i : Nat) (g : Context → Context) (s : State) : (modCtx i g s).ctxs = amMod i g s.ctxs := rfl
@[simp] theorem modCtx_ops (i : Nat) (g : Context → Context) (s : State) : (modCtx i g s).ops = s.ops := rfl
@[simp] theorem modCtx_tlb (i : Nat) (g : Context → Context) (s : State) : (modCtx i g s).tlb = s.tlb := rfl
@[simp] theorem modCtx_walks (i : Nat) (g : Context → Context) (s : State) : (modCtx i g s).walks = s.walks := rfl
@[simp] theorem modCtx_merge (i : Nat) (g : Context → Context) (s : State) : (modCtx i g s).merge = s.merge := rfl
@[simp] theorem modCtx_tiles (i : Nat) (g : Context → Context) (s : State) : (modCtx i g s).tiles = s.tiles := rfl
@[simp] theorem modCtx_shoots (i : Nat) (g : Context → Context) (s : State) : (modCtx i g s).shoots = s.shoots := rfl
@[simp] theorem modCtx_issued (i : Nat) (g : Context → Context) (s : State) : (modCtx i g s).issued = s.issued := rfl
@[simp] theorem modCtx_division (i : Nat) (g : Context → Context) (s : State) : (modCtx i g s).division = s.division := rfl
@[simp] theorem modCtx_slices (i : Nat) (g : Context → Context) (s : State) : (modCtx i g s).slices = s.slices := rfl
@[simp] theorem modCtx_gov (i : Nat) (g : Context → Context) (s : State) : (modCtx i g s).gov = s.gov := rfl
@[simp] theorem modCtx_crls (i : Nat) (g : Context → Context) (s : State) : (modCtx i g s).crls = s.crls := rfl
@[simp] theorem modCtx_progs (i : Nat) (g : Context → Context) (s : State) : (modCtx i g s).progs = s.progs := rfl
@[simp] theorem modCtx_queues (i : Nat) (g : Context → Context) (s : State) : (modCtx i g s).queues = s.queues := rfl
@[simp] theorem modCtx_launches (i : Nat) (g : Context → Context) (s : State) : (modCtx i g s).launches = s.launches := rfl
@[simp] theorem modCtx_phases (i : Nat) (g : Context → Context) (s : State) : (modCtx i g s).phases = s.phases := rfl
@[simp] theorem modCtx_batch (i : Nat) (g : Context → Context) (s : State) : (modCtx i g s).batch = s.batch := rfl
@[simp] theorem modCtx_bar0 (i : Nat) (g : Context → Context) (s : State) : (modCtx i g s).bar0 = s.bar0 := rfl
@[simp] theorem modCtx_rings (i : Nat) (g : Context → Context) (s : State) : (modCtx i g s).rings = s.rings := rfl
@[simp] theorem modCtx_outgoing (i : Nat) (g : Context → Context) (s : State) : (modCtx i g s).outgoing = s.outgoing := rfl
@[simp] theorem modCtx_inbound (i : Nat) (g : Context → Context) (s : State) : (modCtx i g s).inbound = s.inbound := rfl
@[simp] theorem modCtx_replies (i : Nat) (g : Context → Context) (s : State) : (modCtx i g s).replies = s.replies := rfl
@[simp] theorem modCtx_received (i : Nat) (g : Context → Context) (s : State) : (modCtx i g s).received = s.received := rfl
@[simp] theorem modCtx_steals (i : Nat) (g : Context → Context) (s : State) : (modCtx i g s).steals = s.steals := rfl
@[simp] theorem modCtx_agentFaults (i : Nat) (g : Context → Context) (s : State) : (modCtx i g s).agentFaults = s.agentFaults := rfl
@[simp] theorem modCtx_msix (i : Nat) (g : Context → Context) (s : State) : (modCtx i g s).msix = s.msix := rfl
@[simp] theorem modCtx_tstop (i : Nat) (g : Context → Context) (s : State) : (modCtx i g s).tstop = s.tstop := rfl
@[simp] theorem modCtx_gated (i : Nat) (g : Context → Context) (s : State) : (modCtx i g s).gated = s.gated := rfl
@[simp] theorem modCtx_stops (i : Nat) (g : Context → Context) (s : State) : (modCtx i g s).stops = s.stops := rfl
@[simp] theorem modCtx_skids (i : Nat) (g : Context → Context) (s : State) : (modCtx i g s).skids = s.skids := rfl
@[simp] theorem modCtx_traced (i : Nat) (g : Context → Context) (s : State) : (modCtx i g s).traced = s.traced := rfl
@[simp] theorem modCtx_dropped (i : Nat) (g : Context → Context) (s : State) : (modCtx i g s).dropped = s.dropped := rfl
@[simp] theorem modCtx_boot (i : Nat) (g : Context → Context) (s : State) : (modCtx i g s).boot = s.boot := rfl
@[simp] theorem modCtx_inputs (i : Nat) (g : Context → Context) (s : State) : (modCtx i g s).inputs = s.inputs := rfl

/-! ### setBody -/

@[simp] theorem setBody_cur (n : Nat) (b : OpBody) (s : State) : (setBody n b s).cur = s.cur := rfl
@[simp] theorem setBody_curCrl (n : Nat) (b : OpBody) (s : State) : (setBody n b s).curCrl = s.curCrl := rfl
@[simp] theorem setBody_free (n : Nat) (b : OpBody) (s : State) : (setBody n b s).free = s.free := rfl
@[simp] theorem setBody_turn (n : Nat) (b : OpBody) (s : State) : (setBody n b s).turn = s.turn := rfl
@[simp] theorem setBody_waiting (n : Nat) (b : OpBody) (s : State) : (setBody n b s).waiting = s.waiting := rfl
@[simp] theorem setBody_seq (n : Nat) (b : OpBody) (s : State) : (setBody n b s).seq = s.seq := rfl
@[simp] theorem setBody_toll (n : Nat) (b : OpBody) (s : State) : (setBody n b s).toll = s.toll := rfl
@[simp] theorem setBody_mem (n : Nat) (b : OpBody) (s : State) : (setBody n b s).mem = s.mem := rfl
@[simp] theorem setBody_full (n : Nat) (b : OpBody) (s : State) : (setBody n b s).full = s.full := rfl
@[simp] theorem setBody_hist (n : Nat) (b : OpBody) (s : State) : (setBody n b s).hist = s.hist := rfl
@[simp] theorem setBody_rels (n : Nat) (b : OpBody) (s : State) : (setBody n b s).rels = s.rels := rfl
@[simp] theorem setBody_seen (n : Nat) (b : OpBody) (s : State) : (setBody n b s).seen = s.seen := rfl
@[simp] theorem setBody_frags (n : Nat) (b : OpBody) (s : State) : (setBody n b s).frags = s.frags := rfl
@[simp] theorem setBody_teams (n : Nat) (b : OpBody) (s : State) : (setBody n b s).teams = s.teams := rfl
@[simp] theorem setBody_units (n : Nat) (b : OpBody) (s : State) : (setBody n b s).units = s.units := rfl
@[simp] theorem setBody_ctxs (n : Nat) (b : OpBody) (s : State) : (setBody n b s).ctxs = s.ctxs := rfl
@[simp] theorem setBody_ops (n : Nat) (b : OpBody) (s : State) : (setBody n b s).ops = amMod n (fun o => { o with body := b }) s.ops := rfl
@[simp] theorem setBody_tlb (n : Nat) (b : OpBody) (s : State) : (setBody n b s).tlb = s.tlb := rfl
@[simp] theorem setBody_walks (n : Nat) (b : OpBody) (s : State) : (setBody n b s).walks = s.walks := rfl
@[simp] theorem setBody_merge (n : Nat) (b : OpBody) (s : State) : (setBody n b s).merge = s.merge := rfl
@[simp] theorem setBody_tiles (n : Nat) (b : OpBody) (s : State) : (setBody n b s).tiles = s.tiles := rfl
@[simp] theorem setBody_shoots (n : Nat) (b : OpBody) (s : State) : (setBody n b s).shoots = s.shoots := rfl
@[simp] theorem setBody_issued (n : Nat) (b : OpBody) (s : State) : (setBody n b s).issued = s.issued := rfl
@[simp] theorem setBody_division (n : Nat) (b : OpBody) (s : State) : (setBody n b s).division = s.division := rfl
@[simp] theorem setBody_slices (n : Nat) (b : OpBody) (s : State) : (setBody n b s).slices = s.slices := rfl
@[simp] theorem setBody_gov (n : Nat) (b : OpBody) (s : State) : (setBody n b s).gov = s.gov := rfl
@[simp] theorem setBody_crls (n : Nat) (b : OpBody) (s : State) : (setBody n b s).crls = s.crls := rfl
@[simp] theorem setBody_progs (n : Nat) (b : OpBody) (s : State) : (setBody n b s).progs = s.progs := rfl
@[simp] theorem setBody_queues (n : Nat) (b : OpBody) (s : State) : (setBody n b s).queues = s.queues := rfl
@[simp] theorem setBody_launches (n : Nat) (b : OpBody) (s : State) : (setBody n b s).launches = s.launches := rfl
@[simp] theorem setBody_phases (n : Nat) (b : OpBody) (s : State) : (setBody n b s).phases = s.phases := rfl
@[simp] theorem setBody_batch (n : Nat) (b : OpBody) (s : State) : (setBody n b s).batch = s.batch := rfl
@[simp] theorem setBody_bar0 (n : Nat) (b : OpBody) (s : State) : (setBody n b s).bar0 = s.bar0 := rfl
@[simp] theorem setBody_rings (n : Nat) (b : OpBody) (s : State) : (setBody n b s).rings = s.rings := rfl
@[simp] theorem setBody_outgoing (n : Nat) (b : OpBody) (s : State) : (setBody n b s).outgoing = s.outgoing := rfl
@[simp] theorem setBody_inbound (n : Nat) (b : OpBody) (s : State) : (setBody n b s).inbound = s.inbound := rfl
@[simp] theorem setBody_replies (n : Nat) (b : OpBody) (s : State) : (setBody n b s).replies = s.replies := rfl
@[simp] theorem setBody_received (n : Nat) (b : OpBody) (s : State) : (setBody n b s).received = s.received := rfl
@[simp] theorem setBody_steals (n : Nat) (b : OpBody) (s : State) : (setBody n b s).steals = s.steals := rfl
@[simp] theorem setBody_agentFaults (n : Nat) (b : OpBody) (s : State) : (setBody n b s).agentFaults = s.agentFaults := rfl
@[simp] theorem setBody_msix (n : Nat) (b : OpBody) (s : State) : (setBody n b s).msix = s.msix := rfl
@[simp] theorem setBody_tstop (n : Nat) (b : OpBody) (s : State) : (setBody n b s).tstop = s.tstop := rfl
@[simp] theorem setBody_gated (n : Nat) (b : OpBody) (s : State) : (setBody n b s).gated = s.gated := rfl
@[simp] theorem setBody_stops (n : Nat) (b : OpBody) (s : State) : (setBody n b s).stops = s.stops := rfl
@[simp] theorem setBody_skids (n : Nat) (b : OpBody) (s : State) : (setBody n b s).skids = s.skids := rfl
@[simp] theorem setBody_traced (n : Nat) (b : OpBody) (s : State) : (setBody n b s).traced = s.traced := rfl
@[simp] theorem setBody_dropped (n : Nat) (b : OpBody) (s : State) : (setBody n b s).dropped = s.dropped := rfl
@[simp] theorem setBody_boot (n : Nat) (b : OpBody) (s : State) : (setBody n b s).boot = s.boot := rfl
@[simp] theorem setBody_inputs (n : Nat) (b : OpBody) (s : State) : (setBody n b s).inputs = s.inputs := rfl

/-! ### writeMem -/

@[simp] theorem writeMem_cur (g a : Nat) (bs : List Byte) (s : State) : (writeMem g a bs s).cur = s.cur := rfl
@[simp] theorem writeMem_curCrl (g a : Nat) (bs : List Byte) (s : State) : (writeMem g a bs s).curCrl = s.curCrl := rfl
@[simp] theorem writeMem_free (g a : Nat) (bs : List Byte) (s : State) : (writeMem g a bs s).free = s.free := rfl
@[simp] theorem writeMem_turn (g a : Nat) (bs : List Byte) (s : State) : (writeMem g a bs s).turn = s.turn := rfl
@[simp] theorem writeMem_waiting (g a : Nat) (bs : List Byte) (s : State) : (writeMem g a bs s).waiting = s.waiting := rfl
@[simp] theorem writeMem_seq (g a : Nat) (bs : List Byte) (s : State) : (writeMem g a bs s).seq = s.seq + 1 := rfl
@[simp] theorem writeMem_toll (g a : Nat) (bs : List Byte) (s : State) : (writeMem g a bs s).toll = s.toll := rfl
@[simp] theorem writeMem_mem (g a : Nat) (bs : List Byte) (s : State) : (writeMem g a bs s).mem = putBytes s.mem a bs := rfl
@[simp] theorem writeMem_full (g a : Nat) (bs : List Byte) (s : State) : (writeMem g a bs s).full = s.full := rfl
@[simp] theorem writeMem_rels (g a : Nat) (bs : List Byte) (s : State) : (writeMem g a bs s).rels = s.rels := rfl
@[simp] theorem writeMem_seen (g a : Nat) (bs : List Byte) (s : State) : (writeMem g a bs s).seen = s.seen := rfl
@[simp] theorem writeMem_frags (g a : Nat) (bs : List Byte) (s : State) : (writeMem g a bs s).frags = s.frags := rfl
@[simp] theorem writeMem_teams (g a : Nat) (bs : List Byte) (s : State) : (writeMem g a bs s).teams = s.teams := rfl
@[simp] theorem writeMem_units (g a : Nat) (bs : List Byte) (s : State) : (writeMem g a bs s).units = s.units := rfl
@[simp] theorem writeMem_ctxs (g a : Nat) (bs : List Byte) (s : State) : (writeMem g a bs s).ctxs = s.ctxs := rfl
@[simp] theorem writeMem_ops (g a : Nat) (bs : List Byte) (s : State) : (writeMem g a bs s).ops = s.ops := rfl
@[simp] theorem writeMem_tlb (g a : Nat) (bs : List Byte) (s : State) : (writeMem g a bs s).tlb = s.tlb := rfl
@[simp] theorem writeMem_walks (g a : Nat) (bs : List Byte) (s : State) : (writeMem g a bs s).walks = s.walks := rfl
@[simp] theorem writeMem_merge (g a : Nat) (bs : List Byte) (s : State) : (writeMem g a bs s).merge = s.merge := rfl
@[simp] theorem writeMem_tiles (g a : Nat) (bs : List Byte) (s : State) : (writeMem g a bs s).tiles = s.tiles := rfl
@[simp] theorem writeMem_shoots (g a : Nat) (bs : List Byte) (s : State) : (writeMem g a bs s).shoots = s.shoots := rfl
@[simp] theorem writeMem_issued (g a : Nat) (bs : List Byte) (s : State) : (writeMem g a bs s).issued = s.issued := rfl
@[simp] theorem writeMem_division (g a : Nat) (bs : List Byte) (s : State) : (writeMem g a bs s).division = s.division := rfl
@[simp] theorem writeMem_slices (g a : Nat) (bs : List Byte) (s : State) : (writeMem g a bs s).slices = s.slices := rfl
@[simp] theorem writeMem_gov (g a : Nat) (bs : List Byte) (s : State) : (writeMem g a bs s).gov = s.gov := rfl
@[simp] theorem writeMem_crls (g a : Nat) (bs : List Byte) (s : State) : (writeMem g a bs s).crls = s.crls := rfl
@[simp] theorem writeMem_progs (g a : Nat) (bs : List Byte) (s : State) : (writeMem g a bs s).progs = s.progs := rfl
@[simp] theorem writeMem_queues (g a : Nat) (bs : List Byte) (s : State) : (writeMem g a bs s).queues = s.queues := rfl
@[simp] theorem writeMem_launches (g a : Nat) (bs : List Byte) (s : State) : (writeMem g a bs s).launches = s.launches := rfl
@[simp] theorem writeMem_phases (g a : Nat) (bs : List Byte) (s : State) : (writeMem g a bs s).phases = s.phases := rfl
@[simp] theorem writeMem_batch (g a : Nat) (bs : List Byte) (s : State) : (writeMem g a bs s).batch = s.batch := rfl
@[simp] theorem writeMem_bar0 (g a : Nat) (bs : List Byte) (s : State) : (writeMem g a bs s).bar0 = s.bar0 := rfl
@[simp] theorem writeMem_rings (g a : Nat) (bs : List Byte) (s : State) : (writeMem g a bs s).rings = s.rings := rfl
@[simp] theorem writeMem_outgoing (g a : Nat) (bs : List Byte) (s : State) : (writeMem g a bs s).outgoing = s.outgoing := rfl
@[simp] theorem writeMem_inbound (g a : Nat) (bs : List Byte) (s : State) : (writeMem g a bs s).inbound = s.inbound := rfl
@[simp] theorem writeMem_replies (g a : Nat) (bs : List Byte) (s : State) : (writeMem g a bs s).replies = s.replies := rfl
@[simp] theorem writeMem_received (g a : Nat) (bs : List Byte) (s : State) : (writeMem g a bs s).received = s.received := rfl
@[simp] theorem writeMem_steals (g a : Nat) (bs : List Byte) (s : State) : (writeMem g a bs s).steals = s.steals := rfl
@[simp] theorem writeMem_agentFaults (g a : Nat) (bs : List Byte) (s : State) : (writeMem g a bs s).agentFaults = s.agentFaults := rfl
@[simp] theorem writeMem_msix (g a : Nat) (bs : List Byte) (s : State) : (writeMem g a bs s).msix = s.msix := rfl
@[simp] theorem writeMem_tstop (g a : Nat) (bs : List Byte) (s : State) : (writeMem g a bs s).tstop = s.tstop := rfl
@[simp] theorem writeMem_gated (g a : Nat) (bs : List Byte) (s : State) : (writeMem g a bs s).gated = s.gated := rfl
@[simp] theorem writeMem_stops (g a : Nat) (bs : List Byte) (s : State) : (writeMem g a bs s).stops = s.stops := rfl
@[simp] theorem writeMem_skids (g a : Nat) (bs : List Byte) (s : State) : (writeMem g a bs s).skids = s.skids := rfl
@[simp] theorem writeMem_traced (g a : Nat) (bs : List Byte) (s : State) : (writeMem g a bs s).traced = s.traced := rfl
@[simp] theorem writeMem_dropped (g a : Nat) (bs : List Byte) (s : State) : (writeMem g a bs s).dropped = s.dropped := rfl
@[simp] theorem writeMem_boot (g a : Nat) (bs : List Byte) (s : State) : (writeMem g a bs s).boot = s.boot := rfl
@[simp] theorem writeMem_inputs (g a : Nat) (bs : List Byte) (s : State) : (writeMem g a bs s).inputs = s.inputs := rfl

/-! ### forgetRange -/

@[simp] theorem forgetRange_cur (a n : Nat) (s : State) : (forgetRange a n s).cur = s.cur := rfl
@[simp] theorem forgetRange_curCrl (a n : Nat) (s : State) : (forgetRange a n s).curCrl = s.curCrl := rfl
@[simp] theorem forgetRange_free (a n : Nat) (s : State) : (forgetRange a n s).free = s.free := rfl
@[simp] theorem forgetRange_turn (a n : Nat) (s : State) : (forgetRange a n s).turn = s.turn := rfl
@[simp] theorem forgetRange_waiting (a n : Nat) (s : State) : (forgetRange a n s).waiting = s.waiting := rfl
@[simp] theorem forgetRange_seq (a n : Nat) (s : State) : (forgetRange a n s).seq = s.seq := rfl
@[simp] theorem forgetRange_toll (a n : Nat) (s : State) : (forgetRange a n s).toll = s.toll := rfl
@[simp] theorem forgetRange_mem (a n : Nat) (s : State) : (forgetRange a n s).mem = s.mem := rfl
@[simp] theorem forgetRange_full (a n : Nat) (s : State) : (forgetRange a n s).full = s.full := rfl
@[simp] theorem forgetRange_hist (a n : Nat) (s : State) : (forgetRange a n s).hist = s.hist.flatMap (fun w => w.without a n) := rfl
@[simp] theorem forgetRange_rels (a n : Nat) (s : State) : (forgetRange a n s).rels = s.rels := rfl
@[simp] theorem forgetRange_seen (a n : Nat) (s : State) : (forgetRange a n s).seen = s.seen := rfl
@[simp] theorem forgetRange_frags (a n : Nat) (s : State) : (forgetRange a n s).frags = s.frags := rfl
@[simp] theorem forgetRange_teams (a n : Nat) (s : State) : (forgetRange a n s).teams = s.teams := rfl
@[simp] theorem forgetRange_units (a n : Nat) (s : State) : (forgetRange a n s).units = s.units := rfl
@[simp] theorem forgetRange_ctxs (a n : Nat) (s : State) : (forgetRange a n s).ctxs = s.ctxs := rfl
@[simp] theorem forgetRange_ops (a n : Nat) (s : State) : (forgetRange a n s).ops = s.ops := rfl
@[simp] theorem forgetRange_tlb (a n : Nat) (s : State) : (forgetRange a n s).tlb = s.tlb := rfl
@[simp] theorem forgetRange_walks (a n : Nat) (s : State) : (forgetRange a n s).walks = s.walks := rfl
@[simp] theorem forgetRange_merge (a n : Nat) (s : State) : (forgetRange a n s).merge = s.merge := rfl
@[simp] theorem forgetRange_tiles (a n : Nat) (s : State) : (forgetRange a n s).tiles = s.tiles := rfl
@[simp] theorem forgetRange_shoots (a n : Nat) (s : State) : (forgetRange a n s).shoots = s.shoots := rfl
@[simp] theorem forgetRange_issued (a n : Nat) (s : State) : (forgetRange a n s).issued = s.issued := rfl
@[simp] theorem forgetRange_division (a n : Nat) (s : State) : (forgetRange a n s).division = s.division := rfl
@[simp] theorem forgetRange_slices (a n : Nat) (s : State) : (forgetRange a n s).slices = s.slices := rfl
@[simp] theorem forgetRange_gov (a n : Nat) (s : State) : (forgetRange a n s).gov = s.gov := rfl
@[simp] theorem forgetRange_crls (a n : Nat) (s : State) : (forgetRange a n s).crls = s.crls := rfl
@[simp] theorem forgetRange_progs (a n : Nat) (s : State) : (forgetRange a n s).progs = s.progs := rfl
@[simp] theorem forgetRange_queues (a n : Nat) (s : State) : (forgetRange a n s).queues = s.queues := rfl
@[simp] theorem forgetRange_launches (a n : Nat) (s : State) : (forgetRange a n s).launches = s.launches := rfl
@[simp] theorem forgetRange_phases (a n : Nat) (s : State) : (forgetRange a n s).phases = s.phases := rfl
@[simp] theorem forgetRange_batch (a n : Nat) (s : State) : (forgetRange a n s).batch = s.batch := rfl
@[simp] theorem forgetRange_bar0 (a n : Nat) (s : State) : (forgetRange a n s).bar0 = s.bar0 := rfl
@[simp] theorem forgetRange_rings (a n : Nat) (s : State) : (forgetRange a n s).rings = s.rings := rfl
@[simp] theorem forgetRange_outgoing (a n : Nat) (s : State) : (forgetRange a n s).outgoing = s.outgoing := rfl
@[simp] theorem forgetRange_inbound (a n : Nat) (s : State) : (forgetRange a n s).inbound = s.inbound := rfl
@[simp] theorem forgetRange_replies (a n : Nat) (s : State) : (forgetRange a n s).replies = s.replies := rfl
@[simp] theorem forgetRange_received (a n : Nat) (s : State) : (forgetRange a n s).received = s.received := rfl
@[simp] theorem forgetRange_steals (a n : Nat) (s : State) : (forgetRange a n s).steals = s.steals := rfl
@[simp] theorem forgetRange_agentFaults (a n : Nat) (s : State) : (forgetRange a n s).agentFaults = s.agentFaults := rfl
@[simp] theorem forgetRange_msix (a n : Nat) (s : State) : (forgetRange a n s).msix = s.msix := rfl
@[simp] theorem forgetRange_tstop (a n : Nat) (s : State) : (forgetRange a n s).tstop = s.tstop := rfl
@[simp] theorem forgetRange_gated (a n : Nat) (s : State) : (forgetRange a n s).gated = s.gated := rfl
@[simp] theorem forgetRange_stops (a n : Nat) (s : State) : (forgetRange a n s).stops = s.stops := rfl
@[simp] theorem forgetRange_skids (a n : Nat) (s : State) : (forgetRange a n s).skids = s.skids := rfl
@[simp] theorem forgetRange_traced (a n : Nat) (s : State) : (forgetRange a n s).traced = s.traced := rfl
@[simp] theorem forgetRange_dropped (a n : Nat) (s : State) : (forgetRange a n s).dropped = s.dropped := rfl
@[simp] theorem forgetRange_boot (a n : Nat) (s : State) : (forgetRange a n s).boot = s.boot := rfl
@[simp] theorem forgetRange_inputs (a n : Nat) (s : State) : (forgetRange a n s).inputs = s.inputs := rfl

/-! ### pokeBytes -/

@[simp] theorem pokeBytes_cur (a : Nat) (bs : List Byte) (s : State) : (pokeBytes a bs s).cur = s.cur := rfl
@[simp] theorem pokeBytes_curCrl (a : Nat) (bs : List Byte) (s : State) : (pokeBytes a bs s).curCrl = s.curCrl := rfl
@[simp] theorem pokeBytes_free (a : Nat) (bs : List Byte) (s : State) : (pokeBytes a bs s).free = s.free := rfl
@[simp] theorem pokeBytes_turn (a : Nat) (bs : List Byte) (s : State) : (pokeBytes a bs s).turn = s.turn := rfl
@[simp] theorem pokeBytes_waiting (a : Nat) (bs : List Byte) (s : State) : (pokeBytes a bs s).waiting = s.waiting := rfl
@[simp] theorem pokeBytes_seq (a : Nat) (bs : List Byte) (s : State) : (pokeBytes a bs s).seq = s.seq := rfl
@[simp] theorem pokeBytes_toll (a : Nat) (bs : List Byte) (s : State) : (pokeBytes a bs s).toll = s.toll := rfl
@[simp] theorem pokeBytes_mem (a : Nat) (bs : List Byte) (s : State) : (pokeBytes a bs s).mem = putBytes s.mem a bs := rfl
@[simp] theorem pokeBytes_full (a : Nat) (bs : List Byte) (s : State) : (pokeBytes a bs s).full = s.full := rfl
@[simp] theorem pokeBytes_rels (a : Nat) (bs : List Byte) (s : State) : (pokeBytes a bs s).rels = s.rels := rfl
@[simp] theorem pokeBytes_seen (a : Nat) (bs : List Byte) (s : State) : (pokeBytes a bs s).seen = s.seen := rfl
@[simp] theorem pokeBytes_frags (a : Nat) (bs : List Byte) (s : State) : (pokeBytes a bs s).frags = s.frags := rfl
@[simp] theorem pokeBytes_teams (a : Nat) (bs : List Byte) (s : State) : (pokeBytes a bs s).teams = s.teams := rfl
@[simp] theorem pokeBytes_units (a : Nat) (bs : List Byte) (s : State) : (pokeBytes a bs s).units = s.units := rfl
@[simp] theorem pokeBytes_ctxs (a : Nat) (bs : List Byte) (s : State) : (pokeBytes a bs s).ctxs = s.ctxs := rfl
@[simp] theorem pokeBytes_ops (a : Nat) (bs : List Byte) (s : State) : (pokeBytes a bs s).ops = s.ops := rfl
@[simp] theorem pokeBytes_tlb (a : Nat) (bs : List Byte) (s : State) : (pokeBytes a bs s).tlb = s.tlb := rfl
@[simp] theorem pokeBytes_walks (a : Nat) (bs : List Byte) (s : State) : (pokeBytes a bs s).walks = s.walks := rfl
@[simp] theorem pokeBytes_merge (a : Nat) (bs : List Byte) (s : State) : (pokeBytes a bs s).merge = s.merge := rfl
@[simp] theorem pokeBytes_tiles (a : Nat) (bs : List Byte) (s : State) : (pokeBytes a bs s).tiles = s.tiles := rfl
@[simp] theorem pokeBytes_shoots (a : Nat) (bs : List Byte) (s : State) : (pokeBytes a bs s).shoots = s.shoots := rfl
@[simp] theorem pokeBytes_issued (a : Nat) (bs : List Byte) (s : State) : (pokeBytes a bs s).issued = s.issued := rfl
@[simp] theorem pokeBytes_division (a : Nat) (bs : List Byte) (s : State) : (pokeBytes a bs s).division = s.division := rfl
@[simp] theorem pokeBytes_slices (a : Nat) (bs : List Byte) (s : State) : (pokeBytes a bs s).slices = s.slices := rfl
@[simp] theorem pokeBytes_gov (a : Nat) (bs : List Byte) (s : State) : (pokeBytes a bs s).gov = s.gov := rfl
@[simp] theorem pokeBytes_crls (a : Nat) (bs : List Byte) (s : State) : (pokeBytes a bs s).crls = s.crls := rfl
@[simp] theorem pokeBytes_progs (a : Nat) (bs : List Byte) (s : State) : (pokeBytes a bs s).progs = s.progs := rfl
@[simp] theorem pokeBytes_queues (a : Nat) (bs : List Byte) (s : State) : (pokeBytes a bs s).queues = s.queues := rfl
@[simp] theorem pokeBytes_launches (a : Nat) (bs : List Byte) (s : State) : (pokeBytes a bs s).launches = s.launches := rfl
@[simp] theorem pokeBytes_phases (a : Nat) (bs : List Byte) (s : State) : (pokeBytes a bs s).phases = s.phases := rfl
@[simp] theorem pokeBytes_batch (a : Nat) (bs : List Byte) (s : State) : (pokeBytes a bs s).batch = s.batch := rfl
@[simp] theorem pokeBytes_bar0 (a : Nat) (bs : List Byte) (s : State) : (pokeBytes a bs s).bar0 = s.bar0 := rfl
@[simp] theorem pokeBytes_rings (a : Nat) (bs : List Byte) (s : State) : (pokeBytes a bs s).rings = s.rings := rfl
@[simp] theorem pokeBytes_outgoing (a : Nat) (bs : List Byte) (s : State) : (pokeBytes a bs s).outgoing = s.outgoing := rfl
@[simp] theorem pokeBytes_inbound (a : Nat) (bs : List Byte) (s : State) : (pokeBytes a bs s).inbound = s.inbound := rfl
@[simp] theorem pokeBytes_replies (a : Nat) (bs : List Byte) (s : State) : (pokeBytes a bs s).replies = s.replies := rfl
@[simp] theorem pokeBytes_received (a : Nat) (bs : List Byte) (s : State) : (pokeBytes a bs s).received = s.received := rfl
@[simp] theorem pokeBytes_steals (a : Nat) (bs : List Byte) (s : State) : (pokeBytes a bs s).steals = s.steals := rfl
@[simp] theorem pokeBytes_agentFaults (a : Nat) (bs : List Byte) (s : State) : (pokeBytes a bs s).agentFaults = s.agentFaults := rfl
@[simp] theorem pokeBytes_msix (a : Nat) (bs : List Byte) (s : State) : (pokeBytes a bs s).msix = s.msix := rfl
@[simp] theorem pokeBytes_tstop (a : Nat) (bs : List Byte) (s : State) : (pokeBytes a bs s).tstop = s.tstop := rfl
@[simp] theorem pokeBytes_gated (a : Nat) (bs : List Byte) (s : State) : (pokeBytes a bs s).gated = s.gated := rfl
@[simp] theorem pokeBytes_stops (a : Nat) (bs : List Byte) (s : State) : (pokeBytes a bs s).stops = s.stops := rfl
@[simp] theorem pokeBytes_skids (a : Nat) (bs : List Byte) (s : State) : (pokeBytes a bs s).skids = s.skids := rfl
@[simp] theorem pokeBytes_traced (a : Nat) (bs : List Byte) (s : State) : (pokeBytes a bs s).traced = s.traced := rfl
@[simp] theorem pokeBytes_dropped (a : Nat) (bs : List Byte) (s : State) : (pokeBytes a bs s).dropped = s.dropped := rfl
@[simp] theorem pokeBytes_boot (a : Nat) (bs : List Byte) (s : State) : (pokeBytes a bs s).boot = s.boot := rfl
@[simp] theorem pokeBytes_inputs (a : Nat) (bs : List Byte) (s : State) : (pokeBytes a bs s).inputs = s.inputs := rfl

/-! ### writeDests -/

@[simp] theorem writeDests_cur (team : Nat) (ws : List (Dest × DWord)) (s : State) : (writeDests team ws s).cur = s.cur := rfl
@[simp] theorem writeDests_curCrl (team : Nat) (ws : List (Dest × DWord)) (s : State) : (writeDests team ws s).curCrl = s.curCrl := rfl
@[simp] theorem writeDests_free (team : Nat) (ws : List (Dest × DWord)) (s : State) : (writeDests team ws s).free = s.free := rfl
@[simp] theorem writeDests_turn (team : Nat) (ws : List (Dest × DWord)) (s : State) : (writeDests team ws s).turn = s.turn := rfl
@[simp] theorem writeDests_waiting (team : Nat) (ws : List (Dest × DWord)) (s : State) : (writeDests team ws s).waiting = s.waiting := rfl
@[simp] theorem writeDests_seq (team : Nat) (ws : List (Dest × DWord)) (s : State) : (writeDests team ws s).seq = s.seq := rfl
@[simp] theorem writeDests_toll (team : Nat) (ws : List (Dest × DWord)) (s : State) : (writeDests team ws s).toll = s.toll := rfl
@[simp] theorem writeDests_mem (team : Nat) (ws : List (Dest × DWord)) (s : State) : (writeDests team ws s).mem = s.mem := rfl
@[simp] theorem writeDests_full (team : Nat) (ws : List (Dest × DWord)) (s : State) : (writeDests team ws s).full = s.full := rfl
@[simp] theorem writeDests_hist (team : Nat) (ws : List (Dest × DWord)) (s : State) : (writeDests team ws s).hist = s.hist := rfl
@[simp] theorem writeDests_rels (team : Nat) (ws : List (Dest × DWord)) (s : State) : (writeDests team ws s).rels = s.rels := rfl
@[simp] theorem writeDests_seen (team : Nat) (ws : List (Dest × DWord)) (s : State) : (writeDests team ws s).seen = s.seen := rfl
@[simp] theorem writeDests_frags (team : Nat) (ws : List (Dest × DWord)) (s : State) : (writeDests team ws s).frags = s.frags := rfl
@[simp] theorem writeDests_teams (team : Nat) (ws : List (Dest × DWord)) (s : State) : (writeDests team ws s).teams = amMod team (fun t => ws.foldl (fun t w => putDest w.1 w.2 t) t) s.teams := rfl
@[simp] theorem writeDests_units (team : Nat) (ws : List (Dest × DWord)) (s : State) : (writeDests team ws s).units = s.units := rfl
@[simp] theorem writeDests_ctxs (team : Nat) (ws : List (Dest × DWord)) (s : State) : (writeDests team ws s).ctxs = s.ctxs := rfl
@[simp] theorem writeDests_ops (team : Nat) (ws : List (Dest × DWord)) (s : State) : (writeDests team ws s).ops = killEarlier team s.seq (ws.map Prod.fst) s.ops := rfl
@[simp] theorem writeDests_tlb (team : Nat) (ws : List (Dest × DWord)) (s : State) : (writeDests team ws s).tlb = s.tlb := rfl
@[simp] theorem writeDests_walks (team : Nat) (ws : List (Dest × DWord)) (s : State) : (writeDests team ws s).walks = s.walks := rfl
@[simp] theorem writeDests_merge (team : Nat) (ws : List (Dest × DWord)) (s : State) : (writeDests team ws s).merge = s.merge := rfl
@[simp] theorem writeDests_tiles (team : Nat) (ws : List (Dest × DWord)) (s : State) : (writeDests team ws s).tiles = s.tiles := rfl
@[simp] theorem writeDests_shoots (team : Nat) (ws : List (Dest × DWord)) (s : State) : (writeDests team ws s).shoots = s.shoots := rfl
@[simp] theorem writeDests_issued (team : Nat) (ws : List (Dest × DWord)) (s : State) : (writeDests team ws s).issued = s.issued := rfl
@[simp] theorem writeDests_division (team : Nat) (ws : List (Dest × DWord)) (s : State) : (writeDests team ws s).division = s.division := rfl
@[simp] theorem writeDests_slices (team : Nat) (ws : List (Dest × DWord)) (s : State) : (writeDests team ws s).slices = s.slices := rfl
@[simp] theorem writeDests_gov (team : Nat) (ws : List (Dest × DWord)) (s : State) : (writeDests team ws s).gov = s.gov := rfl
@[simp] theorem writeDests_crls (team : Nat) (ws : List (Dest × DWord)) (s : State) : (writeDests team ws s).crls = s.crls := rfl
@[simp] theorem writeDests_progs (team : Nat) (ws : List (Dest × DWord)) (s : State) : (writeDests team ws s).progs = s.progs := rfl
@[simp] theorem writeDests_queues (team : Nat) (ws : List (Dest × DWord)) (s : State) : (writeDests team ws s).queues = s.queues := rfl
@[simp] theorem writeDests_launches (team : Nat) (ws : List (Dest × DWord)) (s : State) : (writeDests team ws s).launches = s.launches := rfl
@[simp] theorem writeDests_phases (team : Nat) (ws : List (Dest × DWord)) (s : State) : (writeDests team ws s).phases = s.phases := rfl
@[simp] theorem writeDests_batch (team : Nat) (ws : List (Dest × DWord)) (s : State) : (writeDests team ws s).batch = s.batch := rfl
@[simp] theorem writeDests_bar0 (team : Nat) (ws : List (Dest × DWord)) (s : State) : (writeDests team ws s).bar0 = s.bar0 := rfl
@[simp] theorem writeDests_rings (team : Nat) (ws : List (Dest × DWord)) (s : State) : (writeDests team ws s).rings = s.rings := rfl
@[simp] theorem writeDests_outgoing (team : Nat) (ws : List (Dest × DWord)) (s : State) : (writeDests team ws s).outgoing = s.outgoing := rfl
@[simp] theorem writeDests_inbound (team : Nat) (ws : List (Dest × DWord)) (s : State) : (writeDests team ws s).inbound = s.inbound := rfl
@[simp] theorem writeDests_replies (team : Nat) (ws : List (Dest × DWord)) (s : State) : (writeDests team ws s).replies = s.replies := rfl
@[simp] theorem writeDests_received (team : Nat) (ws : List (Dest × DWord)) (s : State) : (writeDests team ws s).received = s.received := rfl
@[simp] theorem writeDests_steals (team : Nat) (ws : List (Dest × DWord)) (s : State) : (writeDests team ws s).steals = s.steals := rfl
@[simp] theorem writeDests_agentFaults (team : Nat) (ws : List (Dest × DWord)) (s : State) : (writeDests team ws s).agentFaults = s.agentFaults := rfl
@[simp] theorem writeDests_msix (team : Nat) (ws : List (Dest × DWord)) (s : State) : (writeDests team ws s).msix = s.msix := rfl
@[simp] theorem writeDests_tstop (team : Nat) (ws : List (Dest × DWord)) (s : State) : (writeDests team ws s).tstop = s.tstop := rfl
@[simp] theorem writeDests_gated (team : Nat) (ws : List (Dest × DWord)) (s : State) : (writeDests team ws s).gated = s.gated := rfl
@[simp] theorem writeDests_stops (team : Nat) (ws : List (Dest × DWord)) (s : State) : (writeDests team ws s).stops = s.stops := rfl
@[simp] theorem writeDests_skids (team : Nat) (ws : List (Dest × DWord)) (s : State) : (writeDests team ws s).skids = s.skids := rfl
@[simp] theorem writeDests_traced (team : Nat) (ws : List (Dest × DWord)) (s : State) : (writeDests team ws s).traced = s.traced := rfl
@[simp] theorem writeDests_dropped (team : Nat) (ws : List (Dest × DWord)) (s : State) : (writeDests team ws s).dropped = s.dropped := rfl
@[simp] theorem writeDests_boot (team : Nat) (ws : List (Dest × DWord)) (s : State) : (writeDests team ws s).boot = s.boot := rfl
@[simp] theorem writeDests_inputs (team : Nat) (ws : List (Dest × DWord)) (s : State) : (writeDests team ws s).inputs = s.inputs := rfl

end Sys2Proof.Machine
end

