-- ==== Sys2Proof/Laws/Ops.lean ====
section
/-! SUPPORT. What the shared operations of the sequencer do: the end of a pass, registers written at issue. -/

namespace Sys2Proof.Machine

theorem current_some {s : State} {i : Nat} {f : Frag} {t : Team} (h : current s = some (i, f, t)) :
    s.cur = some i ∧ amGet i s.frags = some f ∧ amGet f.team s.teams = some t := by
  revert h
  fun_cases current s <;> intro h <;> simp_all

/-- The debug unit's count of a pass. -/
def skidStep (u : State) (t : Team) : Nat :=
  b2n (match amGet (clusterOf t.gcore) u.stops with | some st => decide (st.tick < u.toll) | none => true)

theorem spend_eq {u : State} {i : Nat} {f : Frag} {t : Team} (hf : amGet i u.frags = some f)
    (ht : amGet f.team u.teams = some t) :
    spend i u = setFrag i { f with skid := f.skid + skidStep u t } { u with issued := amPut t.gcore (u.toll + 1) u.issued } := by
  unfold spend
  simp only [hf, ht]
  rfl

theorem finishHit_none {u : State} {i : Nat} {f : Frag} (hf : amGet i u.frags = some f) (h : f.hit = none) : finishHit i u = u := by
  simp [finishHit, hf, h]

theorem finishStop_none {u : State} {i : Nat} {f : Frag} (hf : amGet i u.frags = some f) (h : f.stopFor = none)
    (hs : f.stepping = none) : finishStop i u = u := by
  simp [finishStop, hf, h, hs]

/-- The end of an instruction of a fragment for which no debug stop is due. -/
theorem advance_quiet {u : State} {i len : Nat} {f : Frag} {t : Team} (hf : amGet i u.frags = some f)
    (ht : amGet f.team u.teams = some t) (h1 : f.hit = none) (h2 : f.stopFor = none) (h3 : f.stepping = none) :
    advance i len u = { u with
      issued := amPut t.gcore (u.toll + 1) u.issued
      frags := amMod i (moveOn len (u.toll + 1)) (amPut i { f with skid := f.skid + skidStep u t } u.frags) } := by
  unfold advance
  rw [spend_eq hf ht]
  generalize hg : ({ f with skid := f.skid + skidStep u t } : Frag) = g
  have key : ∀ v : State, amGet i (modFrag i (moveOn len (u.toll + 1)) (setFrag i g v)).frags = some (moveOn len (u.toll + 1) g) := by
    intro v
    simp [amGet_amMod, amGet_amPut]
  rw [finishHit_none (key _) (by simp [moveOn, ← hg, h1]), finishStop_none (key _) (by simp [moveOn, ← hg, h2]) (by simp [moveOn, ← hg, h3])]
  rfl

/-- The end of a pass of a fragment for which no debug stop is due. -/
theorem passDone_quiet {u : State} {i len : Nat} {f : Frag} {t : Team} (hf : amGet i u.frags = some f)
    (ht : amGet f.team u.teams = some t) (h1 : f.hit = none) (h2 : f.stopFor = none) (h3 : f.stepping = none) :
    ∃ f', MovedOn false len u.toll f f' ∧ passDone i len u = { u with
      issued := amPut t.gcore (u.toll + 1) u.issued
      frags := (passDone i len u).frags } ∧ amGet i (passDone i len u).frags = some f' ∧
      ∀ k, k ≠ i → amGet k (passDone i len u).frags = amGet k u.frags := by
  unfold passDone MovedOn
  simp only [hf]
  cases hw : wordsFrom f.mask (passWord f + 1) with
  | nil =>
    simp only
    rw [advance_quiet hf ht h1 h2 h3]
    refine ⟨moveOn len (u.toll + 1) { f with skid := f.skid + skidStep u t }, rfl, rfl, ?_, ?_⟩
    · simp [amGet_amMod, amGet_amPut]
    · intro k hk; simp [amGet_amMod, amGet_amPut, hk]
  | cons j js =>
    simp only
    rw [spend_eq hf ht]
    have key : ∀ v : State, amGet i (modFrag i (fun g => { g with pass := j, mid := true })
        (setFrag i { f with skid := f.skid + skidStep u t } v)).frags =
        some { f with skid := f.skid + skidStep u t, pass := j, mid := true } := by
      intro v
      simp [amGet_amMod, amGet_amPut]
    rw [finishStop_none (key _) h2 h3]
    refine ⟨{ f with skid := f.skid + skidStep u t, pass := j, mid := true }, rfl, rfl, key _, ?_⟩
    intro k hk; simp [amGet_amMod, amGet_amPut, hk]

/-- What `advance` changes, in the words of `OnlyTeam`. -/
theorem advance_movedOn {u : State} {i len : Nat} {f : Frag} {t : Team} (hf : amGet i u.frags = some f)
    (ht : amGet f.team u.teams = some t) (h1 : f.hit = none) (h2 : f.stopFor = none) (h3 : f.stepping = none) :
    ∃ f', MovedOn true len u.toll f f' ∧ advance i len u = { u with
      issued := amPut t.gcore (u.toll + 1) u.issued
      frags := (advance i len u).frags } ∧ amGet i (advance i len u).frags = some f' ∧
      ∀ k, k ≠ i → amGet k (advance i len u).frags = amGet k u.frags := by
  rw [advance_quiet hf ht h1 h2 h3]
  refine ⟨moveOn len (u.toll + 1) { f with skid := f.skid + skidStep u t }, ?_, rfl, ?_, ?_⟩
  · cases wordsFrom f.mask (passWord f + 1) <;> simp [MovedOn, moveOn]
  · simp [amGet_amMod, amGet_amPut]
  · intro k hk; simp [amGet_amMod, amGet_amPut, hk]

/-! ### Registers written at issue -/

theorem dGet_dPut (l r m q : Nat) (v : DWord) (t : Team) (hr : r < 64) (hq : q < 64) :
    dGet (dPut m q v t) l r = if l = m ∧ r = q then v else dGet t l r := by
  unfold dGet dPut
  rw [smGet_smPut]
  by_cases h : l = m ∧ r = q
  · simp [h]
  · rw [if_neg h, if_neg]
    rintro e
    exact h (by omega)

/-- Registers written by a list of lane elements, the last of an element's writes counting. -/
def lanesPut (ws : List (Nat × Nat × DWord)) (t : Team) : Team := ws.foldl (fun t w => dPut w.1 w.2.1 w.2.2 t) t

theorem lanesPut_eq (ws : List (Nat × Nat × DWord)) (t : Team) : lanesPut ws t = { t with d := (lanesPut ws t).d } := by
  induction ws generalizing t with
  | nil => rfl
  | cons w ws ih =>
    show lanesPut ws (dPut w.1 w.2.1 w.2.2 t) = _
    rw [ih]
    rfl

/-- Two writes to one element agree: the value of element (l, r) is val l r. -/
theorem dGet_lanesPut (val : Nat → Nat → DWord) (ws : List (Nat × Nat × DWord)) (t : Team)
    (hv : ∀ w ∈ ws, w.2.2 = val w.1 w.2.1 ∧ w.2.1 < 64) (l r : Nat) (hr : r < 64) :
    dGet (lanesPut ws t) l r = if (l, r) ∈ ws.map (fun w => (w.1, w.2.1)) then val l r else dGet t l r := by
  induction ws generalizing t with
  | nil => simp [lanesPut]
  | cons w ws ih =>
    show dGet (lanesPut ws (dPut w.1 w.2.1 w.2.2 t)) l r = _
    rw [ih _ (fun x hx => hv x (List.mem_cons_of_mem _ hx)), List.map_cons]
    simp only [List.mem_cons]
    by_cases h : (l, r) ∈ ws.map (fun w => (w.1, w.2.1))
    · rw [if_pos h, if_pos (.inr h)]
    · rw [if_neg h, dGet_dPut _ _ _ _ _ _ hr (hv w (by simp)).2]
      by_cases h2 : l = w.1 ∧ r = w.2.1
      · rw [if_pos h2, if_pos (.inl (by rw [h2.1, h2.2])), (hv w (by simp)).1, h2.1, h2.2]
      · rw [if_neg h2, if_neg]
        rintro (e | e)
        · simp only [Prod.mk.injEq] at e; exact h2 e
        · exact h e

theorem writeLanes_eq (team : Nat) (ws : List (Nat × Nat × DWord)) (s : State) :
    writeLanes team ws s = { s with
      teams := amMod team (lanesPut ws) s.teams
      ops := killEarlier team s.seq (ws.map (fun w => Dest.lane w.1 w.2.1)) s.ops } := by
  unfold writeLanes writeDests lanesPut
  simp only [List.map_map, List.foldl_map]
  rfl

theorem setFlags_eq (team fl : Nat) (s : State) : setFlags team fl s = { s with teams := (setFlags team fl s).teams } := by
  unfold setFlags; split <;> rfl

theorem amGet_setFlags (team fl k : Nat) (s : State) :
    amGet k (setFlags team fl s).teams = if k = team then (amGet k s.teams).map (withFlags fl) else amGet k s.teams := by
  unfold setFlags
  by_cases h : fl = 0
  · rw [if_pos h]
    subst h
    by_cases hk : k = team
    · rw [if_pos hk]
      cases amGet k s.teams with
      | none => rfl
      | some t => simp [withFlags, dw]
    · rw [if_neg hk]
  · rw [if_neg h]
    simp only [modTeam_teams, amGet_amMod]
    rfl

/-- The writes of a pass, with the end of the pass: `LanesWritten`. -/
theorem lanesWritten_of {s : State} {i len : Nat} {f : Frag} {t : Team} (hr : Ready s i f t) (whole : Bool)
    (ws : List (Nat × Nat × DWord)) (fl : Nat) (lanes : List Nat) (d n : Nat) (val : Nat → Nat → DWord)
    (hws : ws.map (fun w => Dest.lane w.1 w.2.1) = laneDests lanes d n) (hd : d + n ≤ 64)
    (hv : ∀ w ∈ ws, w.2.2 = val w.1 (w.2.1 - d)) :
    LanesWritten whole len s
      ((if whole then advance i len else passDone i len) (setFlags f.team fl (writeLanes f.team ws s))) i f t lanes d n val fl := by
  obtain ⟨hc, h1, h2, h3⟩ := hr
  obtain ⟨-, hf, ht⟩ := current_some hc
  generalize hu : setFlags f.team fl (writeLanes f.team ws s) = u
  have hmem : ∀ w ∈ ws, w.1 ∈ lanes ∧ d ≤ w.2.1 ∧ w.2.1 < d + n := by
    intro w hw
    have : Dest.lane w.1 w.2.1 ∈ laneDests lanes d n := hws ▸ List.mem_map.2 ⟨w, hw, rfl⟩
    simp only [laneDests, List.mem_flatMap, List.mem_map] at this
    obtain ⟨l, hl, r, hr, he⟩ := this
    simp only [Dest.lane.injEq] at he
    obtain ⟨rfl, rfl⟩ := he
    exact ⟨hl, mem_upFrom.1 hr⟩
  have hfu : amGet i u.frags = some f := by rw [← hu, setFlags_eq, writeLanes_eq]; exact hf
  have htu : amGet f.team u.teams = some (withFlags fl (lanesPut ws t)) := by
    rw [← hu, amGet_setFlags, if_pos rfl, writeLanes_eq]
    simp [amGet_amMod, ht]
  have hou : u = { s with teams := u.teams, ops := killEarlier f.team s.seq (laneDests lanes d n) s.ops } := by
    rw [← hu, setFlags_eq, writeLanes_eq, hws]
  have hgc : (withFlags fl (lanesPut ws t)).gcore = t.gcore := by rw [lanesPut_eq]; rfl
  have hother : ∀ k, k ≠ f.team → amGet k u.teams = amGet k s.teams := by
    intro k hk
    rw [← hu, amGet_setFlags, if_neg hk, writeLanes_eq]
    simp [amGet_amMod, hk]
  have hfin : ∀ v : State, ∀ f', MovedOn whole len u.toll f f' → v = { u with
      issued := amPut (withFlags fl (lanesPut ws t)).gcore (u.toll + 1) u.issued, frags := v.frags } → amGet i v.frags = some f' →
      (∀ k, k ≠ i → amGet k v.frags = amGet k u.frags) → LanesWritten whole len s v i f t lanes d n val fl := by
    intro v f' hm hv' hi ho
    rw [hgc] at hv'
    have htoll : u.toll = s.toll := by rw [hou]
    have hiss : u.issued = s.issued := by rw [hou]
    have hfr : u.frags = s.frags := by rw [hou]
    have hvt : v.teams = u.teams := by rw [hv']
    have hvo : v.ops = killEarlier f.team s.seq (laneDests lanes d n) s.ops := by rw [hv', hou]
    refine ⟨⟨?_, ?_, ⟨f', hi, htoll ▸ hm⟩, ?_, ?_⟩, hvo, withFlags fl (lanesPut ws t), ?_, ?_, ?_⟩
    · conv => lhs; rw [hv', hou]
      rw [hvt, hvo, hiss.symm, htoll.symm]
      have : v.issued = amPut t.gcore (u.toll + 1) u.issued := by rw [hv']
      rw [this]
    · intro k hk; rw [ho k hk, hfr]
    · rw [hv', hiss, htoll]
    · intro k hk; rw [hvt]; exact hother k hk
    · rw [hvt]; exact htu
    · rw [lanesPut_eq]; rfl
    · intro l r hr
      show dGet (lanesPut ws t) l r = _
      rw [dGet_lanesPut (fun l r => val l (r - d)) ws t (fun w hw => ⟨hv w hw, by have := hmem w hw; omega⟩) l r hr]
      have : ((l, r) ∈ ws.map (fun w => (w.1, w.2.1))) ↔ (l ∈ lanes ∧ d ≤ r ∧ r < d + n) := by
        constructor
        · intro h
          obtain ⟨w, hw, he⟩ := List.mem_map.1 h
          simp only [Prod.mk.injEq] at he
          obtain ⟨rfl, rfl⟩ := he
          exact hmem w hw
        · rintro ⟨hl, h1, h2⟩
          have : Dest.lane l r ∈ ws.map (fun w => Dest.lane w.1 w.2.1) := by
            rw [hws]
            simp only [laneDests, List.mem_flatMap, List.mem_map]
            exact ⟨l, hl, r, mem_upFrom.2 ⟨h1, h2⟩, rfl⟩
          obtain ⟨w, hw, he⟩ := List.mem_map.1 this
          simp only [Dest.lane.injEq] at he
          exact List.mem_map.2 ⟨w, hw, by rw [he.1, he.2]⟩
      simp only [this]
  cases whole with
  | true =>
    obtain ⟨f', hm, he, hi, ho⟩ := advance_movedOn (len := len) hfu htu h1 h2 h3
    exact hfin _ f' hm he hi ho
  | false =>
    obtain ⟨f', hm, he, hi, ho⟩ := passDone_quiet (len := len) hfu htu h1 h2 h3
    exact hfin _ f' hm he hi ho

end Sys2Proof.Machine
end

