-- ==== Sys2Proof/Laws/Lane.lean ====
section
/-! SUPPORT. What a pass of a lane instruction of one shape does. -/

namespace Sys2Proof.Machine

theorem mode_lt (f : Frag) : f.mode < 4 := Nat.mod_lt _ (by decide)

theorem groupFits_ok {t : Team} {n r h : Nat} (hn : 0 < n) (hh : 0 < h) (g : groupFits t n r h) :
    decide (t.regs ≤ min (r + n * h - 1) 63) = false ∧ (r % (n * h) != 0 || decide (64 < r + n * h)) = false := by
  obtain ⟨h1, h2, h3⟩ := g
  have : 0 < n * h := Nat.mul_pos hn hh
  constructor
  · simp only [decide_eq_false_iff_not]; omega
  · simp only [h1, bne_self_eq_false, Bool.false_or, decide_eq_false_iff_not]; omega

/-- The register checks of an instruction whose operands all fit. -/
theorem checkRegs_ok {s : State} {f : Frag} {t : Team} {w : BitVec 2} {m : Bool} {rs : List (Nat × Nat)} (hm : m = true)
    (hr : ∀ r ∈ rs, 0 < r.2 ∧ groupFits t (2 ^ w.toNat) r.1 r.2) : checkRegs s f t w m rs = .ok () := by
  have hn : 0 < 2 ^ w.toNat := Nat.two_pow_pos _
  unfold checkRegs
  simp only [hm]
  rw [if_neg, if_neg]
  · simp only [Bool.not_true, Bool.false_or, Bool.not_eq_true, List.any_eq_false]
    intro r h
    rw [(groupFits_ok hn (hr r h).1 (hr r h).2).2]
  · simp only [Bool.not_eq_true, List.any_eq_false]
    intro r h
    rw [(groupFits_ok hn (hr r h).1 (hr r h).2).1]

theorem map_flatMap_fst {α β γ : Type} (f : β → γ) (g : α → List β) (l : List α) : (l.flatMap g).map f = l.flatMap (fun a => (g a).map f) := by
  induction l with
  | nil => rfl
  | cons a l ih => simp [List.flatMap_cons, ih]

theorem upFrom_append (a m n : Nat) : upFrom a (m + n) = upFrom a m ++ upFrom (a + m) n := by
  induction m generalizing a with
  | zero => simp [upFrom]
  | succ m ih =>
    rw [show m + 1 + n = (m + n) + 1 by omega]
    simp only [upFrom, ih, List.cons_append, List.cons.injEq, true_and]
    rw [show a + 1 + m = a + (m + 1) by omega]

theorem flatMap_upFrom (d h n : Nat) (lo : Nat) : (upFrom lo n).flatMap (fun j => upFrom (d + j * h) h) = upFrom (d + lo * h) (n * h) := by
  induction n generalizing lo with
  | zero => simp [upFrom]
  | succ n ih =>
    simp only [upFrom, List.flatMap_cons, ih]
    rw [show (n + 1) * h = h + n * h by rw [Nat.add_mul]; omega, upFrom_append]
    rw [show d + (lo + 1) * h = d + lo * h + h by rw [Nat.add_mul]; omega]

theorem nth_eq_getElem {α : Type} (z : α) (l : List α) (n : Nat) (h : n < l.length) : nth z l n = l[n] := by
  induction l generalizing n with
  | nil => simp at h
  | cons a l ih =>
    cases n with
    | zero => rfl
    | succ n => exact ih n (by simpa using h)

theorem mem_zip_upFrom {α : Type} (z : α) {l : List α} {lo : Nat} {v : α × Nat} (h : v ∈ l.zip (upFrom lo l.length)) :
    lo ≤ v.2 ∧ v.2 < lo + l.length ∧ v.1 = nth z l (v.2 - lo) := by
  induction l generalizing lo with
  | nil => simp at h
  | cons a l ih =>
    simp only [List.length_cons, upFrom, List.zip_cons_cons, List.mem_cons] at h
    rcases h with rfl | h
    · simp [nth]
    · obtain ⟨h1, h2, h3⟩ := ih h
      refine ⟨by omega, by simp only [List.length_cons]; omega, ?_⟩
      rw [h3, show v.2 - lo = (v.2 - (lo + 1)) + 1 by omega]
      rfl

theorem map_zip_upFrom {α β : Type} (g : Nat → β) (l : List α) (lo : Nat) :
    (l.zip (upFrom lo l.length)).map (fun v => g v.2) = (upFrom lo l.length).map g := by
  induction l generalizing lo with
  | nil => rfl
  | cons a l ih => simp [upFrom, ih]

/-- What a pass of an instruction given by a form does, when its operands fit and its result has the destination's size. -/
theorem laneGen_written {s : State} {i : Nat} {f : Frag} {t : Team} (k : LaneForm) (hr : Ready s i f t)
    (hm : k.modes f.mode = true) (hk : k.fits t f.mode) (hh : ∀ m, m < 4 → 0 < k.hd m ∧ ∀ a ∈ k.srcs, 0 < a.h m)
    (hl : ∀ l j, (k.result t f l j).1.length = k.hd f.mode) :
    ∃ s', laneGen k.len k.w k.modes k.d k.hd k.srcs k.fn s = .next s' ∧
      LanesWritten false k.len s s' i f t (passLanes f) k.d (k.ops * k.hd f.mode)
        (fun l x => nth 0 (k.result t f l (x / k.hd f.mode)).1 (x % k.hd f.mode)) (k.flags t f) := by
  have hc := hr.1
  have hmode := mode_lt f
  have hpos := (hh _ hmode).1
  have hck : checkRegs s f t k.w (k.modes f.mode) ((k.d, k.hd f.mode) :: k.srcs.map (fun a => (a.r, a.h f.mode))) = .ok () := by
    refine checkRegs_ok hm ?_
    intro r hr
    rcases List.mem_cons.1 hr with rfl | hr
    · exact ⟨hpos, hk.1⟩
    · obtain ⟨a, ha, rfl⟩ := List.mem_map.1 hr
      exact ⟨(hh _ hmode).2 a ha, hk.2 a ha⟩
  let one (l j : Nat) : List (Nat × Nat × DWord) × Nat :=
    (((k.result t f l j).1.zip (upFrom (k.d + j * k.hd f.mode) (k.result t f l j).1.length)).map (fun v => (l, v.2, v.1)), (k.result t f l j).2)
  let rs := (passLanes f).flatMap (fun l => (upFrom 0 k.ops).map (one l))
  have hpr : passResults t f.mode f.acct (2 ^ k.w.toNat) k.d (k.hd f.mode) k.srcs k.fn (wordLanes f.mask (passWord f)) =
      (rs.flatMap Prod.fst, rs.foldl (fun m r => m ||| r.2) 0) := rfl
  have hfl : rs.foldl (fun m r => m ||| r.2) 0 = k.flags t f := by
    unfold LaneForm.flags
    rw [show ((passLanes f).flatMap fun l => (upFrom 0 k.ops).map fun j => (k.result t f l j).2) = rs.map (fun r => r.2) by
      simp only [rs, map_flatMap_fst, List.map_map]; rfl]
    rw [List.foldl_map]
  refine ⟨_, ?_, lanesWritten_of (len := k.len) hr false (rs.flatMap Prod.fst) (k.flags t f) (passLanes f) k.d
    (k.ops * k.hd f.mode) _ ?_ hk.1.2.1 ?_⟩
  · unfold laneGen lanePass
    simp only [hc, hck, hpr, hfl]
    rfl
  · rw [map_flatMap_fst]
    show _ = (passLanes f).flatMap _
    simp only [rs]
    rw [List.flatMap_assoc]
    congr 1
    funext l
    rw [List.flatMap_map]
    have h1 : ∀ j, ((one l j).1.map (fun w => Dest.lane w.1 w.2.1)) = (upFrom (k.d + j * k.hd f.mode) (k.hd f.mode)).map (Dest.lane l) := by
      intro j
      simp only [one, List.map_map]
      have := map_zip_upFrom (Dest.lane l) (k.result t f l j).1 (k.d + j * k.hd f.mode)
      rw [hl l j] at this
      rw [hl l j]
      exact this
    have h2 : (fun j => (one l j).1.map (fun w => Dest.lane w.1 w.2.1)) =
        fun j => (upFrom (k.d + j * k.hd f.mode) (k.hd f.mode)).map (Dest.lane l) := funext h1
    show (upFrom 0 k.ops).flatMap (fun j => (one l j).1.map (fun w => Dest.lane w.1 w.2.1)) = _
    rw [h2, ← map_flatMap_fst, flatMap_upFrom]
    simp
  · intro w hw
    obtain ⟨r, hr, hw⟩ := List.mem_flatMap.1 hw
    obtain ⟨l, hlm, hr⟩ := List.mem_flatMap.1 hr
    obtain ⟨j, hj, rfl⟩ := List.mem_map.1 hr
    obtain ⟨v, hv, rfl⟩ := List.mem_map.1 hw
    obtain ⟨h1, h2, h3⟩ := mem_zip_upFrom 0 hv
    rw [hl l j] at h2
    show v.1 = nth 0 (k.result t f l ((v.2 - k.d) / k.hd f.mode)).1 ((v.2 - k.d) % k.hd f.mode)
    have e1 : v.2 - k.d = k.hd f.mode * j + (v.2 - (k.d + j * k.hd f.mode)) := by rw [Nat.mul_comm]; omega
    have e2 : (v.2 - k.d) / k.hd f.mode = j := by
      rw [e1, Nat.mul_add_div hpos, Nat.div_eq_of_lt (by omega)]; omega
    have e3 : (v.2 - k.d) % k.hd f.mode = v.2 - (k.d + j * k.hd f.mode) := by
      rw [e1, Nat.mul_add_mod, Nat.mod_eq_of_lt (by omega)]
    rw [e2, e3, h3]

end Sys2Proof.Machine
end

