-- ==== Sys2Proof/Laws/Scalar.lean ====
section
/-! SUPPORT. What an instruction does that writes a scalar register or changes only its team. -/

namespace Sys2Proof.Machine

theorem lockGate_free {team : Nat} {p : Nat × Nat × Nat → Bool} {s : State} (h1 : lockedWaiting s team p = false)
    (h2 : locked s team p = false) : lockGate team p s = (true, s) := by
  simp [lockGate, h1, h2]

theorem destGate_free {s : State} {f : Frag} {n : Nat} (h : ScalarFree s f n) : destGate f.team (sDest f.handler n) s = (true, s) := by
  unfold sDest destGate
  cases hc : (f.handler && decide (24 ≤ n))
  · exact lockGate_free h.1 h.2
  · rfl

theorem toScalar_free {s : State} {f : Frag} {n : Nat} {v : DWord} (h : ScalarFree s f n) :
    toScalar f n v s = .ok (writeScalar f n v s) := by
  unfold toScalar
  rw [destGate_free h]
  rfl

theorem putDest_gcore (d : Dest) (v : DWord) (t : Team) : (putDest d v t).gcore = t.gcore := by
  cases d with
  | lane l r => rfl
  | scalar n => by_cases h : n = 0 <;> simp [putDest, h]
  | bank n => rfl

/-- An instruction of one pass that changes only the issuing team and results in flight, with its end. -/
theorem advance_team {s u : State} {i : Nat} {f : Frag} {t t' : Team} (hr : Ready s i f t)
    (hu : u = { s with teams := u.teams, ops := u.ops }) (ht : amGet f.team u.teams = some t') (hg : t'.gcore = t.gcore)
    (ho : ∀ k, k ≠ f.team → amGet k u.teams = amGet k s.teams) :
    OnlyTeam true 4 s (advance i 4 u) i f t ∧ (advance i 4 u).ops = u.ops ∧ amGet f.team (advance i 4 u).teams = some t' := by
  obtain ⟨hc, h1, h2, h3⟩ := hr
  obtain ⟨-, hf, hts⟩ := current_some hc
  have hfr : u.frags = s.frags := by rw [hu]
  have htoll : u.toll = s.toll := by rw [hu]
  have hiss : u.issued = s.issued := by rw [hu]
  have hfu : amGet i u.frags = some f := by rw [hfr]; exact hf
  obtain ⟨f', hm, he, hi, hk⟩ := advance_movedOn (len := 4) hfu ht h1 h2 h3
  generalize advance i 4 u = v at *
  have hti : v.issued = amPut t.gcore (s.toll + 1) s.issued := by rw [he, hg, htoll, hiss]
  have htt : v.teams = u.teams := by rw [he]
  have hto : v.ops = u.ops := by rw [he]
  refine ⟨⟨?_, ?_, ⟨f', hi, htoll ▸ hm⟩, hti, ?_⟩, hto, ?_⟩
  · conv => lhs; rw [he, hu]
    rw [hti, htt, hto, hg]
  · intro k hk'; rw [hk k hk', hfr]
  · intro k hk'; rw [htt]; exact ho k hk'
  · rw [htt]; exact ht

theorem scalarWritten_of {s : State} {i : Nat} {f : Frag} {t : Team} {n : Nat} {v : DWord} (hr : Ready s i f t) :
    ScalarWritten 4 s (advance i 4 (writeScalar f n v s)) i f t n v := by
  have hts := (current_some hr.1).2.2
  have h := advance_team (u := writeScalar f n v s) (t' := putDest (sDest f.handler n) v t) hr rfl
    (by simp [writeScalar, amGet_amMod, hts]) (putDest_gcore _ _ _)
    (by intro k hk; simp [writeScalar, amGet_amMod, hk])
  exact ⟨h.1, h.2.1, h.2.2⟩

theorem scalarOp_next {d : BitVec 5} {val : State → Frag → Team → DWord} {s : State} {i : Nat} {f : Frag} {t : Team}
    (hr : Ready s i f t) (hf : ScalarFree s f d.toNat) :
    scalarOp d val s = .next (advance i 4 (writeScalar f d.toNat (val s f t) s)) := by
  simp [scalarOp, onePass, hr.1, toScalar_free hf]

theorem modTeam_changed {s : State} {i : Nat} {f : Frag} {t : Team} (g : Team → Team) (hr : Ready s i f t) (hg : (g t).gcore = t.gcore) :
    TeamChanged s (advance i 4 (modTeam f.team g s)) i f t (g t) := by
  have hts := (current_some hr.1).2.2
  exact advance_team (u := modTeam f.team g s) hr rfl (by simp [amGet_amMod, hts]) hg (by intro k hk; simp [amGet_amMod, hk])

end Sys2Proof.Machine
end

