-- ==== Sys2Proof/Tests/Slice0.lean ====
section
/-! SUPPORT. Tests: the checks of well-formedness, words written out from the spec's encodings, single steps whose results are the
spec's own or worked by hand from its rules, and for every statement with hypotheses a concrete state and operands that meet
them. -/

set_option maxRecDepth 20000
set_option Elab.async false

noncomputable section

namespace Sys2Proof.Tests

open Sys2Proof Sys2Proof.Machine Host

/-! ### Well-formedness: an ill-formed term for each check -/

/-- R69: an operand that is no multiple of the width, as destination, first and second source. -/
theorem test_wf_refuses_width : (Instr.iadd 1 1 0 0 0 0).wf = false ∧ (Instr.iadd 2 0 2 0 0 0).wf = false ∧
    (Instr.iadd 3 0 0 0 4 0).wf = false ∧ (Instr.rcp 1 3 0 0).wf = false ∧ (Instr.astoIadd 3 4 0 0).wf = false ∧
    (Instr.spill 1 1 0 0).wf = false := by decide
/-- R153, R212: the immediates of RND (1 to 24) and SRND (count field below 24). -/
theorem test_wf_refuses_rounding : (Instr.rnd 0 0 0 0 0).wf = false ∧ (Instr.rnd 0 0 0 0 25).wf = false ∧
    (Instr.srnd 0 0 0 0 0 24).wf = false := by decide
/-- R194: qualifiers a load or a store does not have, and WF, WFE and SF of a span above 16 bytes. -/
theorem test_wf_refuses_qualifiers : (Instr.ldb 0 0 0 2 0).wf = false ∧ (Instr.ldw 0 0 0 4 0).wf = false ∧
    (Instr.ldd 2 0 0 1 0).wf = false ∧ (Instr.ldw 3 0 0 3 0).wf = false ∧ (Instr.stb 0 0 0 3 0).wf = false ∧
    (Instr.std 2 0 0 1 0).wf = false := by decide
/-- R40, R122, R355, R351: scopes and kinds that do not exist. -/
theorem test_wf_refuses_scopes : (Instr.fence 6 1).wf = false ∧ (Instr.fence 0 0).wf = false ∧ (Instr.ctrAdd 1 2 3 6).wf = false ∧
    (Instr.ctrWait 1 2 3 6).wf = false ∧ (Instr.ctrLoad 1 3 6).wf = false ∧ (Instr.crlPost 1 2 3 6).wf = false ∧
    (Instr.emit 2 0 0).wf = false ∧ (Instr.emit 6 0 0).wf = false := by decide
/-- R117: pattern slot 0 or above 3, and pattern parameters out of range. -/
theorem test_wf_refuses_patterns : (Instr.xps 0 0 0).wf = false ∧ (Instr.xps 4 0 0).wf = false ∧ (Instr.xps 1 5 2).wf = false ∧
    (Instr.xps 1 0 3).wf = false ∧ (Instr.xps 1 6 3).wf = false := by decide
/-- R119, R295, R73: a cancel level above 3, an unnamed service below 4, a set field of 12 to 14. -/
theorem test_wf_refuses_numbers : (Instr.sysCancel 4).wf = false ∧ (Instr.svcUnknown 3).wf = false ∧
    (Instr.clause 0 12 15 0 0).wf = false ∧ (Instr.clause 0 15 14 0 0).wf = false := by decide
/-- R344: the Carillon's window above 64, counts of 0 and above 256, and the condition without a meaning. -/
theorem test_wf_refuses_micro : (Instr.cpen 65 0).wf = false ∧ (Instr.ctopk 0).wf = false ∧ (Instr.ctopk 257).wf = false ∧
    (Instr.br 0 3 0).wf = false := by decide

/-! ### Words of each format, field by field from the spec's tables (R64 to R67, R82 and the engines' minors) -/

/-- R64, R65: bit 15 zero, b, d, op, bit 0 zero. IADD d1, d1, d2 is op 1; MOV d3, d31 is op 0. -/
theorem test_word_half : decode16 (0#1 ++ 2#5 ++ 1#5 ++ 1#4 ++ 0#1).toNat = .ok (.iadd16 1 2) ∧
    decode16 (0#1 ++ 31#5 ++ 3#5 ++ 0#4 ++ 0#1).toNat = .ok (.mov 3 31) ∧
    (decode16 (1#1 ++ 2#5 ++ 1#5 ++ 1#4 ++ 0#1).toNat).toOption = none := ⟨rfl, rfl, rfl⟩
/-- The L format: pb, b, pa, a, d, w, major, 1. IADD.1 d1, d2:x1, d3:x2; SEL.2 d4, d6, d8; DCOV d5, d7, d9. -/
theorem test_word_l : decode32 (2#2 ++ 3#6 ++ 1#2 ++ 2#6 ++ 1#6 ++ 0#2 ++ 0x00#7 ++ 1#1).toNat = .ok (.iadd 0 1 2 1 3 2) ∧
    decode32 (0#2 ++ 8#6 ++ 0#2 ++ 6#6 ++ 4#6 ++ 1#2 ++ 0x24#7 ++ 1#1).toNat = .ok (.sel 1 4 6 0 8 0) ∧
    decode32 (0#2 ++ 9#6 ++ 0#2 ++ 7#6 ++ 5#6 ++ 0#2 ++ 0x37#7 ++ 1#1).toNat = .ok (.dcov 0 5 7 0 9 0) := ⟨rfl, rfl, rfl⟩
/-- The LI format: imm8, pa, a, d, w. ADDI d1, d2, −3. -/
theorem test_word_li : decode32 (0xFD#8 ++ 0#2 ++ 2#6 ++ 1#6 ++ 0#2 ++ 0x16#7 ++ 1#1).toNat = .ok (.addi 0 1 2 0 0xFD) := rfl
/-- The LU format: two zero bits, fn6, pa, a, d, w. RSQ (fn6 1) and XRED.IADD (fn6 0). -/
theorem test_word_lu : decode32 (0#2 ++ 1#6 ++ 3#2 ++ 2#6 ++ 1#6 ++ 0#2 ++ 0x25#7 ++ 1#1).toNat = .ok (.rsq 0 1 2 3) ∧
    (decode32 (1#2 ++ 1#6 ++ 3#2 ++ 2#6 ++ 1#6 ++ 0#2 ++ 0x25#7 ++ 1#1).toNat).toOption = none := ⟨rfl, rfl⟩
/-- The LW format: imm16, d, two zero bits. MOVHI d7, 0x3F80. -/
theorem test_word_lw : decode32 (0x3F80#16 ++ 7#6 ++ 0#2 ++ 0x2B#7 ++ 1#1).toNat = .ok (.movhi 7 0x3F80) := rfl
/-- The A format: imm7, q3, a, d, w. LDW.2 d4, [d2 + 16·3]; STD d6, [d1 − 16] set-full; FENCE DEVICE, REL as R40 lays it out. -/
theorem test_word_a : decode32 (3#7 ++ 0#3 ++ 2#6 ++ 4#6 ++ 1#2 ++ 0x42#7 ++ 1#1).toNat = .ok (.ldw 1 4 2 0 3) ∧
    decode32 (0x7F#7 ++ 1#3 ++ 1#6 ++ 6#6 ++ 0#2 ++ 0x47#7 ++ 1#1).toNat = .ok (.std 0 6 1 1 0x7F) ∧
    decode32 (0#5 ++ 1#2 ++ 4#3 ++ 0#6 ++ 0#6 ++ 0#2 ++ 0x49#7 ++ 1#1).toNat = .ok (.fence 4 1) := ⟨rfl, rfl, rfl⟩
/-- The S and SI formats: five zero bits, sb, sa, sd, minor; imm10, sa, sd, minor. SALU minor 1 is SUB, SALUI minor 0 is ADD. -/
theorem test_word_s : decode32 (0#5 ++ 3#5 ++ 2#5 ++ 1#5 ++ 1#4 ++ 0x6F#7 ++ 1#1).toNat = .ok (.saluSub 1 2 3) ∧
    decode32 (0x3FF#10 ++ 2#5 ++ 1#5 ++ 0#4 ++ 0x70#7 ++ 1#1).toNat = .ok (.saluiAdd 1 2 0x3FF) := ⟨rfl, rfl⟩
/-- The B, Z and SPLIT formats: off24; off18, s, minor; off18, condition register. -/
theorem test_word_branches : decode32 (0xFFFFFE#24 ++ 0x68#7 ++ 1#1).toNat = .ok (.bra 0xFFFFFE) ∧
    decode32 (5#18 ++ 9#5 ++ 1#1 ++ 0x69#7 ++ 1#1).toNat = .ok (.brnz 9 5) ∧
    decode32 (0x3FFFF#18 ++ 12#6 ++ 0x6A#7 ++ 1#1).toNat = .ok (.split 12 0x3FFFF) := ⟨rfl, rfl, rfl⟩
/-- The C format: res0, acct, mode, set-B, set-A, wait. CLAUSE wait=f0|f3 set=f1,- mode=LIN acct. -/
theorem test_word_clause : decode32 (0#1 ++ 1#1 ++ 2#2 ++ 15#4 ++ 1#4 ++ 9#12 ++ 0x7F#7 ++ 1#1).toNat = .ok (.clause 9 1 15 2 1) := rfl
/-- R83: a reserved major, and a reserved bit of the C format. -/
theorem test_word_reserved : (decode32 (0#24 ++ 0x7E#7 ++ 1#1).toNat).toOption = none ∧
    (decode32 (1#1 ++ 0#1 ++ 0#2 ++ 15#4 ++ 15#4 ++ 0#12 ++ 0x7F#7 ++ 1#1).toNat).toOption = none := ⟨rfl, rfl⟩
/-- The encoder gives back a word of each format. -/
theorem test_encode : encode (.rsq 0 1 2 3) = (0#2 ++ 1#6 ++ 3#2 ++ 2#6 ++ 1#6 ++ 0#2 ++ 0x25#7 ++ 1#1).toNat ∧
    encode (.brnz 9 5) = (5#18 ++ 9#5 ++ 1#1 ++ 0x69#7 ++ 1#1).toNat ∧ encode (.fadd16 3 7) = 0x1C72 ∧
    encode (.fma 1 8 2 1 20 0) = 0x1442213D ∧ encode (.waitc 2) = 0x50000002 := by decide

/-! ### A small machine: context 0, unit 0 on cluster 0 with 64 KiB of scratchpad, team 0 of 32 lanes, and fragment 1 -/

/-- The word of a clause header with set-A f0, set-B f1 and a mode. -/
def hdr (m : Nat) : Word := BitVec.ofNat 32 (0xFF + 2 ^ 24 + m * 2 ^ 28)
/-- A fragment of every lane in a clause of mode m. -/
def frag (m : Nat) : Frag := { newFrag 0 (dw 0x10004) (fullMask 32) 0 none with clause := ⟨dw 0x10000, hdr m⟩ }
/-- The team: d1 of each lane is a scratchpad address of its own, s1 a page of counters, s3 the scratchpad, s4 one, s5 the largest
number. -/
def team : Team :=
  { freshTeam setupLaunch 0 0 0 0 0 0 with
    accCount := 4
    d := (upFrom 0 32).map (fun l => (64 * l + 1, dw (scratchBase + 16 * l)))
    s := [(1, 0x20000), (3, dw scratchBase), (4, 1), (5, 0xFFFFFFFFFFFFFFFF), (6, 0x30000), (7, 0x50000), (8, 0x60000), (9, 0x40000),
          (16, 0x30000), (17, 1)] }
/-- The unit. -/
def unit : UnitSt := { setupUnit with scratch := [(0, (2 ^ 48, 65536))], she := 0x10000 }
/-- The page tables: pages 0x10000 (code), 0x20000 (data with counters), 0x30000 (first touch), 0x40000 (a resident tile's), 0x50000 (an
absent tile's) and 0x60000 (nothing). -/
def tables : List Host.Cell :=
  let entry (a : Nat) (e : Nat) (m : List Host.Cell) : List Host.Cell := putBytes m a (natBytes 8 e)
  entry 0x10000 0x20001 (entry 0x20000 0x30001 (entry 0x30000 0x40001 (entry 0x40008 (0x3A + 16 * 2 ^ 16)
    (entry 0x40010 (0x23A + 17 * 2 ^ 16) (entry 0x40018 0x1B (entry 0x40020 (0x41A + 18 * 2 ^ 16)
      (entry 0x40028 (0x41C + 20 * 2 ^ 16) [])))))))
/-- The machine with fragment f of team t selected. -/
def mach (f : Frag) (t : Team) : State :=
  { State.reset with
    cur := some 1, seq := 8, mem := tables, boot := { State.reset.boot with state := 2 }, ctxs := [(0, setupContext)],
    launches := [(0, setupLaunch)], units := [(0, unit)], teams := [(0, t)], frags := [(1, f)] }

/-- A computation that succeeds, with a property of its result. -/
theorem ok_meets {ε α : Type} {p : α → Prop} [DecidablePred p] {x : Except ε α} (h : x.toOption.any (fun a => decide (p a)) = true) :
    ∃ a, x = .ok a ∧ p a := by
  cases x with
  | error e => simp [Except.toOption] at h
  | ok a => exact ⟨a, rfl, by simpa [Except.toOption] using h⟩

/-! ### The lanes -/

theorem witness_IntegerLanesGetTheirResults : IntegerLane (.iadd 3 0 8 1 56 0) (threeReg 3 0 8 1 56 0 anyMode (intFn2 (fun x y _ => x + y))) ∧
    Ready (mach (frag 0) team) 1 (frag 0) team ∧ anyMode (frag 0).mode = true ∧
    (threeReg 3 0 8 1 56 0 anyMode (intFn2 (fun x y _ => x + y))).fits team (frag 0).mode :=
  ⟨.iadd 3 0 8 1 56 0, by decide +kernel, rfl, by decide +kernel⟩
theorem witness_FloatLanesGetTheirResults : FloatLane (.fma 1 8 2 1 20 0) (threeReg 1 8 2 1 20 0 anyMode (fpFn opFma)) ∧
    Ready (mach (frag 1) team) 1 (frag 1) team ∧ (threeReg 1 8 2 1 20 0 anyMode (fpFn opFma)).fits team (frag 1).mode :=
  ⟨.fma 1 8 2 1 20 0, by decide +kernel, by decide +kernel⟩
/-- In SMP, where DTOS is defined: d in groups of four at the top of the registers. -/
theorem witness_SpreadLanesGetTheirResults : SpreadLane (.dtos 0 60 3 0) ⟨4, 0, smpOnly, 60, four, [⟨3, 0, single⟩], spreadMom⟩ ∧
    Ready (mach (frag 3) team) 1 (frag 3) team ∧ smpOnly (frag 3).mode = true ∧
    (⟨4, 0, smpOnly, 60, four, [⟨3, 0, single⟩], spreadMom⟩ : LaneForm).fits team (frag 3).mode :=
  ⟨.dtos 0 60 3 0, by decide +kernel, rfl, by decide +kernel⟩
/-- A register at the declared count; a mode in which DTOS is not defined; a group that is no multiple of its size. -/
theorem witness_LaneOperandsOutOfRangeTrap :
    (IntegerLane (.iadd16 7 8) (shortForm 7 8 (intFn2 (fun x y _ => x + y))) ∧
      current (mach (frag 0) { team with regs := 8 }) = some (1, frag 0, { team with regs := 8 }) ∧ 8 ≤ min (8 + 1 * groupOf 0 - 1) 63) ∧
    (SpreadLane (.dtos 0 60 3 0) ⟨4, 0, smpOnly, 60, four, [⟨3, 0, single⟩], spreadMom⟩ ∧
      current (mach (frag 1) team) = some (1, frag 1, team) ∧ smpOnly (frag 1).mode = false) ∧
    (FloatLane (.fadd16 3 2) (shortForm 3 2 (fpFn opAdd)) ∧ current (mach (frag 2) team) = some (1, frag 2, team) ∧
      3 % (1 * groupOf (frag 2).mode) ≠ 0 ∧ min (3 + 1 * groupOf (frag 2).mode - 1) 63 < team.regs) :=
  ⟨⟨.iadd16 7 8, by decide +kernel, by decide⟩, ⟨.dtos 0 60 3 0, by decide +kernel, rfl⟩,
   ⟨.fadd16 3 2, by decide +kernel, by decide +kernel, by decide +kernel⟩⟩
theorem witness_MovesWriteOneRegisterPerLane : MoveLane (.mov 31 0) 2 31 [0] (fun t l => dGet t l 0) ∧
    Ready (mach (frag 2) team) 1 (frag 2) team ∧ 31 < team.regs ∧ ∀ r ∈ [0], r < team.regs :=
  ⟨.mov 31 0, by decide +kernel, by decide, by decide⟩
theorem witness_PermuteMovesWholeGroups : Ready (mach (frag 3) team) 1 (frag 3) team ∧
    ∀ r ∈ [8, 16, 56], groupFits team (2 ^ (1 : BitVec 2).toNat) r (groupOf (frag 3).mode) := ⟨by decide +kernel, by decide +kernel⟩
/-- LANE.HOME: addresses of the scratchpad in every lane; and pages mapped, in a tile's log, and not touched. -/
theorem witness_HomeOfAnAddressIsReported :
    (∃ r, homeLanes team 0 1 (passLanes (frag 0)) (mach (frag 0) team) = .ok r ∧ r.2.length = 32) ∧
    unitOf (mach (frag 0) team) team = some unit ∧
    (checkSpan scratchBase 1 = none ∧ aperture scratchBase = 1 ∧ (scratchSpot unit scratchBase 1).isSome) ∧
    (∀ a ∈ [0x20000, 0x50000, 0x30000], checkSpan (a : Nat) 1 = none ∧ aperture a = 0) ∧
    (∃ pa e, (translate 0 0 0x20000 needLoad (mach (frag 0) team)).1 = .page pa e) ∧
    (∃ e, (translate 0 0 0x50000 needLoad (mach (frag 0) team)).1 = .loggable e) ∧
    (∃ e, (translate 0 0 0x30000 needLoad (mach (frag 0) team)).1 = .touch e) :=
  ⟨ok_meets (by decide +kernel), by decide +kernel, by decide +kernel, by decide +kernel, ⟨17 * 2 ^ 16, dw (0x23A + 17 * 2 ^ 16), by decide +kernel⟩,
   ⟨dw (0x41C + 20 * 2 ^ 16), by decide +kernel⟩, ⟨0x1B, by decide +kernel⟩⟩
theorem witness_IntegerReductionsCombineActiveLanes : IntegerReduction (.xredIadd 2 1 0) 2 1 0 (fun x y => x + y) ∧
    Ready (mach (frag 1) team) 1 (frag 1) team ∧ reductionFits (frag 1) team 2 1 := ⟨.add 2 1 0, by decide +kernel, by decide +kernel⟩
theorem witness_FloatReductionsFollowTheTree : FloatReduction (.xredFadd 2 1 0) 2 1 0 (fpFn opAdd) ∧
    Ready (mach (frag 0) team) 1 (frag 0) team ∧ reductionFits (frag 0) team 2 1 := ⟨.add 2 1 0, by decide +kernel, by decide +kernel⟩
/-- A fragment of 64 lanes, whose instructions take two passes. -/
def wide : Frag := { frag 0 with mask := fullMask 64 }
/-- The register 63 is declared, and in a team of 63 registers it is not; the last pass, and one that is not. -/
theorem witness_VotesCountActiveLanes :
    Vote (.voteCount 4 63 0) 4 63 0 (fun g v => v.toNat = ((upFrom 0 1024).filter (fun l => g.taken.getLsbD l)).length) ∧
    (Ready (mach (frag 0) team) 1 (frag 0) team ∧ (63 : BitVec 6).toNat < team.regs ∧ lastPass (frag 0) = true ∧
      ScalarFree (mach (frag 0) team) (frag 0) 4) ∧
    (Ready (mach wide team) 1 wide team ∧ lastPass wide = false) ∧
    (Ready (mach (frag 0) { team with regs := 63 }) 1 (frag 0) { team with regs := 63 } ∧
      ({ team with regs := 63 } : Team).regs ≤ (63 : BitVec 6).toNat) :=
  ⟨.count 4 63 0, by decide +kernel, by decide +kernel, by decide +kernel⟩

/-! ### The scalars -/

theorem witness_ScalarArithmeticWritesItsResult : ScalarArith (.saluAdd 0 4 5) 0 (fun r => r 4 + r 5) ∧
    Ready (mach (frag 0) team) 1 (frag 0) team ∧ ScalarFree (mach (frag 0) team) (frag 0) 0 :=
  ⟨.add 0 4 5, by decide +kernel, by decide +kernel⟩
theorem witness_ScalarFloatWritesItsResult : ScalarFloat (.sfpuDiv 31 4 5) 31 (fun r => lowWords fDiv (r 4) (r 5)) ∧
    Ready (mach (frag 0) team) 1 (frag 0) team ∧ ScalarFree (mach (frag 0) team) (frag 0) 31 :=
  ⟨.div 31 4 5, by decide +kernel, by decide +kernel⟩
theorem witness_TeamRegistersAreReadAndWritten : TeamRead (.tsrFlr 31) 31 (fun t => t.flags) ∧
    TeamWrite .yield (fun _ t => t) ∧ Ready (mach (frag 0) team) 1 (frag 0) team ∧
    ScalarFree (mach (frag 0) team) (frag 0) 31 ∧ locked (mach (frag 0) team) (frag 0).team (fun l => l.1 == 7) = false ∧
    lockedWaiting (mach (frag 0) team) (frag 0).team (fun l => l.1 == 7) = false :=
  ⟨.tsrFlr 31, .yield, by decide +kernel, by decide +kernel, by decide +kernel, by decide +kernel⟩
theorem witness_UnitRegistersAddIndivisibly : current (mach (frag 0) team) = some (1, frag 0, team) ∧
    amGet team.unit (mach (frag 0) team).units = some unit ∧ ScalarFree (mach (frag 0) team) (frag 0) 0 :=
  ⟨by decide +kernel, by decide +kernel, by decide +kernel⟩
/-- A handler. -/
def handler : Frag := { frag 0 with handler := true }
/-- SYS.RD of the numbers at the ends of the ranges 0 to 14, 15, 16 to 22 and 23 to 31, by a fragment and by a handler. -/
theorem witness_SystemRegistersAreReadByPrivilege :
    Ready (mach (frag 0) team) 1 (frag 0) team ∧ Ready (mach handler team) 1 handler team ∧
    amGet team.unit (mach (frag 0) team).units = some unit ∧ ScalarFree (mach (frag 0) team) (frag 0) 31 ∧
    ScalarFree (mach handler team) handler 31 ∧
    (∀ n ∈ [0, 14], (sysAny (mach (frag 0) team) unit team n).isSome) ∧ (∀ n ∈ [15, 16, 22, 23, 31], sysAny (mach (frag 0) team) unit team n = none) ∧
    (frag 0).handler = false ∧ handler.handler = true :=
  ⟨by decide +kernel, by decide +kernel, by decide +kernel, by decide +kernel, by decide +kernel, by decide +kernel, by decide +kernel, rfl, rfl⟩
/-- HSEL naming the team itself, an exited one, and none. -/
theorem witness_HandlersWriteSystemRegisters :
    (current (mach handler team) = some (1, handler, team) ∧ teamAt (mach handler team) unit team.hsel = some (0, team) ∧ team.exited = false ∧
      ScalarFree (mach handler team) handler 31 ∧ lockedWaiting (mach handler team) 0 (scalarLock 31) = false ∧
      locked (mach handler team) 0 (scalarLock 31) = false) ∧
    (let s := { mach handler team with units := [(0, { unit with teams := [0, 3] })],
                                       teams := [(0, { team with hsel := 1 }), (3, { team with idx := 1, exited := true })] }
     ∃ k x, teamAt s { unit with teams := [0, 3] } 1 = some (k, x) ∧ x.exited = true) ∧
    teamAt (mach handler { team with hsel := 15 }) unit 15 = none ∧ (frag 0).handler = false :=
  ⟨by decide +kernel, ⟨3, { team with idx := 1, exited := true }, by decide +kernel⟩, by decide +kernel, rfl⟩

/-! ### Control transfers, clauses and the kettle -/

theorem witness_TransfersGoToTheirTargets : current (mach (frag 0) team) = some (1, frag 0, team) ∧
    sGet team false 4 ≠ 0 ∧ sGet team false 30 = 0 ∧ ScalarFree (mach (frag 0) team) (frag 0) 31 :=
  ⟨by decide +kernel, by decide +kernel, by decide +kernel, by decide +kernel⟩
theorem witness_InstructionsEndAtTheNextAddress : amGet 1 (mach (frag 0) team).frags = some (frag 0) ∧
    amGet (frag 0).team (mach (frag 0) team).teams = some team ∧ (frag 0).hit = none ∧ (frag 0).stopFor = none ∧ (frag 0).stepping = none ∧
    bitsOf (dbgReg (mach (frag 0) team) (dieOf team.gcore) ((dbgBank (dieOf team.gcore) (secureTeam (mach (frag 0) team) team)).2 + 0x200 + 8 * (team.gcore % 768 / 64))) (team.gcore % 768 % 64) (team.gcore % 768 % 64) = 0 :=
  ⟨by decide +kernel, by decide +kernel, rfl, rfl, rfl, by decide +kernel⟩
/-- An operation of the team that holds a flag. -/
def flagged (tag : Nat) (body : OpBody) : Op :=
  { ord := 3, phase := none, weight := 0, fault := none, unit := 0, team := 0, frag := 1, gcore := 0, ctx := 0, tag := some tag, body := body }
/-- CLAUSE waiting on f11: with the flag clear, and with an operation that holds it; a fragment that waits at a header whose flags have
been clear since an earlier tick, since this one, or are not; and a flag whose clearing counts from tick 5 on. -/
theorem witness_HeadersOpenTheirClause :
    (current (mach (frag 0) team) = some (1, frag 0, team) ∧ amGet team.unit (mach (frag 0) team).units = some unit ∧
      (∀ k, k < 12 → (0x800 : BitVec 12).getLsbD k = true → flagSet (mach (frag 0) team) 0 k = false) ∧
      clearedAt { team with clearAt := [(11, 5)] } 0x800FF = 5) ∧
    (let s := { mach (frag 0) team with ops := [(3, flagged 11 .taking)] }
     current s = some (1, frag 0, team) ∧ (0x800 : BitVec 12).getLsbD 11 = true ∧ flagSet s 0 11 = true) ∧
    (∀ c ∈ [some 0, some 5, none], let f := { frag 0 with wait := .header 0x800FF c }
     let s := { mach f team with toll := 5 }
     amGet 1 s.frags = some f ∧ f.wait = .header 0x800FF c ∧ ∀ k, k < 12 → (0x800FF : Word).getLsbD (8 + k) = true → flagSet s f.team k = false) ∧
    ((0 : Nat) < 5 ∧ (5 : Nat) ≤ 5) ∧
    (let f := { frag 0 with wait := .header 0x800FF (some 0) }
     let s := { mach f team with toll := 5, ops := [(3, flagged 11 .taking)] }
     (0x800FF : Word).getLsbD (8 + 11) = true ∧ flagSet s f.team 11 = true) :=
  ⟨by decide +kernel, by decide +kernel, by decide +kernel, by decide, by decide +kernel⟩
/-- A kettle entry whose RADDR is the header of the fragment's clause. -/
def kettleEntry (out : Nat) (serial : Bool) : Entry :=
  { raddr := 0x10000, parent := none, out := out, serial := serial, freed := false, dstarted := false, dpc := 0x10004,
    dclause := ⟨0x10000, hdr 0⟩, dmask := 1 }
/-- The condition register d2 is true in lanes 0 to 15: SPLIT on it divides; on d1 every lane goes, on d0 none. -/
def splitTeam : Team := { team with d := (upFrom 0 16).map (fun l => (64 * l + 2, 1)) }
/-- It with a full hardware kettle, and room in its spill area in the scratchpad for two records, of which `spilled` are in use. -/
def fullTeam (spilled : Nat) : Team :=
  { splitTeam with
    kettle := (upFrom 0 32).map (fun _ => kettleEntry 2 false), ksb := dw (scratchBase + 0x8000), ksz := 352, ksp := 176 * spilled }
/-- A fragment with PENDING whose record-sized access to the spill area is translated, of a plain entry and of a serial one; and an entry
whose record holds all of it. -/
theorem witness_SplitSpillsItsLowestEntry :
    let f := { frag 0 with pending := some 0x10100 }
    let s := mach f (fullTeam 1)
    current s = some (1, f, fullTeam 1) ∧ (fullTeam 1).kettle.length = 31 + 1 ∧ (fullTeam 1).ksp + 176 ≤ (fullTeam 1).ksz.toNat ∧
    (∃ r, laneAccess 1 (fullTeam 1) 0 ((fullTeam 1).ksb.toNat + (fullTeam 1).ksp : Nat) 16 1 needStore false 0 s = .ok r ∧ r.2.length = 1) ∧
    (∃ r, laneAccess 1 (fullTeam 1) 0 ((fullTeam 1).ksb.toNat + (fullTeam 1).ksp : Nat) 176 1 needStore false 0 s = .ok r ∧ r.2.length = 1) ∧
    (kettleEntry 2 true).out < 256 ∧ (kettleEntry 2 true).parent = none :=
  ⟨by decide +kernel, by decide, by decide, ok_meets (by decide +kernel), ok_meets (by decide +kernel), by decide, rfl⟩
theorem witness_SplitDividesTheFragment :
    let f := { frag 0 with pending := some 0x10100 }
    let taken := fun (f : Frag) (t : Team) (d : Nat) => (gathered f (fun l => meanOf (dGet t l d) != 0) 0).taken
    (current (mach (frag 0) splitTeam) = some (1, frag 0, splitTeam) ∧ (frag 0).pending = none ∧ 2 < splitTeam.regs ∧
    current (mach f splitTeam) = some (1, f, splitTeam) ∧ lastPass f = true ∧
    (f.mask &&& ~~~(taken f splitTeam 2) ≠ 0 ∧ taken f splitTeam 2 ≠ 0 ∧ splitTeam.kettle.length < 32 ∧ f.stepping = none) ∧
    (f.mask &&& ~~~(taken f splitTeam 3) ≠ 0 ∧ taken f splitTeam 3 = 0) ∧
    (let t := { team with d := (upFrom 0 32).map (fun l => (64 * l + 2, 1)) }
     f.mask &&& ~~~(taken f t 2) = 0) ∧
    (let t := { splitTeam with kettle := (upFrom 0 32).map (fun _ => kettleEntry 2 false), ksz := 175 }
     current (mach f t) = some (1, f, t) ∧ t.kettle.length = 32 ∧ t.ksz.toNat < t.ksp + 176) ∧
    (let g := { wide with pending := some 0x10100 }
     current (mach g splitTeam) = some (1, g, splitTeam) ∧ lastPass g = false) ∧
    ({ team with regs := 2 } : Team).regs ≤ (2 : BitVec 6).toNat) ∧
    (let s := { mach f splitTeam with mem := putBytes tables (16 * 2 ^ 16 + 4 + 0x100) [0xFF, 0] }
     let far := (f.pc.toNat : Int) + 2 * (0x80 : BitVec 24).toInt
     0 ≤ far ∧ far < 2 ^ 64 ∧ ∃ h, (fetchHalf splitTeam unit (BitVec.ofInt 64 far) s).1 = .half h ∧ h % 256 = 0xFF) ∧
    (f.pc.toNat : Int) + 2 * (0x800000 : BitVec 24).toInt < 0 :=
  ⟨by and_intros <;> decide +kernel, ⟨by decide +kernel, by decide +kernel, 0xFF, by decide +kernel⟩, by decide +kernel⟩
/-- A team whose only entry is e, and a machine where fragment 1 has it, with other fragments. -/
def metTeam (e : Entry) : Team := { team with kettle := [e] }
def metFrag : Frag := { frag 0 with entry := some 0 }
def meeting (e : Entry) (others : AMap Frag) : State := { mach metFrag (metTeam e) with frags := (1, metFrag) :: others }
/-- At RCV and at EXIT, an entry of each kind: a serial one with its side to start or started, one that others are out of, and the last
arrival; at EXIT with a fragment waiting, one saved in the trap frame, and none; and an entry with a parent. -/
theorem witness_ArrivalsReconverge :
    (∀ e ∈ [kettleEntry 2 true, kettleEntry 2 false, kettleEntry 1 false, { kettleEntry 1 true with dstarted := true }],
      current (meeting e []) = some (1, metFrag, metTeam e) ∧ Ready (meeting e []) 1 metFrag (metTeam e) ∧
      (metTeam e).kettle[0 - (metTeam e).ksp / 176]? = some e ∧ e.raddr = metFrag.clause.hdr ∧ metFrag.arrived = false ∧ metFrag.handler = false) ∧
    ((kettleEntry 2 true).serial = true ∧ (kettleEntry 2 true).dstarted = false ∧ 0 < (kettleEntry 2 false).out - 1 ∧
      (kettleEntry 1 false).out - 1 = 0 ∧ savedWaiter (meeting (kettleEntry 1 false) []) 0 0 = false ∧ team.ksp = 0 ∧
      ({ kettleEntry 1 false with raddr := 0 } : Entry).raddr ≠ metFrag.clause.hdr ∧ (frag 0).entry = none ∧ handler.handler = true) ∧
    (let w := { metFrag with wait := .rcv, mask := 1 }
     minBy (fun w => lowestLane w.2.mask) (waitersOf (delFrag 1 (meeting (kettleEntry 1 false) [(2, w)])) 0 0) = some (2, w)) ∧
    (let gone := delFrag 1 (meeting (kettleEntry 1 false) [])
     waitersOf gone 0 0 = [] ∧ savedWaiter gone 0 0 = false ∧
     savedWaiter { gone with teams := [(0, { metTeam (kettleEntry 1 false) with frame := some { saved := { metFrag with arrived := true }, hmask := 1, hpc0 := 0 } })] }
       0 0 = true) ∧
    ((kettleEntry 1 true).dmask ≠ 0 ∧ (kettleEntry 1 false).parent = none ∧
      (let t := { team with kettle := [kettleEntry 2 false, { kettleEntry 1 false with parent := some 0 }] }
       (0 : Nat) < 1 ∧ t.kettle[0]? = some (kettleEntry 2 false) ∧ (kettleEntry 2 false).freed = false ∧ (kettleEntry 2 false).serial = false ∧
       1 < (kettleEntry 2 false).out ∧ t.kettle[1 - t.ksp / 176]? = some { kettleEntry 1 false with parent := some 0 })) :=
  ⟨by decide +kernel, by decide +kernel, by decide +kernel, by decide +kernel, by decide +kernel⟩
/-- A fragment whose entry is the highest of a full hardware kettle above one spilled entry, and one whose entry is spilled, with its
record in memory: it holds the address of the fragment's clause. -/
def underSpill (k : Nat) : Frag := { frag 0 with entry := some k }
def spilling (k : Nat) : State :=
  { mach (underSpill k) (fullTeam 1) with mem := putBytes tables (2 ^ 48 + 0x8000) (entryBytes (kettleEntry 2 false)) }
theorem witness_SpilledEntriesAreReadBack :
    (Ready (spilling 32) 1 (underSpill 32) (fullTeam 1) ∧ (fullTeam 1).kettle[32 - (fullTeam 1).ksp / 176]? = some (kettleEntry 2 false) ∧
      (kettleEntry 2 false).serial = false ∧ 32 = (fullTeam 1).ksp / 176 + 31 ∧ (fullTeam 1).ksp ≠ 0 ∧ savedWaiter (spilling 32) 0 32 = false ∧
      (waitersOf (spilling 32) 0 32).filter (fun w => w.1 != 1) = [] ∧ (∀ x, (fullTeam 1).kettle[30]? = some x → x.freed = false) ∧
      ∃ r, readSlot 1 (underSpill 32) { fullTeam 1 with kettle := (fullTeam 1).kettle.take 31 } 0 (spilling 32) = .ok r ∧
        amGet 0 r.1.teams = amGet 0 (spilling 32).teams ∧ r.2.raddr = 0x10000) ∧
    (Ready (spilling 0) 1 (underSpill 0) (fullTeam 1) ∧ 0 < (fullTeam 1).ksp / 176 ∧
      ∃ r, readSlot 1 (underSpill 0) (fullTeam 1) 0 (spilling 0) = .ok r ∧ amGet 0 r.1.teams = some (fullTeam 1) ∧
        r.2.raddr = (underSpill 0).clause.hdr ∧ r.2.serial = false ∧ 0 < r.2.out - 1 ∧
        (seqWrite 1 (underSpill 0) (fullTeam 1) (fullTeam 1).ksb.toNat (entryBytes { r.2 with out := r.2.out - 1 }) r.1).toOption.isSome = true) ∧
    ∃ r, laneAccess 1 (fullTeam 1) 0 ((fullTeam 1).ksb.toNat + 176 * 0 : Nat) 16 1 needLoad false 0 (spilling 0) = .ok r ∧
      (entryOf ((upFrom 0 16).map (fun o => smGet 0 (paAt r.2 o) (readSpans 0 (pieceSpans r.2) r.1).1))).serial = false :=
  ⟨⟨by decide +kernel, by decide, rfl, by decide, by decide, by decide +kernel, by decide +kernel, by decide, ok_meets (by decide +kernel)⟩,
   ⟨by decide +kernel, by decide, ok_meets (by decide +kernel)⟩, ok_meets (by decide +kernel)⟩

/-! ### Traps -/

theorem witness_TrapsSaveAndEnterTheHandler :
    let s := mach (frag 0) team
    (amGet 1 s.frags = some (frag 0) ∧ amGet 0 s.teams = some team ∧ amGet 0 s.units = some unit ∧ (frag 0).handler = false ∧
      unit.she ≠ 0 ∧ team.frame = none ∧ (frag 0).stepping = none ∧ traceRec team 5 (frag 0).pc s = s ∧ ∀ k va h, (frag 0).wait ≠ .merge k va h) ∧
    (let fr : Frame := { saved := frag 0, hmask := (frag 0).mask, hpc0 := 0 }
     ({ team with frame := some fr } : Team).frame ≠ none) ∧
    (handler.handler = true ∨ ({ unit with she := 0 } : UnitSt).she = 0) :=
  ⟨⟨by decide +kernel, by decide +kernel, by decide +kernel, rfl, by decide, rfl, rfl, by decide +kernel, by intro k va h; simp [frag, newFrag]⟩,
   by simp, Or.inl rfl⟩
/-- RTE in a handler with its entry mask, and with another. -/
theorem witness_ReturnsRestoreTheFragment :
    let fr : Frame := { saved := frag 0, hmask := (frag 0).mask, hpc0 := 0x10004 }
    let t : Team := { team with frame := some fr, hpc := 0x10004, hcause := 0x15 }
    let s := mach handler t
    (current s = some (1, handler, t) ∧ handler.mask = fr.hmask ∧ fr.saved.held = none ∧ fr.saved.deferred = [] ∧
      (∀ e ∈ s.frags, e.1 ≠ 1 → e.2.team = 0 → e.2.held = none ∧ e.2.deferred = []) ∧ traceRec t 6 handler.pc s = s) ∧
    ({ handler with mask := 1 } : Frag).mask ≠ fr.hmask ∧ (frag 0).handler = false :=
  ⟨by decide +kernel, by decide +kernel, rfl⟩

/-! ### Accesses -/

/-- The small machine at rest in a mode. -/
abbrev at_ (m : Nat) : State := mach (frag m) team
/-- A machine without operations has no add-on-stores. -/
theorem noAdds {s : State} (h : s.ops = []) (team : Nat) : NoAdds s team := by intro o ho; rw [h] at ho; cases ho

/-- LDW.2 and FILLP.8 of the lanes' scratchpad addresses, and SLD.D of a counter. -/
theorem witness_LoadsReturnMemory :
    (Ready (at_ 0) 1 (frag 0) team ∧ accessHeld (at_ 0) 0 = false ∧ 1 < team.regs ∧ groupFits team 2 62 (groupOf 0) ∧
      ∃ r, laneAccesses 1 team 8 8 needLoad false 0 (fun l => effAddr team l 1 0x3F) (passLanes (frag 0)) (at_ 0) = .ok r ∧
        NoForeign (at_ 0) 0 (r.2.flatMap (fun x => pieceSpans x.2)) ∧ NoneBehind r.1 0 (r.2.flatMap (fun x => pieceSpans x.2)) ∧
        Unwatched (at_ 0) team 1 (r.2.map (fun x => (x.1, effAddr team x.1 1 0x3F, 8)))) ∧
    (groupFits team 8 56 1 ∧
      ∃ r, laneAccesses 1 team 64 8 needLoad false 8 (fun l => effAddr team l 1 0) (passLanes (frag 3)) (at_ 3) = .ok r ∧
        NoForeign (at_ 3) 0 (r.2.flatMap (fun x => pieceSpans x.2)) ∧ NoneBehind r.1 0 (r.2.flatMap (fun x => pieceSpans x.2)) ∧
        Unwatched (at_ 3) team 1 (r.2.map (fun x => (x.1, effAddr team x.1 1 0, 64)))) ∧
    ∃ r, scalarAccess 1 team (0x20000 + 8 * 511) 8 needLoad (at_ 0) = .ok r ∧ NoForeign (at_ 0) 0 (pieceSpans r.2) ∧ NoneBehind r.1 0 (pieceSpans r.2) ∧
      Unwatched (at_ 0) team 1 [(0, 0x20000 + 8 * 511, 8)] :=
  ⟨⟨by decide +kernel, by decide +kernel, by decide, by decide +kernel, ok_meets (by decide +kernel)⟩,
   ⟨by decide +kernel, ok_meets (by decide +kernel)⟩, ok_meets (by decide +kernel)⟩
/-- A computation that fails, whatever its failure. -/
theorem fails_so {ε α : Type} {x : Except ε α} (h : x.toOption.isNone = true) : ∃ e, x = .error e := by
  cases x with
  | error e => exact ⟨e, rfl⟩
  | ok a => simp [Except.toOption] at h
/-- Accesses that fail: of pages that are not mapped, of a scalar that is not aligned, of a set-full store outside the scratchpad, of a
COUNTER page by an add, and of a SPILL to the stack; one lane that can access and the next that cannot; a context whose page no TLB and no walk
cache holds; and the range of each check: out of range, not canonical, in the scratchpad within its allocation and past it, in the stack aperture, across an aperture's
end, and in the global aperture on one page. -/
theorem witness_AccessesAreChecked :
    (∀ m ∈ [0, 1, 2, 3], (∃ e, laneAccesses 1 team 8 8 needLoad false 0 (fun _ => 0x60000) (passLanes (frag m)) (at_ m) = .error e) ∧
      (∃ e, laneAccesses 1 team 8 8 needStore true 0 (fun _ => 0x20000) (passLanes (frag m)) (at_ m) = .error e) ∧
      ∃ e, laneAccesses 1 team 8 8 needAdd false 0 (fun _ => 0x20000) (passLanes (frag m)) (at_ m) = .error e) ∧
    (∃ e, scalarAccess 1 team (0x20001 : Int) 8 needLoad (at_ 0) = .error e) ∧ (∃ e, scalarAccess 1 team (0x20000 : Int) 8 needStore (at_ 0) = .error e) ∧
    (∃ e, recordSpan 1 { team with d := [(1, 0xFFC0000000000000)] } 0 1 0 needStore (passLanes (frag 1)) (at_ 1) = .error e) ∧
    (let ea := fun (l : Nat) => if l = 5 then (-1 : Int) else scratchBase + 16 * l
     (∃ r, laneAccesses 1 team 8 8 needLoad false 0 ea [0, 1, 2, 3, 4] (at_ 0) = .ok r) ∧
     ∃ e, laneAccess 1 team 5 (ea 5) 8 8 needLoad false 0 (at_ 0) = .error e) ∧
    (unitOf (at_ 0) team = some unit ∧ amGet 0 (at_ 0).ctxs = some setupContext ∧ tlbHits (at_ 0) 0 0 0x20000 = [] ∧
      smGet [] (dieOf 0) (at_ 0).walks = []) ∧
    ((-1 : Int) < 0 ∧ (2 ^ 56 ≤ 2 ^ 60 ∧ 2 ^ 60 < 2 ^ 64 - 2 ^ 56) ∧ amGet (unit.cluster * 16 + 0) unit.scratch = some (2 ^ 48, 65536) ∧
      amGet (unit.cluster * 16 + 15) unit.scratch = none ∧ unit.lstk < 0xFFC0000400000000 - 0xFFC0000000000000 ∧
      (aperture 0x20000 = 0 ∧ 0x20000 % 2 ^ 16 + 8 ≤ 2 ^ 16)) := by
  refine ⟨?_, fails_so (by decide +kernel), fails_so (by decide +kernel), fails_so (by decide +kernel),
    ⟨⟨_, (ok_meets (p := fun _ => True) (by decide +kernel)).choose_spec.1⟩, fails_so (by decide +kernel)⟩, by decide +kernel, by decide +kernel⟩
  intro m hm
  have h : ∀ m ∈ [0, 1, 2, 3], (laneAccesses 1 team 8 8 needLoad false 0 (fun _ => 0x60000) (passLanes (frag m)) (at_ m)).toOption.isNone = true ∧
      (laneAccesses 1 team 8 8 needStore true 0 (fun _ => 0x20000) (passLanes (frag m)) (at_ m)).toOption.isNone = true ∧
      (laneAccesses 1 team 8 8 needAdd false 0 (fun _ => 0x20000) (passLanes (frag m)) (at_ m)).toOption.isNone = true := by decide +kernel
  exact ⟨fails_so (h m hm).1, fails_so (h m hm).2.1, fails_so (h m hm).2.2⟩
/-- LDW WFE of one word; LDD.4 WF, whose 32 bytes are too many; a wait-full operation with its granule empty and full;
a plain load behind it, and one with nothing before it. -/
theorem witness_WaitFullLoadsWaitForTheirGranules :
    (Ready (at_ 0) 1 (frag 0) team ∧ accessHeld (at_ 0) 0 = false ∧ groupFits team 1 63 (groupOf 0) ∧
      ∃ r, laneAccesses 1 team 4 4 needLoad true 0 (fun l => effAddr team l 1 0) (passLanes (frag 0)) (at_ 0) = .ok r ∧
        Unwatched (at_ 0) team 1 (r.2.map (fun x => (x.1, effAddr team x.1 1 0, 4)))) ∧
    (16 < 4 * (8 * groupOf 0) ∧ groupFits team 4 60 (groupOf 0)) ∧
    (let l : WaitLane := { lane := 0, pa := 2 ^ 48, span := 4, empties := true, dests := loadDests 0 4 false 63 1 }
     let s := { at_ 0 with ops := [(3, flagged 0 (.waitFull [l] []))] }
     (amGet 3 s.ops = some (flagged 0 (.waitFull [l] [])) ∧ ∀ x ∈ [l], smGet false (x.pa / 16) s.full = false) ∧
     (smGet false (l.pa / 16) ({ s with full := [(2 ^ 44, true)] } : State).full = true ∧ readsBehind { s with full := [(2 ^ 44, true)] } 0 3 (l.pa, l.span) = false ∧
       (frag 0).stepping = none) ∧
     (let r : ReadDest := { dest := .lane 0 1, form := .load 16, pas := upFrom (2 ^ 48) 4 }
      let t : State := { s with ops := s.ops ++ [(4, { flagged 0 (.behind [(2 ^ 48, 4)] [r]) with ord := 4 })] }
      let u : State := { s with ops := [(4, { flagged 0 (.behind [(2 ^ 48, 4)] [r]) with ord := 4 })] }
      (amGet 4 t.ops = some { flagged 0 (.behind [(2 ^ 48, 4)] [r]) with ord := 4 } ∧ readsBehind t 0 4 (2 ^ 48, 4) = true) ∧
      readsBehind u 0 4 (2 ^ 48, 4) = false ∧ NoForeign u 0 [(2 ^ 48, 4)] ∧ (∀ a ∈ r.pas, 2 ^ 48 ≤ a ∧ a < 2 ^ 48 + 4) ∧
      readsBehind s 0 s.seq (2 ^ 48, 4) = true)) :=
  ⟨⟨by decide +kernel, by decide +kernel, by decide +kernel, ok_meets (by decide +kernel)⟩, by decide +kernel, by decide +kernel⟩
/-- A live element and a superseded one, of a load and of the noise engine, to registers nothing locks; a store not yet taken. -/
theorem witness_ResultsArriveOneByOne :
    let es : List Elem := [{ dest := .scalar 4, val := 7, live := true }, { dest := .lane 31 63, val := 8, live := false }]
    (∀ b ∈ [OpBody.results es, .noise es 1],
      let s := { at_ 0 with ops := [(3, flagged 0 b)] }
      amGet 3 s.ops = some (flagged 0 b) ∧ es ≠ [] ∧
      ∀ e ∈ es, e.dest = .scalar 4 ∨ e.dest = .lane 31 63) ∧
    (lockedWaiting { at_ 0 with ops := [(3, flagged 0 (.results es))] } 0 (scalarLock 4) = false ∧
      locked { at_ 0 with ops := [(3, flagged 0 (.results es))] } 0 (scalarLock 4) = false) ∧
    amGet 3 ({ at_ 0 with ops := [(3, flagged 0 .taking)] } : State).ops = some (flagged 0 .taking) := by decide +kernel
/-- STW.2, STD set-full of 8 bytes, STD.4 set-full of 32, SPILLP, and SST.W at the end of a page. -/
theorem witness_StoresWriteTheirBytes :
    (Ready (at_ 0) 1 (frag 0) team ∧ accessHeld (at_ 0) 0 = false ∧ NoAdds (at_ 0) 0 ∧ groupFits team 2 62 (groupOf 0) ∧
      ∃ r, laneAccesses 1 team 8 8 needStore false 0 (fun l => effAddr team l 1 0) (passLanes (frag 0)) (at_ 0) = .ok r ∧
        Unwatched (at_ 0) team 2 (r.2.map (fun x => (x.1, effAddr team x.1 1 0, 8)))) ∧
    (∃ r, laneAccesses 1 team 8 8 needStore true 0 (fun l => effAddr team l 1 0) (passLanes (frag 0)) (at_ 0) = .ok r ∧
        performedBefore r.1 0 r.1.seq 2 = true ∧ Unwatched (at_ 0) team 2 (r.2.map (fun x => (x.1, effAddr team x.1 1 0, 8)))) ∧
    16 < 4 * (8 * groupOf 0) ∧
    (groupFits team 1 63 1 ∧
      ∃ r, laneAccesses 1 team 8 8 needStore false 8 (fun l => effAddr team l 1 0) (passLanes (frag 2)) (at_ 2) = .ok r ∧
        Unwatched (at_ 2) team 2 (r.2.map (fun x => (x.1, effAddr team x.1 1 0, 8)))) ∧
    ∃ r, scalarAccess 1 team (0x1F804 + 4 * 510) 4 needStore (at_ 0) = .ok r ∧ Unwatched (at_ 0) team 2 [(0, 0x1F804 + 4 * 510, 4)] :=
  ⟨⟨by decide +kernel, by decide +kernel, noAdds rfl 0, by decide +kernel, ok_meets (by decide +kernel)⟩, ok_meets (by decide +kernel),
   by decide, ⟨by decide +kernel, ok_meets (by decide +kernel)⟩, ok_meets (by decide +kernel)⟩
theorem witness_RecordsKeepWhatAPassHolds :
    Ready (at_ 1) 1 (frag 1) team ∧ accessHeld (at_ 1) 0 = false ∧ NoAdds (at_ 1) 0 ∧ 1 < team.regs ∧ groupFits team 8 56 1 ∧
    (∃ r, recordSpan 1 team 3 1 0 needStore (passLanes (frag 1)) (at_ 1) = .ok r ∧
      Unwatched (at_ 1) team 2 (recordBytes (effAddr team 0 1 0) (passLanes (frag 1)) (List.replicate 8 2))) ∧
    ∃ r, recordSpan 1 team 0 1 0 needLoad (passLanes (frag 1)) (at_ 1) = .ok r ∧ NoForeign (at_ 1) 0 (pieceSpans r.2) ∧ NoneBehind r.1 0 (pieceSpans r.2) ∧
      Unwatched (at_ 1) team 1 (recordBytes (effAddr team 0 1 0) (passLanes (frag 1)) [0]) :=
  ⟨by decide +kernel, by decide +kernel, noAdds rfl 0, by decide, by decide +kernel, ok_meets (by decide +kernel), ok_meets (by decide +kernel)⟩
/-- ASTO.FADD of a pair in MOM mode; in LIN; and an operation with one element left. -/
theorem witness_AddOnStoresAreAppliedAtTheirPort :
    (Ready (at_ 1) 1 (frag 1) team ∧ accessHeld (at_ 1) 0 = false ∧ groupFits team 1 63 (groupOf 1) ∧ (frag 1).mode < 2 ∧
      ∃ r, laneAccesses 1 team 8 8 needAdd false 0 (fun l => effAddr team l 1 0) (passLanes (frag 1)) (at_ 1) = .ok r ∧
        (r.2.all (fun x => x.2.all (fun y => match y.1 with | .at _ _ => true | .log _ _ => false)) = true ∧ r.2 ≠ []) ∧
        Unwatched (at_ 1) team 3 (r.2.map (fun x => (x.1, effAddr team x.1 1 0, 8)))) ∧
    2 ≤ (frag 2).mode ∧
    (let e : AddElem := { pa := 2 ^ 48, mean := 0x3F800000, spread := 0, q3 := 2, pair := true, acct := true }
     let s : State := { at_ 1 with ops := [(3, flagged 0 (.adds [e])), (4, { flagged 0 (.adds [e]) with ord := 4 })] }
     (amGet 3 s.ops = some (flagged 0 (.adds [e])) ∧ amSorted s.ops = true ∧ addReady s 0 3 e = true) ∧
     (amGet 4 s.ops = some { flagged 0 (.adds [e]) with ord := 4 } ∧ addReady s 0 4 e = false)) :=
  ⟨⟨by decide +kernel, by decide +kernel, by decide +kernel, by decide +kernel, ok_meets (by decide +kernel)⟩, by decide +kernel, by decide +kernel⟩
/-- A FENCE alone, with its fragment waiting; one behind a store not taken; a team in part. -/
theorem witness_FencesWaitForEarlierAccesses :
    Ready (at_ 0) 1 (frag 0) team ∧
    (let f := { frag 0 with wait := .fence 5 }
     let s := { mach f team with ops := [(5, { flagged 0 (.fence 5 3) with ord := 5, tag := none })] }
     performedBefore s 0 5 5 = true ∧ Undebugged s ∧ f.wait = .fence 5) ∧
    (let s := { at_ 0 with ops := [(3, flagged 0 .taking), (5, { flagged 0 (.fence 0 1) with ord := 5 })] }
     performedBefore s 0 5 0 = false) ∧
    (frag 0).mask = fullMask team.lanes ∧ ({ frag 0 with mask := 1 } : Frag).mask ≠ fullMask team.lanes ∧ queueLen (at_ 0) 0 < 32 ∧
    32 ≤ queueLen { at_ 0 with ops := (upFrom 3 32).map (fun n => (n, flagged 1 .mfen)) } 0 :=
  ⟨by decide +kernel, by decide +kernel, by decide +kernel, by decide +kernel, by decide +kernel, by decide +kernel, by decide +kernel⟩
/-- A team register's address that counterAccess takes, and ones it does not: by its span, its aperture and its alignment. CTR.ADD of an
amount that fits exactly, of one that does not, and one that must wait; an overflow whose lanes a fragment holds, the saved one holds,
wait in a serial entry, or have exited; CTR.WAIT at its threshold, below it, at a page that is no COUNTER page now, and with its
fragment gone; and a counter that is a ring's doorbell. -/
theorem witness_CountersAddOnceAndNeverWrap :
    (current (at_ 0) = some (1, frag 0, team) ∧ accessHeld (at_ 0) 0 = false ∧
      accessHeld { at_ 0 with ops := [(3, flagged 1 (.ctrLoad 0x110000 0 (.scalar 4)))] } 0 = true) ∧
    (checkSpan (dw (2 ^ 56)).toNat 8 = some 0x08 ∧ aperture (dw scratchBase).toNat ≠ 0 ∧
      (aperture 0x20004 = 0 ∧ checkSpan (0x20004 : Nat) 8 = none ∧ 0x20004 % 8 ≠ 0)) ∧
    (∃ r, counterAccess 1 team (sGet team false 1) needCtrAdd (at_ 0) = .ok r ∧ r.2 = 17 * 2 ^ 16) ∧
    (∃ r, counterAccess 1 team (sGet team false 1) needLoad (at_ 0) = .ok r ∧ r.2 = 17 * 2 ^ 16) ∧
    (let add := fun (n : DWord) => flagged 1 (.ctrAdd 0x20000 0x110000 n 5 (.scalar 4) 0x10004 1 false)
     let s := fun (n : DWord) => ({ at_ 0 with ops := [(3, add n)], mem := putBytes tables 0x110000 (natBytes 8 (2 ^ 64 - 2)) } : State)
     (performedBefore (s 1) 0 3 5 = true ∧ rdNat (s 1) 0x110000 8 + (1 : DWord).toNat < 2 ^ 64 ∧ 3 < (s 1).seq ∧
       doorbellRing (s 1) 0 0x20000 = none) ∧
     2 ^ 64 ≤ rdNat (s 2) 0x110000 8 + (2 : DWord).toNat ∧
     performedBefore { s 1 with ops := [(2, { flagged 0 .taking with ord := 2 }), (3, add 1)] } 0 3 5 = false ∧
     doorbellRing { s 1 with rings := [(0, { taken := 0, held := [] })], bar0 := [(0x400010, 0x20000)] } 0 0x20000 =
       some (0, { taken := 0, held := [] })) ∧
    (let o := flagged 1 (.overflow 0x20000 2 0x10004 1 false)
     let gone := { at_ 0 with frags := [], ops := [(3, o)] }
     let with_ := fun (t : Team) => ({ gone with teams := [(0, t)] } : State)
     overflowPlace (at_ 0) o 1 false = 1 ∧
     (minBy (fun e => lowestLane (e.2.mask &&& 1)) ((at_ 0).frags.filter (fun e => e.2.team == 0 && e.2.handler == false && (e.2.mask &&& 1) != 0))).isSome = true ∧
     overflowPlace (with_ { team with frame := some { saved := frag 0, hmask := 1, hpc0 := 0 } }) o 1 false = 2 ∧
     overflowPlace (with_ { team with left := 1 }) o 1 false = 3 ∧ overflowPlace (with_ team) o 1 false = 0) ∧
    (let f := { frag 0 with wait := .ctr 3 }
     let o := flagged 1 (.ctrWait 0x20000 0x110000 0 5 (.scalar 4))
     let s := { mach f team with ops := [(3, o)] }
     ((0 : DWord).toNat ≤ rdNat s 0x110000 8 ∧ rdNat s 0x110000 8 < (1 : DWord).toNat ∧ (∃ e ∈ s.frags, e.2.wait = .ctr 3) ∧ Undebugged s ∧
       lockedWaiting s 0 (scalarLock 4) = false ∧ locked s 0 (scalarLock 4) = false) ∧
     (match translate 0 0 0x20000 needLoad s with | (.page _ e, _) => entryBit e 9 | _ => false) = true ∧
     (match translate 0 0 0x40000 needLoad s with | (.page _ e, _) => !entryBit e 9 | _ => true) = true ∧
     ∀ e ∈ (at_ 0).frags, e.2.wait ≠ .ctr 3) :=
  ⟨by decide +kernel, by decide +kernel, ok_meets (by decide +kernel), ok_meets (by decide +kernel), by decide +kernel, by decide +kernel,
    by decide +kernel⟩
/-- BAR with a count of 0, of 1, and with a barrier at 2^64 − 1; a fragment at its target and one below; a service; contexts
debuggable and not. -/
theorem witness_BarriersMeetAndServicesBegin :
    (current (at_ 0) = some (1, frag 0, team) ∧ amGet team.unit (at_ 0).units = some unit ∧ (sGet team false 0).toNat = 0 ∧
      (sGet team false 4).toNat ≠ 0 ∧ smGet 0 15 unit.bar + 1 < 2 ^ 64 ∧ performedBefore (at_ 0) 0 (at_ 0).seq 2 = true ∧
      2 ^ 64 ≤ smGet 0 15 ({ unit with bar := [(15, 2 ^ 64 - 1)] } : UnitSt).bar + 1) ∧
    (let f := { frag 0 with wait := .bar 15 1 }
     f.wait = .bar 15 1 ∧ f.stopFor = none ∧ f.stepping = none ∧ smGet 0 15 unit.bar < 1 ∧ 1 ≤ smGet 0 15 ({ unit with bar := [(15, 1)] } : UnitSt).bar) ∧
    debuggable (at_ 0) team = false ∧ debuggable { at_ 0 with ctxs := [(0, { setupContext with debuggable := true })] } team = true :=
  ⟨by decide +kernel, by decide +kernel, by decide +kernel, by decide +kernel⟩
/-- The draws in LIN and MOM, RNG.C in PLAIN and MOM, and DTAG.NEW in LIN with the last tag, at its first pass and a later one, and in
PLAIN. -/
theorem witness_NoiseIsDrawnByIndexAndTagsAreFresh :
    (∀ m ∈ [0, 1, 2, 3], current (at_ m) = some (1, frag m, team) ∧ (frag m).mode = m ∧ groupFits team (2 ^ 1) 56 (groupOf m) ∧
      groupFits team (2 ^ 1) 8 (groupOf m)) ∧
    (groupFits team 1 63 1 ∧ (frag 1).mode ≤ 1) ∧
    (let t := { team with tagctr := 255 }
     (Ready (mach (frag 2) t) 1 (frag 2) t ∧ groupFits t (2 ^ 3) 48 2 ∧ (frag 2).mode = 2 ∧ firstPass (frag 2) = true ∧ (frag 0).mode ≠ 2) ∧
     let g := { frag 2 with mask := fullMask 64, pass := 1 }
     Ready (mach g t) 1 g t ∧ firstPass g = false) := by decide +kernel

/-! ### The matrix engine -/

/-- A team whose ts0 holds PA 8, PB 8, PV 4 and one step, and whose s10 is a row stride. -/
def matTeam (core : Nat) : Team := { team with gcore := core, ts := [(0, 8 + 8 * 2 ^ 5 + 4 * 2 ^ 10)], s := team.s ++ [(30, 128)] }
/-- A machine with a team of the unit on each of the first n cores. -/
def matMach (n : Nat) : State :=
  { mach (frag 0) (matTeam 0) with
    frags := (upFrom 0 n).map (fun g => (1 + g, { frag 0 with team := g }))
    teams := (upFrom 0 n).map (fun g => (g, matTeam g))
    units := [(0, { unit with teams := upFrom 0 n, scratch := (upFrom 0 n).map (fun g => (g, (2 ^ 48 + 65536 * g, 65536))) })] }
/-- Its unit. -/
def matUnit (n : Nat) : UnitSt := { unit with teams := upFrom 0 n, scratch := (upFrom 0 n).map (fun g => (g, (2 ^ 48 + 65536 * g, 65536))) }

/-- Every kind, on the last declared tile; MMAQ with a quad of teams and MACC.TREE with a cluster of them; a team in part. -/
theorem witness_MatrixInstructionsEnterTheirQueue :
    (current (mach { frag 0 with mask := 1 } team) = some (1, { frag 0 with mask := 1 }, team) ∧
      ({ frag 0 with mask := 1 } : Frag).mask ≠ fullMask team.lanes) ∧
    (∀ k ∈ [0, 1, 2, 3, 4, 5, 6, 7, 8, 9], MatrixReady (matMach 16) 1 (frag 0) (matTeam 0) (matUnit 16) k 3 0) ∧
    (∀ k ∈ [0, 1, 2, 3], operandCheck (matUnit 16) (matTeam 0) (operandSpans (matEntry (matMach 16) (frag 0) (matTeam 0) k 3 0 31 31)) = none) ∧
    teamsOn (matMach 16) 0 (quadCores 0) = true ∧ teamsOn (matMach 16) 0 (clusterCores 0) = true ∧
    operandCheck (matUnit 16) (matTeam 0) [(0, 8192)] = none ∧ accessHeld (matMach 16) 0 = false ∧ queueLen (matMach 16) 0 < 32 ∧
    (∀ need ∈ [needAdd, needLoad], ∃ r, tileRows 1 (matTeam 0) (matUnit 16) need false (dw scratchBase) 128 (matMach 16) = .ok r ∧ queueLen r.1 0 < 32) ∧
    (checkSpan (scratchBase : Nat) (folioSize 8 4) = none ∧ aperture scratchBase = 1 ∧
      scratchSpot (matUnit 16) scratchBase (folioSize 8 4) = some (2 ^ 48) ∧ scratchBase % 128 = 0) ∧
    32 ≤ queueLen { matMach 16 with ops := (upFrom 3 32).map (fun n => (n, flagged 1 .mfen)) } 0 := by
  refine ⟨by decide +kernel, by decide +kernel, by decide +kernel, by decide +kernel, by decide +kernel, by decide +kernel, by decide +kernel,
    by decide +kernel, ?_, by decide +kernel, by decide +kernel⟩
  exact List.forall_mem_cons.mpr ⟨ok_meets (by decide +kernel), List.forall_mem_cons.mpr ⟨ok_meets (by decide +kernel), nofun⟩⟩

/-- An operation of a kind of the team on core g, a member of the operations given. -/
def matEntryOf (kind g : Nat) (members : List Nat) (rows : List (List (Spot × Nat))) : MatOp :=
  { matOp (matMach 16) (frag 0) (matTeam g) kind 0 0 31 31 with members := members, rows := rows, locked := none }
/-- It in flight. -/
def matFlight (body : OpBody) (g : Nat) : Op := { flagged 1 body with team := g, gcore := g }
/-- The machine with one such operation of each of n cores in flight. -/
def matBusy (kind n : Nat) (partner : Bool) (rows : List (List (Spot × Nat))) : State :=
  { matMach 16 with
    seq := 100
    ops := (upFrom 0 n).map (fun g => (3 + g,
      matFlight (if partner then .partner (matEntryOf kind g [] rows) 0 else .matrix (matEntryOf kind g (upFrom 3 n) rows)) g)) }
/-- The 32 rows of a tile in a scratchpad. -/
def rows32 : List (List (Spot × Nat)) := (upFrom 0 32).map (fun r => [(.at (2 ^ 48 + 128 * r) 0, 128)])

theorem noLogs {rows : List (List (Spot × Nat))}
    (h : rows.all (fun ps => ps.all (fun y => match y.1 with | .at _ _ => true | .log _ _ => false)) = true) :
    ∀ ps ∈ rows, ∀ y ∈ ps, ∀ k b, y.1 ≠ .log k b := by
  intro ps hp y hy k b e
  have := List.all_eq_true.mp (List.all_eq_true.mp h ps hp) y hy
  rw [e] at this
  cases this
theorem noAppends {ops : AMap Op} (h : ops.all (fun o => match o.2.body with | .append _ _ => false | _ => true) = true) :
    ∀ x ∈ ops, ∀ k b, x.2.body ≠ .append k b := by
  intro x hx k b e
  have := List.all_eq_true.mp h x hx
  rw [e] at this
  cases this
theorem amGet_mem {α : Type} {k : Nat} {v : α} {m : AMap α} (h : amGet k m = some v) : (k, v) ∈ m := by
  induction m with
  | nil => cases h
  | cons e m ih =>
    obtain ⟨i, w⟩ := e
    by_cases hi : i = k
    · simp [amGet, hi] at h
      simp [hi, h]
    · simp [amGet, hi] at h
      exact List.mem_cons_of_mem _ (ih h)
theorem matrix_meets {ops : AMap Op} {p : Nat → Op → MatOp → Bool}
    (h : ops.all (fun o => match o.2.body with | .matrix y => p o.1 o.2 y | _ => true) = true) :
    ∀ n x y, amGet n ops = some x → x.body = .matrix y → p n x y = true := by
  intro n x y hx hy
  have := List.all_eq_true.mp h _ (amGet_mem hx)
  simpa [hy] using this

/-- MMA, MACC.ZERO and MACC.LOAD; a part of MMAQ; the first part of MACC.TREE; MACC.GOV; joins with every part there and none. -/
theorem witness_MatrixOperationsChangeTheirTile :
    (∀ k ∈ [0, 1, 7, 8], let s := matBusy k 1 false rows32
      amGet 3 s.ops = some (matFlight (.matrix (matEntryOf k 0 [3] rows32)) 0) ∧ amGet 0 s.teams = some (matTeam 0) ∧ (∃ e ∈ s.frags, e.2.team = 0) ∧
      tileBusy s 3 (matFlight (.matrix (matEntryOf k 0 [3] rows32)) 0) (matEntryOf k 0 [3] rows32) = false ∧
      fencedReads s (matFlight (.matrix (matEntryOf k 0 [3] rows32)) 0) = false ∧ AllSeenBy s (agentOperand 0)) ∧
    (∀ ps ∈ rows32, ∀ y ∈ ps, ∀ k b, y.1 ≠ .log k b) ∧
    (let s := matBusy 3 4 false []
     let m := matEntryOf 3 0 [3, 4, 5, 6] []
     let ms := memberOps s m
     (∀ x ∈ ms, fencedReads s x.1 = false ∧ AllSeenBy s (agentOperand x.1.team) ∧ recPa x.2.record = recPa m.record ∧
        recPb x.2.record = recPb m.record ∧ recPv x.2.record = recPv m.record ∧ recKcnt x.2.record = recKcnt m.record ∧
        x.2.kind % 16 = m.kind) ∧ ms.length = 4 ∧
      ∀ n ∈ m.members, ∃ x, amGet n s.ops = some x ∧ ∃ e ∈ s.frags, e.2.team = x.team) ∧
    (let s := matBusy 9 16 false []
     let m := matEntryOf 9 0 (upFrom 3 16) []
     let ms := memberOps s m
     (ms.length = 16 ∧ m.members.length = 16 ∧ ms.head? = some (matFlight (.matrix m) 0, m)) ∧
     (∀ n x y, amGet n s.ops = some x → x.body = .matrix y → (!tileBusy s n x y) = true) ∧
     ms.Pairwise (fun x y => x.1.team ≠ y.1.team) ∧ (∀ x ∈ ms, (amGet x.1.team s.teams).isSome = true ∧ ∃ e ∈ s.frags, e.2.team = x.1.team) ∧
     ∀ x ∈ ms, ∀ w ∈ s.hist, w.meets (stagingAt s x.1 x.2) 8192 = false) ∧
    (let s := matBusy 10 1 false []
     (matEntryOf 10 0 [3] []).dest = .scalar 0 ∧ lockedWaiting s 0 (scalarLock 0) = false ∧ locked s 0 (scalarLock 0) = false) ∧
    (let s := matBusy 2 4 true []
     amGet 0 s.units = some (matUnit 16) ∧ (partners s 0 (upFrom 0 4) false).isSome = true ∧ partners (matMach 16) 0 (upFrom 0 4) false = none ∧
     (∀ g ∈ upFrom 0 4, queueLen s g < 32) ∧ ((partners s 0 (upFrom 0 4) false).getD []).all (fun x => decide (x.1 < s.seq)) = true) ∧
    (let full : State := { matMach 16 with ops := (upFrom 3 32).map (fun n => (n, matFlight (.matrix (matEntryOf 0 3 [] [])) 3)) }
     ∃ g ∈ upFrom 0 4, 32 ≤ queueLen full g) :=
  ⟨by decide +kernel, noLogs (by decide +kernel), by decide +kernel,
   ⟨by decide +kernel, matrix_meets (p := fun n x y => !tileBusy (matBusy 9 16 false []) n x y) (by decide +kernel), by decide +kernel, by decide +kernel,
    by decide +kernel⟩, by decide +kernel, by decide +kernel, by decide +kernel⟩
/-- The absent tile at 0x50000, with no log, a log with one entry of a phase, and with a frame. -/
def tile (st : TileState) (entries : List LogEntry) (frame : Option Nat) (failed : Option Nat) : Tile :=
  { ctx := 0, va := 0x50000, leaf := dw (0x41C + 20 * 2 ^ 16), entries := entries, pins := 0, state := st, appends := 0, forced := 0,
    frame := frame, failed := failed, missed := false, held := [] }
/-- As many log entries as a log area holds, none of which another can join. -/
def fullLog : List LogEntry :=
  (upFrom 0 4000).map (fun k => { off := 16 * k, kind := 8, mask := 0xFFFF, len := 16, data := [], weight := [], stamps := [], past := [] })
/-- MDRAIN.ROWS, FOLIO and ADD of a whole tile, and an update of two elements side by side. -/
theorem witness_DrainsWriteTheirTile :
    (∀ k ∈ [4, 5, 6], let s := matBusy k 1 false rows32
      let o := matFlight (.matrix (matEntryOf k 0 [3] rows32)) 0
      amGet 3 s.ops = some o ∧ amGet 0 s.teams = some (matTeam 0) ∧ 3 < s.seq ∧ (∃ e ∈ s.frags, e.2.team = 0) ∧
      tileBusy s 3 o (matEntryOf k 0 [3] rows32) = false ∧ appendsOut s 0 3 = false) ∧
    (∀ ps ∈ rows32, ∀ y ∈ ps, ∀ k b, y.1 ≠ .log k b) ∧ (∀ x ∈ (matBusy 4 1 false rows32).ops, ∀ k b, x.2.body ≠ .append k b) ∧
    (smGet zeroTile 0 (matTeam 0).acc).length = 1024 ∧ rows32.length ≤ 32 ∧ rows32 ≠ [] ∧
    (let e : Nat → AddElem := fun a => { pa := a, mean := 0x3F800000, spread := 0, q3 := 1, pair := true, acct := false }
     [e 0x110000, e 0x110008].Pairwise (fun x y => x.pa + x.size ≤ y.pa ∨ y.pa + y.size ≤ x.pa) ∧
     (let rows : List (List (Option Nat × AddElem)) := [[(some 0x140000, e 8)]]
      let s : Tile → State := fun t => { at_ 0 with ops := [(3, flagged 0 (.drainAdd rows))], tiles := [(0x140000, t)] }
      let part := writeEntries (.adds (rowsIn 0x140000 rows)) (0, 3, 8)
      (∀ t ∈ [tile .absent fullLog none none, tile .absent [] none none], amGet 3 (s t).ops = some (flagged 0 (.drainAdd rows)) ∧
        rows.flatten ≠ [] ∧ (∀ x ∈ rows.flatten, x.1 = some 0x140000) ∧ amGet 0x140000 (s t).tiles = some t ∧ t.state ≠ .resident ∧
        appendHeld (s t) 3 (flagged 0 (.drainAdd rows)) 0x140000 = false ∧ (flagged 0 (.drainAdd rows)).phase = none ∧ t.held = []) ∧
      appendHeld { s (tile .absent [] none none) with ops := [(2, { flagged 0 (.append 0x140000 (.bytes [(0, 1)])) with ord := 2 })] } 3
        (flagged 0 (.drainAdd rows)) 0x140000 = true ∧
      placeAll part fullLog [] = none ∧ (placeAll part [] []).isSome = true)) :=
  ⟨by decide +kernel, noLogs (by decide +kernel), noAppends (by decide +kernel), by decide +kernel, by decide +kernel, by decide, by decide +kernel⟩

/-! ### Quires, selections and tiles -/

/-- A quire of an empty block that names no counter, or the counter at 0x20000. -/
def quire (ctr stage : Nat) : Quire :=
  { block := natBytes 256 (ctr * 256 ^ 48), va := dw scratchBase, key := 0, pos := 0, stage := stage, cancelled := false, status := 1, count := 7,
    gathers := [], rest := [] }
theorem witness_QuiresAreHandedOverAndReport :
    (Ready (at_ 0) 1 (frag 0) team ∧ amGet 0 (at_ 0).units = some unit ∧
      (let va := sGet team false 3
       checkSpan va.toNat 256 = none ∧ aperture va.toNat = 1 ∧ scratchSpot unit va.toNat 256 = some (2 ^ 48) ∧ va.toNat % 256 = 0) ∧
      accessHeld (at_ 0) 0 = false ∧ NoForeign (at_ 0) 0 [(2 ^ 48, 256)] ∧ NoAdds (at_ 0) 0 ∧ (at_ 0).ops.length < 4 ∧
      let full : State := { at_ 0 with ops := (upFrom 3 4).map (fun n => (n, flagged 1 (.quire (quire 0 0)))) }
      NoForeign full 0 [(2 ^ 48, 256)] ∧
        4 ≤ (full.ops.filter (fun o => decide (o.2.gcore = 0) && match o.2.body with | .quire _ => true | _ => false)).length) ∧
    (let s : State := { at_ 0 with ops := [(3, flagged 1 (.quire (quire 0 0)))] }
     (∃ o ∈ s.ops, o.2.gcore = team.gcore ∧ o.2.unit = team.unit ∧ ∃ q, o.2.body = .quire q ∧ q.va = sGet team false 3) ∧
     isMerged s (.op 3) = false ∧ quireFenced s 3 (flagged 1 (.quire (quire 0 0))) = false ∧ (quire 0 0).ctr = 0 ∧
     (quire 0 0).early unit = some (0x40, [])) ∧
    (let s : State := { at_ 0 with ops := [(3, flagged 1 (.quire (quire 0x20000 1)))] }
     (quire 0x20000 1).stage ≠ 0 ∧ (quire 0 1).ctr = 0 ∧ (quire 0x20000 1).rest = [] ∧ (quire 0x20000 1).cancelled = false ∧ appendsOut s (agentEngine 3) 3 = false ∧ (quire 0x20000 1).cscope ≠ 5 ∧
     scratchSpot unit ((quire 0x20000 1).va.toNat + 56) 8 = some (2 ^ 48 + 56) ∧ (quire 0x20000 1).ctr ≠ 0 ∧
     ∃ r, engineCounter (quireEng 3 (flagged 1 (.quire (quire 0x20000 1)))) (quire 0x20000 1).ctr true s = .ok r ∧
       (2 ^ 48 + 56 + 8 ≤ r.2 ∨ r.2 + 8 ≤ 2 ^ 48 + 56) ∧ rdNat s r.2 8 + 7 < 2 ^ 64) :=
  ⟨⟨by decide +kernel, by decide +kernel, by decide +kernel, by decide +kernel, by decide +kernel, noAdds rfl 0, by decide +kernel, by decide +kernel, by decide +kernel⟩,
   ⟨⟨(3, flagged 1 (.quire (quire 0 0))), .head _, rfl, rfl, quire 0 0, rfl, by decide +kernel⟩, by decide +kernel, by decide +kernel,
    by decide +kernel, by decide +kernel⟩,
   ⟨by decide, by decide +kernel, rfl, rfl, by decide +kernel, by decide +kernel, by decide +kernel, by decide +kernel, ok_meets (by decide +kernel)⟩⟩
/-- A RAW quire of two words from the scratchpad's byte 4096 to its byte 8192. -/
def rawQuire : Quire :=
  { quire 0 0 with
    block := natBytes 256 (1 * 256 ^ 3 + (scratchBase + 4096) * 256 ^ 16 + (scratchBase + 8192) * 256 ^ 24 + 2 * 256 ^ 64 + 1 * 256 ^ 128 +
      1 * 256 ^ 192) }
/-- Spans that are all placed. -/
theorem places_eq {α β ε : Type} {l : List (α × Except ε β)} {m : List (α × β)}
    (h : l.map (fun x => (x.1, x.2.toOption)) = m.map (fun y => (y.1, some y.2))) : l = m.map (fun y => (y.1, .ok y.2)) := by
  induction l generalizing m with
  | nil => cases m <;> simp_all
  | cons x l ih =>
    cases m with
    | nil => simp at h
    | cons y m =>
      obtain ⟨a, b | b⟩ := x
      · simp [Except.toOption] at h
      · simp only [List.map_cons, List.cons.injEq, Prod.mk.injEq, Except.toOption, Option.some.injEq] at h
        rw [List.map_cons, ← ih h.2, h.1.1, h.1.2]
theorem rawPlaced {l : Places} (base : Nat) (stride : Nat → Int) (at_ : List Nat → Nat)
    (h : l.map (fun x => (x.1, x.2.toOption)) = ((vectors rawQuire.sizes).map (fun v => (((base : Int) + dotFrom stride 0 v * ((4 : Nat) : Int), 4),
      [((Spot.at (at_ v) 0, 4) : Spot × Nat)]))).map (fun y => (y.1, some y.2))) :
    l = (vectors rawQuire.sizes).map (fun v => (((base : Int) + dotFrom stride 0 v * ((4 : Nat) : Int), 4),
      (Except.ok [(Spot.at (at_ v) 0, 4)] : Except EngStop (List (Spot × Nat))))) :=
  (places_eq h).trans List.map_map
theorem witness_RawQuiresCopy :
    let s : State := { at_ 0 with ops := [(3, flagged 1 (.quire rawQuire))] }
    let g := quireEng 3 (flagged 1 (.quire rawQuire))
    let src := fun (v : List Nat) => 2 ^ 48 + 4096 + 4 * nth 0 v 0
    let dst := fun (v : List Nat) => 2 ^ 48 + 8192 + 4 * nth 0 v 0
    let places := fun (base : Nat) (stride : Nat → Int) (at_ : List Nat → Nat) =>
      (vectors rawQuire.sizes).map (fun v => (((base : Int) + dotFrom stride 0 v * ((4 : Nat) : Int), 4),
        (Except.ok [(Spot.at (at_ v) 0, 4)] : Except EngStop (List (Spot × Nat)))))
    (isMerged s (.op 3) = false ∧ quireFenced s 3 (flagged 1 (.quire rawQuire)) = false ∧ rawQuire.ctr = 0 ∧ rawQuire.early unit = none ∧
      rawQuire.dir = 0 ∧ rawQuire.sfmt ≠ 6 ∧ rawQuire.mcast = 0 ∧ rawQuire.opt 1 = false ∧ AllSeenBy s (agentEngine 3) ∧
      fmtBits rawQuire.sfmt / 8 = 4 ∧ vectors rawQuire.sizes = [[0], [1]]) ∧
    (∃ s1, placeSpans g unit needLoad rawQuire.allSpans.1 s = (places rawQuire.sbase rawQuire.sstride src, s1) ∧
      ∃ s2, placeSpans g unit needStore rawQuire.allSpans.2 s1 = (places rawQuire.dbase rawQuire.dstride dst, s2)) ∧
    (∀ v ∈ vectors rawQuire.sizes, ∀ w ∈ vectors rawQuire.sizes, src v + 4 ≤ dst w ∨ dst w + 4 ≤ src v) ∧
    (vectors rawQuire.sizes).Pairwise (fun v w => dst v + 4 ≤ dst w ∨ dst w + 4 ≤ dst v) :=
  ⟨by decide +kernel, ⟨_, Prod.ext (by dsimp only; exact rawPlaced _ _ _ (by decide +kernel)) rfl, _, Prod.ext (by dsimp only; exact rawPlaced _ _ _ (by decide +kernel)) rfl⟩, by decide +kernel, by decide +kernel⟩

/-- The best two of four INT32 elements at 0x10000, listed at the start of the scratchpad, with a counter or without. -/
def selection (ctr stage : Nat) (parts : AMap (Nat × List SelEntry)) : Selection :=
  { record := natBytes 128 (4 * 256 + 1 * 256 ^ 4 + 1 * 256 ^ 5 + 2 * 256 ^ 8 + 0x10000 * 256 ^ 16 + scratchBase * 256 ^ 24 + ctr * 256 ^ 32 +
      4 * 256 ^ 80 + 1 * 256 ^ 96)
    va := dw (scratchBase + 128), merge := false, stage := stage, parts := parts, entries := [], status := 1, reached := none,
    places := [], clash := false }
/-- The machine with it in flight. -/
def selecting (ctr stage : Nat) (parts : AMap (Nat × List SelEntry)) : State :=
  { at_ 0 with ops := [(3, flagged 1 (.select (selection ctr stage parts)))] }
/-- The one stack that homes its elements. -/
def selStack : Nat := stackOf (16 * 2 ^ 16)
/-- It with its places, once its region is reached. -/
def placed (x : Selection) (r : Reach) : Selection := { x with places := (upFrom 0 x.spans.length).map (fun n => (n, reachPa r n)) }
theorem witness_SelectionsRankWhatQualifies :
    (let va := dw (scratchBase + 128)
     checkSpan va.toNat 128 = none ∧ aperture va.toNat = 1 ∧ scratchSpot unit va.toNat 128 = some (2 ^ 48 + 128) ∧ va.toNat % 128 = 0 ∧
     NoForeign (at_ 0) 0 [(2 ^ 48 + 128, 128)] ∧ NoAdds (at_ 0) 0 ∧ (at_ 0).ops.length < 2) ∧
    (let s := selecting 0 0 []
     let x := selection 0 0 []
     isMerged s (.op 3) = false ∧ x.ctr = 0 ∧ x.wellFormed = true ∧
     ∃ r, selectDest (selectEng 3 (flagged 1 (.select x))) unit x s = .ok r ∧ r.2.length = 1) ∧
    (let x := selection 0 1 []
     let s := selecting 0 1 []
     let r := reachAll (selectEng 3 (flagged 1 (.select x))) x.spans s
     reachFaults r.1 = [] ∧ reachWaits r.1 = false ∧ x.merge = false ∧ amGet selStack x.parts = none ∧ onStack (placed x r.1) selStack ≠ [] ∧
     onStack (placed x r.1) 15 = [] ∧ (∃ k ∈ stacksOf (placed x r.1), amGet k x.parts = none) ∧ x.places = [] ∧ AllSeenBy s (agentEngine 3)) ∧
    (let x := selection 0 1 [(selStack, (4, []))]
     let s := selecting 0 1 [(selStack, (4, []))]
     let r := reachAll (selectEng 3 (flagged 1 (.select x))) x.spans s
     (∀ k ∈ stacksOf (placed x r.1), (amGet k x.parts).isSome = true) ∧ x.dest = 0 ∧ x.clash = false ∧
     (∀ z ∈ s.ops, z.1 = 3) ∧
     ∃ d, selectDest (selectEng 3 (flagged 1 (.select x))) unit x r.2 = .ok d ∧
       (d.2.all (fun y => match y.1 with | .at _ _ => true | .log _ _ => false)) = true ∧
       (upFrom 0 (16 + 16 * x.capacity)).all (fun k => match spotAt d.2 k with
         | .at pa _ => !((placed x r.1).places.flatMap Prod.snd).contains pa
         | .log _ _ => true) = true) ∧
    (let x := selection 0x20000 3 []
     let s := selecting 0x20000 3 []
     appendsOut s (agentEngine 3) 3 = false ∧ x.cscope ≠ 5 ∧ scratchSpot unit (x.va.toNat + 40) 8 = some (2 ^ 48 + 168) ∧ x.ctr ≠ 0 ∧
     ∃ r, engineCounter (selectEng 3 (flagged 1 (.select x))) x.ctr true s = .ok r ∧ (2 ^ 48 + 168 + 8 ≤ r.2 ∨ r.2 + 8 ≤ 2 ^ 48 + 168) ∧
       rdNat s r.2 8 + 1 < 2 ^ 64) :=
  ⟨⟨by decide +kernel, by decide +kernel, by decide +kernel, by decide +kernel, by decide +kernel, noAdds rfl 0, by decide +kernel⟩,
   ⟨by decide +kernel, by decide +kernel, by decide +kernel, ok_meets (by decide +kernel)⟩, by decide +kernel,
   ⟨by decide +kernel, by decide +kernel, rfl, by decide +kernel, ok_meets (by decide +kernel)⟩,
   ⟨by decide +kernel, by decide +kernel, by decide +kernel, by decide +kernel, ok_meets (by decide +kernel)⟩⟩

/-- A machine with that tile and an append of one byte to it on its way. -/
def appending (t : Tile) : State :=
  { at_ 0 with ops := [(3, flagged 0 (.append 0x140000 (.bytes [(65535, 9)])))], tiles := [(0x140000, t)] }
/-- A context that may use its pool, with no frames of its own but one. -/
def poolContext (pool : List Nat) (refill : Bool) : Context := { setupContext with pool0 := pool, pool1 := pool, refill0 := refill, refill1 := refill, poolSize := 4 }
theorem witness_TilesLogAndArrive :
    (∀ a ∈ [0x50000, 0x20000], checkSpan (a : Nat) 1 = none ∧ aperture a = 0 ∧ tileCheck (at_ 0) 0 a true = none) ∧
    (tileCheck { at_ 0 with mem := putBytes tables 0x40010 (natBytes 8 (0x32 + 17 * 2 ^ 16)) } 0 0x20000 true).isSome = true ∧
    (entryType (leafOf (at_ 0) 0 0x60000).1 = 0 ∧ entryBit (leafOf (at_ 0) 0 0x20000).1 10 = false) ∧
    (let s := appending (tile .resident [] (some 18) none)
     amGet 3 s.ops = some (flagged 0 (.append 0x140000 (.bytes [(65535, 9)]))) ∧ appendHeld s 3 (flagged 0 (.append 0x140000 (.bytes [(65535, 9)]))) 0x140000 = false ∧
     amSorted [(65535, (9 : Byte))] = true) ∧
    (let s := { appending (tile .absent [] none none) with ops := [(2, { flagged 0 (.append 0x140000 (.bytes [(0, 1)])) with ord := 2 }),
       (3, flagged 0 (.append 0x140000 (.bytes [(65535, 9)])))] }
     appendHeld s 3 (flagged 0 (.append 0x140000 (.bytes [(65535, 9)]))) 0x140000 = true) ∧
    (let s := appending (tile .absent [] none none)
     (flagged 0 .taking).phase = none ∧ systemWaits s 0 3 = false ∧
     systemWaits { s with ops := s.ops ++ [(5, { flagged 0 (.fence 5 3) with ord := 5, tag := none })] } 0 3 = true ∧ (placeAll (writeEntries (.bytes [(65535, 9)]) (0, 3, 3)) [] []).isSome = true) ∧
    placeAll (writeEntries (.bytes [(65535, 9)]) (0, 3, 3)) fullLog [] = none ∧
    ((tile .absent [] none none).state ≠ .arriving ∧ (tile .arriving [] (some 19) none).frame = some 19) ∧
    (let t := { tile .arriving [] none none with leaf := 0x41B }
     t.frame = none ∧ entryType t.leaf = 3 ∧
     (match takeFrame 0 (homeDie t.leaf false t.va.toNat) (t.now { at_ 0 with tiles := [(0x140000, t)] }) { at_ 0 with tiles := [(0x140000, t)], ctxs := [(0, poolContext [19] false)] } with | .got _ _ => true | _ => false) = true) ∧
    (let old : LogEntry := { off := 16, kind := 0, mask := 3, len := 2, data := [7, 8], weight := [], stamps := [], past := [] }
     let add : LogEntry := { old with kind := 8, mask := 1, len := 4, data := [0, 0, 0, 0x3F] }
     ∀ l ∈ [[old, { old with mask := 1, data := [9] }], [add]],
       let t := tile .arriving l (some 19) none
       let s := appending t
       let rd := fun a => dw (rdNat s a 8)
       let a3 := setupContext.root + 8 * (0x50000 / 2 ^ 45 % 4096)
       let a2 := nextTable (rd a3) + 8 * (0x50000 / 2 ^ 33 % 4096)
       let a1 := nextTable (rd a2) + 8 * (0x50000 / 2 ^ 21 % 4096)
       let a0 := nextTable (rd a1) + 8 * (0x50000 / 2 ^ 16 % 32)
       amGet 0x140000 s.tiles = some t ∧ t.held = [] ∧ amGet t.ctx s.ctxs = some setupContext ∧ (∀ e ∈ t.entries, e.off + max e.len 16 ≤ 2 ^ 16) ∧
       entryType (rd a3) = 1 ∧ entryType (rd a2) = 1 ∧ entryType (rd a1) = 1 ∧
       (∀ a ∈ [a3, a2, a1, a0], a + 8 ≤ 19 * 2 ^ 16 ∨ 19 * 2 ^ 16 + 2 ^ 16 ≤ a) ∧ ((∀ e ∈ t.entries, e.kind ≤ 2) ∨ 2 < add.kind)) ∧
    (entryType (tile .arriving [] none (some 4)).leaf ≠ 3 ∧ (tile .arriving [] none (some 4)).failed = some (4 : Byte).toNat) ∧
    (let e : LogEntry := { off := 0, kind := 0, mask := 1, len := 1, data := [7], weight := [(5, 24)], stamps := [], past := [] }
     let s := { appending (tile .absent [e] none none) with
       phases := [(5, { ctx := 0, crec := 0, root := 2 ^ 48 - 24, closed := true, stage := 0, cancelled := false })] }
     let mine := fun (w : List (Nat × Nat)) => (w.filter (fun x => decide (x.1 = 5))).foldl (fun n x => n + x.2) 0
     let total := s.tiles.foldl (fun n t => n + (t.2.entries.foldl (fun n e => n + mine e.weight) 0) +
       (t.2.held.foldl (fun n h => n + mine h.weight) 0)) 0
     2 ^ 48 - 24 + total = 2 ^ 48 ∧ mine e.weight ≠ 0 ∧ 2 ^ 48 - 25 + total ≠ 2 ^ 48) :=
  by and_intros <;> decide +kernel

/-! ### The memory manager -/

/-- A merge entry of the page 0x60000 or another, with its leaf. -/
def mergeEntry (vpn : Nat) (leaf : DWord) (waiters : List Waiter) (recorded : Bool) (released : Option Nat) : MergeEntry :=
  { ctx := 0, large := false, vpn := vpn, waiters := waiters, byEngine := false, toucher := none, leaf := leaf, info := 0, sub := 0, recorded := recorded,
    released := released }
/-- A machine with entry 5 in die 0's table, and a context whose records lie in memory of their own. -/
def merging (e : MergeEntry) : State :=
  { at_ 0 with ctxs := [(0, { poolContext [19] false with fring := 0x160000, frctl := 0x170000, frlen := 2 })], merge := [(5, e)] }
/-- Die 1 has a free frame where all frames in use lie on die 0, wherever its secure range lies. -/
theorem noFrame_die1 (s : State) (h : ∀ u ∈ usedFrames s, u < 2 ^ 23) : noFrame s 1 false = false := by
  have hu : (usedFrames s).eraseDups.filter (fun f => decide (f / 2 ^ 23 = 1) && secureFrame f == false) = [] := by
    rw [List.filter_eq_nil_iff]
    intro f hf
    have := h f (List.mem_eraseDups.mp hf)
    simp only [Bool.and_eq_true, decide_eq_true_eq, not_and]
    omega
  have hn : 0 < 2 ^ 23 - Config.secureFrames 1 % 2 ^ 22 := by omega
  rw [noFrame, hu]
  exact decide_eq_false (Nat.not_le.mpr hn)
theorem freeFrame_die1 (s : State) (h : ∀ u ∈ usedFrames s, u < 2 ^ 23) : ∃ fr s1, freeFrame 1 false s = some (fr, s1) ∧ 2 ^ 23 ≤ fr := by
  let f := 1 * 2 ^ 23 + ((frameArea 1 false).1 + (draw s).1 % (frameArea 1 false).2) % 2 ^ 23
  have hc : (usedFrames s).contains f = false := by
    rw [List.contains_eq_any_beq, List.any_eq_false]
    intro u hu e
    have := h u hu
    have : f = u := eq_of_beq e
    omega
  have hu : usedFrames (draw s).2 = usedFrames s := rfl
  exact ⟨f, (draw s).2, by simp only [freeFrame, noFrame_die1 s h, probeFrame, hu]; simp only [f] at hc; simp only [hc]; rfl, by omega⟩
/-- A refill that is not refused. -/
def refilling : State := { at_ 0 with ctxs := [(0, poolContext [] true)] }
theorem poolRefused_die1 : poolRefused refilling (poolContext [] true) 1 = false := by
  rw [poolRefused, noFrame_die1 _ (by decide +kernel)]
  rfl
/-- A merge entry in a context without a pool, whose requests are refused. -/
def unpooled (e : MergeEntry) : State := { merging e with ctxs := [(0, { poolContext [] false with poolSize := 0 })] }
theorem unpooled_refuses (e : MergeEntry) : takePool 0 0 false (unpooled e) = .refused := by
  have h : poolRefused (unpooled e) { poolContext [] false with poolSize := 0 } 0 = true := by simp [poolRefused]
  simp only [takePool, show amGet 0 (unpooled e).ctxs = some { poolContext [] false with poolSize := 0 } from rfl]
  exact if_pos h
/-- A fragment in a service with its arguments. -/
def serving (n : Nat) (a b : DWord) : State :=
  { mach { frag 0 with wait := .svc n a b 2 [] } team with ops := [(2, { flagged 0 (.service true) with ord := 2, tag := none })] }

theorem witness_TheMemoryManagerAnswers :
    (let s := merging (mergeEntry 6 0 [.frag 1] false none)
     let c := { poolContext [19] false with fring := 0x160000, frctl := 0x170000, frlen := 2 }
     amGet 0 s.ctxs = some c ∧ c.heldRecords = [] ∧ (s.merge.filter (fun e => wantsRecord 0 e.2)).map Prod.fst = [5] ∧
     (∀ t ∈ s.tiles, wantsArrival s 0 t = false) ∧ c.posted < c.head + c.frlen ∧ c.posted + 1 < 2 ^ 64 ∧
     (c.fring + 32 * (c.posted % c.frlen) + 32 ≤ c.frctl)) ∧
    (∀ e ∈ (merging (mergeEntry 6 0 [.frag 1] true none)).merge, wantsRecord 0 e.2 = false) ∧
    ((poolContext [] false).refill 1 = false ∧ (poolContext [] true).refill 1 = true ∧
      poolRefused refilling (poolContext [] true) 1 = false ∧ ∃ fr s1, freeFrame 1 false refilling = some (fr, s1) ∧ 2 ^ 23 ≤ fr) ∧
    ((mergeEntry 6 0 [.frag 1] true (some 0)).released = some 0 ∧
      ({ frag 0 with wait := .merge 5 0x60000 0 } : Frag).wait = .merge 5 0x60000 0) ∧
    entryType (mergeEntry 6 0 [.frag 1] true none).leaf ≠ 3 ∧
    (let e := mergeEntry 3 0x1B [.frag 1] false none
     entryType e.leaf = 3 ∧ entryBit e.leaf 10 = false ∧ e.byEngine = false ∧ e.toucher = none ∧
     (e.waiters.filter Waiter.isTeam).head? = some (.frag 1)) ∧
    (let e := mergeEntry 3 0x1B [.op 3] false none
     let s := merging e
     ({ e with byEngine := true } : MergeEntry).byEngine = true ∧ e.waiters ≠ [] ∧ (e.waiters.filter Waiter.isTeam).head? = none ∧ entryType (leafOf s 0 0x30000).1 = 3 ∧
     (match takeFrame 0 (homeDie (leafOf s 0 0x30000).1 false 0x30000) (leafOf s 0 0x30000).1 s with
       | .got _ _ => true
       | _ => false) = true ∧
     homeDie (leafOf (unpooled e) 0 0x30000).1 false 0x30000 = 0 ∧ entryBit (leafOf (unpooled e) 0 0x30000).1 6 = false ∧
     entryType (leafOf (unpooled e) 0 0x30000).1 = 3 ∧
     entryType (leafOf s 0 0x20000).1 ≠ 3) ∧
    (let s := serving 1 0x30000 0
     serviceHeld s 0 2 = false ∧ amGet 2 s.ops = some { flagged 0 (.service true) with ord := 2, tag := none } ∧ ScalarFree s { frag 0 with wait := .svc 1 0x30000 0 2 [] } 16 ∧ serviceAddr 0x30000 1 = true ∧
     entryType (leafOf s 0 0x30000).1 = 3 ∧ entryBit (leafOf s 0 0x30000).1 10 = false ∧
     (match takeFrame 0 (homeDie (leafOf s 0 0x30000).1 false 0x30000) (leafOf s 0 0x30000).1 { s with ctxs := [(0, poolContext [19] false)] } with
       | .got _ _ => true | _ => false) = true) ∧
    (serviceAddr scratchBase 1 = false ∧ entryType (leafOf (serving 1 0x20000 0) 0 0x20000).1 = 2 ∧
      entryType (leafOf (serving 1 0x60000 0) 0 0x60000).1 = 0 ∧ serviceAddr (2 ^ 56) 1 = false) ∧
    (let s := { serving 1 0x30000 0 with frags := [(1, { frag 0 with wait := .svc 1 0x30000 0 2 [] }), (2, { frag 0 with wait := .svc 0 0 0 1 [] })] }
     serviceHeld s 0 2 = true) :=
  ⟨by decide +kernel, by decide +kernel, ⟨rfl, rfl, poolRefused_die1, freeFrame_die1 _ (by decide +kernel)⟩, ⟨rfl, rfl⟩,
   by decide +kernel, by decide +kernel, by decide +kernel, by decide +kernel, by decide +kernel, by decide +kernel⟩

/-! ### Commands -/

/-- A command of queue 0 of context 0, or of the administrative queue. -/
def cmd (queue op : Nat) (p0 p1 p2 p3 : DWord) : Command :=
  { queue := queue, idx := 0, op := BitVec.ofNat 16 op, flags := 0, res0 := 0, waitCtr := 0, waitVal := 0, doneCtr := 0,
    p0 := p0, p1 := p1, p2 := p2, p3 := p3 }
/-- A queue with one entry to read. -/
def queue : Queue := { freshQueue 0x100000 64 0x150000 0 0 with tail := 1 }
/-- The administrative queue likewise. -/
def admin : Queue := { freshQueue 0x100000 64 0x151000 3 4096 with tail := 1 }
/-- The machine with a queue of context 0 and the administrative queue, memory at some addresses changed. -/
def commanded (q : Queue) (mem : List Host.Cell) : State :=
  { at_ 0 with cur := none, mem := mem, queues := [(0, q), (adminQueue, admin)] }
/-- Commands start on both queues; and some out of turn, in turn behind an earlier one, with a reserved bit, or waiting. -/
theorem witness_CommandsTakeTheirTurnAndReport :
    CommandStarts (commanded queue tables) (cmd 0 0x7E 0 0 0 0) queue false none ∧
    CommandStarts (commanded queue tables) (cmd adminQueue 0x7E 0 0 0 0) admin true none ∧
    ({ cmd 0 0x7F 0 0 0 0 with idx := 1 } : Command).idx ≠ queue.head ∧
    (let c := { cmd 0 0x7F 0 0 0 0 with idx := 1 }
     let q := { queue with head := 1, tail := 2, running := [(cmd 0 0x20 0 0 0 0, .launch 0)] }
     pendingOf (commanded q tables) c = none ∧ c.idx = q.head ∧ inOrder q c = false) ∧
    1 < ({ cmd 0 0x7F 0 0 0 0 with flags := 2 } : Command).flags.toNat ∧
    (let c := { cmd 0 0x7F 0 0 0 0 with waitCtr := 0x20000, waitVal := 1 }
     ∃ r, waitOver c queue (commanded queue tables) = .ok r ∧ (r.2.any (fun pa => decide (rdNat r.1 pa 8 < c.waitVal.toNat))) = true) ∧
    (let q := { queue with cancelled := true }
     let c := { cmd (2 ^ 20) 0x7F 0 0 0 0 with idx := 0 }
     let s : State := { commanded queue tables with queues := [(2 ^ 20, q)] }
     pendingOf s c = none ∧ amGet c.queue s.queues = some q ∧ c.idx = q.head ∧ inOrder q c = true ∧ c.op ≠ 0x20 ∧ c.op ≠ 0x23 ∧
     (c.queue == adminQueue) = false) ∧
    ((0 : Nat) < 2 ^ 20 ∧ meetsTables (commanded queue tables) queue.stat.toNat 64 = false ∧ setupContext.dying = false ∧ queue.head + 1 < 2 ^ 64 ∧ queue.done + 1 < 2 ^ 64 ∧ (1 : Nat) < 2 ^ 32) :=
  ⟨by decide +kernel, by decide +kernel, by decide, by decide +kernel, by decide, ok_meets (by decide +kernel), by decide +kernel, by decide⟩
/-- A Carillon context of context 0 in a state. -/
def crl (state : Nat) : Crl :=
  { crlFrom 0 0 (natBytes 544 0) with
    state := state, dbell := 0x20000, outBase := 0x10000, outLen := 1, tokCtr := 0, ccnt := 2
    val := [(0, 0x3F800000), (1, 0x40000000)], idx := [(0, 7), (1, 9)], c := [(1, 0x3F000000), (2, 9)] }
/-- The machine with Carillon context 0 selected. -/
def crlMach (c : Crl) : State := { at_ 0 with cur := none, curCrl := some 0, crls := [(0, c)] }
/-- A graph with one SIGNAL. -/
def graph : Graph := { cmds := [(cmd 0 0x7F 0x20000 1 0 0, [])], crec := 0x20040, deps := [[]], uses := [] }
/-- Memory with an initial state block of the Carillon at 0x10000. -/
def blockMem : List Host.Cell := putBytes tables 0x100000 (natBytes 32 (0x20000 + 0x10000 * 256 ^ 8 + 16 * 256 ^ 16 + 64 * 256 ^ 20))
/-- Memory with a legal launch record at 0x10000 and its kernel descriptor at 0x10200. -/
def launchMem : List Host.Cell :=
  putBytes (putBytes tables 0x100200 (natBytes 16 (32 * 256 ^ 8 + 64 * 256 ^ 10 + 16 * 256 ^ 11))) 0x100000
    (natBytes 40 (0x10200 + 0x10200 * 256 ^ 8 + 0x20000 * 256 ^ 16 + 1 * 256 ^ 24 + 1 * 256 ^ 28 + 65535 * 256 ^ 32))
/-- Every premise of the commands that act, at the ends of their ranges. -/
theorem witness_QueueCommandsTakeEffect :
    CommandStarts (commanded queue tables) (cmd 0 0x22 0x100 0 0 0) queue false none ∧
    255 < (0x100 : DWord).toNat ∧ queue.phase = none ∧
    (let q := { queue with phase := some 5 }
     let s := { commanded q tables with phases := [(5, { ctx := 0, crec := 0x20000, root := 0, closed := false, stage := 0, cancelled := false })] }
     CommandStarts s (cmd 0 0x41 0x20000 0 0 0) q false none ∧ q.phase = some 5 ∧ (amGet 5 s.phases).isSome) ∧
    (4095 < (4096 : DWord).toNat ∧ (4095 : DWord).toNat ≤ 4095 ∧ amGet 0 (commanded queue tables).ctxs = some setupContext) ∧
    (queue.cancelled = false ∧ (5 : DWord).toNat ≤ 5 ∧
      ∃ r, engineCounter (queueEng 0 0) 0x20000 true (commanded queue tables) = .ok r ∧ r.2 = 17 * 2 ^ 16) ∧
    ((8191 : DWord).toNat ≤ 8191 ∧ (15 : DWord).toNat ≤ 15 ∧ amGet 8191 (commanded queue tables).crls = none ∧
      ∃ r, engineRead (queueEng 0 0) none (0x10000 : Nat) 544 (commanded queue blockMem) = .ok r ∧
        (isPow2 (field r.2 16 4) 1 65536 = true ∧ field r.2 8 8 % 16 = 0 ∧ field r.2 20 4 ≤ 64)) ∧
    (amGet 0 (crlMach (crl 3)).crls = some (crl 3) ∧ (crl 3).owner = 0 ∧ ({ crl 4 with owner := 1 } : Crl).owner ≠ 0) ∧
    ((∃ x ∈ (crlMach (crl 2)).crls, x.1 / 4096 = 0 ∧ x.2.prog = 0 ∧ x.2.state ≠ 3 ∧ x.2.state ≠ 4) ∧
      (∀ x ∈ (crlMach (crl 4)).crls, x.1 / 4096 = 0 → x.2.prog = 0 → x.2.state = 3 ∨ x.2.state = 4)) ∧
    (∃ r, engineRead (queueEng 0 0) none (0x10000 : Nat) (4 * 1024) (commanded queue tables) = .ok r ∧ r.2.length = 4096) ∧
    (∃ r, engineRead (queueEng 0 0) none (0x10000 : Nat) 64 (commanded queue tables) = .ok r ∧
      (field r.2 8 1 ≤ 1 ∧ field r.2 9 1 = 0 ∧ field r.2 10 2 ≤ 4095)) ∧
    ((∃ r, readLaunch (queueEng 0 0) 0x10000 (commanded queue launchMem) = .ok r ∧
        (launchRecordOk r.2 = true ∧ kernelOk r.2 = true ∧ (amGet 0 r.1.queues).isSome = true)) ∧
      (∃ r, readLaunch (queueEng 0 0) 0x10000 (commanded queue (putBytes tables 0x100000 (natBytes 8 0x10200))) = .ok r ∧
        launchRecordOk r.2 = false) ∧
      (∃ r, readLaunch (queueEng 0 0) 0x10000 (commanded queue (putBytes launchMem 0x100208 [0, 0])) = .ok r ∧
        (launchRecordOk r.2 = true ∧ kernelOk r.2 = false))) ∧
    ((amGet 0 (commanded queue tables).ctxs).bind (fun x => amGet 7 x.graphs) = none ∧
      (amGet 0 [(0, { setupContext with graphs := [(7, graph)] })]).bind (fun x => amGet 7 x.graphs) = some graph ∧
      (∃ r, readParams (queueEng 0 0) 0x10000 (commanded queue tables) = .ok r ∧ r.2.length = 64) ∧
      (launchWeight none (commanded queue tables)).isSome = true ∧
      launchWeight (some 5) { commanded queue tables with
        phases := [(5, { ctx := 0, crec := 0x20000, root := 1, closed := false, stage := 0, cancelled := false })] } = none) ∧
    ((∀ n ∈ graph.cmds, ∀ k < 8, bindOf n.2 k = none) ∧
      (∃ r, engineSpots (queueEng 0 0) none (0x10000 : Nat) 512 needStore (commanded queue tables) = .ok r ∧ r.2.length = 1)) ∧
    (let q := { queue with recording := some (7, graph) }
     CommandStarts (commanded q tables) (cmd 0 0x22 7 0 0 0) q false (some (7, graph)) ∧ (cmd 0 0x22 7 0 0 0).p0 = dw 7 ∧
     CommandStarts (commanded q tables) (cmd 0 0x33 7 0 0 0) q false (some (7, graph)) ∧ (cmd 0 0x33 7 0 0 0).op ∉ queueOps ∧
     graph.cmds.length < 4096 ∧ (cmd 0 0x10 0 0 0 0).op ∈ queueOps ∧ (cmd 0 0x10 0 0 0 0).op ≠ 0x20 ∧ (cmd 0 0x10 0 0 0 0).op ≠ 0x22 ∧ (cmd 0 0x10 0 0 0 0).op ≠ 0x7F ∧ (cmd 0 0x22 8 0 0 0).p0 ≠ dw 7) ∧
    (let q := { queue with recording := some (7, graph) }
     ∃ r, readLaunch (queueEng 0 0) 0x10000 (commanded q launchMem) = .ok r ∧ (launchFault r.2 = none ∧ (amGet 0 r.1.queues).isSome = true)) :=
  ⟨by decide +kernel, by decide, rfl, by decide +kernel, by decide +kernel, ⟨rfl, by decide, ok_meets (by decide +kernel)⟩,
   ⟨by decide, by decide, by decide +kernel, ok_meets (by decide +kernel)⟩, by decide +kernel, by decide +kernel, ok_meets (by decide +kernel),
   ok_meets (by decide +kernel), ⟨ok_meets (by decide +kernel), ok_meets (by decide +kernel), ok_meets (by decide +kernel)⟩,
   ⟨by decide +kernel, by decide +kernel, ok_meets (by decide +kernel), by decide +kernel, by decide +kernel⟩,
   ⟨by decide +kernel, ok_meets (by decide +kernel)⟩, by decide +kernel, ok_meets (by decide +kernel)⟩
/-- The snapshot buffer of BATCH.ITER: a whole 2^18 bytes of mapped pages. -/
def iterCells : List Host.Cell :=
  (upFrom 0 4).foldl (fun m k => putBytes m (0x40080 + 8 * k) (natBytes 8 (0x3A + (32 + k) * 2 ^ 16))) tables
/-- BATCH.ITER with its snapshot on its way: with an append out, with a log entry of its, and with neither. -/
theorem witness_BatchIterSnapshots :
    (∃ r, engineSpots { queueEng 0 0 with phase := none } none (0x100000 : Nat) (2 ^ 18) needStore (commanded queue iterCells) = .ok r ∧ r.2.length = 4) ∧
    (let c := cmd 0 0x55 0 0x100000 7 0x10000
     let s := fun (o : AMap Op) (t : AMap Tile) => ({ commanded { queue with head := 1, running := [(c, .iter 5 false false [])] } tables with
       ops := o, tiles := t, ctxs := [(0, { setupContext with graphs := [(7, graph)] })] } : State)
     let e : LogEntry := { off := 0, kind := 0, mask := 1, len := 1, data := [7], weight := [], stamps := [(agentQueue 0, 5, 5)], past := [] }
     (pendingOf (s [] []) c = some (.iter 5 false false []) ∧ appendsOut (s [] []) (agentQueue 0) 5 = false ∧ logsOut (s [] []) (agentQueue 0) = false ∧
       amGet 0 (s [] []).agentFaults = none ∧ ((amGet 0 (s [] []).ctxs).bind (fun x => amGet 7 x.graphs)).isSome = true) ∧
     logsOut (s [] [(0x140000, tile .absent [e] none none)]) (agentQueue 0) = true ∧
     appendsOut (s [] [(0x140000, { tile .arriving [] none none with
       held := [{ body := .bytes [(0, 1)], weight := [], stamp := 5, writer := agentQueue 0 }] })]) (agentQueue 0) 5 = true ∧
     ∃ r, readParams (queueEng 0 0) 0x10000 (s [] []) = .ok r ∧ r.2.length = 64) :=
  ⟨ok_meets (by decide +kernel), by decide +kernel, by decide +kernel, by decide +kernel, ok_meets (by decide +kernel)⟩
/-- A resident tile at 0x40000, unpinned, with its log area. -/
def tiled (pins : Nat) : State :=
  { commanded queue tables with
    tiles := [(0x140000, { tile .resident [] (some 18) none with va := 0x40000, leaf := dw (0x41C + 20 * 2 ^ 16), pins := pins })] }
/-- A shootdown of pages 2 and 3. -/
def shootdown (reached frames : List Nat) : Shootdown :=
  { ctx := 0, lo := 2, hi := 3, ctr := 0x60000, reached := reached, added := [], waits := [], frames := frames }
/-- Page tables whose third L1 entry is a 2 MiB page. -/
def largeTables : List Host.Cell := putBytes tables 0x30008 (natBytes 8 (0x3A + 64 * 2 ^ 16))
/-- The frames of device memory. -/
def deviceFrames : Nat := 2 ^ 24
/-- A machine whose page 0x20000 is of host memory and whose device memory is all in use. -/
def fullContext : Context := { setupContext with owned := List.range deviceFrames }
def exhausted : State :=
  { commanded queue (putBytes tables 0x40010 (natBytes 8 (0x3A + (2 ^ 24 + 17) * 2 ^ 16))) with
    ctxs := [(0, fullContext)] }
/-- A context's own frames are in use. -/
theorem owned_used {s : State} {k : Nat} {c : Context} (hc : (k, c) ∈ s.ctxs) {f : Nat} (hf : f ∈ c.owned) : f ∈ usedFrames s := by
  simp only [usedFrames, List.mem_append, List.mem_flatMap]
  exact .inl ⟨(k, c), hc, by simp [hf]⟩
theorem noFrame_full {s : State} (hs : ∀ f, f < deviceFrames → f ∈ usedFrames s) (d : Nat) (hd : d < 2) : noFrame s d true = true := by
  have hl : Config.secureFirst d % 2 ^ 22 < 2 ^ 22 ∧ Config.secureFrames d % 2 ^ 22 < 2 ^ 22 := ⟨Nat.mod_lt _ (by decide), Nat.mod_lt _ (by decide)⟩
  rw [noFrame, decide_eq_true_iff]
  simp only [frameArea, if_true]
  generalize ha : Config.secureFirst d % 2 ^ 22 = a at hl
  generalize hn : Config.secureFrames d % 2 ^ 22 = n at hl
  have := length_le_of_nodup (l := (List.range n).map (fun k => d * 2 ^ 23 + a + k))
    (m := (usedFrames s).eraseDups.filter (fun f => decide (f / 2 ^ 23 = d) && secureFrame f == true))
    (List.pairwise_map.mpr (List.nodup_range.imp (fun h e => h (by omega)))) (by
      intro f hf
      obtain ⟨k, hk, rfl⟩ := List.mem_map.mp hf
      have hk := List.mem_range.mp hk
      have hdie : (d * 2 ^ 23 + a + k) / 2 ^ 23 = d := by omega
      have hoff : (d * 2 ^ 23 + a + k) % 2 ^ 23 = a + k := by omega
      refine List.mem_filter.mpr ⟨List.mem_eraseDups.mpr (hs _ (by rw [deviceFrames]; omega)), ?_⟩
      rw [Bool.and_eq_true, decide_eq_true_iff]
      refine ⟨hdie, ?_⟩
      simp only [secureFrame, frameArea, hdie, hoff, ha, hn, if_true, beq_iff_eq, Bool.and_eq_true, decide_eq_true_eq]
      omega)
  rwa [List.length_map, List.length_range] at this
theorem exhausted_full (d : Nat) (hd : d < 2) : noFrame exhausted d true = true :=
  noFrame_full (fun f hf => owned_used (k := 0) (c := fullContext) (List.mem_singleton.mpr rfl)
    (by simp only [fullContext]; exact List.mem_range.mpr hf)) d hd
/-- A protection that cannot move its pages for want of memory. -/
theorem witness_ProtectionsMayLackMemory : moveWorld 0 true (wrongWorld exhausted 0 0x20000 0x10000 true) exhausted = none := by
  have hw : wrongWorld exhausted 0 0x20000 0x10000 true = [(0x20000, dw (0x3A + (2 ^ 24 + 17) * 2 ^ 16), false, 2 ^ 24 + 17)] := by decide +kernel
  have hh : homeDie (dw (0x3A + (2 ^ 24 + 17) * 2 ^ 16)) false 0x20000 < 2 := by decide +kernel
  have hf : freeOf (homeDie (dw (0x3A + (2 ^ 24 + 17) * 2 ^ 16)) false 0x20000) false true exhausted = none := by
    rw [freeOf, if_pos Bool.not_false, freeFrame, if_pos (exhausted_full _ hh)]
  rw [hw, moveWorld, hf]
theorem witness_MappingsChangeAndAreShotDown :
    CommandStarts (commanded queue tables) (cmd 0 0x10 0x60000 0x10000 0x3A 0) queue false none ∧
    (templateOk 1 = false ∧ templateOk 0x3A = true ∧ rangeOk 0x60000 0 = false ∧ rangeOk 0x60000 0x10000 = true ∧
      (∀ a ∈ pagesOf 0x60000 0x10000, entryType (leafOf (commanded queue tables) 0 a).1 ≠ 2 ∧ entryType (leafOf (commanded queue tables) 0 a).1 = 0) ∧
      (∃ a ∈ pagesOf 0x20000 0x10000, entryType (leafOf (commanded queue tables) 0 a).1 = 2) ∧
      partLarge (commanded queue tables) 0 0x20000 0x10000 = [] ∧ rangeOk 0x210000 0x10000 = true ∧
      partLarge (commanded queue largeTables) 0 0x210000 0x10000 = [0x200000] ∧
      CommandStarts (commanded queue largeTables) (cmd 0 0x11 0x210000 0x10000 0 0) queue false none) ∧
    ((checkSpan (0x60000 : Nat) 1 = none ∧ aperture 0x60000 = 0 ∧ entryType (leafOf (commanded queue tables) 0 0x60000).1 = 0) ∧
      (checkSpan (0x50000 : Nat) 1 = none ∧ aperture 0x50000 = 0 ∧ entryType (leafOf (commanded queue tables) 0 0x50000).1 = 4 ∧
        entryBit (leafOf (commanded queue tables) 0 0x50000).1 10 = true)) ∧
    (∀ n ∈ [0, 1], let e := (leafOf (tiled n) 0 0x40000).1
      entryType e = 2 ∧ entryBit e 10 = true ∧ (tileFind (tiled n) 0 0x40000).any (fun r => decide (r.2.pins = n)) = true ∧
      (tileFor 0 0x40000 e (tiled n)).any (fun r => decide (r.1 = 0x140000) && (amGet r.1 r.2.tiles).any (fun t => decide (t.pins = n)) &&
        (putLeaf 0 0x40000 false (dw (bitsOf e 15 3 * 8 + 4 + r.1)) r.2).any (fun v => (amGet 0 v.queues).isSome)) = true) ∧
    (amGet 0 (commanded queue tables).merge = none ∧
      (let e := mergeEntry 6 0 [.frag 1] true none
       amGet 5 (merging e).merge = some e ∧ (5 : DWord).toNat < 2 ^ 12 ∧ e.ctx = 0 ∧ e.recorded = true ∧ e.released = none) ∧
      (meetsTables (merging (mergeEntry 6 0 [.frag 1] true none)) 0x10000 (2 ^ 21) = true ∧
        meetsTables (merging (mergeEntry 6 0 [.frag 1] true none)) 0x4000000 (2 ^ 21) = false) ∧
      (entryType 0x10003A = 2 ∧ 256 ≤ (0x10003A : DWord).toNat)) ∧
    ((0x10000 : DWord).toNat = 2 ^ 16 ∧ leafAddr (commanded queue tables) setupContext.root 0x20000 = some (0x40010, false) ∧
      0x40010 + 8 ≤ setupContext.ctrPage * 2 ^ 16 ∧
      wrongWorld (commanded queue tables) 0 0x30000 (2 ^ 16) false = [] ∧ leafAddr (commanded queue tables) setupContext.root 0x30000 = some (0x40018, false) ∧
      entryType (dw (rdNat (commanded queue tables) 0x40018 8)) ≠ 0 ∧
      (∀ t ∈ (commanded queue tables).tiles, t.2.ctx ≠ 0) ∧ entryType (dw (rdNat (commanded queue tables) 0x40010 8)) ≠ 0) ∧
    (let c := cmd 0 0x11 0x20000 0x10000 0 0
     pendingOf (commanded { queue with running := [(c, .shoot [5] 0 [17])] } tables) c = some (.shoot [5] 0 [17])) ∧
    ((97 : Nat) ∉ (shootdown [] []).reached ∧ (97 : Nat) < 98 ∧ 97 ∈ (shootdown [97] []).reached ∧ 97 ∉ (shootdown [97] []).added ∧
      shootWaits (commanded queue tables) (shootdown [97] []) 97 = false ∧
      rdNat (commanded queue tables) (shootdown [97] [19]).ctr 8 + 1 < 98 ∧
      98 ≤ rdNat (commanded queue (putBytes tables 0x60000 [97])) (shootdown [97] [19]).ctr 8 + 1 ∧ (shootdown [97] [19]).frames ≠ []) :=
  ⟨by decide +kernel, by decide +kernel, by decide +kernel, by decide +kernel, by decide +kernel, by decide +kernel, by decide +kernel, by decide +kernel⟩
/-- A context descriptor at physical address 0x100000 that asks for 46 clusters of die 0, 48 of die 1 and no pool. -/
def contextMem : List Host.Cell :=
  putBytes tables 0x100000 (natBytes 64 (46 + 48 * 256 + 1 * 256 ^ 2 + 3 * 256 ^ 3 + 0x180000 * 256 ^ 24 + 2 * 256 ^ 32 + 0x190000 * 256 ^ 40 + 0x1A0000 * 256 ^ 48))
/-- A queue descriptor there: queue 63 of context 0. -/
def queueMem : List Host.Cell :=
  putBytes tables 0x100000 (natBytes 24 (0 + 63 * 256 ^ 2 + 2 * 256 ^ 4 + 0x100040 * 256 ^ 8 + 0x150040 * 256 ^ 16))
theorem witness_ContextsAndQueuesComeAndGo :
    CommandStarts (commanded queue contextMem) (cmd adminQueue 0x01 0x100000 0 0 0) admin true none ∧
    (let s := commanded queue contextMem
     let b := rdBytes s 0x100000 64
     0x100000 + 64 ≤ 2 ^ 48 ∧ contextOk b = true ∧ field b 60 4 = 0 ∧ meetsTables s (field b 40 8) 64 = false ∧
     meetsTables s (field b 48 8) 16 = false ∧ meetsTables s (field b 24 8) (32 * field b 32 4) = false ∧
     amFresh s.ctxs 0 < 4096 ∧ field b 0 1 ≤ (freeClusters s 0).length ∧
     field b 1 1 ≤ (freeClusters s 1).length ∧ field b 4 4 = 0 ∧ (usedFrames s).length + 2 * field b 4 4 + 2 ^ 21 < 2 ^ 22) ∧
    (let s := commanded queue (putBytes contextMem 0x100004 [3])
     let b := rdBytes s 0x100000 64
     contextOk b = true ∧ field b 60 4 = 0 ∧ field b 4 4 = 3 ∧ (usedFrames s).length + 2 * field b 4 4 + 2 ^ 21 < 2 ^ 22 ∧
       2 ^ 48 < (dw (2 ^ 48 - 63)).toNat + 64) ∧
    (let s := commanded queue (putBytes contextMem 0x100028 [0, 0, 1])
     let b := rdBytes s 0x100000 64
     contextOk b = true ∧ meetsTables s (field b 40 8) 64 = true) ∧
    (contextOk (rdBytes (commanded queue tables) 0x100000 64) = false ∧
      (freeClusters { commanded queue contextMem with ctxs := [(0, { setupContext with clusters := upFrom 0 3 })] } 0).length < 46) ∧
    (amGet 4095 (commanded queue tables).ctxs = none ∧ setupContext.dying = false ∧ 4095 < (4096 : DWord).toNat) ∧
    (let s := commanded queue queueMem
     let b := rdBytes s 0x100000 64
     queueMemory (field b 8 8) (field b 4 4) (field b 16 8) = true ∧ field b 0 2 = 0 ∧ field b 2 1 = 63 ∧ amGet (64 * 0 + 63) s.queues = none ∧ field b 3 1 ≤ setupContext.prio ∧ isPow2 (field b 4 4) 2 65536 = true ∧
     field b 8 8 % 64 = 0 ∧ field b 16 8 % 64 = 0 ∧ field b 24 40 = 0 ∧ meetsTables s (field b 16 8) 64 = false ∧
     meetsTables s (field b 8 8) (64 * field b 4 4) = false ∧ isPow2 (field (rdBytes (commanded queue tables) 0x100000 64) 4 4) 2 65536 = false) ∧
    (amGet 0 (commanded queue tables).ctxs = some setupContext ∧ amGet (64 * 0 + 0) (commanded queue tables).queues = some queue) ∧
    (let c := cmd adminQueue 0x02 0 0 0 0
     let s : State := { State.reset with ctxs := [(0, setupContext)], queues := [(adminQueue, { admin with running := [(c, .context 0)] })] }
     pendingOf s c = some (.context 0) ∧ contextIdle s 0 = true ∧ (∀ t ∈ s.tiles, t.2.ctx ≠ 0) ∧ (∀ x ∈ s.crls, x.2.owner ≠ 0) ∧
     (∀ p ∈ s.phases, p.2.ctx ≠ 0) ∧ contextIdle { s with units := [(0, unit)] } 0 = false) ∧
    (let c := cmd adminQueue 0x04 0 0 0 0
     let s : State := { State.reset with queues := [(0, { queue with head := 1 }), (adminQueue, { admin with running := [(c, .queue 0)] })] }
     pendingOf s c = some (.queue 0) ∧ amGet 0 s.queues = some { queue with head := 1 } ∧ queue.running = [] ∧
     ({ queue with head := 1 } : Queue).tail ≤ ({ queue with head := 1 } : Queue).head) :=
  by and_intros <;> decide +kernel
/-- A 4,097th context finds no number. -/
theorem witness_NoContextIsFree : 4096 ≤ amFresh ((upFrom 0 4096).map (fun n => (n, setupContext))) 0 := by decide +kernel

/-! ### The Carillon -/

theorem witness_MicroinstructionsComputeRegistersAndCandidates :
    CrlCurrent (crlMach (crl 1)) 0 (crl 1) ∧ (crl 1).halting = false ∧ CarillonArith (.carillonFadd 1 2 3) 3 (fun r => (fAdd (r 2) (r 1)).w) ∧
    ((crl 1).reg 2).toNat < 256 ∧ (64 : BitVec 10).toNat ≤ 64 ∧ 1 ≤ (256 : BitVec 10).toNat ∧ (256 : BitVec 10).toNat ≤ 256 ∧
    (crl 1).ccnt ≠ 0 ∧ isNan ((crl 1).reg 1) = false ∧ ({ crl 1 with halting := true } : Crl).halting = true ∧
    MicroFault (crl 1) .pcRange 2 ∧ MicroFault { crl 1 with c := [(2, 256)] } (.cget 0 2 3) 3 :=
  ⟨by decide +kernel, rfl, .fadd 1 2 3, by decide +kernel, by decide, by decide, by decide, by decide, by decide +kernel, rfl, .range,
   .position 0 2 3 (by decide +kernel)⟩
/-- Candidates that can be drawn and ones that cannot; a token that one holds and one that none does. -/
theorem witness_CarillonStreamsDraw :
    CrlCurrent (crlMach (crl 1)) 0 (crl 1) ∧ (crl 1).halting = false ∧
    ({ crl 1 with ccnt := 0 } : Crl).undrawable ∧
    (¬ (crl 1).undrawable ∧ (∃ e, e < (crl 1).ccnt ∧ fLt 0 ((crl 1).value e) = true ∧ ∀ j, e < j → j < (crl 1).ccnt → fLt 0 ((crl 1).value j) = false)) ∧
    ((∀ e, e < (crl 1).ccnt → (crl 1).index e ≠ (crl 1).reg 1) ∧
      (1 < (crl 1).ccnt ∧ (crl 1).index 1 = (crl 1).reg 2 ∧ ∀ j, j < 1 → (crl 1).index j ≠ (crl 1).reg 2)) := by
  refine ⟨by decide +kernel, rfl, Or.inl rfl, ⟨?_, 1, by decide +kernel, by decide +kernel, ?_⟩, ?_, by decide +kernel, by decide +kernel, ?_⟩
  · have h : ∀ e, e < 2 → isNan ((crl 1).value e) = false ∧ isInf ((crl 1).value e) = false ∧ fLt ((crl 1).value e) 0x80000000 = false := by decide +kernel
    have ht : isNan (crl 1).total = false ∧ isInf (crl 1).total = false ∧ isZero (crl 1).total = false := by decide +kernel
    rintro (h0 | ⟨e, he, h1 | h1 | h1⟩ | h1 | h1 | h1)
    · exact absurd h0 (by decide +kernel)
    · rw [(h e he).1] at h1; cases h1
    · rw [(h e he).2.1] at h1; cases h1
    · rw [(h e he).2.2] at h1; cases h1
    · rw [ht.1] at h1; cases h1
    · rw [ht.2.1] at h1; cases h1
    · rw [ht.2.2] at h1; cases h1
  · intro j hj hc
    have : (crl 1).ccnt = 2 := rfl
    omega
  · have h : ∀ e, e < 2 → (crl 1).index e ≠ (crl 1).reg 1 := by decide +kernel
    exact h
  · intro j hj
    have : j = 0 := by omega
    rw [this]
    decide +kernel
/-- A post of one candidate that has reached context 0 as its first delivery. -/
def posting (reached : Option Nat) (state : Nat) : State :=
  { crlMach (crl state) with ops := [(3, flagged 1 (.post 0 255 [(0x3F800000, 5)] (some 0x110000) 0x20000 0 reached))] }
/-- A selection with one entry to deliver to context 0. -/
def delivering (state : Nat) : State :=
  let x := { selection 0 2 [] with record := natBytes 128 (1 * 256 ^ 6), entries := [{ index := 4, key := 1, value := 2 }], reached := some (1, 0) }
  { crlMach (crl state) with ops := [(3, flagged 1 (.select x))] }
theorem witness_CarillonContextsWaitEmitAndTakeCandidates :
    (let c := crl 1
     CrlCurrent (crlMach c) 0 c ∧ c.fault = none ∧ c.halting = false ∧
     ∃ r, engineCounter (crlEng 0 c 0) c.dbell false (crlMach c) = .ok r ∧ amGet 0 r.1.crls = some c) ∧
    ({ crl 1 with fault := some 0x13 } : Crl).fault = some 0x13 ∧
    (let c := { crl 1 with dbell := 0x20004 }
     (match engineCounter (crlEng 0 c 0) c.dbell false (crlMach c) with
       | .error (v, .fault k _) => decide (k = 0x0D) && decide (amGet 0 v.crls = some c)
       | _ => false) = true) ∧
    ((crl 2).state = 2 ∧ (crl 2).blocked = false ∧ (crl 2).fault = none ∧
      (∀ o ∈ (crlMach (crl 2)).ops, (deliveryReached (crlMach (crl 2)) 0 o.2).isSome = false) ∧
      (∃ o ∈ (posting (some 1) 2).ops, (deliveryReached (posting (some 1) 2) 0 o.2).isSome = true) ∧
      (∃ r, engineCounter (crlEng 0 (crl 2) 0) (crl 2).dbell false (crlMach (crl 2)) = .ok r ∧ ¬ rdNat r.1 r.2 8 < (crl 2).t) ∧
      (∃ r, engineCounter (crlEng 0 { crl 2 with t := 1 } 0) (crl 2).dbell false (crlMach { crl 2 with t := 1 }) = .ok r ∧ rdNat r.1 r.2 8 < 1)) ∧
    (let c := { crl 1 with tokCtr := 0x20000, seq := 2 ^ 64 - 1 }
     let s := crlMach c
     3 ≤ (5 : BitVec 3).toNat ∧ (5 : BitVec 3).toNat ≤ 5 ∧ c.emit = none ∧ c.seq < 2 ^ 64 ∧
     ∃ r, engineSpots (crlEng 0 c s.seq) none ((c.outBase.toNat + 16 * (c.seq % c.outLen) : Nat) : Int) 16 needStore s = .ok r ∧
       (r.1.tiles.length = 0 ∧ r.1.ops.length = 0 ∧ amGet 0 r.1.crls = some c ∧ r.2 = [(.at 0x100000 0x10003A, 16)]) ∧
       (engineCounter (crlEng 0 c s.seq) c.tokCtr true r.1).toOption.any (fun q =>
         decide (amGet 0 q.1.crls = some c) && decide (q.1.tiles.length = 0) && decide (q.1.ops.length = 0) &&
         decide (0x100000 + 16 ≤ q.2 ∨ q.2 + 8 ≤ 0x100000) && decide (rdNat q.1 q.2 8 + 1 < 2 ^ 64)) = true) ∧
    (let desc := 255 * 2 ^ 12 + 1 * 2 ^ 20
     let t := { team with s := team.s ++ [(20, BitVec.ofNat 64 desc)] }
     let s := { mach (frag 0) t with crls := [(0, crl 3)] }
     (Ready s 1 (frag 0) t ∧ amGet t.unit s.units = some unit ∧
     (bitsOf (sGet t false 20) 28 20 ≠ 0 ∧ bitsOf (sGet t false 20) 19 12 + bitsOf (sGet t false 20) 28 20 ≤ 256 ∧ bitsOf (sGet t false 20) 63 29 = 0) ∧
     checkSpan (sGet t false 3).toNat 8 = none ∧ aperture (sGet t false 3).toNat = 1 ∧ scratchSpot unit (sGet t false 3).toNat 8 = some (2 ^ 48) ∧
     (sGet t false 3).toNat % 8 = 0 ∧ amGet (dieOf t.gcore * 4096 + 0) s.crls = some (crl 3) ∧ (crl 3).owner = unit.ctx ∧
     (∀ x, amGet 0 (mach (frag 0) t).crls = some x → x.owner ≠ unit.ctx) ∧ accessHeld s 0 = false ∧ s.ops.length < 2 ∧ NoForeign s 0 [(2 ^ 48, 8)]) ∧
     ∃ r, counterAccess 1 t (sGet t false 1) needCtrAdd s = .ok r ∧
       (NoForeign r.1 0 [(2 ^ 48, 8)] ∧ current r.1 = some (1, frag 0, t) ∧ accessHeld r.1 0 = false ∧ r.1.ops = s.ops)) ∧
    (deliverable (posting (some 1) 1) 0 1 = false ∧ deliverable (posting (some 1) 2) 0 1 = true ∧ (crl 2).owner = 0 ∧
      rdNat (posting (some 1) 2) 0x110000 8 + 1 < 2 ^ 64) ∧
    (deliverable (delivering 3) 0 1 = true ∧ (selection 0 3 []).stage ≠ 2 ∧
      (crl 3).owner = 0) ∧
    ((crl 5).state = 5 ∧ (crl 3).state ≠ 5 ∧ (crl 3).emit = none) :=
  ⟨⟨by decide +kernel, rfl, rfl, ok_meets (by decide +kernel)⟩, rfl, by decide +kernel,
   ⟨rfl, rfl, rfl, by decide +kernel, by decide +kernel, ok_meets (by decide +kernel), ok_meets (by decide +kernel)⟩,
   ⟨by decide, by decide, rfl, by decide, ok_meets (by decide +kernel)⟩,
   ⟨by and_intros <;> decide +kernel, ok_meets (by decide +kernel)⟩,
   by decide +kernel, by decide +kernel, by decide +kernel⟩

/-! ### Launches, halts and debug stops -/

/-- A launch of one team of which nothing is placed yet, with a completion record or none. -/
def launch (crec : DWord) (coop cancelled : Bool) : Launch :=
  { setupLaunch with placed := 0, crec := crec, coop := coop, cancelled := cancelled, queue := 0, idx := 0, stage := 0 }
/-- The machine with it and no unit. -/
def launching (l : Launch) : State :=
  { commanded { queue with head := 1, running := [(cmd 0 0x20 0 0 0 0, .launch 0)] } tables with
    launches := [(0, l)], units := [], teams := [], frags := [] }
/-- The machine whose team has exited. -/
def ended (l : Launch) (u : UnitSt) : State :=
  { mach (frag 0) { team with exited := true } with cur := none, frags := [], launches := [(0, l)], units := [(0, u)] }
/-- A phase, all of whose weight is home. -/
def phase (closed : Bool) (stage : Nat) : Phase := { ctx := 0, crec := 0x20000, root := 2 ^ 48, closed := closed, stage := stage, cancelled := false }
/-- A launch with a colophon to write. -/
def colophonLaunch : Launch := { setupLaunch with clrBase := 0x10000, clrCtr := 0x20000, clrLen := 1, clrPend := [natBytes 64 7] }
theorem witness_UnitsArePlacedAndLevelsEnd :
    ((0x20000 : DWord) ≠ 0 ∧ amGet (waitUnit 0) (at_ 0).agentFaults = none ∧
      ∃ r, engineCounter (controlEng (waitUnit 0) (agentLaunch 0) 0) (0x20000 + 8) true (at_ 0) = .ok r ∧ rdNat r.1 r.2 8 + 1 < 2 ^ 64) ∧
    (placeReady (launching { launch 0 false false with deps := [0] }) { launch 0 false false with deps := [0] } = false ∧
      placeReady (launching (launch 0x20000 false true)) (launch 0x20000 false true) = true ∧
      (launch 0x20000 false true).canned ≤ (launch 0x20000 false true).placed ∧
      placeReady (launching { launch 0x20000 false true with canned := 1 }) { launch 0x20000 false true with canned := 1 } = true ∧
      (launch 0x20000 false true).placed < ({ launch 0x20000 false true with canned := 1 } : Launch).canned ∧
      (finAdd (controlEng (waitLaunch 0) (agentLaunch 0) 0) (waitLaunch 0) [] 0x20000 true 1
        (launching (launch 0x20000 false true))).toOption.isSome = true ∧
      (finAdd (controlEng (waitLaunch 0) (agentLaunch 0) 0) (waitLaunch 0) [agentLaunch 0] 0x20000 false 1
        (launching { launch 0x20000 false true with canned := 1 })).toOption.isSome = true) ∧
    (let l := launch 0 true false
     placeReady (launching l) l = true ∧ l.placed = 0 ∧ (placeAllUnits 0 l.units (launching l)).isSome = true) ∧
    (let l := { launch 0 true false with teams := 16, scratch := 2 ^ 20 }
     placeReady (launching l) l = true ∧ placeAllUnits 0 l.units (launching l) = none) ∧
    (let l := launch 0 false false
     placeReady (launching l) l = true ∧ InOrder (launching l) ∧ 0 ∈ setupContext.clusters ∧ clusterFits (launching l) l 0 = true ∧
     gapStarts setupContext.stkBase.toNat setupContext.stkSize l.stackBytes setupContext.stkUsed = [0]) ∧
    (∀ cl ∈ setupContext.clusters, clusterFits (launching { launch 0 false false with scratch := 2 ^ 20 }) { launch 0 false false with scratch := 2 ^ 20 } cl = false) ∧
    (unitOver (at_ 0) 0 unit = false ∧ unitOver (ended setupLaunch unit) 0 unit = true ∧ unit.cancelled = false ∧ setupLaunch.crec = 0) ∧
    (let l := { setupLaunch with crec := 0x20000 }
     let u := { unit with cancelled := true }
     unitOver (ended l u) 0 u = true ∧ u.stage = 0 ∧
     (∃ r, finAdd (controlEng (waitUnit 0) (agentLaunch 0) 0) (waitUnit 0) [] l.crec true 1 (ended l u) = .ok r ∧ amGet 0 r.1.launches = some l) ∧
     ∃ r, finAdd (controlEng (waitUnit 0) (agentLaunch 0) 0) (waitUnit 0) (agentUnit 0 :: agentLaunch 0 :: unit.teams.flatMap teamAgents) l.crec
       false 1 (ended l unit) = .ok r ∧ amGet 0 r.1.launches = some l) ∧
    (phase false 0).closed = false ∧
    (∀ n ∈ [0, 3], ∃ r, finAdd (controlEng (waitPhase 5) (agentPhase 5) 0) (waitPhase 5) (if n % 2 = 0 then [] else [agentPhase 5]) (phase true n).crec
       (decide (n % 2 = 0)) 1 { at_ 0 with phases := [(5, phase true n)] } = .ok r ∧ r.1.phases = [(5, phase true n)]) ∧
    (let g : Eng := { who := .agent (2 ^ 43), agent := agentTrace 0, ctx := 0, die := 0, core := none, ord := 2 ^ 43, phase := none }
     let s := { at_ 0 with launches := [(0, colophonLaunch)] }
     (natBytes 64 7).length = 64 ∧
     ∃ r, engineSpots g none (0x10000 : Nat) 64 needStore s = .ok r ∧ r.2 = [(.at 0x100000 0x10003A, 64)] ∧
       (engineCounter g 0x20000 true r.1).toOption.any (fun q => decide (0x100000 + 64 ≤ q.2 ∨ q.2 + 8 ≤ 0x100000) && decide (rdNat q.1 q.2 8 + 1 < 2 ^ 64) &&
         !appendsOut q.1 g.agent (2 ^ 43)) = true) ∧
    (let g : Eng := { who := .agent (2 ^ 43), agent := agentTrace 0, ctx := 0, die := 0, core := none, ord := 2 ^ 43, phase := none }
     ∀ o ∈ [([] : AMap Op), [(3, { flagged 0 (.append 0x140000 (.bytes [(0, 7)])) with ord := 2 ^ 43, team := agentTrace 0 })]],
       (engineCounter g 0x20000 true { at_ 0 with launches := [(0, { colophonLaunch with clrOut := true })], ops := o }).toOption.any (fun q =>
         decide (rdNat q.1 q.2 8 + 1 < 2 ^ 64) && (appendsOut q.1 g.agent (2 ^ 43) == !o.isEmpty)) = true) ∧
    (let x := { setupLaunch with phase := some 5, graph := some 7, queue := 2 ^ 20 }
     let s := { at_ 0 with launches := [(0, x)], phases := [(5, phase false 0)], queues := [(2 ^ 20, { queue with graph := some 7 })] }
     current s = some (1, frag 0, team) ∧ amGet team.unit s.units = some unit ∧ amGet unit.launch s.launches = some x ∧ InOrder s ∧
     2 ^ 20 ≤ x.queue ∧ queue.done < queue.tail ∧ (∀ q ∈ s.queues, q.2.phase ≠ some 5) ∧ setupLaunch.graph = none ∧ setupLaunch.phase = none) := by
  refine ⟨⟨by decide, rfl, ok_meets (by decide +kernel)⟩, by decide +kernel, by decide +kernel,
    by decide +kernel, by decide +kernel, by decide +kernel, by decide +kernel,
    ⟨by decide +kernel, rfl, ok_meets (by decide +kernel), ok_meets (by decide +kernel)⟩, rfl, ?_,
    ⟨by decide, ok_meets (by decide +kernel)⟩, by decide +kernel, by decide +kernel⟩
  exact List.forall_mem_cons.mpr ⟨ok_meets (by decide +kernel), List.forall_mem_cons.mpr ⟨ok_meets (by decide +kernel), nofun⟩⟩
/-- A context at each point of a halt, at the ticks before and at the end of the swap. -/
theorem witness_PartitionsHaltSaveAndRestore :
    let c := { setupContext with preemptible := true }
    let s := fun (pre tick : Nat) => ({ at_ 0 with toll := tick, ctxs := [(0, { c with pre := pre, preTick := 1 })] } : State)
    amGet 1 (s 0 0).ctxs = none ∧ (c.pre = 0 ∧ c.dying = false ∧ setupContext.preemptible = false) ∧
    (preQuiet (s 1 1) 0 = true ∧ preQuiet { s 1 1 with ops := [(3, flagged 0 .taking)] } 0 = false) ∧
    ((s 2 4000).toll < 1 + 4000 ∧ 1 + 4000 ≤ (s 2 4001).toll) ∧
    (¬ ∃ x ∈ (s 3 1).ctxs, x.1 ≠ 0 ∧ x.2.pre ≠ 3 ∧ ∃ k ∈ x.2.clusters, k ∈ c.clusters) ∧
    (∃ x ∈ [(0, { c with pre := 3 }), (1, setupContext)], x.1 ≠ 0 ∧ x.2.pre ≠ 3 ∧ ∃ k ∈ x.2.clusters, k ∈ c.clusters) ∧
    ctxOfTeam (s 1 1) 0 = some 0 := by decide +kernel
/-- Contexts debuggable and not; a stopped fragment, and one stepping for 65,536 ticks. -/
theorem witness_DebugStopsFreezeAndStep :
    let ok := { setupContext with debuggable := true }
    let s : State := { at_ 0 with cur := none, toll := 65540, ctxs := [(0, ok)] }
    ((∀ c ∈ s.ctxs, c.2.debuggable = true) ∧ (∃ c ∈ (at_ 0).ctxs, c.2.debuggable = false)) ∧
    (InOrder s ∧ (¬ ∃ x ∈ s.ctxs, (x.2.debuggable = false ∨ x.2.secure = true ∧ dbgSecure s 0 = false) ∧ x.2.pre < 2 ∧ 0 ∈ x.2.clusters) ∧
      (∃ x ∈ (at_ 0).ctxs, (x.2.debuggable = false ∨ x.2.secure = true ∧ dbgSecure (at_ 0) 0 = false) ∧ x.2.pre < 2 ∧ 0 ∈ x.2.clusters) ∧
      let t : State := { at_ 0 with ctxs := [(0, { ok with secure := true })] }
      (∃ x ∈ t.ctxs, (x.2.debuggable = false ∨ x.2.secure = true ∧ dbgSecure t 0 = false) ∧ x.2.pre < 2 ∧ 0 ∈ x.2.clusters) ∧
      dbgSecure { t with bar0 := [(0x600138, 1)] } 0 = true) ∧
    (let st : ClStop := { tick := 1, cause := 0, cores := [] }
     amGet (clusterOf 0) ({ s with stops := [(0, st)] } : State).stops = some st ∧ 0 ∉ st.cores ∧ amGet (clusterOf 15) s.stops = none) ∧
    (amGet 1 s.frags = some (frag 0) ∧ amGet 0 s.teams = some team ∧ (65540 : Nat) < 2 ^ 64 ∧ (1 : Nat) < 2 ^ 32 ∧
      let at_ := fun (base : DWord) => (dbgReg { s with bar0 := [(0x600100, base)] } 0 ((dbgBank 0 (secureTeam s team)).2 + 0x100)).toNat + 32 * smGet 0 (dbgBank 0 (secureTeam s team)).1 s.skids
      (meetsTables s (at_ (dw (2 ^ 40))) 32 = false ∧ 2 ^ 40 ≤ at_ (dw (2 ^ 40))) ∧ meetsTables s (at_ 0x10000) 32 = true) ∧
    (let f := { frag 0 with frozen := true }
     (steppable { s with frags := [(1, f)] } 0 0 0).isSome = true ∧ steppable s 0 0 0 = none) ∧
    (let f := { frag 0 with stepping := some 4, wait := .bar 0 1 }
     f.stepping = some 4 ∧ f.wait ≠ .run ∧ 4 + 65536 ≤ s.toll ∧ lowestLane f.mask = 0) := by decide +kernel

/-! ### The fabric, steals and the host -/

/-- Port 0's ring 0 bound to context 0, with a ring of two slots at 0x10000 and its doorbell at 0x20000; peer entry 0; and inbound entry 0
for endpoint 9, ring 1. -/
def fabricRegs : AMap DWord :=
  [(0x400000, 0x10000), (0x400008, 0x8000000000020000), (0x400010, 0x20000), (0x404000, BitVec.ofNat 64 (9 + 2 ^ 32 + 2 ^ 54))]
/-- The machine with them, and descriptors numbered so far. -/
def fabric (doorbell : Nat) (descr : Nat) : State :=
  { at_ 0 with
    cur := none, bar0 := fabricRegs, rings := [(0, { taken := 0, held := [] })]
    mem := putBytes (putBytes tables 0x110000 (natBytes 8 doorbell)) 0x100000 (natBytes 64 descr) }
/-- A store of four bytes from 0x10400 to the peer's 0x20000, and a descriptor of no meaning. -/
def goodDescr : Nat := 1 + 5 * 256 ^ 3 + 4 * 256 ^ 8 + 0x10400 * 256 ^ 16 + 0x20000 * 256 ^ 24
/-- A store whose source no page holds, and an addition to the peer's counter at 0x20000. -/
def farDescr : Nat := 1 + 5 * 256 ^ 3 + 4 * 256 ^ 8 + 2 ^ 40 * 256 ^ 16 + 0x20000 * 256 ^ 24
def countDescr : Nat := 3 + 5 * 256 ^ 3 + 1 * 256 ^ 16 + 0x20000 * 256 ^ 24
/-- What arrives at port 0: an operation on an address, fenced or not. -/
def message (id : Nat) (dst : DWord) (fence : Bool) : FabricMsg :=
  { port := 0, srcEndpoint := 9, srcRing := 1, id := id, aop := 1, fence := fence, pair := true, acct := false, scope := 5, dst := dst,
    amount := 1, data := natBytes 16 1 }
/-- A descriptor taken, sent, and to be answered. -/
def outgoing (lctr : DWord) (after : List Nat) : Outgoing :=
  { ring := 0, i := 0, op := 1, peer := 0, msg := message 0 0x20000 false, after := after, stat := 0x10028, lctr := lctr, finish := none,
    raw := natBytes 40 0, stage := 0 }
theorem witness_DescriptorsAreSentAppliedAndEnd :
    amGet 63 (fabric 0 0).rings = none ∧
    (∃ r, engineCounter (ringEng (fabric 0 0) 0 0) (ringReg (fabric 0 0) 0 16) false (fabric 0 0) = .ok r ∧ rdNat r.1 r.2 8 ≤ 0) ∧
    (∀ d ∈ [(goodDescr, true, true), (0, false, true), (farDescr, true, false), (countDescr, true, true)], let s := fabric 1 d.1
      (engineCounter (ringEng s 0 0) (ringReg s 0 16) false s).toOption.any (fun r =>
        let g := ringEng s 0 0
        decide (0 < rdNat r.1 r.2 8) && decide (ringLen r.1 0 ≠ 0) && decide (currentPhase r.1 g.ctx = none) &&
        (engineRead g none (0x10000 : Nat) 64 (acquireCounter g.agent (.die g.die) 4 r.2 (rdNat r.1 r.2 8) r.1)).toOption.any (fun x =>
          (engineWrite g none (0x10028 : Nat) (natBytes 8 1) x.1).toOption.any (fun y =>
            (descrOk x.2 == d.2.1) && decide (field x.2 0 1 = d.1 % 256) && (decide (field x.2 0 1 ≠ 1) ||
            ((engineRead g none (field x.2 16 8 : Int) (field x.2 8 4) y.1).toOption.isSome == d.2.2))))) = true) ∧
    (inboundEntry (fabric 0 0) 0 9 1 = some (0, 0) ∧ inboundEntry (fabric 0 0) 0 8 1 = none ∧ amGet 0 (fabric 0 0).ctxs ≠ none ∧
      (∀ x ∈ (fabric 0 0).inbound, x.msg ≠ message 1 0x20000 false)) ∧
    (let y : Inbound := { op := 1, msg := message 0 0x20000 false, src := 0, applied := false, asked := false }
     let s := { fabric 0 0 with inbound := [y] }
     (∀ x ∈ s.inbound, ¬ (x.op = 1 ∧ x.msg = message 1 0x20000 true)) ∧ ∃ y ∈ s.inbound, y.src = 0 ∧ y.msg.id < (message 1 0x20000 true).id) ∧
    (∀ e ∈ (fabric 0 0).steals, bitsOf (pairReg (fabric 0 0) e.2.die 0) 3 0 ≠ 0) :=
  ⟨by decide +kernel, ok_meets (by decide +kernel), by decide +kernel, by decide +kernel, by decide +kernel, by decide +kernel⟩
/-- A descriptor that has been answered, with nothing to wait for, and ones that have. -/
theorem witness_DescriptorsEnd :
    (let o := outgoing 0x20000 []
     let s := { fabric 0 0 with outgoing := [o] }
     s.outgoing.find? (fun x => x.ring == 0 && x.i == 0) = some o ∧ o.after = [] ∧ (outgoing 0 [3]).after ≠ [] ∧ o.lctr ≠ 0 ∧ (outgoing 0 []).lctr = 0 ∧
     ∃ r, engineSpots (ringEng s 0 0) none (o.stat.toNat : Int) 8 needStore s = .ok r ∧ (r.2 = [(.at 0x100028 0x10003A, 8)] ∧ rewritten (ringEng s 0 0) o r.1 = false) ∧
       (engineCounter (ringEng s 0 0) o.lctr true (writeCells (ringEng s 0 0).agent (engineOp (ringEng s 0 0)) (ringEng s 0 0).ord
         (cellsAt r.2 (natBytes 8 2)) r.1)).toOption.any (fun q =>
         decide (0x100028 + 8 ≤ q.2 ∨ q.2 + 8 ≤ 0x100028) && decide (rdNat q.1 q.2 8 + 1 < 2 ^ 64)) = true) :=
  ⟨by decide +kernel, rfl, by decide, by decide, rfl, ok_meets (by decide +kernel)⟩
/-- Arrivals that apply, add and acknowledge at once or wait for their ring's logged writes; a descriptor that cannot be read; and writes
of a ring that are out. -/
theorem witness_ArrivalsAndAcknowledgementsWait :
    (let who := agentArrival 0 1
     let g : Eng := { who := .agent who, agent := who, ctx := 0, die := 0, core := none, ord := who, phase := none }
     (∀ need ∈ [needStore, needAdd], (engineSpots g none (0x10000 : Nat) 16 need (fabric 0 0)).toOption.any (fun r =>
        r.2.all (fun y => match y.1 with | .at _ _ => true | .log _ _ => false) && !appendsOut r.1 who who && (amGet who r.1.ops).isNone &&
        decide (((messageElems (message 1 0x10000 false) r.2).map Prod.snd).Pairwise (fun x y => x.pa + x.size ≤ y.pa ∨ y.pa + y.size ≤ x.pa))) = true) ∧
     (∃ r, engineCounter g 0x20000 true (fabric 0 0) = .ok r ∧ (rdNat r.1 r.2 8 + 1 < 2 ^ 64 ∧ arrivalLogs r.1 0 1 = [])) ∧
     (∃ r, engineCounter g 0x20000 true (fabric (2 ^ 64 - 1) 0) = .ok r ∧ 2 ^ 64 ≤ rdNat r.1 r.2 8 + 1) ∧
     (let e : LogEntry := { off := 0, kind := 0, mask := 1, len := 1, data := [7], weight := [], stamps := [(agentArrival 0 0, 5, 5)], past := [] }
      ∃ r, engineCounter g 0x20000 true { fabric 0 0 with tiles := [(0x140000, tile .absent [e] none none)] } = .ok r ∧ arrivalLogs r.1 0 1 ≠ []) ∧
     let y : Inbound := { op := 1, msg := message 1 0x10000 false, src := 0, applied := true, asked := false }
     ∀ o ∈ [([] : AMap Op), [(3, { flagged 0 (.adds []) with ord := who, team := who })]],
       let s : State := { fabric 0 0 with inbound := [y], ops := o }
       s.inbound.find? (fun x => x.op == 1 && x.msg == message 1 0x10000 false) = some y ∧ appendsOut s who who = !o.isEmpty) ∧
    (let s : State := { fabric 1 0 with bar0 := (0x400000, 2 ^ 56) :: fabricRegs.drop 1 }
     (engineCounter (ringEng s 0 0) (ringReg s 0 16) false s).toOption.any (fun r =>
       let g := ringEng s 0 0
       decide (0 < rdNat r.1 r.2 8) && match engineRead g none (2 ^ 56 : Int) 64 (acquireCounter g.agent (.die g.die) 4 r.2 (rdNat r.1 r.2 8) r.1) with
         | .error (_, .fault _ _) => true
         | _ => false) = true) ∧
    (let g := ringEng (fabric 0 0) 0 0
     let held : HeldWrite := { body := .bytes [(0, 1)], weight := [], stamp := g.ord, writer := g.agent }
     appendsOut (fabric 0 0) g.agent g.ord = false ∧ logsOut (fabric 0 0) g.agent = false ∧
     appendsOut { fabric 0 0 with tiles := [(0x140000, { tile .arriving [] none none with held := [held] })] } g.agent g.ord = true) :=
  ⟨⟨by decide +kernel, ok_meets (by decide +kernel), ok_meets (by decide +kernel), ok_meets (by decide +kernel), by decide +kernel⟩,
   by decide +kernel, by decide +kernel⟩
/-- Entry 4095 of die 0 holds a sequence of Carillon context 0; die 1 is idle; die 0 is paired over port 3. -/
def batched : State :=
  let im : BatchImage := { version := 3, valid := 1, ctxn := 0, len := 9, kv := 0, user := [] }
  { at_ 0 with
    cur := none, crls := [(0, crl 2)], batch := [(4095, { now := im, tick := 0, before := im })], bar0 := [(0x500000, 0x8000000000000003)]
    ctxs := [(0, poolContext [19] false)] }
/-- A sequence received from the partner chip. -/
def stealMsg (pages : List (List Byte)) : StealMsg :=
  { id := 1, die := 0, entry := 5, version := 4, len := 1, user := [], prog := 0, pc := 0, state := 2, c := [], key := [], x := [], pos := [],
    val := [], idx := [], ccnt := 0, hist := [], seq := 0, fcause := 0, tcause := 0, pages := pages }
/-! #### Where a sequence's pages land: which frames and pages are drawn is open, that they are found is not -/

/-- One context, no queue and no bound Carillon context, with at most n frames in use. -/
def Fits (n : Nat) (s : State) : Prop := (∃ c, s.ctxs = [(0, c)]) ∧ s.queues = [] ∧ s.crls = [] ∧ (usedFrames s).length ≤ n
theorem nonsecure_room (d : Nat) : 2 ^ 22 < (frameArea d false).2 := by
  have := Nat.mod_lt (Config.secureFrames d) (show 0 < 2 ^ 22 by decide)
  simp only [frameArea, Bool.false_eq_true, if_false]
  omega
theorem fits_newTable {n : Nat} {s : State} (h : Fits n s) (hn : n < 2 ^ 22) : ∃ t s', newTable 0 s = some (t, s') ∧ Fits (n + 1) s' := by
  obtain ⟨⟨c, hc⟩, hq, hr, hu⟩ := h
  have hs : usedFrames (choose 2 s).2 = usedFrames s := rfl
  obtain ⟨f, hf⟩ := freeFrame_some (die := (choose 2 s).1) (secure := false) (s := (choose 2 s).2) (by have := nonsecure_room (choose 2 s).1; rw [hs]; omega)
  refine ⟨f * 2 ^ 16, zeroFrame f (modCtx 0 (fun c => { c with tables := f :: c.tables }) (draw (choose 2 s).2).2), by rw [newTable]; simp only [hf], ⟨{ c with tables := f :: c.tables }, ?_⟩, hq, hr, ?_⟩
  · simp only [zeroFrame, zeroRange, forgetRange, modCtx, amMod, choose, draw, hc]
    rfl
  · simp only [usedFrames, zeroFrame, zeroRange, forgetRange, modCtx, amMod, choose, draw, hc, hq, List.map_cons, List.map_nil, List.flatMap_cons,
      List.flatMap_nil, List.length_append, List.length_cons, List.length_nil, if_true, Nat.reduceLeDiff, if_false] at hu ⊢
    omega
theorem fits_setEntry {n a : Nat} {e : DWord} {s : State} (h : Fits n s) : Fits n (setEntry a e s) := h
theorem fits_childTable {n a : Nat} {l1 : Bool} {s : State} (h : Fits n s) (hn : n < 2 ^ 22) :
    ∃ t s', childTable 0 l1 a s = some (t, s') ∧ Fits (n + 1) s' := by
  rw [childTable]
  split
  · exact ⟨_, _, rfl, h.1, h.2.1, h.2.2.1, Nat.le_succ_of_le h.2.2.2⟩
  · obtain ⟨t, s', ht, hf⟩ := fits_newTable h hn
    simp only [ht]
    refine ⟨_, _, rfl, fits_setEntry ?_⟩
    split
    · exact List.foldlRecOn _ _ hf (fun s hs _ _ => fits_setEntry hs)
    · exact hf
theorem fits_putLeaf {n va : Nat} {e : DWord} {s : State} (h : Fits n s) (hn : n + 3 < 2 ^ 22) :
    ∃ s', putLeaf 0 va false e s = some s' ∧ Fits (n + 3) s' := by
  obtain ⟨c, hc⟩ := h.1
  have hg : amGet 0 s.ctxs = some c := by rw [hc]; rfl
  obtain ⟨t2, s2, h2, f2⟩ := fits_childTable (l1 := false) (a := c.root + 8 * (va / 2 ^ 45 % 4096)) h (by omega)
  obtain ⟨t1, s1, h1, f1⟩ := fits_childTable (l1 := false) (a := t2 + 8 * (va / 2 ^ 33 % 4096)) f2 (by omega)
  obtain ⟨t0, s0, h0, f0⟩ := fits_childTable (l1 := true) (a := t1 + 8 * (va / 2 ^ 21 % 4096)) f1 (by omega)
  exact ⟨_, by rw [putLeaf]; simp only [hg, h2, h1, h0]; rfl, fits_setEntry f0⟩
/-- A machine whose die 0 is idle and paired, with frames in its pool and empty page tables. -/
def landing : State :=
  { State.reset with ctxs := [(0, poolContext [21, 22, 23] false)], bar0 := [(0x500000, 0x8000000000000003)], boot := { State.reset.boot with state := 2 } }
theorem rdNat_empty {s : State} (h : s.mem = []) (a : Nat) : rdNat s a 8 = 0 := by
  have : ∀ k, rdByte s k = 0 := by intro k; rw [rdByte, h]; rfl
  simp only [rdNat, rdBytes, upFrom, List.map_cons, List.map_nil, this]
  rfl
theorem leafOf_empty {s : State} (h : s.mem = []) (ctx va : Nat) : entryType (leafOf s ctx va).1 = 0 := by
  rw [leafOf]
  split
  · rfl
  · simp only [walk, walkBy, rdNat_empty h]
    rfl
theorem serviceAddr_page {k : Nat} (h : k < 2 ^ 40 - 1) : serviceAddr ((k + 1) * 2 ^ 16) 1 = true := by
  have hn : ∀ n, n ≤ (k + 1) * 2 ^ 16 → n < 2 ^ 56 := by omega
  have h1 := hn _ (Nat.le_refl _)
  have ha : ∀ n, n ≤ (k + 1) * 2 ^ 16 → aperture n = 0 := by
    intro n h
    have := hn n h
    rw [aperture, if_neg (by simp only [scratchBase]; omega), if_neg (by simp only [stackBase]; omega)]
  have hc : canonical ((k + 1) * 2 ^ 16) = true := by simp only [canonical, h1, decide_true, Bool.true_or]
  have ht : ((((k + 1) * 2 ^ 16 : Nat) : Int)).toNat = (k + 1) * 2 ^ 16 := Int.toNat_natCast _
  simp only [serviceAddr, checkSpan]
  rw [if_neg (by omega), ht, hc, ha _ (Nat.le_refl _), Nat.add_sub_cancel, ha _ (Nat.le_refl _), if_neg (by decide), if_neg (by omega)]
  rfl
/-- Where no table is written a page of the global aperture is free. -/
theorem freePage_empty {s : State} (h : s.mem = []) (ctx : Nat) : ∃ va, freePage ctx s = some (va, (draw s).2) :=
  ⟨((draw s).1 % (2 ^ 40 - 1) + 1) * 2 ^ 16, by
    rw [freePage]
    have hs := serviceAddr_page (Nat.mod_lt (draw s).1 (show 0 < 2 ^ 40 - 1 by decide))
    have hl := leafOf_empty (s := (draw s).2) h ctx (((draw s).1 % (2 ^ 40 - 1) + 1) * 2 ^ 16)
    simp only [hs, hl, Bool.true_and, beq_self_eq_true, if_true]⟩
/-- The page list of a sequence of no pages lands there. -/
theorem landing_lands : ∃ kv s, (landPages 0 0 [] landing).bind (landList 0 0 0) = some (kv, s) ∧ 0 ∈ freeCrls s 0 := by
  obtain ⟨va, hp⟩ := freePage_empty (s := landing) rfl 0
  have ht : ∃ s1, takePool 0 0 false (draw landing).2 = .got 21 s1 ∧ Fits 1000 s1 :=
    ⟨_, rfl, ⟨_, rfl⟩, rfl, rfl, by decide +kernel⟩
  obtain ⟨s1, ht, hf⟩ := ht
  obtain ⟨s2, h2, f2⟩ := fits_putLeaf (va := va) (e := dw (2 + 8 + 16 + 0 * 2 ^ 7 + 21 * 2 ^ 16)) (s := pokeBytes (21 * 2 ^ 16) ([].take (2 ^ 16)) s1) hf (by decide)
  refine ⟨va, s2, ?_, ?_⟩
  · simp only [landPages, Option.bind, landList, drawBytes, landPage, hp, ht, h2, Option.map]
  · rw [freeCrls, f2.2.2.1]
    decide +kernel
/-- Nothing lands for a context that is none. -/
theorem landing_none : ((landPages 0 0 [[1]] { landing with ctxs := [] }).bind (landList 0 0 1)).isNone = true := by
  obtain ⟨va, hp⟩ := freePage_empty (s := { landing with ctxs := [] }) rfl 0
  have ht : takePool 0 0 false (draw { landing with ctxs := [] }).2 = .refused := rfl
  simp only [landPages, landPage, hp, ht, Option.bind, Option.isNone]
/-- Die 1 with every Carillon context bound. -/
def crowded : State := { batched with crls := (0, crl 2) :: (upFrom 4096 4096).map (fun n => (n, crl 3)) }
theorem amGet_map {α : Type} {c : α} {n : Nat} : ∀ {l : List Nat}, n ∈ l → amGet n (l.map (fun k => (k, c))) = some c
  | k :: l, h => by
    by_cases hk : k = n
    · simp [amGet, hk]
    · simpa [amGet, hk] using amGet_map (List.mem_of_ne_of_mem (Ne.symm hk) h)
theorem crowded_full : freeCrls crowded 1 = [] := by
  rw [freeCrls, List.filter_eq_nil_iff]
  intro n hn
  have h : n ≠ 0 := by
    intro e
    rw [e] at hn
    exact absurd hn (by decide +kernel)
  have : amGet n crowded.crls = some (crl 3) := by
    simp only [crowded, amGet]
    rw [if_neg (by simpa using Ne.symm h)]
    exact amGet_map hn
  simp [this]
/-- A steal of it, one of an idle entry, one whose thief has no free context or another program, and one between chips. -/
theorem witness_SequencesAreStolenWhole :
    ((1 : Nat) ≤ 1 ∧ (4095 : Nat) ≤ 4095 ∧ dieIdle batched 1 = true ∧ (batchAt batched 0 4095).now.valid = 1 ∧ suspendable batched 0 = true ∧
      amGet 0 batched.crls = some (crl 2) ∧ (freeCrls batched 1).contains 4096 = true ∧ (batchAt batched 0 4095).now.ctxn ≤ 4095 ∧
      smGet [] (1 * 16 + (crl 2).prog) batched.progs = smGet [] (0 * 16 + (crl 2).prog) batched.progs ∧
      smGet [] (1 * 16 + (crl 2).prog) [(0, [(1 : Word)])] ≠ smGet [] (0 * 16 + (crl 2).prog) [(0, [(1 : Word)])]) ∧
    (dieIdle batched 0 = false ∧ amGet 0 ({ batched with crls := [] } : State).crls = none) ∧
    (freeCrls crowded 1 = [] ∧ amGet 0 crowded.crls = some (crl 2) ∧ suspendable crowded 0 = true) ∧
    (leafAddr batched (poolContext [19] false).root 0x10000 = some (0x40008, false) ∧
      (let e := dw (rdNat batched 0x40008 8)
       entryType e = 2 ∧ malformed 0 e = false ∧ bitsOf e 47 16 / 2 ^ 23 + 1 = 1 ∧ bitsOf e 10 9 = 0 ∧ entryBit e 12 = false ∧ entryBit e 6 = false ∧ bitsOf e 12 9 = 0) ∧ (0x40008 % 8 = 0 ∧ amSorted batched.mem = true ∧
        0x40008 / 2 ^ 16 < 2 ^ 23 ∧ (poolContext [19] false).ctrPage < 2 ^ 23 ∧ 0x40008 / 2 ^ 16 ≠ (poolContext [19] false).ctrPage) ∧
      ∃ f s1, freeFrame 1 false batched = some (f, s1) ∧ 2 ^ 23 ≤ f) ∧
    (bitsOf (pairReg batched 0 0) 63 63 = 1 ∧ bitsOf (pairReg batched 1 0) 63 63 = 0 ∧ (crl 2).state ≠ 5) ∧
    ((bitsOf (pairReg landing 0 0) 47 32 = 0 ∧ dieIdle landing 0 = true ∧ bitsOf (pairReg landing 0 0) 63 63 = 1) ∧
      ((landPages 0 0 [[1]] { landing with ctxs := [] }).bind (landList 0 0 1)).isNone = true ∧
      ∃ kv s, (landPages 0 0 [] landing).bind (landList 0 0 0) = some (kv, s) ∧ 0 ∈ freeCrls s 0) ∧
    (stolenLeaf batched 0 0 0x60000 = none ∧ stolenLeaf batched 0 0 0x10000 = some (0x40008, false, 0x10003A) ∧
      0x40008 + 8 ≤ (poolContext [19] false).ctrPage * 2 ^ 16) ∧
    (let x : Steal := { die := 0, entry := 4095, image := (batchAt batched 0 4095).now }
     amGet 7 ({ batched with steals := [(7, x)] } : State).steals = some x ∧ bitsOf (pairReg batched x.die 0) 3 0 = 3) :=
  ⟨by decide +kernel, by decide +kernel, ⟨crowded_full, rfl, rfl⟩, ⟨by decide +kernel, by decide +kernel, by decide +kernel, freeFrame_die1 _ (by decide +kernel)⟩,
   by decide +kernel, ⟨by decide +kernel, landing_none, landing_lands⟩, by decide +kernel, by decide +kernel⟩
/-- The boot logic of a device in a state, with the window's bytes. -/
def booting (state : Nat) (window : List Byte) : State :=
  { State.reset with boot := { State.reset.boot with state := state, window := (upFrom 0 window.length).zip window } }
/-- The first 16 bytes of an image of 64 bytes, of the highest version. -/
def header64 : List Byte := natBytes 16 (0x5A4F4C44 + 5 * 256 ^ 4 + 0xFFFF * 256 ^ 6 + 64 * 256 ^ 8)
/-- Each boot cause, but that whether a signature verifies is open: an image is either refused for it or runs. -/
theorem witness_TheHostBootsWritesAndResets :
    (amGet 0 (commanded queue tables).queues = some queue ∧ (0 : Nat) < 64 * 4096 ∧ amGet 1 (commanded queue tables).queues = none) ∧
    (let s := { at_ 0 with bar0 := [(0x1F0000, 0x100000), (0x1F0008, 65536), (0x1F0010, 0x150000)] }
     s.boot.state = 2 ∧ isPow2 (smGet 0 0x1F0008 s.bar0).toNat 2 65536 = true ∧ (smGet 0 0x1F0000 s.bar0).toNat % 64 = 0 ∧
     (smGet 0 0x1F0010 s.bar0).toNat % 64 = 0 ∧ queueMemory 0x100000 65536 0x150000 = true ∧ meetsTables s 0x150000 64 = false ∧ amGet (64 * 4096) s.queues = none ∧ amGet (64 * 4096) (commanded queue tables).queues = some admin) ∧
    (plainRegister 0x1F0000 = true ∧ plainRegister 0x4B0008 = true ∧ plainRegister 0x4B07E8 = true ∧ 0x4B07E8 = 0x400000 + 11 * 0x10000 + 0x20 * 63 + 8 ∧ plainRegister 0x1F0018 = false) ∧
    ((State.reset.boot.index ≤ 2 ^ 20) ∧ 2 ^ 36 - 1 + [(1 : Byte)].length ≤ 2 ^ 36 ∧ bar2Base State.reset + (2 ^ 36 - 1) + 1 ≤ 2 ^ 40 ∧ 2 ^ 36 < 2 ^ 36 + [(1 : Byte)].length) ∧
    (State.reset.boot.state = 0 ∧ 2 ^ 26 - 1 + [(1 : Byte)].length ≤ 2 ^ 26 ∧ (booting 2 []).boot.state ≠ 0) ∧
    (field (imageBytes (booting 0 []) 0 64) 0 4 ≠ 0x5A4F4C44 ∧
      (let s := booting 0 header64
       field (imageBytes s 0 64) 0 4 = 0x5A4F4C44 ∧ (∀ k, k < 64 → 16 ≤ k → smGet 0 k s.boot.window = 0) ∧ field (imageBytes s 0 64) 8 8 = 64 ∧
       64 ≤ 2 ^ 26 - 2820 ∧ (∀ v : Nat, v % 2 ^ 16 ≤ field (imageBytes s 0 64) 6 2) ∧
       (imageVerifies (imageBytes s 0 64) (imageBytes s 64 2820) = true ∨ ¬ imageVerifies (imageBytes s 0 64) (imageBytes s 64 2820) = true)) ∧
      field (imageBytes (booting 0 (natBytes 16 (0x5A4F4C44 + 63 * 256 ^ 8))) 0 64) 8 8 % 64 ≠ 0) ∧
    ((at_ 0).boot.state = 2 ∧ (at_ 0).boot.index < 2 ^ 20 ∧ amGet 0 (at_ 0).ctxs = some setupContext ∧ setupContext.dying = false ∧ (0 : Nat) < 2 ^ 16 ∧
      2 ^ 20 ≤ (Boot.idle (2 ^ 20)).index ∧ amGet 1 (at_ 0).ctxs = none) := by
  refine ⟨by decide +kernel, by decide +kernel, by decide +kernel, by decide +kernel, by decide +kernel, ⟨by decide +kernel, ?_, by decide +kernel⟩,
    by decide +kernel⟩
  refine ⟨by decide +kernel, by decide +kernel, by decide +kernel, by decide, ?_, Classical.em _⟩
  intro v
  have h : field (imageBytes (booting 0 header64) 0 64) 6 2 = 65535 := by decide +kernel
  rw [h]
  omega

/-! ### Steps and the machine as a whole -/

/-- The machine that fetches FADD d3, d3, d7, IADD.2, a word that is none, and the microinstruction CDRAW c3, n0. -/
def fetching (n w : Nat) : State := State.reset.withFetchWord n w
/-- Its fragment. -/
def fetcher : Frag := { newFrag 0 (dw (codeVa + 4)) (fullMask 32) 0 none with clause := { hdr := dw codeVa, word := 0x0FF000FF } }
/-- Halfwords, whole words and none to fetch; a header, a transfer that reaches none, the clause's end, and a microinstruction. -/
theorem witness_AStepRunsTheDecodedInstruction :
    (choices State.reset = [] ∧ headerNext State.reset = none ∧ headerNext (fetching 32 (hdr 0).toNat) = some 1) ∧
    ((choices (fetching 16 0x1C72)).length = 1 ∧ headerNext (fetching 16 0x1C72) = none) ∧
    (coreChoice (fetching 16 0x1C72) 0 = some 1 ∧ amSorted (fetching 16 0x1C72).frags = true) ∧
    (∀ w ∈ [(16, 0x1C72), (32, 0x1442213D), (32, 0x000000FD)], let s := fetching w.1 w.2
      amGet 1 s.frags = some fetcher ∧ amGet fetcher.team s.teams = some (freshTeam setupLaunch 0 0 0 0 0 0) ∧ amGet 0 s.units = some setupUnit ∧
      fetcher.mid = false ∧ fetcher.beyond = false ∧ fetcher.xfer = none ∧ (fetcher.pc - fetcher.clause.hdr).toNat + 4 ≤ 256 ∧
      (match (fetchWord (freshTeam setupLaunch 0 0 0 0 0 0) setupUnit fetcher.pc s).1 with
        | .ok x => decide (x % 2 ^ 16 = w.2 % 2 ^ 16)
        | .error _ => false) = true) ∧
    ((decode32 0x000000FD).toOption = none ∧ (decode32 0x1442213D).toOption.isSome = true ∧ decode32 0x1442213D = .ok (.fma 1 8 2 1 20 0) ∧
      isHeader (.fma 1 8 2 1 20 0) = false ∧ ({ fetcher with xfer := some 0 } : Frag).xfer ≠ none ∧
      256 < (({ fetcher with pc := dw (codeVa + 254) } : Frag).pc - fetcher.clause.hdr).toNat + 4) ∧
    (let s := fetching 32 0x1442213D
     canonical 0x10004 = true ∧ aperture 0x10004 = 0 ∧
     (match translate 0 0 0x10004 needFetch s with | (.page pa _, v) => decide (v.hist.length = 0) && decide (pa = 0x100004) | _ => false) = true) ∧
    (match (fetchWord team unit 0x10005 (at_ 0)).1 with | .error (.target _) => true | _ => false) = true ∧
    ((amGet 0 (fetching 32 0x44C00000).crls).isSome = true ∧ (smGet [] 0 (fetching 32 0x44C00000).progs).length = 1) ∧
    (let s := { State.reset with tstop := 0x8000000000000005 }
     bitsOf s.tstop 63 63 = 1 ∧ s.toll ≤ bitsOf s.tstop 62 0) := by
  refine ⟨by decide +kernel, by decide +kernel, by decide +kernel, by decide +kernel, ⟨by decide +kernel, by decide +kernel, rfl, rfl, by decide, by decide +kernel⟩,
    by decide +kernel, by decide +kernel, by decide +kernel, by decide +kernel⟩
theorem witness_DecodeAndEncodeAgree :
    ((Instr.fadd16 31 0).wf = true ∧ (Instr.fadd16 31 0).form = .half) ∧ ((Instr.fma 3 56 0 3 8 3).wf = true ∧ (Instr.fma 3 56 0 3 8 3).form = .word) ∧
    ((Instr.ctopk 256).wf = true ∧ (Instr.ctopk 256).form = .micro) ∧ (0x1C72 < 2 ^ 16 ∧ 0x1C72 % 2 = 0) ∧
    decode16 0x1C72 = .ok (.fadd16 3 7) ∧ decode32 0xDE8000C1 = .ok (.mma 0 0 26 27) ∧ decodeCarillon 0 = .ok .halt :=
  ⟨by decide, by decide, by decide, by decide, rfl, rfl, rfl⟩
/-- A step that answers a next state, from a state that meets the invariants. -/
theorem witness_Invariants :
    let s := fetching 16 0x1C72
    Memory.wf s.mem = true ∧ InOrder s ∧ s.boot.index ≤ 2 ^ 20 ∧ Memory.wf (at_ 0).mem = true := by decide +kernel
theorem witness_Invariants_step : (∃ s', step State.reset = .next s') ∧ ∃ s', exec .yield (at_ 0) = .next s' := by
  constructor
  · exact ⟨passTime State.reset, rfl⟩
  · exact ⟨_, rfl⟩
theorem witness_SigningIndicesAreUsedOnce : (at_ 0).boot.state = 2 ∧ (at_ 0).boot.index < 2 ^ 20 ∧
    amGet 0 (at_ 0).ctxs = some setupContext ∧ setupContext.dying = false ∧ 2 ^ 20 ≤ ({ (at_ 0).boot with index := 2 ^ 20 } : Boot).index := by decide +kernel
end Sys2Proof.Tests
end
end

section
/-! Team registers: the instructions of one pass that read or write them (R112, R116 to R118, R178, R254). -/

namespace Sys2Proof.Machine

open Sys2Proof

theorem onePass_next {len : Nat} {body : State → Nat → Frag → Team → Except (State × Stop) State} {s u : State} {i : Nat} {f : Frag}
    {t : Team} (hr : Ready s i f t) (hb : body s i f t = .ok u) : onePass len body s = .next (advance i len u) := by
  simp [onePass, hr.1, hb]

theorem putDest_ovf (d : Dest) (v : DWord) (t : Team) : (putDest d v t).ovf = t.ovf := by
  cases d with
  | lane l r => rfl
  | scalar n => by_cases h : n = 0 <;> simp [putDest, h]
  | bank n => rfl

theorem putDest_flags (d : Dest) (v : DWord) (t : Team) : (putDest d v t).flags = t.flags := by
  cases d with
  | lane l r => rfl
  | scalar n => by_cases h : n = 0 <;> simp [putDest, h]
  | bank n => rfl

/-- An instruction of one pass whose body changes the team by `g`. -/
theorem onePass_teamChanged {body : State → Nat → Frag → Team → Except (State × Stop) State} {s : State} {i : Nat} {f : Frag}
    {t : Team} (g : Team → Team) (hr : Ready s i f t) (hb : body s i f t = .ok (modTeam f.team g s)) (hg : (g t).gcore = t.gcore) :
    ∃ s', onePass 4 body s = .next s' ∧ TeamChanged s s' i f t (g t) :=
  ⟨_, onePass_next hr hb, modTeam_changed g hr hg⟩

/-- An instruction of one pass whose body changes nothing. -/
theorem onePass_unchanged {body : State → Nat → Frag → Team → Except (State × Stop) State} {s : State} {i : Nat} {f : Frag}
    {t : Team} (hr : Ready s i f t) (hb : body s i f t = .ok s) :
    ∃ s', onePass 4 body s = .next s' ∧ TeamChanged s s' i f t t :=
  ⟨_, onePass_next hr hb, advance_team hr rfl (current_some hr.1).2.2 rfl (fun _ _ => rfl)⟩

/-- An instruction of one pass whose body writes scalar register `n`, and then changes the team by `g`. -/
theorem onePass_writeScalar_modTeam {body : State → Nat → Frag → Team → Except (State × Stop) State} {s : State} {i : Nat} {f : Frag}
    {t t' : Team} {n : Nat} {v : DWord} (g : Team → Team) (hr : Ready s i f t)
    (hb : body s i f t = .ok (modTeam f.team g (writeScalar f n v s))) (hg : ∀ u, (g u).gcore = u.gcore)
    (ht : g (putDest (sDest f.handler n) v t) = t') :
    ∃ s', onePass 4 body s = .next s' ∧ OnlyTeam true 4 s s' i f t ∧
      s'.ops = killEarlier f.team s.seq [sDest f.handler n] s.ops ∧
      amGet f.team s'.teams = some t' := by
  have hts := (current_some hr.1).2.2
  refine ⟨_, onePass_next hr hb, advance_team hr rfl ?_ ?_ ?_⟩
  · rw [← ht]
    simp [writeScalar, amGet_amMod, hts]
  · rw [← ht, hg, putDest_gcore]
  · intro k hk
    simp [writeScalar, amGet_amMod, hk]

theorem exec_of_teamRead {ins : Instr} {n : BitVec 5} {val : Team → DWord} (h : TeamRead ins n val) (s : State) :
    exec ins s = scalarOp n (fun _ _ t => val t) s := by
  cases h <;> rfl

theorem teamChanged_of_teamWrite {ins : Instr} {g : Frag → Team → Team} (h : TeamWrite ins g) {s : State} {i : Nat} {f : Frag}
    {t : Team} (hr : Ready s i f t) : ∃ s', exec ins s = .next s' ∧ TeamChanged s s' i f t (g f t) := by
  cases h with
  | lsw a =>
    show ∃ s', execTsrLsw a s = .next s' ∧ _
    exact onePass_teamChanged (fun u => { u with lscale := (sGet t f.handler a.toNat).setWidth 32 }) hr rfl rfl
  | xps1 n k =>
    show ∃ s', execXps 1 n k s = .next s' ∧ _
    exact onePass_teamChanged (fun u => { u with x1 := ⟨k, n⟩ }) hr rfl rfl
  | xps2 n k =>
    show ∃ s', execXps 2 n k s = .next s' ∧ _
    exact onePass_teamChanged (fun u => { u with x2 := ⟨k, n⟩ }) hr rfl rfl
  | xps3 n k =>
    show ∃ s', execXps 3 n k s = .next s' ∧ _
    exact onePass_teamChanged (fun u => { u with x3 := ⟨k, n⟩ }) hr rfl rfl
  | nop =>
    show ∃ s', execNop s = .next s' ∧ _
    exact onePass_unchanged hr rfl
  | yield =>
    show ∃ s', execYield s = .next s' ∧ _
    exact onePass_unchanged hr rfl

/-- TSR.OVC: the old OVF goes to the destination, and the bits of the scalar leave OVF. -/
theorem tsrOvc_next (n a : BitVec 5) {s : State} {i : Nat} {f : Frag} {t : Team} (hr : Ready s i f t) (hf : ScalarFree s f n.toNat) :
    ∃ s', exec (.tsrOvc n a) s = .next s' ∧ OnlyTeam true 4 s s' i f t ∧
      s'.ops = killEarlier f.team s.seq [sDest f.handler n.toNat] s.ops ∧ amGet f.team s'.teams =
        some { putDest (sDest f.handler n.toNat) t.ovf t with ovf := t.ovf &&& ~~~(sGet t f.handler a.toNat) } := by
  show ∃ s', execTsrOvc n a s = .next s' ∧ _
  exact onePass_writeScalar_modTeam (v := t.ovf) (fun u => { u with ovf := u.ovf &&& ~~~(sGet t f.handler a.toNat) }) hr
    (by simp only [toScalar_free hf]) (fun _ => rfl) (by simp only [putDest_ovf])

/-- TSR.FLC: the old FLAGS go to the destination, and the bits of the scalar leave FLAGS. -/
theorem tsrFlc_next (n a : BitVec 5) {s : State} {i : Nat} {f : Frag} {t : Team} (hr : Ready s i f t) (hf : ScalarFree s f n.toNat) :
    ∃ s', exec (.tsrFlc n a) s = .next s' ∧ OnlyTeam true 4 s s' i f t ∧
      s'.ops = killEarlier f.team s.seq [sDest f.handler n.toNat] s.ops ∧ amGet f.team s'.teams =
        some { putDest (sDest f.handler n.toNat) t.flags t with flags := t.flags &&& ~~~(sGet t f.handler a.toNat) } := by
  show ∃ s', execTsrFlc n a s = .next s' ∧ _
  exact onePass_writeScalar_modTeam (v := t.flags) (fun u => { u with flags := u.flags &&& ~~~(sGet t f.handler a.toNat) }) hr
    (by simp only [toScalar_free hf]) (fun _ => rfl) (by simp only [putDest_flags])

/-- TSR.SET of a shape register that no matrix operation has locked. -/
theorem tsrSet_next (n : BitVec 3) (a : BitVec 5) {s : State} {i : Nat} {f : Frag} {t : Team} (hr : Ready s i f t)
    (hl : locked s f.team (fun l => l.1 == n.toNat) = false) (hw : lockedWaiting s f.team (fun l => l.1 == n.toNat) = false) :
    ∃ s', exec (.tsrSet n a) s = .next s' ∧
      TeamChanged s s' i f t { t with ts := smPut 0 n.toNat (sGet t f.handler a.toNat) t.ts } := by
  show ∃ s', execTsrSet n a s = .next s' ∧ _
  exact onePass_teamChanged (fun u => { u with ts := smPut 0 n.toNat (sGet t f.handler a.toNat) u.ts }) hr
    (by simp [lockGate_free hw hl]) rfl

/-- A pass of a lane instruction that changes its team alone. -/
theorem passDone_team {s u : State} {i : Nat} {f : Frag} {t t' : Team} (hr : Ready s i f t)
    (hu : u = { s with teams := u.teams }) (ht : amGet f.team u.teams = some t') (hg : t'.gcore = t.gcore)
    (ho : ∀ k, k ≠ f.team → amGet k u.teams = amGet k s.teams) :
    OnlyTeam false 4 s (passDone i 4 u) i f t ∧ (passDone i 4 u).ops = s.ops ∧ amGet f.team (passDone i 4 u).teams = some t' := by
  obtain ⟨hc, hhit, hstop, hstep⟩ := hr
  obtain ⟨-, hf, -⟩ := current_some hc
  have hfr : u.frags = s.frags := by rw [hu]
  have htoll : u.toll = s.toll := by rw [hu]
  have hiss : u.issued = s.issued := by rw [hu]
  obtain ⟨f', hm, he, hi, hk⟩ := passDone_quiet (len := 4) (by rw [hfr]; exact hf) ht hhit hstop hstep
  generalize passDone i 4 u = v at *
  have hvi : v.issued = amPut t.gcore (s.toll + 1) s.issued := by rw [he, hg, htoll, hiss]
  have hvt : v.teams = u.teams := by rw [he]
  have hvo : v.ops = s.ops := by rw [he, hu]
  refine ⟨⟨?_, ?_, ⟨f', hi, htoll ▸ hm⟩, hvi, ?_⟩, hvo, ?_⟩
  · conv => lhs; rw [he, hu]
    rw [hvi, hvt, hvo, hg]
  · intro k hk'; rw [hk k hk', hfr]
  · intro k hk'; rw [hvt]; exact ho k hk'
  · rw [hvt]; exact ht

/-- A pass of DTAG.RESET: the first one sets the tag counter to 1. -/
theorem dtagReset_next {s : State} {i : Nat} {f : Frag} {t : Team} (hr : Ready s i f t) :
    ∃ s', exec .dtagReset s = .next s' ∧ OnlyTeam false 4 s s' i f t ∧ s'.ops = s.ops ∧
      amGet f.team s'.teams = some (if firstPass f then { t with tagctr := 1 } else t) := by
  have hts := (current_some hr.1).2.2
  refine ⟨passDone i 4 (if firstPass f then modTeam f.team (fun t => { t with tagctr := 1 }) s else s), ?_, ?_⟩
  · show execDtagReset s = _
    simp only [execDtagReset, lanePass, hr.1]
  · split
    · exact passDone_team hr rfl (by simp [amGet_amMod, hts]) rfl (fun k hk => by simp [amGet_amMod, hk])
    · exact passDone_team hr rfl hts rfl (fun _ _ => rfl)

/-- Settles O13: reads of the team's registers end as a scalar result, writes as a change of the team (R112, R116 to R118); TSR.OVC and
TSR.FLC do both in one pass. -/
theorem teamRegistersAreReadAndWritten : Obligations.TeamRegistersAreReadAndWritten := by
  refine ⟨?_, ?_, ?_, ?_, ?_⟩
  · intro ins n val h s i f t hr hf
    rw [exec_of_teamRead h]
    exact ⟨_, scalarOp_next hr hf, scalarWritten_of hr⟩
  · intro ins g h s i f t hr
    exact teamChanged_of_teamWrite h hr
  · intro n a s i f t hr hf
    exact ⟨tsrOvc_next n a hr hf, tsrFlc_next n a hr hf⟩
  · intro n a s i f t hr hl hw
    exact tsrSet_next n a hr hl hw
  · intro s i f t hr
    exact dtagReset_next hr

end Sys2Proof.Machine
end

section
/-! The canonical form of memory (R4, R36, R290, R397). `MemWf` says it of a state; `ResWf`, `EndWf`, `StopWf`, `OptWf`, `OptStWf`,
`MapWf`, `PoolWf` and `OutWf` say it of every state an answer of the model can carry. Each function `f` of the model has one lemma
`wf_f`, in the model's order; its proof follows the function's branches and cites the lemmas of what the function calls. -/

namespace Sys2Proof.Machine
open Sys2Proof

/-- The state's memory is in canonical form. -/
abbrev MemWf (s : State) : Prop := Memory.wf s.mem = true

/-- A state written out field by field: only its memory field counts. -/
theorem memWf_mk
    {x0 x1 x2 x3 x4 x5 x6 mem x8 x9 x10 x11 x12 x13 x14 x15 x16 x17 x18 x19 x20 x21 x22 x23 x24
    x25 x26 x27 x28 x29 x30 x31 x32 x33 x34 x35 x36 x37 x38 x39 x40 x41 x42 x43 x44 x45
    x46 x47 x48}
    (h : Memory.wf mem = true) :
    MemWf ⟨x0, x1, x2, x3, x4, x5, x6, mem, x8, x9, x10, x11, x12, x13, x14, x15, x16, x17, x18, x19,
      x20, x21, x22, x23, x24, x25, x26, x27, x28, x29, x30, x31, x32, x33, x34, x35, x36,
      x37, x38, x39, x40, x41, x42, x43, x44, x45, x46, x47, x48⟩ := h

/-- Every state an access's answer carries, with its value or its stop, has canonical memory. -/
inductive ResWf {ε α : Type} : Except (State × ε) (State × α) → Prop
  | ok {x : State × α} (h : MemWf x.1) : ResWf (.ok x)
  | error {x : State × ε} (h : MemWf x.1) : ResWf (.error x)

/-- The same of an answer whose success carries a state alone. -/
inductive EndWf {ε : Type} : Except (State × ε) State → Prop
  | ok {s : State} (h : MemWf s) : EndWf (.ok s)
  | error {x : State × ε} (h : MemWf x.1) : EndWf (.error x)

/-- The same of an answer whose stop alone carries a state. -/
inductive StopWf {ε α : Type} : Except (State × ε) α → Prop
  | ok {a : α} : StopWf (.ok a)
  | error {x : State × ε} (h : MemWf x.1) : StopWf (.error x)

/-- The same of an answer whose success alone carries a state. -/
inductive MapWf {ε : Type} : Except ε State → Prop
  | ok {s : State} (h : MemWf s) : MapWf (.ok s)
  | error {e : ε} : MapWf (.error e)

/-- The state a choice among values leaves, when it leaves one, has canonical memory. -/
inductive OptWf {α : Type} : Option (α × State) → Prop
  | none : OptWf none
  | some {x : α × State} (h : MemWf x.2) : OptWf (some x)

/-- The same where the state stands alone. -/
inductive OptStWf : Option State → Prop
  | none : OptStWf none
  | some {s : State} (h : MemWf s) : OptStWf (some s)

/-- The state a granted pool frame leaves has canonical memory. -/
inductive PoolWf : PoolTake → Prop
  | got {f : Nat} {s : State} (h : MemWf s) : PoolWf (.got f s)
  | refused : PoolWf .refused
  | later : PoolWf .later

/-- The next state an outcome answers, when it answers one, has canonical memory. -/
inductive OutWf : Out → Prop
  | next {s : State} (h : MemWf s) : OutWf (.next s)
  | fault {f} : OutWf (.fault f)
  | refused {r} : OutWf (.refused r)

theorem ResWf.ok_mem {ε α : Type} {r : Except (State × ε) (State × α)} {s : State} {a : α}
    (h : ResWf r) (e : r = .ok (s, a)) : MemWf s := by
  subst e; cases h; assumption

theorem ResWf.error_mem {ε α : Type} {r : Except (State × ε) (State × α)} {s : State} {a : ε}
    (h : ResWf r) (e : r = .error (s, a)) : MemWf s := by
  subst e; cases h; assumption

theorem EndWf.ok_mem {ε : Type} {r : Except (State × ε) State} {s : State}
    (h : EndWf r) (e : r = .ok s) : MemWf s := by
  subst e; cases h; assumption

theorem EndWf.error_mem {ε : Type} {r : Except (State × ε) State} {s : State} {a : ε}
    (h : EndWf r) (e : r = .error (s, a)) : MemWf s := by
  subst e; cases h; assumption

theorem StopWf.error_mem {ε α : Type} {r : Except (State × ε) α} {s : State} {a : ε}
    (h : StopWf r) (e : r = .error (s, a)) : MemWf s := by
  subst e; cases h; assumption

theorem MapWf.ok_mem {ε : Type} {r : Except ε State} {s : State}
    (h : MapWf r) (e : r = .ok s) : MemWf s := by
  subst e; cases h; assumption

theorem OptWf.some_mem {α : Type} {r : Option (α × State)} {s : State} {a : α}
    (h : OptWf r) (e : r = Option.some (a, s)) : MemWf s := by
  subst e; cases h; assumption

theorem OptStWf.some_mem {r : Option State} {s : State}
    (h : OptStWf r) (e : r = Option.some s) : MemWf s := by
  subst e; cases h; assumption

theorem PoolWf.got_mem {r : PoolTake} {f : Nat} {s : State} (h : PoolWf r) (e : r = .got f s) :
    MemWf s := by
  subst e; cases h; assumption

theorem OutWf.next_mem {o : Out} {s : State} (h : OutWf o) (e : o = .next s) : MemWf s := by
  subst e; cases h; assumption

theorem MemWf.of_snd {α : Type} {p : α × State} {a : α} {s : State}
    (h : MemWf p.2) (e : p = (a, s)) : MemWf s := by
  subst e; exact h

theorem MemWf.of_fst {α : Type} {p : State × α} {a : α} {s : State}
    (h : MemWf p.1) (e : p = (s, a)) : MemWf s := by
  subst e; exact h

/-- A fold of steps that keep memory canonical keeps it so. -/
theorem memWf_foldl {α : Type} {f : State → α → State} {s : State} {l : List α} (h : MemWf s)
    (hf : ∀ s x, MemWf s → MemWf (f s x)) : MemWf (l.foldl f s) := by
  induction l generalizing s with
  | nil => exact h
  | cons x l ih => exact ih (hf s x h)

/-- The same for a fold that carries a value beside the state. -/
theorem memWf_foldl_snd {α β : Type} {f : β × State → α → β × State} {p : β × State} {l : List α}
    (h : MemWf p.2) (hf : ∀ p x, MemWf p.2 → MemWf (f p x).2) : MemWf (l.foldl f p).2 := by
  induction l generalizing p with
  | nil => exact h
  | cons x l ih => exact ih (hf p x h)

theorem memWf_foldl_fst {α β : Type} {f : State × β → α → State × β} {p : State × β} {l : List α}
    (h : MemWf p.1) (hf : ∀ p x, MemWf p.1 → MemWf (f p x).1) : MemWf (l.foldl f p).1 := by
  induction l generalizing p with
  | nil => exact h
  | cons x l ih => exact ih (hf p x h)

/-- A fold of accesses whose every answer has canonical memory. -/
theorem resWf_foldl {ε α β : Type}
    {f : Except (State × ε) (State × α) → β → Except (State × ε) (State × α)}
    {r : Except (State × ε) (State × α)} {l : List β} (h : ResWf r)
    (hf : ∀ r x, ResWf r → ResWf (f r x)) : ResWf (l.foldl f r) := by
  induction l generalizing r with
  | nil => exact h
  | cons x l ih => exact ih (hf r x h)

theorem optWf_map {α β : Type} {f : α × State → β × State} {r : Option (α × State)} (h : OptWf r)
    (hf : ∀ x, MemWf x.2 → MemWf (f x).2) : OptWf (r.map f) := by
  cases h with
  | none => exact .none
  | some h => exact .some (hf _ h)

theorem optWf_map_value {α β : Type} {f : α → β × State} {r : Option α}
    (hf : ∀ x, MemWf (f x).2) : OptWf (r.map f) := by
  cases r with
  | none => exact .none
  | some x => exact .some (hf x)

theorem optStWf_map {α : Type} {f : α × State → State} {r : Option (α × State)} (h : OptWf r)
    (hf : ∀ x, MemWf x.2 → MemWf (f x)) : OptStWf (r.map f) := by
  cases h with
  | none => exact .none
  | some h => exact .some (hf _ h)

theorem optWf_map_state {β : Type} {f : State → β × State} {r : Option State} (h : OptStWf r)
    (hf : ∀ s, MemWf s → MemWf (f s).2) : OptWf (r.map f) := by
  cases h with
  | none => exact .none
  | some h => exact .some (hf _ h)

theorem optStWf_bind {f : State → Option State} {r : Option State} (h : OptStWf r)
    (hf : ∀ s, MemWf s → OptStWf (f s)) : OptStWf (r.bind f) := by
  cases h with
  | none => exact .none
  | some h => exact hf _ h

theorem optWf_bind {α β : Type} {f : α × State → Option (β × State)} {r : Option (α × State)}
    (h : OptWf r) (hf : ∀ x, MemWf x.2 → OptWf (f x)) : OptWf (r.bind f) := by
  cases h with
  | none => exact .none
  | some h => exact hf _ h

theorem optWf_bind_state {β : Type} {f : State → Option (β × State)} {r : Option State}
    (h : OptStWf r) (hf : ∀ s, MemWf s → OptWf (f s)) : OptWf (r.bind f) := by
  cases h with
  | none => exact .none
  | some h => exact hf _ h

theorem memWf_getD {r : Option State} {s : State} (hr : OptStWf r) (h : MemWf s) :
    MemWf (r.getD s) := by
  cases hr with
  | none => exact h
  | some h => exact h

section
variable {s : State}

/-! ### Machine/Ops -/

theorem wf_andThen {α β : Type} {r : Res α} {k : State → α → Res β} (h : ResWf r)
    (hk : ∀ s a, MemWf s → ResWf (k s a)) : ResWf (andThen r k) := by
  cases h with
  | ok h => exact hk _ _ h
  | error h => exact .error h

theorem wf_andOk {α : Type} {r : Res α} {k : State → α → Except (State × Stop) State}
    (h : ResWf r) (hk : ∀ s a, MemWf s → EndWf (k s a)) : EndWf (andOk r k) := by
  cases h with
  | ok h => exact hk _ _ h
  | error h => exact .error h

theorem wf_setFrag {i f} (h : MemWf s) : MemWf (setFrag i f s) := h

theorem wf_modFrag {i g} (h : MemWf s) : MemWf (modFrag i g s) := h

theorem wf_delFrag {i} (h : MemWf s) : MemWf (delFrag i s) := h

theorem wf_modTeam {i g} (h : MemWf s) : MemWf (modTeam i g s) := h

theorem wf_modUnit {i g} (h : MemWf s) : MemWf (modUnit i g s) := h

theorem wf_modCtx {i g} (h : MemWf s) : MemWf (modCtx i g s) := h

theorem wf_draw (h : MemWf s) : MemWf (draw s).2 := h

theorem wf_choose {n} (h : MemWf s) : MemWf (choose n s).2 := by
  unfold choose
  split
  · exact h
  · exact wf_draw h

theorem wf_writeDests {team ws} (h : MemWf s) : MemWf (writeDests team ws s) := h

theorem wf_writeLanes {team ws} (h : MemWf s) : MemWf (writeLanes team ws s) := wf_writeDests h

theorem wf_writeScalar {f n v} (h : MemWf s) : MemWf (writeScalar f n v s) := wf_writeDests h

theorem wf_lockGate {team p} (h : MemWf s) : MemWf (lockGate team p s).2 := by
  unfold lockGate
  dsimp only
  split
  · exact h
  · split
    · exact h
    · split
      · exact wf_choose h
      · exact memWf_mk (wf_choose h)

theorem wf_destGate {team d} (h : MemWf s) : MemWf (destGate team d s).2 := by
  unfold destGate
  split
  · exact wf_lockGate h
  · exact h

theorem wf_giveBack {phase w} (h : MemWf s) : MemWf (giveBack phase w s) := h

theorem wf_spawnWeight {unit} (h : MemWf s) : MemWf (spawnWeight unit s).2 := by
  unfold spawnWeight
  dsimp only
  repeat' split
  all_goals exact h

theorem wf_spawnFor {o} (h : MemWf s) : MemWf (spawnFor o s).2 := by
  unfold spawnFor
  split
  · exact wf_spawnWeight h
  · split <;> exact h

theorem wf_issueFrom {ord i f t tag body} (h : MemWf s) :
    MemWf (issueFrom ord i f t tag body s) := by
  unfold issueFrom
  dsimp only
  split
  · exact h
  · exact memWf_mk (wf_spawnWeight h)

theorem wf_issueOp {i f t tag body} (h : MemWf s) : MemWf (issueOp i f t tag body s) :=
  wf_issueFrom h

theorem wf_endOp {n} (h : MemWf s) : MemWf (endOp n s) := by
  unfold endOp
  dsimp only
  split
  · exact h
  · split
    · exact h
    · split
      · exact h
      · exact wf_giveBack h

theorem wf_setBody {n b} (h : MemWf s) : MemWf (setBody n b s) := h

theorem wf_pickSome {α : Type} {l : List α} (h : MemWf s) : MemWf (pickSome l s).2 := by
  induction l generalizing s with
  | nil => exact h
  | cons a l ih =>
    unfold pickSome
    exact ih (wf_draw h)

theorem wf_noteRead {agent a n shown} (h : MemWf s) : MemWf (noteRead agent a n shown s) := h

theorem wf_readUnit {agent a n} (h : MemWf s) : MemWf (readUnit agent a n s).2 := by
  unfold readUnit
  dsimp only
  split
  · exact h
  · exact wf_noteRead (wf_pickSome h)

theorem wf_readNow {agent a n} (h : MemWf s) : MemWf (readNow agent a n s).2 := wf_noteRead h

theorem wf_markRelease {n agents} (h : MemWf s) : MemWf (markRelease n agents s) := h

theorem wf_release {agents r} (h : MemWf s) : MemWf (release agents r s) := by
  unfold release
  exact memWf_mk (wf_markRelease h)

theorem wf_releaseOwn {writer r} (h : MemWf s) : MemWf (releaseOwn writer r s) := h

theorem wf_acquireFrom {agent rs} (h : MemWf s) : MemWf (acquireFrom agent rs s) := h

theorem wf_inherit {a b} (h : MemWf s) : MemWf (inherit a b s) := h

theorem wf_acquireCounter {agent pos scope pa v} (h : MemWf s) :
    MemWf (acquireCounter agent pos scope pa v s) :=
  wf_acquireFrom h

theorem wf_teamAdd {n agent pos scope pa amount} (h : MemWf s) :
    MemWf (teamAdd n agent pos scope pa amount s).2 := by
  unfold teamAdd
  dsimp only
  split
  · exact h
  · exact wf_pokeAs _ _ _ _ _ h

theorem wf_counterAdd {agents agent pos scope pa amount} (h : MemWf s) :
    MemWf (counterAdd agents agent pos scope pa amount s).2 := by
  unfold counterAdd
  dsimp only
  split
  · exact h
  · exact wf_pokeAs _ _ _ _ _ (wf_release h)

theorem wf_engineAdd {writer agent pos scope pa amount} (h : MemWf s) :
    MemWf (engineAdd writer agent pos scope pa amount s).2 := by
  unfold engineAdd
  dsimp only
  split
  · exact h
  · exact wf_pokeAs _ _ _ _ _ (wf_releaseOwn h)

theorem wf_recordError {ctx gcore team r} (h : MemWf s) :
    MemWf (recordError ctx gcore team r s) := by
  unfold recordError
  dsimp only
  split
  · exact h
  · refine wf_pokeNat _ _ _ ?_
    split
    · exact wf_pokeBytes _ _ h
    · exact h

theorem wf_recordOverflow {ctx gcore team va amount} (h : MemWf s) :
    MemWf (recordOverflow ctx gcore team va amount s) :=
  wf_recordError h

theorem wf_leaveMerge {w} (h : MemWf s) : MemWf (leaveMerge w s) := h

theorem wf_retireTile {t tile how st} (h : MemWf s) : MemWf (retireTile t tile how st s) := by
  unfold retireTile
  repeat' split
  all_goals exact h

theorem wf_discardTiles {team} (h : MemWf s) : MemWf (discardTiles team s) := by
  unfold discardTiles
  split
  · exact h
  · split
    · exact h
    · exact wf_modTeam (memWf_foldl h fun _ _ h => wf_retireTile h)

theorem wf_settleTeam {team} (h : MemWf s) : MemWf (settleTeam team s) := by
  unfold settleTeam
  split
  · exact h
  · exact wf_discardTiles (wf_modTeam h)

theorem wf_stopUnit {unit} (h : MemWf s) : MemWf (stopUnit unit s) :=
  memWf_foldl (memWf_mk (memWf_foldl (memWf_foldl h fun _ _ h => wf_leaveMerge (wf_leaveMerge h))
    fun _ _ h => wf_endOp h)) fun _ _ h => wf_discardTiles h

theorem wf_traceRec {t kind pc} (h : MemWf s) : MemWf (traceRec t kind pc s) := by
  unfold traceRec
  dsimp only
  split
  · exact h
  · split
    · exact h
    · exact wf_dbgWrite _ _ _ h

theorem wf_freezeFrag {i tick cause} (h : MemWf s) : MemWf (freezeFrag i tick cause s) := by
  unfold freezeFrag
  dsimp only
  split
  · exact h
  · split
    · exact h
    · exact wf_dbgWrite _ _ _ (memWf_mk (wf_setFrag h))

theorem wf_triggerStop {c cause} (h : MemWf s) : MemWf (triggerStop c cause s) := by
  unfold triggerStop
  dsimp only
  split
  · exact h
  · exact memWf_mk (memWf_foldl h fun _ _ h => wf_modFrag h)

theorem wf_takeTrap {i f she r} (h : MemWf s) : MemWf (takeTrap i f she r s) := by
  unfold takeTrap
  dsimp only
  split
  · refine wf_freezeFrag (wf_setFrag (wf_modTeam ?_))
    split
    · split
      · exact wf_leaveMerge h
      · exact h
    · refine wf_traceRec ?_
      split
      · exact wf_leaveMerge h
      · exact h
  · refine wf_setFrag (wf_modTeam ?_)
    split
    · split
      · exact wf_leaveMerge h
      · exact h
    · refine wf_traceRec ?_
      split
      · exact wf_leaveMerge h
      · exact h

theorem wf_raiseTrap {i r} (h : MemWf s) : MemWf (raiseTrap i r s) := by
  unfold raiseTrap
  split
  · exact h
  · split
    · exact h
    · split
      · exact h
      · split
        · exact wf_stopUnit (wf_recordError h)
        · split
          · exact wf_setFrag h
          · exact wf_takeTrap h

theorem wf_trapHere {i f lanes cause hpc haddr hinfo fetch} (h : MemWf s) :
    MemWf (trapHere i f lanes cause hpc haddr hinfo fetch s) :=
  wf_raiseTrap h

theorem wf_raiseDeferred {i r} (h : MemWf s) : MemWf (raiseDeferred i r s) := by
  unfold raiseDeferred
  split
  · exact h
  · split
    · exact h
    · split
      · exact h
      · split
        · exact wf_stopUnit (wf_recordError h)
        · split
          · exact wf_setFrag h
          · exact wf_takeTrap h

theorem wf_takePending {team} (h : MemWf s) : MemWf (takePending team s) := by
  unfold takePending
  dsimp only
  split
  · exact h
  · split
    · exact wf_raiseTrap (wf_setFrag h)
    · exact wf_raiseDeferred (wf_setFrag h)
    · exact h

theorem wf_returnFromTrap {i team} (h : MemWf s) : MemWf (returnFromTrap i team s) := by
  unfold returnFromTrap
  dsimp only
  split
  · exact h
  · split
    · exact h
    · exact wf_takePending (wf_setFrag (wf_modTeam (wf_leaveMerge h)))

theorem wf_spend {i} (h : MemWf s) : MemWf (spend i s) := by
  unfold spend
  dsimp only
  split
  · exact h
  · split
    · exact h
    · exact wf_setFrag h

theorem wf_finishHit {i} (h : MemWf s) : MemWf (finishHit i s) := by
  unfold finishHit
  split
  · exact h
  · split
    · exact h
    · split
      · exact wf_setFrag h
      · exact wf_raiseTrap (wf_setFrag h)

theorem wf_finishStop {i} (h : MemWf s) : MemWf (finishStop i s) := by
  unfold finishStop
  split
  · exact h
  · split
    · exact wf_freezeFrag h
    · split
      · split
        · exact h
        · split
          · exact wf_setFrag h
          · exact wf_freezeFrag h
      · exact h

theorem wf_advance {i len} (h : MemWf s) : MemWf (advance i len s) :=
  wf_finishStop (wf_finishHit (wf_modFrag (wf_spend h)))

theorem wf_transfer {i target} (h : MemWf s) : MemWf (transfer i target s) :=
  wf_finishStop (wf_modFrag (wf_spend h))

theorem wf_passDone {i len} (h : MemWf s) : MemWf (passDone i len s) := by
  unfold passDone
  split
  · exact h
  · split
    · exact wf_advance h
    · exact wf_finishStop (wf_modFrag (wf_spend h))

theorem wf_beginWait {i w} (h : MemWf s) : MemWf (beginWait i w s) := wf_modFrag (wf_spend h)

theorem wf_resumeAfter {w} (h : MemWf s) : MemWf (resumeAfter w s) :=
  memWf_foldl h fun _ _ h => wf_finishStop h

theorem wf_passTick {i} (h : MemWf s) : MemWf (passTick i s) := by
  unfold passTick
  repeat' split
  all_goals exact h

theorem wf_stopPass {i f lanes e} (h : MemWf s) : MemWf (stopPass i f lanes s e) := by
  cases e
  · unfold stopPass
    exact wf_trapHere (wf_passTick h)
  · unfold stopPass
    exact wf_trapHere (wf_passTick h)
  · unfold stopPass
    exact wf_modFrag h
  · exact h

theorem wf_lanePass {body} {len} (h : MemWf s)
    (hb : ∀ s i f t lanes, MemWf s → EndWf (body s i f t lanes)) : OutWf (lanePass len body s) := by
  unfold lanePass
  split
  · exact .fault
  · split
    · rename_i e
      exact .next (wf_passDone ((hb _ _ _ _ _ h).ok_mem e))
    · rename_i e
      exact .next (wf_stopPass ((hb _ _ _ _ _ h).error_mem e))

theorem wf_gatherPass {look finish} (h : MemWf s) (hl : ∀ s f t, MemWf s → StopWf (look s f t))
    (hf : ∀ s i f t, MemWf s → EndWf (finish s i f t)) : OutWf (gatherPass look finish s) := by
  unfold gatherPass
  dsimp only
  split
  · exact .fault
  · split
    · rename_i e
      exact .next (wf_stopPass ((hl _ _ _ h).error_mem e))
    · split
      · split
        · rename_i e
          exact .next ((hf _ _ _ _ h).ok_mem e)
        · rename_i e
          exact .next (wf_stopPass ((hf _ _ _ _ h).error_mem e))
      · exact .next (wf_passDone (wf_setFrag h))

theorem wf_allPasses {body} {len} (h : MemWf s) (hb : ∀ s i f t, MemWf s → EndWf (body s i f t)) :
    OutWf (allPasses len body s) := by
  unfold allPasses
  dsimp only
  split
  · exact .fault
  · split
    · rename_i e
      exact .next (wf_finishStop (wf_finishHit (wf_modFrag (memWf_mk (wf_spend ((hb _ _ _ _
        h).ok_mem e))))))
    · rename_i e
      exact .next (wf_stopPass ((hb _ _ _ _ h).error_mem e))

theorem wf_onePass {body} {len} (h : MemWf s) (hb : ∀ s i f t, MemWf s → EndWf (body s i f t)) :
    OutWf (onePass len body s) := by
  unfold onePass
  split
  · exact .fault
  · split
    · rename_i e
      exact .next (wf_advance ((hb _ _ _ _ h).ok_mem e))
    · rename_i e
      exact .next (wf_stopPass ((hb _ _ _ _ h).error_mem e))

theorem wf_onePassTo {body} (h : MemWf s) (hb : ∀ s i f t, MemWf s → EndWf (body s i f t)) :
    OutWf (onePassTo body s) := by
  unfold onePassTo
  split
  · exact .fault
  · split
    · rename_i e
      exact .next ((hb _ _ _ _ h).ok_mem e)
    · rename_i e
      exact .next (wf_stopPass ((hb _ _ _ _ h).error_mem e))

theorem wf_illegal {f} (h : MemWf s) : MemWf (illegal s f).1 := h

theorem wf_illegalMode {f} (h : MemWf s) : MemWf (illegalMode s f).1 := h

theorem wf_checkRegs {f t w modeOk regs} (h : MemWf s) :
    StopWf (checkRegs s f t w modeOk regs) := by
  unfold checkRegs
  dsimp only
  split
  · exact .error (wf_illegal h)
  · split
    · exact .error (wf_illegalMode h)
    · exact .ok

/-! ### Machine/Flags -/

theorem wf_setFlags {team fl} (h : MemWf s) : MemWf (setFlags team fl s) := by
  unfold setFlags
  split
  · exact h
  · exact wf_modTeam h

theorem wf_setOvf {team bits} (h : MemWf s) : MemWf (setOvf team bits s) := wf_modTeam h

/-! ### Machine/Operands -/

theorem wf_laneGen {len w modes d hd srcs fn} (h : MemWf s) :
    OutWf (laneGen len w modes d hd srcs fn s) := by
  unfold laneGen
  refine wf_lanePass h (fun _ _ _ _ _ h => ?_)
  dsimp only
  split
  · rename_i e
    exact .error ((wf_checkRegs h).error_mem e)
  · exact .ok (wf_setFlags (wf_writeLanes h))

theorem wf_laneOp2 {len w d a p b q modes fn} (h : MemWf s) :
    OutWf (laneOp2 len w d a p b q modes fn s) :=
  wf_laneGen h

theorem wf_laneOp1 {len w d a p fn} (h : MemWf s) : OutWf (laneOp1 len w d a p fn s) := wf_laneGen h

/-! ### Machine/Xlat -/

theorem wf_tlbFill {k size e} (h : MemWf s) : MemWf (tlbFill k size e s) := by
  unfold tlbFill
  dsimp only
  split <;> exact h

theorem wf_walkFill {die ctx va path} (h : MemWf s) : MemWf (walkFill die ctx va path s) := by
  unfold walkFill
  refine memWf_foldl h fun _ _ h => ?_
  dsimp only
  split <;> exact h

theorem wf_dieWalk {die ctx root va} (h : MemWf s) : MemWf (dieWalk die ctx root va s).2 := by
  unfold dieWalk
  dsimp only
  exact wf_walkFill (wf_choose h)

theorem wf_translate {ctx gcore va need} (h : MemWf s) :
    MemWf (translate ctx gcore va need s).2 := by
  unfold translate
  dsimp only
  split
  · exact h
  · split
    · dsimp only
      split
      · split
        · exact wf_dieWalk h
        · exact wf_tlbFill (wf_tlbFill (wf_dieWalk h))
      · exact wf_dieWalk h
    · split
      · split
        · exact wf_dieWalk h
        · split
          · dsimp only
            split
            · split
              · exact wf_choose (wf_dieWalk h)
              · exact wf_tlbFill (wf_tlbFill (wf_choose (wf_dieWalk h)))
            · exact wf_choose (wf_dieWalk h)
          · exact wf_choose (wf_dieWalk h)
      · dsimp only
        split
        · split
          · exact wf_dieWalk h
          · exact wf_tlbFill (wf_tlbFill (wf_dieWalk h))
        · exact wf_dieWalk h

theorem wf_mergeJoin {die ctx large va leaf kind who} (h : MemWf s) :
    OptWf (mergeJoin die ctx large va leaf kind who s) := by
  unfold mergeJoin
  dsimp only
  split
  · exact .some h
  · split
    · exact .none
    · exact .some h

theorem wf_tileOf {ctx va e} (h : MemWf s) : MemWf (tileOf ctx va e s).2 := by
  unfold tileOf
  dsimp only
  split <;> exact h

theorem wf_startArrival {k} (h : MemWf s) : MemWf (startArrival k s) := h

theorem wf_teamPage {i t ctx va need haddr scalar later lane} (h : MemWf s) :
    ResWf (teamPage i t ctx va need haddr scalar later lane s) := by
  unfold teamPage
  dsimp only
  split
  · exact .ok (wf_translate h)
  · exact .error (wf_translate h)
  · exact .error (wf_translate h)
  · exact .error (wf_translate h)
  · split
    · exact .ok (wf_tileOf (wf_translate h))
    · split
      · exact .error (wf_tileOf (wf_translate h))
      · rename_i e
        exact .error (wf_startArrival ((wf_mergeJoin (wf_tileOf (wf_translate h))).some_mem e))
  · split
    · exact .error (wf_translate h)
    · split
      · exact .error (wf_translate h)
      · rename_i e
        split
        · exact .error ((wf_mergeJoin (wf_translate h)).some_mem e)
        · split
          · exact .error (memWf_mk ((wf_mergeJoin (wf_translate h)).some_mem e))
          · exact .error ((wf_mergeJoin (wf_translate h)).some_mem e)
  · split
    · exact .error (wf_translate h)
    · rename_i e
      exact .error ((wf_mergeJoin (wf_translate h)).some_mem e)

theorem wf_teamPieces {i t ctx need haddr scalar lane ps later} (h : MemWf s) :
    ResWf (teamPieces i t ctx need haddr scalar lane ps later s) := by
  induction ps generalizing s later with
  | nil => exact .ok h
  | cons p ps ih =>
    unfold teamPieces
    refine wf_andThen (wf_teamPage h) (fun _ _ h => ?_)
    split
    · split
      · exact .error h
      · exact wf_andThen (ih h) (fun _ _ h => .ok h)
    · split
      · exact .error h
      · exact wf_andThen (ih h) (fun _ _ h => .ok h)

theorem wf_laneAccess {i t lane ea n align need scratchOnly parts} (h : MemWf s) :
    ResWf (laneAccess i t lane ea n align need scratchOnly parts s) := by
  unfold laneAccess
  dsimp only
  split
  · exact .error h
  · exact .error h
  · split
    · split
      · exact .error h
      · split
        · exact .error h
        · exact .ok h
    · split
      · split
        · split
          · exact .error h
          · split
            · exact .error h
            · split
              · exact .error h
              · refine wf_andThen (wf_teamPieces h) (fun _ _ h' => ?_)
                split
                · exact .error h'
                · exact .ok h'
        · split
          · exact .error h
          · split
            · exact .error h
            · split
              · exact .error h
              · refine wf_andThen (wf_teamPieces h) (fun _ _ h' => ?_)
                split
                · exact .error h'
                · exact .ok h'
      · split
        · exact .error h
        · split
          · exact .error h
          · refine wf_andThen (wf_teamPieces h) (fun _ _ h => ?_)
            split
            · exact .error h
            · exact .ok h

theorem wf_watchWord {word i f t kind spans} (h : MemWf s) :
    MemWf (watchWord word i f t kind spans s) := by
  unfold watchWord
  dsimp only
  split
  · split
    · exact h
    · split
      · exact wf_triggerStop (wf_modFrag h)
      · exact wf_modFrag h
  · exact h

theorem wf_watch {i f t kind spans} (h : MemWf s) : MemWf (watch i f t kind spans s) :=
  wf_watchWord h

/-! ### Machine/Access -/

theorem wf_applyAdd {agent e} (h : MemWf s) : MemWf (applyAdd agent e s) := wf_writeMem _ _ _ h

theorem wf_markWrites {rels p} (h : MemWf s) : MemWf (markWrites rels p s) := by
  unfold markWrites
  split <;> exact h

theorem wf_fencedWrite {team ord start} (h : MemWf s) : MemWf (fencedWrite team ord start s) := by
  unfold fencedWrite
  dsimp only
  split
  · split
    · split
      · exact wf_markWrites h
      · exact memWf_mk (wf_markWrites h)
    · split
      · exact wf_markWrites h
      · exact memWf_mk (wf_markWrites h)
  · split
    · split
      · exact wf_markWrites h
      · exact memWf_mk (wf_markWrites h)
    · split
      · exact wf_markWrites h
      · exact memWf_mk (wf_markWrites h)

theorem wf_flushAdds {team spans} (h : MemWf s) : MemWf (flushAdds team spans s) := by
  unfold flushAdds
  refine memWf_foldl h fun _ _ h => ?_
  split
  · exact h
  · split
    · exact wf_endOp (memWf_foldl h fun _ _ h => wf_fencedWrite (wf_applyAdd h))
    · exact h

theorem wf_startPending {team n} (h : MemWf s) : MemWf (startPending team n s) :=
  memWf_foldl h fun _ _ h => wf_startArrival h

theorem wf_readSpans {agent spans} (h : MemWf s) : MemWf (readSpans agent spans s).2 := by
  unfold readSpans
  refine memWf_foldl_snd h fun _ _ h => ?_
  dsimp only
  split
  · exact h
  · exact wf_readUnit h

theorem wf_issueRead {i f t spans ds} (h : MemWf s) : MemWf (issueRead i f t spans ds s) := by
  unfold issueRead
  dsimp only
  split
  · exact wf_issueOp h
  · exact wf_issueOp (wf_readSpans h)

theorem wf_teamWrite {i f t sf cells} (h : MemWf s) : MemWf (teamWrite i f t sf cells s) := by
  unfold teamWrite
  dsimp only
  split
  · exact memWf_foldl (wf_flushAdds h) fun _ _ h => wf_issueOp h
  · exact memWf_foldl (wf_writeRuns _ _ _ (wf_flushAdds h)) fun _ _ h => wf_issueOp h

theorem wf_laneAccesses {i t n align need scratchOnly parts ea ls} (h : MemWf s) :
    ResWf (laneAccesses i t n align need scratchOnly parts ea ls s) := by
  induction ls generalizing s with
  | nil => exact .ok h
  | cons l ls ih =>
    unfold laneAccesses
    exact wf_andThen (wf_laneAccess h) (fun _ _ h => wf_andThen (ih h) (fun _ _ h => .ok h))

theorem wf_checkAccess {f t w g d a} (h : MemWf s) : StopWf (checkAccess s f t w g d a) := by
  unfold checkAccess
  split
  · exact .error (wf_illegal h)
  · exact wf_checkRegs h

theorem wf_load {size w d a q o} (h : MemWf s) : OutWf (load size w d a q o s) := by
  unfold load
  refine wf_lanePass h (fun _ _ _ _ _ h => ?_)
  dsimp only
  split
  · rename_i e
    exact .error ((wf_checkAccess h).error_mem e)
  · split
    · split
      · exact .error (wf_illegalMode h)
      · split
        · exact .error h
        · refine wf_andOk (wf_laneAccesses h) (fun _ _ h' => ?_)
          split
          · exact .ok (wf_watch (wf_issueOp h'))
          · exact .ok (wf_watch (wf_issueRead h'))
    · split
      · exact .error (wf_illegalMode h)
      · split
        · exact .error h
        · refine wf_andOk (wf_laneAccesses h) (fun _ _ h => ?_)
          split
          · exact .ok (wf_watch (wf_issueOp h))
          · exact .ok (wf_watch (wf_issueRead h))

theorem wf_fillGranules {gs} (h : MemWf s) : MemWf (fillGranules gs s) := h

theorem wf_storePass {i f t setFull ls data} (h : MemWf s) :
    MemWf (storePass i f t setFull ls data s) := by
  unfold storePass
  dsimp only
  refine wf_issueOp (wf_teamWrite ?_)
  split
  · exact wf_fillGranules (wf_release h)
  · exact h

theorem wf_store {size w d a q o} (h : MemWf s) : OutWf (store size w d a q o s) := by
  unfold store
  refine wf_lanePass h (fun _ _ _ _ _ h => ?_)
  dsimp only
  split
  · rename_i e
    exact .error ((wf_checkAccess h).error_mem e)
  · split
    · split
      · exact .error (wf_illegalMode h)
      · split
        · exact .error h
        · refine wf_andOk (wf_laneAccesses h) (fun _ _ h' => ?_)
          split
          · exact .error h'
          · exact .ok (wf_watch (wf_storePass h'))
    · split
      · exact .error (wf_illegalMode h)
      · split
        · exact .error h
        · refine wf_andOk (wf_laneAccesses h) (fun _ _ h => ?_)
          split
          · exact .error h
          · exact .ok (wf_watch (wf_storePass h))

theorem wf_asto {q3 w d a o} (h : MemWf s) : OutWf (asto q3 w d a o s) := by
  unfold asto
  refine wf_lanePass h (fun _ _ _ _ _ h => ?_)
  dsimp only
  split
  · rename_i e
    exact .error ((wf_checkAccess h).error_mem e)
  · split
    · exact .error (wf_illegalMode h)
    · split
      · exact .error h
      · refine wf_andOk (wf_laneAccesses h) (fun _ _ h => ?_)
        split
        · split
          · exact .ok (wf_watch (memWf_foldl (wf_issueOp h) fun _ _ h => wf_issueOp h))
          · exact .ok (wf_watch (memWf_foldl (wf_issueOp (wf_issueOp h)) fun _ _ h => wf_issueOp h))
        · split
          · exact .ok (wf_watch (memWf_foldl (wf_issueOp h) fun _ _ h => wf_issueOp h))
          · exact .ok (wf_watch (memWf_foldl (wf_issueOp (wf_issueOp h)) fun _ _ h => wf_issueOp h))

theorem wf_execPref {a _l _o} (h : MemWf s) : OutWf (execPref a _l _o s) := by
  unfold execPref
  refine wf_lanePass h (fun _ _ _ _ _ h => ?_)
  split
  · exact .error (wf_illegal h)
  · exact .ok (wf_issueOp h)

theorem wf_recordSpan {i t w a o need lanes} (h : MemWf s) :
    ResWf (recordSpan i t w a o need lanes s) := by
  unfold recordSpan
  dsimp only
  split
  · exact .error h
  · exact wf_laneAccess h

theorem wf_execSpill {w d a o} (h : MemWf s) : OutWf (execSpill w d a o s) := by
  unfold execSpill
  refine wf_lanePass h (fun _ _ _ _ _ h => ?_)
  dsimp only
  split
  · rename_i e
    exact .error ((wf_checkAccess h).error_mem e)
  · split
    · exact .error h
    · exact wf_andOk (wf_recordSpan h) (fun _ _ h => .ok (wf_watch (wf_issueOp (wf_teamWrite h))))

theorem wf_execFill {w d a o} (h : MemWf s) : OutWf (execFill w d a o s) := by
  unfold execFill
  refine wf_lanePass h (fun _ _ _ _ _ h => ?_)
  dsimp only
  split
  · rename_i e
    exact .error ((wf_checkAccess h).error_mem e)
  · split
    · exact .error h
    · exact wf_andOk (wf_recordSpan h) (fun _ _ h => .ok (wf_watch (wf_issueRead h)))

theorem wf_execSpillp {w d a o} (h : MemWf s) : OutWf (execSpillp w d a o s) := by
  unfold execSpillp
  refine wf_lanePass h (fun _ _ _ _ _ h => ?_)
  dsimp only
  split
  · rename_i e
    exact .error ((wf_checkAccess h).error_mem e)
  · split
    · exact .error h
    · exact wf_andOk (wf_laneAccesses h) (fun _ _ h => .ok (wf_watch (wf_storePass h)))

theorem wf_execFillp {w d a o} (h : MemWf s) : OutWf (execFillp w d a o s) := by
  unfold execFillp
  refine wf_lanePass h (fun _ _ _ _ _ h => ?_)
  dsimp only
  split
  · rename_i e
    exact .error ((wf_checkAccess h).error_mem e)
  · split
    · exact .error h
    · exact wf_andOk (wf_laneAccesses h) (fun _ _ h => .ok (wf_watch (wf_issueRead h)))

theorem wf_execFence {sc k} (h : MemWf s) : OutWf (execFence sc k s) := by
  unfold execFence
  refine wf_onePassTo h (fun _ _ _ _ h => ?_)
  dsimp only
  refine .ok (wf_beginWait ?_)
  split
  · exact wf_startPending (wf_issueOp h)
  · exact wf_issueOp h

theorem wf_execFenceComplete {op} (h : MemWf s) : OutWf (execFenceComplete op s) := by
  unfold execFenceComplete
  dsimp only
  split
  · exact .next h
  · split
    · split
      · exact .next h
      · refine .next (wf_resumeAfter (wf_endOp ?_))
        split
        · split
          · exact h
          · exact wf_acquireFrom h
        · refine wf_release ?_
          split
          · exact h
          · exact wf_acquireFrom h
    · exact .next h

theorem wf_deliver {op o es rebuild} (h : MemWf s) : MemWf (deliver op o es rebuild s) := by
  unfold deliver
  dsimp only
  split
  · exact wf_endOp (wf_choose h)
  · split
    · split
      · exact wf_destGate (wf_choose h)
      · split
        · exact wf_endOp (memWf_mk (wf_destGate (wf_choose h)))
        · exact wf_setBody (memWf_mk (wf_destGate (wf_choose h)))
    · dsimp only
      split
      · exact wf_choose h
      · split
        · exact wf_endOp (wf_choose h)
        · exact wf_setBody (wf_choose h)

theorem wf_deliverKeep {op o es rebuild} (h : MemWf s) : MemWf (deliverKeep op o es rebuild s) := by
  unfold deliverKeep
  dsimp only
  split
  · exact h
  · split
    · split
      · exact wf_destGate h
      · exact wf_setBody (memWf_mk (wf_destGate h))
    · dsimp only
      split
      · exact h
      · exact wf_setBody h

theorem wf_execLoadDataReturn {op} (h : MemWf s) : OutWf (execLoadDataReturn op s) := by
  unfold execLoadDataReturn
  split
  · exact .next h
  · split
    · exact .next (wf_deliver h)
    · exact .next (wf_deliverKeep h)
    · split
      · exact .next (wf_deliverKeep h)
      · exact .next (wf_deliver h)
    · exact .next (wf_deliver h)
    · exact .next (wf_deliverKeep h)
    · exact .next h

theorem wf_readOrdered {n o spans} (h : MemWf s) : MemWf (readOrdered n o spans s) :=
  wf_markWrites h

theorem wf_execWaitFullRead {op} (h : MemWf s) : OutWf (execWaitFullRead op s) := by
  unfold execWaitFullRead
  dsimp only
  split
  · exact .next h
  · split
    · split
      · exact .next h
      · exact .next (wf_setBody (wf_readOrdered (wf_readSpans h)))
    · split
      · exact .next h
      · split
        · split
          · refine .next (wf_finishStop (wf_setBody ?_))
            split
            · refine memWf_mk (wf_readOrdered ?_)
              split
              · exact memWf_foldl h fun _ _ h => wf_readNow h
              · exact wf_acquireFrom (memWf_foldl h fun _ _ h => wf_readNow h)
            · refine wf_readOrdered ?_
              split
              · exact memWf_foldl h fun _ _ h => wf_readNow h
              · exact wf_acquireFrom (memWf_foldl h fun _ _ h => wf_readNow h)
          · refine .next (wf_setBody ?_)
            split
            · refine memWf_mk (wf_readOrdered ?_)
              split
              · exact memWf_foldl h fun _ _ h => wf_readNow h
              · exact wf_acquireFrom (memWf_foldl h fun _ _ h => wf_readNow h)
            · refine wf_readOrdered ?_
              split
              · exact memWf_foldl h fun _ _ h => wf_readNow h
              · exact wf_acquireFrom (memWf_foldl h fun _ _ h => wf_readNow h)
        · split
          · refine .next (wf_finishStop (wf_setBody ?_))
            split
            · refine memWf_mk (wf_readOrdered ?_)
              split
              · exact memWf_foldl h fun _ _ h => wf_readNow h
              · exact wf_acquireFrom (memWf_foldl h fun _ _ h => wf_readNow h)
            · refine wf_readOrdered ?_
              split
              · exact memWf_foldl h fun _ _ h => wf_readNow h
              · exact wf_acquireFrom (memWf_foldl h fun _ _ h => wf_readNow h)
          · refine .next (wf_setBody ?_)
            split
            · refine memWf_mk (wf_readOrdered ?_)
              split
              · exact memWf_foldl h fun _ _ h => wf_readNow h
              · exact wf_acquireFrom (memWf_foldl h fun _ _ h => wf_readNow h)
            · refine wf_readOrdered ?_
              split
              · exact memWf_foldl h fun _ _ h => wf_readNow h
              · exact wf_acquireFrom (memWf_foldl h fun _ _ h => wf_readNow h)
    · exact .next h

theorem wf_execStoreTaken {op} (h : MemWf s) : OutWf (execStoreTaken op s) := by
  unfold execStoreTaken
  split
  · exact .next h
  · split
    · exact .next (wf_endOp h)
    · exact .next h

theorem wf_addTree {e n ls} (h : MemWf s) : MemWf (addTree e n ls s).2 := by
  induction n generalizing ls s with
  | zero => cases ls <;> exact h
  | succ n ih =>
    obtain _ | ⟨a, _ | ⟨b, ls⟩⟩ := ls
    · exact h
    · exact h
    · unfold addTree
      dsimp only
      split
      · exact h
      · exact ih (wf_choose (wf_choose h))

theorem wf_otherTeams {e ts} (h : MemWf s) : MemWf (otherTeams e ts s).2 := by
  induction ts generalizing s with
  | nil => exact h
  | cons t ts ih =>
    unfold otherTeams
    dsimp only
    exact ih (wf_choose h)

theorem wf_takeAdds {xs} (h : MemWf s) : MemWf (takeAdds xs s) := by
  unfold takeAdds
  refine memWf_foldl h fun _ _ h => ?_
  dsimp only
  split
  · exact h
  · split
    · split
      · exact wf_endOp h
      · exact wf_setBody h
    · exact h

theorem wf_applyTree {team e xs others} (h : MemWf s) : MemWf (applyTree team e xs others s) := by
  unfold applyTree
  refine memWf_foldl (memWf_mk (wf_writeMem _ _ _ (wf_addTree h))) fun _ _ h => ?_
  split
  · exact h
  · exact wf_fencedWrite h

theorem wf_execAstoApply {op} (h : MemWf s) : OutWf (execAstoApply op s) := by
  unfold execAstoApply
  dsimp only
  split
  · exact .next h
  · split
    · exact .next (wf_endOp h)
    · split
      · exact .next h
      · split
        · exact .next (wf_takeAdds (wf_applyTree (wf_otherTeams (wf_choose h))))
        · split
          · exact .next (wf_endOp (wf_fencedWrite (wf_applyAdd h)))
          · exact .next (wf_setBody (wf_fencedWrite (wf_applyAdd h)))
    · exact .next h

/-! ### Machine/Fetch -/

theorem wf_fetchHalf {t u a} (h : MemWf s) : MemWf (fetchHalf t u a s).2 := by
  unfold fetchHalf
  dsimp only
  split
  · exact h
  · split
    · exact memWf_mk (wf_translate h)
    · exact wf_translate h
    · exact wf_translate h
    · exact wf_translate h
    · exact wf_translate h
    · exact wf_translate h
    · exact wf_translate h

theorem wf_fetchWait {i t u a how} (h : MemWf s) : MemWf (fetchWait i t u a how s).1 := by
  unfold fetchWait
  dsimp only
  split
  · split
    · exact wf_tileOf (wf_translate h)
    · rename_i e
      exact wf_startArrival ((wf_mergeJoin (wf_tileOf (wf_translate h))).some_mem e)
  · split
    · exact wf_translate h
    · rename_i e
      exact (wf_mergeJoin (wf_translate h)).some_mem e
  · exact wf_translate h

theorem wf_execFetchFault {ff} (h : MemWf s) : OutWf (execFetchFault ff s) := by
  unfold execFetchFault
  dsimp only
  split
  · exact .fault
  · split
    · exact .next (wf_trapHere h)
    · exact .next (wf_trapHere h)
    · exact .next (wf_trapHere h)
    · exact .next (wf_trapHere h)
    · split
      · exact .next h
      · exact .next (wf_stopPass (wf_modFrag (wf_fetchWait h)))

theorem wf_execIllegalInstruction {word} (h : MemWf s) : OutWf (execIllegalInstruction word s) := by
  unfold execIllegalInstruction
  split
  · exact .fault
  · exact .next (wf_trapHere h)

/-! ### Machine/Kettle -/

theorem wf_seqRead {i f t a n} (h : MemWf s) : ResWf (seqRead i f t a n s) := by
  unfold seqRead
  refine wf_andThen (wf_laneAccess h) (fun _ _ h => .ok (memWf_foldl_snd h fun _ _ h => ?_))
  dsimp only
  split
  · exact h
  · exact wf_readUnit h

theorem wf_seqWrite {i f t a bs} (h : MemWf s) : ResWf (seqWrite i f t a bs s) :=
  wf_andThen (wf_laneAccess h) (fun _ _ h => .ok (wf_teamWrite h))

theorem wf_readSlot {i f t k} (h : MemWf s) : ResWf (readSlot i f t k s) := by
  unfold readSlot
  refine wf_andThen (wf_seqRead h) (fun _ _ h => ?_)
  split
  · exact wf_andThen (wf_seqRead h) (fun _ _ h => .ok h)
  · exact .ok h

theorem wf_kettleGet {i f t k} (h : MemWf s) : ResWf (kettleGet i f t k s) := by
  unfold kettleGet
  dsimp only
  split
  · exact wf_andThen (wf_readSlot h) (fun _ _ h => .ok h)
  · exact .ok h

theorem wf_kettlePut {i f t k e} (h : MemWf s) : ResWf (kettlePut i f t k e s) := by
  unfold kettlePut
  dsimp only
  split
  · exact wf_seqWrite h
  · exact .ok (wf_modTeam h)

theorem wf_kettlePush {i f t e} (h : MemWf s) : ResWf (kettlePush i f t e s) := by
  unfold kettlePush
  dsimp only
  split
  · split
    · exact .ok (wf_modTeam h)
    · split
      · exact .error h
      · exact wf_andThen (wf_seqWrite h) (fun _ _ h => .ok (wf_modTeam h))
  · exact .ok (wf_modTeam h)

theorem wf_kettleSettle {i f t n} (h : MemWf s) : ResWf (kettleSettle i f t n s) := by
  induction n generalizing s t with
  | zero => exact .ok h
  | succ n ih =>
    unfold kettleSettle
    dsimp only
    split
    · split
      · exact ih (wf_modTeam h)
      · split
        · exact wf_andThen (wf_readSlot h) (fun _ _ h => ih (wf_modTeam h))
        · exact .ok h
    · split
      · exact wf_andThen (wf_readSlot h) (fun _ _ h => ih (wf_modTeam h))
      · exact .ok h

theorem wf_kettleFree {i f t k e} (h : MemWf s) : ResWf (kettleFree i f t k e s) :=
  wf_andThen (wf_kettlePut h) (fun _ _ h => wf_kettleSettle (wf_modTeam h))

theorem wf_beforeEffects {α : Type} {r : Res α} (h : MemWf s) (hr : ResWf r) :
    ResWf (beforeEffects s r) := by
  cases hr with
  | ok hr => exact .ok hr
  | error => exact .error h

theorem wf_fuseFrags {i f t k e key} (h : MemWf s) : ResWf (fuseFrags i f t k e key s) := by
  unfold fuseFrags
  dsimp only
  exact wf_kettleFree (wf_setFrag (memWf_foldl (wf_choose h) fun _ _ h => wf_delFrag h))

theorem wf_divide {o i f t} (h : MemWf s) : EndWf (divide o s i f t) := by
  unfold divide
  dsimp only
  split
  · exact .error h
  · split
    · exact .ok (wf_transfer (wf_modFrag (wf_traceRec h)))
    · split
      · exact .ok (wf_advance (wf_modFrag (wf_traceRec h)))
      · split
        · rename_i e
          exact .error ((wf_beforeEffects h (wf_kettlePush h)).error_mem e)
        · rename_i e
          refine .ok (wf_transfer ?_)
          split
          · exact wf_modFrag (wf_traceRec ((wf_beforeEffects h (wf_kettlePush h)).ok_mem e))
          · split
            · exact wf_freezeFrag (wf_setFrag (memWf_mk (wf_modFrag (wf_traceRec ((wf_beforeEffects
                h (wf_kettlePush h)).ok_mem e)))))
            · exact wf_setFrag (memWf_mk (wf_modFrag (wf_traceRec ((wf_beforeEffects h
                (wf_kettlePush h)).ok_mem e))))

theorem wf_execSplit {d o} (h : MemWf s) : OutWf (execSplit d o s) := by
  unfold execSplit
  refine wf_gatherPass h (fun _ _ _ h => ?_) (fun _ _ _ _ h => wf_divide h)
  split
  · exact .error (wf_illegal h)
  · split
    · exact .error h
    · exact .ok

theorem wf_execRcv (h : MemWf s) : OutWf (execRcv s) := by
  unfold execRcv
  refine wf_onePassTo h fun s i f t h => ?_
  split
  · exact .ok (wf_advance h)
  · generalize hr : beforeEffects s _ = r
    have hr : ResWf r := by
      rw [← hr]
      refine wf_beforeEffects h (wf_andThen (wf_kettleGet h) (fun _ _ h => ?_))
      dsimp only
      split
      · exact .ok (wf_advance h)
      · split
        · exact .ok (wf_advance h)
        · split
          · exact wf_andThen (wf_kettlePut h) (fun _ _ h => .ok (wf_advance (wf_modFrag (wf_modTeam
              h))))
          · split
            · split
              · exact wf_andThen (wf_kettlePut h) (fun _ _ h => .ok (wf_finishStop (wf_beginWait
                  (wf_modFrag h))))
              · exact wf_andThen (wf_fuseFrags h) (fun _ _ h => .ok (wf_finishStop (wf_spend h)))
            · dsimp only
              split
              · exact wf_andThen (wf_kettlePut h) (fun _ _ h => .ok (wf_finishStop (wf_beginWait
                  (wf_modFrag h))))
              · exact wf_andThen (wf_fuseFrags h) (fun _ _ h => .ok (wf_finishStop (wf_spend h)))
    cases hr with
    | ok h => exact .ok h
    | error h => exact .error h

theorem wf_leaveEntry {i f t n k} (h : MemWf s) : ResWf (leaveEntry i f t n k s) := by
  induction n generalizing s k with
  | zero => exact .ok h
  | succ n ih =>
    unfold leaveEntry
    refine wf_andThen (wf_kettleGet h) (fun _ _ h => ?_)
    dsimp only
    split
    · exact .ok h
    · split
      · exact wf_andThen (wf_kettlePut h) (fun _ _ h => .ok (wf_setFrag h))
      · split
        · exact wf_kettlePut h
        · split
          · exact wf_fuseFrags h
          · split
            · exact wf_kettlePut h
            · split
              · exact wf_andThen (wf_kettleFree h) (fun _ _ h => .ok (wf_setFrag h))
              · refine wf_andThen (wf_kettleFree h) (fun _ _ h => ?_)
                split
                · exact .ok h
                · exact ih h

theorem wf_execExit (h : MemWf s) : OutWf (execExit s) := by
  unfold execExit
  refine wf_onePassTo h (fun _ _ _ _ h => ?_)
  dsimp only
  split
  · exact .error (wf_illegal h)
  · split
    · exact .ok (wf_settleTeam (wf_modTeam (wf_delFrag (wf_traceRec (wf_spend h)))))
    · split
      · rename_i e
        exact .ok (wf_settleTeam ((wf_beforeEffects h (wf_leaveEntry (wf_modTeam (wf_delFrag
          (wf_traceRec (wf_spend h)))))).ok_mem e))
      · rename_i e
        exact .error ((wf_beforeEffects h (wf_leaveEntry (wf_modTeam (wf_delFrag (wf_traceRec
          (wf_spend h)))))).error_mem e)

theorem wf_execKpush {o} (h : MemWf s) : OutWf (execKpush o s) := by
  unfold execKpush
  refine wf_onePass h fun s i f t h => ?_
  dsimp only
  split
  · exact .error h
  · rename_i u _
    generalize hp : (if noAddress (branchTarget f.pc o.toInt) = true then
      (Fetched.fault (.target (BitVec.ofInt 64 (branchTarget f.pc o.toInt))), s) else
      fetchHalf t u (BitVec.ofInt 64 (branchTarget f.pc o.toInt)) s) = p
    have hp : MemWf p.2 := by
      rw [← hp]
      split
      · exact h
      · exact wf_fetchHalf h
    split
    · split
      · exact .ok (wf_modFrag hp)
      · exact .error hp
    · exact .error hp
    · exact .error hp
    · exact .error hp
    · exact .error hp
    · exact .error (wf_fetchWait hp)

/-! ### Machine/Lane -/

theorem wf_execPerm {w d a p b q} (h : MemWf s) : OutWf (execPerm w d a p b q s) := by
  unfold execPerm
  refine wf_lanePass h (fun _ _ _ _ _ h => ?_)
  dsimp only
  split
  · rename_i e
    exact .error ((wf_checkRegs h).error_mem e)
  · exact .ok (wf_writeLanes h)

theorem wf_oneReg {val} {len d others} (h : MemWf s) : OutWf (oneReg len d others val s) := by
  unfold oneReg
  refine wf_lanePass h (fun _ _ _ _ _ h => ?_)
  split
  · rename_i e
    exact .error ((wf_checkRegs h).error_mem e)
  · exact .ok (wf_writeLanes h)

theorem wf_short2 {d b fn} (h : MemWf s) : OutWf (short2 d b fn s) := wf_laneOp2 h

theorem wf_xred {d a p keep comb scan} (h : MemWf s) : OutWf (xred d a p keep comb scan s) := by
  unfold xred
  refine wf_allPasses h (fun _ _ _ _ h => ?_)
  dsimp only
  split
  · rename_i e
    exact .error ((wf_checkRegs h).error_mem e)
  · exact .ok (wf_setFlags (wf_writeLanes h))

theorem wf_homeOf {t ctx va haddr lane} (h : MemWf s) : ResWf (homeOf t ctx va haddr lane s) := by
  unfold homeOf
  dsimp only
  split
  · rename_i e
    exact .ok ((wf_translate h).of_snd e)
  · rename_i e
    exact .error ((wf_translate h).of_snd e)
  · rename_i e
    exact .error ((wf_translate h).of_snd e)
  · rename_i e
    exact .error ((wf_translate h).of_snd e)
  · rename_i e
    exact .ok ((wf_translate h).of_snd e)
  · rename_i e
    exact .ok ((wf_translate h).of_snd e)
  · rename_i e
    exact .ok ((wf_translate h).of_snd e)

theorem wf_homeLane {t lane a} (h : MemWf s) : ResWf (homeLane t lane a s) := by
  unfold homeLane
  split
  · exact .error h
  · exact .error h
  · split
    · split
      · exact .error h
      · exact .ok h
    · split
      · split
        · exact .error h
        · exact wf_homeOf h
      · exact wf_homeOf h

theorem wf_homeLanes {t p a ls} (h : MemWf s) : ResWf (homeLanes t p a ls s) := by
  induction ls generalizing s with
  | nil => exact .ok h
  | cons l ls ih =>
    unfold homeLanes
    exact wf_andThen (wf_homeLane h) (fun _ _ h => wf_andThen (ih h) (fun _ _ h => .ok h))

theorem wf_execLaneHome {d a p} (h : MemWf s) : OutWf (execLaneHome d a p s) := by
  unfold execLaneHome
  refine wf_lanePass h (fun _ _ _ _ _ h => ?_)
  split
  · rename_i e
    exact .error ((wf_checkRegs h).error_mem e)
  · exact wf_andOk (wf_homeLanes h) (fun _ _ h => .ok (wf_writeLanes h))

/-! ### Machine/Sequencer -/

theorem wf_enterClause {i word key} (h : MemWf s) : MemWf (enterClause i word key s) := by
  unfold enterClause
  dsimp only
  split
  · exact h
  · split
    · exact h
    · exact wf_modTeam (wf_setFrag h)

theorem wf_execClause {w a b m c} (h : MemWf s) : OutWf (execClause w a b m c s) := by
  unfold execClause
  refine wf_onePassTo h (fun _ _ _ _ h => ?_)
  dsimp only
  split
  · exact .ok (wf_enterClause h)
  · exact .error h

theorem wf_execClauseWaitRelease {frag} (h : MemWf s) : OutWf (execClauseWaitRelease frag s) := by
  unfold execClauseWaitRelease
  split
  · exact .next h
  · split
    · split
      · exact .next (wf_enterClause h)
      · exact .next h
    · exact .next h

theorem wf_toScalar {f n v} (h : MemWf s) : EndWf (toScalar f n v s) := by
  unfold toScalar
  dsimp only
  split
  · exact .ok (wf_writeScalar (wf_destGate h))
  · exact .error (wf_destGate h)

theorem wf_scalarOp {val} {d} (h : MemWf s) : OutWf (scalarOp d val s) :=
  wf_onePass h (fun _ _ _ _ h => wf_toScalar h)

theorem wf_execBra {o} (h : MemWf s) : OutWf (execBra o s) :=
  wf_onePassTo h (fun _ _ _ _ h => .ok (wf_transfer (wf_traceRec h)))

theorem wf_branchIf {cond n o} (h : MemWf s) : OutWf (branchIf cond n o s) := by
  unfold branchIf
  refine wf_onePassTo h (fun _ _ _ _ h => ?_)
  split
  · exact .ok (wf_transfer (wf_traceRec h))
  · exact .ok (wf_advance h)

theorem wf_execCall {d a} (h : MemWf s) : OutWf (execCall d a s) := by
  unfold execCall
  refine wf_onePassTo h (fun _ _ _ _ h => ?_)
  split
  · rename_i e
    exact .error ((wf_toScalar h).error_mem e)
  · rename_i e
    exact .ok (wf_transfer (wf_traceRec ((wf_toScalar h).ok_mem e)))

theorem wf_execRet {a} (h : MemWf s) : OutWf (execRet a s) :=
  wf_onePassTo h (fun _ _ _ _ h => .ok (wf_transfer (wf_traceRec h)))

theorem wf_execJmpr {a} (h : MemWf s) : OutWf (execJmpr a s) :=
  wf_onePassTo h (fun _ _ _ _ h => .ok (wf_transfer (wf_traceRec h)))

theorem wf_execYield (h : MemWf s) : OutWf (execYield s) := wf_onePass h (fun _ _ _ _ h => .ok h)

theorem wf_execNop (h : MemWf s) : OutWf (execNop s) := wf_onePass h (fun _ _ _ _ h => .ok h)

theorem wf_salu {op d a b} (h : MemWf s) : OutWf (salu op d a b s) := wf_scalarOp h

theorem wf_salui {op d a i} (h : MemWf s) : OutWf (salui op d a i s) := wf_scalarOp h

theorem wf_sfpu {op d a b} (h : MemWf s) : OutWf (sfpu op d a b s) := by
  unfold sfpu
  refine wf_onePass h (fun _ _ _ _ h => ?_)
  dsimp only
  split
  · rename_i e
    exact .error ((wf_toScalar h).error_mem e)
  · rename_i e
    split
    · exact .ok ((wf_toScalar h).ok_mem e)
    · exact .ok (wf_setOvf ((wf_toScalar h).ok_mem e))

theorem wf_scalarAccess {i t ea n need} (h : MemWf s) : ResWf (scalarAccess i t ea n need s) := by
  unfold scalarAccess
  dsimp only
  split
  · exact .error h
  · exact .error h
  · split
    · split
      · exact .error h
      · split
        · exact .error h
        · exact .ok h
    · split
      · exact .error h
      · split
        · exact .error h
        · refine wf_andThen (wf_teamPieces h) (fun _ _ h => ?_)
          split
          · exact .error h
          · exact .ok h

theorem wf_scalarLoad {n sx d a o} (h : MemWf s) : OutWf (scalarLoad n sx d a o s) := by
  unfold scalarLoad
  refine wf_onePass h (fun _ _ _ _ h => ?_)
  dsimp only
  split
  · exact .error h
  · exact wf_andOk (wf_scalarAccess h) (fun _ _ h => .ok (wf_watchWord (wf_issueRead h)))

theorem wf_scalarStore {n d a o} (h : MemWf s) : OutWf (scalarStore n d a o s) := by
  unfold scalarStore
  refine wf_onePass h (fun _ _ _ _ h => ?_)
  dsimp only
  split
  · exact .error h
  · exact wf_andOk (wf_scalarAccess h) (fun _ _ h => .ok (wf_watchWord (wf_issueOp (wf_teamWrite
      h))))

theorem wf_execTsrSet {n a} (h : MemWf s) : OutWf (execTsrSet n a s) := by
  unfold execTsrSet
  refine wf_onePass h (fun _ _ _ _ h => ?_)
  dsimp only
  split
  · exact .ok (wf_modTeam (wf_lockGate h))
  · exact .error (wf_lockGate h)

theorem wf_execTsrLsw {a} (h : MemWf s) : OutWf (execTsrLsw a s) :=
  wf_onePass h (fun _ _ _ _ h => .ok (wf_modTeam h))

theorem wf_execTsrOvc {d a} (h : MemWf s) : OutWf (execTsrOvc d a s) := by
  unfold execTsrOvc
  refine wf_onePass h (fun _ _ _ _ h => ?_)
  split
  · rename_i e
    exact .error ((wf_toScalar h).error_mem e)
  · rename_i e
    exact .ok (wf_modTeam ((wf_toScalar h).ok_mem e))

theorem wf_execTsrFlc {d a} (h : MemWf s) : OutWf (execTsrFlc d a s) := by
  unfold execTsrFlc
  refine wf_onePass h (fun _ _ _ _ h => ?_)
  split
  · rename_i e
    exact .error ((wf_toScalar h).error_mem e)
  · rename_i e
    exact .ok (wf_modTeam ((wf_toScalar h).ok_mem e))

theorem wf_execXps {c n k} (h : MemWf s) : OutWf (execXps c n k s) :=
  wf_onePass h (fun _ _ _ _ h => .ok (wf_modTeam h))

theorem wf_putK {f t n v} (h : MemWf s) : MemWf (putK f t n v s) := wf_modTeam (wf_modUnit h)

theorem wf_execKregWr {n a} (h : MemWf s) : OutWf (execKregWr n a s) :=
  wf_onePass h (fun _ _ _ _ h => .ok (wf_putK h))

theorem wf_execKregAdd {d n b} (h : MemWf s) : OutWf (execKregAdd d n b s) := by
  unfold execKregAdd
  refine wf_onePass h (fun _ _ _ _ h => ?_)
  dsimp only
  split
  · rename_i e
    exact .error ((wf_toScalar h).error_mem e)
  · rename_i e
    exact .ok (wf_putK ((wf_toScalar h).ok_mem e))

theorem wf_readHctl {u t} (h : MemWf s) : MemWf (readHctl s u t).2 := by
  unfold readHctl
  dsimp only
  exact wf_choose h

theorem wf_sysHandler {u t x} (h : MemWf s) : OptWf (sysHandler s u t x) := by
  unfold sysHandler
  split
  · exact .some h
  · exact .some h
  · exact .some h
  · exact .some h
  · exact .some h
  · exact .some (wf_readHctl h)
  · exact .some h
  · exact .none

theorem wf_privileged {f} (h : MemWf s) : MemWf (privileged s f).1 := h

theorem wf_execSysRd {d n} (h : MemWf s) : OutWf (execSysRd d n s) := by
  unfold execSysRd
  refine wf_onePass h (fun _ _ _ _ h => ?_)
  split
  · exact .error h
  · split
    · exact wf_toScalar h
    · split
      · exact .error (wf_illegal h)
      · split
        · exact .error (wf_privileged h)
        · split
          · exact .error (wf_illegal h)
          · rename_i e
            exact wf_toScalar ((wf_sysHandler h).some_mem e)

theorem wf_execSysWr {n a} (h : MemWf s) : OutWf (execSysWr n a s) := by
  unfold execSysWr
  refine wf_onePass h (fun _ _ _ _ h => ?_)
  dsimp only
  split
  · split
    · exact .error (wf_privileged h)
    · exact .error (wf_illegal h)
  · split
    · exact .error (wf_privileged h)
    · split
      · exact .ok (wf_modTeam h)
      · split
        · exact .ok (wf_modTeam h)
        · split
          · exact .error h
          · split
            · exact .ok h
            · split
              · exact .ok h
              · exact .ok (wf_modTeam h)

theorem wf_execSysHrd {d n} (h : MemWf s) : OutWf (execSysHrd d n s) := by
  unfold execSysHrd
  refine wf_onePass h (fun _ _ _ _ h => ?_)
  split
  · exact .error (wf_privileged h)
  · exact wf_toScalar h

theorem wf_execSysHwr {n a} (h : MemWf s) : OutWf (execSysHwr n a s) := by
  unfold execSysHwr
  refine wf_onePass h (fun _ _ _ _ h => ?_)
  dsimp only
  split
  · exact .error (wf_privileged h)
  · split
    · exact .ok h
    · split
      · exact .ok (wf_writeDests (wf_destGate h))
      · exact .error (wf_destGate h)

theorem wf_vote {d a p val} (h : MemWf s) : OutWf (vote d a p val s) := by
  unfold vote
  refine wf_gatherPass h (fun _ _ _ h => ?_) (fun _ _ _ _ h' => ?_)
  · dsimp only
    split
    · rename_i e
      exact .error ((wf_checkRegs h).error_mem e)
    · exact .ok
  · split
    · rename_i e
      exact .error ((wf_toScalar h').error_mem e)
    · rename_i e
      exact .ok (wf_advance ((wf_toScalar h').ok_mem e))

theorem wf_sbcast {val d n} (h : MemWf s) : OutWf (sbcast val d n s) := by
  unfold sbcast
  refine wf_lanePass h (fun _ _ _ _ _ h => ?_)
  dsimp only
  split
  · rename_i e
    exact .error ((wf_checkRegs h).error_mem e)
  · exact .ok (wf_writeLanes (wf_modFrag h))

theorem wf_counterAccess {i t va need} (h : MemWf s) : ResWf (counterAccess i t va need s) := by
  unfold counterAccess
  split
  · exact .error h
  · exact .error h
  · split
    · exact .error h
    · split
      · exact .error h
      · refine wf_andThen (wf_teamPage h) (fun _ _ h => ?_)
        split
        · split
          · exact .ok h
          · exact .error h
        · exact .error h

theorem wf_execCtrAdd {a b c i} (h : MemWf s) : OutWf (execCtrAdd a b c i s) := by
  unfold execCtrAdd
  refine wf_onePass h (fun _ _ _ _ h => ?_)
  dsimp only
  split
  · exact .error h
  · refine wf_andOk (wf_counterAccess h) (fun _ _ h => ?_)
    split
    · exact .ok (wf_startPending (wf_issueOp (wf_markRelease h)))
    · exact .ok (wf_issueOp (wf_markRelease h))

theorem wf_execCtrWait {a b c i} (h : MemWf s) : OutWf (execCtrWait a b c i s) := by
  unfold execCtrWait
  refine wf_onePassTo h (fun _ _ _ _ h => ?_)
  dsimp only
  split
  · exact .error h
  · exact wf_andOk (wf_counterAccess h) (fun _ _ h => .ok (wf_beginWait (wf_issueOp h)))

theorem wf_execCtrLoad {a c i} (h : MemWf s) : OutWf (execCtrLoad a c i s) := by
  unfold execCtrLoad
  refine wf_onePass h (fun _ _ _ _ h => ?_)
  split
  · exact .error h
  · exact wf_andOk (wf_counterAccess h) (fun _ _ h => .ok (wf_issueOp h))

theorem wf_overflowTrap {n o va amount pc mask handler} (h : MemWf s) :
    MemWf (overflowTrap n o va amount pc mask handler s) := by
  unfold overflowTrap
  dsimp only
  split
  · split
    · exact wf_raiseDeferred (wf_endOp h)
    · exact h
  · exact wf_modTeam (wf_endOp h)
  · exact wf_stopUnit (wf_recordError (wf_endOp h))
  · exact h

theorem wf_execCtrAddResult {op} (h : MemWf s) : OutWf (execCtrAddResult op s) := by
  unfold execCtrAddResult
  dsimp only
  split
  · exact .next h
  · split
    · split
      · exact .next h
      · split
        · rename_i e
          exact .next (wf_overflowTrap (memWf_mk ((wf_teamAdd h).of_snd e)))
        · rename_i e
          split
          · exact .next (wf_setBody ((wf_teamAdd h).of_snd e))
          · split
            · exact .next (wf_setBody ((wf_teamAdd h).of_snd e))
            · exact .next (memWf_mk (wf_setBody ((wf_teamAdd h).of_snd e)))
    · exact .next (wf_overflowTrap h)
    · exact .next h

theorem wf_execCtrWaitReturn {op} (h : MemWf s) : OutWf (execCtrWaitReturn op s) := by
  unfold execCtrWaitReturn
  dsimp only
  split
  · exact .next h
  · split
    · split
      · exact .next (wf_translate h)
      · split
        · split
          · exact .next (wf_endOp (memWf_mk (wf_translate h)))
          · split
            · exact .next (wf_translate h)
            · split
              · exact .next (wf_destGate (wf_translate h))
              · exact .next (wf_resumeAfter (wf_endOp (memWf_mk (wf_acquireCounter (wf_readNow
                  (wf_destGate (wf_translate h)))))))
        · split
          · exact .next (wf_endOp (memWf_mk (wf_translate h)))
          · split
            · exact .next (wf_translate h)
            · split
              · exact .next (wf_destGate (wf_translate h))
              · exact .next (wf_resumeAfter (wf_endOp (memWf_mk (wf_acquireCounter (wf_readNow
                  (wf_destGate (wf_translate h)))))))
    · exact .next h

theorem wf_execCtrLoadResult {op} (h : MemWf s) : OutWf (execCtrLoadResult op s) := by
  unfold execCtrLoadResult
  dsimp only
  split
  · exact .next h
  · split
    · split
      · exact .next (wf_destGate h)
      · exact .next (wf_endOp (memWf_mk (wf_acquireCounter (wf_readNow (wf_destGate h)))))
    · exact .next h

theorem wf_execBar {a n} (h : MemWf s) : OutWf (execBar a n s) := by
  unfold execBar
  refine wf_onePassTo h (fun _ _ _ _ h => ?_)
  dsimp only
  split
  · exact .error h
  · split
    · exact .error h
    · split
      · exact .error h
      · split
        · exact .error h
        · exact .ok (wf_beginWait (wf_modUnit (wf_release h)))

theorem wf_execBarRelease {frag} (h : MemWf s) : OutWf (execBarRelease frag s) := by
  unfold execBarRelease
  dsimp only
  split
  · exact .next h
  · split
    · split
      · exact .next h
      · split
        · exact .next h
        · exact .next (wf_finishStop (wf_modFrag (wf_acquireCounter h)))
    · exact .next h

theorem wf_execTrap {i} (h : MemWf s) : OutWf (execTrap i s) :=
  wf_onePassTo h (fun _ _ _ _ h => .error h)

theorem wf_svc {n} (h : MemWf s) : OutWf (svc n s) :=
  wf_onePassTo h (fun _ _ _ _ h => .ok (wf_beginWait (wf_issueOp h)))

theorem wf_execRte (h : MemWf s) : OutWf (execRte s) := by
  unfold execRte
  refine wf_onePassTo h (fun _ _ _ _ h => ?_)
  dsimp only
  split
  · exact .error (wf_privileged h)
  · split
    · exact .error h
    · split
      · exact .error h
      · split
        · exact .ok (wf_freezeFrag (wf_modFrag (wf_returnFromTrap (wf_delFrag (wf_spend
            (wf_traceRec h))))))
        · exact .ok (wf_returnFromTrap (wf_delFrag (wf_spend (wf_traceRec h))))

/-! ### Machine/Spread -/

theorem wf_spreadOut {w modes d a p fn} (h : MemWf s) : OutWf (spreadOut w modes d a p fn s) :=
  wf_laneGen h

theorem wf_execDtagNew {w d a p} (h : MemWf s) : OutWf (execDtagNew w d a p s) := by
  unfold execDtagNew
  refine wf_lanePass h (fun _ _ _ _ _ h => ?_)
  dsimp only
  split
  · rename_i e
    exact .error ((wf_checkRegs h).error_mem e)
  · refine .ok (wf_setFlags (wf_writeLanes ?_))
    split
    · exact wf_modFrag (wf_modTeam h)
    · exact h

theorem wf_execDtagRead {d} (h : MemWf s) : OutWf (execDtagRead d s) := by
  unfold execDtagRead
  refine wf_lanePass h (fun _ _ _ _ _ h => ?_)
  dsimp only
  split
  · rename_i e
    exact .error ((wf_checkRegs h).error_mem e)
  · exact .ok (wf_writeLanes (wf_modFrag h))

theorem wf_execDtagReset (h : MemWf s) : OutWf (execDtagReset s) := by
  unfold execDtagReset
  refine wf_lanePass h (fun _ _ _ _ _ h => ?_)
  split
  · exact .ok (wf_modTeam h)
  · exact .ok h

/-! ### Machine/Noise -/

theorem wf_drawOp {modes fn o w d a p n} (h : MemWf s) : OutWf (drawOp modes fn o w d a p n s) := by
  unfold drawOp
  refine wf_lanePass h (fun _ _ _ _ _ h => ?_)
  dsimp only
  split
  · rename_i e
    exact .error ((wf_checkRegs h).error_mem e)
  · exact .ok (wf_issueOp h)

theorem wf_execRngC {d a p n o} (h : MemWf s) : OutWf (execRngC d a p n o s) := by
  unfold execRngC
  refine wf_allPasses h (fun _ _ _ _ h => ?_)
  dsimp only
  split
  · rename_i e
    exact .error ((wf_checkRegs h).error_mem e)
  · exact .ok (wf_issueOp h)

theorem wf_slotOp {n change results} (h : MemWf s) : OutWf (slotOp n change results s) :=
  wf_onePass h (fun _ _ _ _ h => .ok (wf_issueOp (wf_modTeam h)))

theorem wf_slotRead {d n val} (h : MemWf s) : OutWf (slotRead d n val s) := wf_slotOp h

theorem wf_execNoiseResult {op} (h : MemWf s) : OutWf (execNoiseResult op s) := by
  unfold execNoiseResult
  dsimp only
  split
  · exact .next h
  · split
    · split
      · exact .next (wf_setFlags (wf_deliver h))
      · exact .next (wf_deliver h)
    · exact .next h

/-! ### Machine/Engine -/

theorem wf_engThen {α β : Type} {r : EngRes α} {k : State → α → EngRes β} (h : ResWf r)
    (hk : ∀ s a, MemWf s → ResWf (k s a)) : ResWf (engThen r k) := by
  cases h with
  | ok h => exact hk _ _ h
  | error h => exact .error h

theorem wf_engJoin {g large va leaf kind} (h : MemWf s) :
    MemWf (engJoin g large va leaf kind s) := by
  unfold engJoin
  split
  · exact h
  · rename_i e
    exact (wf_mergeJoin h).some_mem e

theorem wf_enginePage {g va need} (h : MemWf s) : ResWf (enginePage g va need s) := by
  unfold enginePage
  dsimp only
  split
  · split
    · exact .ok (wf_translate h)
    · split
      · exact .ok h
      · exact .ok (wf_dieWalk h)
  · split
    · exact .error (wf_translate h)
    · split
      · exact .error h
      · exact .error (wf_dieWalk h)
  · split
    · exact .error (wf_translate h)
    · split
      · exact .error h
      · exact .error (wf_dieWalk h)
  · split
    · exact .error (wf_translate h)
    · split
      · exact .error h
      · exact .error (wf_dieWalk h)
  · split
    · refine .ok (wf_tileOf ?_)
      split
      · exact wf_translate h
      · split
        · exact h
        · exact wf_dieWalk h
    · refine .error (wf_engJoin (wf_startArrival (wf_tileOf ?_)))
      split
      · exact wf_translate h
      · split
        · exact h
        · exact wf_dieWalk h
  · refine .error (wf_engJoin ?_)
    split
    · exact wf_translate h
    · split
      · exact h
      · exact wf_dieWalk h
  · refine .error (wf_engJoin ?_)
    split
    · exact wf_translate h
    · split
      · exact h
      · exact wf_dieWalk h

theorem wf_enginePages {g need ps} (h : MemWf s) : ResWf (enginePages g need ps s) := by
  induction ps generalizing s with
  | nil => exact .ok h
  | cons p ps ih =>
    unfold enginePages
    refine wf_engThen (wf_enginePage h) (fun _ _ h => ?_)
    split
    · exact .error h
    · exact wf_engThen (ih h) (fun _ _ h => .ok h)

theorem wf_engineSpots {g u ea n need} (h : MemWf s) : ResWf (engineSpots g u ea n need s) := by
  unfold engineSpots
  -- a name for `scratchSpot`, so that its address arithmetic is not evaluated
  obtain ⟨spot, hs⟩ : ∃ f, f = scratchSpot := ⟨_, rfl⟩
  rw [← hs]
  dsimp only
  split
  · exact .ok h
  · split
    · exact .error h
    · split
      · split
        · exact .error h
        · split
          · exact .error h
          · exact .ok h
      · exact .error h
      · exact wf_enginePages h

theorem wf_engineCounter {g va add} (h : MemWf s) : ResWf (engineCounter g va add s) := by
  unfold engineCounter
  split
  · exact .error h
  · split
    · exact .error h
    · split
      · exact .error h
      · refine wf_engThen (wf_enginePage h) (fun _ _ h => ?_)
        split
        · split
          · exact .ok h
          · exact .error h
        · exact .error h

theorem wf_engineBytes {agent pas} (h : MemWf s) : MemWf (engineBytes agent pas s).2 := by
  unfold engineBytes
  refine memWf_foldl_snd h fun _ _ h => ?_
  dsimp only
  exact wf_readUnit h

theorem wf_engineRead {g u ea n} (h : MemWf s) : ResWf (engineRead g u ea n s) := by
  unfold engineRead
  refine wf_engThen (wf_engineSpots h) (fun _ _ h => .ok (memWf_foldl_snd h fun _ _ h => ?_))
  dsimp only
  exact wf_readUnit h

theorem wf_writeUnit {agent cells} (h : MemWf s) : MemWf (writeUnit agent cells s) := by
  unfold writeUnit
  dsimp only
  split
  · exact h
  · exact wf_writeRuns _ _ _ h

theorem wf_appendUnit {o ord cells} (h : MemWf s) : MemWf (appendUnit o ord cells s) := by
  unfold appendUnit
  dsimp only
  split
  · exact h
  · exact memWf_mk (wf_spawnFor h)

theorem wf_writeCells {agent o ord cells} (h : MemWf s) : MemWf (writeCells agent o ord cells s) :=
  memWf_foldl h fun _ _ h => wf_appendUnit (wf_writeUnit h)

theorem wf_engineWrite {g u ea bs} (h : MemWf s) : ResWf (engineWrite g u ea bs s) :=
  wf_engThen (wf_engineSpots h) (fun _ _ h => .ok (wf_writeCells h))

theorem wf_startLogs {agent} (h : MemWf s) : MemWf (startLogs agent s) :=
  memWf_foldl h fun _ _ h => wf_startArrival h

theorem wf_addCounter {writer agent pos scope pa amount ctx gcore team va} (h : MemWf s) :
    MemWf (addCounter writer agent pos scope pa amount ctx gcore team va s) := by
  unfold addCounter
  split
  · rename_i e
    exact (wf_engineAdd h).of_snd e
  · rename_i e
    exact wf_recordOverflow ((wf_engineAdd h).of_snd e)

theorem wf_pickOne {α : Type} {z : α} {l : List α} (h : MemWf s) : MemWf (pickOne z l s).2 := by
  unfold pickOne
  dsimp only
  exact wf_choose h

theorem wf_faultAddr {spans page n} (h : MemWf s) : MemWf (faultAddr spans page n s).2 :=
  wf_pickOne h

theorem wf_drawBytes {n} (h : MemWf s) : MemWf (drawBytes n s).2 := by
  induction n generalizing s with
  | zero => exact h
  | succ n ih =>
    unfold drawBytes
    exact ih h

/-! ### Machine/Copy -/

theorem wf_placeSpans {g u need spans} (h : MemWf s) : MemWf (placeSpans g u need spans s).2 := by
  unfold placeSpans
  refine memWf_foldl_snd h fun _ _ h => ?_
  split
  · rename_i e
    exact (wf_engineSpots h).ok_mem e
  · rename_i e
    exact (wf_engineSpots h).error_mem e

theorem wf_peekSpans {g u need spans} (h : MemWf s) : MemWf (peekSpans g u need spans s).2 := h

theorem wf_imagePut {x : Image × State} {a v m} (h : MemWf x.2) : MemWf (imagePut a v m x).2 := by
  unfold imagePut
  dsimp only
  split
  · exact h
  · split
    · exact h
    · split
      · exact h
      · split <;> exact wf_choose h

theorem wf_imageCode {x : Image × State} {base fmt n code} (h : MemWf x.2) :
    MemWf (imageCode base fmt n code x).2 := by
  unfold imageCode
  dsimp only
  split
  · exact h
  · exact memWf_foldl_snd h fun _ _ h => wf_imagePut h

theorem wf_Quire_move {q pl bytes nr v m} (h : MemWf s) :
    MemWf (Quire.move q pl bytes nr v m s).2 := by
  unfold Quire.move
  dsimp only
  split
  · exact wf_imageCode h
  · dsimp only
    split
    · exact wf_imageCode h
    · exact wf_imageCode (wf_imageCode h)

theorem wf_Quire_expandTile {q pl bytes keep outer m} (h : MemWf s) :
    MemWf (Quire.expandTile q pl bytes keep outer m s).2 := by
  unfold Quire.expandTile
  dsimp only
  split
  · exact h
  · refine memWf_foldl_snd h fun _ _ h => ?_
    split
    · exact wf_imagePut h
    · exact h

theorem wf_Quire_moveAll {q pl bytes keep} (h : MemWf s) :
    MemWf (Quire.moveAll q pl bytes keep s).2 := by
  unfold Quire.moveAll
  split
  · exact memWf_foldl_snd h fun _ _ h => wf_Quire_expandTile h
  · refine memWf_foldl_snd h fun _ _ h => ?_
    split
    · exact wf_Quire_move h
    · exact h

theorem wf_endQuire {op q state cause fpage gather sat nan count} (h : MemWf s) :
    MemWf (endQuire op q state cause fpage gather sat nan count s) :=
  wf_setBody h

theorem wf_fillWhole {targets done} (h : MemWf s) : MemWf (fillWhole targets done s) :=
  wf_fillGranules h

theorem wf_Quire_put {q g o dst cells} (h : MemWf s) : MemWf (Quire.put q g o dst cells s).2 :=
  wf_fillWhole (wf_writeCells h)

theorem wf_sourceBytes {op g src dst} (h : MemWf s) : MemWf (sourceBytes op g src dst s).2 := by
  unfold sourceBytes
  refine wf_drawBytes (memWf_foldl_snd h fun _ _ h => ?_)
  dsimp only
  exact wf_readUnit h

theorem wf_someFlags {m} (h : MemWf s) : MemWf (someFlags m s).2 := by
  unfold someFlags
  dsimp only
  exact wf_choose (wf_choose h)

theorem wf_cancelQuire {op o q u} (h : MemWf s) : MemWf (cancelQuire op o q u s) := by
  unfold cancelQuire
  extract_lets g
  split; next src s e =>
  have h := (wf_peekSpans h).of_snd e
  split; next dst s e =>
  have h := (wf_peekSpans h).of_snd e
  split; next bytes s e =>
  have h := (wf_sourceBytes h).of_snd e
  split; next m s e =>
  have h := (wf_Quire_moveAll h).of_snd e
  split; next sat nan s e =>
  have h := (wf_someFlags h).of_snd e
  extract_lets spots
  split; next bs s e =>
  have h := (wf_drawBytes h).of_snd e
  split; next cells s e =>
  have h := (wf_pickSome h).of_snd e
  split; next q s e =>
  exact wf_endQuire ((wf_Quire_put h).of_snd e)

theorem wf_failQuire {op o q cause addr gather src dst} (h : MemWf s) :
    MemWf (failQuire op o q cause addr gather src dst s) := by
  unfold failQuire
  dsimp only
  exact wf_leaveMerge (wf_endQuire (wf_someFlags (wf_Quire_put (wf_pickSome (wf_Quire_moveAll
    (wf_sourceBytes h))))))

theorem wf_failedPage {op o q u cause page n} (h : MemWf s) :
    MemWf (failedPage op o q u cause page n s) := by
  unfold failedPage
  dsimp only
  exact wf_failQuire (wf_peekSpans (wf_peekSpans (wf_faultAddr (wf_choose h))))

theorem wf_runQuire {op o q src dst} (h : MemWf s) : MemWf (runQuire op o q src dst s) := by
  unfold runQuire
  dsimp only
  split
  · split
    · exact h
    · exact wf_endQuire (wf_Quire_put (wf_Quire_moveAll (wf_sourceBytes h)))
  · split
    · exact h
    · exact wf_endQuire (wf_Quire_put (wf_Quire_moveAll (wf_sourceBytes h)))

theorem wf_startQuire {op o q u} (h : MemWf s) : MemWf (startQuire op o q u s) := by
  unfold startQuire
  dsimp only
  split
  · exact wf_endQuire (wf_pickOne h)
  · split
    · exact wf_leaveMerge (wf_endQuire (wf_pickOne (wf_placeSpans h)))
    · split
      · split
        · split
          · exact wf_failQuire (wf_pickOne (wf_choose (wf_placeSpans (wf_placeSpans h))))
          · exact wf_choose (wf_placeSpans (wf_placeSpans h))
        · split
          · exact wf_failQuire (wf_pickOne (wf_choose (wf_placeSpans (wf_placeSpans h))))
          · exact wf_choose (wf_placeSpans (wf_placeSpans h))
      · split
        · exact wf_placeSpans (wf_placeSpans h)
        · exact wf_runQuire (wf_placeSpans (wf_placeSpans h))

theorem wf_settleCancels (h : MemWf s) : MemWf (settleCancels s) :=
  memWf_foldl h fun _ _ h => wf_endOp h

theorem wf_settleRest {op o q} (h : MemWf s) : MemWf (settleRest op o q s).2 := by
  unfold settleRest
  refine memWf_foldl_snd h fun _ _ h => ?_
  dsimp only
  split
  · exact h
  · split
    · exact wf_writeUnit h
    · dsimp only
      split
      · exact h
      · exact wf_engJoin (wf_startArrival h)

theorem wf_noteQuire {op team} (h : MemWf s) : MemWf (noteQuire op team s) := h

theorem wf_concludeQuire {op o q} (h : MemWf s) : MemWf (concludeQuire op o q s) := by
  unfold concludeQuire
  -- a name for `scratchSpot`, so that its address arithmetic is not evaluated
  obtain ⟨spot, hs⟩ : ∃ f, f = scratchSpot := ⟨_, rfl⟩
  rw [← hs]
  extract_lets g add
  have ha : ResWf add := by
    unfold add
    split
    · exact .error h
    · exact wf_engineCounter h
  clear_value add
  split
  · exact ha.error_mem rfl
  · extract_lets s1 s2 s3 s4 s5 s6
    have h1 : MemWf s1 := by
      unfold s1
      split
      · exact ha.ok_mem rfl
      · exact ha.error_mem rfl
    have h2 : MemWf s2 := by
      unfold s2
      split
      · exact h1
      · split
        · exact wf_setOvf h1
        · exact h1
    have h3 : MemWf s3 := by
      unfold s3
      split
      · exact h2
      · exact wf_releaseOwn h2
    have h4 : MemWf s4 := by
      unfold s4
      split
      · exact h3
      · split
        · exact h3
        · exact wf_writeRuns _ _ _ h3
    have h5 : MemWf s5 := by
      unfold s5
      split
      · exact wf_addCounter h4
      · exact h4
    exact wf_settleCancels (wf_endOp (wf_inherit (wf_noteQuire h5)))

theorem wf_completeQuire {op o q} (h : MemWf s) : MemWf (completeQuire op o q s) := by
  unfold completeQuire
  dsimp only
  split
  · split
    · exact wf_leaveMerge (wf_setBody (memWf_mk (wf_choose h)))
    · split
      · exact wf_endQuire (memWf_mk (wf_faultAddr (wf_choose h)))
      · exact wf_setBody (wf_settleRest (wf_choose h))
      · split
        · exact wf_choose h
        · split
          · exact wf_startLogs (wf_setBody (wf_choose h))
          · split
            · exact wf_choose h
            · exact wf_concludeQuire (wf_choose h)
  · split
    · exact wf_leaveMerge (wf_setBody (memWf_mk (wf_choose h)))
    · split
      · exact wf_endQuire (memWf_mk (wf_faultAddr (wf_choose h)))
      · exact wf_setBody (wf_settleRest (wf_choose h))
      · split
        · exact wf_choose h
        · split
          · exact wf_startLogs (wf_setBody (wf_choose h))
          · split
            · exact wf_choose h
            · exact wf_concludeQuire (wf_choose h)

theorem wf_execQuireComplete {op} (h : MemWf s) : OutWf (execQuireComplete op s) := by
  unfold execQuireComplete
  split
  · exact .next h
  · split
    · split
      · exact .next h
      · split
        · exact .next (wf_completeQuire h)
        · split
          · exact .next h
          · extract_lets g go
            have hgo : ∀ q s, MemWf s → OutWf (go q s) := by
              intro q s h
              unfold go
              split; next k s e =>
              have h := (wf_choose h).of_snd e
              extract_lets s'
              have h' : MemWf s' := wf_startQuire h
              clear_value s'
              split
              · split
                · split
                  · exact .next h'
                  · exact .next (wf_cancelQuire h)
                · exact .next h'
              · split
                · split
                  · exact .next h'
                  · exact .next (wf_cancelQuire h)
                · exact .next h'
            clear_value go
            dsimp only
            split
            · split
              · split
                · exact .next (wf_endQuire (wf_pickOne h))
                · exact .next (wf_endQuire h)
              · exact .next (wf_failedPage h)
            · split
              · exact hgo _ _ h
              · split
                · rename_i e
                  exact hgo _ _ ((wf_engineCounter h).ok_mem e)
                · rename_i e
                  exact .next ((wf_engineCounter h).error_mem e)
                · rename_i e
                  split
                  · exact .next (wf_endQuire (wf_pickOne ((wf_engineCounter h).error_mem e)))
                  · exact .next (wf_endQuire ((wf_engineCounter h).error_mem e))
    · exact .next h

theorem wf_execCpyGo {a} (h : MemWf s) : OutWf (execCpyGo a s) := by
  unfold execCpyGo
  -- a name for `scratchSpot`, so that its address arithmetic is not evaluated
  obtain ⟨spot, hs⟩ : ∃ f, f = scratchSpot := ⟨_, rfl⟩
  obtain ⟨n, hn⟩ : ∃ n, n = 256 := ⟨_, rfl⟩
  rw [← hs, ← hn]
  refine wf_onePass h fun s i f t h => ?_
  dsimp only
  split
  · exact .error h
  · split
    · exact .error h
    · split
      · exact .error h
      · exact .error h
      · split
        · exact .error h
        · split
          · exact .error h
          · split
            · exact .error h
            · exact .ok (memWf_mk (wf_issueOp (wf_teamWrite (wf_readSpans h))))

theorem wf_execCpyFence (h : MemWf s) : OutWf (execCpyFence s) :=
  wf_onePass h (fun _ _ _ _ h => .ok (wf_issueOp h))

theorem wf_execCpyFenceComplete {op} (h : MemWf s) : OutWf (execCpyFenceComplete op s) := by
  unfold execCpyFenceComplete
  split
  · exact .next h
  · split
    · split
      · exact .next h
      · exact .next (wf_endOp h)
    · exact .next h

theorem wf_execCpyCancel {a} (h : MemWf s) : OutWf (execCpyCancel a s) := by
  unfold execCpyCancel
  refine wf_onePass h (fun _ _ _ _ h => ?_)
  dsimp only
  split
  · exact .ok h
  · exact .ok (wf_issueOp (memWf_foldl h fun _ _ h => wf_leaveMerge h))

/-! ### Machine/Matrix -/

theorem wf_illegalConvergence {f} (h : MemWf s) : MemWf (illegalConvergence s f).1 := h

theorem wf_rowPages {i t ctx need ps later} (h : MemWf s) :
    ResWf (rowPages i t ctx need ps later s) := by
  induction ps generalizing s later with
  | nil => exact .ok h
  | cons p ps ih =>
    unfold rowPages
    split
    · rename_i e
      exact .error ((wf_teamPage h).error_mem e)
    · rename_i e
      exact .error ((wf_teamPage h).error_mem e)
    · rename_i e
      exact .error ((wf_teamPage h).error_mem e)
    · rename_i e
      split
      · exact .error ((wf_teamPage h).ok_mem e)
      · split
        · split
          · exact .error ((wf_teamPage h).ok_mem e)
          · exact wf_andThen (ih ((wf_teamPage h).ok_mem e)) (fun _ _ h => .ok h)
        · split
          · exact .error ((wf_teamPage h).ok_mem e)
          · exact wf_andThen (ih ((wf_teamPage h).ok_mem e)) (fun _ _ h => .ok h)

theorem wf_rowSpots {i t u need ea n} (h : MemWf s) : ResWf (rowSpots i t u need ea n s) := by
  unfold rowSpots
  dsimp only
  split
  · exact .error h
  · split
    · split
      · exact .error h
      · exact .ok h
    · exact .error h
    · exact wf_rowPages h

theorem wf_placeRows {i t u need n rs} (h : MemWf s) : ResWf (placeRows i t u need n rs s) := by
  induction rs generalizing s with
  | nil => exact .ok h
  | cons r rs ih =>
    unfold placeRows
    exact wf_andThen (wf_rowSpots h) (fun _ _ h => wf_andThen (ih h) (fun _ _ h => .ok h))

theorem wf_tileRows {i t u need pair base stride} (h : MemWf s) :
    ResWf (tileRows i t u need pair base stride s) := by
  unfold tileRows
  dsimp only
  split
  · exact .error h
  · exact wf_andThen (wf_placeRows h) (fun _ _ h => .ok h)

theorem wf_governed {i f t cycles} (h : MemWf s) : ResWf (governed i f t cycles s) := by
  unfold governed
  dsimp only
  split
  · exact .ok h
  · split
    · split
      · exact .error h
      · exact .error (wf_modFrag h)
    · exact .ok h

theorem wf_matrixIssue {more accept} {kind n ts x y} (h : MemWf s)
    (hm : ∀ s i f t u m, MemWf s → ResWf (more s i f t u m))
    (ha : ∀ s i f t m, MemWf s → EndWf (accept s i f t m)) :
    OutWf (matrixIssue kind n ts x y more accept s) := by
  unfold matrixIssue
  refine wf_onePassTo h (fun _ _ _ _ h => ?_)
  dsimp only
  split
  · exact .error h
  · split
    · exact .error (wf_illegalConvergence h)
    · split
      · exact .error (wf_illegal h)
      · refine wf_andOk (hm _ _ _ _ _ _ h) (fun _ _ h => ?_)
        split
        · exact .error h
        · exact wf_andOk (wf_governed h) (fun _ _ h => ha _ _ _ _ _ h)

theorem wf_enterQueue {i f t m} (h : MemWf s) : EndWf (enterQueue s i f t m) :=
  .ok (wf_advance (wf_issueOp h))

theorem wf_withOperands {u1 u2 t u m} (h : MemWf s) : ResWf (withOperands s u1 u2 t u m) := by
  unfold withOperands
  split
  · exact .error h
  · exact .ok h

theorem wf_execMma {n t x y} (h : MemWf s) : OutWf (execMma n t x y s) :=
  wf_matrixIssue h (fun _ _ _ _ _ _ h => wf_withOperands h) (fun _ _ _ _ _ h => wf_enterQueue h)

theorem wf_execDmma {n t x y} (h : MemWf s) : OutWf (execDmma n t x y s) :=
  wf_matrixIssue h (fun _ _ _ _ _ _ h => wf_withOperands h) (fun _ _ _ _ _ h => wf_enterQueue h)

theorem wf_awaitPartners {nth i f t m} (h : MemWf s) : EndWf (awaitPartners nth s i f t m) :=
  .ok (wf_beginWait (wf_issueOp h))

theorem wf_mmaq {kind n ts x y} (h : MemWf s) : OutWf (mmaq kind n ts x y s) := by
  unfold mmaq
  refine wf_matrixIssue h (fun _ _ _ _ _ _ h => ?_) (fun _ _ _ _ _ h => wf_awaitPartners
    (wf_modUnit h))
  split
  · exact .error (wf_illegalConvergence h)
  · exact wf_withOperands h

theorem wf_drainRows {kind n ts x y} (h : MemWf s) : OutWf (drainRows kind n ts x y s) := by
  unfold drainRows
  refine wf_matrixIssue h (fun _ _ _ _ _ _ h => ?_) (fun _ _ _ _ _ h => wf_enterQueue (wf_watch h))
  dsimp only
  split
  · exact .error h
  · exact wf_andThen (wf_tileRows h) (fun _ _ h => .ok h)

theorem wf_execMdrainFolio {n t x} (h : MemWf s) : OutWf (execMdrainFolio n t x s) := by
  unfold execMdrainFolio
  -- a name for `scratchSpot`, so that its address arithmetic is not evaluated
  obtain ⟨spot, hs⟩ : ∃ f, f = scratchSpot := ⟨_, rfl⟩
  rw [← hs]
  refine wf_matrixIssue h (fun _ _ _ _ _ _ h => ?_) (fun _ _ _ _ _ h => wf_enterQueue (wf_watch h))
  dsimp only
  split
  · exact .error h
  · split
    · exact .error h
    · split
      · exact .error h
      · split
        · exact .error h
        · split
          · exact .error h
          · exact .ok h

theorem wf_execMaccZero {n t} (h : MemWf s) : OutWf (execMaccZero n t s) :=
  wf_matrixIssue h (fun _ _ _ _ _ _ h => .ok h) (fun _ _ _ _ _ h => wf_enterQueue h)

theorem wf_execMaccLoad {n t x y} (h : MemWf s) : OutWf (execMaccLoad n t x y s) := by
  unfold execMaccLoad
  refine wf_matrixIssue h (fun _ _ _ _ _ _ h => ?_) (fun _ _ _ _ _ h => wf_enterQueue h)
  split
  · exact .error h
  · exact wf_andThen (wf_tileRows h) (fun _ _ h => .ok h)

theorem wf_execMaccTree {n t x} (h : MemWf s) : OutWf (execMaccTree n t x s) := by
  unfold execMaccTree
  refine wf_matrixIssue h (fun _ _ _ _ _ _ h => ?_) (fun _ _ _ _ _ h => wf_awaitPartners
    (wf_modUnit h))
  split
  · exact .error (wf_illegalConvergence h)
  · split
    · exact .error h
    · exact .ok h

theorem wf_execMaccGov {d} (h : MemWf s) : OutWf (execMaccGov d s) := by
  unfold execMaccGov
  refine wf_onePass h (fun _ _ _ _ h => ?_)
  dsimp only
  split
  · exact .error (wf_illegalConvergence h)
  · split
    · exact .error h
    · exact .ok (wf_issueOp h)

theorem wf_execMfen (h : MemWf s) : OutWf (execMfen s) := by
  unfold execMfen
  refine wf_onePass h (fun _ _ _ _ h => ?_)
  dsimp only
  split
  · exact .error (wf_illegalConvergence h)
  · split
    · exact .error h
    · exact .ok (wf_issueOp h)

theorem wf_execMcommit {d} (h : MemWf s) : OutWf (execMcommit d s) := by
  unfold execMcommit
  refine wf_onePass h (fun _ _ _ _ h => ?_)
  split
  · exact .error (wf_illegalConvergence h)
  · split
    · exact .error h
    · exact .ok (wf_issueOp (wf_modTeam h))

theorem wf_execMwait {a} (h : MemWf s) : OutWf (execMwait a s) := by
  unfold execMwait
  refine wf_onePass h (fun _ _ _ _ h => ?_)
  split
  · exact .error (wf_illegalConvergence h)
  · split
    · exact .error h
    · exact .ok (wf_issueOp h)

theorem wf_joinParts {ps} (h : MemWf s) : MemWf (joinParts ps s) :=
  memWf_foldl h fun _ _ h => wf_resumeAfter h

theorem wf_joinCores {unit cores tree} (h : MemWf s) : OutWf (joinCores unit cores tree s) := by
  unfold joinCores
  split
  · exact .next h
  · split
    · exact .next h
    · exact .next (wf_joinParts h)

theorem wf_execMmaqJoin {unit quad} (h : MemWf s) : OutWf (execMmaqJoin unit quad s) := by
  unfold execMmaqJoin
  split
  · exact .next h
  · exact wf_joinCores h

theorem wf_execMaccTreeJoin {unit} (h : MemWf s) : OutWf (execMaccTreeJoin unit s) := by
  unfold execMaccTreeJoin
  split
  · exact .next h
  · exact wf_joinCores h

theorem wf_tilePut {team tile v} (h : MemWf s) : MemWf (tilePut team tile v s) := wf_modTeam h

theorem wf_readFolio {o off size} (h : MemWf s) : MemWf (readFolio o off size s).2 := by
  unfold readFolio
  refine memWf_foldl_snd h fun _ _ h => ?_
  dsimp only
  exact wf_readUnit h

theorem wf_readA {o m k} (h : MemWf s) : MemWf (readA o m k s).2 := wf_readFolio h

theorem wf_readB {o m k} (h : MemWf s) : MemWf (readB o m k s).2 := wf_readFolio h

theorem wf_runSteps {o m} (h : MemWf s) : MemWf (runSteps o m s) := by
  unfold runSteps
  refine wf_tilePut (memWf_foldl_snd (memWf_foldl_snd (memWf_foldl_snd h fun _ _ h => ?_) fun _ _
    h' => ?_) fun _ _ h₁ => memWf_foldl_snd (memWf_foldl_snd h₁ fun _ _ h₁ => ?_) fun _ _ h₁ => ?_)
  · dsimp only
    exact wf_readUnit h
  · dsimp only
    exact wf_readUnit h'
  · dsimp only
    exact wf_readUnit h₁
  · dsimp only
    exact wf_readUnit h₁

theorem wf_drawTile {n} (h : MemWf s) : MemWf (drawTile n s).2 := by
  induction n generalizing s with
  | zero => exact h
  | succ n ih =>
    unfold drawTile
    exact ih h

theorem wf_runPart {o m} (h : MemWf s) : MemWf (runPart o m s) := by
  unfold runPart
  dsimp only
  split
  · exact wf_tilePut (wf_drawTile h)
  · exact wf_tilePut (memWf_foldl_snd h fun _ _ h => wf_readB (wf_readA h))

theorem wf_receiveTile {ws a sent} (h : MemWf s) : MemWf (receiveTile ws a sent s).2 :=
  memWf_foldl_snd h fun _ _ h => wf_pickSome h

theorem wf_treeCombine {x y} (h : MemWf s) : MemWf (treeCombine x y s) :=
  wf_tilePut (memWf_foldl_snd h fun _ _ h => wf_pickSome h)

theorem wf_runTree {m} (h : MemWf s) : MemWf (runTree m s) := by
  unfold runTree
  -- a length the kernel cannot unroll `drawBytes` by
  obtain ⟨n, hn⟩ : ∃ n, n = 8192 := ⟨_, rfl⟩
  rw [← hn]
  refine memWf_foldl (memWf_foldl h fun s step h => memWf_foldl h fun s c h => ?_)
    fun s x h => wf_writeCells (wf_drawBytes h)
  split
  · exact wf_treeCombine h
  · exact h

theorem wf_runLoad {o m} (h : MemWf s) : MemWf (runLoad o m s) := by
  unfold runLoad
  refine wf_tilePut (memWf_foldl_snd h fun _ _ h => ?_)
  dsimp only
  exact wf_readUnit h

theorem wf_writeRow {op o cells} (h : MemWf s) : MemWf (writeRow op o cells s) :=
  memWf_foldl (memWf_foldl h fun _ _ h => wf_writeUnit h) fun _ _ h => wf_appendUnit h

theorem wf_spawnOp {op o body} (h : MemWf s) : MemWf (spawnOp op o body s) := by
  unfold spawnOp
  dsimp only
  exact memWf_mk (wf_spawnFor h)

theorem wf_runDrain {op o m} (h : MemWf s) : MemWf (runDrain op o m s) := by
  unfold runDrain
  dsimp only
  split
  · split
    · exact wf_fencedWrite (wf_fillGranules (memWf_foldl (wf_setOvf h) fun _ _ h => wf_writeRow h))
    · exact wf_fencedWrite (wf_fillGranules (memWf_foldl h fun _ _ h => wf_writeRow h))
  · refine wf_spawnOp ?_
    split
    · exact wf_setOvf h
    · exact h
  · refine wf_fencedWrite (wf_fillGranules (wf_writeCells ?_))
    split
    · exact wf_setOvf h
    · exact h

theorem wf_stampTile {o m} (h : MemWf s) : MemWf (stampTile o m s) := by
  unfold stampTile
  dsimp only
  split
  · exact h
  · exact wf_modTeam (wf_choose h)

theorem wf_retireAt {o m how} (h : MemWf s) : MemWf (retireAt o m how s) := by
  unfold retireAt
  split
  · exact h
  · split
    · exact h
    · exact wf_modTeam (wf_retireTile h)

theorem wf_endMatrix {op o} (h : MemWf s) : MemWf (endMatrix op o s) := wf_settleTeam (wf_endOp h)

theorem wf_endParts {m} (h : MemWf s) : MemWf (endParts m s) := by
  unfold endParts
  refine memWf_foldl h fun _ _ h => ?_
  split
  · exact h
  · exact wf_endMatrix h

theorem wf_runMatrix_partDone {op o m} (h : MemWf s) : MemWf (runMatrix.partDone op o m s) := by
  unfold runMatrix.partDone
  dsimp only
  split
  · exact wf_endParts (wf_setBody (wf_stampTile (wf_runPart h)))
  · exact wf_setBody (wf_stampTile (wf_runPart h))

theorem wf_runMatrix_drained {op o m} (h : MemWf s) : MemWf (runMatrix.drained op o m s) := by
  unfold runMatrix.drained
  dsimp only
  split
  · exact wf_setBody (wf_stampTile (wf_runDrain h))
  · exact wf_endMatrix (wf_retireAt (wf_stampTile (wf_runDrain h)))

theorem wf_runMatrix {op o m} (h : MemWf s) : MemWf (runMatrix op o m s) := by
  unfold runMatrix
  dsimp only
  split
  · split
    · exact wf_destGate h
    · exact wf_endMatrix (memWf_mk (wf_destGate h))
  · split
    · exact h
    · exact wf_endMatrix (wf_stampTile (wf_runSteps h))
  · split
    · exact h
    · exact wf_endMatrix (wf_stampTile (wf_runSteps h))
  · split
    · exact h
    · exact wf_runMatrix_partDone h
  · split
    · exact h
    · exact wf_runMatrix_partDone h
  · split
    · exact h
    · exact wf_endMatrix (wf_retireAt (wf_stampTile (wf_tilePut h)))
  · split
    · exact h
    · exact wf_endMatrix (wf_retireAt (wf_stampTile (wf_runLoad h)))
  · split
    · exact h
    · exact wf_endParts (memWf_foldl (wf_runTree h) fun _ _ h => wf_stampTile h)
  · split
    · exact h
    · exact wf_runMatrix_drained h
  · split
    · exact h
    · exact wf_runMatrix_drained h
  · split
    · exact h
    · exact wf_runMatrix_drained h
  · split
    · exact h
    · split
      · exact h
      · exact wf_endMatrix (wf_retireAt h)

theorem wf_execMatrixOpComplete {op} (h : MemWf s) : OutWf (execMatrixOpComplete op s) := by
  unfold execMatrixOpComplete
  split
  · exact .next h
  · split
    · exact .next (wf_runMatrix h)
    · split
      · exact .next h
      · exact .next (wf_endMatrix h)
    · split
      · exact .next h
      · exact .next (wf_endMatrix h)
    · split
      · exact .next h
      · exact .next (wf_endMatrix h)
    · exact .next h

theorem wf_execGovernorWindow {cluster} (h : MemWf s) : OutWf (execGovernorWindow cluster s) :=
  .next h

/-! ### Machine/Residency -/

theorem wf_freeFrame {die secure} (h : MemWf s) : OptWf (freeFrame die secure s) := by
  unfold freeFrame
  dsimp only
  split
  · exact .none
  · split
    · exact .none
    · exact .some (wf_draw h)

theorem wf_zeroFrame {f} (h : MemWf s) : MemWf (zeroFrame f s) := wf_zeroRange _ _ h

theorem wf_takePool {ctx die secure} (h : MemWf s) : PoolWf (takePool ctx die secure s) := by
  unfold takePool
  dsimp only
  split
  · exact .refused
  · split
    · split
      · exact .refused
      · rename_i e
        exact .got (wf_zeroFrame (wf_modCtx ((wf_freeFrame h).some_mem e)))
    · split
      · split
        · exact .refused
        · exact .later
      · exact .got h

theorem wf_withPacks {ctx e fs} (h : MemWf s) : OptStWf (withPacks ctx e fs s) := by
  induction fs generalizing s with
  | nil => exact .some h
  | cons f fs ih =>
    unfold withPacks
    split
    · exact ih h
    · split
      · exact .none
      · rename_i e
        exact ih (wf_zeroFrame (wf_modCtx ((wf_freeFrame h).some_mem e)))

theorem wf_takeFrame {ctx die e} (h : MemWf s) : PoolWf (takeFrame ctx die e s) := by
  unfold takeFrame
  split
  · next f s e =>
    have h := (wf_takePool h).got_mem e
    split
    · rename_i e
      exact .got ((wf_withPacks h).some_mem e)
    · exact .refused
  · exact wf_takePool h

theorem wf_execPoolRefill {ctx die} (h : MemWf s) : OutWf (execPoolRefill ctx die s) := by
  unfold execPoolRefill
  dsimp only
  split
  · exact .next h
  · split
    · exact .next h
    · split
      · exact .next h
      · rename_i e
        exact .next (wf_zeroFrame (memWf_mk ((wf_freeFrame h).some_mem e)))

theorem wf_setEntry {a e} (h : MemWf s) : MemWf (setEntry a e s) := wf_pokeNat _ _ _ h

theorem wf_newTable {ctx} (h : MemWf s) : OptWf (newTable ctx s) := by
  unfold newTable
  split; next d s e =>
  have h := (wf_choose h).of_snd e
  cases e : freeFrame d false s with
  | none =>
    dsimp only
    split
    · exact .none
    · rename_i e
      exact .some (wf_zeroFrame (wf_modCtx ((wf_freeFrame h).some_mem e)))
  | some x => exact .some (wf_zeroFrame (wf_modCtx ((wf_freeFrame h).some_mem e)))

theorem wf_childTable {ctx l1 a} (h : MemWf s) : OptWf (childTable ctx l1 a s) := by
  unfold childTable
  dsimp only
  split
  · exact .some h
  · split
    · exact .none
    · rename_i e
      refine .some (wf_setEntry ?_)
      split
      · exact memWf_foldl ((wf_newTable h).some_mem e) fun _ _ h => wf_setEntry h
      · exact (wf_newTable h).some_mem e

theorem wf_putLeaf {ctx va large e} (h : MemWf s) : OptStWf (putLeaf ctx va large e s) := by
  unfold putLeaf
  dsimp only
  split
  · exact .none
  · split
    · exact .none
    · rename_i e
      split
      · exact .none
      · rename_i e'
        split
        · exact .some (wf_setEntry ((wf_childTable ((wf_childTable h).some_mem e)).some_mem e'))
        · split
          · exact .none
          · rename_i e₁
            exact .some (wf_setEntry ((wf_childTable ((wf_childTable ((wf_childTable h).some_mem
              e)).some_mem e')).some_mem e₁))

theorem wf_releasePage {ctx va st} (h : MemWf s) : MemWf (releasePage ctx va st s) := h

theorem wf_mapTouch {ctx va e f} (h : MemWf s) : MemWf (mapTouch ctx va e f s) := by
  unfold mapTouch
  split
  · exact h
  · rename_i e
    exact wf_releasePage ((wf_putLeaf h).some_mem e)

theorem wf_giveBackAll {ws} (h : MemWf s) : MemWf (giveBackAll ws s) :=
  memWf_foldl h fun _ _ h => wf_giveBack h

theorem wf_shareOut {ph w es} (h : MemWf s) : MemWf (shareOut ph w es s).2 := by
  induction es generalizing s w with
  | nil => exact wf_giveBack h
  | cons e es ih =>
    cases es
    · exact h
    · unfold shareOut
      exact ih h

theorem wf_applyBody {frame agent body} (h : MemWf s) : MemWf (applyBody frame agent body s) := by
  unfold applyBody
  dsimp only
  split
  · split
    · exact h
    · exact wf_writeRuns _ _ _ h
  · exact memWf_foldl h fun _ _ h => wf_applyAdd h

theorem wf_noteAppend {agent} (h : MemWf s) : MemWf (noteAppend agent s) := h

theorem wf_acceptWrite {k t body agent ord ph w} (h : MemWf s) :
    MemWf (acceptWrite k t body agent ord ph w s) := by
  unfold acceptWrite
  dsimp only
  split
  · split
    · split
      · split
        · exact wf_fencedWrite (wf_applyBody h)
        · exact wf_giveBack (wf_fencedWrite (wf_applyBody h))
      · exact wf_fencedWrite (wf_applyBody h)
    · split
      · split
        · exact h
        · exact wf_giveBack h
      · exact h
  · split
    · exact wf_startArrival h
    · split
      · exact wf_startArrival h
      · split
        · split
          · exact wf_giveBackAll (memWf_mk (wf_fencedWrite (wf_noteAppend h)))
          · exact wf_giveBackAll (memWf_mk (wf_shareOut (wf_fencedWrite (wf_noteAppend h))))
        · exact wf_giveBackAll (memWf_mk (wf_fencedWrite (wf_noteAppend h)))

theorem wf_tileFor {ctx va e} (h : MemWf s) : OptWf (tileFor ctx va e s) := by
  unfold tileFor
  dsimp only
  split
  · exact .some h
  · split
    · exact .some (wf_tileOf h)
    · split
      · exact .none
      · rename_i e
        exact .some (memWf_mk (wf_tileOf (wf_modCtx ((wf_freeFrame h).some_mem e))))

theorem wf_tileRequest {op o kind va d} (h : MemWf s) : MemWf (tileRequest op o kind va d s) := by
  unfold tileRequest
  dsimp only
  split
  · exact wf_setBody h
  · split
    · exact wf_setBody h
    · rename_i e
      split
      · exact wf_setBody ((wf_tileFor h).some_mem e)
      · split
        · exact wf_setBody (memWf_mk ((wf_tileFor h).some_mem e))
        · split
          · exact wf_setBody (memWf_mk ((wf_tileFor h).some_mem e))
          · exact wf_setBody (wf_startArrival (memWf_mk ((wf_tileFor h).some_mem e)))
        · exact wf_setBody (wf_startArrival ((wf_tileFor h).some_mem e))
        · exact wf_setBody (wf_startArrival ((wf_tileFor h).some_mem e))

theorem wf_tileOp {kind needR a c} (h : MemWf s) : OutWf (tileOp kind needR a c s) := by
  unfold tileOp
  refine wf_onePass h (fun _ _ _ _ h => ?_)
  dsimp only
  split
  · exact .error h
  · exact .error h
  · split
    · exact .error h
    · exact .error h
    · split
      · exact .error h
      · exact .ok (wf_issueOp h)

theorem wf_execLogAppend {op} (h : MemWf s) : OutWf (execLogAppend op s) := by
  unfold execLogAppend
  dsimp only
  split
  · exact .next h
  · split
    · split
      · exact .next (wf_tileRequest h)
      · exact .next h
    · split
      · exact .next h
      · split
        · exact .next (wf_endOp h)
        · split
          · exact .next (wf_startArrival (wf_acceptWrite h))
          · exact .next (wf_acceptWrite h)
    · exact .next h

theorem wf_execDrainAddApply {op} (h : MemWf s) : OutWf (execDrainAddApply op s) := by
  unfold execDrainAddApply
  dsimp only
  split
  · exact .next h
  · split
    · split
      · exact .next h
      · split
        · refine .next (wf_endOp (memWf_foldl h fun _ _ h' => ?_))
          split
          · exact h'
          · split
            · exact wf_startArrival (wf_acceptWrite (wf_spawnFor h'))
            · exact wf_acceptWrite (wf_spawnFor h')
        · refine .next (wf_endOp (memWf_foldl (wf_fencedWrite (wf_writeRunsAs _ _ _ _ h)) fun _ _
            h' => ?_))
          split
          · exact h'
          · split
            · exact wf_startArrival (wf_acceptWrite (wf_spawnFor h'))
            · exact wf_acceptWrite (wf_spawnFor h')
    · exact .next h

theorem wf_applyFrom {agents rels frame e} (h : MemWf s) :
    MemWf (applyFrom agents rels frame e s) := by
  unfold applyFrom
  dsimp only
  split
  · exact memWf_foldl h fun _ _ h => wf_pokeAs _ _ _ _ _ h
  · exact memWf_foldl h fun _ _ h => wf_pokeAs _ _ _ _ _ h

theorem wf_applyEntry {frame e} (h : MemWf s) : MemWf (applyEntry frame s e) := wf_applyFrom h

theorem wf_waitFails {i f how va st} (h : MemWf s) : MemWf (waitFails i f how va st s) := by
  unfold waitFails
  split <;> exact wf_trapHere h

theorem wf_wakeTile {k t st} (h : MemWf s) : MemWf (wakeTile k t st s) := wf_releasePage h

theorem wf_settleTiles (h : MemWf s) : MemWf (settleTiles s) :=
  memWf_foldl h fun _ _ h => wf_endOp h

theorem wf_applyHeld {frame held} (h : MemWf s) : MemWf (applyHeld frame held s) :=
  wf_fencedWrite (memWf_foldl h fun _ _ h => wf_applyFrom h)

theorem wf_tileArrives {k t f} (h : MemWf s) : MemWf (tileArrives k t f s) := by
  unfold tileArrives
  dsimp only
  split
  · rename_i e
    exact wf_settleTiles (wf_wakeTile (memWf_mk ((wf_putLeaf (memWf_foldl (wf_giveBackAll
      (memWf_foldl (wf_forgetRange _ _ h) fun _ _ h => wf_applyEntry h)) fun _ _ h =>
      wf_giveBackAll (wf_applyHeld h))).some_mem e)))
  · exact wf_settleTiles (wf_wakeTile (memWf_mk (memWf_foldl (wf_giveBackAll (memWf_foldl
      (wf_forgetRange _ _ h) fun _ _ h => wf_applyEntry h)) fun _ _ h => wf_giveBackAll
      (wf_applyHeld h))))

theorem wf_execTileFrameObtained {tile} (h : MemWf s) : OutWf (execTileFrameObtained tile s) := by
  unfold execTileFrameObtained
  split
  · exact .next h
  · split
    · exact .next h
    · split
      · exact .next (wf_tileArrives h)
      · split
        · exact .next h
        · split
          · rename_i e
            exact .next (wf_tileArrives ((wf_takeFrame h).got_mem e))
          · exact .next h

theorem wf_cancelLaunches {p} (h : MemWf s) : MemWf (cancelLaunches p s) :=
  memWf_foldl h fun _ _ h => wf_stopUnit h

theorem wf_crlRest {n st} (h : MemWf s) : MemWf (crlRest n st s) := by
  unfold crlRest
  split
  · exact h
  · exact wf_giveBackAll h

theorem wf_crlCancel {n} (h : MemWf s) : MemWf (crlCancel n s) := by
  unfold crlCancel
  split
  · exact h
  · split
    · exact wf_leaveMerge (wf_crlRest h)
    · split
      · exact h
      · split
        · exact wf_crlRest h
        · exact h

theorem wf_cancelJob {ctx} (h : MemWf s) : MemWf (cancelJob ctx s) :=
  memWf_mk (memWf_foldl (wf_cancelLaunches (wf_modCtx h)) fun _ _ h => wf_crlCancel h)

theorem wf_tileFails {k t st} (h : MemWf s) : MemWf (tileFails k t st s) := by
  unfold tileFails
  dsimp only
  split
  · exact wf_settleTiles (wf_wakeTile h)
  · exact wf_cancelJob (wf_recordError (wf_giveBackAll (wf_settleTiles (wf_wakeTile h))))

theorem wf_execTileArrivalFailed {tile status} (h : MemWf s) :
    OutWf (execTileArrivalFailed tile status s) := by
  unfold execTileArrivalFailed
  split
  · exact .next h
  · split
    · exact .next h
    · split
      · split
        · split
          · exact .next (wf_tileFails h)
          · exact .next h
        · exact .next h
      · split
        · exact .next (wf_tileFails h)
        · exact .next h

theorem wf_execPhaseLogArrival {phase} (h : MemWf s) : OutWf (execPhaseLogArrival phase s) := by
  unfold execPhaseLogArrival
  dsimp only
  split
  · exact .next h
  · split
    · exact .next h
    · exact .next (memWf_foldl h fun _ _ h => wf_startArrival h)

theorem wf_writeRecord {ctx c r} (h : MemWf s) : MemWf (writeRecord ctx c r s) :=
  memWf_mk (wf_pokeNat _ _ _ (wf_pokeBytes _ _ h))

theorem wf_drainRecords {ctx n} (h : MemWf s) : MemWf (drainRecords ctx n s) := by
  induction n generalizing s with
  | zero => exact h
  | succ n ih =>
    unfold drainRecords
    split
    · exact h
    · split
      · exact h
      · split
        · exact ih (wf_writeRecord h)
        · exact h

theorem wf_readHead {ctx} (h : MemWf s) : MemWf (readHead ctx s) := by
  unfold readHead
  split
  · exact h
  · exact wf_drainRecords h

theorem wf_execFaultRingHeadPoll {ctx} (h : MemWf s) : OutWf (execFaultRingHeadPoll ctx s) :=
  .next (wf_readHead h)

theorem wf_postEntry {n} (h : MemWf s) : MemWf (postEntry n s) := by
  unfold postEntry
  dsimp only
  split
  · exact h
  · split
    · exact h
    · split
      · exact wf_writeRecord h
      · exact h

theorem wf_execFaultRecordPost {ctx} (h : MemWf s) : OutWf (execFaultRecordPost ctx s) := by
  unfold execFaultRecordPost
  dsimp only
  split
  · exact .next h
  · split
    · exact .next (wf_postEntry (wf_choose h))
    · split
      · exact .next (wf_choose h)
      · split
        · exact .next (wf_choose h)
        · rename_i e
          exact .next (wf_postEntry ((wf_mergeJoin (wf_choose h)).some_mem e))
    · exact .next (wf_choose h)

theorem wf_tellWaiter {n st addr size w} (h : MemWf s) : MemWf (tellWaiter n st addr size s w) := by
  unfold tellWaiter
  dsimp only
  split
  · split
    · exact h
    · split
      · split
        · exact h
        · split
          · exact wf_modFrag h
          · exact wf_waitFails (wf_modFrag h)
      · exact h
  · split <;> exact h
  · exact h
  · split
    · exact h
    · exact wf_modFrag h
  · split <;> exact h
  · split <;> exact h

theorem wf_execMergeRewalk {entry} (h : MemWf s) : OutWf (execMergeRewalk entry s) := by
  unfold execMergeRewalk
  dsimp only
  split
  · exact .next h
  · split
    · exact .next (memWf_foldl h fun _ _ h => wf_tellWaiter h)
    · split
      · exact .next h
      · split
        · split
          · split
            · exact .next (wf_releasePage h)
            · split
              · rename_i e
                exact .next (wf_mapTouch ((wf_takeFrame h).got_mem e))
              · exact .next h
              · exact .next h
          · split
            · exact .next (wf_releasePage h)
            · split
              · rename_i e
                exact .next (wf_mapTouch ((wf_takeFrame h).got_mem e))
              · exact .next h
              · exact .next h
        · split
          · split
            · exact .next (wf_modFrag h)
            · exact .next h
          · exact .next h

theorem wf_serviceEnds {i f call v} (h : MemWf s) : MemWf (serviceEnds i f call v s) := by
  unfold serviceEnds
  dsimp only
  split
  · exact wf_destGate h
  · refine wf_finishStop (wf_modFrag (wf_endOp ?_))
    split
    · split
      · exact memWf_mk (wf_destGate h)
      · exact wf_destGate h
    · split
      · exact memWf_mk (wf_destGate h)
      · exact wf_destGate h

theorem wf_notePrefetch {i ctx pages} (h : MemWf s) : MemWf (notePrefetch i ctx pages s) :=
  wf_modFrag h

theorem wf_prefetchPages {i die ctx pages} (h : MemWf s) :
    MemWf (prefetchPages i die ctx pages s).1 := by
  unfold prefetchPages
  refine memWf_foldl_fst h fun _ _ h => ?_
  dsimp only
  split
  · split
    · split
      · split
        · exact h
        · split
          · exact wf_startArrival (wf_modFrag (wf_tileOf h))
          · split
            · exact h
            · rename_i e
              exact (wf_mergeJoin h).some_mem e
      · split
        · exact h
        · split
          · exact wf_startArrival (wf_modFrag (wf_tileOf h))
          · split
            · exact h
            · rename_i e
              exact (wf_mergeJoin h).some_mem e
    · exact h
  · exact h

theorem wf_execSvcReturn {frag} (h : MemWf s) : OutWf (execSvcReturn frag s) := by
  unfold execSvcReturn
  dsimp only
  split
  · exact .next h
  · split
    · split
      · exact .next h
      · split
        · exact .next h
        · split
          · exact .next (wf_serviceEnds h)
          · split
            · exact .next (wf_serviceEnds h)
            · split
              · split
                · exact .next h
                · exact .next (wf_serviceEnds h)
              · split
                · exact .next (wf_serviceEnds h)
                · split
                  · exact .next (wf_serviceEnds h)
                  · split
                    · exact .next (wf_startArrival (wf_modFrag (wf_tileOf h)))
                    · split
                      · rename_i e
                        exact .next (wf_serviceEnds (wf_mapTouch ((wf_takeFrame h).got_mem e)))
                      · exact .next (wf_serviceEnds h)
                      · exact .next h
          · exact .next (wf_serviceEnds h)
          · split
            · exact .next (wf_serviceEnds h)
            · split
              · exact .next (wf_prefetchPages (wf_notePrefetch h))
              · exact .next (wf_serviceEnds (wf_prefetchPages (wf_notePrefetch h)))
          · exact .next (wf_serviceEnds h)
    · exact .next h

/-! ### Machine/Selection -/

theorem wf_deviceSpots {g ea n} (h : MemWf s) : ResWf (deviceSpots g ea n s) := by
  unfold deviceSpots
  split
  · rename_i e
    exact .error ((wf_engineSpots h).error_mem e)
  · rename_i e
    exact .error ((wf_engineSpots h).error_mem e)
  · rename_i e
    split
    · exact .error ((wf_engineSpots h).ok_mem e)
    · exact .ok ((wf_engineSpots h).ok_mem e)

theorem wf_reachAll {g spans} (h : MemWf s) : MemWf (reachAll g spans s).2 := by
  unfold reachAll
  refine memWf_foldl_snd h fun _ _ h => ?_
  split
  · rename_i e
    exact (wf_deviceSpots h).ok_mem e
  · rename_i e
    exact (wf_deviceSpots h).error_mem e

theorem wf_endSelection {op x state trunc cause fpage} (h : MemWf s) :
    MemWf (endSelection op x state trunc cause fpage s) :=
  wf_setBody (wf_leaveMerge h)

theorem wf_selectDest {g u x} (h : MemWf s) : ResWf (selectDest g u x s) := by
  unfold selectDest
  split
  · exact wf_engineSpots h
  · split
    · split
      · exact .ok h
      · exact .error h
    · exact .error h

theorem wf_counterFails {op g u x c} (h : MemWf s) : MemWf (counterFails op g u x c s) := by
  unfold counterFails
  dsimp only
  split
  · exact wf_endSelection h
  · split
    · rename_i e
      split <;> exact wf_endSelection ((wf_selectDest (wf_choose h)).error_mem e)
    · rename_i e
      exact wf_endSelection ((wf_selectDest (wf_choose h)).error_mem e)
    · rename_i e
      exact wf_endSelection ((wf_selectDest (wf_choose h)).ok_mem e)

theorem wf_checkSelection {op o x u} (h : MemWf s) : MemWf (checkSelection op o x u s) := by
  unfold checkSelection
  extract_lets g ctr
  have hc : ResWf ctr := by
    unfold ctr
    split
    · exact .ok h
    · exact wf_engineCounter h
  clear_value ctr
  split
  · exact hc.error_mem rfl
  · exact wf_counterFails (hc.error_mem rfl)
  · split
    · exact wf_endSelection (hc.ok_mem rfl)
    · split
      · rename_i e
        exact wf_endSelection ((wf_selectDest (hc.ok_mem rfl)).error_mem e)
      · rename_i e
        exact (wf_selectDest (hc.ok_mem rfl)).error_mem e
      · rename_i e
        exact wf_setBody ((wf_selectDest (hc.ok_mem rfl)).ok_mem e)

theorem wf_withRegion {k} {op o x} (h : MemWf s) (hk : ∀ x s, MemWf s → MemWf (k x s)) :
    MemWf (withRegion op o x k s) := by
  unfold withRegion
  dsimp only
  split
  · exact hk _ _ h
  · split
    · exact wf_endSelection (wf_pickOne (wf_reachAll h))
    · split
      · exact wf_reachAll h
      · exact hk _ _ (wf_setBody (wf_reachAll h))

theorem wf_stackList {op x stack} (h : MemWf s) : MemWf (stackList op x stack s) := by
  unfold stackList
  refine wf_setBody (memWf_foldl_snd h fun _ _ h => ?_)
  dsimp only
  exact wf_readUnit h

theorem wf_execSelectionPartialList {op stack} (h : MemWf s) :
    OutWf (execSelectionPartialList op stack s) := by
  unfold execSelectionPartialList
  split
  · exact .next h
  · split
    · split
      · exact .next h
      · refine .next (wf_withRegion h (fun _ _ h' => ?_))
        split
        · exact h'
        · exact wf_stackList h'
    · exact .next h

theorem wf_spoilTarget {y} (h : MemWf s) : MemWf (spoilTarget s y) := by
  unfold spoilTarget
  dsimp only
  split
  · split
    · exact h
    · split
      · rename_i e
        exact wf_writeCells (wf_drawBytes ((wf_selectDest h).ok_mem e))
      · exact h
  · exact h

theorem wf_formResult {op o u x ints total all read} (h : MemWf s) :
    MemWf (formResult op o u x ints total all read s) := by
  unfold formResult
  dsimp only
  split
  · split
    · exact wf_endSelection h
    · exact wf_setBody h
  · split
    · rename_i e
      exact wf_endSelection ((wf_selectDest h).error_mem e)
    · rename_i e
      exact (wf_selectDest h).error_mem e
    · rename_i e
      refine wf_endSelection (wf_writeCells ?_)
      split
      · exact wf_drawBytes (memWf_mk (memWf_foldl ((wf_selectDest h).ok_mem e) fun _ _ h =>
          wf_spoilTarget h))
      · exact memWf_mk (memWf_foldl ((wf_selectDest h).ok_mem e) fun _ _ h => wf_spoilTarget h)

theorem wf_mergeParts {op o u x} (h : MemWf s) : MemWf (mergeParts op o u x s) := by
  unfold mergeParts
  refine wf_withRegion h (fun _ _ h => ?_)
  split
  · exact wf_formResult h
  · exact h

theorem wf_hubReads {g spans had} (h : MemWf s) : ResWf (hubReads g spans had s) := by
  unfold hubReads
  split; next r s e =>
  have h := (wf_reachAll h).of_snd e
  split
  · split; next e =>
    have h := (wf_pickOne h).of_snd e
    exact .error h
  · split
    · exact .error h
    · extract_lets pas
      split; next e =>
      exact .ok ((wf_engineBytes h).of_snd e)

theorem wf_shuffle {α : Type} {n} {l : List α} (h : MemWf s) : MemWf (shuffle n l s).2 := by
  induction n generalizing s l with
  | zero => exact h
  | succ n ih =>
    unfold shuffle
    dsimp only
    split
    · exact wf_choose h
    · exact ih (wf_choose h)

theorem wf_mergeLists {op o u x} (h : MemWf s) : MemWf (mergeLists op o u x s) := by
  unfold mergeLists
  extract_lets g r
  have hr : ResWf r := by
    unfold r
    refine wf_engThen (wf_hubReads h) (fun _ _ h => wf_engThen (wf_hubReads h) (fun _ _ h => ?_))
    dsimp only
    split
    · dsimp only
      split
      · exact .error h
      · exact wf_engThen (wf_hubReads h) (fun _ _ h => .ok h)
    · split
      · exact .error h
      · exact wf_engThen (wf_hubReads h) (fun _ _ h => .ok h)
  clear_value r
  dsimp only
  split
  · exact hr.error_mem rfl
  · exact wf_endSelection (hr.error_mem rfl)
  · refine wf_formResult ?_
    split
    · exact wf_shuffle (hr.ok_mem rfl)
    · exact hr.ok_mem rfl

theorem wf_finishSelection {op o x} (h : MemWf s) : MemWf (finishSelection op o x s) := by
  unfold finishSelection
  -- a name for `scratchSpot`, so that its address arithmetic is not evaluated
  obtain ⟨spot, hs⟩ : ∃ f, f = scratchSpot := ⟨_, rfl⟩
  rw [← hs]
  extract_lets g add
  have ha : ResWf add := by
    unfold add
    split
    · exact .error h
    · exact wf_engineCounter h
  clear_value add
  split
  · exact h
  · split
    · exact wf_startLogs (wf_setBody h)
    · split
      · exact h
      · split
        · exact ha.error_mem rfl
        · extract_lets s1 s2 s3
          have h1 : MemWf s1 := by
            unfold s1
            split
            · exact ha.ok_mem rfl
            · exact wf_releaseOwn (ha.error_mem rfl)
          have h2 : MemWf s2 := by
            unfold s2
            split
            · exact h1
            · split
              · exact h1
              · exact wf_writeRuns _ _ _ h1
          have h3 : MemWf s3 := by
            unfold s3
            split
            · exact wf_addCounter h2
            · exact h2
          exact wf_endOp (wf_inherit h3)

theorem wf_execSelectionComplete {op} (h : MemWf s) : OutWf (execSelectionComplete op s) := by
  unfold execSelectionComplete
  dsimp only
  split
  · exact .next h
  · split
    · split
      · split
        · exact .next h
        · exact .next (wf_finishSelection h)
      · split
        · split
          · exact .next (wf_leaveMerge (wf_counterFails h))
          · exact .next (wf_endSelection (wf_faultAddr h))
        · split
          · split
            · exact .next h
            · split
              · exact .next (wf_mergeLists h)
              · exact .next (wf_withRegion h (fun _ _ h => h))
          · split
            · exact .next (wf_checkSelection h)
            · split
              · exact .next (wf_mergeLists h)
              · exact .next (wf_mergeParts h)
            · exact .next h
    · exact .next h

theorem wf_selectGo {merge a} (h : MemWf s) : OutWf (selectGo merge a s) := by
  unfold selectGo
  -- a name for `scratchSpot`, so that its address arithmetic is not evaluated
  obtain ⟨spot, hs⟩ : ∃ f, f = scratchSpot := ⟨_, rfl⟩
  obtain ⟨n, hn⟩ : ∃ n, n = 128 := ⟨_, rfl⟩
  rw [← hs, ← hn]
  refine wf_onePass h fun s i f t h => ?_
  dsimp only
  split
  · exact .error h
  · exact .error h
  · split
    · exact .error h
    · split
      · exact .error h
      · split
        · exact .error h
        · split
          · exact .error h
          · split
            · exact .error h
            · exact .ok (memWf_mk (wf_issueOp (wf_teamWrite (wf_readSpans h))))

/-! ### Machine/Carillon -/

theorem wf_crlFault {n fcause tcause} (h : MemWf s) : MemWf (crlFault n fcause tcause s) :=
  wf_crlRest (wf_leaveMerge h)

theorem wf_micro {body} (h : MemWf s) (hb : ∀ s n c, MemWf s → MemWf (body s n c)) :
    OutWf (micro body s) := by
  unfold micro
  split
  · exact .fault
  · split
    · exact .fault
    · exact .next (hb _ _ _ h)

theorem wf_goTo {n pc c} (h : MemWf s) : MemWf (goTo n pc c s) := by
  unfold goTo
  dsimp only
  split
  · exact wf_crlRest h
  · exact h

theorem wf_microOn {f} (h : MemWf s) : OutWf (microOn f s) := wf_micro h (fun _ _ _ h => wf_goTo h)

theorem wf_execIllegalOp {_word} (h : MemWf s) : OutWf (execIllegalOp _word s) :=
  wf_micro h (fun _ _ _ h => wf_crlFault h)

theorem wf_execPcRange (h : MemWf s) : OutWf (execPcRange s) :=
  wf_micro h (fun _ _ _ h => wf_crlFault h)

theorem wf_execHalt (h : MemWf s) : OutWf (execHalt s) := wf_micro h (fun _ _ _ h => wf_crlRest h)

theorem wf_microF {op b a d} (h : MemWf s) : OutWf (microF op b a d s) := wf_microOn h

theorem wf_execCget {x a d} (h : MemWf s) : OutWf (execCget x a d s) := by
  unfold execCget
  refine wf_micro h (fun _ _ _ h => ?_)
  dsimp only
  split
  · exact wf_crlFault h
  · exact wf_goTo h

theorem wf_execCpen {x a} (h : MemWf s) : OutWf (execCpen x a s) := by
  unfold execCpen
  refine wf_micro h (fun _ _ _ h => ?_)
  dsimp only
  split
  · exact wf_crlFault h
  · exact wf_goTo h

theorem wf_execCtopk {x} (h : MemWf s) : OutWf (execCtopk x s) := by
  unfold execCtopk
  refine wf_micro h (fun _ _ _ h => ?_)
  dsimp only
  split
  · exact wf_crlFault h
  · exact wf_goTo h

theorem wf_execBr {x cond a} (h : MemWf s) : OutWf (execBr x cond a s) := by
  unfold execBr
  refine wf_micro h (fun _ _ _ h => ?_)
  dsimp only
  split
  · exact wf_goTo h
  · exact wf_goTo h
  · exact wf_goTo h
  · exact wf_crlFault h

theorem wf_crlWait {n} (h : MemWf s) : MemWf (crlWait n s) := h

theorem wf_execWaitc {x} (h : MemWf s) : OutWf (execWaitc x s) := by
  unfold execWaitc
  refine wf_micro h (fun _ _ _ h => ?_)
  split
  · exact wf_crlFault h
  · split
    · rename_i e
      exact wf_crlWait ((wf_engineCounter h).error_mem e)
    · rename_i e
      exact wf_crlFault ((wf_engineCounter h).error_mem e)
    · rename_i e
      exact wf_crlRest (memWf_mk ((wf_engineCounter h).ok_mem e))

theorem wf_execCarillonWake {ctx} (h : MemWf s) : OutWf (execCarillonWake ctx s) := by
  unfold execCarillonWake
  dsimp only
  split
  · exact .next h
  · split
    · exact .next h
    · split
      · exact .next (wf_crlFault h)
      · split
        · rename_i e
          exact .next (wf_crlWait ((wf_engineCounter h).error_mem e))
        · rename_i e
          exact .next (wf_crlFault (memWf_mk ((wf_engineCounter h).error_mem e)))
        · rename_i e
          split
          · exact .next h
          · exact .next (wf_acquireCounter (memWf_mk ((wf_engineCounter h).ok_mem e)))

theorem wf_crlShare {n} (h : MemWf s) : MemWf (crlShare n s).2 := by
  unfold crlShare
  dsimp only
  repeat' split
  all_goals exact h

theorem wf_emitRecord {n c tok ps} (h : MemWf s) : MemWf (emitRecord n c tok ps s) := by
  unfold emitRecord
  dsimp only
  split
  · exact wf_writeUnit h
  · split
    · exact wf_writeUnit h
    · exact wf_acceptWrite (wf_crlShare (wf_writeUnit h))

theorem wf_emitEnd {n scope clr tok pa} (h : MemWf s) : MemWf (emitEnd n scope clr tok pa s) := by
  unfold emitEnd
  dsimp only
  split
  · split
    · exact wf_addCounter h
    · exact h
  · refine wf_goTo ?_
    split
    · exact wf_addCounter h
    · exact h

theorem wf_execEmit {sc l a} (h : MemWf s) : OutWf (execEmit sc l a s) := by
  unfold execEmit
  refine wf_micro h fun s n c h => ?_
  extract_lets tok fin g r
  have hf : ∀ pa s, MemWf s → MemWf (fin pa s) := fun pa s h => wf_emitEnd h
  have hr : ResWf r := by
    unfold r
    refine wf_engThen (wf_engineSpots h) (fun _ _ h => ?_)
    split
    · exact .ok h
    · exact wf_engThen (wf_engineCounter h) (fun _ _ h => .ok h)
  clear_value fin r
  dsimp only
  split
  · exact wf_crlFault h
  · split
    · split
      · exact hf _ _ h
      · exact h
    · split
      · exact wf_crlFault h
      · split
        · exact wf_crlWait (hr.error_mem rfl)
        · exact wf_crlFault (hr.error_mem rfl)
        · split
          · exact hf _ _ (wf_emitRecord (hr.ok_mem rfl))
          · split
            · exact memWf_mk (wf_startLogs (wf_emitRecord (hr.ok_mem rfl)))
            · exact memWf_mk (wf_emitRecord (hr.ok_mem rfl))

theorem wf_execCrlPost {a b c scope} (h : MemWf s) : OutWf (execCrlPost a b c scope s) := by
  unfold execCrlPost
  -- a name for `scratchSpot`, so that its address arithmetic is not evaluated
  obtain ⟨spot, hs⟩ : ∃ f, f = scratchSpot := ⟨_, rfl⟩
  rw [← hs]
  refine wf_onePass h (fun _ _ _ _ h => ?_)
  dsimp only
  split
  · exact .error (wf_illegal h)
  · split
    · exact .error h
    · exact .error h
    · split
      · exact .error h
      · split
        · exact .error h
        · split
          · exact .error h
          · split
            · split
              · exact .error h
              · refine wf_andOk ?_ (fun _ _ h' => ?_)
                · split
                  · exact .ok h
                  · exact wf_andThen (wf_counterAccess h) (fun _ _ h => .ok h)
                · split
                  · exact .error h'
                  · exact .ok (wf_issueOp (wf_readSpans h'))
            · split
              · exact .error h
              · refine wf_andOk ?_ (fun _ _ h' => ?_)
                · split
                  · exact .ok h
                  · exact wf_andThen (wf_counterAccess h) (fun _ _ h => .ok h)
                · split
                  · exact .error h'
                  · exact .ok (wf_issueOp (wf_readSpans h'))

theorem wf_passWeight {op o n} (h : MemWf s) : MemWf (passWeight op o n s) := by
  unfold passWeight
  repeat' split
  all_goals exact h

theorem wf_execCandidateDelivery {op} (h : MemWf s) : OutWf (execCandidateDelivery op s) := by
  unfold execCandidateDelivery
  dsimp only
  split
  · exact .next h
  · split
    · split
      · exact .next h
      · split
        · split
          · exact .next h
          · refine .next (wf_endOp ?_)
            split
            · split
              · exact h
              · exact wf_passWeight h
            · refine wf_addCounter ?_
              split
              · exact h
              · exact wf_passWeight h
        · split
          · exact .next (wf_setBody h)
          · refine .next (wf_endOp ?_)
            split
            · split
              · exact wf_setBody h
              · exact wf_passWeight (memWf_mk (wf_setBody h))
            · refine wf_addCounter ?_
              split
              · exact wf_setBody h
              · exact wf_passWeight (memWf_mk (wf_setBody h))
    · split
      · exact .next h
      · split
        · split
          · exact .next h
          · refine .next (wf_setBody ?_)
            split
            · exact h
            · exact wf_passWeight h
        · split
          · exact .next (wf_setBody h)
          · refine .next (wf_setBody ?_)
            split
            · exact wf_setBody h
            · exact wf_passWeight (memWf_mk (wf_setBody h))
    · exact .next h

theorem wf_execCarillonSuspend {ctx} (h : MemWf s) : OutWf (execCarillonSuspend ctx s) := by
  unfold execCarillonSuspend
  split
  · exact .next h
  · split
    · exact .next h
    · exact .next (wf_leaveMerge h)

theorem wf_execCarillonResume {ctx} (h : MemWf s) : OutWf (execCarillonResume ctx s) := by
  unfold execCarillonResume
  repeat' split
  all_goals exact .next h

/-! ### Machine/Launch -/

theorem wf_retried {α : Type} {k : State → EngRes α} {who} (h : MemWf s)
    (hk : ∀ s, MemWf s → ResWf (k s)) : ResWf (retried who k s) := by
  unfold retried
  split
  · exact .error h
  · exact hk _ h

theorem wf_recordAdd {g who agents va amount} (h : MemWf s) :
    ResWf (recordAdd g who agents va amount s) := by
  unfold recordAdd
  split
  · rename_i e
    exact .error ((wf_retried h (fun _ h => wf_engineCounter h)).error_mem e)
  · rename_i e
    exact .ok ((wf_retried h (fun _ h => wf_engineCounter h)).error_mem e)
  · rename_i e
    split
    · rename_i e'
      exact .ok ((wf_counterAdd ((wf_retried h (fun _ h => wf_engineCounter h)).ok_mem e)).of_snd
        e')
    · rename_i e'
      exact .ok (wf_recordOverflow ((wf_counterAdd ((wf_retried h (fun _ h => wf_engineCounter
        h)).ok_mem e)).of_snd e'))

theorem wf_finAdd {g who agents rec_ can n} (h : MemWf s) :
    ResWf (finAdd g who agents rec_ can n s) := by
  unfold finAdd
  split
  · exact .ok h
  · exact wf_recordAdd h

theorem wf_queueCounter {qn q va add} (h : MemWf s) : ResWf (queueCounter qn q va add s) := by
  unfold queueCounter
  split
  · split
    · exact .ok h
    · exact .error h
  · exact wf_engineCounter h

theorem wf_writeStatus {q idx st result} (h : MemWf s) : MemWf (writeStatus q idx st result s) := by
  unfold writeStatus
  dsimp only
  refine wf_pokeHost _ _ ?_
  split
  · refine wf_pokeHost _ _ ?_
    split
    · exact h
    · exact wf_pokeHost _ _ (wf_pokeHost _ _ h)
  · split
    · exact h
    · exact wf_pokeHost _ _ (wf_pokeHost _ _ h)

theorem wf_completeCommand {c st result} (h : MemWf s) : MemWf (completeCommand c st result s) := by
  unfold completeCommand
  split
  · exact h
  · next q _ =>
    extract_lets r
    have hr : ResWf r := by
      unfold r
      split
      · exact .ok h
      · exact wf_engThen (wf_retried h (fun _ h => wf_queueCounter h)) (fun _ _ h => .ok h)
    clear_value r
    split
    · exact memWf_mk (hr.error_mem rfl)
    · extract_lets s1 s2 s3
      have h1 : MemWf s1 := by
        unfold s1
        split
        · exact hr.ok_mem rfl
        · exact hr.error_mem rfl
      have h3 : MemWf s3 := by
        unfold s3 s2
        split
        · exact memWf_mk (wf_writeStatus h1)
        · exact h1
      clear_value s3
      split
      · split
        · next e => exact (wf_counterAdd h3).of_snd e
        · next e => exact wf_recordOverflow ((wf_counterAdd h3).of_snd e)
      · exact h3

theorem wf_runCommand {c p} (h : MemWf s) : MemWf (runCommand c p s) := h

theorem wf_takeEntry {qn} (h : MemWf s) : MemWf (takeEntry qn s) := by
  unfold takeEntry
  dsimp only
  split
  · exact h
  · split
    · exact wf_pokeHost _ _ h
    · exact h

theorem wf_badCommand {c st} (h : MemWf s) : MemWf (badCommand c st s) :=
  wf_completeCommand (wf_takeEntry h)

theorem wf_afterAccess {α : Type} {r : EngRes α} {k : State → α → State} {c} (h : ResWf r)
    (hk : ∀ s a, MemWf s → MemWf (k s a)) : MemWf (afterAccess c r k) := by
  unfold afterAccess
  split
  · exact hk _ _ (h.ok_mem rfl)
  · exact h.error_mem rfl
  · exact wf_badCommand (h.error_mem rfl)

theorem wf_readLaunch {g va} (h : MemWf s) : ResWf (readLaunch g va s) := by
  unfold readLaunch
  refine wf_engThen (wf_engineRead h) (fun _ _ h => wf_engThen (wf_engineRead h) (fun _ _ h => ?_))
  dsimp only
  split
  · exact .ok h
  · exact wf_engThen (wf_engineRead h) (fun _ _ h => .ok h)

theorem wf_launchWeight {phase} (h : MemWf s) : OptWf (launchWeight phase s) := by
  unfold launchWeight
  split
  · exact .some h
  · split
    · exact .some h
    · split
      · exact .none
      · exact .some h

theorem wf_nodeWeight {qn q} (h : MemWf s) : MemWf (nodeWeight qn q s).2 := by
  unfold nodeWeight
  dsimp only
  split <;> exact h

theorem wf_startLaunch {c q b grid bad} (h : MemWf s) : OptStWf (startLaunch c q b grid bad s) := by
  unfold startLaunch
  have hw : OptWf (if c.queue < 2 ^ 20 then launchWeight q.phase s
      else some (nodeWeight c.queue q s)) := by
    split
    · exact wf_launchWeight h
    · exact .some (wf_nodeWeight h)
  dsimp only
  split
  · exact .none
  · rename_i e
    exact .some (wf_runCommand (wf_takeEntry (wf_modCtx (memWf_mk (hw.some_mem e)))))

theorem wf_tilesRoom {ctx g} (h : MemWf s) : MemWf (tilesRoom ctx g s) := by
  unfold tilesRoom
  dsimp only
  split <;> exact h

theorem wf_pickCores {n room} (h : MemWf s) : MemWf (pickCores n room s).2 := by
  induction n generalizing s room with
  | zero => exact h
  | succ n ih =>
    unfold pickCores
    dsimp only
    exact ih (wf_pickOne h)

theorem wf_allocate {unit g size} (h : MemWf s) : MemWf (allocate unit g size s) :=
  wf_modUnit (memWf_mk (wf_zeroRange _ _ h))

theorem wf_placeTeam {lid l unit k g base} (h : MemWf s) :
    MemWf (placeTeam lid l unit k g base s) := by
  unfold placeTeam
  dsimp only
  split
  · split
    · exact memWf_foldl (wf_inherit (wf_inherit (wf_tilesRoom (wf_modUnit (memWf_mk (wf_pickOne
        h)))))) fun _ _ h => wf_acquireFrom h
    · exact memWf_foldl (wf_inherit (wf_inherit (wf_tilesRoom (wf_modUnit (memWf_mk (wf_allocate
        (memWf_mk (wf_pickOne h)))))))) fun _ _ h => wf_acquireFrom h
  · split
    · exact memWf_foldl (wf_inherit (wf_inherit (wf_tilesRoom (wf_modUnit (memWf_mk (wf_pickOne
        h)))))) fun _ _ h => wf_acquireFrom h
    · exact memWf_foldl (wf_inherit (wf_inherit (wf_tilesRoom (wf_modUnit (memWf_mk (wf_allocate
        (memWf_mk (wf_pickOne h)))))))) fun _ _ h => wf_acquireFrom h

theorem wf_placeUnit {lid} (h : MemWf s) : OptStWf (placeUnit lid s) := by
  unfold placeUnit
  dsimp only
  split
  · exact .none
  · split
    · exact .none
    · split
      · exact .none
      · exact .none
      · exact .some (memWf_foldl (wf_pickCores (wf_inherit (wf_modCtx (memWf_mk (wf_pickOne
          (wf_pickOne h)))))) fun _ _ h => wf_placeTeam h)

theorem wf_placeAllUnits {lid n} (h : MemWf s) : OptStWf (placeAllUnits lid n s) := by
  induction n generalizing s with
  | zero => exact .some h
  | succ n ih =>
    unfold placeAllUnits
    split
    · exact .none
    · rename_i e
      exact ih ((wf_placeUnit h).some_mem e)

theorem wf_countUnplaced {lid l} (h : MemWf s) : MemWf (countUnplaced lid l s) := by
  unfold countUnplaced
  dsimp only
  split
  · split
    · rename_i e
      exact (wf_finAdd h).error_mem e
    · rename_i e
      exact memWf_mk ((wf_finAdd h).ok_mem e)
  · split
    · rename_i e
      exact (wf_finAdd h).error_mem e
    · rename_i e
      exact memWf_mk ((wf_finAdd h).ok_mem e)

theorem wf_execUnitPlacement {launch} (h : MemWf s) : OutWf (execUnitPlacement launch s) := by
  unfold execUnitPlacement
  dsimp only
  split
  · exact .next h
  · split
    · exact .next h
    · split
      · exact .next (wf_countUnplaced h)
      · split
        · split
          · rename_i e
            exact .next ((wf_placeAllUnits h).some_mem e)
          · split
            · split
              · exact .next (memWf_mk (wf_giveBack h))
              · exact .next h
            · split
              · split
                · exact .next (wf_runCommand (memWf_mk (wf_giveBack h)))
                · exact .next (wf_runCommand h)
              · split
                · exact .next (memWf_mk (wf_giveBack h))
                · exact .next h
        · split
          · rename_i e
            exact .next ((wf_placeUnit h).some_mem e)
          · exact .next h

theorem wf_removeUnit {unit u} (h : MemWf s) : MemWf (removeUnit unit u s) := by
  unfold removeUnit
  dsimp only
  refine memWf_mk (wf_modCtx ?_)
  split
  · exact wf_giveBack h
  · exact h

theorem wf_execUnitFinish {unit} (h : MemWf s) : OutWf (execUnitFinish unit s) := by
  unfold execUnitFinish
  split
  · exact .next h
  · next u _ =>
    split
    · exact .next h
    · next l _ =>
      have hs (agents) : MemWf (if l.crec = 0 then release agents
          { agent := agentLaunch u.launch, pos := .die 0, scope := 5, full := false, all := false,
            counter := none } s else s) := by
        split
        · exact wf_release h
        · exact h
      dsimp only
      split
      · exact .next h
      · split
        · split
          · rename_i e
            exact .next ((wf_finAdd h).error_mem e)
          · rename_i e
            exact .next (wf_modUnit ((wf_finAdd h).ok_mem e))
        · split
          · rename_i e
            exact .next ((wf_finAdd (hs ..)).error_mem e)
          · rename_i e
            refine .next (wf_removeUnit ?_)
            split
            · exact wf_acquireFrom (wf_acquireFrom ((wf_finAdd (hs ..)).ok_mem e))
            · exact wf_acquireFrom ((wf_finAdd (hs ..)).ok_mem e)

theorem wf_launchEnds {c lid} (h : MemWf s) : MemWf (launchEnds c lid s) := by
  unfold launchEnds
  dsimp only
  split
  · exact wf_completeCommand h
  · split
    · exact h
    · split
      · split
        · rename_i e
          exact (wf_finAdd h).error_mem e
        · rename_i e
          exact memWf_mk ((wf_finAdd h).ok_mem e)
      · split
        · split
          · rename_i e
            exact (wf_finAdd h).error_mem e
          · rename_i e
            exact memWf_mk ((wf_finAdd h).ok_mem e)
        · refine wf_completeCommand (memWf_mk (wf_inherit ?_))
          split
          · exact wf_giveBack h
          · exact h

theorem wf_execPhaseEnd {phase} (h : MemWf s) : OutWf (execPhaseEnd phase s) := by
  unfold execPhaseEnd
  dsimp only
  split
  · exact .next h
  · split
    · exact .next h
    · split
      · split
        · exact .next h
        · split
          · rename_i e
            exact .next ((wf_finAdd h).error_mem e)
          · rename_i e
            exact .next (memWf_mk ((wf_finAdd h).ok_mem e))
      · split
        · exact .next h
        · split
          · rename_i e
            exact .next ((wf_finAdd h).error_mem e)
          · rename_i e
            exact .next (memWf_mk ((wf_finAdd h).ok_mem e))

theorem wf_cancelReplay {p} (h : MemWf s) : MemWf (cancelReplay p s) := wf_cancelLaunches h

theorem wf_cancelPhase {ph} (h : MemWf s) : MemWf (cancelPhase ph s) :=
  wf_cancelLaunches (wf_cancelReplay h)

theorem wf_execSysCancel {l} (h : MemWf s) : OutWf (execSysCancel l s) := by
  unfold execSysCancel
  dsimp only
  split
  · exact .fault
  · split
    · exact .next h
    · split
      · exact .next h
      · split
        · exact .next (wf_stopPass h)
        · split
          · exact .next (wf_cancelLaunches (wf_advance h))
          · split
            · exact .next (wf_cancelReplay (wf_advance h))
            · exact .next (wf_cancelLaunches (wf_advance h))
          · split
            · exact .next (wf_cancelPhase (wf_advance h))
            · split
              · exact .next (wf_cancelReplay (wf_advance h))
              · exact .next (wf_cancelLaunches (wf_advance h))
          · exact .next (wf_cancelJob (wf_advance h))

/-! ### Machine/Commands -/

theorem wf_clearStatus {stat} (h : MemWf s) : MemWf (clearStatus stat s) := wf_pokeHost _ _ h

theorem wf_execQueueDoorbell {queue tail} (h : MemWf s) :
    OutWf (execQueueDoorbell queue tail s) := by
  unfold execQueueDoorbell
  dsimp only
  split
  · exact .next h
  · exact .next (memWf_mk (wf_inherit h))

theorem wf_execAdmdb {tail} (h : MemWf s) : OutWf (execAdmdb tail s) := by
  unfold execAdmdb
  dsimp only
  split
  · exact .next h
  · split
    · exact .next h
    · refine .next (memWf_mk (wf_inherit ?_))
      split
      · exact wf_clearStatus h
      · split <;> exact h

theorem wf_waitOver {c q} (h : MemWf s) : ResWf (waitOver c q s) := by
  unfold waitOver
  split
  · exact .ok h
  · exact wf_engThen (wf_retried h (fun _ h => wf_queueCounter h)) (fun _ _ h => .ok h)

theorem wf_recordCommand {c q k g} (h : MemWf s) : MemWf (recordCommand c q k g s) := by
  unfold recordCommand
  dsimp only
  split
  · split
    · refine wf_afterAccess (wf_retried h (fun _ h => wf_readLaunch h)) (fun _ _ h' => ?_)
      split
      · exact wf_completeCommand (wf_takeEntry h')
      · exact wf_badCommand h'
    · exact wf_completeCommand (wf_takeEntry h)
  · exact wf_badCommand h

theorem wf_command {start settle} {c admin} (h : MemWf s)
    (hs : ∀ q s, MemWf s → MemWf (start q s)) (ht : ∀ p s, MemWf s → MemWf (settle p s)) :
    OutWf (command c admin start settle s) := by
  unfold command
  dsimp only
  split
  · exact .next (wf_completeCommand h)
  · exact .next (ht _ _ h)
  · exact .next h
  · split
    · split
      · exact .next h
      · split
        · exact .next (wf_badCommand h)
        · split
          · exact .next (wf_completeCommand (wf_takeEntry h))
          · split
            · exact .next (wf_recordCommand h)
            · split
              · rename_i e
                exact .next ((wf_waitOver h).error_mem e)
              · rename_i e
                exact .next (wf_badCommand ((wf_waitOver h).error_mem e))
              · rename_i e
                exact .next (hs _ _ ((wf_waitOver h).ok_mem e))
              · rename_i e
                split
                · exact .next h
                · exact .next (hs _ _ (wf_acquireCounter ((wf_waitOver h).ok_mem e)))
    · split
      · exact .next h
      · split
        · exact .next (wf_badCommand h)
        · split
          · exact .next (wf_completeCommand (wf_takeEntry h))
          · split
            · exact .next (wf_recordCommand h)
            · split
              · rename_i e
                exact .next ((wf_waitOver h).error_mem e)
              · rename_i e
                exact .next (wf_badCommand ((wf_waitOver h).error_mem e))
              · rename_i e
                exact .next (hs _ _ ((wf_waitOver h).ok_mem e))
              · rename_i e
                split
                · exact .next h
                · exact .next (hs _ _ (wf_acquireCounter ((wf_waitOver h).ok_mem e)))

theorem wf_atOnce {f} {c} (h : MemWf s) (hf : ∀ q s, MemWf s → MemWf (f q s)) :
    OutWf (atOnce c f s) := wf_command h (fun _ _ h => hf _ _ h) (fun _ _ h => h)

theorem wf_goodCommand {c} (h : MemWf s) : MemWf (goodCommand c s) :=
  wf_completeCommand (wf_takeEntry h)

theorem wf_execUnknownCommand {c} (h : MemWf s) : OutWf (execUnknownCommand c s) :=
  wf_command h (fun _ _ h => wf_badCommand h) (fun _ _ h => h)

theorem wf_execSignal {c} (h : MemWf s) : OutWf (execSignal c s) := by
  unfold execSignal
  refine wf_atOnce h (fun _ _ h => ?_)
  split
  · exact wf_goodCommand h
  · split
    · exact wf_badCommand h
    · refine wf_afterAccess (wf_retried h (fun _ h => wf_engineCounter h)) (fun _ _ h => ?_)
      split
      · rename_i e
        exact wf_goodCommand ((wf_counterAdd h).of_snd e)
      · rename_i e
        exact wf_goodCommand (wf_recordOverflow ((wf_counterAdd h).of_snd e))

theorem wf_execBufDeclare {c} (h : MemWf s) : OutWf (execBufDeclare c s) := by
  unfold execBufDeclare
  refine wf_atOnce h (fun _ _ h => ?_)
  dsimp only
  split
  · exact wf_badCommand h
  · exact wf_goodCommand (wf_modCtx h)

theorem wf_execLaunch {c} (h : MemWf s) : OutWf (execLaunch c s) := by
  unfold execLaunch
  refine wf_command h (fun q s h => ?_) (fun p s h => ?_)
  · extract_lets grid b binds bad gs src g writes r
    have hr : ResWf r := by
      unfold r
      exact resWf_foldl (wf_retried h (fun _ h => .ok h)) (fun _ _ h => wf_engThen h (fun _ _ h =>
        wf_engThen (wf_engineSpots h) (fun _ _ h => .ok h)))
    clear_value r
    dsimp only
    split
    · refine wf_afterAccess (wf_retried h (fun _ h => wf_readLaunch h)) (fun _ _ h => ?_)
      split
      · exact wf_badCommand h
      · exact memWf_getD (wf_startLaunch h) h
    · refine wf_afterAccess hr (fun _ _ h => ?_)
      split
      · exact h
      · rename_i e
        split
        · exact memWf_mk (memWf_foldl ((wf_startLaunch h).some_mem e) fun _ _ h => wf_writeCells h)
        · exact memWf_foldl ((wf_startLaunch h).some_mem e) fun _ _ h => wf_writeCells h
  · split
    · exact wf_launchEnds h
    · exact h

theorem wf_execGraphBegin {c} (h : MemWf s) : OutWf (execGraphBegin c s) := by
  unfold execGraphBegin
  refine wf_atOnce h (fun _ _ h => ?_)
  split
  · exact wf_badCommand h
  · exact wf_goodCommand h

theorem wf_execGraphEnd {c} (h : MemWf s) : OutWf (execGraphEnd c s) := by
  unfold execGraphEnd
  refine wf_atOnce h (fun _ _ h => ?_)
  split
  · exact wf_badCommand h
  · exact wf_goodCommand (wf_modCtx h)

theorem wf_startReplay {c q k g params held doomed} (h : MemWf s) :
    MemWf (startReplay c q k g params held doomed s) :=
  wf_inherit (wf_runCommand h)

theorem wf_readParams {g va} (h : MemWf s) : ResWf (readParams g va s) :=
  wf_engThen (wf_engineRead h) (fun _ _ h => .ok (wf_acquireFrom h))

theorem wf_replayEnds {c pq} (h : MemWf s) : MemWf (replayEnds c pq s) := by
  unfold replayEnds
  dsimp only
  split
  · exact wf_completeCommand h
  · split
    · exact h
    · split
      · refine wf_completeCommand (wf_inherit (memWf_mk (wf_giveBack ?_)))
        split <;> exact h
      · exact wf_completeCommand (wf_inherit h)

theorem wf_execGraphReplay {c} (h : MemWf s) : OutWf (execGraphReplay c s) := by
  unfold execGraphReplay
  refine wf_command h (fun _ _ h => ?_) (fun _ _ h' => ?_)
  · split
    · exact wf_badCommand h
    · refine wf_afterAccess (wf_retried h (fun _ h => wf_readParams h)) (fun _ _ h => ?_)
      split
      · exact h
      · rename_i e
        exact wf_startReplay (wf_takeEntry ((wf_launchWeight h).some_mem e))
  · split
    · exact wf_replayEnds h'
    · exact h'

theorem wf_execPhaseOpen {c} (h : MemWf s) : OutWf (execPhaseOpen c s) := by
  unfold execPhaseOpen
  refine wf_atOnce h (fun _ _ h => ?_)
  dsimp only
  split
  · exact wf_badCommand h
  · exact wf_goodCommand h

theorem wf_execPhaseClose {c} (h : MemWf s) : OutWf (execPhaseClose c s) := by
  unfold execPhaseClose
  refine wf_atOnce h (fun _ _ h => ?_)
  dsimp only
  split
  · exact wf_badCommand h
  · split
    · split
      · exact wf_badCommand h
      · exact wf_goodCommand (wf_giveBack h)
    · split
      · exact wf_badCommand h
      · exact wf_goodCommand (wf_giveBack h)

theorem wf_doomNext {ctx p} (h : MemWf s) : MemWf (doomNext ctx p s) := h

theorem wf_doomIters {ctx p} (h : MemWf s) : MemWf (doomIters ctx p s) := h

theorem wf_execCancel {c} (h : MemWf s) : OutWf (execCancel c s) := by
  unfold execCancel
  refine wf_atOnce h (fun _ _ h => ?_)
  dsimp only
  split
  · exact wf_goodCommand (wf_cancelLaunches (wf_doomNext h))
  · exact wf_goodCommand (wf_cancelReplay (wf_doomIters (wf_doomNext h)))
  · exact wf_goodCommand (memWf_foldl h fun _ _ h => wf_cancelPhase h)
  · refine wf_goodCommand ?_
    split
    · split
      · exact wf_cancelJob h
      · exact h
    · split
      · exact wf_cancelJob h
      · exact h
  · exact wf_badCommand h

theorem wf_execCrlBind {c} (h : MemWf s) : OutWf (execCrlBind c s) := by
  unfold execCrlBind
  refine wf_atOnce h (fun _ _ h => ?_)
  split
  · exact wf_badCommand h
  · refine wf_afterAccess (wf_retried h (fun _ h => wf_engineRead h)) (fun _ _ h => ?_)
    split
    · exact wf_badCommand h
    · exact wf_goodCommand h

theorem wf_freeCrl {n} (h : MemWf s) : MemWf (freeCrl n s) := by
  unfold freeCrl
  split
  · exact h
  · exact wf_leaveMerge (wf_giveBackAll h)

theorem wf_execCrlFree {c} (h : MemWf s) : OutWf (execCrlFree c s) := by
  unfold execCrlFree
  refine wf_atOnce h (fun _ _ h => ?_)
  split
  · exact wf_badCommand h
  · split
    · exact h
    · exact wf_goodCommand (wf_freeCrl h)

theorem wf_execCrlLoad {c} (h : MemWf s) : OutWf (execCrlLoad c s) := by
  unfold execCrlLoad
  refine wf_atOnce h (fun _ _ h => ?_)
  split
  · exact wf_badCommand h
  · split
    · exact wf_badCommand h
    · exact wf_afterAccess (wf_retried h (fun _ h => wf_engineRead h)) (fun _ _ h => wf_goodCommand
        h)

theorem wf_execCrlRestart {c} (h : MemWf s) : OutWf (execCrlRestart c s) := by
  unfold execCrlRestart
  refine wf_atOnce h (fun _ _ h => ?_)
  split
  · exact wf_badCommand h
  · split
    · exact wf_badCommand h
    · exact wf_goodCommand h

theorem wf_commitBatch {die k im} (h : MemWf s) : MemWf (commitBatch die k im s) := h

theorem wf_execBatchUpdate {c} (h : MemWf s) : OutWf (execBatchUpdate c s) := by
  unfold execBatchUpdate
  refine wf_atOnce h (fun _ _ h => ?_)
  split
  · exact wf_badCommand h
  · refine wf_afterAccess (wf_retried h (fun _ h => wf_engineRead h)) (fun _ _ h => ?_)
    split
    · exact wf_badCommand h
    · exact wf_goodCommand (wf_commitBatch h)

theorem wf_pokeCells {o ord cells} (h : MemWf s) : MemWf (pokeCells o ord cells s) := by
  unfold pokeCells
  refine memWf_foldl h fun _ _ h => wf_appendUnit (memWf_foldl h fun _ _ h => ?_)
  split
  · exact wf_pokeBytes _ _ h
  · exact h

theorem wf_iterGoes {c ord asked doomed w} (h : MemWf s) :
    MemWf (iterGoes c ord asked doomed w s) := by
  unfold iterGoes
  dsimp only
  split
  · exact h
  · split
    · exact h
    · split
      · split
        · exact h
        · exact wf_runCommand (wf_startLogs h)
      · split
        · exact wf_completeCommand (wf_giveBackAll h)
        · split
          · rename_i e
            exact (wf_retried h (fun _ h => wf_readParams h)).error_mem e
          · rename_i e
            exact wf_completeCommand (wf_giveBackAll ((wf_retried h (fun _ h => wf_readParams
              h)).error_mem e))
          · rename_i e
            exact wf_startReplay ((wf_retried h (fun _ h => wf_readParams h)).ok_mem e)

theorem wf_execBatchIter {c} (h : MemWf s) : OutWf (execBatchIter c s) := by
  unfold execBatchIter
  refine wf_command h (fun _ _ h => ?_) (fun _ _ h' => ?_)
  · dsimp only
    split
    · exact wf_badCommand h
    · split
      · exact wf_badCommand h
      · refine wf_afterAccess (wf_retried h (fun _ h => wf_engThen (wf_engineSpots h) (fun _ _ h =>
          wf_engThen (wf_engineSpots h) (fun _ _ h => .ok h)))) (fun _ _ h => ?_)
        split
        · exact h
        · rename_i e
          refine wf_iterGoes (wf_runCommand (memWf_foldl (wf_pokeCells (wf_takeEntry (memWf_mk
            ((wf_launchWeight h).some_mem e)))) fun _ _ h => ?_))
          split
          · exact wf_pickOne h
          · exact wf_pokeCells (wf_pickOne h)
  · split
    · exact wf_iterGoes h'
    · exact wf_replayEnds h'
    · exact h'

/-! ### Machine/Mapping -/

theorem wf_startShoot {ctx lo hi frames} (h : MemWf s) : MemWf (startShoot ctx lo hi frames s).2 :=
  memWf_mk (wf_pokeNat _ _ _ h)

theorem wf_execShootdown {sd agent} (h : MemWf s) : OutWf (execShootdown sd agent s) := by
  unfold execShootdown
  dsimp only
  repeat' split
  all_goals exact .next h

theorem wf_releaseFrames {ctx frames} (h : MemWf s) : MemWf (releaseFrames ctx frames s) :=
  wf_modCtx (memWf_foldl h fun _ _ h => wf_forgetRange _ _ h)

theorem wf_dropShoots {sds} (h : MemWf s) : MemWf (dropShoots sds s) :=
  memWf_mk (memWf_foldl h fun _ _ h => wf_acquireCounter h)

theorem wf_execShootdownAgentAdd {sd agent} (h : MemWf s) :
    OutWf (execShootdownAgentAdd sd agent s) := by
  unfold execShootdownAgentAdd
  dsimp only
  split
  · exact .next h
  · split
    · exact .next h
    · split
      · exact .next (memWf_mk (wf_counterAdd h))
      · exact .next (wf_releaseFrames (wf_dropShoots (memWf_mk (wf_counterAdd h))))

theorem wf_shootEnds {c p} (h : MemWf s) : MemWf (shootEnds c p s) := by
  unfold shootEnds
  split
  · split
    · exact wf_completeCommand (wf_releaseFrames (wf_dropShoots h))
    · exact h
  · exact h

theorem wf_freeOf {die large secure} (h : MemWf s) : OptWf (freeOf die large secure s) := by
  unfold freeOf
  dsimp only
  split
  · exact wf_freeFrame h
  · split
    · exact .none
    · exact optWf_map_value (fun _ => wf_draw h)

theorem wf_mapPage {ctx e p3 large va k} (h : MemWf s) : MapWf (mapPage ctx e p3 large va k s) := by
  unfold mapPage
  extract_lets die put owns put'
  have hp : ∀ e s, MemWf s → MapWf (put e s) := by
    intro e s h
    unfold put
    split
    · rename_i e
      exact .ok (wf_releasePage ((wf_putLeaf h).some_mem e))
    · exact .error
  clear_value put
  have ho : ∀ fs s, MemWf s → MemWf (owns fs s) := fun fs s h => wf_modCtx h
  have hp' : ∀ e s, MemWf s → MapWf (put' e s) := by
    intro e s h
    unfold put'
    split
    · rename_i e
      split
      · exact .ok ((hp _ _ h).ok_mem e)
      · split
        · rename_i e'
          exact .ok ((wf_tileFor ((hp _ _ h).ok_mem e)).some_mem e')
        · exact .error
    · exact hp _ _ h
  clear_value put' owns
  split
  · split
    · split
      · exact .error
      · rename_i e
        split
        · rename_i e'
          exact hp' _ _ ((wf_withPacks (memWf_foldl (ho _ _ ((wf_freeOf h).some_mem e)) fun _ _ h
            => wf_zeroFrame h)).some_mem e')
        · exact .error
    · split
      · split
        · rename_i e
          exact hp' _ _ ((wf_withPacks (ho _ _ h)).some_mem e)
        · exact .error
      · exact .error
  · split
    · split
      · exact .error
      · rename_i e
        split
        · rename_i e'
          exact .ok (wf_tileOf ((hp _ _ (wf_zeroFrame (wf_modCtx ((wf_freeFrame h).some_mem
            e)))).ok_mem e'))
        · exact hp _ _ (wf_zeroFrame (wf_modCtx ((wf_freeFrame h).some_mem e)))
    · exact hp _ _ h

theorem wf_mapPages {ctx e p3 fuel va k n} (h : MemWf s) :
    MapWf (mapPages ctx e p3 fuel va k n s) := by
  fun_induction mapPages ctx e p3 fuel va k n s with
  | case1 => exact .ok h
  | case2 => exact .ok h
  | case3 => exact .error
  | case4 _ _ _ _ _ _ _ _ _ _ e1 _ e2 ih =>
    exact ih ((wf_mapPage ((wf_choose h).of_snd e1)).ok_mem e2)

theorem wf_execMemMap {c} (h : MemWf s) : OutWf (execMemMap c s) := by
  unfold execMemMap
  refine wf_atOnce h (fun _ _ h => ?_)
  dsimp only
  split
  · exact wf_badCommand h
  · split
    · exact wf_badCommand h
    · split
      · exact wf_badCommand h
      · split
        · rename_i e
          exact wf_goodCommand ((wf_mapPages h).ok_mem e)
        · exact wf_badCommand h

theorem wf_markSplitting {ctx va} (h : MemWf s) : MemWf (markSplitting ctx va s) := by
  unfold markSplitting
  dsimp only
  split
  · split
    · exact wf_setEntry h
    · exact h
  · exact h

theorem wf_unmarkSplitting {ctx va} (h : MemWf s) : MemWf (unmarkSplitting ctx va s) := by
  unfold unmarkSplitting
  dsimp only
  split
  · split
    · exact wf_setEntry h
    · exact h
  · exact h

theorem wf_splitPage {ctx va} (h : MemWf s) : OptStWf (splitPage ctx va s) := by
  unfold splitPage
  split
  · exact .none
  · split
    · exact optStWf_map (wf_childTable h) (fun _ h => h)
    · exact .some h

theorem wf_splitAll {ctx as} (h : MemWf s) : OptWf (splitAll ctx as s) := by
  induction as generalizing s with
  | nil => exact .some h
  | cons a as ih =>
    unfold splitAll
    dsimp only
    split
    · exact .none
    · rename_i e
      exact optWf_map (ih (wf_startShoot ((wf_splitPage h).some_mem e))) (fun _ h => h)

theorem wf_dropTile {k} (h : MemWf s) : MemWf (dropTile k s) := by
  unfold dropTile
  dsimp only
  split
  · exact h
  · exact memWf_mk (wf_settleTiles (wf_wakeTile (wf_giveBackAll h)))

theorem wf_changeLeaves {ctx va n f} (h : MemWf s) : MemWf (changeLeaves ctx va n f s).2 := by
  unfold changeLeaves
  refine memWf_foldl_snd h fun _ _ h => ?_
  dsimp only
  split
  · exact h
  · split
    · exact h
    · exact wf_setEntry h

theorem wf_moveWorld {ctx secure ps} (h : MemWf s) : OptWf (moveWorld ctx secure ps s) := by
  induction ps generalizing s with
  | nil => exact .some h
  | cons p ps ih =>
    unfold moveWorld
    dsimp only
    split
    · exact .none
    · rename_i e
      split
      · exact .none
      · rename_i e'
        refine optWf_map ?_ (fun _ h => h)
        refine ih ?_
        split
        · exact memWf_foldl ((wf_withPacks (wf_modCtx ((wf_freeOf h).some_mem e))).some_mem e') fun
            _ _ h => wf_moveFrame _ _ h
        · split
          · exact wf_setEntry (memWf_foldl ((wf_withPacks (wf_modCtx ((wf_freeOf h).some_mem
              e))).some_mem e') fun _ _ h => wf_moveFrame _ _ h)
          · exact memWf_foldl ((wf_withPacks (wf_modCtx ((wf_freeOf h).some_mem e))).some_mem e')
              fun _ _ h => wf_moveFrame _ _ h

theorem wf_changeRange {c ctx} (h : MemWf s) : MemWf (changeRange c ctx s) := by
  unfold changeRange
  extract_lets va n prot unmap tiles
  have hw : OptWf (if unmap then some ([], s) else
      moveWorld ctx (entryBit c.p2 6) (wrongWorld s ctx va n (entryBit c.p2 6)) s) := by
    split
    · exact .some h
    · exact wf_moveWorld h
  dsimp only
  split
  · exact wf_completeCommand h
  · rename_i e
    exact wf_runCommand (wf_startShoot (wf_changeLeaves (memWf_foldl (hw.some_mem e) fun _ _ h =>
      wf_dropTile h)))

theorem wf_changeMapping {c} (h : MemWf s) : OutWf (changeMapping c s) := by
  unfold changeMapping
  refine wf_command h (fun _ _ h => ?_) (fun _ _ h' => ?_)
  · split
    · exact wf_badCommand h
    · split
      · exact wf_badCommand h
      · split
        · exact wf_changeRange (wf_takeEntry h)
        · exact wf_runCommand (wf_takeEntry (memWf_foldl h fun _ _ h => wf_markSplitting h))
  · split
    · split
      · exact h'
      · split
        · exact wf_completeCommand (memWf_foldl h' fun _ _ h => wf_unmarkSplitting h)
        · rename_i e
          exact wf_runCommand ((wf_splitAll h').some_mem e)
    · split
      · split
        · exact wf_changeRange (wf_dropShoots h')
        · exact h'
      · exact h'
    · exact wf_shootEnds h'

theorem wf_execTileEvict {c} (h : MemWf s) : OutWf (execTileEvict c s) := by
  unfold execTileEvict
  refine wf_command h (fun _ _ h => ?_) (fun _ _ h => wf_shootEnds h)
  dsimp only
  split
  · exact wf_badCommand h
  · split
    · exact wf_badCommand h
    · split
      · split
        · exact wf_badCommand h
        · split
          · exact wf_goodCommand h
          · split
            · exact wf_badCommand h
            · rename_i e
              split
              · exact (wf_tileFor h).some_mem e
              · split
                · exact wf_badCommand ((wf_tileFor h).some_mem e)
                · rename_i e'
                  exact wf_runCommand (wf_takeEntry (wf_startShoot (memWf_mk ((wf_putLeaf
                    ((wf_tileFor h).some_mem e)).some_mem e'))))
      · split
        · exact wf_badCommand h
        · split
          · exact wf_goodCommand h
          · split
            · exact wf_badCommand h
            · rename_i e
              split
              · exact (wf_tileFor h).some_mem e
              · split
                · exact wf_badCommand ((wf_tileFor h).some_mem e)
                · rename_i e'
                  exact wf_runCommand (wf_takeEntry (wf_startShoot (memWf_mk ((wf_putLeaf
                    ((wf_tileFor h).some_mem e)).some_mem e'))))

theorem wf_replyFails {n st} (h : MemWf s) : MemWf (replyFails n st s) := h

theorem wf_replyMaps {n m e fill} (h : MemWf s) : MemWf (replyMaps n m e fill s).1 := by
  unfold replyMaps
  extract_lets addr small1 small2 small va f tile size s1 s2
  have h1 : MemWf s1 := by
    unfold s1
    split
    · exact h
    · exact wf_copyRange _ _ _ h
  have h2 : MemWf s2 := wf_modCtx h1
  clear_value s2 tile
  split; next now _ _ =>
  extract_lets leaf
  clear_value leaf small
  split
  · split
    · exact wf_replyFails h
    · split
      · exact h
      · split
        · exact wf_replyFails h2
        · rename_i e
          split
          · exact memWf_mk ((wf_withPacks h2).some_mem e)
          · split
            · exact wf_replyFails ((wf_withPacks h2).some_mem e)
            · rename_i e'
              refine wf_releasePage (memWf_mk (OptStWf.some_mem (optStWf_bind (wf_putLeaf
                ((wf_withPacks h2).some_mem e)) (fun _ h' => ?_)) e'))
              split
              · exact optStWf_map (wf_tileFor h') (fun _ h => h)
              · exact .some h'
  · split
    · exact wf_replyFails h
    · split
      · exact h
      · split
        · exact wf_replyFails h2
        · rename_i e
          split
          · exact memWf_mk ((wf_withPacks h2).some_mem e)
          · split
            · exact wf_replyFails ((wf_withPacks h2).some_mem e)
            · rename_i e'
              refine wf_releasePage (memWf_mk (OptStWf.some_mem (optStWf_bind (wf_putLeaf
                ((wf_withPacks h2).some_mem e)) (fun _ h => ?_)) e'))
              split
              · exact optStWf_map (wf_tileFor h) (fun _ h => h)
              · exact .some h

theorem wf_execFaultReply {c} (h : MemWf s) : OutWf (execFaultReply c s) := by
  unfold execFaultReply
  refine wf_atOnce h (fun _ _ h => ?_)
  dsimp only
  refine wf_completeCommand (wf_takeEntry (wf_readHead ?_))
  split
  · exact h
  · split
    · exact h
    · split
      · exact h
      · split
        · split
          · exact wf_replyMaps (wf_choose h)
          · exact wf_replyFails (wf_choose h)
        · split
          · exact wf_replyMaps (wf_choose h)
          · exact wf_replyFails (wf_choose h)

theorem wf_pickN {α : Type} {n} {l : List α} (h : MemWf s) : MemWf (pickN n l s).2 := by
  induction n generalizing s l with
  | zero => exact h
  | succ n ih =>
    unfold pickN
    dsimp only
    split
    · exact wf_choose h
    · exact ih (wf_choose h)

theorem wf_fillPool {ctx die n} (h : MemWf s) : OptStWf (fillPool ctx die n s) := by
  induction n generalizing s with
  | zero => exact .some h
  | succ n ih =>
    unfold fillPool
    split
    · exact .none
    · rename_i e
      exact ih (wf_modCtx (wf_zeroFrame ((wf_freeFrame h).some_mem e)))

theorem wf_execCtxCreate {c} (h : MemWf s) : OutWf (execCtxCreate c s) := by
  unfold execCtxCreate
  refine wf_command h (fun _ s h => ?_) (fun _ _ h => h)
  extract_lets b n reach fl
  split
  · exact wf_badCommand h
  · split
    · exact wf_badCommand h
    · split
      · exact wf_badCommand h
      · split
        · exact wf_badCommand h
        · split
          · exact wf_badCommand h
          · split; next c0 s1 e =>
            have h1 := (wf_pickN h).of_snd e
            split; next c1 s1 e =>
            have h1 := (wf_pickN h1).of_snd e
            extract_lets x s2 built
            have h2 : MemWf s2 := h1
            have hb : OptStWf built := by
              unfold built
              clear_value s2
              split
              · exact .none
              · split
                · exact .none
                · rename_i e
                  split
                  · exact .none
                  · rename_i e'
                    exact optStWf_bind (wf_fillPool (wf_modCtx ((wf_newTable ((wf_newTable
                      h2).some_mem e)).some_mem e'))) (fun _ h => wf_fillPool h)
            clear_value built
            split
            · exact wf_badCommand h
            · exact wf_completeCommand (wf_takeEntry (wf_pokeBytes _ _ (hb.some_mem rfl)))

theorem wf_removeContext {ctx} (h : MemWf s) : MemWf (removeContext ctx s) := h

theorem wf_destroyEnds {c ctx} (h : MemWf s) : MemWf (destroyEnds c ctx s) := by
  unfold destroyEnds
  dsimp only
  split
  · exact h
  · split
    · exact memWf_foldl (memWf_foldl h fun _ _ h => wf_dropTile h) fun _ _ h => wf_freeCrl h
    · exact wf_completeCommand (wf_removeContext (memWf_foldl (memWf_foldl h fun _ _ h =>
        wf_dropTile h) fun _ _ h => wf_freeCrl h))

theorem wf_execCtxDestroy {c} (h : MemWf s) : OutWf (execCtxDestroy c s) := by
  unfold execCtxDestroy
  refine wf_command h (fun _ _ h => ?_) (fun _ _ h' => ?_)
  · dsimp only
    split
    · exact wf_badCommand h
    · split
      · exact wf_badCommand h
      · split
        · exact wf_badCommand h
        · exact wf_runCommand (wf_takeEntry (wf_modCtx (memWf_mk (wf_cancelJob h))))
  · split
    · exact wf_destroyEnds h'
    · exact h'

theorem wf_execQueueCreate {c} (h : MemWf s) : OutWf (execQueueCreate c s) := by
  unfold execQueueCreate
  refine wf_command h (fun _ _ h => ?_) (fun _ _ h => h)
  dsimp only
  split
  · exact wf_badCommand h
  · split
    · exact wf_badCommand h
    · split
      · exact wf_badCommand h
      · split
        · exact wf_badCommand h
        · split
          · exact wf_badCommand h
          · exact wf_goodCommand (wf_clearStatus h)

theorem wf_execQueueDestroy {c} (h : MemWf s) : OutWf (execQueueDestroy c s) := by
  unfold execQueueDestroy
  refine wf_command h (fun _ _ h => ?_) (fun _ _ h' => ?_)
  · dsimp only
    split
    · exact wf_badCommand h
    · split
      · exact wf_badCommand h
      · split
        · exact wf_badCommand h
        · exact wf_runCommand (wf_takeEntry h)
      · exact wf_badCommand h
  · dsimp only
    split
    · split
      · split
        · exact wf_completeCommand h'
        · exact h'
      · exact wf_completeCommand h'
    · exact h'

/-! ### Machine/Preempt -/

theorem wf_modCtxFrags {ctx g} (h : MemWf s) : MemWf (modCtxFrags ctx g s) := h

theorem wf_stopWaiting {i} (h : MemWf s) : MemWf (stopWaiting i s) := h

theorem wf_execPreemptHalt {ctx} (h : MemWf s) : OutWf (execPreemptHalt ctx s) := by
  unfold execPreemptHalt
  dsimp only
  split
  · exact .next h
  · split
    · exact .next h
    · exact .next (wf_modCtx (memWf_foldl h fun _ _ h => wf_stopWaiting h))

theorem wf_performAll {ctx} (h : MemWf s) : MemWf (performAll ctx s) :=
  memWf_foldl h fun _ _ h => wf_release h

theorem wf_fillSlices {ctx c} (h : MemWf s) : MemWf (fillSlices ctx c s) := by
  unfold fillSlices
  refine memWf_foldl h fun s g h => ?_
  extract_lets s'
  have h' : MemWf s' := by
    unfold s'
    split
    · split
      · exact h
      · exact wf_modCtx h
    · exact h
  exact h'

theorem wf_execPreemptSave {ctx} (h : MemWf s) : OutWf (execPreemptSave ctx s) := by
  unfold execPreemptSave
  split
  · exact .next h
  · split
    · exact .next h
    · exact .next (wf_fillSlices (wf_performAll (wf_modCtx h)))

theorem wf_execPreemptSwapDone {ctx} (h : MemWf s) : OutWf (execPreemptSwapDone ctx s) := by
  unfold execPreemptSwapDone
  split
  · exact .next h
  · split
    · exact .next h
    · exact .next (wf_modCtx h)

theorem wf_execRestore {ctx} (h : MemWf s) : OutWf (execRestore ctx s) := by
  unfold execRestore
  split
  · exact .next h
  · split
    · exact .next h
    · exact .next (wf_modCtx h)

theorem wf_restoreDivisions {ctx c} (h : MemWf s) : MemWf (restoreDivisions ctx c s) := h

theorem wf_takeBack {ctx c} (h : MemWf s) : MemWf (takeBack ctx c s) :=
  memWf_foldl (wf_modCtx h) fun _ _ h => wf_tilesRoom h

theorem wf_execRestoreDone {ctx} (h : MemWf s) : OutWf (execRestoreDone ctx s) := by
  unfold execRestoreDone
  split
  · exact .next h
  · split
    · exact .next h
    · exact .next (wf_modCtx (wf_modCtxFrags (wf_restoreDivisions (wf_takeBack h))))

/-! ### Machine/Fabric -/

theorem wf_tryAccess {α : Type} {r : EngRes α} {who} (h : MemWf s) (hr : ResWf r) :
    ResWf (tryAccess who r s) := by
  unfold tryAccess
  split
  · exact .error h
  · exact hr

theorem wf_countTaken {ring r} (h : MemWf s) : MemWf (countTaken ring r s) := by
  unfold countTaken
  dsimp only
  split
  · exact memWf_foldl h fun _ _ h => wf_endOp h
  · exact memWf_foldl h fun _ _ h => wf_endOp h

theorem wf_returnHeld {ring i} (h : MemWf s) : MemWf (returnHeld ring i s) :=
  memWf_foldl h fun _ _ h => wf_giveBack h

theorem wf_enterDescr {ring r b data stat finish} (h : MemWf s) :
    MemWf (enterDescr ring r b data stat finish s) :=
  wf_countTaken h

theorem wf_takeDescr {ring r g a} (h : MemWf s) : MemWf (takeDescr ring r g a s) := by
  unfold takeDescr
  split
  · next e => exact (wf_tryAccess h (wf_engineRead h)).error_mem e
  · next e => exact wf_returnHeld (wf_countTaken ((wf_tryAccess h (wf_engineRead h)).error_mem e))
  · next s b e =>
    have h := (wf_tryAccess h (wf_engineRead h)).ok_mem e
    extract_lets stat
    have hw : ResWf (tryAccess g.agent (engineWrite g none ((a + 40 : Nat) : Int) (natBytes 8 1) s) s) :=
      wf_tryAccess h (wf_engineWrite h)
    revert hw
    generalize tryAccess g.agent (engineWrite g none ((a + 40 : Nat) : Int) (natBytes 8 1) s) s = w
    intro hw
    split
    · exact hw.error_mem rfl
    · extract_lets s1
      have h1 : MemWf s1 := by
        unfold s1
        split
        · exact hw.ok_mem rfl
        · exact hw.error_mem rfl
      clear_value s1
      split
      · exact wf_enterDescr h1
      · split
        · exact wf_enterDescr h1
        · split
          · rename_i e
            exact (wf_tryAccess h1 (wf_engineRead h1)).error_mem e
          · rename_i e
            exact wf_enterDescr ((wf_tryAccess h1 (wf_engineRead h1)).error_mem e)
          · rename_i e
            exact wf_enterDescr ((wf_tryAccess h1 (wf_engineRead h1)).ok_mem e)

theorem wf_execDescriptorTake {ring} (h : MemWf s) : OutWf (execDescriptorTake ring s) := by
  unfold execDescriptorTake
  dsimp only
  split
  · exact .next h
  · split
    · rename_i e
      exact .next ((wf_tryAccess h (wf_engineCounter h)).error_mem e)
    · rename_i e
      split
      · split
        · exact .next ((wf_tryAccess h (wf_engineCounter h)).ok_mem e)
        · exact .next (wf_takeDescr (wf_acquireCounter ((wf_tryAccess h (wf_engineCounter
            h)).ok_mem e)))
      · split
        · exact .next ((wf_tryAccess h (wf_engineCounter h)).ok_mem e)
        · exact .next (wf_takeDescr (wf_acquireCounter ((wf_tryAccess h (wf_engineCounter
            h)).ok_mem e)))

theorem wf_dropDescr {o} (h : MemWf s) : MemWf (dropDescr o s) := memWf_mk (wf_returnHeld h)

theorem wf_finalStatus {g o cause remote} (h : MemWf s) :
    MemWf (finalStatus g o cause remote s).2 := by
  unfold finalStatus
  split
  · exact wf_drawBytes h
  · exact h

theorem wf_endDescr {o} (h : MemWf s) : MemWf (endDescr o s) := by
  unfold endDescr
  dsimp only
  split
  · exact h
  · split
    · split
      · exact h
      · exact wf_startLogs h
    · split
      · exact wf_dropDescr h
      · split
        · rename_i e
          exact (wf_tryAccess h (wf_engineCounter h)).error_mem e
        · rename_i e
          exact wf_dropDescr ((wf_tryAccess h (wf_engineCounter h)).error_mem e)
        · rename_i e
          exact wf_dropDescr (wf_addCounter ((wf_tryAccess h (wf_engineCounter h)).ok_mem e))

theorem wf_execDescriptorAck {ring i cause remote} (h : MemWf s) :
    OutWf (execDescriptorAck ring i cause remote s) := by
  unfold execDescriptorAck
  dsimp only
  split
  · exact .next h
  · split
    · exact .next h
    · split
      · exact .next (wf_endDescr h)
      · split
        · rename_i e
          exact .next (memWf_mk ((wf_tryAccess h (wf_engineSpots h)).error_mem e))
        · rename_i e
          exact .next (wf_endDescr (memWf_mk ((wf_tryAccess h (wf_engineSpots h)).error_mem e)))
        · rename_i e
          exact .next (wf_endDescr (memWf_mk (wf_writeCells (wf_finalStatus ((wf_tryAccess h
            (wf_engineSpots h)).ok_mem e)))))

theorem wf_replied {op m cause} (h : MemWf s) : MemWf (replied op m cause s) := h

theorem wf_holdInbound {x} (h : MemWf s) : MemWf (holdInbound x s) := h

theorem wf_settleInbound {x} (h : MemWf s) : MemWf (settleInbound x s) := by
  unfold settleInbound
  dsimp only
  split
  · exact wf_holdInbound h
  · exact wf_replied (wf_release h)

theorem wf_partWritten {g need a n} (h : MemWf s) : MemWf (partWritten g need a n s) :=
  wf_writeCells (wf_pickSome (wf_drawBytes h))

theorem wf_intoSpan {k} {x g need n} (h : MemWf s) (hk : ∀ ps s, MemWf s → MemWf (k ps s)) :
    MemWf (intoSpan x g need n k s) := by
  unfold intoSpan
  split
  · rename_i e
    exact wf_holdInbound ((wf_tryAccess h (wf_engineSpots h)).error_mem e)
  · rename_i e
    exact wf_replied (wf_partWritten ((wf_tryAccess h (wf_engineSpots h)).error_mem e))
  · rename_i e
    exact wf_settleInbound (hk _ _ ((wf_tryAccess h (wf_engineSpots h)).ok_mem e))

theorem wf_applyElems {g m ps} (h : MemWf s) : MemWf (applyElems g m ps s) := by
  unfold applyElems
  dsimp only
  split
  · exact memWf_foldl h fun _ _ h => h
  · exact memWf_foldl h fun _ _ h => h

theorem wf_applyCtradd {x g} (h : MemWf s) : MemWf (applyCtradd x g s) := by
  unfold applyCtradd
  dsimp only
  split
  · rename_i e
    exact wf_holdInbound ((wf_tryAccess h (wf_engineCounter h)).error_mem e)
  · rename_i e
    exact wf_replied ((wf_tryAccess h (wf_engineCounter h)).error_mem e)
  · rename_i e
    split
    · split
      · split
        · exact wf_holdInbound ((wf_tryAccess h (wf_engineCounter h)).ok_mem e)
        · exact memWf_foldl (wf_holdInbound ((wf_tryAccess h (wf_engineCounter h)).ok_mem e)) fun _
            _ h => wf_startArrival h
      · split
        · rename_i e'
          exact wf_replied ((wf_counterAdd ((wf_tryAccess h (wf_engineCounter h)).ok_mem e)).of_snd
            e')
        · rename_i e'
          exact wf_replied ((wf_counterAdd ((wf_tryAccess h (wf_engineCounter h)).ok_mem e)).of_snd
            e')
    · split
      · split
        · exact wf_holdInbound ((wf_tryAccess h (wf_engineCounter h)).ok_mem e)
        · exact memWf_foldl (wf_holdInbound ((wf_tryAccess h (wf_engineCounter h)).ok_mem e)) fun _
            _ h => wf_startArrival h
      · split
        · rename_i e'
          exact wf_replied ((wf_counterAdd ((wf_tryAccess h (wf_engineCounter h)).ok_mem e)).of_snd
            e')
        · rename_i e'
          exact wf_replied ((wf_counterAdd ((wf_tryAccess h (wf_engineCounter h)).ok_mem e)).of_snd
            e')

theorem wf_arrive {op m} (h : MemWf s) : OutWf (arrive op m s) := by
  unfold arrive
  dsimp only
  split
  · exact .next (wf_replied h)
  · split
    · exact .next (wf_replied h)
    · split
      · exact .next (wf_settleInbound h)
      · split
        · exact .next (wf_holdInbound h)
        · split
          · exact .next (wf_intoSpan h (fun _ _ h => wf_writeCells h))
          · exact .next (wf_intoSpan h (fun _ _ h => wf_applyElems h))
          · exact .next (wf_applyCtradd h)

theorem wf_removeEntry {die k} (h : MemWf s) : MemWf (removeEntry die k s) := wf_commitBatch h

theorem wf_renameAgent {a b} (h : MemWf s) : MemWf (renameAgent a b s) := h

theorem wf_moveDeliveries {a b} (h : MemWf s) : MemWf (moveDeliveries a b s) := h

theorem wf_shootPage {ctx va large old} (h : MemWf s) : MemWf (shootPage ctx va large old s) :=
  wf_startShoot h

theorem wf_rehomePage {ctx dst va} (h : MemWf s) : MemWf (rehomePage ctx dst va s) := by
  unfold rehomePage
  dsimp only
  split
  · exact h
  · split
    · exact h
    · rename_i e
      exact wf_shootPage (wf_setEntry (memWf_foldl ((optWf_bind (wf_freeOf h) (fun _ h =>
        optWf_map_state (wf_withPacks (wf_modCtx h)) (fun _ h => h))).some_mem e) fun _ _ h =>
        wf_moveFrame _ _ h))

theorem wf_dropPage {ctx die va} (h : MemWf s) : MemWf (dropPage ctx die va s) := by
  unfold dropPage
  split
  · exact h
  · exact wf_shootPage (wf_setEntry h)

theorem wf_drawnPages {f} {n} (h : MemWf s) (hf : ∀ va s, MemWf s → MemWf (f va s)) :
    MemWf (drawnPages f n s) := by
  induction n generalizing s with
  | zero => exact h
  | succ n ih =>
    unfold drawnPages
    exact ih (hf _ _ h)

theorem wf_execSequenceSteal {thief entry} (h : MemWf s) :
    OutWf (execSequenceSteal thief entry s) := by
  unfold execSequenceSteal
  dsimp only
  split
  · exact .next h
  · split
    · exact .next h
    · split
      · exact .next (wf_commitBatch (wf_removeEntry h))
      · exact .next h
      · split
        · exact .next h
        · exact .next (wf_commitBatch (wf_removeEntry (wf_drawnPages (wf_draw (wf_moveDeliveries
            (memWf_mk (wf_leaveMerge (wf_renameAgent (wf_pickOne h)))))) (fun _ _ h =>
            wf_rehomePage h))))

theorem wf_execChipSteal {die entry} (h : MemWf s) : OutWf (execChipSteal die entry s) := by
  unfold execChipSteal
  dsimp only
  split
  · exact .next h
  · exact .next (memWf_mk (wf_leaveMerge (wf_removeEntry h)))

theorem wf_freePage {ctx} (h : MemWf s) : OptWf (freePage ctx s) := by
  unfold freePage
  dsimp only
  split
  · exact .some (wf_draw h)
  · exact .none

theorem wf_landPage {ctx die bs} (h : MemWf s) : OptWf (landPage ctx die bs s) := by
  unfold landPage
  split
  · exact .none
  · rename_i e
    split
    · rename_i e'
      exact optWf_map_state (wf_putLeaf (wf_pokeBytes _ _ ((wf_takePool ((wf_freePage h).some_mem
        e)).got_mem e'))) (fun _ h => h)
    · exact .none

theorem wf_landPages {ctx die ps} (h : MemWf s) : OptStWf (landPages ctx die ps s) := by
  induction ps generalizing s with
  | nil => exact .some h
  | cons p ps ih =>
    unfold landPages
    split
    · rename_i e
      exact ih ((wf_landPage h).some_mem e)
    · exact .none

theorem wf_landList {ctx die n} (h : MemWf s) : OptWf (landList ctx die n s) :=
  wf_landPage (wf_drawBytes h)

theorem wf_execStealStateInstall {m} (h : MemWf s) : OutWf (execStealStateInstall m s) := by
  unfold execStealStateInstall
  dsimp only
  split
  · exact .next h
  · split
    · exact .next h
    · split
      · exact .next h
      · rename_i e
        split
        · exact .next h
        · exact .next (memWf_mk (wf_commitBatch (memWf_mk (wf_pickOne ((optWf_bind_state
            (wf_landPages h) (fun _ h => wf_landList h)).some_mem e)))))

theorem wf_execStealAck {id} (h : MemWf s) : OutWf (execStealAck id s) := by
  unfold execStealAck
  dsimp only
  split
  · exact .next h
  · split
    · exact .next h
    · exact .next (wf_drawnPages (wf_freeCrl (memWf_mk (wf_draw h))) (fun _ _ h => wf_dropPage h))

theorem wf_undoSteal {id x} (h : MemWf s) : MemWf (undoSteal id x s) := wf_commitBatch h

theorem wf_execLinkRetryExpiry {port} (h : MemWf s) : OutWf (execLinkRetryExpiry port s) :=
  .next (memWf_foldl h fun _ _ h => wf_undoSteal h)

/-! ### Machine/Debug -/

theorem wf_setDbg {die off v} (h : MemWf s) : MemWf (setDbg die off v s) := h

theorem wf_dbgStatus {die st} (h : MemWf s) : MemWf (dbgStatus die st s) := wf_setDbg h

theorem wf_execBkpt (h : MemWf s) : OutWf (execBkpt s) := by
  unfold execBkpt
  refine wf_onePassTo h (fun _ _ _ _ h => ?_)
  split
  · exact .ok (wf_advance (wf_triggerStop (wf_modFrag h)))
  · exact .error h

theorem wf_gateAll (h : MemWf s) : MemWf (gateAll s) := h

theorem wf_execTstop {value} (h : MemWf s) : OutWf (execTstop value s) := by
  unfold execTstop
  dsimp only
  split
  · exact .next (wf_dbgStatus h)
  · refine .next (wf_dbgStatus ?_)
    split
    · exact wf_gateAll h
    · exact h

theorem wf_execTstopExpiry (h : MemWf s) : OutWf (execTstopExpiry s) := by
  unfold execTstopExpiry
  split
  · exact .next (wf_gateAll h)
  · exact .next h

theorem wf_execDebugRelease (h : MemWf s) : OutWf (execDebugRelease s) := .next h

theorem wf_execStopcl {cluster} (h : MemWf s) : OutWf (execStopcl cluster s) := by
  unfold execStopcl
  split
  · exact .next h
  · split
    · exact .next (wf_dbgStatus h)
    · exact .next (wf_dbgStatus (wf_triggerStop h))

theorem wf_execClusterStopArrival {core} (h : MemWf s) : OutWf (execClusterStopArrival core s) := by
  unfold execClusterStopArrival
  dsimp only
  split
  · exact .next h
  · split
    · exact .next h
    · refine .next (memWf_foldl h fun _ _ h => ?_)
      split
      · split
        · exact h
        · exact wf_freezeFrag h
      · exact h

theorem wf_execStep {core tslot lane} (h : MemWf s) : OutWf (execStep core tslot lane s) := by
  unfold execStep
  dsimp only
  split
  · exact .next (wf_dbgStatus h)
  · split
    · exact .next (wf_dbgStatus h)
    · exact .next (wf_dbgStatus (wf_setFrag h))

theorem wf_execStepBlocked {core tslot lane} (h : MemWf s) :
    OutWf (execStepBlocked core tslot lane s) := by
  unfold execStepBlocked
  dsimp only
  split
  · exact .next h
  · split
    · exact .next h
    · exact .next (wf_dbgStatus (wf_setFrag h))

theorem wf_execResume {cluster} (h : MemWf s) : OutWf (execResume cluster s) := by
  unfold execResume
  dsimp only
  split
  · exact .next h
  · split <;> exact .next (wf_dbgStatus h)

theorem wf_execColophonCounterAdd {launch} (h : MemWf s) :
    OutWf (execColophonCounterAdd launch s) := by
  unfold execColophonCounterAdd
  split
  · exact .next h
  · split
    · exact .next h
    · extract_lets die who g place drop
      have hp : ResWf place := by
        unfold place
        refine wf_engThen ?_ fun s ps h => ?_
        · split
          · exact .ok h
          · exact wf_tryAccess h (wf_engineSpots h)
        · exact wf_engThen (wf_tryAccess h (wf_engineCounter h)) (fun _ _ h => .ok h)
      have hd : ∀ s l, MemWf s → MemWf (drop s l) := fun s l h => h
      clear_value place drop
      dsimp only
      split
      · exact .next (hp.error_mem rfl)
      · exact .next (hd _ _ (hp.error_mem rfl))
      · split
        · split
          · exact .next (memWf_mk (hp.ok_mem rfl))
          · exact .next (hd _ _ (wf_addCounter (hp.ok_mem rfl)))
        · split
          · exact .next (memWf_mk (wf_writeCells (hp.ok_mem rfl)))
          · exact .next (hd _ _ (wf_addCounter (wf_writeCells (hp.ok_mem rfl))))

/-! ### Machine/Boot -/

theorem wf_leaveRing {ring} (h : MemWf s) : MemWf (leaveRing ring s) := by
  unfold leaveRing
  dsimp only
  split
  · exact memWf_foldl (memWf_foldl h fun _ _ h => wf_dropDescr h) fun _ _ h => wf_endOp h
  · exact memWf_foldl (memWf_foldl (memWf_foldl h fun _ _ h => wf_dropDescr h) fun _ _ h =>
      wf_endOp h) fun _ _ h => wf_giveBack h

theorem wf_bindRing {offset v} (h : MemWf s) : MemWf (bindRing offset v s) := by
  unfold bindRing
  dsimp only
  split
  · exact h
  · exact memWf_mk (wf_leaveRing h)

theorem wf_execRegisterWrite {offset value} (h : MemWf s) :
    OutWf (execRegisterWrite offset value s) := by
  unfold execRegisterWrite
  split
  · exact .next h
  · exact .next (wf_bindRing h)

theorem wf_execHostBar2Access {offset data} (h : MemWf s) :
    OutWf (execHostBar2Access offset data s) := by
  unfold execHostBar2Access
  split
  · exact .next h
  · split
    · exact .next h
    · exact .next (wf_writeRuns _ _ _ h)

theorem wf_execBootImageWrite {offset data} (h : MemWf s) :
    OutWf (execBootImageWrite offset data s) := by
  unfold execBootImageWrite
  dsimp only
  split <;> exact .next h

theorem wf_execBootstatGo (h : MemWf s) : OutWf (execBootstatGo s) := by
  unfold execBootstatGo
  dsimp only
  repeat' split
  all_goals exact .next h

theorem wf_restarted {p} (h : MemWf s) :
    MemWf (restarted (s.mem.filter p) s) := Memory.wf_filter _ h

theorem wf_execReset (h : MemWf s) : OutWf (execReset s) := .next (wf_restarted h)

theorem wf_execPowerLoss {skip} (h : MemWf s) : OutWf (execPowerLoss skip s) :=
  .next (memWf_mk (wf_restarted h))

theorem wf_execThermalTrip (h : MemWf s) : OutWf (execThermalTrip s) :=
  .next (memWf_mk (wf_restarted h))

theorem wf_execGovernorBudgetUpdate {cluster budget} (h : MemWf s) :
    OutWf (execGovernorBudgetUpdate cluster budget s) := by
  unfold execGovernorBudgetUpdate
  dsimp only
  split <;> exact .next h

theorem wf_execAttestationRequest {ctx nonce} (h : MemWf s) :
    OutWf (execAttestationRequest ctx nonce s) := by
  unfold execAttestationRequest
  dsimp only
  repeat' split
  all_goals exact .next h

theorem wf_exec {ins} (h : MemWf s) : OutWf (exec ins s) := by
  unfold exec
  cases ins
  case mov | laneIndex | laneDie | laneGcore | movi | movhi => exact wf_oneReg h
  case iadd16 | isub16 | imul16 | iand16 | ior16 | ixor16 | ishl16 | ishr16 | fadd16 | fsub16 |
      fmul16 | fmax16 | fmin16 | imax16 | imin16 => exact wf_short2 h
  case iadd | isub | imul | imulh | imulhu | imad | iand | ior | ixor | iandn | ishl | ishr |
      isra | imin | imax | umin | umax | iseq | islt | isltu | iadd64 | isub64 | fadd | fsub |
      fmul | fma | fmin | fmax | fseq | fslt | fsle | sel => exact wf_laneOp2 h
  case addi | shli | shri | srai | andi | rcp | rsq | sqrt | exp2 | log2 | sin2pi | cos2pi |
      tanh | fabs | fneg | cvtif | cvtuf | cvtfi | cvtfu | cvtfir | frint | ffloor | ftrunc |
      clz | popc | brev | rnd => exact wf_laneOp1 h
  case perm => exact wf_execPerm h
  case xredIadd | xredImin | xredImax | xredUmin | xredUmax | xredIand | xredIor | xredIxor |
      xredFadd | xredFmin | xredFmax | xredIscan | xredIscanx | xredFscan |
      xredFscanx => exact wf_xred h
  case laneHome => exact wf_execLaneHome h
  case dset | dvarU | dstdU | dscale | dfoldT | dfoldM | dfoldL | dcov | dtos | dtosL | stod |
      dclamp | dfuse => exact wf_laneGen h
  case dmean | dvar | dstd => exact wf_spreadOut h
  case dtagNew => exact wf_execDtagNew h
  case dtagRead => exact wf_execDtagRead h
  case dtagReset => exact wf_execDtagReset h
  case ldb | ldh | ldw | ldd => exact wf_load h
  case stb | sth | stw | std => exact wf_store h
  case astoIadd | astoFadd | astoFaddR | astoImin | astoImax | astoFmin | astoFmax |
      astoIor => exact wf_asto h
  case fence => exact wf_execFence h
  case pref => exact wf_execPref h
  case spill => exact wf_execSpill h
  case fill => exact wf_execFill h
  case spillp => exact wf_execSpillp h
  case fillp => exact wf_execFillp h
  case rngKey | rngPos | rngPosAdd => exact wf_slotOp h
  case rngKeyLo | rngKeyHi | rngPosRd => exact wf_slotRead h
  case rngU | rngG | rngB | rngD | srnd => exact wf_drawOp h
  case rngC => exact wf_execRngC h
  case cpyGo => exact wf_execCpyGo h
  case cpyFence => exact wf_execCpyFence h
  case cpyCancel => exact wf_execCpyCancel h
  case selGo | selMerge => exact wf_selectGo h
  case tilePin | tileQuery | tilePrefetch | tileDrainlog => exact wf_tileOp h
  case crlPost => exact wf_execCrlPost h
  case mma => exact wf_execMma h
  case dmma => exact wf_execDmma h
  case mmaqM | mmaqD => exact wf_mmaq h
  case mfen => exact wf_execMfen h
  case mcommit => exact wf_execMcommit h
  case mwait => exact wf_execMwait h
  case mdrainRows | mdrainAdd => exact wf_drainRows h
  case mdrainFolio => exact wf_execMdrainFolio h
  case maccZero => exact wf_execMaccZero h
  case maccLoad => exact wf_execMaccLoad h
  case maccTree => exact wf_execMaccTree h
  case maccGov => exact wf_execMaccGov h
  case bra => exact wf_execBra h
  case brz | brnz => exact wf_branchIf h
  case split => exact wf_execSplit h
  case rcv => exact wf_execRcv h
  case kpush => exact wf_execKpush h
  case call => exact wf_execCall h
  case ret => exact wf_execRet h
  case jmpr => exact wf_execJmpr h
  case exit => exact wf_execExit h
  case yield => exact wf_execYield h
  case nop => exact wf_execNop h
  case bkpt => exact wf_execBkpt h
  case saluAdd | saluSub | saluMul | saluMulhu | saluAnd | saluOr | saluXor | saluShl | saluShr |
      saluSra | saluSlt | saluSltu | saluMin | saluMax | saluMinu | saluMaxu => exact wf_salu h
  case saluiAdd | saluiAnd | saluiOr | saluiXor | saluiShl | saluiShr | saluiSra | saluiSlt |
      saluiSltu | saluiShor => exact wf_salui h
  case sfpuAdd | sfpuSub | sfpuMul | sfpuDiv | sfpuMin | sfpuMax | sfpuSeq | sfpuSlt | sfpuSle |
      sfpuCvtif | sfpuCvtfi => exact wf_sfpu h
  case sldD | sldW | sldWs => exact wf_scalarLoad h
  case sstD | sstW => exact wf_scalarStore h
  case tsrSet => exact wf_execTsrSet h
  case tsrGet | tsrLsr | tsrOvr | tsrFlr | kregRd => exact wf_scalarOp h
  case tsrLsw => exact wf_execTsrLsw h
  case tsrOvc => exact wf_execTsrOvc h
  case tsrFlc => exact wf_execTsrFlc h
  case xps => exact wf_execXps h
  case voteAny | voteAll | voteCount | voteFirst | voteBallot => exact wf_vote h
  case sbcastD | sbcastM => exact wf_sbcast h
  case ctrAdd => exact wf_execCtrAdd h
  case ctrWait => exact wf_execCtrWait h
  case ctrLoad => exact wf_execCtrLoad h
  case bar => exact wf_execBar h
  case sysRd => exact wf_execSysRd h
  case sysWr => exact wf_execSysWr h
  case sysHrd => exact wf_execSysHrd h
  case sysHwr => exact wf_execSysHwr h
  case sysCancel => exact wf_execSysCancel h
  case trap => exact wf_execTrap h
  case svcVersion | svcPoolmap | svcPoolcount | svcPrefetch | svcUnknown => exact wf_svc h
  case rte => exact wf_execRte h
  case kregWr => exact wf_execKregWr h
  case kregAdd => exact wf_execKregAdd h
  case clause => exact wf_execClause h
  case halt => exact wf_execHalt h
  case cmovh | corl | cscale | ctopp | cexp | cnorm | cpsum | nset | rngu | cdraw |
      cacc => exact wf_microOn h
  case carillonFadd | carillonFsub | carillonFmul | carillonFdiv => exact wf_microF h
  case cget => exact wf_execCget h
  case cpen => exact wf_execCpen h
  case ctopk => exact wf_execCtopk h
  case br => exact wf_execBr h
  case waitc => exact wf_execWaitc h
  case emit => exact wf_execEmit h
  case clauseWaitRelease => exact wf_execClauseWaitRelease h
  case loadDataReturn => exact wf_execLoadDataReturn h
  case waitFullRead => exact wf_execWaitFullRead h
  case storeTaken => exact wf_execStoreTaken h
  case noiseResult => exact wf_execNoiseResult h
  case ctrAddResult => exact wf_execCtrAddResult h
  case ctrWaitReturn => exact wf_execCtrWaitReturn h
  case ctrLoadResult => exact wf_execCtrLoadResult h
  case barRelease => exact wf_execBarRelease h
  case fenceComplete => exact wf_execFenceComplete h
  case svcReturn => exact wf_execSvcReturn h
  case astoApply => exact wf_execAstoApply h
  case drainAddApply => exact wf_execDrainAddApply h
  case matrixOpComplete => exact wf_execMatrixOpComplete h
  case mmaqJoin => exact wf_execMmaqJoin h
  case maccTreeJoin => exact wf_execMaccTreeJoin h
  case governorWindow => exact wf_execGovernorWindow h
  case quireComplete => exact wf_execQuireComplete h
  case cpyFenceComplete => exact wf_execCpyFenceComplete h
  case selectionPartialList => exact wf_execSelectionPartialList h
  case selectionComplete => exact wf_execSelectionComplete h
  case candidateDelivery => exact wf_execCandidateDelivery h
  case carillonWake => exact wf_execCarillonWake h
  case carillonSuspend => exact wf_execCarillonSuspend h
  case carillonResume => exact wf_execCarillonResume h
  case logAppend => exact wf_execLogAppend h
  case tileFrameObtained => exact wf_execTileFrameObtained h
  case tileArrivalFailed => exact wf_execTileArrivalFailed h
  case phaseLogArrival => exact wf_execPhaseLogArrival h
  case faultRecordPost => exact wf_execFaultRecordPost h
  case faultRingHeadPoll => exact wf_execFaultRingHeadPoll h
  case poolRefill => exact wf_execPoolRefill h
  case mergeRewalk => exact wf_execMergeRewalk h
  case shootdown => exact wf_execShootdown h
  case shootdownAgentAdd => exact wf_execShootdownAgentAdd h
  case unitPlacement => exact wf_execUnitPlacement h
  case unitFinish => exact wf_execUnitFinish h
  case phaseEnd => exact wf_execPhaseEnd h
  case preemptHalt => exact wf_execPreemptHalt h
  case preemptSave => exact wf_execPreemptSave h
  case preemptSwapDone => exact wf_execPreemptSwapDone h
  case restore => exact wf_execRestore h
  case restoreDone => exact wf_execRestoreDone h
  case descriptorTake => exact wf_execDescriptorTake h
  case fabricStore | fabricAsto | fabricCtradd => exact wf_arrive h
  case descriptorAck => exact wf_execDescriptorAck h
  case linkRetryExpiry => exact wf_execLinkRetryExpiry h
  case sequenceSteal => exact wf_execSequenceSteal h
  case chipSteal => exact wf_execChipSteal h
  case stealStateInstall => exact wf_execStealStateInstall h
  case stealAck => exact wf_execStealAck h
  case queueDoorbell => exact wf_execQueueDoorbell h
  case admdb => exact wf_execAdmdb h
  case registerWrite => exact wf_execRegisterWrite h
  case ctxCreate => exact wf_execCtxCreate h
  case ctxDestroy => exact wf_execCtxDestroy h
  case queueCreate => exact wf_execQueueCreate h
  case queueDestroy => exact wf_execQueueDestroy h
  case memMap => exact wf_execMemMap h
  case memUnmap | memProtect => exact wf_changeMapping h
  case tileEvict => exact wf_execTileEvict h
  case faultReply => exact wf_execFaultReply h
  case bufDeclare => exact wf_execBufDeclare h
  case launch => exact wf_execLaunch h
  case graphBegin => exact wf_execGraphBegin h
  case graphEnd => exact wf_execGraphEnd h
  case graphReplay => exact wf_execGraphReplay h
  case phaseOpen => exact wf_execPhaseOpen h
  case phaseClose => exact wf_execPhaseClose h
  case cancel => exact wf_execCancel h
  case crlBind => exact wf_execCrlBind h
  case crlFree => exact wf_execCrlFree h
  case crlLoad => exact wf_execCrlLoad h
  case crlRestart => exact wf_execCrlRestart h
  case batchUpdate => exact wf_execBatchUpdate h
  case batchIter => exact wf_execBatchIter h
  case signal => exact wf_execSignal h
  case unknownCommand => exact wf_execUnknownCommand h
  case hostBar2Access => exact wf_execHostBar2Access h
  case bootImageWrite => exact wf_execBootImageWrite h
  case bootstatGo => exact wf_execBootstatGo h
  case reset => exact wf_execReset h
  case thermalTrip => exact wf_execThermalTrip h
  case governorBudgetUpdate => exact wf_execGovernorBudgetUpdate h
  case attestationRequest => exact wf_execAttestationRequest h
  case tstop => exact wf_execTstop h
  case tstopExpiry => exact wf_execTstopExpiry h
  case debugRelease => exact wf_execDebugRelease h
  case stopcl => exact wf_execStopcl h
  case clusterStopArrival => exact wf_execClusterStopArrival h
  case step => exact wf_execStep h
  case stepBlocked => exact wf_execStepBlocked h
  case resume => exact wf_execResume h
  case colophonCounterAdd => exact wf_execColophonCounterAdd h
  case illegalInstruction => exact wf_execIllegalInstruction h
  case fetchFault => exact wf_execFetchFault h
  case illegalOp => exact wf_execIllegalOp h
  case pcRange => exact wf_execPcRange h
  case powerLoss => exact wf_execPowerLoss h

/-! ### Machine/Schedule -/

theorem wf_fetchWord {t u pc} (h : MemWf s) : MemWf (fetchWord t u pc s).2 := by
  unfold fetchWord
  dsimp only
  split
  · exact wf_fetchHalf h
  · split
    · exact wf_fetchHalf h
    · split
      · exact wf_fetchHalf h
      · split <;> exact wf_fetchHalf (wf_fetchHalf h)

theorem wf_fetchInstr {i f t u} (h : MemWf s) : MemWf (fetchInstr i f t u s).2 := by
  unfold fetchInstr
  split
  · exact h
  · split
    · exact h
    · split
      · rename_i e
        exact (wf_fetchWord h).of_snd e
      · rename_i e
        exact wf_modFrag ((wf_fetchWord h).of_snd e)

theorem wf_issue {i} (h : MemWf s) : OutWf (issue i s) := by
  unfold issue
  dsimp only
  split
  · exact .next h
  · split
    · exact .next h
    · split
      · exact .next h
      · exact wf_exec (memWf_mk (wf_fetchInstr h))

theorem wf_runMicro {n} (h : MemWf s) : OutWf (runMicro n s) := by
  unfold runMicro
  split
  · exact .next h
  · exact wf_exec h

theorem wf_runChoice {c} (h : MemWf s) : OutWf (runChoice s c) := by
  cases c with
  | event i => exact wf_exec h
  | input i rest => exact wf_exec (s := { s with inputs := rest }) h
  | frag i => exact wf_issue h
  | micro n => exact wf_runMicro h

theorem wf_passTime (h : MemWf s) : MemWf (passTime s) := by
  unfold passTime
  dsimp only
  split
  · exact h
  · exact memWf_mk (wf_draw h)

theorem wf_showLogs {o : Out} {s} (ho : OutWf o) : OutWf (showLogs s o) := by
  cases ho with
  | next h =>
    unfold showLogs
    refine .next (memWf_foldl h fun _ _ h => ?_)
    split
    · exact h
    · exact wf_pokeBytes _ _ h
  | fault => exact .fault
  | refused => exact .refused

theorem wf_noteClear {old} (h : MemWf s) : MemWf (noteClear old s) := h

theorem wf_afterStep {o : Out} {old} (ho : OutWf o) : OutWf (afterStep old o) := by
  cases ho with
  | next h =>
    unfold afterStep
    exact .next (wf_passTime (wf_noteClear h))
  | fault => exact .fault
  | refused => exact .refused

theorem wf_takeTurn {cs} (h : MemWf s) : MemWf (takeTurn s cs).2 := by
  unfold takeTurn
  extract_lets now
  split; next k s' e =>
  extract_lets c
  have h' : MemWf s' := (wf_choose h).of_snd e
  exact h'

theorem wf_stepChoice (h : MemWf s) : OutWf (stepChoice s) := by
  unfold stepChoice
  split
  · exact wf_afterStep (wf_showLogs (wf_issue h))
  · split
    · exact .next (wf_passTime h)
    · exact wf_afterStep (wf_showLogs (wf_runChoice h))
    · exact wf_afterStep (wf_showLogs (wf_runChoice (wf_takeTurn h)))

/-! ### Machine/Step -/

theorem wf_step (h : MemWf s) : OutWf (step s) := wf_stepChoice h

end

/-- Settles O57: every instruction's own operation and the step's frame around it keep memory
canonical. -/
theorem memoryKeepsItsForm : Obligations.MemoryKeepsItsForm :=
  ⟨fun _ _ _ h e => (wf_exec h).next_mem e, fun _ _ h e => (wf_step h).next_mem e⟩

end Sys2Proof.Machine
end
